-- ==== Sys2Proof/Word.lean ====
section
/-! DEFINITION. The word types of the part and nothing else: widths the manual fixes (spec/01, 02, 09). -/
namespace Sys2Proof

/-- A byte of memory (R7). -/
abbrev Byte := BitVec 8

/-- A vector register (R16). -/
abbrev W32 := BitVec 32

/-- A register pair, an instruction word, a time-base reading (R18, R32, R54). -/
abbrev W64 := BitVec 64

/-- A virtual address (R15). -/
abbrev VAddr := BitVec 56

/-- An intermediate address (R232). -/
abbrev IAddr := BitVec 48

/-- A register, predicate, tile or immediate field of 8 bits of a full-form word (R54). -/
abbrev Field8 := BitVec 8

end Sys2Proof
end

