-- ==== Sys2Proof/Syntax.lean ====
section
/-! DEFINITION. The syntax of the machine's steps: one constructor of `Instr` per row of
spec/opcode_table.json. A full-form word keeps the guard and switch fields of R54 in `Hdr` and its own fields in
the operand record of its X layout (R58, R61-R64, R297, R312, R371); a pair word keeps its two slots (R66). An event of
the machine carries nothing: what it happens to, and what comes from outside the part with it, is the `Subject` that
the state holds while the event happens. -/
namespace Sys2Proof

/-- TYPE of the X field of classes 0-3 and 6 (R58), in code order 0x0 to 0xF. -/
inductive Ty where
  | i8 | i16 | i32 | i64 | n8 | n16 | n32 | n64 | f16 | bf16 | f32 | f64 | e4m3 | e5m2 | vw | b32
  deriving DecidableEq, Repr

/-- Rounding modes (R40), in RM code order (R58). -/
inductive Rm where
  | rne | rz | ru | rd
  deriving DecidableEq, Repr

/-- Local SPACE codes (R61). -/
inductive Space where
  | sh | sc | sp | mm
  deriving DecidableEq, Repr

/-- WIDTH codes of class 8 (R61). -/
inductive Width where
  | b8 | b16 | b32 | b64 | b128
  deriving DecidableEq, Repr

/-- Scopes in the code order of R62. -/
inductive Scope where
  | lane | group | team | cluster | die | device | system
  deriving DecidableEq, Repr

/-- FMT codes of class 7 (R64). -/
inductive MFmt where
  | f16 | bf16 | e4m3 | e5m2 | q8q8 | q4q8
  deriving DecidableEq, Repr

/-- GS codes of class 7 (R64): the group size. -/
inductive GSize where
  | g32 | g64 | g128
  deriving DecidableEq, Repr

/-- The fields every full-form word has besides its opcode (R54): S, GN and GP. -/
structure Hdr where
  /-- S: the run ends after this word. -/
  sw : Bool
  /-- GN: guard negate. -/
  gn : Bool
  /-- GP: 0-23 name p0-p23, 31 means unguarded, 24-30 are reserved (R55). -/
  gp : BitVec 5
  deriving DecidableEq, Repr

/-- Operands of classes 0-4 and 6 (R54, R58). -/
structure Arith where
  d : Field8
  a : Field8
  b : Field8
  i : Bool
  ra : Bool
  rb : Bool
  ty : Ty
  rm : Rm
  fs : Bool
  sub : BitVec 4
  c : Field8
  deriving DecidableEq, Repr

/-- Operands of class 5 (R63). -/
structure Ctl where
  d : Field8
  a : Field8
  b : Field8
  u : Bool
  bp : BitVec 8
  ofl : BitVec 13
  deriving DecidableEq, Repr

/-- Operands of class 7 (R64). -/
structure Mat where
  d : Field8
  a : Field8
  b : Field8
  fmt : MFmt
  gs : GSize
  oe : Bool
  od : BitVec 2
  bs : BitVec 2
  opn : Bool
  cls : Bool
  cv : BitVec 4
  deriving DecidableEq, Repr

/-- Operands of class 8 (R61). -/
structure Loc where
  d : Field8
  a : Field8
  b : Field8
  space : Space
  width : Width
  split : Bool
  aux : BitVec 3
  off : BitVec 12
  deriving DecidableEq, Repr

/-- Operands of class 9 (R62). -/
structure Main where
  d : Field8
  a : Field8
  b : Field8
  scope : Scope
  evp : BitVec 2
  lu : Bool
  ls : Bool
  cq : BitVec 3
  opx : BitVec 12
  deriving DecidableEq, Repr

/-- Operands of class A (R297). -/
structure Eng where
  d : Field8
  a : Field8
  b : Field8
  scope : Scope
  sq : BitVec 2
  cq : BitVec 3
  opx : BitVec 12
  deriving DecidableEq, Repr

/-- Operands of class B (R312). -/
structure Unt where
  d : Field8
  a : Field8
  b : Field8
  mode : BitVec 2
  deriving DecidableEq, Repr

/-- Operands of class C (R371). -/
structure Sys where
  d : Field8
  a : Field8
  b : Field8
  sub : BitVec 4
  deriving DecidableEq, Repr

/-- Guards of a pair slot, in PG code order (R66). -/
inductive PGuard where
  | always | p0 | p1 | notP0
  deriving DecidableEq, Repr

/-- Pair opcodes in POP code order 0x00-0x15 (R66). -/
inductive PairOp where
  | add | sub | minI32 | maxI32 | minN32 | maxN32 | and_ | or_ | xor_ | shl | shr | sar | mov | movi
  | fadd | fsub | fmul | fmin | fmax | hadd2 | hmul2 | addi
  deriving DecidableEq, Repr

/-- The fields of a pair slot other than POP (R66). -/
structure SlotArgs where
  pg : PGuard
  d : Field8
  b : Field8
  imm : BitVec 7
  deriving DecidableEq, Repr

/-- A whole pair slot (R66). -/
structure PairSlot where
  op : PairOp
  args : SlotArgs
  deriving DecidableEq, Repr

/-- Names a frontier entry of a group by one lane slot it holds: every live lane is in exactly one entry (R142). -/
structure BundleId where
  team : Nat
  group : Nat
  slot : Nat
  deriving DecidableEq, Repr

/-- A 128-byte line of local memory: of a team's shared memory or of a gang's scratchpad (R227). -/
inductive LineId where
  | shared (team line : Nat)
  | scratch (gang line : Nat)
  deriving DecidableEq, Repr

/-- The launch unit's choice of place for a gang (R160, R225): the core of each team in `$team` order and the
scratchpad base Gb as a die address. -/
structure Placement where
  cores : List Nat
  gb : Nat
  deriving DecidableEq, Repr

/-- What a timed exchange with the time master yields (R416): the measured offset bound in ns and the slew the
part applies to its counter until the next exchange, in ticks added. -/
structure SyncResult where
  bound : Nat
  slew : Int
  deriving DecidableEq, Repr

/-- What an agent outside the part asks of a byte range of device memory. -/
inductive Access where
  /-- read `len` bytes -/
  | read (len : Nat)
  /-- write these bytes -/
  | write (bytes : List Byte)
  /-- take the 128-byte line for modification in the agent's own cache (R410) -/
  | own
  /-- the agent writes bytes, from an offset on, in its modified copy of the line (R410): a recall will give them -/
  | modify (off : Nat) (bytes : List Byte)
  /-- write back a line the agent held modified -/
  | writeBack (bytes : List Byte)
  /-- a far atomic of R245's far OP code, on 4 or 8 bytes -/
  | atomic (op : BitVec 4) (w64 : Bool) (operand compare : W64) (cas : Bool)
  deriving DecidableEq, Repr

/-- A Damask request that arrives (R413, R414, R425): the part it is addressed to, the sender, the incarnation it carries,
the IA and the access. -/
structure PeerRequest where
  dst : BitVec 6
  dev : BitVec 6
  inc : BitVec 8
  port : Nat
  ia : IAddr
  acc : Access
  deriving DecidableEq, Repr

/-- A host access to device memory over HHL (R411), by intermediate address; `inc` is the host's incarnation (R425). -/
structure HostRequest where
  inc : BitVec 8
  ia : IAddr
  acc : Access
  deriving DecidableEq, Repr

/-- A firmware image (R436): its signature as an octet string, and the bytes of the whole image apart from it, which carry its
version and its public key. -/
structure FwImage where
  sig : List (BitVec 8)
  bytes : List (BitVec 8)
  deriving DecidableEq, Repr

/-- What a start finds outside the part (R432, R436, R437): the 2,048 bytes of the configuration blob in the board's flash
as 64-bit words, the firmware image, and which of steps 1, 2, 3 and 6 fail or exceed their limits. -/
structure BootInput where
  blob : Vector (BitVec 64) 256
  fw : FwImage
  failStep1 : Bool
  failStep2 : Bool
  failStep3 : Bool
  failStep6 : Bool
  blobTimeout : Bool
  fwTimeout : Bool
  /-- ports trained in step 6 -/
  ports : BitVec 12
  /-- the incarnation that a replacement learns from its neighbours (R426) -/
  learned : Option (BitVec 8)
  deriving DecidableEq, Repr

/-- What an event of the machine happens to, and what it brings from outside the part. DESIGN CHOICE
(notes/assumptions/2). DESIGN CHOICE (notes/assumptions/61). DESIGN CHOICE (notes/assumptions/2). -/
inductive Subject where
  /-- nothing but the part itself -/
  | self
  /-- a frontier entry -/
  | bundle (b : BundleId)
  /-- a variable-latency result of a frontier entry's run, by its place among the run's results (R71) -/
  | result (b : BundleId) (index : Nat)
  /-- a line of local memory -/
  | line (ln : LineId)
  /-- an agent, operation, queue, unit, device or table entry by number -/
  | unit (n : Nat)
  /-- the same by two numbers: core and entry, stack and channel, team and tile, ... -/
  | unit2 (n m : Nat)
  /-- the same by three numbers: stack, scene and treelet, ... -/
  | unit3 (n m k : Nat)
  /-- a value written to register `n` of a numbered agent, once the transaction that carries it is taken -/
  | write (n : Nat) (v : W64)
  /-- a host write of `width` bytes at an offset of the control window (R408), with the incarnation it carries (R425) -/
  | window (off width : Nat) (v : W64) (inc : BitVec 8)
  /-- a launch and the place the launch unit chooses for its next gang -/
  | place (launch : Nat) (p : Placement)
  | sync (x : SyncResult)
  | peer (r : PeerRequest)
  | host (r : HostRequest)
  | boot (b : BootInput)
  deriving DecidableEq, Repr

/-- The steps of the part: one constructor per row of spec/opcode_table.json. -/
inductive Instr where
  -- integer, class 0 (spec/04)
  /-- ADD (R90). Integer add of A and B into D, wrapping or saturating by the sat bit. -/
  | add (h : Hdr) (x : Arith)
  /-- SUB (R90). Integer subtract of B from A into D, wrapping or saturating. -/
  | sub (h : Hdr) (x : Arith)
  /-- ADDC (R91). Add with carry, reading and writing the carry predicate pC. -/
  | addc (h : Hdr) (x : Arith)
  /-- SUBB (R91). Subtract with borrow, reading and writing the borrow predicate pC. -/
  | subb (h : Hdr) (x : Arith)
  /-- MUL (R90). Integer multiply of A and B into D. -/
  | mul (h : Hdr) (x : Arith)
  /-- MULH (R93). Writes the upper half of the exact double-width product. -/
  | mulh (h : Hdr) (x : Arith)
  /-- MAD (R90). Integer multiply-add A·B + C into D. -/
  | mad (h : Hdr) (x : Arith)
  /-- MADW (R93). Widening 32x32 multiply added to a 64-bit pair C. -/
  | madw (h : Hdr) (x : Arith)
  /-- DIV (R94). Truncating integer division with defined results for zero divisors; variable latency. -/
  | div_ (h : Hdr) (x : Arith)
  /-- REM (R94). Truncating integer remainder; variable latency. -/
  | rem_ (h : Hdr) (x : Arith)
  /-- MIN (R90). Writes the lesser of A and B by the signedness of TYPE. -/
  | min_ (h : Hdr) (x : Arith)
  /-- MAX (R90). Writes the greater of A and B by the signedness of TYPE. -/
  | max_ (h : Hdr) (x : Arith)
  /-- ABS (R90). Writes the absolute value of A. -/
  | abs (h : Hdr) (x : Arith)
  /-- NEG (R90). Writes the negation of A. -/
  | neg (h : Hdr) (x : Arith)
  /-- ADDS (R92). Wrapping add that sets pC when the exact sum is out of range. -/
  | adds (h : Hdr) (x : Arith)
  /-- SUBS (R92). Wrapping subtract that sets pC when the exact difference is out of range. -/
  | subs (h : Hdr) (x : Arith)
  /-- CLAMP (R90). Writes min(max(A, B), C). -/
  | clamp (h : Hdr) (x : Arith)
  /-- LEA (R95). Writes A + (B << s) modulo the width. -/
  | lea (h : Hdr) (x : Arith)
  /-- CMP (R95). Compares A against B and writes the predicate pD. -/
  | cmp (h : Hdr) (x : Arith)
  /-- SEL (R95). Selects A when pC is 1 and B otherwise. -/
  | sel (h : Hdr) (x : Arith)
  /-- MOVI (R60). Writes a sign-extended 22-bit immediate to vD. -/
  | movi (h : Hdr) (d : Field8) (k : BitVec 22)
  /-- MOVH (R60). Writes a 22-bit immediate to vD[31:10] and keeps vD[9:0]. -/
  | movh (h : Hdr) (d : Field8) (k : BitVec 22)
  /-- DP4 (R96). Four-way byte dot product added to C. -/
  | dp4 (h : Hdr) (x : Arith)
  -- bits, class 1 (spec/04)
  /-- AND (R97). Bitwise AND of A and B. -/
  | and_ (h : Hdr) (x : Arith)
  /-- OR (R97). Bitwise OR of A and B. -/
  | or_ (h : Hdr) (x : Arith)
  /-- XOR (R97). Bitwise XOR of A and B. -/
  | xor_ (h : Hdr) (x : Arith)
  /-- ANDN (R97). Bitwise A AND NOT B. -/
  | andn (h : Hdr) (x : Arith)
  /-- NOT (R97). Bitwise complement of A. -/
  | not_ (h : Hdr) (x : Arith)
  /-- SHL (R98). Logical shift left by an unsigned count. -/
  | shl (h : Hdr) (x : Arith)
  /-- SHR (R98). Logical shift right by an unsigned count. -/
  | shr (h : Hdr) (x : Arith)
  /-- SAR (R98). Arithmetic shift right by an unsigned count. -/
  | sar (h : Hdr) (x : Arith)
  /-- ROTL (R98). Rotates A left by the count modulo the width. -/
  | rotl (h : Hdr) (x : Arith)
  /-- BFX (R99). Extracts a bit field and sign- or zero-extends it. -/
  | bfx (h : Hdr) (x : Arith)
  /-- BFI (R99). Inserts a bit field of A into C. -/
  | bfi (h : Hdr) (x : Arith)
  /-- POPC (R97). Counts the 1 bits of A. -/
  | popc (h : Hdr) (x : Arith)
  /-- CLZ (R97). Counts leading zero bits of A. -/
  | clz (h : Hdr) (x : Arith)
  /-- CTZ (R97). Counts trailing zero bits of A. -/
  | ctz (h : Hdr) (x : Arith)
  /-- BREV (R97). Reverses the bit order of A. -/
  | brev (h : Hdr) (x : Arith)
  /-- PRMT (R100). Builds each byte of D from selected bytes of A and B under selectors in C. -/
  | prmt (h : Hdr) (x : Arith)
  /-- LOP3 (R101). Applies an 8-bit truth table bitwise to three inputs. -/
  | lop3 (h : Hdr) (x : Arith)
  -- floating point, class 2 (spec/04)
  /-- FADD (R102). Floating add with one rounding. -/
  | fadd (h : Hdr) (x : Arith)
  /-- FSUB (R102). Floating subtract with one rounding. -/
  | fsub (h : Hdr) (x : Arith)
  /-- FMUL (R102). Floating multiply with one rounding. -/
  | fmul (h : Hdr) (x : Arith)
  /-- FFMA (R102). Fused multiply-add A·B + C with one rounding. -/
  | ffma (h : Hdr) (x : Arith)
  /-- FMIN (R104). Returns the lesser operand, setting quiet NaNs aside. -/
  | fmin (h : Hdr) (x : Arith)
  /-- FMAX (R104). Returns the greater operand, setting quiet NaNs aside. -/
  | fmax (h : Hdr) (x : Arith)
  /-- FCMP (R105). Floating compare writing a predicate. -/
  | fcmp (h : Hdr) (x : Arith)
  /-- FCLASS (R106). Writes a one-hot class word for A. -/
  | fclass (h : Hdr) (x : Arith)
  /-- HFMA2 (R103). Packed two-half fused multiply-add. -/
  | hfma2 (h : Hdr) (x : Arith)
  /-- HADD2 (R103). Packed two-half add. -/
  | hadd2 (h : Hdr) (x : Arith)
  /-- HMUL2 (R103). Packed two-half multiply. -/
  | hmul2 (h : Hdr) (x : Arith)
  /-- HDOT2 (R107). Two-element half dot product added to an f32 C with one rounding. -/
  | hdot2 (h : Hdr) (x : Arith)
  /-- FMED3 (R104). Returns the median of three operands. -/
  | fmed3 (h : Hdr) (x : Arith)
  -- FP64, special functions, conversions, class 3 (spec/04)
  /-- FRCP (R109). Correctly rounded reciprocal; variable latency. -/
  | frcp (h : Hdr) (x : Arith)
  /-- FRSQ (R109). Correctly rounded reciprocal square root; variable latency. -/
  | frsq (h : Hdr) (x : Arith)
  /-- FSQRT (R110). Correctly rounded square root; variable latency. -/
  | fsqrt (h : Hdr) (x : Arith)
  /-- FDIV (R110). Correctly rounded division; variable latency. -/
  | fdiv (h : Hdr) (x : Arith)
  /-- FEX2 (R109). Correctly rounded 2^A; variable latency. -/
  | fex2 (h : Hdr) (x : Arith)
  /-- FLG2 (R109). Correctly rounded log2 A; variable latency. -/
  | flg2 (h : Hdr) (x : Arith)
  /-- FSIN (R109). Correctly rounded sine; variable latency. -/
  | fsin (h : Hdr) (x : Arith)
  /-- FCOS (R109). Correctly rounded cosine; variable latency. -/
  | fcos (h : Hdr) (x : Arith)
  /-- DADD (R108). FP64 add on register pairs. -/
  | dadd (h : Hdr) (x : Arith)
  /-- DMUL (R108). FP64 multiply on register pairs. -/
  | dmul (h : Hdr) (x : Arith)
  /-- DFMA (R108). FP64 fused multiply-add on register pairs. -/
  | dfma (h : Hdr) (x : Arith)
  /-- DCMP (R108). FP64 compare writing a predicate. -/
  | dcmp (h : Hdr) (x : Arith)
  /-- CVT (R111). Converts A between any two formats, trapping on poison to integer when PSN is set. -/
  | cvt (h : Hdr) (x : Arith)
  /-- FRND (R112). Rounds A to an integral value in the same format. -/
  | frnd (h : Hdr) (x : Arith)
  /-- PACK_H (R113). Packs the low halves of A and B into one register. -/
  | packH (h : Hdr) (x : Arith)
  /-- PACK_W (R113). Packs A and B into a register pair. -/
  | packW (h : Hdr) (x : Arith)
  /-- UNPK (R113). Extracts and extends byte or half n of A. -/
  | unpk (h : Hdr) (x : Arith)
  -- moves, predicates, special registers, class 4 (spec/04)
  /-- MOV (R114). Copies register A (or pair) to D. -/
  | mov (h : Hdr) (x : Arith)
  /-- MOV_IMM (R114). Writes a zero-extended 16-bit immediate to D. -/
  | movImm (h : Hdr) (x : Arith)
  /-- PSET (R115). Sets pD from whether A is nonzero. -/
  | pset (h : Hdr) (x : Arith)
  /-- PSET_ALL (R115). Writes p0–p23 from the bits of A. -/
  | psetAll (h : Hdr) (x : Arith)
  /-- PGET (R115). Writes one predicate zero-extended to D. -/
  | pget (h : Hdr) (x : Arith)
  /-- PGET_ALL (R115). Writes all 24 predicates as a word to D. -/
  | pgetAll (h : Hdr) (x : Arith)
  /-- PAND (R116). Predicate AND with optional source negations. -/
  | pand (h : Hdr) (x : Arith)
  /-- POR (R116). Predicate OR with optional source negations. -/
  | por (h : Hdr) (x : Arith)
  /-- PXOR (R116). Predicate XOR with optional source negations. -/
  | pxor (h : Hdr) (x : Arith)
  /-- PNOT (R114). Writes the complement of pA to pD. -/
  | pnot (h : Hdr) (x : Arith)
  /-- RDSR (R117). Reads a special register into D. -/
  | rdsr (h : Hdr) (x : Arith)
  /-- WRSR (R117). Writes a writable special register, per lane or once per live lane for privileged ones. -/
  | wrsr (h : Hdr) (x : Arith)
  /-- VWSET (R118). Writes a team-shared view register, trapping on reserved combinations. -/
  | vwset (h : Hdr) (x : Arith)
  /-- NOP (R114). Does nothing. -/
  | nop (h : Hdr) (x : Arith)
  -- control, class 5 (spec/05)
  /-- BRA (R122). PC-relative branch setting $prio from BP. -/
  | bra (h : Hdr) (x : Ctl)
  /-- BRX (R123). Branch to a code pointer in a register pair. -/
  | brx (h : Hdr) (x : Ctl)
  /-- CALL (R122). PC-relative call writing a link code pointer. -/
  | call (h : Hdr) (x : Ctl)
  /-- CALLX (R123). Call through a code pointer, writing a link code pointer. -/
  | callx (h : Hdr) (x : Ctl)
  /-- RET (R123). Returns to the code pointer in a register pair. -/
  | ret (h : Hdr) (x : Ctl)
  /-- LOOP (R126). Pushes a hardware loop entry with a register count, or skips the body on zero. -/
  | loop (h : Hdr) (x : Ctl)
  /-- LOOP_IMM (R126). Pushes a hardware loop entry with an immediate count. -/
  | loopImm (h : Hdr) (x : Ctl)
  /-- LOOP_POP (R129). Removes the top loop stack entry. -/
  | loopPop (h : Hdr) (x : Ctl)
  /-- EXIT (R130). Ends the lane after committing its run. -/
  | exit (h : Hdr) (x : Ctl)
  /-- YIELD (R131). Ends the run and lowers the group's issue priority. -/
  | yield (h : Hdr) (x : Ctl)
  /-- SLEEP (R132). Parks the lane until a relative deadline on the time base. -/
  | sleep (h : Hdr) (x : Ctl)
  /-- SLEEP_UNTIL (R132). Parks the lane until an absolute deadline on the time base. -/
  | sleepUntil (h : Hdr) (x : Ctl)
  /-- TRAP (R133). Raises the software trap 0x08 with code k. -/
  | trap (h : Hdr) (x : Ctl)
  /-- PRIO (R134). Sets $prio to n. -/
  | prio (h : Hdr) (x : Ctl)
  -- parallel, class 6 (spec/07)
  /-- QSWAP (R171). Exchanges a value with a partner lane of the quad. -/
  | qswap (h : Hdr) (x : Arith)
  /-- QDD (R172). Screen-space difference within the quad. -/
  | qdd (h : Hdr) (x : Arith)
  /-- HLP_OFF (R173). Makes every helper lane of participating quads empty. -/
  | hlpOff (h : Hdr) (x : Arith)
  /-- HLP_ON (R173). Fills empty slots of participating quads with helper lanes. -/
  | hlpOn (h : Hdr) (x : Arith)
  /-- HLP_IS (R173). Writes whether each participant is a helper lane. -/
  | hlpIs (h : Hdr) (x : Arith)
  /-- SHFL (R174). Reads A from a source lane of the bundle. -/
  | shfl (h : Hdr) (x : Arith)
  /-- VOTE (R175). Combines a predicate over live participants as all, any or uniform. -/
  | vote (h : Hdr) (x : Arith)
  /-- VOTE_BALLOT (R175). Writes the mask of live participants whose predicate is set. -/
  | voteBallot (h : Hdr) (x : Arith)
  /-- MATCH (R176). Writes the mask of live participants with an equal value. -/
  | match_ (h : Hdr) (x : Arith)
  /-- COMPACT (R177). Writes packed indices or counts of lanes with the predicate set. -/
  | compact (h : Hdr) (x : Arith)
  /-- REFORM (R181). Submits lanes to the core's regrouping table to be packed into fuller groups. -/
  | reform (h : Hdr) (x : Arith)
  /-- SIGN (R185). Signs a convergence register without waiting. -/
  | sign (h : Hdr) (x : Arith)
  /-- JOIN (R186). Signs a convergence register and parks until its epoch completes. -/
  | join_ (h : Hdr) (x : Arith)
  /-- CVSET (R184). Declares the set of a convergence register and begins a new epoch. -/
  | cvset (h : Hdr) (x : Arith)
  /-- BAR (R188). Team barrier with team-scope release and acquire. -/
  | bar (h : Hdr) (x : Arith)
  /-- GBAR (R188). Gang barrier with cluster-scope release and acquire. -/
  | gbar (h : Hdr) (x : Arith)
  /-- SPAWN (R190). Offers one task per live lane to the cluster task queue. -/
  | spawn (h : Hdr) (x : Arith)
  /-- LAUNCH (R192). Appends a launch record from team shared memory to a launch queue. -/
  | launch (h : Hdr) (x : Arith)
  /-- REDUX (R179). Reduces A over live participants and writes the result to all. -/
  | redux (h : Hdr) (x : Arith)
  -- matrix, class 7 (spec/08)
  /-- MMA (R200). Signs a convergence register and captures f16/bf16/fp8 fragments for a tile multiply. -/
  | mma (h : Hdr) (x : Mat)
  /-- MMAQ (R200). Signs a convergence register and captures quantised fragments for a tile multiply. -/
  | mmaq (h : Hdr) (x : Mat)
  /-- TZERO (R212). Zeroes a tile, closes its block register and clears its flags. -/
  | tzero (h : Hdr) (x : Mat)
  /-- TFILL (R212). Writes registers of participating lanes into tile columns. -/
  | tfill (h : Hdr) (x : Mat)
  /-- TMOV (R213). Joins a tile and moves half of it into registers at the run end. -/
  | tmov (h : Hdr) (x : Mat)
  /-- TLD (R214). Loads an 8 KiB tile image from team shared memory. -/
  | tld (h : Hdr) (x : Mat)
  /-- TST (R214). Joins a tile and stores its image to team shared memory. -/
  | tst (h : Hdr) (x : Mat)
  /-- TSTAT (R215). Joins a tile and returns its status word. -/
  | tstat (h : Hdr) (x : Mat)
  /-- QNT (R217). Quantises an f16 operand into a q fragment, electing and appending outliers. -/
  | qnt (h : Hdr) (x : Mat)
  /-- OLSET (R219). Binds an outlier descriptor after waiting for its pending operations. -/
  | olset (h : Hdr) (x : Mat)
  /-- OLCNT (R220). Returns a descriptor's count, cursor and overflow at the run end. -/
  | olcnt (h : Hdr) (x : Mat)
  /-- DQNT (R218). Dequantises an A fragment into f16 values. -/
  | dqnt (h : Hdr) (x : Mat)
  -- local memory, class 8 (spec/10)
  /-- LD (R241). Loads from a local space; variable latency. -/
  | ld (h : Hdr) (x : Loc)
  /-- ST (R241). Stores to a local space. -/
  | st (h : Hdr) (x : Loc)
  /-- GATH (R242). Gathers n indexed elements per lane, optionally splitting the run. -/
  | gath (h : Hdr) (x : Loc)
  /-- SCAT (R242). Scatters n indexed elements per lane. -/
  | scat (h : Hdr) (x : Loc)
  /-- ATOM (R244). Local atomic returning the old value. -/
  | atom (h : Hdr) (x : Loc)
  /-- ATOMC (R244). Local atomic with no result. -/
  | atomc (h : Hdr) (x : Loc)
  /-- PCHK (R246). Tests presence of the lines an access touches. -/
  | pchk (h : Hdr) (x : Loc)
  /-- MON (R247). Arms the lane's monitor on a local word or main-memory line. -/
  | mon (h : Hdr) (x : Loc)
  /-- MWAIT (R248). Parks until a monitor fires or another wake event. -/
  | mwait (h : Hdr) (x : Loc)
  /-- MWAIT_TIMEOUT (R248). Parks until a monitor fires or a per-lane deadline passes. -/
  | mwaitTimeout (h : Hdr) (x : Loc)
  -- main memory, class 9 (spec/10)
  /-- CPYIN (R253). Copies from main memory into local memory on a copy queue. -/
  | cpyin (h : Hdr) (x : Main)
  /-- CPYOUT (R253). Copies from local memory to main memory on a copy queue. -/
  | cpyout (h : Hdr) (x : Main)
  /-- CPYG (R254). Gathers indexed main-memory elements into local memory. -/
  | cpyg (h : Hdr) (x : Main)
  /-- CPYS (R254). Scatters local elements to indexed main-memory locations. -/
  | cpys (h : Hdr) (x : Main)
  /-- FATOM (R257). Far atomic returning the old value; variable latency. -/
  | fatom (h : Hdr) (x : Main)
  /-- FATOM_NR (R257). Far atomic with no return, joining a copy queue batch. -/
  | fatomNr (h : Hdr) (x : Main)
  /-- FCAS (R258). Far compare-and-swap returning the old value. -/
  | fcas (h : Hdr) (x : Main)
  /-- FENCE (R259). Release, acquire or both at a scope. -/
  | fence (h : Hdr) (x : Main)
  /-- PUBL (R260). Publishes code lines at a scope. -/
  | publ (h : Hdr) (x : Main)
  /-- MHINT (R261). Prefetch, reprioritise or drop stack-cache lines of a range. -/
  | mhint (h : Hdr) (x : Main)
  /-- MCAST (R255). Gang-collective sliced fetch into team shared memory. -/
  | mcast (h : Hdr) (x : Main)
  -- engines, class A (spec/14)
  /-- BCLOSE (R298). Closes a copy queue's open batch, optionally with a stamp. -/
  | bclose (h : Hdr) (x : Eng)
  /-- WAITB (R300). Waits until at most n closed batches are incomplete and delivers recorded faults. -/
  | waitb (h : Hdr) (x : Eng)
  /-- QFENCE (R301). Orders later operations of named queues after earlier ones. -/
  | qfence (h : Hdr) (x : Eng)
  /-- CHAIN (R303). Starts a walk of linked transfer records as one batch operation. -/
  | chain (h : Hdr) (x : Eng)
  /-- DECOD (R305). Decodes an entropy-coded stream into local memory. -/
  | decod (h : Hdr) (x : Eng)
  /-- DTAB (R304). Loads a canonical code into a decode table slot. -/
  | dtab (h : Hdr) (x : Eng)
  /-- SGO (R306). Starts a Serge address program on a stream queue. -/
  | sgo (h : Hdr) (x : Eng)
  /-- QPOP (R310). Pops one 128-byte unit from a stream queue; variable latency. -/
  | qpop (h : Hdr) (x : Eng)
  /-- QSTAT (R311). Returns a stream queue's status word. -/
  | qstat (h : Hdr) (x : Eng)
  /-- QSTAT_CQ (R311). Returns a copy queue's status word. -/
  | qstatCq (h : Hdr) (x : Eng)
  /-- APUSH (R308). Serge only: pushes a 128-byte unit into the stream queue. -/
  | apush (h : Hdr) (x : Eng)
  /-- ASEG (R309). Serge only: pushes the lines of one row segment. -/
  | aseg (h : Hdr) (x : Eng)
  -- beneath-stack units, class B (spec/15)
  /-- RAY (R322). Sends a ray message to Tulle for traversal. -/
  | ray (h : Hdr) (x : Unt)
  /-- TRHOLD (R328). Asks Tulle to hold a treelet and drain it. -/
  | trhold (h : Hdr) (x : Unt)
  /-- TRSWAP (R329). Swaps a held treelet to a new version and releases the hold. -/
  | trswap (h : Hdr) (x : Unt)
  /-- TRSTAT (R330). Returns a treelet's hold and queue state. -/
  | trstat (h : Hdr) (x : Unt)
  /-- FILT (R335). Sends a texture filter command to Gauze. -/
  | filt (h : Hdr) (x : Unt)
  /-- HGRID (R338). Sends a hash-grid lookup command to Gauze. -/
  | hgrid (h : Hdr) (x : Unt)
  /-- BANK (R340). Sends a command block to a Calico unit. -/
  | bank (h : Hdr) (x : Unt)
  -- system, class C (spec/17)
  /-- RFE (R355). Returns from a trap handler by popping the frame. -/
  | rfe (h : Hdr) (x : Sys)
  /-- CSAVE (R373). Suspends a context and saves its resident teams. -/
  | csave (h : Hdr) (x : Sys)
  /-- CREST (R373). Ends the suspension of a context. -/
  | crest (h : Hdr) (x : Sys)
  /-- TLBINV (R374). Drops memory-side translations of an IA range in every stack. -/
  | tlbinv (h : Hdr) (x : Sys)
  /-- REPLAY (R375). Re-issues every suspended operation from its probe pass. -/
  | replay (h : Hdr) (x : Sys)
  /-- XINJ (R376). Arms an error injection on an SRAM array. -/
  | xinj (h : Hdr) (x : Sys)
  /-- ELOG (R377). Reads an array's error log register. -/
  | elog (h : Hdr) (x : Sys)
  /-- ELOG_CLR (R377). Writes W1C bits of an error log register. -/
  | elogClr (h : Hdr) (x : Sys)
  /-- HALT (R378). Stops the part and enters status-only mode. -/
  | halt (h : Hdr) (x : Sys)
  -- pair words, named by the opcode of slot 0; `y` is slot 1 (R66)
  /-- PAIR_ADD (R66). Pair slot: add.i32 vD := vD + vB. -/
  | pairAdd (sw : Bool) (x : SlotArgs) (y : PairSlot)
  /-- PAIR_SUB (R66). Pair slot: sub.i32 vD := vD − vB. -/
  | pairSub (sw : Bool) (x : SlotArgs) (y : PairSlot)
  /-- PAIR_MIN_I32 (R66). Pair slot: signed minimum. -/
  | pairMinI32 (sw : Bool) (x : SlotArgs) (y : PairSlot)
  /-- PAIR_MAX_I32 (R66). Pair slot: signed maximum. -/
  | pairMaxI32 (sw : Bool) (x : SlotArgs) (y : PairSlot)
  /-- PAIR_MIN_N32 (R66). Pair slot: unsigned minimum. -/
  | pairMinN32 (sw : Bool) (x : SlotArgs) (y : PairSlot)
  /-- PAIR_MAX_N32 (R66). Pair slot: unsigned maximum. -/
  | pairMaxN32 (sw : Bool) (x : SlotArgs) (y : PairSlot)
  /-- PAIR_AND (R66). Pair slot: bitwise AND. -/
  | pairAnd (sw : Bool) (x : SlotArgs) (y : PairSlot)
  /-- PAIR_OR (R66). Pair slot: bitwise OR. -/
  | pairOr (sw : Bool) (x : SlotArgs) (y : PairSlot)
  /-- PAIR_XOR (R66). Pair slot: bitwise XOR. -/
  | pairXor (sw : Bool) (x : SlotArgs) (y : PairSlot)
  /-- PAIR_SHL (R66). Pair slot: shift left. -/
  | pairShl (sw : Bool) (x : SlotArgs) (y : PairSlot)
  /-- PAIR_SHR (R66). Pair slot: logical shift right. -/
  | pairShr (sw : Bool) (x : SlotArgs) (y : PairSlot)
  /-- PAIR_SAR (R66). Pair slot: arithmetic shift right. -/
  | pairSar (sw : Bool) (x : SlotArgs) (y : PairSlot)
  /-- PAIR_MOV (R66). Pair slot: register move. -/
  | pairMov (sw : Bool) (x : SlotArgs) (y : PairSlot)
  /-- PAIR_MOVI (R66). Pair slot: move of a 7-bit signed immediate. -/
  | pairMovi (sw : Bool) (x : SlotArgs) (y : PairSlot)
  /-- PAIR_FADD (R66). Pair slot: f32 add. -/
  | pairFadd (sw : Bool) (x : SlotArgs) (y : PairSlot)
  /-- PAIR_FSUB (R66). Pair slot: f32 subtract. -/
  | pairFsub (sw : Bool) (x : SlotArgs) (y : PairSlot)
  /-- PAIR_FMUL (R66). Pair slot: f32 multiply. -/
  | pairFmul (sw : Bool) (x : SlotArgs) (y : PairSlot)
  /-- PAIR_FMIN (R66). Pair slot: f32 minimum. -/
  | pairFmin (sw : Bool) (x : SlotArgs) (y : PairSlot)
  /-- PAIR_FMAX (R66). Pair slot: f32 maximum. -/
  | pairFmax (sw : Bool) (x : SlotArgs) (y : PairSlot)
  /-- PAIR_HADD2 (R66). Pair slot: packed f16 add. -/
  | pairHadd2 (sw : Bool) (x : SlotArgs) (y : PairSlot)
  /-- PAIR_HMUL2 (R66). Pair slot: packed f16 multiply. -/
  | pairHmul2 (sw : Bool) (x : SlotArgs) (y : PairSlot)
  /-- PAIR_ADDI (R66). Pair slot: add of a 7-bit signed immediate. -/
  | pairAddi (sw : Bool) (x : SlotArgs) (y : PairSlot)
  -- a word that is no instruction (R77)
  /-- ILLEGAL_INSTRUCTION (R77). A bundle issues a word that is not an instruction (class 0xD-0xF, unassigned opcode, reserved pair opcode, reserved guard) and takes trap 0x01 whatever its guard holds. -/
  | illegalInstruction (w : W64)
  -- events of the machine (spec/06, 09-22); the event happens to the subject the state holds
  /-- RUN_END_COMMIT (R71). Commits the run's variable-latency results once they return, splitting off waiting lanes if allowed. -/
  | runEndCommit
  /-- SPIN_DEMOTION_EXPIRY (R165). Ends spin demotion 65,536 clocks after it began. -/
  | spinDemotionExpiry
  /-- YIELD_WINDOW_EXPIRY (R166). Ends the 16-clock low-priority window after a yield. -/
  | yieldWindowExpiry
  /-- SLEEP_WAKE (R132). Makes a sleeping lane ready when the time base reaches its deadline. -/
  | sleepWake
  /-- MWAIT_WAKE (R248). Readies a monitor-waiting entry and disarms its monitors. -/
  | mwaitWake
  /-- MWAIT_DEADLINE (R248). The earliest lane deadline of an mwait entry passes. -/
  | mwaitDeadline
  /-- REGROUP_TIMEOUT (R182). Releases a regrouping entry 2,048 clocks after its first submission. -/
  | regroupTimeout
  /-- LQ_TAIL_WRITE (R155). Writing a queue's TAIL wakes the launch unit. -/
  | lqTailWrite
  /-- LQ_CFG_WRITE (R153). Writes a queue's enable, privilege and size under the EN rules. -/
  | lqCfgWrite
  /-- LQ_ERR_SKIP (R156). Drops the failed record, advances HEAD and resumes the queue. -/
  | lqErrSkip
  /-- LQ_ERR_RESUME (R156). Clears CODE without SKIP and re-reads the same record. -/
  | lqErrResume
  /-- LAUNCH_RECORD_CONSUME (R155). The launch unit reads, checks and admits the record at HEAD. -/
  | launchRecordConsume
  /-- VALID_RETRY (R155). Retries a record with VALID = 0 after 10 µs. -/
  | validRetry
  /-- DEPENDENCE_REREAD (R155). Re-reads dependence counters on a write or every 10 µs. -/
  | dependenceReread
  /-- GANG_PLACEMENT (R160). Grants a gang's resources all-or-nothing and starts it. -/
  | gangPlacement
  /-- PLACEMENT_STARVATION (R160). After 1 ms without fitting, reserves a cluster for the waiting gang. -/
  | placementStarvation
  /-- TEAM_RESOURCES_FREE (R161). Frees a team's resources after its last lane exits and operations complete. -/
  | teamResourcesFree
  /-- LAUNCH_COMPLETION (R158). Releases at system scope and increments the completion counter when every gang has finished. -/
  | launchCompletion
  /-- TASK_TEAM_FORM (R191). Forms a task team from queued spawn entries and places it. -/
  | taskTeamForm
  /-- LINE_PRESENT (R227). An asynchronous write retires from a line; at count zero held stores perform and parked loads return. -/
  | linePresent
  /-- COPY_PROBE_PASS (R251). Translates, checks residency and grains for every byte a copy names. -/
  | copyProbePass
  /-- COPY_DATA_PASS (R251). Moves a copy's bytes and returns its completion time. -/
  | copyDataPass
  /-- STAMP_WRITE (R299). Writes a batch stamp after its release wait. -/
  | stampWrite
  /-- CHAIN_RECORD (R303). The engine reads, checks and performs one transfer record and clears OWN. -/
  | chainRecord
  /-- DECODE_RUN (R305). The weight decoder expands a stream into local memory. -/
  | decodeRun
  /-- MCAST_SLICE_DELIVER (R255). Delivers a fetched slice to every participant that has issued. -/
  | mcastSliceDeliver
  /-- FAR_ATOMIC_PERFORM (R256). Performs a far atomic at its home and returns its completion time. -/
  | farAtomicPerform
  /-- PENDING_WRITE_PERFORM (R273). Performs a write held for a lease at the grain's lease expiry. -/
  | pendingWritePerform
  /-- LEASE_EXPIRY (R274). A leased local line becomes absent at its expiry. -/
  | leaseExpiry
  /-- MATRIX_OPERATION_PERFORM (R196). The matrix unit performs an mma or mmaq issued at its epoch's completion. -/
  | matrixOperationPerform
  /-- QNT_APPEND_WRITE (R217). The matrix unit writes qnt outlier entries and sets their presence. -/
  | qntAppendWrite
  /-- TLD_PERFORM (R214). The unit reads a tile image as its lines become present. -/
  | tldPerform
  /-- TST_PERFORM (R214). The unit writes a tile image and sets line presence. -/
  | tstPerform
  /-- SERGE_WORD (R307). A Serge processor executes one word of its address program. -/
  | sergeWord
  /-- SERGE_UNIT_ARRIVE (R308). A pushed unit's read completes and it enters its queue position. -/
  | sergeUnitArrive
  /-- RAY_TRAVERSE_BATCH (R326). Tulle picks a treelet and traverses a batch of its queued rays. -/
  | rayTraverseBatch
  /-- RAY_TIMEOUT (R326). A ray not complete within 1 s ends with 0x1A. -/
  | rayTimeout
  /-- TRHOLD_DRAINED (R328). Writes the hold status once every visiting batch has finished. -/
  | trholdDrained
  /-- FILT_RESULT (R335). Gauze samples a texture and writes the four f16 components. -/
  | filtResult
  /-- HGRID_RESULT (R338). Gauze interpolates hash-grid features and writes the slot. -/
  | hgridResult
  /-- CALICO_PROGRAM_CHECK (R341). A Calico unit reads and checks a command's whole program before running it. -/
  | calicoProgramCheck
  /-- CALICO_BUNDLE (R343). A Calico unit executes one bundle of two moves. -/
  | calicoBundle
  /-- CALICO_COLUMN_ARRIVE (R346). A column is checked and enters the read stream. -/
  | calicoColumnArrive
  /-- REPLAYABLE_SAVE_TIMEOUT (R362). Saves a team 100 µs after its replayable period began. -/
  | replayableSaveTimeout
  /-- TEAM_SAVE (R364). Saves a team at run ends into its frame slot and frees the core. -/
  | teamSave
  /-- CSAVE_STAMP (R373). Writes the csave stamp once every team of the context is saved. -/
  | csaveStamp
  /-- TEAM_RESTORE (R368). Restores a saved team onto a core and delivers held writes. -/
  | teamRestore
  /-- FAULT_COLLECTOR_FORWARD (R393). The collector fills, merges into or drops a fault-buffer slot for a forwarded page fault. -/
  | faultCollectorForward
  /-- FBACK_WRITE (R394). Frees the fault-buffer slots named by the mask. -/
  | fbackWrite
  /-- FBSTAT_WRITE (R394). Clears the sticky DROP bit. -/
  | fbstatWrite
  /-- CTXINV_WRITE (R381). Drops the cached descriptor of the named context. -/
  | ctxinvWrite
  /-- CTXBASE_WRITE (R381). Moves the context table and drops every cached descriptor. -/
  | ctxbaseWrite
  /-- STKSTAT_WRITE (R379). Clears the stack's MALF bit. -/
  | stkstatWrite
  /-- FELTTAIL_WRITE (R396). Writing the Felt producer index wakes Felt. -/
  | felttailWrite
  /-- FELT_IN (R398). Felt reads a page image and makes the page resident. -/
  | feltIn
  /-- FELT_OUT (R398). Felt writes a page image and makes the page non-resident. -/
  | feltOut
  /-- FELT_CKPT (R399). Felt writes all device memory to the safe tier. -/
  | feltCkpt
  /-- FELT_RESTORE (R399). Felt reads all device memory back from the safe tier. -/
  | feltRestore
  /-- REGISTER_WRITE (R408). A host or privileged write to a register with no behaviour of its own. -/
  | registerWrite
  /-- HOST_COPY_HEAD_WRITE (R411). Writing a host copy channel's HEAD starts a chain walk. -/
  | hostCopyHeadWrite
  /-- HPUBLEN_WRITE (R412). Writing HPUBLEN starts host publication of a code range. -/
  | hpublenWrite
  /-- HOST_PUBLICATION (R412). Publishes the range at system scope after earlier host code writes complete. -/
  | hostPublication
  /-- TBSET (R418). Sets the time base when no context is resident and the value does not go back. -/
  | tbset
  /-- TIME_SYNC_EXCHANGE (R416). Measures the offset from the master and steers the time base every 100 µs. -/
  | timeSyncExchange
  /-- DAMASK_REQUEST (R414). An inbound peer request is admitted and performed at its home stack. -/
  | damaskRequest
  /-- STALE (R425). Receiving STALE for its own incarnation sends the part to status-only mode. -/
  | stale
  /-- HEARTBEAT_SEND (R423). Sends a heartbeat to every other agent each millisecond. -/
  | heartbeatSend
  /-- HEARTBEAT_SLOW (R423). Marks a device slow 1.5 ms after its last heartbeat. -/
  | heartbeatSlow
  /-- HEARTBEAT_DEAD (R423). Declares a device dead 3 ms after its last heartbeat. -/
  | heartbeatDead
  /-- DEAD (R424). Applies a dead-device notice: new incarnation, poison, sharer removal, failed waits. -/
  | dead
  /-- JOIN_NOTICE (R426). Accepts a replacement part's JOIN at the matching incarnation. -/
  | joinNotice
  /-- LINK_RETRAIN_FAIL (R407). A link not retrained within 1 ms stops the part with code 0x20. -/
  | linkRetrainFail
  /-- ILDROP_READ (R438). Reading ILDROP returns and clears the dropped-entry count. -/
  | ildropRead
  /-- OUTPUT_ENABLE (R419). Writing EN = 1 trains the DisplayPort link unless the rate is too high. -/
  | outputEnable
  /-- POSESEQ_WRITE (R421). Commits the nine pose elements together. -/
  | poseseqWrite
  /-- PRESENT_WORD_READ (R420). At DEADLINE minus MARGIN reads the present word and picks the frame. -/
  | presentWordRead
  /-- FRAME_SCAN_START (R419). Begins scan-out of a frame at START + n·PERIOD. -/
  | frameScanStart
  /-- POWER_ON (R432). Applying power begins a cold start. -/
  | powerOn
  /-- COLD_START (R432). STARTCTL = 1 runs every start step. -/
  | coldStart
  /-- WARM_START (R432). STARTCTL = 2 runs a start keeping device memory. -/
  | warmStart
  /-- AUTO_RESTART (R435). After a failed start the part cold-starts again, entering status-only on the third failure. -/
  | autoRestart
  /-- THERMAL_THROTTLE (R439). At 105 °C the arithmetic clock steps down by 100 MHz. -/
  | thermalThrottle
  /-- THERMAL_RECOVER (R439). Below 95 °C the arithmetic clock returns. -/
  | thermalRecover
  /-- THERMAL_SHUTDOWN (R439). At 115 °C the part stops with code 0x30. -/
  | thermalShutdown
  /-- VARIABLE_LATENCY_RESULT_RETURN (R71). A variable-latency result such as that of div, frcp, ld or gath returns, and a bundle or split-off entry parked on its run's results commits and becomes ready. -/
  | variableLatencyResultReturn
  /-- HOST_DEVICE_MEMORY_ACCESS (R411). A host read, write or write-back of device memory arrives over HHL and is performed at its home, setting grain tags and completion times and updating directory sharers. -/
  | hostDeviceMemoryAccess
  /-- HEARTBEAT_RECEIVE (R423). A heartbeat arrives from another agent and returns its STATE from slow to alive, restarting the 1.5 ms and 3 ms counts. -/
  | heartbeatReceive
  /-- LINK_ERROR (R407). A die-to-die link signals an error, which is retried at the link layer and starts retraining whose 1 ms limit LINK_RETRAIN_FAIL watches. -/
  | linkError
  deriving DecidableEq, Repr

end Sys2Proof
end

