-- ==== Sys2Proof/Machine/Forms.lean ====
section
/-! DEFINITION. The fields each instruction accepts (R77 step 2, the part that the word alone decides) and the
registers it names (R17, R18): one row per class 0-4 and 6 opcode (R90, R97, R102, R108, R114, R168), one check per
opcode of the other classes (R121, R210, R237, R249, R297, R312, R371), the pair rule (R66, R67). -/
namespace Sys2Proof.Machine

/-- TYPE codes of 64 bits, whose operands are pairs (R84). -/
def tyWide : Ty → Bool
  | .i64 | .n64 | .f64 => true
  | _ => false

/-- Integer TYPE codes 0-7 (R34). -/
def tyInt : Ty → Bool
  | .i8 | .i16 | .i32 | .i64 | .n8 | .n16 | .n32 | .n64 => true
  | _ => false

/-- Floating TYPE codes 8-D (R35). -/
def tyFloat : Ty → Bool
  | .f16 | .bf16 | .f32 | .f64 | .e4m3 | .e5m2 => true
  | _ => false

/-- TYPE code order (R58). -/
def tyCode : Ty → BitVec 4
  | .i8 => 0 | .i16 => 1 | .i32 => 2 | .i64 => 3 | .n8 => 4 | .n16 => 5 | .n32 => 6 | .n64 => 7
  | .f16 => 8 | .bf16 => 9 | .f32 => 10 | .f64 => 11 | .e4m3 => 12 | .e5m2 => 13 | .vw => 14 | .b32 => 15

/-- The TYPE a 4-bit code names (R58). -/
def tyOfCode (c : BitVec 4) : Ty :=
  match c.toNat with
  | 0 => .i8 | 1 => .i16 | 2 => .i32 | 3 => .i64 | 4 => .n8 | 5 => .n16 | 6 => .n32 | 7 => .n64
  | 8 => .f16 | 9 => .bf16 | 10 => .f32 | 11 => .f64 | 12 => .e4m3 | 13 => .e5m2 | 14 => .vw | _ => .b32

/-- Registers an instruction names: `count` from `first`, where `first` is a multiple of `align` (R17, R18, R198). -/
structure RegUse where
  first : Nat
  count : Nat
  align : Nat
  /-- the word reads them (R358's register file row) -/
  read : Bool
  deriving DecidableEq, Repr

/-- One register, a pair, or four registers, by count (R18). -/
def useN (f : Field8) (n : Nat) (read : Bool) : RegUse :=
  { first := f.toNat, count := n, align := n, read := read }

/-- Consecutive registers with no alignment of their own. -/
def useRun (f n : Nat) (read : Bool) : RegUse := { first := f, count := n, align := 1, read := read }

/-- The role of the D, A, B or C field of a class 0-4 or 6 word. -/
inductive Role where
  /-- not used: zero -/
  | none
  /-- one register -/
  | one
  /-- one register, or a pair for a 64-bit TYPE -/
  | wide
  /-- as `wide` by the source format that SUB holds (`cvt`, R111) -/
  | wideSub
  /-- a pair -/
  | pair
  /-- one register when I = 0, zero when I = 1 (R114) -/
  | oneUnlessImm
  /-- a predicate in [4:0], 0-23, with [7:5] zero -/
  | pred
  /-- a convergence register in [3:0], with [7:4] zero (R168) -/
  | cv
  /-- view register number in [1:0] (R118) -/
  | view
  /-- a special-register index that may be read (R25, R26, R379) -/
  | srRead
  /-- a special-register index that may be written -/
  | srWrite
  /-- the destination of `rdsr`: a pair for the 64-bit indices -/
  | srDest
  deriving DecidableEq, Repr

/-- Whether I may be 1, must be 0, or must be 1. -/
inductive ImmRule where
  | no | yes | must
  deriving DecidableEq, Repr

/-- What one opcode row accepts (R85, R90, R97, R102, R108, R114, R168). -/
structure Row where
  tys : List Ty
  imm : ImmRule
  rm : Bool
  fs : Bool
  subLo : Nat
  subHi : Nat
  d : Role
  a : Role
  b : Role
  c : Role
  deriving DecidableEq, Repr

def tysInt : List Ty := [.i8, .i16, .i32, .i64, .n8, .n16, .n32, .n64]
def tysWord : List Ty := [.i32, .n32, .i64, .n64]
def tysBits : List Ty := [.b32, .n64]
def tysFl : List Ty := [.f16, .bf16, .f32]

/-- A row with no immediate, rounding, FS or sub-op. -/
def rowBase (tys : List Ty) (d a b c : Role) : Row :=
  { tys := tys, imm := .no, rm := false, fs := false, subLo := 0, subHi := 0, d := d, a := a, b := b, c := c }

-- class 0 (R90)
def rowIntImm (sat : Bool) : Row := { rowBase (tysInt ++ [.vw]) .wide .wide .wide .none with imm := .yes, fs := sat }
def rowCarry : Row := rowBase [.n32, .n64] .wide .wide .wide .pred
def rowWideImm : Row := { rowBase tysWord .wide .wide .wide .none with imm := .yes }
def rowMad : Row := { rowBase tysInt .wide .wide .wide .wide with fs := true }
def rowMadw : Row := { rowBase [.i32, .n32] .pair .one .one .pair with fs := true }
def rowAbs : Row := { rowBase [.i8, .i16, .i32, .i64, .vw] .wide .wide .none .none with fs := true }
def rowOvf : Row := rowBase tysInt .wide .wide .wide .pred
def rowClamp : Row := rowBase tysInt .wide .wide .wide .wide
def rowLea : Row := { rowBase [.n32, .i64, .n64] .wide .wide .one .none with imm := .yes, subHi := 15 }
def rowCmp : Row := { rowBase tysInt .pred .wide .wide .none with imm := .yes, subHi := 5 }
def rowSel : Row := rowBase tysBits .wide .wide .wide .pred
def rowDp4 : Row := { rowBase [.i32, .n32] .one .one .one .one with fs := true }
-- class 1 (R97)
def rowLogic : Row := { rowBase tysBits .wide .wide .wide .none with imm := .yes }
def rowNot : Row := rowBase tysBits .wide .wide .none .none
def rowShift : Row := { rowBase tysBits .wide .wide .one .none with imm := .yes }
def rowSar : Row := { rowBase [.i32, .i64] .wide .wide .one .none with imm := .yes }
def rowBfx : Row := { rowBase [.i32, .n32] .one .one .one .none with imm := .yes }
def rowTern32 : Row := rowBase [.b32] .one .one .one .one
def rowCount : Row := rowBase tysBits .one .wide .none .none
def rowLop3 : Row :=
  { rowBase ([.f16, .bf16, .f32, .f64, .e4m3, .e5m2, .b32, .vw] ++ tysInt) .one .one .one .one with subHi := 15 }
-- class 2 (R102)
def rowFl (rm : Bool) : Row :=
  { rowBase (tysFl ++ [.vw]) .one .one .one .none with imm := .yes, rm := rm, fs := true }
def rowFfma : Row := { rowBase (tysFl ++ [.vw]) .one .one .one .one with rm := true, fs := true }
def rowFcmp : Row := { rowBase tysFl .pred .one .one .none with imm := .yes, fs := true, subHi := 7 }
def rowFclass : Row := rowBase (tysFl ++ [.f64, .e4m3, .e5m2]) .one .wide .none .none
def rowHalf3 : Row := { rowBase [.f16, .bf16] .one .one .one .one with rm := true, fs := true }
def rowHalf2 : Row := { rowBase [.f16, .bf16] .one .one .one .none with imm := .yes, rm := true, fs := true }
def rowFmed3 : Row := { rowBase tysFl .one .one .one .one with fs := true }
-- class 3 (R108)
def rowSfu : Row := { rowBase [.f16, .f32] .one .one .none .none with fs := true }
def rowFsqrt : Row := { rowBase [.f16, .f32, .f64] .wide .wide .none .none with rm := true, fs := true }
def rowFdiv : Row := { rowBase [.f16, .f32, .f64] .wide .wide .wide .none with imm := .yes, rm := true, fs := true }
def rowDbl : Row := { rowBase [.f64] .wide .wide .wide .none with imm := .yes, rm := true, fs := true }
def rowDfma : Row := { rowBase [.f64] .wide .wide .wide .wide with rm := true, fs := true }
def rowDcmp : Row := { rowBase [.f64] .pred .wide .wide .none with imm := .yes, fs := true, subHi := 7 }
def rowCvt : Row :=
  { rowBase (tysInt ++ [.f16, .bf16, .f32, .f64, .e4m3, .e5m2]) .wide .wideSub .none .none with
    rm := true, fs := true, subHi := 13 }
def rowFrnd : Row := { rowBase [.f16, .bf16, .f32, .f64] .wide .wide .none .none with rm := true, fs := true }
def rowPackH : Row := rowBase [.b32] .one .one .one .none
def rowPackW : Row := { rowBase [.b32] .pair .one .one .none with subLo := 1, subHi := 1 }
def rowUnpk : Row := { rowBase [.i8, .n8, .i16, .n16] .one .one .none .none with subHi := 3 }
-- class 4 (R114): TYPE is 0, whose code is i8, but for mov
def rowMov : Row := rowBase tysBits .wide .wide .none .none
def rowMovImm : Row := { rowBase tysBits .wide .none .none .none with imm := .must }
def rowPset : Row := { rowBase [.i8] .pred .oneUnlessImm .none .none with imm := .yes }
def rowPsetAll : Row := { rowBase [.i8] .none .one .none .none with subLo := 1, subHi := 1 }
def rowPget : Row := rowBase [.i8] .one .pred .none .none
def rowPgetAll : Row := { rowBase [.i8] .one .none .none .none with subLo := 1, subHi := 1 }
def rowPlogic : Row := { rowBase [.i8] .pred .pred .pred .none with subHi := 3 }
def rowPnot : Row := rowBase [.i8] .pred .pred .none .none
def rowRdsr : Row := rowBase [.i8] .srDest .srRead .none .none
def rowWrsr : Row := rowBase [.i8] .srWrite .one .none .none
def rowVwset : Row := { rowBase [.i8] .view .oneUnlessImm .none .none with imm := .yes }
def rowNop : Row := rowBase [.i8] .none .none .none .none
-- class 6 (R168)
def rowQswap : Row := { rowBase tysBits .wide .wide .none .none with subHi := 2 }
def rowQdd : Row := { rowBase [.f16, .f32] .one .one .none .none with rm := true, fs := true, subHi := 3 }
def rowSub (n : Nat) : Row := { rowBase [.i8] .none .none .none .none with subLo := n, subHi := n }
def rowHlpIs : Row := { rowBase [.i8] .pred .none .none .none with subLo := 2, subHi := 2 }
def rowShfl : Row := { rowBase tysBits .wide .wide .one .none with imm := .yes, subHi := 3 }
def rowVote : Row := { rowBase [.i8] .pred .pred .none .none with subHi := 2 }
def rowBallot : Row := { rowBase [.i8] .one .pred .none .none with subLo := 3, subHi := 3 }
def rowMatch : Row := rowBase tysBits .one .wide .none .none
def rowCompact : Row := { rowBase [.i8] .one .pred .none .none with subHi := 1 }
def rowReform : Row := rowBase [.i8] .none .pred .none .none
def rowSign : Row := rowBase [.i8] .pred .none .none .cv
def rowJoin : Row := rowBase [.i8] .none .none .none .cv
def rowCvset : Row := { rowBase [.i8] .none .none .none .cv with subHi := 2 }
def rowSpawn : Row := rowBase [.i8] .pred .pair .pair .none
def rowLaunch : Row := { rowBase [.i8] .pred .one .none .none with subHi := 15 }
def rowRedux : Row :=
  { rowBase (tysWord ++ [.b32, .f16, .f32]) .wide .wide .none .none with rm := true, fs := true, subHi := 6 }

/-- The row of a class 0-4 or 6 instruction, with its operands; `none` for `movi`, `movh` and the other classes. -/
def arithRow : Instr → Option (Row × Arith)
  | .add _ x => some (rowIntImm true, x)
  | .sub _ x => some (rowIntImm true, x)
  | .addc _ x => some (rowCarry, x)
  | .subb _ x => some (rowCarry, x)
  | .mul _ x => some (rowIntImm true, x)
  | .mulh _ x => some (rowWideImm, x)
  | .mad _ x => some (rowMad, x)
  | .madw _ x => some (rowMadw, x)
  | .div_ _ x => some (rowWideImm, x)
  | .rem_ _ x => some (rowWideImm, x)
  | .min_ _ x => some (rowIntImm false, x)
  | .max_ _ x => some (rowIntImm false, x)
  | .abs _ x => some (rowAbs, x)
  | .neg _ x => some (rowAbs, x)
  | .adds _ x => some (rowOvf, x)
  | .subs _ x => some (rowOvf, x)
  | .clamp _ x => some (rowClamp, x)
  | .lea _ x => some (rowLea, x)
  | .cmp _ x => some (rowCmp, x)
  | .sel _ x => some (rowSel, x)
  | .dp4 _ x => some (rowDp4, x)
  | .and_ _ x => some (rowLogic, x)
  | .or_ _ x => some (rowLogic, x)
  | .xor_ _ x => some (rowLogic, x)
  | .andn _ x => some (rowLogic, x)
  | .not_ _ x => some (rowNot, x)
  | .shl _ x => some (rowShift, x)
  | .shr _ x => some (rowShift, x)
  | .sar _ x => some (rowSar, x)
  | .rotl _ x => some (rowShift, x)
  | .bfx _ x => some (rowBfx, x)
  | .bfi _ x => some (rowTern32, x)
  | .popc _ x => some (rowCount, x)
  | .clz _ x => some (rowCount, x)
  | .ctz _ x => some (rowCount, x)
  | .brev _ x => some (rowNot, x)
  | .prmt _ x => some (rowTern32, x)
  | .lop3 _ x => some (rowLop3, x)
  | .fadd _ x => some (rowFl true, x)
  | .fsub _ x => some (rowFl true, x)
  | .fmul _ x => some (rowFl true, x)
  | .ffma _ x => some (rowFfma, x)
  | .fmin _ x => some (rowFl false, x)
  | .fmax _ x => some (rowFl false, x)
  | .fcmp _ x => some (rowFcmp, x)
  | .fclass _ x => some (rowFclass, x)
  | .hfma2 _ x => some (rowHalf3, x)
  | .hadd2 _ x => some (rowHalf2, x)
  | .hmul2 _ x => some (rowHalf2, x)
  | .hdot2 _ x => some (rowHalf3, x)
  | .fmed3 _ x => some (rowFmed3, x)
  | .frcp _ x => some (rowSfu, x)
  | .frsq _ x => some (rowSfu, x)
  | .fsqrt _ x => some (rowFsqrt, x)
  | .fdiv _ x => some (rowFdiv, x)
  | .fex2 _ x => some (rowSfu, x)
  | .flg2 _ x => some (rowSfu, x)
  | .fsin _ x => some (rowSfu, x)
  | .fcos _ x => some (rowSfu, x)
  | .dadd _ x => some (rowDbl, x)
  | .dmul _ x => some (rowDbl, x)
  | .dfma _ x => some (rowDfma, x)
  | .dcmp _ x => some (rowDcmp, x)
  | .cvt _ x => some (rowCvt, x)
  | .frnd _ x => some (rowFrnd, x)
  | .packH _ x => some (rowPackH, x)
  | .packW _ x => some (rowPackW, x)
  | .unpk _ x => some (rowUnpk, x)
  | .mov _ x => some (rowMov, x)
  | .movImm _ x => some (rowMovImm, x)
  | .pset _ x => some (rowPset, x)
  | .psetAll _ x => some (rowPsetAll, x)
  | .pget _ x => some (rowPget, x)
  | .pgetAll _ x => some (rowPgetAll, x)
  | .pand _ x => some (rowPlogic, x)
  | .por _ x => some (rowPlogic, x)
  | .pxor _ x => some (rowPlogic, x)
  | .pnot _ x => some (rowPnot, x)
  | .rdsr _ x => some (rowRdsr, x)
  | .wrsr _ x => some (rowWrsr, x)
  | .vwset _ x => some (rowVwset, x)
  | .nop _ x => some (rowNop, x)
  | .qswap _ x => some (rowQswap, x)
  | .qdd _ x => some (rowQdd, x)
  | .hlpOff _ x => some (rowSub 0, x)
  | .hlpOn _ x => some (rowSub 1, x)
  | .hlpIs _ x => some (rowHlpIs, x)
  | .shfl _ x => some (rowShfl, x)
  | .vote _ x => some (rowVote, x)
  | .voteBallot _ x => some (rowBallot, x)
  | .match_ _ x => some (rowMatch, x)
  | .compact _ x => some (rowCompact, x)
  | .reform _ x => some (rowReform, x)
  | .sign _ x => some (rowSign, x)
  | .join_ _ x => some (rowJoin, x)
  | .cvset _ x => some (rowCvset, x)
  | .bar _ x => some (rowSub 0, x)
  | .gbar _ x => some (rowSub 0, x)
  | .spawn _ x => some (rowSpawn, x)
  | .launch _ x => some (rowLaunch, x)
  | .redux _ x => some (rowRedux, x)
  | _ => none

/-- The instructions of class 6, in which RA and RB are reserved (R168). -/
def isClass6 : Instr → Bool
  | .qswap .. | .qdd .. | .hlpOff .. | .hlpOn .. | .hlpIs .. | .shfl .. | .vote .. | .voteBallot .. | .match_ ..
  | .compact .. | .reform .. | .sign .. | .join_ .. | .cvset .. | .bar .. | .gbar .. | .spawn .. | .launch .. | .redux .. => true
  | _ => false

/-- Special-register indices that exist and their access (R25, R26, R379). -/
def srExists (n : Nat) : Bool :=
  n ≤ 0x0B || (0x10 ≤ n && n ≤ 0x13) || (0x18 ≤ n && n ≤ 0x1D) || (0x40 ≤ n && n ≤ 0x47) ||
  (0x50 ≤ n && n ≤ 0x52) || (0x58 ≤ n && n ≤ 0x5D) || (0x60 ≤ n && n ≤ 0x63) || (0x68 ≤ n && n ≤ 0x6B) ||
  n == 0x70 || n == 0x71

/-- Special registers that `wrsr` may name (R25, R379). -/
def srWritable (n : Nat) : Bool :=
  n == 0x18 || n == 0x19 || n == 0x1A ||
  (0x40 ≤ n && srExists n && n != 0x45 && n != 0x6B)

/-- `$time` and `$param` are the 64-bit special registers (R25). -/
def srWide (n : Nat) : Bool := n == 0x10 || n == 0x11

def predOk (f : Field8) : Bool := f.toNat < 24

/-- The format code that SUB holds in `cvt` (R111). -/
def cvtSrc (x : Arith) : Ty := tyOfCode x.sub

/-- The registers a field names by its role. -/
def roleUse (r : Role) (x : Arith) (f : Field8) (read : Bool) : List RegUse :=
  match r with
  | .one => [useN f 1 read]
  | .wide => [useN f (if tyWide x.ty then 2 else 1) read]
  | .wideSub => [useN f (if tyWide (cvtSrc x) then 2 else 1) read]
  | .pair => [useN f 2 read]
  | .oneUnlessImm => if x.i then [] else [useN f 1 read]
  | .srDest => [useN f (if srWide x.a.toNat then 2 else 1) read]
  | .none | .pred | .cv | .view | .srRead | .srWrite => []

/-- Whether the field holds what its role allows, its alignment apart. -/
def roleOk (r : Role) (x : Arith) (f : Field8) : Bool :=
  match r with
  | .none => f == 0
  | .pred => predOk f
  | .cv => f.toNat < 16
  | .view => f.toNat < 4
  | .oneUnlessImm => !x.i || f == 0
  | .srRead => srExists f.toNat
  | .srWrite => srWritable f.toNat
  | .one | .wide | .wideSub | .pair | .srDest => true

/-- Whether a role is a vector register, so that a reuse bit may stand on it (R76). -/
def roleIsReg (r : Role) (x : Arith) : Bool :=
  match r with
  | .one | .wide | .wideSub | .pair | .srDest => true
  | .oneUnlessImm => !x.i
  | .none | .pred | .cv | .view | .srRead | .srWrite => false

/-- The registers an operand record names under its row. With I = 1 there is no B or C register (R59). -/
def rowUses (r : Row) (x : Arith) : List RegUse :=
  roleUse r.d x x.d false ++ roleUse r.a x x.a true ++
    (if x.i then [] else roleUse r.b x x.b true ++ roleUse r.c x x.c true)

/-- The immediate forms of R59 that constrain the high byte. -/
def immOk (x : Arith) : Bool :=
  match x.ty with
  | .i8 => x.b == (if x.c.msb then 0xFF else 0x00)
  | .n8 | .e4m3 | .e5m2 => x.b == 0
  | _ => true

/-- The sub-op: SUB, or SUB[1:0] under a view type (R58). -/
def subOp (x : Arith) : Nat :=
  match x.ty with
  | .vw => (x.sub &&& 3).toNat
  | _ => x.sub.toNat

/-- The checks that a row makes of its operands, alignment apart. -/
def rowOk (r : Row) (x : Arith) : Bool :=
  r.tys.contains x.ty
  && (match r.imm with | .no => !x.i | .yes => true | .must => x.i)
  && (r.rm || x.rm == .rne) && (r.fs || !x.fs)
  && (r.subLo ≤ subOp x && subOp x ≤ r.subHi)
  && roleOk r.d x x.d && roleOk r.a x x.a
  && (x.i || (roleOk r.b x x.b && roleOk r.c x x.c))
  && (!x.ra || roleIsReg r.a x)
  && (!x.rb || (!x.i && roleIsReg r.b x))

/-- Checks of single opcodes beyond their row: immediates are refused for a view type and R59's forms hold in
classes 0-3; `cvt` (R111), `unpk` (R113), `shfl` (R174), `redux` (R179), `lop3` (R101), class 6 reuse bits (R168). -/
def rowExtra (i : Instr) (x : Arith) : Bool :=
  (match i with
    | .lop3 .. => true
    | .pset .. | .vwset .. => true
    | .shfl .. => !(x.i && x.ty == .n64)
    | .cvt .. => tyFloat x.ty || tyFloat (cvtSrc x) || x.rm == .rne
    | .unpk .. => (match x.ty with | .i16 | .n16 => x.sub.toNat ≤ 1 | _ => true)
    | .redux .. =>
      (match x.sub.toNat with
        | 0 => tysWord.contains x.ty && x.rm == .rne
        | 1 | 2 => tysWord.contains x.ty && x.rm == .rne && !x.fs
        | 3 | 4 | 5 => tysBits.contains x.ty && x.rm == .rne && !x.fs
        | _ => x.ty == .f16 || x.ty == .f32)
    | _ => !(x.i && (x.ty == .vw || !immOk x)))
  && (!isClass6 i || (!x.ra && !x.rb))

/-- A class 5 field that must be zero is zero (R121). -/
def ctlOk : Instr → Bool
  | .bra _ x => x.d == 0
  | .brx _ x | .ret _ x => x.d == 0 && x.b == 0 && x.bp == 0 && x.ofl == 0
  | .callx _ x => x.b == 0 && x.bp == 0 && x.ofl == 0
  | .loop _ x => x.d == 0 && x.b == 0 && !x.u && x.bp == 0 && x.ofl != 0
  | .loopImm _ x => x.b == 0 && x.u && x.bp == 0 && x.ofl != 0
  | .loopPop _ x => x.d == 0 && x.a == 0 && x.b == 1 && !x.u && x.bp == 0 && x.ofl == 0
  | .exit _ x | .yield _ x => x.d == 0 && x.a == 0 && x.b == 0 && !x.u && x.bp == 0 && x.ofl == 0
  | .sleep _ x => x.d == 0 && x.b == 0 && !x.u && x.bp == 0 && x.ofl == 0
  | .sleepUntil _ x => x.d == 0 && x.b == 0 && !x.u && x.bp == 0 && x.ofl == 1
  | .trap _ x => x.d == 0 && x.a == 0 && x.b == 0 && !x.u && x.bp == 0
  | .prio _ x => x.d == 0 && x.a == 0 && x.b == 0 && !x.u && x.ofl == 0
  | _ => true

/-- The registers a class 5 word names. -/
def ctlUses : Instr → List RegUse
  | .brx _ x | .ret _ x => [useN x.a 2 true]
  | .call _ x => [useN x.d 2 false]
  | .callx _ x => [useN x.d 2 false, useN x.a 2 true]
  | .loop _ x => [useN x.a 1 true]
  | .sleep _ x => [useN x.a 1 true]
  | .sleepUntil _ x => [useN x.a 2 true]
  | _ => []

/-- K of a shape (R197). -/
def fmtK : MFmt → Nat
  | .f16 | .bf16 => 16
  | .e4m3 | .e5m2 | .q8q8 => 32
  | .q4q8 => 64

/-- The group size g (R64). -/
def gsize : GSize → Nat
  | .g32 => 32 | .g64 => 64 | .g128 => 128

/-- nb, the blocks of one instruction along K (R199). -/
def fmtNb (f : MFmt) (g : GSize) : Nat := max 1 (fmtK f / gsize g)

/-- F, the registers of a B fragment (R197). -/
def fmtF : MFmt → Nat
  | .q4q8 => 16
  | _ => 8

def fmtQuant : MFmt → Bool
  | .q8q8 | .q4q8 => true
  | _ => false

def tileOk (f : Field8) : Bool := f.toNat < 16

/-- GS, OE, OD, BS, OPN, CLS and CV are zero. -/
def matPlain (x : Mat) : Bool :=
  x.gs == .g32 && !x.oe && x.od == 0 && x.bs == 0 && !x.opn && !x.cls

/-- The scale sets an instruction of the quantised formats uses fit BS 0-3 (R199). -/
def bsOk (x : Mat) : Bool := x.bs.toNat + fmtNb x.fmt x.gs - 1 ≤ 3

/-- The class 7 rows of R210 and R216. -/
def matOk : Instr → Bool
  | .mma _ x => tileOk x.d && !fmtQuant x.fmt && matPlain x
  | .mmaq _ x => tileOk x.d && fmtQuant x.fmt && (x.oe || x.od == 0) && bsOk x
      && (gsize x.gs > fmtK x.fmt || (!x.opn && !x.cls))
  | .tzero _ x => tileOk x.d && x.a == 0 && x.b == 0 && x.fmt == .f16 && matPlain x && x.cv == 0
  | .tfill _ x => tileOk x.d && x.b.toNat ≤ 1 && x.fmt == .f16 && matPlain x && x.cv == 0
  | .tmov _ x => tileOk x.a && x.b.toNat ≤ 1 && x.fmt == .f16 && matPlain x && x.cv == 0
  | .tld _ x | .tst _ x => tileOk x.d && x.b == 0 && x.fmt == .f16 && matPlain x && x.cv == 0
  | .tstat _ x => tileOk x.a && x.b == 0 && x.fmt == .f16 && matPlain x && x.cv == 0
  | .qnt _ x => fmtQuant x.fmt && (x.oe || (x.od == 0 && x.b &&& 7 == 0)) && bsOk x && (x.b &&& 7).toNat ≤ 4
      && x.b.toNat < 16 && gsize x.gs ≤ fmtK x.fmt && !x.opn && !x.cls && x.cv == 0
  | .olset _ x => x.d == 0 && x.b == 0 && x.fmt == .f16 && x.gs == .g32 && x.oe && x.bs == 0 && !x.opn && !x.cls && x.cv == 0
  | .olcnt _ x => x.a == 0 && x.b == 0 && x.fmt == .f16 && x.gs == .g32 && x.oe && x.bs == 0 && !x.opn && !x.cls && x.cv == 0
  | .dqnt _ x => fmtQuant x.fmt && x.b == 0 && !x.oe && x.od == 0 && bsOk x && !x.opn && !x.cls && x.cv == 0
  | _ => true

/-- An A fragment of 16 registers (R198). -/
def useFragA (f : Field8) (read : Bool) : RegUse := { first := f.toNat, count := 16, align := 8, read := read }

/-- The A scale registers of the sets an instruction uses (R199). -/
def useScaleA (f : Field8) (x : Mat) (read : Bool) : RegUse :=
  useRun (f.toNat + 16 + 2 * x.bs.toNat) (2 * fmtNb x.fmt x.gs) read

/-- The registers a class 7 word names (R198, R199, R212-R220). -/
def matUses : Instr → List RegUse
  | .mma _ x => [useFragA x.a true, { first := x.b.toNat, count := 8, align := 8, read := true }]
  | .mmaq _ x => [useFragA x.a true, useScaleA x.a x true,
      { first := x.b.toNat, count := fmtF x.fmt, align := 8, read := true },
      useRun (x.b.toNat + fmtF x.fmt + x.bs.toNat) (fmtNb x.fmt x.gs) true]
  | .tfill _ x => [useRun x.a.toNat 32 true]
  | .tmov _ x => [useRun x.d.toNat 32 false]
  | .tld _ x | .tst _ x => [useN x.a 1 true]
  | .tstat _ x => [useN x.d 1 false]
  | .qnt _ x => [useRun x.a.toNat (fmtK x.fmt) true, useFragA x.d false, useScaleA x.d x false]
  | .olset _ x => [useN x.a 2 true]
  | .olcnt _ x => [useN x.d 1 false]
  | .dqnt _ x => [useFragA x.a true, useScaleA x.a x true, useRun x.d.toNat (fmtK x.fmt) false]
  | _ => []

/-- Bytes of a WIDTH (R61). -/
def widthBytes : Width → Nat
  | .b8 => 1 | .b16 => 2 | .b32 => 4 | .b64 => 8 | .b128 => 16

/-- Registers that one value of a WIDTH occupies (R237). -/
def widthRegs : Width → Nat
  | .b8 | .b16 | .b32 => 1 | .b64 => 2 | .b128 => 4

/-- The class 8 rows of R237. -/
def locOk : Instr → Bool
  | .ld _ x => x.b == 0 && x.space != .mm && !x.split
      && (x.aux == 0 || (x.aux == 1 && (x.width == .b8 || x.width == .b16)))
  | .st _ x => x.d == 0 && x.space != .mm && !x.split && x.aux == 0
  | .gath _ x => (x.space == .sh || x.space == .sc) && x.width != .b128
  | .scat _ x => (x.space == .sh || x.space == .sc) && x.width != .b128 && (!x.split || x.off &&& 0xF == 0)
  | .atom _ x => (x.space == .sh || x.space == .sc) && (x.width == .b32 || x.width == .b64) && !x.split
  | .atomc _ x => x.d == 0 && (x.space == .sh || x.space == .sc) && (x.width == .b32 || x.width == .b64) && !x.split
      && x.aux != 1 && x.aux != 2
  | .pchk _ x => predOk x.d && x.b == 0 && (x.space == .sh || x.space == .sc) && !x.split && x.aux == 0
  | .mon _ x => x.d == 0 && x.b == 0 && x.space != .sp && x.width == .b64 && !x.split && x.aux == 0
  | .mwait _ x => x.d == 0 && x.a == 0 && x.b == 0 && x.space == .sh && x.width == .b8 && !x.split && x.aux == 0 && x.off == 0
  | .mwaitTimeout _ x => x.d == 0 && x.b == 0 && x.space == .sh && x.width == .b8 && !x.split && x.aux == 1 && x.off == 0
  | _ => true

/-- The registers a class 8 word names (R237). -/
def locUses : Instr → List RegUse
  | .ld _ x => [useN x.d (widthRegs x.width) false, useN x.a 1 true]
  | .st _ x => [useN x.a 1 true, useN x.b (widthRegs x.width) true]
  | .gath _ x => [useN x.a 1 true, useRun x.b.toNat (x.aux.toNat + 1) true,
      { first := x.d.toNat, count := widthRegs x.width * (x.aux.toNat + 1), align := widthRegs x.width, read := false }]
  | .scat _ x => [useN x.a 1 true, useRun x.b.toNat (x.aux.toNat + 1) true,
      { first := x.d.toNat, count := widthRegs x.width * (x.aux.toNat + 1), align := widthRegs x.width, read := true }]
  | .atom _ x => [useN x.d (widthRegs x.width) (x.aux == 2), useN x.a 1 true, useN x.b (widthRegs x.width) true]
  | .atomc _ x => [useN x.a 1 true, useN x.b (widthRegs x.width) true]
  | .pchk _ x => [useN x.a 1 true]
  | .mon _ x => [useN x.a (if x.space == .mm then 2 else 1) true]
  | .mwaitTimeout _ x => [useN x.a 1 true]
  | _ => []

/-- The LD field of a leased copy (R249). -/
def ldOf (x : Main) : Nat := (x.opx >>> 8).toNat

/-- LD is 0 without a lease and 0-10 with one (R249). -/
def ldOk (x : Main) : Bool := if x.ls then ldOf x ≤ 10 else ldOf x == 0

/-- W64 of a far atomic (R249). -/
def w64 (x : Main) : Bool := x.opx.getLsbD 4

/-- The class 9 rows of R249. -/
def mainOk : Instr → Bool
  | .cpyin _ x => x.scope == .lane && ldOk x && x.opx &&& 0x0FE == 0
  | .cpyout _ x => x.scope == .lane && !x.ls && x.opx &&& 0xFFE == 0
  | .cpyg _ x => x.scope == .lane && ldOk x && x.opx &&& 0x0F0 == 0
  | .cpys _ x => x.scope == .lane && !x.ls && x.opx &&& 0xFF0 == 0
  | .fatom _ x => x.scope == .lane && !x.ls && x.cq == 0 && x.opx &&& 0xFE0 == 0 && (x.opx &&& 0xF).toNat ≤ 10
      && !(x.opx &&& 0xF == 9 && w64 x)
  | .fatomNr _ x => x.d == 0 && x.scope == .lane && !x.ls && x.opx &&& 0xFE0 == 0x020 && (x.opx &&& 0xF).toNat ≤ 10
      && !(x.opx &&& 0xF == 9 && w64 x)
  | .fcas _ x => x.scope == .lane && !x.ls && x.cq == 0 && x.opx &&& 0xFEF == 0
  | .fence _ x => x.d == 0 && x.a == 0 && x.b == 0 && x.evp == 0 && !x.lu && !x.ls && x.cq == 0
      && 1 ≤ x.opx.toNat && x.opx.toNat ≤ 3
  | .publ _ x => x.d == 0 && (x.scope != .lane && x.scope != .group) && x.evp == 0 && !x.lu && !x.ls && x.cq == 0 && x.opx == 0
  | .mhint _ x => x.d == 0 && x.scope == .lane && !x.lu && !x.ls && x.cq == 0 && x.opx.toNat ≤ 2
  | .mcast _ x => x.scope == .lane && ldOk x && x.opx &&& 0x0E0 == 0
  | _ => true

/-- The registers a class 9 word names (R249). -/
def mainUses : Instr → List RegUse
  | .cpyin _ x | .cpyout _ x | .mcast _ x => [useN x.d 1 true, useN x.a 2 true, useN x.b 1 true]
  | .cpyg _ x | .cpys _ x => [useN x.d 1 true, useN x.a 2 true, useN x.b 2 true]
  | .fatom _ x => [useN x.d (if w64 x then 2 else 1) false, useN x.a 2 true, useN x.b (if w64 x then 2 else 1) true]
  | .fatomNr _ x => [useN x.a 2 true, useN x.b (if w64 x then 2 else 1) true]
  | .fcas _ x => [useN x.d (if w64 x then 2 else 1) true, useN x.a 2 true, useN x.b (if w64 x then 2 else 1) true]
  | .publ _ x | .mhint _ x => [useN x.a 2 true, useN x.b 1 true]
  | _ => []

/-- STS of a `bclose` (R297). -/
def stsOf (x : Eng) : Nat := (x.opx &&& 3).toNat

/-- The class A rows of R297. -/
def engOk : Instr → Bool
  | .bclose _ x => x.d == 0 && x.b == 0 && x.sq == 0 && x.opx.toNat ≤ 3 && (stsOf x != 0 || (x.a == 0 && x.scope == .lane))
  | .waitb _ x => x.d == 0 && x.a == 0 && x.b == 0 && x.scope == .lane && x.sq == 0 && x.opx.toNat ≤ 15
  | .qfence _ x => x.d == 0 && x.a == 0 && x.b == 0 && x.scope == .lane && x.sq == 0 && x.cq == 0
      && 1 ≤ x.opx.toNat && x.opx.toNat ≤ 255
  | .chain _ x => x.d == 0 && x.b == 0 && x.sq == 0 && x.opx.toNat ≤ 1
  | .decod _ x => x.scope == .lane && x.sq == 0 && x.opx.toNat ≤ 7
  | .dtab _ x => x.d == 0 && x.b == 0 && x.scope == .lane && x.sq == 0 && x.cq == 0 && x.opx.toNat ≤ 3
  | .sgo _ x => predOk x.d && x.scope == .lane && x.cq == 0 && x.opx == 0
  | .qpop _ x => x.a == 0 && x.b == 0 && x.scope == .lane && x.cq == 0 && x.opx == 0
  | .qstat _ x => x.a == 0 && x.b == 0 && x.scope == .lane && x.cq == 0 && x.opx == 0
  | .qstatCq _ x => x.a == 0 && x.b == 0 && x.scope == .lane && x.sq == 0 && x.opx == 1
  | .apush _ x => x.d == 0 && x.b == 0 && x.scope == .lane && x.sq == 0 && x.cq == 0 && x.opx == 0
  | .aseg _ x => x.scope == .lane && x.sq == 0 && x.cq == 0 && x.opx.toNat ≤ 7
  | _ => true

/-- The registers a class A word names (R297). -/
def engUses : Instr → List RegUse
  | .bclose _ x => if stsOf x == 0 then [] else [useN x.a (if stsOf x == 3 then 2 else 1) true]
  | .chain _ x | .apush _ x => [useN x.a 2 true]
  | .decod _ x => [useN x.d 1 true, useN x.a 2 true, useN x.b 2 true]
  | .dtab _ x => [useN x.a 1 true]
  | .sgo _ x => [useN x.a 2 true, useN x.b 2 true]
  | .qpop _ x | .qstat _ x | .qstatCq _ x => [useN x.d 1 false]
  | .aseg _ x => [useN x.d 1 false, useN x.a 2 true, useN x.b 2 true]
  | _ => []

/-- The class B rows of R312. -/
def untOk : Instr → Bool
  | .ray _ x => x.mode.toNat ≤ 2
  | .trhold _ x | .trswap _ x | .trstat _ x | .filt _ x | .hgrid _ x => x.mode == 0
  | .bank _ x => x.mode == 0 && x.b == 0
  | _ => true

/-- The registers a class B word names (R312). -/
def untUses : Instr → List RegUse
  | .ray _ x => [useN x.d 1 true, useRun x.a.toNat 11 true, useN x.b 2 true]
  | .trhold _ x | .trswap _ x => [useN x.d 1 true, useN x.a 2 true, useN x.b 1 true]
  | .trstat _ x => [useN x.d 1 false, useN x.a 2 true, useN x.b 1 true]
  | .filt _ x => [useN x.d 1 true, useRun x.a.toNat 4 true, useN x.b 2 true]
  | .hgrid _ x => [useN x.d 1 true, useRun x.a.toNat 3 true, useN x.b 2 true]
  | .bank _ x => [useN x.d 1 true, useN x.a 1 true]
  | _ => []

/-- The class C rows of R371. -/
def sysOk : Instr → Bool
  | .rfe _ x | .replay _ x => x.d == 0 && x.a == 0 && x.b == 0 && x.sub == 0
  | .csave _ x => x.d == 0 && x.sub == 0
  | .crest _ x => x.d == 0 && x.a == 0 && x.sub == 0
  | .tlbinv _ x => x.d == 0 && x.sub.toNat ≤ 1
  | .xinj _ x => x.d == 0 && x.sub == 0
  | .elog _ x => x.b == 0 && x.sub == 0
  | .elogClr _ x => x.d == 0 && x.sub == 1
  | .halt _ x => x.d == 0 && x.b == 0 && x.sub == 0
  | _ => true

/-- The registers a class C word names (R371). -/
def sysUses : Instr → List RegUse
  | .csave _ x | .tlbinv _ x => [useN x.a 2 true, useN x.b 1 true]
  | .crest _ x => [useN x.b 1 true]
  | .xinj _ x => [useN x.a 1 true, useN x.b 1 true]
  | .elog _ x => [useN x.d 2 false, useN x.a 1 true]
  | .elogClr _ x => [useN x.a 1 true, useN x.b 2 true]
  | .halt _ x => [useN x.a 1 true]
  | _ => []

/-- The slot-0 opcode and the two slots of a pair word (R66). -/
def pairSlots : Instr → Option (PairSlot × PairSlot)
  | .pairAdd _ x y => some (⟨.add, x⟩, y)
  | .pairSub _ x y => some (⟨.sub, x⟩, y)
  | .pairMinI32 _ x y => some (⟨.minI32, x⟩, y)
  | .pairMaxI32 _ x y => some (⟨.maxI32, x⟩, y)
  | .pairMinN32 _ x y => some (⟨.minN32, x⟩, y)
  | .pairMaxN32 _ x y => some (⟨.maxN32, x⟩, y)
  | .pairAnd _ x y => some (⟨.and_, x⟩, y)
  | .pairOr _ x y => some (⟨.or_, x⟩, y)
  | .pairXor _ x y => some (⟨.xor_, x⟩, y)
  | .pairShl _ x y => some (⟨.shl, x⟩, y)
  | .pairShr _ x y => some (⟨.shr, x⟩, y)
  | .pairSar _ x y => some (⟨.sar, x⟩, y)
  | .pairMov _ x y => some (⟨.mov, x⟩, y)
  | .pairMovi _ x y => some (⟨.movi, x⟩, y)
  | .pairFadd _ x y => some (⟨.fadd, x⟩, y)
  | .pairFsub _ x y => some (⟨.fsub, x⟩, y)
  | .pairFmul _ x y => some (⟨.fmul, x⟩, y)
  | .pairFmin _ x y => some (⟨.fmin, x⟩, y)
  | .pairFmax _ x y => some (⟨.fmax, x⟩, y)
  | .pairHadd2 _ x y => some (⟨.hadd2, x⟩, y)
  | .pairHmul2 _ x y => some (⟨.hmul2, x⟩, y)
  | .pairAddi _ x y => some (⟨.addi, x⟩, y)
  | _ => none

/-- Pair slots whose B field must be zero and whose IMM counts (R66). -/
def pairImm : PairOp → Bool
  | .movi | .addi => true
  | _ => false

/-- A slot's own field rule (R66). -/
def slotOk (s : PairSlot) : Bool := if pairImm s.op then s.args.b == 0 else s.args.imm == 0

/-- The banks a slot uses (R19, R67). -/
def slotBanks (s : PairSlot) : List Nat :=
  if pairImm s.op then [s.args.d.toNat % 4] else [s.args.d.toNat % 4, s.args.b.toNat % 4]

/-- The registers a slot names. -/
def slotUses (s : PairSlot) : List RegUse :=
  match s.op with
  | .movi => [useN s.args.d 1 false]
  | .addi => [useN s.args.d 1 true, useN s.args.d 1 false]
  | .mov => [useN s.args.d 1 false, useN s.args.b 1 true]
  | _ => [useN s.args.d 1 true, useN s.args.d 1 false, useN s.args.b 1 true]

/-- The pair rule (R67): disjoint bank sets and different destinations. -/
def pairRule (x y : PairSlot) : Bool :=
  (slotBanks x).all (fun b => !(slotBanks y).contains b) && x.args.d != y.args.d

/-- Guard fields that are not reserved (R55, R77 step 1): GP 24-30 is reserved, and GN is 0 when GP is 31. -/
def hdrOk (h : Hdr) : Bool := h.gp.toNat < 24 || (h.gp == 31 && !h.gn)

/-- S, GN and GP of a full-form word. -/
def hdrOf : Instr → Option Hdr
  | .add h _ => some h
  | .sub h _ => some h
  | .addc h _ => some h
  | .subb h _ => some h
  | .mul h _ => some h
  | .mulh h _ => some h
  | .mad h _ => some h
  | .madw h _ => some h
  | .div_ h _ => some h
  | .rem_ h _ => some h
  | .min_ h _ => some h
  | .max_ h _ => some h
  | .abs h _ => some h
  | .neg h _ => some h
  | .adds h _ => some h
  | .subs h _ => some h
  | .clamp h _ => some h
  | .lea h _ => some h
  | .cmp h _ => some h
  | .sel h _ => some h
  | .movi h _ _ => some h
  | .movh h _ _ => some h
  | .dp4 h _ => some h
  | .and_ h _ => some h
  | .or_ h _ => some h
  | .xor_ h _ => some h
  | .andn h _ => some h
  | .not_ h _ => some h
  | .shl h _ => some h
  | .shr h _ => some h
  | .sar h _ => some h
  | .rotl h _ => some h
  | .bfx h _ => some h
  | .bfi h _ => some h
  | .popc h _ => some h
  | .clz h _ => some h
  | .ctz h _ => some h
  | .brev h _ => some h
  | .prmt h _ => some h
  | .lop3 h _ => some h
  | .fadd h _ => some h
  | .fsub h _ => some h
  | .fmul h _ => some h
  | .ffma h _ => some h
  | .fmin h _ => some h
  | .fmax h _ => some h
  | .fcmp h _ => some h
  | .fclass h _ => some h
  | .hfma2 h _ => some h
  | .hadd2 h _ => some h
  | .hmul2 h _ => some h
  | .hdot2 h _ => some h
  | .fmed3 h _ => some h
  | .frcp h _ => some h
  | .frsq h _ => some h
  | .fsqrt h _ => some h
  | .fdiv h _ => some h
  | .fex2 h _ => some h
  | .flg2 h _ => some h
  | .fsin h _ => some h
  | .fcos h _ => some h
  | .dadd h _ => some h
  | .dmul h _ => some h
  | .dfma h _ => some h
  | .dcmp h _ => some h
  | .cvt h _ => some h
  | .frnd h _ => some h
  | .packH h _ => some h
  | .packW h _ => some h
  | .unpk h _ => some h
  | .mov h _ => some h
  | .movImm h _ => some h
  | .pset h _ => some h
  | .psetAll h _ => some h
  | .pget h _ => some h
  | .pgetAll h _ => some h
  | .pand h _ => some h
  | .por h _ => some h
  | .pxor h _ => some h
  | .pnot h _ => some h
  | .rdsr h _ => some h
  | .wrsr h _ => some h
  | .vwset h _ => some h
  | .nop h _ => some h
  | .bra h _ => some h
  | .brx h _ => some h
  | .call h _ => some h
  | .callx h _ => some h
  | .ret h _ => some h
  | .loop h _ => some h
  | .loopImm h _ => some h
  | .loopPop h _ => some h
  | .exit h _ => some h
  | .yield h _ => some h
  | .sleep h _ => some h
  | .sleepUntil h _ => some h
  | .trap h _ => some h
  | .prio h _ => some h
  | .qswap h _ => some h
  | .qdd h _ => some h
  | .hlpOff h _ => some h
  | .hlpOn h _ => some h
  | .hlpIs h _ => some h
  | .shfl h _ => some h
  | .vote h _ => some h
  | .voteBallot h _ => some h
  | .match_ h _ => some h
  | .compact h _ => some h
  | .reform h _ => some h
  | .sign h _ => some h
  | .join_ h _ => some h
  | .cvset h _ => some h
  | .bar h _ => some h
  | .gbar h _ => some h
  | .spawn h _ => some h
  | .launch h _ => some h
  | .redux h _ => some h
  | .mma h _ => some h
  | .mmaq h _ => some h
  | .tzero h _ => some h
  | .tfill h _ => some h
  | .tmov h _ => some h
  | .tld h _ => some h
  | .tst h _ => some h
  | .tstat h _ => some h
  | .qnt h _ => some h
  | .olset h _ => some h
  | .olcnt h _ => some h
  | .dqnt h _ => some h
  | .ld h _ => some h
  | .st h _ => some h
  | .gath h _ => some h
  | .scat h _ => some h
  | .atom h _ => some h
  | .atomc h _ => some h
  | .pchk h _ => some h
  | .mon h _ => some h
  | .mwait h _ => some h
  | .mwaitTimeout h _ => some h
  | .cpyin h _ => some h
  | .cpyout h _ => some h
  | .cpyg h _ => some h
  | .cpys h _ => some h
  | .fatom h _ => some h
  | .fatomNr h _ => some h
  | .fcas h _ => some h
  | .fence h _ => some h
  | .publ h _ => some h
  | .mhint h _ => some h
  | .mcast h _ => some h
  | .bclose h _ => some h
  | .waitb h _ => some h
  | .qfence h _ => some h
  | .chain h _ => some h
  | .decod h _ => some h
  | .dtab h _ => some h
  | .sgo h _ => some h
  | .qpop h _ => some h
  | .qstat h _ => some h
  | .qstatCq h _ => some h
  | .apush h _ => some h
  | .aseg h _ => some h
  | .ray h _ => some h
  | .trhold h _ => some h
  | .trswap h _ => some h
  | .trstat h _ => some h
  | .filt h _ => some h
  | .hgrid h _ => some h
  | .bank h _ => some h
  | .rfe h _ => some h
  | .csave h _ => some h
  | .crest h _ => some h
  | .tlbinv h _ => some h
  | .replay h _ => some h
  | .xinj h _ => some h
  | .elog h _ => some h
  | .elogClr h _ => some h
  | .halt h _ => some h
  | _ => none

/-- The events of the machine, which are no words (spec/95). -/
def isEvent (i : Instr) : Bool :=
  (hdrOf i).isNone && (pairSlots i).isNone && (match i with | .illegalInstruction _ => false | _ => true)

/-- Every register the word names (R17), in the order D, A, B, C of its form. -/
def regUses (i : Instr) : List RegUse :=
  match arithRow i with
  | some (r, x) => rowUses r x
  | none =>
    match i with
    | .movi _ d _ => [useN d 1 false]
    | .movh _ d _ => [useN d 1 true, useN d 1 false]
    | _ =>
      match pairSlots i with
      | some (x, y) => slotUses x ++ slotUses y
      | none => ctlUses i ++ matUses i ++ locUses i ++ mainUses i ++ engUses i ++ untUses i ++ sysUses i

/-- R18 and the fragment alignments: every start register is a multiple of its alignment. -/
def usesAligned (us : List RegUse) : Bool := us.all fun u => u.first % u.align == 0

/-- R17: every register named lies below the register count `n`. -/
def usesBelow (n : Nat) (us : List RegUse) : Bool := us.all fun u => u.first + u.count ≤ n

/-- The conditions of R77 step 1 and step 2 that the word alone decides. -/
def formOk (i : Instr) : Bool :=
  (match hdrOf i with | some h => hdrOk h | none => true)
  && (match arithRow i with | some (r, x) => rowOk r x && rowExtra i x | none => true)
  && ctlOk i && matOk i && locOk i && mainOk i && engOk i && untOk i && sysOk i
  && (match pairSlots i with | some (x, y) => slotOk x && slotOk y && pairRule x y | none => true)
  && usesAligned (regUses i)

end Sys2Proof.Machine
end

