-- ==== Sys2Proof/Config.lean ====
section
/-! DEFINITION. What an implementation fixes and the manual leaves open, as constants without a body: nothing in Lean
can evaluate them, so a statement about one holds for every value (notes/assumptions/3, 4). -/
namespace Sys2Proof.Config

/-- A free byte: the n-th value the manual leaves undefined (R235, R264). DESIGN CHOICE (notes/assumptions/3). -/
opaque freeByte : Nat → Byte

/-- What a byte of host memory that nothing in the model has written reads as, by host physical address. -/
opaque hostByte : Nat → Byte

/-- What a byte of a peer's memory that nothing in the model has written reads as, by device, incarnation and IA: a replacement
holds no data of the failed part (R426). -/
opaque peerByte : Nat → Byte → Nat → Byte

/-- How far the time base of a compute die other than die 0 is ahead of die 0, by die: taken modulo 3, so at most the
2 ns of R5 (R263). -/
opaque dieSkew : Nat → Nat

/-- The stored form of a 4 KiB block that Felt compresses (R397: the coding is not architectural). -/
opaque feltPack : List Byte → List Byte

/-- What Felt reads a compressed block as (R397). -/
opaque feltUnpack : List Byte → List Byte

/-- The two key digests in the part's mask ROM (R436): 0 and 1. -/
opaque romDigest : Nat → BitVec 512

/-- Where a firmware image has its version and its public key among its bytes (R436: the layout is not given): the version, the
modulus and the exponent. -/
opaque fwVersion : List Byte → BitVec 16
opaque fwModulus : List Byte → Nat
opaque fwExponent : List Byte → BitVec 32

/-- The silicon revision (R438). -/
opaque siliconRev : Byte

/-- The serial number (R438). -/
opaque siliconSerial : W64

end Sys2Proof.Config
end

