-- ==== Sys2Proof/Machine/MemState.lean ====
section
/-! DEFINITION. State of the memories: the byte store, presence bits of local memory (R227), and what each memory
stack keeps beside its bytes (R235, R236, R247, R269, R273, R280, R325, R328, R383, R389, R392, R410). -/
namespace Sys2Proof.Machine

/-- Bytes by address: addresses strictly rising, no byte 0 listed; an unlisted byte reads 0 (R432 step 3 zeroes
device memory). -/
abbrev Mem := List Host.Cell

/-- Bytes by address of memory outside the part: addresses strictly rising; an unlisted byte is not known to the
part. DESIGN CHOICE (notes/assumptions/13). -/
abbrev FarMem := List Host.Cell

/-- A read lease on a filled line of local memory: its expiry and how a refetch reads it again (R272, R274). -/
structure LineLease where
  expiry : W64
  expired : Bool
  /-- the main-memory ranges that filled the line: line byte, virtual address, length -/
  parts : List (Nat × VAddr × Nat)
  ld : Nat
  evp : BitVec 2
  ctx : Nat
  core : Nat
  deriving DecidableEq, Repr

/-- What one line of local memory carries (R227, R274): pending writers and a lease. -/
structure LineState where
  line : Nat
  pending : Nat
  lease : Option LineLease
  deriving DecidableEq, Repr

/-- A marked range of a return slot (R316, R404): the code and what its frame carries. -/
structure SlotMark where
  first : Nat
  len : Nat
  tid : Nat
  code : Byte
  opc : VAddr
  info0 : W64
  slot : Nat
  deriving DecidableEq, Repr

/-- The location a local access names: the space, the holder's own address and its width in bytes (R221). -/
structure Place where
  space : Space
  addr : Nat
  bytes : Nat
  deriving DecidableEq, Repr

/-- One access held in the local-memory port until its lines are present (R228, R240, R242). -/
inductive PortAct where
  /-- element of a load or gather: registers from `reg` of result `res` -/
  | load (p : Place) (reg : Nat) (sx : Bool) (res : Nat)
  /-- bytes stored -/
  | store (p : Place) (data : List Byte)
  /-- a local atomic of R245's local code; `ret` names the result and register of an `atom` -/
  | atom (p : Place) (op : BitVec 3) (operand compare : W64) (ret : Option (Nat × Nat))
  /-- a whole non-split scatter: every element at one instant, with the `$tid`s of its lanes -/
  | scatter (es : List (Place × List Byte)) (tids : List Nat)
  deriving DecidableEq, Repr

/-- A held access with the lane and the word that issued it. -/
structure Held where
  team : Nat
  /-- the slot that waits for the result, and the lane's `$tid` -/
  group : Nat
  slot : Nat
  tid : Nat
  pc : VAddr
  act : PortAct
  deriving DecidableEq, Repr

/-- A local memory: a team's shared memory or a gang's scratchpad (R221, R223, R227, R228, R316). -/
structure LocalMem where
  bytes : Mem
  lines : List LineState
  held : List Held
  marks : List SlotMark
  deriving DecidableEq, Repr

/-- The tag of a 512-byte grain (R236) and its latest lease expiry (R272). -/
structure GrainTag where
  writer : BitVec 12
  time : W64
  lmax : W64
  deriving DecidableEq, Repr

/-- The place of a publication (R282). -/
inductive PubPlace where
  | team (id : Nat)
  /-- a cluster or die, and the publishing team, which lies inside wherever it is (R282) -/
  | cluster (n team : Nat)
  | die (n team : Nat)
  /-- device and system scope: the place is empty -/
  | none
  deriving DecidableEq, Repr

/-- The publication state of a code line (R280). -/
inductive PubState where
  | pending
  | published (s : Scope) (p : PubPlace)
  deriving DecidableEq, Repr

/-- A leaf held by a stack's translation caches (R389). -/
structure TlbEntry where
  page : Nat
  big : Bool
  leaf : W64
  deriving DecidableEq, Repr

/-- A table pointer held by a stack's walk cache: the level it was read at and the IA bits that selected it (R389). -/
structure WalkEntry where
  level : Nat
  prefix_ : Nat
  entry : W64
  deriving DecidableEq, Repr

/-- A page of a pending table (R392). -/
structure PendingPage where
  page : Nat
  big : Bool
  deriving DecidableEq, Repr

/-- An entry of a dirty log (R269): the line and the home group whose write made it dirty. -/
structure LogEntry where
  line : Nat
  team : Nat
  group : Nat
  deriving DecidableEq, Repr

/-- A line of a stack cache (R235). -/
structure CacheLine where
  line : Nat
  dirty : Bool
  evp : BitVec 2
  deriving DecidableEq, Repr

/-- A watched main-memory line, by IA line number (R247). -/
structure Watch where
  line : Nat
  team : Nat
  tid : Nat
  deriving DecidableEq, Repr

/-- A treelet that Tulle holds (R328). -/
structure Hold where
  /-- the scene descriptor's address, which with the index names the treelet (R319) -/
  scene : Nat
  treelet : Nat
  team : Nat
  /-- a batch that was traversing the treelet has not finished its visit -/
  draining : Bool
  /-- a `trhold` has been answered CODE 0x00 for it (R328, R348) -/
  granted : Bool
  /-- number of the `trhold` that made it -/
  cmd : Nat
  deriving DecidableEq, Repr

/-- A line of a unit's private cache, with the DRAM bytes it was filled with (R279). -/
structure UnitLine where
  /-- 0 Tulle, 1 Gauze, 2 Calico -/
  unit : Nat
  line : Nat
  /-- the intermediate address it was read at, in lines -/
  at_ : Nat
  data : List Byte
  deriving DecidableEq, Repr

/-- A sharer that the directory records for a line (R410): a peer by device number, 64 for the host. -/
structure Sharer where
  line : Nat
  agent : Nat
  modified : Bool
  /-- IA of the line, and the 128 bytes of a modified copy -/
  ia : Nat
  data : List Byte
  deriving DecidableEq, Repr

/-- A line of peer memory in a stack cache (R235, R410): device and line number there, and what a line of the stack's own
has. -/
structure PeerLine where
  dev : Nat
  line : Nat
  dirty : Bool
  evp : BitVec 2
  /-- home groups whose writes made it dirty (R269) -/
  log : List (Nat × Nat)
  deriving DecidableEq, Repr

/-- Who a write at a home is counted for: the tag's writer (R236) and the dirty log's home group (R269). -/
structure Writer where
  writer : BitVec 12
  /-- team and home group of a lane's write -/
  log : Option (Nat × Nat)
  deriving DecidableEq, Repr

/-- An access performed at a home (R264, R256). -/
inductive HomeAct where
  | write (addr : Nat) (data : List Byte) (poison : Bool)
  | atomic (addr : Nat) (wide : Bool) (op : BitVec 4) (cas : Bool) (operand compare : W64)
  /-- a swap, which Tulle makes when its turn comes (R273, R329) -/
  | unit (addr : Nat)
  /-- the line that a Calico command writes to DRAM (R273, R344) -/
  | bank (addr : Nat) (data : List Byte)
  deriving DecidableEq, Repr

/-- Where the access is. -/
def HomeAct.addr : HomeAct → Nat
  | .write a _ _ => a
  | .atomic a .. => a
  | .unit a => a
  | .bank a _ => a

/-- A write held for a lease (R273): the tick it is performed at, and the engine operation or unit command that waits for
it. -/
structure HeldWrite where
  at_ : W64
  act : HomeAct
  who : Writer
  op : Option Nat
  ctx : Nat
  /-- IA of the access, for monitors and code lines -/
  ia : Nat
  evp : BitVec 2
  deriving DecidableEq, Repr

/-- One memory stack beside its bytes. Lines and grains are numbered by stack-physical address. -/
structure Stack where
  /-- `$ptb` (R379): stack-physical address of the root table -/
  root : W64
  /-- `$stkstat`.MALF -/
  malf : Bool
  /-- the second level of translations, newest first -/
  tlb : List TlbEntry
  /-- the micro-TLBs, newest first: channel and entry -/
  micro : List (Nat × TlbEntry)
  walks : List WalkEntry
  pages : List PendingPage
  cache : List CacheLine
  peerLines : List PeerLine
  log : List LogEntry
  logOver : Bool
  grains : List (Nat × GrainTag)
  /-- the tag of a grain that is not listed -/
  grainBase : GrainTag
  /-- frames of 64 KiB, each with a page of 64 KiB that has been mapped to it (R236) -/
  mapped : List (Nat × Nat)
  /-- writes held for leases: the first 1,024 stand in the pending-write buffer, later ones wait at the home (R273) -/
  heldWrites : List HeldWrite
  /-- publication state of code lines; a line of a code frame that is not listed is published at system scope -/
  pubs : List (Nat × PubState)
  /-- code frames: 64 KiB frame numbers (R280, R390) -/
  codeFrames : List Nat
  poison : List Nat
  bankWritten : List Nat
  /-- check values in the side-band that were not made from the line's present bytes (R427); a line that is not listed has
  the CRC-32C of its bytes -/
  checks : List (Nat × W32)
  watches : List Watch
  sharers : List Sharer
  unitLines : List UnitLine
  /-- the Tulle spill register (R325) -/
  spillReg : W64
  holds : List Hold
  deriving DecidableEq, Repr

/-- A codeword stored with flipped bits (R358, R376, R403): the array's KIND and UNIT, the codeword's byte address
in it, and the flipped bits: data bits by number, check bit c as 1000 + c. -/
structure Flip where
  kind : Nat
  unit : Nat
  addr : Nat
  bits : List Nat
  deriving DecidableEq, Repr

/-- An armed injection (R376). -/
structure Inject where
  kind : Nat
  unit : Nat
  bits : List Nat
  deriving DecidableEq, Repr

/-- The memories of the part (R221, R230): homes and DRAM of all stacks by `stack * 2^36 + address`, the host's and the
peers' memory as the part has seen it, the stacks, and the error state of every SRAM array and DRAM bank. DESIGN
CHOICE (notes/assumptions/59). -/
structure Memory where
  /-- what the home of each byte holds: the stack cache's line where one is cached, else DRAM -/
  home : Mem
  /-- what the DRAM holds, dirty cache lines not written back -/
  dram : Mem
  host : FarMem
  /-- 4 KiB units of host memory whose accesses get an HHL error response (R382) -/
  hostErr : List Nat
  /-- checkpoints in host memory, newest first: where each starts and the device memory it holds (R399) -/
  ckpts : List (Nat × Mem)
  /-- peers' memory, by `device * 2^48 + IA` -/
  peer : FarMem
  stackList : List Stack
  flips : List Flip
  injects : List Inject
  /-- error-log registers by selector (R361, R346) -/
  errLogs : List (Nat × W64)
  deriving DecidableEq, Repr

end Sys2Proof.Machine
end

