-- ==== Sys2Proof/Machine/TeamState.lean ====
section
/-! DEFINITION. State of lanes, groups, teams and gangs (R13, R136-R152, R193-R206, R223, R293, R304, R366). -/
namespace Sys2Proof.Machine

/-- A trap condition with what its frame carries (R351, R354). -/
structure TrapInfo where
  code : Byte
  info0 : W64
  info1 : W64
  opc : VAddr
  rpt : Bool
  multi : Bool
  /-- the k of `trap k` -/
  k : BitVec 13 := 0
  /-- the word at which it is delivered, where that is not the word that ends the run (R354, R404) -/
  fpc : Option VAddr := none
  deriving DecidableEq, Repr

/-- An entry of a lane's loop stack (R24). -/
structure LoopEntry where
  start : VAddr
  stop : VAddr
  count : W32
  deriving DecidableEq, Repr

/-- The state of a lane slot (R140), in the code order of R366. -/
inductive SlotKind where
  | empty | live | helper
  deriving DecidableEq, Repr

/-- The unit a monitor watches (R247). -/
inductive WatchUnit where
  /-- the aligned 8-byte word at an address of team shared memory or the scratchpad -/
  | word (space : Space) (addr : Nat)
  /-- a line by stack and IA line number -/
  | main (stack line : Nat)
  deriving DecidableEq, Repr

/-- A lane's monitor once armed (R247). -/
structure Monitor where
  unit : WatchUnit
  fired : Bool
  deriving DecidableEq, Repr

/-- What a variable-latency result still waits for (R69, R71). -/
inductive Need where
  /-- its value is formed -/
  | formed
  /-- accesses held in the local-memory port -/
  | port (left : Nat)
  /-- a far atomic by operation number -/
  | far (op : Nat)
  /-- the unit at a position of stream queue q -/
  | pop (q pos : Nat)
  /-- the matrix unit's operations with these numbers; then half `half` of tile t goes to 32 registers (`tmov`) -/
  | tileHalf (t half d : Nat) (ops : List Nat)
  /-- the same, then tile t's status goes to one register (`tstat`) -/
  | tileStat (t d : Nat) (ops : List Nat)
  /-- the same, then descriptor o's count goes to one register (`olcnt`) -/
  | olist (o d : Nat) (ops : List Nat)
  deriving DecidableEq, Repr

/-- A lane's uncommitted result of one variable-latency word of its run (R70, R71). -/
structure Result where
  /-- number of the result among the part's, in order of issue -/
  num : Nat
  pc : VAddr
  need : Need
  /-- destination registers and the values formed so far -/
  writes : List (Nat × W32)
  flags : W32
  trap : Option TrapInfo
  /-- the result has returned to the lane -/
  back : Bool
  deriving DecidableEq, Repr

/-- A lane (R13, R25, R247, R267, R366). Where its slot is empty the other fields mean nothing. -/
structure Lane where
  kind : SlotKind
  /-- `$tid` -/
  tid : Nat
  pc : VAddr
  /-- `$prio` -/
  prio : Byte
  /-- v0 to v(n - 1) -/
  regs : List W32
  preds : BitVec 24
  /-- innermost first -/
  loops : List LoopEntry
  fpstat : W32
  trapen : W32
  spill : W32
  /-- `$mode`.HND -/
  hnd : Bool
  /-- AT and CT of R267 -/
  acq : W64
  ct : W64
  /-- `$param` -/
  param : W64
  monitor : Option Monitor
  results : List Result
  /-- an `atomc`'s error awaiting delivery -/
  late : Option TrapInfo
  deriving DecidableEq, Repr

/-- What the last word of a run still has to do once the run's results are committed (R68, R71), with the slots that
do it. -/
inductive Ending where
  /-- nothing: a word with S = 1, a `yield`, or lanes that went different ways -/
  | plain
  /-- precise traps by slot (R74) -/
  | trap (ts : List (Nat × TrapInfo))
  | exit (ps : List Nat)
  | sleep (ps : List Nat) (deadlines : List (Nat × W64))
  | reform (ps : List Nat)
  | join (ps : List Nat) (cv : Nat)
  | bar (ps : List Nat) (gang : Bool)
  | mwait (ps : List Nat) (deadlines : List (Nat × W64))
  /-- lanes that wait at an `mma` or `mmaq` for the epoch they have signed to end (R200) -/
  | epoch (ps : List Nat) (cv : Nat)
  deriving DecidableEq, Repr

/-- What a parked frontier entry waits for (R145, R166). -/
inductive Wake where
  /-- every result of its run (R71): at the run's end, or split off there (R72) -/
  | results
  /-- the completion of convergence register cv's epoch (R186) -/
  | join (cv : Nat)
  /-- the release that a barrier's arrival makes (R188): of the team barrier, or of the gang's -/
  | arrive (gang : Bool)
  | bar
  | gbar
  /-- a monitor, or the earliest deadline (R248) -/
  | mwait (deadline : Option W64)
  | sleep (deadline : W64)
  /-- presence of lines before a word issues (R192, R304, R329, R340) -/
  | lines (ls : List LineId)
  /-- the matrix unit's operations with these numbers, before a `tst` (R214) or `olset` (R219) issues -/
  | matrix (ops : List Nat)
  /-- the end of the epoch every lane has already signed (R200) -/
  | epoch (cv : Nat)
  /-- a non-resident page of code (R391) -/
  | fetch (stack page : Nat)
  deriving DecidableEq, Repr

/-- What an entry remembers of a short loop it spins on (R165). -/
structure Spin where
  branch : VAddr
  target : VAddr
  taken : Nat
  quiet : Nat
  changed : Bool
  /-- clock at which the demotion began -/
  since : Option Nat
  lines : List LineId
  deriving DecidableEq, Repr

/-- A frontier entry (R142). Its PC and priority are those of its lanes; a run is in progress when `words` is not 0. -/
structure Entry where
  mask : BitVec 32
  wake : Option Wake
  issuing : Bool
  /-- W of R144 -/
  starve : Nat
  /-- executed words and variable-latency words of the current run (R73) -/
  words : Nat
  vars : Nat
  /-- the run holds a split gather (R72) -/
  split : Bool
  /-- a release under way at a fence, barrier or `publ`: the tick it may complete (R259, R268) -/
  release : Option W64
  /-- the word that ended the run and what it still has to do, while the run's results are out -/
  ending : Option (VAddr × Ending)
  spin : Spin
  deriving DecidableEq, Repr

/-- A group (R136, R137, R142, R163). -/
structure Group where
  lanes : List Lane
  entries : List Entry
  /-- hardware group slot of the core -/
  hw : Nat
  /-- A of R163 -/
  age : Nat
  /-- it has issued a word in the present clock (R163) -/
  issued : Bool
  /-- the first clock after the window of a `yield` (R166) -/
  yieldEnd : Nat
  /-- registers in the two operand holds, and the lanes of the bundle that filled them (R76) -/
  holds : List Nat
  holder : BitVec 32
  deriving DecidableEq, Repr

/-- The operands a lane gave at its signature of an `mma` or `mmaq` (R200): its slot and the captured registers of the A
and B fragments with their scale registers. -/
structure Capture where
  slot : Nat
  /-- the signer -/
  tid : Nat
  a : List W32
  b : List W32
  deriving DecidableEq, Repr

/-- The operation an epoch or the matrix unit holds (R196, R200). -/
structure MatOp where
  num : Nat
  pc : VAddr
  quant : Bool
  word : Mat
  caps : List Capture
  deriving DecidableEq, Repr

/-- A convergence register (R148), its epoch's captures (R200) and the group that may sign them. -/
structure ConvReg where
  decl : BitVec 1024
  sgn : BitVec 1024
  anchor : Option VAddr
  op : Option MatOp
  group : Option Nat
  deriving DecidableEq, Repr

/-- A recorded fault of a tile or descriptor (R208, R209). -/
structure RecFault where
  code : Byte
  pc : VAddr
  info0 : W64
  deriving DecidableEq, Repr

/-- The exact sum of outlier terms of one element (R195, R203, R367): its value in units of 2^-24, the special values
that its terms had, and the signs of its finite terms, zero or not. -/
structure OutSum where
  val : Int
  posInf : Bool
  negInf : Bool
  /-- a quiet NaN, a signalling NaN, an infinity times zero -/
  nan : Bool
  sig : Bool
  bad : Bool
  poison : Bool
  posZero : Bool
  negZero : Bool
  posFin : Bool
  negFin : Bool
  deriving DecidableEq, Repr

/-- A tile (R193-R195). Element (m, n) is at 32m + n; a list that is too short reads as zeros. -/
structure Tile where
  elems : List W32
  v : Bool
  d : Bool
  /-- NV, OF, UF, NX at bits 8, 10, 11, 12 as in the status word -/
  flags : W32
  open_ : Bool
  bd : List Int
  bo : List OutSum
  fault : Option RecFault
  deriving DecidableEq, Repr

/-- An operation that has issued to the matrix unit and is not yet performed, in issue order (R196). -/
inductive TileAct where
  | zero
  /-- columns of half h by lane slot -/
  | fill (h : Nat) (cols : List (Nat × List W32))
  | load (addr : Nat)
  | store (addr : Nat)
  | mul (op : MatOp)
  deriving DecidableEq, Repr

structure TileOp where
  num : Nat
  tile : Nat
  pc : VAddr
  act : TileAct
  deriving DecidableEq, Repr

/-- A bound outlier descriptor (R206). -/
structure Outlier where
  base : Nat
  cap : Nat
  cnt : Nat
  cur : Nat
  korg : Nat
  ovf : Bool
  fault : Option RecFault
  deriving DecidableEq, Repr

/-- Entries a `qnt` appended that the matrix unit has not yet written (R217). -/
structure Append where
  num : Nat
  od : Nat
  addr : Nat
  data : List Byte
  deriving DecidableEq, Repr

/-- A stamp that a close asked for (R298, R299). -/
structure Stamp where
  /-- STS: 1 shared, 2 scratchpad, 3 main -/
  kind : Nat
  addr : Nat
  scope : Scope
  tid : Nat
  group : Nat
  pc : VAddr
  /-- stack and page of a page that is not resident, once the write has met it (R391) -/
  wait : Option (Nat × Nat)
  deriving DecidableEq, Repr

/-- The recorded fault of a batch (R296). -/
structure BatchFault where
  code : Byte
  pc : VAddr
  /-- the selector of a memory error (R351); for other codes the record names queue and sequence -/
  info0 : W64
  addr : W64
  /-- the order of issue of the operation -/
  op : Nat
  deriving DecidableEq, Repr

/-- A batch of a copy queue (R293, R294): its place in closing order, whose low 24 bits are its sequence number, the
numbers of its unfinished operations, its fault and completion time. -/
structure Batch where
  seq : Nat
  /-- operations issued to the batch -/
  count : Nat
  /-- those that are not complete -/
  ops : List Nat
  time : W64
  fault : Option BatchFault
  multi : Bool
  stamp : Option Stamp
  /-- every operation is finished and every earlier batch complete -/
  complete : Bool
  /-- tick at which the stamp's release is over, once it has begun (R299) -/
  stampAt : Option W64
  deriving DecidableEq, Repr

/-- A copy queue (R293). -/
structure CopyQueue where
  /-- closes so far: the sequence counter is its low 24 bits -/
  seq : Nat
  open_ : Batch
  /-- closed batches in closing order; complete ones stay while a fault of theirs is undelivered or a stamp unwritten -/
  closed : List Batch
  /-- completion time of the latest complete batch -/
  time : W64
  /-- `mcast` words the team has issued on the queue (R255) -/
  mcasts : Nat
  /-- lines the queue's operations have made dirty, by stack and line, since the last system-scope stamp (R299) -/
  wrote : List (Nat × Nat)
  deriving DecidableEq, Repr

/-- A symbol of a canonical code (R304). -/
structure CodeSym where
  sym : Byte
  len : Nat
  code : Nat
  deriving DecidableEq, Repr

/-- Where a team is: on a core with the places its storage took (R159, R161), or saved (R364). -/
inductive TeamPlace where
  | core (core memBase regBase tileBase cvBase : Nat)
  /-- saved, with the reason of R365: 1 replay, 2 csave, 3 gang; the time base of its core at the save -/
  | saved (reason : Nat) (at_ : W64)
  deriving DecidableEq, Repr

/-- A write into a saved team's local memory that waits for its restore (R318, R364). -/
structure LateWrite where
  space : Space
  addr : Nat
  data : List Byte
  /-- lines whose pending count the write lowers -/
  retire : List Nat
  mark : Option SlotMark
  /-- the lease that the retiring lines take (R272, R274) -/
  lease : Option LineLease
  deriving DecidableEq, Repr

/-- A team (R136, R148, R152, R164, R193, R206, R223, R293, R304, R365). -/
structure Team where
  id : Nat
  gang : Nat
  /-- `$team` -/
  index : Nat
  /-- `$tsize` -/
  size : Nat
  /-- register count n -/
  nregs : Nat
  /-- bytes of `.shared`, 16-byte units of spill per group, tiles, convergence registers -/
  shared : Nat
  spillUnits : Nat
  ntiles : Nat
  ncvs : Nat
  place : TeamPlace
  groups : List Group
  views : List W32
  cvs : List ConvReg
  tiles : List Tile
  tileOps : List TileOp
  ods : List (Option Outlier)
  appends : List Append
  local_ : LocalMem
  queues : List CopyQueue
  /-- `qfence`s in force: queue mask and the operations that later operations of those queues wait for (R301) -/
  fences : List (BitVec 8 × List Nat)
  tables : List (Option (List CodeSym))
  /-- predicted-last group (R164) -/
  last : Option Nat
  /-- address of the frame slot in the save area, and its size (R365, R381) -/
  frame : Nat
  frameLen : Nat
  /-- the frame holds an image of these tiles as they were last saved, each with the IF bit that it shows (R364 step 7) -/
  imaged : List (Nat × Bool)
  lateWrites : List LateWrite
  /-- the team is being killed (R356): the cause, the trap code and the PC of its log entry -/
  dying : Option (Nat × Byte × VAddr)
  /-- every lane has exited -/
  ended : Bool
  /-- a save has been ordered (R363): 0 none, else its reason as in R365 -/
  saving : Nat
  /-- tick at which the current replayable period began (R362) -/
  replaySince : Option W64
  /-- errors of an `atomc` performed after its lane was gone, by `$tid`: they only go into the error log (R440) -/
  orphans : List (Nat × TrapInfo)
  /-- the save met an uncorrectable codeword (R359) -/
  marked : Bool
  /-- its restore met a page that is not resident and waits for `replay` (R382) -/
  stuck : Bool
  deriving DecidableEq, Repr

/-- A gang (R136, R225, R365). A task team has a gang of its own (R191). -/
structure Gang where
  id : Nat
  launch : Nat
  /-- `$gang` -/
  index : Nat
  /-- `$gsize` -/
  size : Nat
  cluster : Nat
  /-- Gb, a die address -/
  base : Nat
  /-- bytes of scratchpad -/
  scratch : Nat
  local_ : LocalMem
  /-- a task team's gang, and the `$gang` of each of its lanes by `$tid` (R191) -/
  task : Bool
  laneGangs : List Nat
  /-- the scratchpad was saved with the gang -/
  savedWhole : Bool
  frame : Nat
  frameLen : Nat
  deriving DecidableEq, Repr

end Sys2Proof.Machine
end

