-- ==== Sys2Proof/Machine/PartState.lean ====
section
/-! DEFINITION. State of the part outside the teams: launch queues and launches (R153-R161), task queues (R190), engine
operations (R250-R258, R303, R305), Serge and stream queues (R306-R311), the units beneath the stacks (R322-R346), the
fault collector and Felt (R392-R399), the host's and the fabric's blocks (R408-R430), the displays (R419-R422), and
start-up (R432-R439). -/
namespace Sys2Proof.Machine

-- launch unit

/-- Why the launch unit waits at a queue's head (R155, R382). -/
inductive QueueWait where
  | none
  /-- VALID was 0: retry at this tick -/
  | valid (at_ : W64)
  /-- a dependence of the record that has been read and checked is not met: read again at this tick -/
  | deps (at_ : W64) (rec_ : List W64)
  /-- a page of the record, or of a counter of the record that has been read, is not resident: retried at `replay` -/
  | page (rec_ : Option (List W64))
  /-- the page of a record whose VALID is to be cleared is not resident: cleared, and HEAD advanced, at `replay` -/
  | clear
  deriving DecidableEq, Repr

/-- Writes of the part's own whose release at system scope is not over: the lines they are in, who wrote them (R236), and the
tick that ends it once they are performed (R262, R268). -/
structure PartWait where
  lines : List (Nat × Nat)
  writer : BitVec 12
  at_ : W64
  deriving DecidableEq, Repr

/-- A record that `launch` has written to its slot (R192): VALID follows once the release over it ends, and then TAIL. -/
structure LaunchOffer where
  /-- address of the slot -/
  slot : Nat
  core : Nat
  wait : PartWait
  /-- VALID is written -/
  valid : Bool
  deriving DecidableEq, Repr

/-- A launch queue's registers (R153, R380). -/
structure LaunchQueue where
  base : W64
  en : Bool
  priv : Bool
  log2 : Nat
  tail : W32
  head : W32
  code : Byte
  pin : Bool
  die : Nat
  ctx : Nat
  wait : QueueWait
  /-- records offered that TAIL does not count yet (R192), oldest first -/
  offers : List LaunchOffer
  deriving DecidableEq, Repr

/-- How far the end of a launch has come (R158, R382). -/
inductive LaunchEnd where
  | running
  /-- the release is over at this tick; then the counter is incremented -/
  | releasing (at_ : W64)
  /-- the counter's page is not resident: waits for `replay` -/
  | page
  deriving DecidableEq, Repr

/-- An admitted launch (R154, R155, R158, R160, R191). -/
structure Launch where
  id : Nat
  queue : Nat
  ctx : Nat
  priv : Bool
  /-- core pinned by LQ_CTX: the die (R380) -/
  pin : Option Nat
  entry : W64
  param : W64
  grid : Nat
  gangSize : Nat
  teamSize : Nat
  scratch : Nat
  spillUnits : Nat
  shared : Nat
  cv : Nat
  tiles : Nat
  nregs : Nat
  done : W64
  hlp : Bool
  base : Nat
  /-- teams it has had: their home groups are the launch's (R158) -/
  teams : List Nat
  /-- gangs placed, gangs placed and not finished, tasks spawned and not finished -/
  placed : Nat
  live : Nat
  tasks : Nat
  /-- tick since which the next gang has waited (R160) -/
  waiting : Option W64
  /-- cluster kept for the waiting gang -/
  reserve : Option Nat
  end_ : LaunchEnd
  deriving DecidableEq, Repr

/-- A queued task (R190). -/
structure Task where
  entry : W64
  arg : W64
  launch : Nat
  gang : Nat
  priv : Bool
  deriving DecidableEq, Repr

/-- A lane held in a regrouping entry (R181), with the slot it left. -/
structure HeldLane where
  group : Nat
  slot : Nat
  lane : Lane
  deriving DecidableEq, Repr

/-- An entry of a core's regrouping table (R181). -/
structure Regroup where
  core : Nat
  team : Nat
  pc : VAddr
  prio : Byte
  /-- clock of the first submission -/
  since : Nat
  lanes : List HeldLane
  deriving DecidableEq, Repr

-- engines

/-- Where a main-memory byte is (R385). -/
inductive Spot where
  | dev (stack addr : Nat)
  | host (addr : Nat)
  | peer (dev addr : Nat)
  deriving DecidableEq, Repr

/-- A translated part of an operation's range: its offset in the operation, its length, its virtual and intermediate
address and where it is. -/
structure Piece where
  off : Nat
  len : Nat
  va : Nat
  ia : Nat
  loc : Spot
  deriving DecidableEq, Repr

/-- A page that an access waits for (R391). -/
structure PageWait where
  stack : Nat
  page : Nat
  big : Bool
  deriving DecidableEq, Repr

/-- What an engine operation does (R253-R257, R274, R303, R305). Local addresses are in the space `sp` of its mould. -/
inductive OpKind where
  | copyIn (dst : Nat) (src : VAddr) (len : Nat)
  | copyOut (src : Nat) (dst : VAddr) (len : Nat)
  | gatherIn (dst : Nat) (base : VAddr) (list count esz : Nat)
  | scatterOut (src : Nat) (base : VAddr) (list count esz : Nat)
  | mcast (dst : Nat) (src : VAddr) (len n nth slice : Nat)
  | far (va : VAddr) (wide : Bool) (op : BitVec 4) (cas : Bool) (operand compare : W64) (ret : Option (Nat × Nat))
  | chain (at_ : VAddr) (ord : Nat) (scope : Scope)
  | decode (dst : Nat) (src : VAddr) (outLen srcLen : Nat) (code : List CodeSym)
  /-- a refetch of an expired leased line (R274) -/
  | refetch (line : Nat)
  deriving DecidableEq, Repr

/-- How far an operation has come. -/
inductive OpPhase where
  | issued
  /-- the probe pass is over: the pieces still to move, and all of them -/
  | probed (todo all : List Piece)
  /-- a chain's present record (its words) is read and checked, and the lines its copy writes are pending (R227, R303) -/
  | record1 (w : List W64)
  /-- writes it made are held for leases (R273) -/
  | writing
  /-- the copy of a chain's present record (its words) is made; lines it made dirty (R303) -/
  | record (w : List W64) (lines : List (Nat × Nat))
  /-- the release of a chain's present record is over at this tick -/
  | releasing (at_ : W64) (w : List W64)
  /-- an `mcast` slice is fetched, or faulted: delivered to the listed teams so far (R255) -/
  | slice (data : Option (List Byte)) (sent : List Nat)
  | done
  deriving DecidableEq, Repr

/-- Who an operation belongs to: a lane's copy queue, a host copy channel, or a local line (R274, R293, R411). -/
inductive OpOwner where
  | queue (n : Nat)
  | lane
  | host (channel : Nat)
  deriving DecidableEq, Repr

/-- An operation accepted by an engine and not yet forgotten. -/
structure EngOp where
  num : Nat
  kind : OpKind
  owner : OpOwner
  team : Nat
  group : Nat
  tid : Nat
  pc : VAddr
  core : Nat
  ctx : Nat
  /-- AT of the issuing lane (R275) -/
  acq : W64
  sp : Space
  evp : BitVec 2
  lu : Bool
  lease : Option Nat
  phase : OpPhase
  wait : Option PageWait
  /-- operations that must be complete first (R301) -/
  after : List Nat
  /-- writes held for leases -/
  left : Nat
  time : W64
  /-- a fault met while data moved (R360) or in an `mcast` slice (R255): code, selector, address -/
  bad : Option (Byte × W64 × W64) := none
  /-- `$team`s of the participants whose slices have come (R255) -/
  got : List Nat := []
  /-- the gang of an `mcast`'s team (R255) -/
  gang : Nat := 0
  /-- the phase in which it was issued again by a `replay` and has not passed (R362) -/
  again : Option OpPhase := none
  /-- earliest lease expiry of each local line filled so far (R272) -/
  expiries : List (Nat × W64) := []
  deriving DecidableEq, Repr

/-- A unit's read under way, with what its program captured (R306, R308). -/
structure UnitRead where
  va : Nat
  ctx : Nat
  spans : List (W64 × W64 × W64)
  acq : W64
  wait : Option PageWait
  deriving DecidableEq, Repr

/-- A position of a stream queue (R306-R310). -/
inductive StreamItem where
  | flight (r : UnitRead)
  | unit (data : List Byte)
  | fault (t : TrapInfo)
  | marker
  /-- where a program stopped with a code (R307), and what its trap says -/
  | stop (code : Byte) (info0 info1 : W64)
  deriving DecidableEq, Repr

/-- A stream queue bound to a team (R306). -/
structure StreamQueue where
  core : Nat
  q : Nat
  team : Nat
  items : List StreamItem
  /-- words that have popped so far -/
  first : Nat
  /-- words that wait for their pop, in order of issue -/
  taken : Nat
  bad : Bool
  done : Bool
  running : Bool
  code : Byte
  deriving DecidableEq, Repr

/-- A running Serge program (R306, R307). Its registers, predicates, loop stack and PC are those of `lane`. -/
structure Serge where
  cluster : Nat
  unit : Nat
  core : Nat
  q : Nat
  team : Nat
  ctx : Nat
  spans : List (W64 × W64 × W64)
  acq : W64
  seg : Bool
  lane : Lane
  /-- units of the present word still to be pushed (R308): the address of the next, and how many -/
  next : Nat
  units : Nat
  /-- a page its present word waits for (R391) -/
  wait : Option PageWait
  /-- stopped by a save of its team (R364 step 6) -/
  stopped : Bool
  deriving DecidableEq, Repr

-- units beneath the stacks

/-- The image of a span in intermediate addresses, with its permissions (R315). -/
structure Image where
  lo : Nat
  hi : Nat
  rd : Bool
  w : Bool
  deriving DecidableEq, Repr

/-- What every unit command keeps of its issue (R312-R317). -/
structure CmdMould where
  num : Nat
  /-- the word that issued it: its commands are one pending writer of a line that their slots share (R314) -/
  word : Nat
  team : Nat
  tid : Nat
  pc : VAddr
  core : Nat
  ctx : Nat
  /-- team address and size of the slot -/
  slot : Nat
  size : Nat
  images : List Image
  deriving DecidableEq, Repr

/-- An exact rational number. -/
structure Ratio where
  num : Int
  den : Nat
  deriving DecidableEq, Repr

/-- The instance a ray is in (R323): the transformed origin and direction, and what a hit reports. -/
structure InstCtx where
  o : List W32
  d : List W32
  inst : W32
  user : W32
  opaque_ : Bool
  deriving DecidableEq, Repr

/-- Work left in a treelet: a child reference of a node there, or its root (R321, R327). -/
structure RayWork where
  /-- none: the root node -/
  ref : Option W64
  inst : Option InstCtx
  deriving DecidableEq, Repr

/-- An accepted hit (R323, R324). -/
structure Hit where
  t : Ratio
  u : Ratio
  v : Ratio
  prim : W32
  inst : Option (W32 × W32)
  front : Bool
  tre : Nat
  deriving DecidableEq, Repr

/-- A ray in the part (R322-R327). -/
structure Ray where
  cmd : CmdMould
  mode : Nat
  msg : List W32
  scene : Nat
  issued : W64
  /-- treelet whose queue it is in, the tick it joined, and whether it waits in the spill region -/
  treelet : Nat
  since : W64
  spilled : Bool
  /-- VERSION of each treelet the ray has entered, and bits [39:0] of the time base then (R327) -/
  entered : List (Nat × Nat × Nat)
  /-- work by treelet, the next first: that of treelets it has left is its pending references -/
  work : List (Nat × RayWork)
  /-- accepted hits in the order of R324; seventeen tell that more than sixteen were accepted -/
  hits : List Hit
  /-- it ends untraversed: a miss (0), or with a trap condition -/
  fate : Option Byte
  deriving DecidableEq, Repr

/-- A `trhold` that waits for batches to leave its treelet (R328), or a `trswap` whose writes are held for leases (R273). -/
structure TreeCmd where
  cmd : CmdMould
  treelet : Nat
  scene : Nat
  /-- the new word 0 of a `trswap` -/
  swap : Option Nat
  deriving DecidableEq, Repr

/-- A command at Gauze (R335, R338). -/
structure GauzeCmd where
  cmd : CmdMould
  hash : Bool
  stack : Nat
  desc : Nat
  coords : List W32
  deriving DecidableEq, Repr

/-- A column of a Calico read stream (R343, R346). -/
inductive Column where
  | pending (ia : Nat)
  | here (data : List W32)
  deriving DecidableEq, Repr

/-- A command at a Calico unit (R340-R346); values of 128 bytes are 32 words. -/
structure CalicoCmd where
  cmd : CmdMould
  /-- 16 * stack + channel -/
  unit : Nat
  prog : Nat
  nout : Nat
  nb : Nat
  data : Nat
  /-- the program has passed its check (R341) -/
  started : Bool
  code : List W64
  /-- the next bundle -/
  at_ : Nat
  k : List (List W32)
  acc : List W32
  maca : List W32
  redo : W32
  cvo : List W32
  row : Nat
  col : Nat
  stream : List Column
  outs : List (List W32)
  ce : Bool
  ue : Bool
  shadow : Bool
  /-- selector of the first uncorrectable codeword's register (R404) -/
  firstUe : Option W64
  /-- its program is over and it waits for a write that is held (R273, R344): the condition that ended it, and LAST -/
  outcome : Option (Option Byte × Nat) := none
  deriving DecidableEq, Repr

-- faults and Felt

/-- A page fault on its way to the collector (R392, R393). -/
structure FaultMsg where
  stack : Nat
  page : Nat
  big : Bool
  /-- [2:0] of KIND: fetch, write, read -/
  kind : BitVec 3
  ctx : Nat
  core : Nat
  part : Bool
  drop : Bool
  deriving DecidableEq, Repr

/-- A held slot of the fault buffer (R393). -/
structure FaultSlot where
  page : Nat
  big : Bool
  stackMask : Byte
  kind : BitVec 3
  ctx : Nat
  core : Nat
  part : Bool
  count : W32
  time : W64
  seq : W32
  deriving DecidableEq, Repr

/-- The fault collector (R393, R394). -/
structure Collector where
  addr : W64
  door : W64
  drop : Bool
  slots : List (Option FaultSlot)
  /-- slots that are filled while their release is not over: OCC and the doorbell follow it (R400) -/
  fills : List (Nat × PartWait)
  seq : W32
  queue : List FaultMsg
  deriving DecidableEq, Repr

/-- A record Felt has taken from its ring (R396). -/
structure FeltJob where
  index : W32
  w0 : W64
  w1 : W64
  w2 : W64
  w3 : W64
  /-- its RESULT, once its work is done and only the record is still to be written -/
  result : Option Byte
  /-- the page of its ring record is not resident: it waits for `replay` (R382) -/
  waits : Bool
  /-- the release after RESULT is written -/
  rel : Option PartWait
  deriving DecidableEq, Repr

/-- Felt (R396). -/
structure Felt where
  base : W64
  tail : W32
  head : W32
  jobs : List FeltJob
  /-- stopped at the head until the tail is written -/
  stopped : Bool
  /-- a page of the ring is not resident: no record is taken before `replay` (R382) -/
  waiting : Bool
  deriving DecidableEq, Repr

/-- A `csave` whose stamp is still to be written (R373). -/
structure SaveOrder where
  ctx : Nat
  stamp : W64
  stampCtx : Nat
  core : Nat
  count : Nat
  deriving DecidableEq, Repr

/-- An entry of a context's error log whose release is not over (R357): the log's address, and its index follows. -/
structure ElogWait where
  ctx : Nat
  base : Nat
  core : Nat
  wait : PartWait
  deriving DecidableEq, Repr

/-- Privileged registers that no other part of the state holds (R379), and cached context descriptors (R381). -/
structure Priv where
  lqsel : Nat
  ctxbase : W64
  stksel : Nat
  rsvcore : W32
  sysctx : BitVec 16
  /-- descriptors by context: 32 words -/
  descs : List (Nat × List W64)
  /-- contexts that `csave` suspends (R373) -/
  suspended : List Nat
  saves : List SaveOrder
  /-- entries of context error logs that their indices do not count yet (R357) -/
  elogs : List ElogWait
  deriving DecidableEq, Repr

-- host and fabric

/-- The time-base block and its synchronisation (R416-R418). -/
structure TimeBase where
  /-- the time base of die 0, in ticks -/
  now : W64
  /-- periods of the arithmetic clock since power was applied (R4) -/
  clock : Nat
  unsync : Bool
  master : Bool
  bound : Nat
  /-- TBCFG: EN, HM, MDEV -/
  cfg : Byte
  /-- a timed exchange has been made since EN was set -/
  met : Bool
  /-- ticks the counter is still to gain, or to lose, by slewing, and the ticks that have gone by towards the next of them
  (R416) -/
  slew : Int
  slewed : Nat
  deriving DecidableEq, Repr

/-- A pixel of the stream that an output sends (R419). -/
structure Rgb where
  r : Nat
  g : Nat
  b : Nat
  deriving DecidableEq, Repr

/-- What an output scans out (R370, R420). -/
inductive Scan where
  | off
  | black
  | frame (buf : Nat)
  /-- the last complete frame warped by a homography -/
  | warp (buf : Nat) (pose : List W32)
  deriving DecidableEq, Repr

/-- A display output (R419-R422). -/
structure Output where
  en : Bool
  fmt : Bool
  size : W64
  start : W64
  period : W32
  fbs : List W64
  present : W64
  deadline : W64
  margin : W32
  pose : List W32
  committed : List W32
  evbase : W64
  evidx : W32
  horiz : W64
  vert : W64
  /-- last complete frame: buffer and SEQ -/
  last : Option (Nat × W32)
  /-- buffer of the complete frame before that -/
  prior : Option Nat
  /-- what the present-word read of this frame chose -/
  next : Scan
  chosen : Bool
  scan : Scan
  /-- pixels of the frame being scanned out, row by row -/
  picture : List Rgb
  deriving DecidableEq, Repr

/-- What this part records of another agent (R415, R423). -/
structure Agent where
  inc : Byte
  /-- 0 absent, 1 alive, 2 slow, 3 dead -/
  state : Nat
  beat : W64
  deriving DecidableEq, Repr

/-- What this part sends on the fabric of its own: notices (R424-R426), the bytes that answer a peer's request (R414) or the
fault of one that it does not perform (R415), and a flit that it forwards by the ports of a route (R413). -/
inductive Notice where
  /-- `bad` says that the bytes are of a codeword that is uncorrectable or poison, which is fault 0x18 of the request (R360);
  `time` is the completion time of a write or far atomic (R266) -/
  | data (dev : Nat) (bytes : List Byte) (bad : Bool) (time : Option W64)
  | fault (dev : Nat) (code : Byte)
  | forward (dst src ia : Nat) (ports : BitVec 12)
  | dead (dev : Nat) (inc : Byte)
  /-- a STALE goes back by the port that the transaction came by (R425) -/
  | stale (dev : Nat) (inc : Byte) (port : Nat)
  | join (dev : Nat) (inc : Byte)
  deriving DecidableEq, Repr

/-- An access from outside that has arrived and cannot be performed yet (R273, R391, R414). -/
structure OutsideWait where
  agent : Nat
  inc : Byte
  writer : BitVec 12
  ia : Nat
  acc : Access
  /-- it waits for a page that is not resident, till a `replay`; else for leases or for room at its home -/
  page : Bool
  deriving DecidableEq, Repr

/-- A write from outside that is held for leases: it is answered with its completion time once all of it is performed (R266,
R273). -/
structure OutsideDue where
  num : Nat
  agent : Nat
  left : Nat
  time : W64
  deriving DecidableEq, Repr

/-- The fabric block (R413-R415) and the rules for dead agents (R423-R426). -/
structure Fabric where
  inc : Byte
  dev : Nat
  up : BitVec 12
  routes : List (BitVec 12)
  /-- devices 0-63 and the host, 64 -/
  agents : List Agent
  admitBase : List W64
  admitLimit : List W64
  /-- pairs (d, i) to which R424 has been applied -/
  buried : List (Nat × Byte)
  /-- STALE notices sent: device, incarnation and the millisecond -/
  staled : List (Nat × Byte × Nat)
  /-- notices this part has sent, newest first -/
  sent : List Notice
  /-- the bytes that answer the host's latest access over HHL: none is an HHL error response (R408, R425, R434) -/
  hhlAnswer : Option (List Byte)
  /-- the completion time that the answer carries: that of a write or far atomic (R266, R411) -/
  hhlTime : Option W64
  /-- accesses from outside that wait, in order of arrival -/
  waits : List OutsideWait
  due : List OutsideDue
  lastBeat : W64
  /-- a replacement that has still to send its JOIN (R426) -/
  joining : Bool
  /-- links in retraining: link number and the tick of the error (R407) -/
  retrain : List (Nat × W64)
  deriving DecidableEq, Repr

/-- The integrity log (R429-R431). -/
structure IntegrityLog where
  base : W64
  log2 : Nat
  idx : W32
  /-- entries written whose release is not over: the tick at which ILIDX counts each (R429) -/
  due : List W64
  drop : W32
  deriving DecidableEq, Repr

/-- A host copy channel (R411). -/
structure HostChannel where
  ctx : Nat
  busy : Bool
  code : Byte
  frec : W64
  deriving DecidableEq, Repr

/-- Host publication (R412): registers and the range being published. -/
structure HostPub where
  base : W64
  busy : Bool
  err : Bool
  len : W32
  /-- largest completion time of the host's writes to device memory (R409) -/
  ct : Option W64
  deriving DecidableEq, Repr

/-- Identity, status and start-up (R432-R438). -/
structure Power where
  /-- 1 starting, 2 running, 3 status-only -/
  state : Nat
  step : Nat
  fail : Byte
  /-- the part stops as `halt` does and its engines still complete what they accepted (R378): the failure code to take -/
  halting : Option Byte
  /-- a start follows the stop (R435) -/
  thenStart : Bool
  attempts : Nat
  warm : Bool
  /-- the start now named is a warm one -/
  wantWarm : Bool
  /-- what the start that runs finds outside the part, once its first step has begun (R432) -/
  input : Option BootInput
  /-- a start has completed step 3 since power was applied -/
  trained : Bool
  fwver : BitVec 16
  bver : BitVec 16
  /-- arithmetic clock in MHz (R439) -/
  mhz : Nat
  deriving DecidableEq, Repr

end Sys2Proof.Machine
end

