-- ==== Sys2Proof/Machine/State.lean ====
section
/-! DEFINITION. The state of the whole part as plain data, why a step can stop, and the state right after power is
applied (R432, R438). -/
namespace Sys2Proof.Machine

/-- Why a step stops. -/
inductive Fault where
  /-- A word is executed while no frontier entry is named as the one that issues it. Raised by every word's meaning;
  `step` never runs a word so. Safe: the part has no such situation. -/
  | noBundle
  deriving DecidableEq, Repr

/-- Why an instruction is refused. -/
inductive Refusal where
  /-- The model gives the instruction no meaning. Safe. -/
  | notModelled (mnemonic : String)
  deriving DecidableEq, Repr

/-- What happens next in the part, where the manual leaves the order or the moment to the part. -/
inductive Act where
  /-- a quarter issues the next word of a frontier entry (R143, R162) -/
  | issue (b : BundleId)
  /-- an event of the machine -/
  | event (i : Instr) (x : Subject)
  /-- a stack cache replaces a line, writing it back when it is dirty (R235) -/
  | evict (stack line : Nat)
  /-- a stack cache replaces a line of a peer's memory, which its home holds as it was last written (R235, R410) -/
  | evictPeer (stack dev line : Nat)
  /-- a stack's translation caches replace the entry of a page, or every walk pointer (R389) -/
  | dropTlb (stack page : Nat)
  | dropWalks (stack : Nat)
  /-- a unit's private cache replaces a line (R279) -/
  | dropUnit (stack line : Nat)
  /-- a soft error: the check value of a line no longer matches its bytes (R428) -/
  | upset (stack line : Nat)
  /-- a soft error: bits of a stored codeword flip (R358, R403) -/
  | flip (f : Flip)
  /-- an uncorrectable error in the queue entry of an engine operation or unit command, of a cluster's Serge program, or of
  a position of a core's stream queue (R358) -/
  | queueError (x : Subject)
  /-- a host read of `width` bytes at an offset of the control window, with the incarnation it carries (R408, R425) -/
  | hostRead (off width : Nat) (inc : Byte)
  /-- a 4 KiB unit of host memory begins or ceases to give HHL error responses (R382) -/
  | hostUnit (unit : Nat) (refuses : Bool)
  /-- the junction temperature of a die or a link changes nothing here: only time passes -/
  | wait
  deriving DecidableEq, Repr

/-- A move: time passes, then something happens. DESIGN CHOICE (notes/assumptions/1). -/
structure Move where
  ticks : Nat
  clocks : Nat
  act : Act
  deriving DecidableEq, Repr

/-- The state of the part. -/
structure State where
  time : TimeBase
  -- work
  teams : List Team
  gangs : List Gang
  launches : List Launch
  lqs : List LaunchQueue
  tasks : List (List Task)
  regroup : List Regroup
  -- memories and engines
  mem : Memory
  ops : List EngOp
  streams : List StreamQueue
  serges : List Serge
  rays : List Ray
  tcmds : List TreeCmd
  gauze : List GauzeCmd
  calico : List CalicoCmd
  -- residency
  coll : Collector
  felt : Felt
  priv : Priv
  -- host, fabric, displays, power
  chans : List HostChannel
  hpub : HostPub
  ilog : IntegrityLog
  outputs : List Output
  fabric : Fabric
  power : Power
  -- the model's own
  /-- the next number given to a team, gang, launch, operation, result or command -/
  nextNum : Nat
  /-- how many free values have been used -/
  freeCtr : Nat
  /-- what the event or word that `exec` runs happens to -/
  subject : Subject
  /-- the moves to come; when there is none the part takes the first move open to it -/
  agenda : List Move
  deriving DecidableEq, Repr

/-- A launch queue at reset (R153, R380). -/
def LaunchQueue.reset : LaunchQueue :=
  { base := 0, en := false, priv := false, log2 := 4, tail := 0, head := 0, code := 0, pin := false, die := 0, ctx := 0,
    wait := .none, offers := [] }

/-- A stack at reset. -/
def Stack.reset : Stack :=
  { root := 0, malf := false, tlb := [], micro := [], walks := [], pages := [], cache := [], peerLines := [], log := [], logOver := false, grains := [],
    grainBase := { writer := 0xFFF, time := 0, lmax := 0 }, mapped := [],
    heldWrites := [], pubs := [], codeFrames := [], poison := [], bankWritten := [], checks := [], watches := [],
    sharers := [], unitLines := [], spillReg := 0, holds := [] }

def Memory.reset : Memory :=
  { home := [], dram := [], host := [], hostErr := [], ckpts := [], peer := [], stackList := List.replicate 8 Stack.reset, flips := [], injects := [],
    errLogs := [] }

def Collector.reset : Collector :=
  { addr := 0, door := 0, drop := false, slots := List.replicate 8 none, fills := [], seq := 0, queue := [] }

def Felt.reset : Felt := { base := 0, tail := 0, head := 0, jobs := [], stopped := false, waiting := false }

def Priv.reset : Priv :=
  { lqsel := 0, ctxbase := 0, stksel := 0, rsvcore := 0, sysctx := 0, descs := [], suspended := [], saves := [], elogs := [] }

/-- The time-base block at reset (R418). -/
def TimeBase.reset : TimeBase :=
  { now := 0, clock := 0, unsync := true, master := false, bound := 0xFFFF, cfg := 0, met := false, slew := 0, slewed := 0 }

/-- A display output at reset (R421). -/
def Output.reset : Output :=
  { en := false, fmt := false, size := 0, start := 0, period := 0, fbs := [0, 0, 0, 0], present := 0, deadline := 0,
    margin := 0, pose := List.replicate 9 0, committed := List.replicate 9 0, evbase := 0, evidx := 0, horiz := 0,
    vert := 0, last := none, prior := none, next := .off, chosen := false, scan := .off, picture := [] }

/-- The fabric block at reset (R415): INC, DEV and the routes come from the blob of a start. -/
def Fabric.reset : Fabric :=
  { inc := 0, dev := 0, up := 0, routes := List.replicate 64 0,
    agents := List.replicate 65 { inc := 0, state := 0, beat := 0 },
    admitBase := List.replicate 64 0, admitLimit := List.replicate 64 0, buried := [], staled := [], sent := [],
    hhlAnswer := none, hhlTime := none, waits := [], due := [], lastBeat := 0, joining := false, retrain := [] }

def IntegrityLog.reset : IntegrityLog := { base := 0, log2 := 0, idx := 0, due := [], drop := 0 }

def HostChannel.reset : HostChannel := { ctx := 0, busy := false, code := 0, frec := 0 }

def HostPub.reset : HostPub := { base := 0, busy := false, err := false, len := 0, ct := none }

/-- STATUS when power is applied (R432, R438): a cold start is at step 1, and the held fields are zero. -/
def Power.reset : Power :=
  { state := 1, step := 1, fail := 0, halting := none, thenStart := false, attempts := 0, warm := false, wantWarm := false, input := none,
    trained := false, fwver := 0,
    bver := 0, mhz := 1600 }

/-- The part right after power is applied: a cold start begins (R432), nothing is resident, no register of any block
holds anything but its reset value. DEDUCED (notes/assumptions/7). DEDUCED (notes/assumptions/8). -/
def State.reset : State :=
  { time := TimeBase.reset, teams := [], gangs := [], launches := [], lqs := List.replicate 16 LaunchQueue.reset,
    tasks := List.replicate 16 [], regroup := [], mem := Memory.reset, ops := [], streams := [], serges := [], rays := [],
    tcmds := [], gauze := [], calico := [], coll := Collector.reset, felt := Felt.reset, priv := Priv.reset,
    chans := List.replicate 4 HostChannel.reset, hpub := HostPub.reset, ilog := IntegrityLog.reset,
    outputs := List.replicate 4 Output.reset, fabric := Fabric.reset, power := Power.reset, nextNum := 0, freeCtr := 0,
    subject := .self, agenda := [] }

end Sys2Proof.Machine
end

