-- ==== Sys2Proof/Machine/Bits.lean ====
section
/-! DEFINITION. Bit-field and byte-order helpers (R6, R7), bit counts, shifts, fields and byte permutation as used by
class 1 (R97-R101), and the check codes: CRC-32C (R427) and the SEC-DED codes (R358, R403). -/
namespace Sys2Proof.Machine

/-- Bits [hi:lo] of a word as a number (R6). -/
def bits (w : W64) (hi lo : Nat) : Nat := (w.toNat >>> lo) % 2 ^ (hi + 1 - lo)

/-- One bit of a word. -/
def bit (w : W64) (n : Nat) : Bool := w.getLsbD n

/-- A field of a number. -/
def fieldN (n hi lo : Nat) : Nat := (n >>> lo) % 2 ^ (hi + 1 - lo)

/-- The low half of a 64-bit value, for the even register of a pair (R18). -/
def lo32 (w : W64) : W32 := w.setWidth 32

/-- The high half, for the odd register. -/
def hi32 (w : W64) : W32 := (w >>> 32).setWidth 32

/-- A pair of registers as one value (R18). -/
def join32 (lo hi : W32) : W64 := hi ++ lo

/-- Little-endian bytes of a number (R7). -/
def bytesOf : Nat → Nat → List Byte
  | 0, _ => []
  | k + 1, n => BitVec.ofNat 8 n :: bytesOf k (n / 256)

/-- The number that little-endian bytes hold (R7). -/
def ofBytes : List Byte → Nat
  | [] => 0
  | b :: bs => b.toNat + 256 * ofBytes bs

/-- 32-bit words as bytes and back. -/
def bytesOfWords (ws : List W32) : List Byte := ws.flatMap fun w => bytesOf 4 w.toNat

def wordsOfBytes : Nat → List Byte → List W32
  | 0, _ => []
  | k + 1, bs => BitVec.ofNat 32 (ofBytes (bs.take 4)) :: wordsOfBytes k (bs.drop 4)

/-- Sign extension of the low `w` bits. -/
def sextTo (w : Nat) (v : W64) : Int :=
  let n := v.toNat % 2 ^ w
  if 2 ^ (w - 1) ≤ n then (n : Int) - 2 ^ w else n

/-- Zero extension of the low `w` bits. -/
def zextTo (w : Nat) (v : W64) : Int := ((v.toNat % 2 ^ w : Nat) : Int)

/-- A register address plus a signed offset as an exact sum (R222). -/
def exactSum (base : W32) (off : Int) : Int := (base.toNat : Int) + off

/-- Number of 1 bits among the low `w` (R97). -/
def popcount (w n : Nat) : Nat := (List.range w).countP fun i => n.testBit i

/-- Number of leading 0 bits of a `w`-bit value (R97). -/
def leadingZeros (w n : Nat) : Nat := if n = 0 then w else w - 1 - Nat.log2 n

/-- Number of trailing 0 bits of a `w`-bit value (R97). -/
def trailingZeros : Nat → Nat → Nat
  | 0, _ => 0
  | w + 1, n => if n % 2 = 1 then 0 else 1 + trailingZeros w (n / 2)

/-- Bit order reversed over `w` bits (R97, R100). -/
def bitReverse : Nat → Nat → Nat
  | 0, _ => 0
  | w + 1, n => (n % 2) * 2 ^ w + bitReverse w (n / 2)

/-- Logical shift left of a `w`-bit value (R98). -/
def shiftLeft (w a c : Nat) : Nat := if w ≤ c then 0 else (a * 2 ^ c) % 2 ^ w

/-- Logical shift right (R98). -/
def shiftRight (w a c : Nat) : Nat := if w ≤ c then 0 else a / 2 ^ c

/-- Arithmetic shift right: floor division by 2^c (R98). -/
def shiftArith (w : Nat) (a : Int) (c : Nat) : Int := if w ≤ c then (if a < 0 then -1 else 0) else a / 2 ^ c

/-- Rotate left by c mod w (R98). -/
def rotateLeft (w a c : Nat) : Nat :=
  let k := c % w
  (a * 2 ^ k) % 2 ^ w + a / 2 ^ (w - k)

/-- Position and length of a field operand (R99). -/
def fieldPos (b : W32) : Nat := b.toNat % 256
def fieldLen (b : W32) : Nat := min (b.toNat / 256 % 256) 32

/-- `bfx` (R99). -/
def fieldExtract (signed : Bool) (a b : W32) : W32 :=
  let len := fieldLen b
  if len = 0 then 0 else
  let x : Int := if signed then a.toInt else a.toNat
  let f := (x / 2 ^ fieldPos b) % 2 ^ len
  if signed && decide (2 ^ (len - 1) ≤ f) then BitVec.ofInt 32 (f - 2 ^ len) else BitVec.ofInt 32 f

/-- `bfi` (R99): bits 0 to len-1 of A into C from position pos, those that fall above bit 31 lost. -/
def fieldInsert (a b c : W32) : W32 :=
  let pos := fieldPos b
  let len := fieldLen b
  if 32 ≤ pos then c else
  let mask : W32 := BitVec.ofNat 32 ((2 ^ len - 1) * 2 ^ pos)
  (c &&& ~~~mask) ||| ((a <<< pos) &&& mask)

/-- Byte i of a register. -/
def byteOf (w : W32) (i : Nat) : Byte := w.extractLsb' (8 * i) 8

/-- One byte of `prmt` (R100): the selected byte of {A, B} under the selector's mode. -/
def permuteByte (a b : W32) (sel : Byte) : Byte :=
  let i := sel.toNat % 8
  let x := if i < 4 then byteOf a i else byteOf b (i - 4)
  match sel.toNat / 8 % 4 with
  | 0 => x
  | 1 => 0
  | 2 => if x.msb then 0xFF else 0
  | _ => BitVec.ofNat 8 (bitReverse 8 x.toNat)

/-- `prmt` (R100). -/
def permute (a b c : W32) : W32 :=
  permuteByte a b (byteOf c 3) ++ permuteByte a b (byteOf c 2) ++ permuteByte a b (byteOf c 1) ++ permuteByte a b (byteOf c 0)

/-- `lop3` (R101): bit lut[4b + 2c + a] at every position. -/
def lut3 (lut : Byte) (a b c : W32) : W32 :=
  let m (x : Nat) : W32 := if lut.getLsbD x then BitVec.allOnes 32 else 0
  (m 0 &&& ~~~b &&& ~~~c &&& ~~~a) ||| (m 1 &&& ~~~b &&& ~~~c &&& a) ||| (m 2 &&& ~~~b &&& c &&& ~~~a) |||
  (m 3 &&& ~~~b &&& c &&& a) ||| (m 4 &&& b &&& ~~~c &&& ~~~a) ||| (m 5 &&& b &&& ~~~c &&& a) |||
  (m 6 &&& b &&& c &&& ~~~a) ||| (m 7 &&& b &&& c &&& a)

/-- Signed or unsigned byte dot product (R96). -/
def dotBytes (signed : Bool) (a b : W32) : Int :=
  let v (w : W32) (i : Nat) : Int := if signed then (byteOf w i).toInt else (byteOf w i).toNat
  v a 0 * v b 0 + v a 1 * v b 1 + v a 2 * v b 2 + v a 3 * v b 3

/-- One step of the reflected CRC-32C polynomial (R427). -/
def crcBit (c : W32) : W32 := if c.getLsbD 0 then (c >>> 1) ^^^ 0x82F63B78 else c >>> 1

def crcByte (c : W32) (b : Byte) : W32 :=
  let c := c ^^^ b.setWidth 32
  crcBit (crcBit (crcBit (crcBit (crcBit (crcBit (crcBit (crcBit c)))))))

/-- CRC-32C of bytes in ascending address (R427). -/
def crc32c (bs : List Byte) : W32 := (bs.foldl crcByte 0xFFFFFFFF) ^^^ 0xFFFFFFFF

/-- The position of data bit d: the (d + 1)-th integer of at least 3 that is no power of two (R358, R403). -/
def dataPosition (d : Nat) : Nat :=
  let p := d + 3
  let p := if p ≥ 4 then p + 1 else p
  let p := if p ≥ 8 then p + 1 else p
  let p := if p ≥ 16 then p + 1 else p
  let p := if p ≥ 32 then p + 1 else p
  let p := if p ≥ 64 then p + 1 else p
  let p := if p ≥ 128 then p + 1 else p
  if p ≥ 256 then p + 1 else p

/-- The XOR of the positions of flipped bits. A flipped bit is a data bit by number, or check bit c as 1000 + c. The
last check bit, `parity`, is the whole codeword's parity and has no position. -/
def flipSyndrome (parity : Nat) (fs : List Nat) : Nat :=
  fs.foldl (fun s b => if b < 1000 then s ^^^ dataPosition b else if b - 1000 < parity then s ^^^ 2 ^ (b - 1000) else s) 0

/-- The syndrome of an SRAM codeword (R358). -/
def sramSyndrome (fs : List Nat) : Nat := flipSyndrome 7 fs + (if fs.length % 2 = 1 then 128 else 0)

/-- Whether a nonzero syndrome of an SRAM codeword is corrected (R358). -/
def sramCorrectable (syn : Nat) : Bool := decide (128 ≤ syn) && decide (syn % 128 ≤ 71)

/-- The syndrome of a DRAM codeword (R403). -/
def dramSyndrome (fs : List Nat) : Nat := flipSyndrome 9 fs + (if fs.length % 2 = 1 then 512 else 0)

/-- Whether a nonzero syndrome of a DRAM codeword is corrected (R403): the codeword has positions 1 to 265. -/
def dramCorrectable (syn : Nat) : Bool := decide (512 ≤ syn) && decide (syn % 512 ≤ 265)

/-- The bit at a position of a codeword with `checks` check bits that have a position and `n` data bits; position 0 stands
for the parity bit. Numbered as in `flipSyndrome`. -/
def bitAtPosition (checks n p : Nat) : Nat :=
  if p = 0 then 1000 + checks else
  match (List.range checks).find? fun i => 2 ^ i == p with
  | some i => 1000 + i
  | none => ((List.range n).find? fun d => dataPosition d == p).getD 0

/-- What a read makes of flipped bits (R358, R403): the flips it knows of. The others stand in the data it delivers: a
correction flips the one bit that the syndrome names, and a syndrome of zero shows nothing. -/
def knownFlips (dram : Bool) (fs : List Nat) : List Nat :=
  let syn := if dram then dramSyndrome fs else sramSyndrome fs
  if syn = 0 then []
  else if dram then (if dramCorrectable syn then [bitAtPosition 9 256 (syn % 512)] else fs)
  else if sramCorrectable syn then [bitAtPosition 7 64 (syn % 128)] else fs

end Sys2Proof.Machine
end

