-- ==== Sys2Proof/Machine/Flags.lean ====
section
/-! DEFINITION. The sticky arithmetic flags of `$fpstat` (R28) and every flag computation of integer narrowing (R86,
R91, R92, R47). -/
namespace Sys2Proof.Machine

def flagNV : W32 := 0x01
def flagDZ : W32 := 0x02
def flagOF : W32 := 0x04
def flagUF : W32 := 0x08
def flagNX : W32 := 0x10
def flagPZ : W32 := 0x20
def flagSA : W32 := 0x40

/-- The flag when the condition holds. -/
def flagIf (c : Bool) (f : W32) : W32 := if c then f else 0

/-- The least and greatest value of an integer type of width w (R34). -/
def intMin (w : Nat) (signed : Bool) : Int := if signed then -(2 ^ (w - 1) : Int) else 0
def intMax (w : Nat) (signed : Bool) : Int := if signed then (2 ^ (w - 1) : Int) - 1 else (2 ^ w : Int) - 1

/-- Whether a value lies in the range of an integer type. -/
def intFits (w : Nat) (signed : Bool) (v : Int) : Bool := intMin w signed ≤ v && v ≤ intMax w signed

/-- Narrowing of an exact integer (R86): modulo 2^w, or clamped with SA when clamping changed it. -/
def narrow (w : Nat) (signed sat : Bool) (v : Int) : W64 × W32 :=
  if sat then
    if v < intMin w signed then (BitVec.ofInt 64 (intMin w signed), flagSA)
    else if intMax w signed < v then (BitVec.ofInt 64 (intMax w signed), flagSA)
    else (BitVec.ofInt 64 v, 0)
  else (BitVec.ofInt 64 v, 0)

/-- Carry out of an addition of width w (R91). -/
def carryOut (w : Nat) (t : Nat) : Bool := decide (2 ^ w ≤ t)

/-- Borrow out of a subtraction (R91). -/
def borrowOut (t : Int) : Bool := decide (t < 0)

/-- Out of range of the type (R92). -/
def overflowOut (w : Nat) (signed : Bool) (t : Int) : Bool := !intFits w signed t

end Sys2Proof.Machine
end

