-- ==== Sys2Proof/Machine/Float.lean ====
section
/-! DEFINITION. Floating formats (R35-R38), exact values, and rounding with its flags (R39-R43). Values are exact:
integers times powers of two, or quotients of naturals; a result is rounded once. -/
namespace Sys2Proof.Machine

/-- A floating format (R35). -/
structure Fmt where
  eb : Nat
  fb : Nat
  bias : Nat
  /-- e4m3: no infinity, and E all ones is an ordinary exponent but for F all ones (R36) -/
  small : Bool
  deriving DecidableEq, Repr

def fmtF16 : Fmt := { eb := 5, fb := 10, bias := 15, small := false }
def fmtBf16 : Fmt := { eb := 8, fb := 7, bias := 127, small := false }
def fmtF32 : Fmt := { eb := 8, fb := 23, bias := 127, small := false }
def fmtF64 : Fmt := { eb := 11, fb := 52, bias := 1023, small := false }
def fmtE4m3 : Fmt := { eb := 4, fb := 3, bias := 7, small := true }
def fmtE5m2 : Fmt := { eb := 5, fb := 2, bias := 15, small := false }

/-- The format of a floating TYPE; f32 for the others, which no floating operation accepts. -/
def fmtOf : Ty → Fmt
  | .f16 => fmtF16 | .bf16 => fmtBf16 | .f64 => fmtF64 | .e4m3 => fmtE4m3 | .e5m2 => fmtE5m2 | _ => fmtF32

/-- Width in bits. -/
def Fmt.width (f : Fmt) : Nat := f.eb + f.fb + 1

/-- E all ones. -/
def Fmt.eMax (f : Fmt) : Nat := 2 ^ f.eb - 1

/-- Exponent of the smallest normal value. -/
def Fmt.minExp (f : Fmt) : Int := 1 - (f.bias : Int)

/-- Exponent of the largest finite value. -/
def Fmt.maxExp (f : Fmt) : Int := (if f.small then (f.eMax : Int) else f.eMax - 1) - f.bias

/-- Significand, `fb + 1` bits, of the largest finite value. -/
def Fmt.maxSig (f : Fmt) : Nat := if f.small then 2 ^ (f.fb + 1) - 2 else 2 ^ (f.fb + 1) - 1

/-- Joins sign, exponent and fraction fields. -/
def Fmt.pack (f : Fmt) (neg : Bool) (e frac : Nat) : W64 :=
  BitVec.ofNat 64 ((if neg then 2 ^ (f.eb + f.fb) else 0) + e * 2 ^ f.fb + frac)

/-- Infinity of a sign; for e4m3 the canonical NaN (R41). -/
def Fmt.inf (f : Fmt) (neg : Bool) : W64 := if f.small then 0x7F else f.pack neg f.eMax 0

/-- The canonical quiet NaN (R37). -/
def Fmt.nan (f : Fmt) : W64 := if f.small then 0x7F else f.pack false f.eMax (2 ^ (f.fb - 1))

/-- PoisonOf(f): the poison encoding (R37, R39). -/
def Fmt.poison (f : Fmt) : W64 :=
  if f.width = 8 then 0xFF else f.pack false f.eMax (2 ^ (f.fb - 1) ||| 0x5A)

/-- The largest finite value of a sign. -/
def Fmt.maxFinite (f : Fmt) (neg : Bool) : W64 :=
  if f.small then (if neg then 0xFE else 0x7E) else f.pack neg (f.eMax - 1) (2 ^ f.fb - 1)

def Fmt.zero (f : Fmt) (neg : Bool) : W64 := f.pack neg 0 0

/-- What an encoding means (R36-R38). A finite value is (-1)^neg · m · 2^e. -/
inductive FVal where
  | poison
  | snan
  | qnan
  | inf (neg : Bool)
  | fin (neg : Bool) (m : Nat) (e : Int)
  deriving DecidableEq, Repr

/-- Sign field of an encoding. -/
def Fmt.signOf (f : Fmt) (w : W64) : Bool := w.getLsbD (f.eb + f.fb)
def Fmt.expOf (f : Fmt) (w : W64) : Nat := (w.toNat / 2 ^ f.fb) % 2 ^ f.eb
def Fmt.fracOf (f : Fmt) (w : W64) : Nat := w.toNat % 2 ^ f.fb

/-- Reads an encoding (R36-R38). -/
def Fmt.decode (f : Fmt) (w : W64) : FVal :=
  let neg := f.signOf w
  let e := f.expOf w
  let m := f.fracOf w
  if f.small then
    if e = f.eMax ∧ m = 2 ^ f.fb - 1 then (if neg then .poison else .qnan)
    else if e = 0 then .fin neg m (1 - (f.bias : Int) - f.fb)
    else .fin neg (2 ^ f.fb + m) ((e : Int) - f.bias - f.fb)
  else if e = f.eMax then
    if m = 0 then .inf neg
    else if f.width = 8 then (if w.toNat % 256 = 0xFF then .poison else if m / 2 ^ (f.fb - 1) = 1 then .qnan else .snan)
    else if m = (2 ^ (f.fb - 1) ||| 0x5A) then .poison
    else if m / 2 ^ (f.fb - 1) = 1 then .qnan else .snan
  else if e = 0 then .fin neg m (1 - (f.bias : Int) - f.fb)
  else .fin neg (2 ^ f.fb + m) ((e : Int) - f.bias - f.fb)

/-- A subnormal encoding. -/
def Fmt.isSubnormal (f : Fmt) (w : W64) : Bool := f.expOf w == 0 && f.fracOf w != 0

/-- Reads an operand with `.ftz` (R43): a subnormal is a zero of its sign. -/
def Fmt.read (f : Fmt) (ftz : Bool) (w : W64) : FVal :=
  if ftz && f.isSubnormal w then .fin (f.signOf w) 0 0 else f.decode w

/-- A result and the flags it raises. -/
structure FRes where
  val : W64
  flags : W32
  deriving DecidableEq, Repr

def fres (v : W64) (fl : W32 := 0) : FRes := { val := v, flags := fl }

/-- 2^k for an integer exponent, as a quotient. -/
def pow2N (k : Int) : Nat := 2 ^ k.toNat
def pow2D (k : Int) : Nat := 2 ^ (-k).toNat

/-- Floor of the binary logarithm of n / d, for n and d positive. -/
def log2Ratio (n d : Nat) : Int :=
  let k : Int := (Nat.log2 n : Int) - Nat.log2 d
  if n * pow2D k < d * pow2N k then k - 1 else k

/-- Whether a mode rounds a magnitude up, given its kept part, the remainder and the divisor (R40). -/
def roundsUp (rm : Rm) (neg : Bool) (s r d : Nat) : Bool :=
  match rm with
  | .rne => d < 2 * r || (2 * r == d && s % 2 == 1)
  | .rz => false
  | .ru => !neg && r != 0
  | .rd => neg && r != 0

/-- n / d as a multiple of 2^q, rounded: the multiple, and whether it is inexact. -/
def roundQuantum (rm : Rm) (neg : Bool) (n d : Nat) (q : Int) : Nat × Bool :=
  let n' := n * pow2D q
  let d' := d * pow2N q
  let s := n' / d'
  let r := n' % d'
  (if roundsUp rm neg s r d' then s + 1 else s, r != 0)

/-- The result of an overflow (R41). -/
def overflowed (f : Fmt) (rm : Rm) (neg : Bool) : W64 :=
  if f.small then f.maxFinite neg else
  match rm with
  | .rne => f.inf neg
  | .rz => f.maxFinite neg
  | .ru => if neg then f.maxFinite neg else f.inf neg
  | .rd => if neg then f.inf neg else f.maxFinite neg

/-- Rounds the nonzero magnitude n / d with a sign (R40-R43). -/
def roundMag (f : Fmt) (rm : Rm) (ftz neg : Bool) (n d : Nat) : FRes :=
  let e := log2Ratio n d
  let (s, inex) := roundQuantum rm neg n d (e - f.fb)
  let carry := s == 2 ^ (f.fb + 1)
  let e' := if carry then e + 1 else e
  let s' := if carry then 2 ^ f.fb else s
  if f.maxExp < e' || (e' == f.maxExp && f.maxSig < s') then fres (overflowed f rm neg) (flagOF ||| flagNX)
  else if e' < f.minExp then
    let (t, inex') := roundQuantum rm neg n d (f.minExp - f.fb)
    let fl := flagIf inex' (flagUF ||| flagNX)
    if t == 2 ^ f.fb then fres (f.pack neg 1 0) fl
    else if ftz && t != 0 then fres (f.zero neg) (flagUF ||| flagNX)
    else fres (f.pack neg 0 t) fl
  else fres (f.pack neg (e' + f.bias).toNat (s' - 2 ^ f.fb)) (flagIf inex flagNX)

/-- An exact dyadic number m · 2^e. -/
structure Dy where
  m : Int
  e : Int
  deriving DecidableEq, Repr

def Dy.add (a b : Dy) : Dy :=
  if a.e ≤ b.e then { m := a.m + b.m * 2 ^ (b.e - a.e).toNat, e := a.e }
  else { m := a.m * 2 ^ (a.e - b.e).toNat + b.m, e := b.e }

def Dy.mul (a b : Dy) : Dy := { m := a.m * b.m, e := a.e + b.e }
def Dy.neg (a : Dy) : Dy := { a with m := -a.m }
def Dy.sub (a b : Dy) : Dy := a.add b.neg
def Dy.ofInt (n : Int) : Dy := { m := n, e := 0 }
def Dy.lt (a b : Dy) : Bool := (a.sub b).m < 0
def Dy.le (a b : Dy) : Bool := (a.sub b).m ≤ 0
def Dy.eq (a b : Dy) : Bool := (a.sub b).m == 0
/-- Floor and rational parts. -/
def Dy.floor (a : Dy) : Int := if 0 ≤ a.e then a.m * 2 ^ a.e.toNat else a.m / 2 ^ (-a.e).toNat

/-- The exact value of a finite encoding; zero for the others. -/
def FVal.dy : FVal → Dy
  | .fin neg m e => { m := if neg then -(m : Int) else m, e := e }
  | _ => { m := 0, e := 0 }

/-- The sign of a value. -/
def FVal.sign : FVal → Bool
  | .fin neg _ _ => neg
  | .inf neg => neg
  | _ => false

def FVal.isZero : FVal → Bool
  | .fin _ 0 _ => true
  | _ => false

def FVal.isInf : FVal → Bool
  | .inf _ => true
  | _ => false

def FVal.isFinite : FVal → Bool
  | .fin .. => true
  | _ => false

def FVal.isNan : FVal → Bool
  | .poison | .snan | .qnan => true
  | _ => false

/-- Rounds an exact number; `zneg` is the sign of an exact zero. -/
def roundDy (f : Fmt) (rm : Rm) (ftz zneg : Bool) (x : Dy) : FRes :=
  if x.m = 0 then fres (f.zero zneg)
  else roundMag f rm ftz (decide (x.m < 0)) (x.m.natAbs * pow2N x.e) (pow2D x.e)

/-- The sign of an exact zero sum (R40): the common sign of its zero terms, else that of the mode. -/
def zeroSign (rm : Rm) (a b : Bool) : Bool := if a == b then a else (match rm with | .rd => true | _ => false)

/-- Rules 1 to 3 of R39, then `k`. -/
def nanRules (f : Fmt) (xs : List FVal) (k : FRes) : FRes :=
  if xs.any (· == .poison) then fres f.poison
  else if xs.any (· == .snan) then fres f.nan flagNV
  else if xs.any (· == .qnan) then fres f.nan
  else k

/-- Rule 4 of R39. -/
def invalid (f : Fmt) : FRes := fres f.nan flagNV

/-- An exact infinite result (R41 for e4m3). -/
def infinite (f : Fmt) (neg : Bool) : FRes := if f.small then fres 0x7F flagNV else fres (f.inf neg)

/-- A + B of decoded operands. -/
def addVals (f : Fmt) (rm : Rm) (ftz : Bool) (a b : FVal) : FRes :=
  nanRules f [a, b] <|
    match a, b with
    | .inf s, .inf t => if s == t then infinite f s else invalid f
    | .inf s, _ => infinite f s
    | _, .inf t => infinite f t
    | _, _ =>
      let z := if a.isZero && b.isZero then zeroSign rm a.sign b.sign else zeroSign rm false true
      roundDy f rm ftz z (a.dy.add b.dy)

/-- The same value with its sign changed. -/
def FVal.negate : FVal → FVal
  | .inf s => .inf (!s)
  | .fin s m e => .fin (!s) m e
  | x => x

/-- A · B of decoded operands. -/
def mulVals (f : Fmt) (rm : Rm) (ftz : Bool) (a b : FVal) : FRes :=
  nanRules f [a, b] <|
    let s := a.sign != b.sign
    if (a.isInf && b.isZero) || (a.isZero && b.isInf) then invalid f
    else if a.isInf || b.isInf then infinite f s
    else roundDy f rm ftz s (a.dy.mul b.dy)

/-- A · B + C with one rounding (R102). -/
def fmaVals (f : Fmt) (rm : Rm) (ftz : Bool) (a b c : FVal) : FRes :=
  nanRules f [a, b, c] <|
    let s := a.sign != b.sign
    if (a.isInf && b.isZero) || (a.isZero && b.isInf) then invalid f
    else if a.isInf || b.isInf then
      (match c with
        | .inf t => if s == t then infinite f s else invalid f
        | _ => infinite f s)
    else match c with
      | .inf t => infinite f t
      | _ =>
        let p := a.dy.mul b.dy
        let z := if p.m == 0 && c.isZero then zeroSign rm s c.sign else zeroSign rm false true
        roundDy f rm ftz z (p.add c.dy)

def addF (f : Fmt) (rm : Rm) (ftz : Bool) (a b : W64) : FRes := addVals f rm ftz (f.read ftz a) (f.read ftz b)
def subF (f : Fmt) (rm : Rm) (ftz : Bool) (a b : W64) : FRes := addVals f rm ftz (f.read ftz a) (f.read ftz b).negate
def mulF (f : Fmt) (rm : Rm) (ftz : Bool) (a b : W64) : FRes := mulVals f rm ftz (f.read ftz a) (f.read ftz b)
def fmaF (f : Fmt) (rm : Rm) (ftz : Bool) (a b c : W64) : FRes :=
  fmaVals f rm ftz (f.read ftz a) (f.read ftz b) (f.read ftz c)

/-- The order of R104 and R105 on non-NaN values: less than. -/
def FVal.less : FVal → FVal → Bool
  | .inf s, .inf t => s && !t
  | .inf s, _ => s
  | _, .inf t => !t
  | a, b => a.dy.lt b.dy

/-- The order of R104 puts −0 below +0. -/
def FVal.below (a b : FVal) : Bool := a.less b || (a.isZero && b.isZero && a.sign && !b.sign)

/-- An operand returned by R104, flushed with `.ftz`. -/
def Fmt.flush (f : Fmt) (ftz : Bool) (w : W64) : W64 :=
  if ftz && f.isSubnormal w then f.zero (f.signOf w) else BitVec.ofNat 64 (w.toNat % 2 ^ f.width)

/-- `fmin`, `fmax`, `fmed3` choose among the operands that are no quiet NaN, in ascending order (R104). -/
def insertBelow (f : Fmt) (ftz : Bool) (w : W64) : List W64 → List W64
  | [] => [w]
  | v :: vs => if (f.read ftz w).below (f.read ftz v) then w :: v :: vs else v :: insertBelow f ftz w vs

def sortF (f : Fmt) (ftz : Bool) (ws : List W64) : List W64 := ws.foldr (insertBelow f ftz) []

/-- `pick n` gives the index chosen from n operands that stand. -/
def selectF (f : Fmt) (ftz : Bool) (ws : List W64) (pick : Nat → Nat) : FRes :=
  let vs := ws.map (f.read ftz)
  if vs.any (· == .poison) then fres f.poison
  else if vs.any (· == .snan) then fres f.nan flagNV
  else
    let ok := sortF f ftz (ws.filter fun w => f.read ftz w != .qnan)
    match ok[pick ok.length]? with
    | some w => fres (f.flush ftz w)
    | none => fres f.nan

def minF (f : Fmt) (ftz : Bool) (a b : W64) : FRes := selectF f ftz [a, b] fun _ => 0
def maxF (f : Fmt) (ftz : Bool) (a b : W64) : FRes := selectF f ftz [a, b] fun n => n - 1
/-- The median of three, the lesser of two (R104). -/
def med3F (f : Fmt) (ftz : Bool) (a b c : W64) : FRes := selectF f ftz [a, b, c] fun n => if n = 3 then 1 else 0

/-- `fcmp` and `dcmp` (R105): the predicate and the flags. -/
def compareF (f : Fmt) (ftz : Bool) (cc : Nat) (a b : W64) : Bool × W32 :=
  let x := f.read ftz a
  let y := f.read ftz b
  let un := x.isNan || y.isNan
  let eq := !un && !x.less y && !y.less x
  let p := match cc with
    | 0 => eq
    | 1 => !eq
    | 2 => !un && x.less y
    | 3 => !un && !y.less x
    | 4 => !un && y.less x
    | 5 => !un && !x.less y
    | 6 => un
    | _ => !un
  (p, flagIf (x == .snan || y == .snan) flagNV)

/-- `fclass` (R106). -/
def classF (f : Fmt) (w : W64) : Nat :=
  match f.decode w with
  | .snan => 0
  | .qnan => 1
  | .poison => 2
  | .inf true => 3
  | .inf false => 10
  | .fin neg m _ =>
    if m = 0 then (if neg then 6 else 7)
    else if f.isSubnormal w then (if neg then 5 else 8) else (if neg then 4 else 9)

/-- `hdot2` (R107): C + a0·b0 + a1·b1 in f32, one rounding. -/
def dot2F (f : Fmt) (rm : Rm) (ftz : Bool) (a b : W32) (c : W32) : FRes :=
  let rd (w : W32) (h : Nat) : FVal := f.read ftz ((w.extractLsb' (16 * h) 16).setWidth 64)
  let cv := fmtF32.read ftz (c.setWidth 64)
  let ps := [(rd a 0, rd b 0), (rd a 1, rd b 1)]
  nanRules fmtF32 [rd a 0, rd b 0, rd a 1, rd b 1, cv] <|
    if ps.any (fun p => (p.1.isInf && p.2.isZero) || (p.1.isZero && p.2.isInf)) then invalid fmtF32
    else
      let infs := (ps.filter fun p => p.1.isInf || p.2.isInf).map (fun p => p.1.sign != p.2.sign)
        ++ (if cv.isInf then [cv.sign] else [])
      if infs.contains true && infs.contains false then invalid fmtF32
      else match infs with
        | s :: _ => infinite fmtF32 s
        | [] =>
          let sum := ps.foldl (fun s p => s.add (p.1.dy.mul p.2.dy)) cv.dy
          let signs := cv.sign :: ps.map (fun p => p.1.sign != p.2.sign)
          let allZero := cv.isZero && ps.all fun p => p.1.isZero || p.2.isZero
          let z := if allZero then (if signs.all id then true else if signs.all (!·) then false else zeroSign rm false true)
                   else zeroSign rm false true
          roundDy fmtF32 rm ftz z sum

/-- `frnd` (R112): to an integral value of the format; no flag. -/
def integralF (f : Fmt) (rm : Rm) (ftz : Bool) (w : W64) : FRes :=
  let v := f.read ftz w
  nanRules f [v] <|
    match v with
    | .fin neg m e =>
      if m = 0 then fres (f.zero neg)
      else if 0 ≤ e then fres (BitVec.ofNat 64 (w.toNat % 2 ^ f.width))
      else
        let (s, _) := roundQuantum rm neg m (pow2D e) 0
        if s = 0 then fres (f.zero neg) else fres (roundMag f rm false neg s 1).val
    | _ => fres (BitVec.ofNat 64 (w.toNat % 2 ^ f.width))

/-- Conversion between floating formats (R44). -/
def convertFF (src dst : Fmt) (rm : Rm) (ftz : Bool) (w : W64) : FRes :=
  let v := src.read ftz w
  nanRules dst [v] <|
    match v with
    | .inf s => infinite dst s
    | _ => roundDy dst rm ftz v.sign v.dy

/-- Conversion from floating to integer of width `w` (R45). -/
def convertFI (src : Fmt) (width : Nat) (signed : Bool) (rm : Rm) (ftz : Bool) (x : W64) : FRes :=
  match src.read ftz x with
  | .poison => fres (BitVec.ofInt 64 (intMin width signed)) flagPZ
  | .snan | .qnan => fres 0 flagNV
  | .inf neg => fres (BitVec.ofInt 64 (if neg then intMin width signed else intMax width signed)) flagNV
  | .fin neg m e =>
    let (s, inex) := roundQuantum rm neg (m * pow2N e) (pow2D e) 0
    let i : Int := if neg then -(s : Int) else s
    if i < intMin width signed then fres (BitVec.ofInt 64 (intMin width signed)) flagNV
    else if intMax width signed < i then fres (BitVec.ofInt 64 (intMax width signed)) flagNV
    else fres (BitVec.ofInt 64 i) (flagIf inex flagNX)

/-- Conversion from integer to floating (R46). -/
def convertIF (dst : Fmt) (rm : Rm) (ftz : Bool) (i : Int) : FRes := roundDy dst rm ftz false (Dy.ofInt i)

/-- Conversion between integers (R47). -/
def convertII (width : Nat) (signed sat : Bool) (i : Int) : FRes :=
  let r := narrow width signed sat i
  { val := r.1, flags := r.2 }

end Sys2Proof.Machine
end

