-- ==== Sys2Proof/Machine/Special.lean ====
section
/-! DEFINITION. Division, square roots and the special functions of class 3 (R109, R110), correctly rounded. Quotients are
exact; roots come from an integer square root with a sticky bit; the transcendental functions are computed in fixed point
with an error bound, and again with more digits when the bound does not settle the rounding. -/
namespace Sys2Proof.Machine

/-- Integer square root by bits: the greatest `r + k` with `k < 2^n` whose square is at most `a`. -/
def isqrtFrom (a : Nat) : Nat → Nat → Nat
  | 0, r => r
  | n + 1, r => if (r + 2 ^ n) * (r + 2 ^ n) ≤ a then isqrtFrom a n (r + 2 ^ n) else isqrtFrom a n r

/-- The integer square root. -/
def isqrt (a : Nat) : Nat := isqrtFrom a (Nat.log2 a / 2 + 1) 0

/-- Rounds the square root of n / d, both positive. -/
def roundSqrt (f : Fmt) (rm : Rm) (ftz : Bool) (n d : Nat) : FRes :=
  -- 4^k brings the quotient to at least 160 bits, so the root has at least 80
  let k := 160 + Nat.log2 d
  let x := n * 4 ^ k
  let q := isqrt (x / d)
  let sticky := if q * q * d = x then 0 else 1
  roundMag f rm ftz false (2 * q + sticky) (2 ^ (k + 1))

/-- A finite magnitude as a quotient. -/
def FVal.num : FVal → Nat
  | .fin _ m e => m * pow2N e
  | _ => 0

def FVal.den : FVal → Nat
  | .fin _ _ e => pow2D e
  | _ => 1

/-- `fdiv` (R110). -/
def divF (f : Fmt) (rm : Rm) (ftz : Bool) (wa wb : W64) : FRes :=
  let a := f.read ftz wa
  let b := f.read ftz wb
  nanRules f [a, b] <|
    let s := a.sign != b.sign
    if (a.isZero && b.isZero) || (a.isInf && b.isInf) then invalid f
    else if a.isInf then infinite f s
    else if b.isInf then fres (f.zero s)
    else if b.isZero then fres (f.inf s) flagDZ
    else if a.isZero then fres (f.zero s)
    else roundMag f rm ftz s (a.num * b.den) (a.den * b.num)

/-- `fsqrt` (R110). -/
def sqrtF (f : Fmt) (rm : Rm) (ftz : Bool) (w : W64) : FRes :=
  let a := f.read ftz w
  nanRules f [a] <|
    if a.isZero then fres (f.zero a.sign)
    else if a.sign then invalid f
    else if a.isInf then fres (f.inf false)
    else roundSqrt f rm ftz a.num a.den

/-- `frcp` (R109). -/
def rcpF (f : Fmt) (ftz : Bool) (w : W64) : FRes :=
  let a := f.read ftz w
  nanRules f [a] <|
    if a.isZero then fres (f.inf a.sign) flagDZ
    else if a.isInf then fres (f.zero a.sign)
    else roundMag f .rne ftz a.sign a.den a.num

/-- `frsq` (R109). -/
def rsqF (f : Fmt) (ftz : Bool) (w : W64) : FRes :=
  let a := f.read ftz w
  nanRules f [a] <|
    if a.isZero then fres (f.inf a.sign) flagDZ
    else if a.sign then invalid f
    else if a.isInf then fres (f.zero false)
    else roundSqrt f .rne ftz a.den a.num

-- Fixed point: a value x is held as an integer near x · 2^p, each series within 2^20 units of the truth.

/-- Sum of the `n` terms t, t·z/(k·(k+1)), ... of a series with factorial denominators and a sign `neg` that
alternates: the tail of sine and cosine; `z` is the square of the argument. -/
def trigSeries (p : Nat) (z : Int) : Nat → Nat → Int → Int
  | 0, _, _ => 0
  | n + 1, k, t => t + trigSeries p z n (k + 2) (-(t * z / 2 ^ p) / ((k * (k + 1) : Nat) : Int))

/-- Sum of t, t·x/k, ...: the exponential series. -/
def expSeries (p : Nat) (x : Int) : Nat → Nat → Int → Int
  | 0, _, _ => 0
  | n + 1, k, t => t + expSeries p x n (k + 1) (t * x / 2 ^ p / (k : Int))

/-- Sum of t/k, t·z/(k+2), ...: the series of the inverse hyperbolic (z positive) and, for z negative, the ordinary
tangent. -/
def atanSeries (p : Nat) (z : Int) : Nat → Nat → Int → Int
  | 0, _, _ => 0
  | n + 1, k, t => t / (k : Int) + atanSeries p z n (k + 2) (t * z / 2 ^ p)

/-- Inverse hyperbolic tangent of n / d, at most 1/3. -/
def atanhFix (p : Nat) (n d : Nat) : Int :=
  let x : Int := ((n * 2 ^ p / d : Nat) : Int)
  atanSeries p (x * x / 2 ^ p) (p / 3 + 4) 1 x

/-- The natural logarithm of 2. -/
def ln2Fix (p : Nat) : Int := 2 * atanhFix p 1 3

/-- Arctangent of 1 / d. -/
def atanInv (p : Nat) (d : Nat) : Int :=
  let x : Int := ((2 ^ p / d : Nat) : Int)
  atanSeries p (-(x * x / 2 ^ p)) (p / 4 + 4) 1 x

/-- π by Machin's formula. -/
def piFix (p : Nat) : Int := 16 * atanInv p 5 - 4 * atanInv p 239

/-- Rounds a value that lies strictly within `2^24` units of `v` at `p` fraction bits and is no multiple of a unit:
`none` when the bound does not settle the result. -/
def settle (f : Fmt) (ftz : Bool) (p : Nat) (v : Int) : Option FRes :=
  let lo := v - 2 ^ 24
  let hi := v + 2 ^ 24
  if decide (lo ≤ 0) && decide (0 ≤ hi) then none else
  let neg := decide (v < 0)
  let r (x : Int) := roundMag f .rne ftz neg (2 * x.natAbs + 1) (2 ^ (p + 1))
  if r lo = r hi then some (r lo) else none

/-- Computes with `p` bits and, while that does not settle the rounding, with twice as many. DEDUCED
(notes/assumptions/51). -/
def refine (f : Fmt) (ftz : Bool) (g : Nat → Int) : Nat → Nat → FRes
  | 0, p => roundMag f .rne ftz (decide (g p < 0)) (2 * (g p).natAbs + 1) (2 ^ (p + 1))
  | n + 1, p => match settle f ftz p (g p) with
    | some r => r
    | none => refine f ftz g n (2 * p)

/-- A dyadic number in fixed point, rounded down. -/
def Dy.fix (a : Dy) (p : Nat) : Int := Dy.floor { a with e := a.e + p }

/-- 2^x at `p` bits, for |x| at most 1024: the integer part scales the exponential of the rest. -/
def ex2Fix (x : Dy) (p : Nat) : Int :=
  let q := p + 1100
  let i := x.floor
  let fr := (x.sub (Dy.ofInt i)).fix q
  let e := expSeries q (fr * ln2Fix q / 2 ^ q) (p / 4 + 300) 1 (2 ^ q)
  -- e at q bits times 2^i at p bits
  if 0 ≤ i then e * 2 ^ i.toNat / 2 ^ 1100 else e / 2 ^ (1100 + (-i).toNat)

/-- `fex2` (R109). -/
def ex2F (f : Fmt) (ftz : Bool) (w : W64) : FRes :=
  let a := f.read ftz w
  nanRules f [a] <|
    match a with
    | .inf neg => fres (if neg then f.zero false else f.inf false)
    | _ =>
      let x := a.dy
      if (Dy.ofInt 1000).lt x then fres (f.inf false) (flagOF ||| flagNX)
      else if x.lt (Dy.ofInt (-1000)) then fres (f.zero false) (flagUF ||| flagNX)
      else
        let i := x.floor
        if (Dy.ofInt i).eq x then roundMag f .rne ftz false (pow2N i) (pow2D i)
        else refine f ftz (ex2Fix x) 2 800

/-- log2 of m · 2^e at `p` bits. -/
def lg2Fix (m : Nat) (e : Int) (p : Nat) : Int :=
  let l := Nat.log2 m
  -- mantissa m / 2^l in [1, 2)
  let ln := 2 * atanhFix (p + 64) (m - 2 ^ l) (m + 2 ^ l)
  (e + l) * 2 ^ p + ln * 2 ^ p / ln2Fix (p + 64)

/-- `flg2` (R109). -/
def lg2F (f : Fmt) (ftz : Bool) (w : W64) : FRes :=
  let a := f.read ftz w
  nanRules f [a] <|
    if a.isZero then fres (f.inf true) flagDZ
    else if a.sign then invalid f
    else match a with
      | .fin _ m e =>
        let l := Nat.log2 m
        if m = 2 ^ l then roundDy f .rne ftz false (Dy.ofInt (e + l))
        else refine f ftz (lg2Fix m e) 2 800
      | _ => fres (f.inf false)

/-- Sine (`k` = 0) or cosine (`k` = 1) of a finite argument at `p` bits. -/
def trigFix (k : Nat) (x : Dy) (p : Nat) : Int :=
  let q := p + 200
  let half := piFix q / 2
  let v := x.fix q
  let n := v / half
  -- the argument is below 2^130, so `n` carries the error of π to at most 2^150 units of 2^-q
  let r := v - n * half
  let z := r * r / 2 ^ q
  let s := trigSeries q z (p / 8 + 60) 2 r
  let c := trigSeries q z (p / 8 + 60) 1 (2 ^ q)
  let y := match ((n + (k : Int)) % 4).toNat with
    | 0 => s
    | 1 => c
    | 2 => -s
    | _ => -c
  y / 2 ^ 200

/-- `fsin` and `fcos` (R109). -/
def trigF (k : Nat) (f : Fmt) (ftz : Bool) (w : W64) : FRes :=
  let a := f.read ftz w
  nanRules f [a] <|
    if a.isInf then invalid f
    else if a.isZero then fres (if k = 0 then f.zero a.sign else (roundMag f .rne false false 1 1).val)
    else refine f ftz (trigFix k a.dy) 2 800

end Sys2Proof.Machine
end

