-- ==== Sys2Proof/Machine/Operands.lean ====
section
/-! DEFINITION. Operand forms: registers, pairs and runs of registers (R16, R18), predicates (R23), operands and results
by TYPE (R84), immediates (R59), and packed elements (R20-R22). -/
namespace Sys2Proof.Machine

/-- Register vN of a lane (R16). -/
def Lane.reg (l : Lane) (n : Nat) : W32 := l.regs.getD n 0

/-- Writes register vN. -/
def Lane.setReg (l : Lane) (n : Nat) (v : W32) : Lane := { l with regs := l.regs.set n v }

/-- The pair that starts at an even register (R18). -/
def Lane.pair (l : Lane) (n : Nat) : W64 := join32 (l.reg n) (l.reg (n + 1))

/-- Writes a pair. -/
def Lane.setPair (l : Lane) (n : Nat) (v : W64) : Lane := (l.setReg n (lo32 v)).setReg (n + 1) (hi32 v)

/-- `k` consecutive registers. -/
def Lane.run (l : Lane) (n k : Nat) : List W32 := (List.range k).map fun i => l.reg (n + i)

/-- Writes registers one after another. -/
def Lane.setRun (l : Lane) (n : Nat) : List W32 → Lane
  | [] => l
  | v :: vs => (l.setReg n v).setRun (n + 1) vs

/-- Predicate pN (R23). -/
def Lane.pred (l : Lane) (n : Nat) : Bool := l.preds.getLsbD n

/-- Writes a predicate. -/
def Lane.setPred (l : Lane) (n : Nat) (v : Bool) : Lane :=
  let m : BitVec 24 := BitVec.twoPow 24 n
  { l with preds := if v then l.preds ||| m else l.preds &&& ~~~m }

/-- Merges sticky flags (R28, R29). -/
def Lane.raise (l : Lane) (fl : W32) : Lane := { l with fpstat := l.fpstat ||| fl }

/-- Whether the guard passes (R55). -/
def Lane.guard (l : Lane) (h : Hdr) : Bool := h.gp == 31 || (l.pred h.gp.toNat != h.gn)

/-- Width in bits of a TYPE (R34, R35); 32 for raw bits. -/
def tyBits : Ty → Nat
  | .i8 | .n8 | .e4m3 | .e5m2 => 8
  | .i16 | .n16 | .f16 | .bf16 => 16
  | .i64 | .n64 | .f64 => 64
  | .i32 | .n32 | .f32 | .vw | .b32 => 32

/-- Signed integer TYPEs (R34). -/
def tySigned : Ty → Bool
  | .i8 | .i16 | .i32 | .i64 => true
  | _ => false

/-- The source read under R84, zero-extended: a pair for a 64-bit TYPE, else the low bits of one register. -/
def Lane.src (l : Lane) (t : Ty) (r : Nat) : W64 :=
  if tyWide t then l.pair r else BitVec.ofNat 64 ((l.reg r).toNat % 2 ^ tyBits t)

/-- The integer that bits of a TYPE stand for (R34). -/
def intOf (t : Ty) (w : W64) : Int := if tySigned t then sextTo (tyBits t) w else zextTo (tyBits t) w

/-- The register image of a narrow result (R84): sign-extended, or with the other bits zero. -/
def widen (t : Ty) (v : W64) : W32 :=
  if tySigned t then BitVec.ofInt 32 (sextTo (tyBits t) v) else BitVec.ofInt 32 (zextTo (tyBits t) v)

/-- Registers a result writes, with their values (R84). -/
def resultRegs (t : Ty) (r : Nat) (v : W64) : List (Nat × W32) :=
  if tyWide t then [(r, lo32 v), (r + 1, hi32 v)] else [(r, widen t v)]

/-- Writes listed registers in order. -/
def Lane.setRegs (l : Lane) : List (Nat × W32) → Lane
  | [] => l
  | (n, v) :: ws => (l.setReg n v).setRegs ws

/-- Writes a result under R84. -/
def Lane.dst (l : Lane) (t : Ty) (r : Nat) (v : W64) : Lane := l.setRegs (resultRegs t r v)

/-- The 16-bit immediate {B, C} (R59). -/
def immOf (x : Arith) : BitVec 16 := x.b ++ x.c

/-- The operand value an immediate gives by TYPE (R59), as the bits of a source. -/
def immVal (t : Ty) (imm : BitVec 16) : W64 :=
  match t with
  | .i16 | .i32 | .i64 => imm.signExtend 64
  | .n16 | .n32 | .n64 | .b32 | .f16 | .bf16 | .vw => imm.setWidth 64
  | .i8 | .n8 | .e4m3 | .e5m2 => BitVec.ofNat 64 (imm.toNat % 256)
  | .f32 => imm.setWidth 64 <<< 16
  | .f64 => imm.setWidth 64 <<< 48

/-- Operand B: the register or pair, or the immediate (R59, R84). -/
def Lane.srcB (l : Lane) (x : Arith) : W64 :=
  if x.i then BitVec.ofNat 64 ((immVal x.ty (immOf x)).toNat % 2 ^ tyBits x.ty) else l.src x.ty x.b.toNat

/-- Operand B where it is one 32-bit register or a 32-bit immediate Zext(imm, 16) (R97). -/
def Lane.srcB32 (l : Lane) (x : Arith) : W32 := if x.i then (immOf x).setWidth 32 else l.reg x.b.toNat

/-- The format of packed elements, read from a view register (R20). -/
structure View where
  width : Nat
  stride : Nat
  signed : Bool
  alt : Bool
  deriving DecidableEq, Repr

/-- A view register's fields (R20). -/
def View.ofReg (w : W32) : View :=
  { width := 4 * 2 ^ (w.toNat % 4), signed := w.getLsbD 2, alt := w.getLsbD 3, stride := 2 ^ (w.toNat / 16 % 4) }

/-- A value that `vwset` must refuse (R21, R118): a reserved bit or a reserved combination. -/
def viewReserved (w : W32) : Bool :=
  let v := View.ofReg w
  w.toNat / 64 != 0 || v.stride == 8 || (v.width == 32 && v.stride != 1) || (v.width == 16 && v.stride == 4) ||
    (v.alt && (v.width == 4 || v.width == 32))

/-- e, the elements of one register (R22). -/
def View.count (v : View) : Nat := 32 / (v.width * v.stride)

/-- Element j of a register (R22). -/
def View.get (v : View) (w : W32) (j : Nat) : W64 :=
  BitVec.ofNat 64 (w.toNat / 2 ^ (j * v.width * v.stride) % 2 ^ v.width)

/-- Writes element j; the bits between strided elements stay (R22). -/
def View.put (v : View) (w : W32) (j : Nat) (e : W64) : W32 :=
  let p := j * v.width * v.stride
  let m : W32 := BitVec.ofNat 32 ((2 ^ v.width - 1) * 2 ^ p)
  (w &&& ~~~m) ||| (BitVec.ofNat 32 (e.toNat % 2 ^ v.width * 2 ^ p) &&& m)

/-- The integer TYPE of a view's elements, for widths above 4. -/
def View.intValue (v : View) (e : W64) : Int := if v.signed then sextTo v.width e else zextTo v.width e

/-- The floating format of a view's elements (R20, R22); none at width 4. -/
def View.fmt (v : View) : Option Fmt :=
  if v.width = 8 then some (if v.alt then fmtE5m2 else fmtE4m3)
  else if v.width = 16 then some (if v.alt then fmtBf16 else fmtF16)
  else if v.width = 32 then some fmtF32 else none

/-- The view register a word of TYPE E names (R58). -/
def viewIndex (x : Arith) : Nat := (x.sub.toNat) / 4

/-- Applies an element operation to every element of a register: results in `d`, flags merged (R84, R87). -/
def packWith (v : View) (d : W32) (f : Nat → W64 × W32) : W32 × W32 :=
  (List.range v.count).foldl (fun r j => let e := f j; (v.put r.1 j e.1, r.2 ||| e.2)) (d, 0)

end Sys2Proof.Machine
end

