-- ==== Sys2Proof/Machine/Access.lean ====
section
/-! DEFINITION. Reading and updating the parts of the state: teams, groups, lanes, gangs, launches, stacks; the time base
as a core reads it (R32, R263); numbers and free values. -/
namespace Sys2Proof.Machine

/-- Replaces the element at a position by a function of it. -/
def modifyAt (l : List α) (n : Nat) (f : α → α) : List α :=
  match l, n with
  | [], _ => []
  | x :: xs, 0 => f x :: xs
  | x :: xs, n + 1 => x :: modifyAt xs n f

def State.team? (s : State) (id : Nat) : Option Team := s.teams.find? fun t => t.id == id
def State.gang? (s : State) (id : Nat) : Option Gang := s.gangs.find? fun g => g.id == id
def State.launch? (s : State) (id : Nat) : Option Launch := s.launches.find? fun l => l.id == id

/-- Changes the team with an id. -/
def State.updTeam (s : State) (id : Nat) (f : Team → Team) : State :=
  { s with teams := s.teams.map fun t => if t.id = id then f t else t }

def State.updGang (s : State) (id : Nat) (f : Gang → Gang) : State :=
  { s with gangs := s.gangs.map fun g => if g.id = id then f g else g }

def State.updLaunch (s : State) (id : Nat) (f : Launch → Launch) : State :=
  { s with launches := s.launches.map fun l => if l.id = id then f l else l }

def State.updOp (s : State) (num : Nat) (f : EngOp → EngOp) : State :=
  { s with ops := s.ops.map fun o => if o.num = num then f o else o }

def State.op? (s : State) (num : Nat) : Option EngOp := s.ops.find? fun o => o.num == num

/-- Changes a group of a team. -/
def State.updGroup (s : State) (team g : Nat) (f : Group → Group) : State :=
  s.updTeam team fun t => { t with groups := modifyAt t.groups g f }

/-- Changes the lane in a slot of a group. -/
def State.updLane (s : State) (team g slot : Nat) (f : Lane → Lane) : State :=
  s.updGroup team g fun x => { x with lanes := modifyAt x.lanes slot f }

def State.group? (s : State) (team g : Nat) : Option Group := (s.team? team).bind fun t => t.groups[g]?

def State.lane? (s : State) (team g slot : Nat) : Option Lane := (s.group? team g).bind fun x => x.lanes[slot]?

/-- The lanes of a team with their group and slot. -/
def Team.places (t : Team) : List (Nat × Nat × Lane) :=
  t.groups.zipIdx.flatMap fun (g, gi) => g.lanes.zipIdx.map fun (l, si) => (gi, si, l)

/-- The live lanes of a team with their group and slot. -/
def Team.live (t : Team) : List (Nat × Nat × Lane) := t.places.filter fun p => p.2.2.kind == .live

/-- The place of the live lane with a `$tid`. -/
def Team.find (t : Team) (tid : Nat) : Option (Nat × Nat × Lane) := t.live.find? fun p => p.2.2.tid == tid

/-- Changes the live lane of a team that has a `$tid`, in its slot or held for regrouping. -/
def State.updTid (s : State) (team tid : Nat) (f : Lane → Lane) : State :=
  let s := s.updTeam team fun t => { t with groups := t.groups.map fun g =>
    { g with lanes := g.lanes.map fun l => if l.kind = .live ∧ l.tid = tid then f l else l } }
  { s with regroup := s.regroup.map fun r =>
      if r.team = team then { r with lanes := r.lanes.map fun h => if h.lane.tid = tid then { h with lane := f h.lane } else h }
      else r }

/-- Home group of a lane (R223). -/
def Lane.home (l : Lane) : Nat := l.tid / 32

/-- The core of a resident team. -/
def Team.core (t : Team) : Nat := match t.place with | .core c .. => c | .saved .. => 0

/-- Address of the team's memory in its core's team shared memory array (R159, R361). -/
def Team.memBase (t : Team) : Nat := match t.place with | .core _ m .. => m | .saved .. => 0
def Team.regBase (t : Team) : Nat := match t.place with | .core _ _ r .. => r | .saved .. => 0
def Team.tileBase (t : Team) : Nat := match t.place with | .core _ _ _ b _ => b | .saved .. => 0
def Team.cvBase (t : Team) : Nat := match t.place with | .core _ _ _ _ b => b | .saved .. => 0

/-- `$gang` of a lane of a gang's teams (R136, R191). -/
def Gang.indexOf (g : Gang) (tid : Nat) : Nat := g.laneGangs.getD tid g.index

def Team.resident (t : Team) : Bool := match t.place with | .core .. => true | .saved .. => false

/-- The launch of a team. -/
def State.teamLaunch (s : State) (t : Team) : Option Launch := (s.gang? t.gang).bind fun g => s.launch? g.launch

/-- `$ctx` of a team (R25, R380). -/
def State.ctxOf (s : State) (t : Team) : Nat := match s.teamLaunch t with | some l => l.ctx | none => 0

/-- `$mode`.PRIV of a team (R27). -/
def State.privOf (s : State) (t : Team) : Bool := match s.teamLaunch t with | some l => l.priv | none => false

/-- BASE of a team's launch (R163). -/
def State.baseOf (s : State) (t : Team) : Nat := match s.teamLaunch t with | some l => l.base | none => 0

/-- Die and cluster of a core (R25). -/
def dieOf (core : Nat) : Nat := core / 128
def clusterOf (core : Nat) : Nat := core / 32

/-- The time base as a compute die reads it (R263): die 0 is the reference, another is at most 2 ns ahead. DEDUCED
(notes/assumptions/14). -/
def State.dieTime (s : State) (die : Nat) : W64 :=
  if die = 0 then s.time.now else s.time.now + BitVec.ofNat 64 (Config.dieSkew die % 3)

/-- `$time` on a core (R32). -/
def State.timeAt (s : State) (core : Nat) : W64 := s.dieTime (dieOf core)

/-- Margin of a release in ticks (R262; R417 while the part is unsynchronised). -/
def State.margin (s : State) : Scope → Nat
  | .device => 2
  | .system => if s.time.unsync then 1000 else 20
  | _ => 0

/-- A fresh number. DESIGN CHOICE (notes/assumptions/56). -/
def State.fresh (s : State) : Nat × State := (s.nextNum, { s with nextNum := s.nextNum + 1 })

/-- `n` free bytes (R235, R264). -/
def State.freeBytes (s : State) (n : Nat) : List Byte × State :=
  ((List.range n).map fun i => Config.freeByte (s.freeCtr + i), { s with freeCtr := s.freeCtr + n })

/-- Whether cores and launch unit work: the part runs and does not stop (R378, R434). -/
def State.running (s : State) : Bool := s.power.state == 2 && s.power.halting.isNone

def State.stack? (s : State) (k : Nat) : Option Stack := s.mem.stackList[k]?
def State.stack (s : State) (k : Nat) : Stack := s.mem.stackList.getD k Stack.reset

/-- Changes one stack. -/
def State.updStack (s : State) (k : Nat) (f : Stack → Stack) : State :=
  { s with mem := { s.mem with stackList := modifyAt s.mem.stackList k f } }

/-- Association lists keyed by Nat. -/
def lookupN (l : List (Nat × α)) (k : Nat) : Option α := (l.find? fun p => p.1 == k).map (·.2)
def setN (l : List (Nat × α)) (k : Nat) (v : α) : List (Nat × α) := (k, v) :: l.filter fun p => p.1 != k
def dropN (l : List (Nat × α)) (k : Nat) : List (Nat × α) := l.filter fun p => p.1 != k

/-- Unsigned difference of wrapped indices. -/
def ringCount (tail head : W32) : Nat := (tail - head).toNat

end Sys2Proof.Machine
end

