-- ==== Sys2Proof/Machine/Store.lean ====
section
/-! DEFINITION. The byte stores (canonical lists), the SRAM arrays with their check codes and log registers (R358,
R361, R376), and local memory: layout (R223-R225), presence (R227, R228), the port that performs lane accesses (R240,
R242, R244, R440), leases on lines (R274), slot marks (R316) and monitors of local words (R247). -/
namespace Sys2Proof.Machine

-- byte stores

/-- The byte at an address; 0 where none is listed. -/
def Mem.get : Mem → Nat → Byte
  | [], _ => 0
  | (k, v) :: m, a => if k = a then v else Mem.get m a

/-- Writes a byte, keeping the addresses rising and no byte 0 listed. -/
def Mem.set : Mem → Nat → Byte → Mem
  | [], a, b => if b = 0 then [] else [(a, b)]
  | (k, v) :: m, a, b =>
    if a < k then (if b = 0 then (k, v) :: m else (a, b) :: (k, v) :: m)
    else if a = k then (if b = 0 then m else (a, b) :: m)
    else (k, v) :: Mem.set m a b

/-- `n` bytes from an address. -/
def Mem.read (m : Mem) (a n : Nat) : List Byte := (List.range n).map fun i => m.get (a + i)

/-- Writes bytes from an address on. -/
def Mem.write : Mem → Nat → List Byte → Mem
  | m, _, [] => m
  | m, a, b :: bs => (m.set a b).write (a + 1) bs

/-- The canonical form: addresses strictly rising, no byte 0. -/
def Mem.wf : Mem → Bool
  | [] => true
  | (a, v) :: m => v != 0 && (match m with | [] => true | (b, _) :: _ => decide (a < b)) && Mem.wf m

/-- The byte of a memory outside the part, as far as the part has written it. -/
def FarMem.get : FarMem → Nat → Option Byte
  | [], _ => none
  | (k, v) :: m, a => if k = a then some v else FarMem.get m a

/-- Writes a byte outside the part, keeping the addresses rising. -/
def FarMem.set : FarMem → Nat → Byte → FarMem
  | [], a, b => [(a, b)]
  | (k, v) :: m, a, b =>
    if a < k then (a, b) :: (k, v) :: m else if a = k then (a, b) :: m else (k, v) :: FarMem.set m a b

def FarMem.write : FarMem → Nat → List Byte → FarMem
  | m, _, [] => m
  | m, a, b :: bs => (FarMem.set m a b).write (a + 1) bs

/-- The canonical form of a memory outside the part: addresses strictly rising. -/
def FarMem.wf : FarMem → Bool
  | [] => true
  | (a, _) :: m => (match m with | [] => true | (b, _) :: _ => decide (a < b)) && FarMem.wf m

/-- The canonical form of every memory: one list of bytes for one content. -/
def Memory.wf (m : Memory) : Bool :=
  m.home.wf && m.dram.wf && FarMem.wf m.host && FarMem.wf m.peer && m.ckpts.all fun c => Mem.wf c.2

/-- A byte of host memory (R230): what the part has written there, a checkpoint's byte (R399), or free. -/
def hostGet (m : Memory) (a : Nat) : Byte :=
  match m.host.get a with
  | some b => b
  | none => match m.ckpts.find? fun c => decide (c.1 ≤ a) && decide (a < c.1 + 2 ^ 39) with
    | some (t, snap) => snap.get (a - t)
    | none => Config.hostByte a

/-- A byte of a peer's memory: free where this part has written nothing. -/
def peerGet (m : FarMem) (dev : Nat) (inc : Byte) (ia : Nat) : Byte := (m.get (dev * 2 ^ 48 + ia)).getD (Config.peerByte dev inc ia)

-- SRAM arrays

/-- Selector of a log register (R361). -/
def selectorOf (kind unit : Nat) : Nat := kind * 2 ^ 28 + unit * 2 ^ 16

/-- A record of the error log (R361). -/
def logRecord (ue : Bool) (ctx syn addr : Nat) : W64 :=
  BitVec.ofNat 64 (2 ^ 63 + (if ue then 2 ^ 61 else 0) + ctx % 2 ^ 16 * 2 ^ 40 + syn % 256 * 2 ^ 32 + addr % 2 ^ 32)

/-- What a log register holds after an error (R361): a new record when V = 0, with `heldUe` telling whether a held
record is of an uncorrectable error. -/
def logUpdate (old : W64) (record : W64) (heldUe ue : Bool) : W64 :=
  if !bit old 63 then record ||| (old &&& 0x4000000000000000)
  else if ue && !heldUe then record ||| 0x4000000000000000
  else old ||| 0x4000000000000000

/-- The log register of an array. -/
def State.errLog (s : State) (sel : Nat) : W64 := (lookupN s.mem.errLogs sel).getD 0

def State.setErrLog (s : State) (sel : Nat) (v : W64) : State :=
  { s with mem := { s.mem with errLogs := setN s.mem.errLogs sel v } }

/-- Logs an error of an SRAM array (R361). -/
def State.logSram (s : State) (kind unit : Nat) (ue : Bool) (ctx syn addr : Nat) : State :=
  let sel := selectorOf kind unit
  let old := s.errLog sel
  s.setErrLog sel (logUpdate old (logRecord ue ctx syn addr) (bit old 61) ue)

/-- The flips stored in a codeword of an array. -/
def State.flipsAt (s : State) (kind unit addr : Nat) : List Nat :=
  match s.mem.flips.find? fun f => f.kind == kind && f.unit == unit && f.addr == addr with
  | some f => f.bits
  | none => []

/-- Stores the flips of a codeword; none clears the record. -/
def State.setFlips (s : State) (kind unit addr : Nat) (bits : List Nat) : State :=
  let rest := s.mem.flips.filter fun f => !(f.kind == kind && f.unit == unit && f.addr == addr)
  { s with mem := { s.mem with flips :=
      if bits.isEmpty then rest else { kind := kind, unit := unit, addr := addr, bits := bits } :: rest } }

/-- Adds flips to a codeword: a bit flipped twice is right again. -/
def xorBits (a b : List Nat) : List Nat := (a.filter fun x => !b.contains x) ++ b.filter fun x => !a.contains x

/-- Key of a device byte in the stores of the part. -/
def devKey (k spa : Nat) : Nat := k * 2 ^ 36 + spa

/-- Address of a line's byte in the stack-cache array (R361). -/
def cacheAddr (spa : Nat) : Nat := spa % 2 ^ 26

/-- The cached line, if any (R235). -/
def Stack.cached (x : Stack) (line : Nat) : Option CacheLine := x.cache.find? fun c => c.line == line

def Stack.dirty (x : Stack) (line : Nat) : Bool := match x.cached line with | some c => c.dirty | none => false

/-- The check value that the side-band keeps for a line while its bytes change unnoticed (R427): that of the bytes before.
A bank-written line has none (R347). -/
def State.keepCheck (s : State) (k line : Nat) : State :=
  let x := s.stack k
  if x.bankWritten.contains line || (lookupN x.checks line).isSome then s
  else
    let v := crc32c (s.mem.home.read (devKey k (line * 128)) 128)
    s.updStack k fun x => { x with checks := setN x.checks line v }

/-- Flips one bit of a byte in a store. -/
def Mem.flipBit (m : Mem) (a b : Nat) : Mem := m.set a (m.get a ^^^ BitVec.ofNat 8 (2 ^ b))

/-- Flips data bit d of a codeword where its array keeps it (R361): a register, team memory, the scratchpad, a tile, a
cached line, or DRAM. The other arrays' data are not part of the state. -/
def State.flipData (s : State) (kind unit addr d : Nat) : State :=
  let b := addr + d / 8
  let here (t : Team) : Bool := match t.place with | .core c .. => c == unit | .saved .. => false
  let word (w : W32) (base : Nat) : W32 := w ^^^ BitVec.ofNat 32 (2 ^ ((b - base) % 4 * 8 + d % 8))
  let reg (t : Team) : Team :=
    let i := (b - t.regBase) / 4
    if here t && decide (t.regBase ≤ b) && decide (i < t.groups.length * 32 * t.nregs) then
      let lane (l : Lane) : Lane := { l with regs := l.regs.modify (i % t.nregs) (word · t.regBase) }
      { t with groups := t.groups.modify (i / t.nregs / 32) fun g => { g with lanes := g.lanes.modify (i / t.nregs % 32) lane } }
    else t
  let mem (t : Team) : Team :=
    if here t && decide (t.memBase ≤ b) && decide (b < t.memBase + t.shared + 16 * t.spillUnits * t.groups.length) then
      { t with local_ := { t.local_ with bytes := t.local_.bytes.flipBit (b - t.memBase) (d % 8) } }
    else t
  let pad (g : Gang) : Gang :=
    let a := unit % 128 * 2 ^ 19 + b
    if g.cluster / 4 == unit / 128 && decide (g.base ≤ a) && decide (a < g.base + g.scratch) then
      { g with local_ := { g.local_ with bytes := g.local_.bytes.flipBit (a - g.base) (d % 8) } }
    else g
  let tile (t : Team) : Team :=
    if here t && decide (t.tileBase ≤ b / 8192) && decide (b / 8192 < t.tileBase + t.ntiles) then
      let elem (x : Tile) : Tile := { x with elems := x.elems.modify (b % 8192 / 4) (word · (b / 4 * 4)) }
      { t with tiles := t.tiles.modify (b / 8192 - t.tileBase) elem }
    else t
  match kind with
  | 0 => { s with teams := s.teams.map reg }
  | 1 => { s with teams := s.teams.map mem }
  | 2 => { s with gangs := s.gangs.map pad }
  | 3 => { s with teams := s.teams.map tile }
  | 5 =>
    let hits := (s.stack unit).cache.filter fun c => cacheAddr (c.line * 128) / 128 == b / 128
    hits.foldl (fun (s : State) c =>
      let s := s.keepCheck unit c.line
      { s with mem := { s.mem with home := s.mem.home.flipBit (devKey unit (c.line * 128 + b % 128)) (d % 8) } }) s
  | 6 =>
    let k := unit / 256
    let s := if (s.stack k).dirty (b / 128) then s else s.keepCheck k (b / 128)
    let m := s.mem
    let home := if ((s.stack k).cached (b / 128)).isSome then m.home else m.home.flipBit (devKey k b) (d % 8)
    { s with mem := { m with dram := m.dram.flipBit (devKey k b) (d % 8), home := home } }
  | _ => s

/-- Flips bits of a stored codeword (R358, R403). The flips that a read will not know of go into the data, so that what is
kept beside the data is what a read finds. DEDUCED (notes/assumptions/25). -/
def State.addFlips (s : State) (kind unit addr : Nat) (bits : List Nat) : State :=
  let all := xorBits (s.flipsAt kind unit addr) bits
  let known := knownFlips (kind == 6) all
  (xorBits all known).foldl (fun s b =>
    if b < (if kind = 6 then 256 else 64) then s.flipData kind unit addr b else s) (s.setFlips kind unit addr known)

/-- The codewords of 8 bytes that a range touches. -/
def codewords (addr n : Nat) : List Nat :=
  if n = 0 then [] else (List.range ((addr + n - 1) / 8 - addr / 8 + 1)).map fun i => (addr / 8 + i) * 8

/-- Reads one SRAM codeword's check (R358): logs an error; true when it is uncorrectable. -/
def State.sramCheck (s : State) (kind unit ctx addr : Nat) : State × Bool :=
  let syn := sramSyndrome (s.flipsAt kind unit addr)
  if syn = 0 then (s, false)
  else
    let ue := !sramCorrectable syn
    (s.logSram kind unit ue ctx syn addr, ue)

/-- Reads a range of an SRAM array: the bad codewords. -/
def State.sramRead (s : State) (kind unit ctx addr n : Nat) : State × List Nat :=
  (codewords addr n).foldl (fun r a =>
    let c := r.1.sramCheck kind unit ctx a
    (c.1, if c.2 then r.2 ++ [a] else r.2)) (s, [])

/-- Writes a range of an SRAM array (R358, R376): a whole codeword is stored clean, a partial write corrects what it can,
and an armed injection flips bits of the first codeword written. `read` says that the same access has read the range, and so
has logged its errors (R361). -/
def State.sramWrite (s : State) (kind unit ctx addr n : Nat) (read : Bool := false) : State :=
  let clean := (codewords addr n).foldl (fun s a =>
    if addr ≤ a ∧ a + 8 ≤ addr + n then s.setFlips kind unit a []
    else
      let syn := sramSyndrome (s.flipsAt kind unit a)
      let c := if read then (s, syn != 0 && !sramCorrectable syn) else s.sramCheck kind unit ctx a
      if c.2 then c.1 else c.1.setFlips kind unit a []) s
  if n = 0 then clean else
  match clean.mem.injects.find? fun j => j.kind == kind && j.unit == unit with
  | none => clean
  | some j =>
    let a := addr / 8 * 8
    let flipped := clean.addFlips kind unit a j.bits
    let left := flipped.mem.injects.filter fun j => !(j.kind == kind && j.unit == unit)
    { flipped with mem := { flipped.mem with injects := left } }

-- layout of local memory

/-- Z, the bytes of a spill area (R223). -/
def Team.spillZ (t : Team) : Nat := 16 * t.spillUnits

/-- Base of the spill area of a home group (R224). -/
def Team.spillBase (t : Team) (home : Nat) : Nat := t.shared + t.spillZ * home

/-- Top of the spill area of a home group: where `$spill` starts (R31). -/
def Team.spillTop (t : Team) (home : Nat) : Nat := t.spillBase home + t.spillZ

/-- Zl, the depth of a lane's stack (R224). -/
def Team.spillDepth (t : Team) : Nat := 16 * (t.spillUnits / 32)

/-- Whether `n` bytes at a stack address are usable (R224). -/
def Team.spillOk (t : Team) (tid : Nat) (a : Int) (n : Nat) : Bool :=
  let top : Int := t.spillTop (tid / 32)
  decide (top - t.spillDepth ≤ a) && decide (a + n ≤ top)

/-- Team address of a byte of a lane's stack (R224). -/
def Team.spillAddr (t : Team) (tid a : Nat) : Nat :=
  let home := tid / 32
  let w := (a - (t.spillTop home - t.spillDepth)) / 4
  t.spillBase home + 4 * (32 * w + tid % 32) + a % 4

/-- Whether `n` bytes at an address lie in the grant of a space (R221, R222, R224). -/
def State.granted (s : State) (t : Team) (tid : Nat) (spc : Space) (a : Int) (n : Nat) : Bool :=
  match spc with
  | .sh => decide (0 ≤ a) && decide (a + n ≤ t.shared)
  | .sc => match s.gang? t.gang with
    | some g => decide (0 ≤ a) && decide (a + n ≤ g.scratch)
    | none => false
  | .sp => t.spillOk tid a n
  | .mm => false

/-- The local memory that a space of a team lies in: the scratchpad, or team memory with the spill areas. -/
def State.localOf (s : State) (t : Team) (spc : Space) : LocalMem :=
  match spc with
  | .sc => match s.gang? t.gang with
    | some g => g.local_
    | none => t.local_
  | _ => t.local_

/-- Changes the local memory of a space of a team. -/
def State.updLocal (s : State) (team : Nat) (spc : Space) (f : LocalMem → LocalMem) : State :=
  match spc with
  | .sc => match s.team? team with
    | some t => s.updGang t.gang fun g => { g with local_ := f g.local_ }
    | none => s
  | _ => s.updTeam team fun t => { t with local_ := f t.local_ }

/-- Array, unit and address of a byte of local memory (R225, R361). -/
def State.localArray (s : State) (t : Team) (spc : Space) (addr : Nat) : Nat × Nat × Nat :=
  match spc with
  | .sc => match s.gang? t.gang with
    | some g =>
      let d := g.base + addr
      (2, 128 * (g.cluster / 4) + d / 2 ^ 19, d % 2 ^ 19)
    | none => (2, 0, 0)
  | _ => (1, t.core, t.memBase + addr)

-- lines

/-- The 128-byte lines a range touches. -/
def linesOf (addr n : Nat) : List Nat :=
  if n = 0 then [] else (List.range ((addr + n - 1) / 128 - addr / 128 + 1)).map fun i => addr / 128 + i

/-- What a line carries; nothing where it is not listed. -/
def LocalMem.line (m : LocalMem) (n : Nat) : LineState :=
  (m.lines.find? fun l => l.line == n).getD { line := n, pending := 0, lease := none }

/-- Stores a line's state; a line that carries nothing is not listed. -/
def LocalMem.setLine (m : LocalMem) (l : LineState) : LocalMem :=
  let rest := m.lines.filter fun x => x.line != l.line
  { m with lines := if l.pending = 0 ∧ l.lease = none then rest else l :: rest }

/-- A leased line whose lease has run out (R274). -/
def LineState.expired (l : LineState) (now : W64) : Bool :=
  match l.lease with
  | some x => x.expired || decide (x.expiry ≤ now)
  | none => false

/-- Presence (R227, R274). -/
def LineState.present (l : LineState) (now : W64) : Bool := l.pending == 0 && !l.expired now

/-- Whether every line of a range is present. -/
def LocalMem.present (m : LocalMem) (now : W64) (addr n : Nat) : Bool := (linesOf addr n).all fun l => (m.line l).present now

/-- Raises the pending count of lines, cancelling their leases (R227, R274). -/
def LocalMem.raise (m : LocalMem) (ls : List Nat) : LocalMem :=
  ls.foldl (fun m n => m.setLine { line := n, pending := (m.line n).pending + 1, lease := none }) m

/-- Lowers the pending count of lines (R227). -/
def LocalMem.lower (m : LocalMem) (ls : List Nat) : LocalMem :=
  ls.foldl (fun m n => let l := m.line n; m.setLine { l with pending := l.pending - 1 }) m

/-- Whether raising the count of a line is held at issue (R227). -/
def LocalMem.full (m : LocalMem) (ls : List Nat) : Bool := ls.any fun n => 15 ≤ (m.line n).pending

-- monitors

/-- Fires the monitors of local words that a write of `n` bytes overlaps (R247). -/
def Monitor.fireLocal (m : Monitor) (spc : Space) (addr n : Nat) : Monitor :=
  match m.unit with
  | .word spc' a => if spc' = spc ∧ a < addr + n ∧ addr < a + 8 then { m with fired := true } else m
  | .main .. => m

def Lane.fireLocal (l : Lane) (spc : Space) (addr n : Nat) : Lane :=
  { l with monitor := l.monitor.map fun m => m.fireLocal spc addr n }

def Team.mapLanes (t : Team) (f : Lane → Lane) : Team :=
  { t with groups := t.groups.map fun g => { g with lanes := g.lanes.map f } }

/-- A write to local memory as the monitors and spinning entries see it (R165, R247): a scratchpad word is seen by every
team of the gang. `by_` is the writing lane's team and entry mask, so that a bundle does not end its own demotion. -/
def State.localWritten (s : State) (team : Nat) (spc : Space) (addr n : Nat) (skip : Option (Nat × Nat × Nat)) : State :=
  let gang := match s.team? team with | some t => t.gang | none => 0
  let ids := (linesOf addr n).map fun l => if spc = .sc then LineId.scratch gang l else LineId.shared team l
  let endSpin (tid : Nat) (gi : Nat) (e : Entry) : Entry :=
    if skip = some (tid, gi, e.mask.toNat) then e
    else if e.spin.since.isSome && e.spin.lines.any (fun l => ids.contains l) then
      { e with spin := { e.spin with since := none, taken := 0, quiet := 0, lines := [] } }
    else e
  let sees (id : Nat) : Bool := if spc = .sc then (match s.team? id with | some t => t.gang == gang | none => false)
    else id == team
  { s with
    teams := s.teams.map fun t =>
      if (if spc = .sc then t.gang == gang else t.id == team) then
        let t := t.mapLanes fun l => l.fireLocal spc addr n
        { t with groups := t.groups.zipIdx.map fun (g, gi) => { g with entries := g.entries.map (endSpin t.id gi) } }
      else t,
    regroup := s.regroup.map fun r =>
      if sees r.team then { r with lanes := r.lanes.map fun h => { h with lane := h.lane.fireLocal spc addr n } } else r }

/-- Writes bytes of local memory at one instant (R240): the bytes, the array's check bits, the monitors. `read` says that
the same access has read them. -/
def State.localWrite (s : State) (team : Nat) (spc : Space) (addr : Nat) (data : List Byte)
    (skip : Option (Nat × Nat × Nat) := none) (read : Bool := false) : State :=
  match s.team? team with
  | none => s
  | some t =>
    let (kind, unit, a) := s.localArray t spc addr
    let s := s.updLocal team spc fun m => { m with bytes := m.bytes.write addr data }
    let s := s.sramWrite kind unit (s.ctxOf t) a data.length read
    s.localWritten team spc addr data.length skip

/-- Reads bytes of local memory: the bytes, and the failing codeword's selector when one is uncorrectable (R358). -/
def State.localRead (s : State) (team : Nat) (spc : Space) (addr n : Nat) : State × List Byte × Option Nat :=
  match s.team? team with
  | none => (s, List.replicate n 0, none)
  | some t =>
    let (kind, unit, a) := s.localArray t spc addr
    let (s, bad) := s.sramRead kind unit (s.ctxOf t) a n
    (s, (s.localOf t spc).bytes.read addr n, if bad.isEmpty then none else some (selectorOf kind unit))

/-- The word that stands for poison in memory (R360). -/
def poisonWord : W32 := 0x7FC0005A

/-- Reads bytes of local memory for an engine or unit: bytes of an uncorrectable codeword read as poison words (R360);
the selector when there is one. -/
def State.unitRead (s : State) (team : Nat) (spc : Space) (addr n : Nat) : State × List Byte × Option Nat :=
  match s.team? team with
  | none => (s, List.replicate n 0, none)
  | some t =>
    let (kind, unit, a) := s.localArray t spc addr
    let (s, bad) := s.sramRead kind unit (s.ctxOf t) a n
    let bytes := (s.localOf t spc).bytes.read addr n
    let bytes := if bad.isEmpty then bytes else
      bytes.zipIdx.map fun (b, i) => if bad.contains ((a + i) / 8 * 8) then byteOf poisonWord ((a + i) % 4) else b
    (s, bytes, if bad.isEmpty then none else some (selectorOf kind unit))

/-- The parts of a stack range that lie together in one 4-byte word of team memory: address and length. -/
def stackParts (a : Nat) : Nat → Nat → List (Nat × Nat)
  | 0, _ => []
  | k + 1, n =>
    if n = 0 then [] else
    let m := min (4 - a % 4) n
    (a, m) :: stackParts (a + m) k (n - m)

/-- Bytes of a lane's stack (R224), word by word: the accesses of R358 are made where each word lies. -/
def State.stackRead (s : State) (t : Team) (tid a n : Nat) : State × List Byte × Option Nat :=
  (stackParts a n n).foldl (fun r p =>
    let x := r.1.localRead t.id .sp (t.spillAddr tid p.1) p.2
    (x.1, r.2.1 ++ x.2.1, match r.2.2 with | some e => some e | none => x.2.2)) (s, [], none)

/-- The stack bytes that lie together in one 4-byte word of team memory: where the word's bytes start, and how many. -/
def stackChunks (a : Nat) : Nat → List Byte → List (Nat × List Byte)
  | 0, _ => []
  | _, [] => []
  | k + 1, bs =>
    let n := min (4 - a % 4) bs.length
    (a, bs.take n) :: stackChunks (a + n) k (bs.drop n)

/-- Writes bytes of a lane's stack (R224). -/
def State.stackWrite (s : State) (t : Team) (tid a : Nat) (data : List Byte) : State :=
  (stackChunks a data.length data).foldl (fun s c => s.localWrite t.id .sp (t.spillAddr tid c.1) c.2) s

-- the port

/-- A local atomic (R245): the new value. -/
def localAtomic (op : BitVec 3) (w : Nat) (o b c : Nat) : Nat :=
  match op.toNat with
  | 0 => (o + b) % 2 ^ w
  | 1 => b
  | 2 => if o = c then b else o
  | 3 => min o b
  | 4 => max o b
  | 5 => o &&& b
  | 6 => o ||| b
  | _ => o ^^^ b

/-- The registers that the bytes of a loaded unit go to (R241, R242): 8- and 16-bit values are extended. -/
def unitRegs (reg : Nat) (bytes : List Byte) (sx : Bool) : List (Nat × W32) :=
  if bytes.length ≤ 4 then
    let w := 8 * bytes.length
    let v := BitVec.ofNat 64 (ofBytes bytes)
    [(reg, if sx then BitVec.ofInt 32 (sextTo w v) else BitVec.ofNat 32 v.toNat)]
  else (wordsOfBytes (bytes.length / 4) bytes).zipIdx.map fun (w, i) => (reg + i, w)

/-- Replaces the value of registers among a result's writes, or adds them. -/
def putWrites (ws : List (Nat × W32)) (new : List (Nat × W32)) : List (Nat × W32) :=
  (ws.filter fun p => !(new.any fun q => q.1 == p.1)) ++ new

/-- A part of a lane's result arrives from the port. -/
def Result.arrive (r : Result) (ws : List (Nat × W32)) (trap : Option TrapInfo) : Result :=
  let left := match r.need with | .port k => k - 1 | _ => 0
  { r with writes := putWrites r.writes ws, trap := (match r.trap with | some t => some t | none => trap),
           need := if left = 0 then .formed else .port left }

/-- Changes one result of a lane. -/
def Lane.updResult (l : Lane) (num : Nat) (f : Result → Result) : Lane :=
  { l with results := l.results.map fun r => if r.num = num then f r else r }

/-- The lines an access waits for, in its space. -/
def PortAct.lines : PortAct → List (Space × Nat)
  | .load p .. | .store p _ | .atom p .. => (linesOf p.addr p.bytes).map fun n => (p.space, n)
  | .scatter es _ => es.flatMap fun (p, _) => (linesOf p.addr p.bytes).map fun n => (p.space, n)

/-- The trap that a failing local read gives its result (R358, R440). -/
def memError (sel addr : Nat) (pc : VAddr) : TrapInfo :=
  { code := 0x18, info0 := BitVec.ofNat 64 sel, info1 := BitVec.ofNat 64 addr, opc := pc, rpt := false, multi := false }

/-- The marks of a lane that a read of `n` bytes meets (R316), the oldest first. -/
def LocalMem.marksAt (m : LocalMem) (tid addr n : Nat) : List SlotMark :=
  m.marks.filter fun k => k.tid == tid && decide (k.first < addr + n) && decide (addr < k.first + k.len)

/-- Clears marks. -/
def LocalMem.dropMarks (m : LocalMem) (ks : List SlotMark) : LocalMem :=
  { m with marks := m.marks.filter fun k => !ks.contains k }

/-- The trap a mark gives the read that meets it (R316, R404). -/
def SlotMark.trap (k : SlotMark) : TrapInfo :=
  { code := k.code, info0 := k.info0, info1 := BitVec.ofNat 64 k.slot, opc := k.opc, rpt := false, multi := false }

/-- Reads a marked range: a mark is delivered to its first read by its lane and cleared (R316). Of several marks that one
read meets its result carries the oldest. DESIGN CHOICE (notes/assumptions/62). -/
def State.takeMark (s : State) (team tid : Nat) (p : Place) : State × Option TrapInfo :=
  if p.space = .sp then (s, none) else
  match s.team? team with
  | none => (s, none)
  | some t =>
    match (s.localOf t p.space).marksAt tid p.addr p.bytes with
    | [] => (s, none)
    | k :: ks => (s.updLocal team p.space fun m => m.dropMarks (k :: ks), some k.trap)

/-- Sets the late trap of an `atomc` (R440), delivered at the next run end. DEDUCED (notes/assumptions/19). Of two errors of a
lane before one run end the first stands, and the second is dropped. DESIGN CHOICE (notes/assumptions/68). -/
def Lane.setLate (l : Lane) (t : TrapInfo) : Lane := { l with late := match l.late with | some x => some x | none => some t }

/-- The bundle of a lane, so that its own store does not end its spin demotion (R165). -/
def State.bundleMask (s : State) (team tid : Nat) : Option (Nat × Nat × Nat) :=
  match (s.team? team).bind fun t => t.find tid with
  | none => none
  | some (gi, si, _) =>
    match (s.group? team gi).bind fun g => g.entries.find? fun e => e.mask.getLsbD si with
    | some e => some (team, gi, e.mask.toNat)
    | none => none

/-- Drops the leases of the lines that a lane's write touches (R274). -/
def LocalMem.unlease (m : LocalMem) (addr n : Nat) : LocalMem :=
  (linesOf addr n).foldl (fun m k => m.setLine { m.line k with lease := none }) m

/-- A write of a lane is complete at this instant: its CT rises to it (R266, R267). -/
def State.credit (s : State) (team tid : Nat) : State :=
  let now := match s.team? team with | some t => s.timeAt t.core | none => s.time.now
  s.updTid team tid fun l => { l with ct := if l.ct < now then now else l.ct }

/-- A lane's write to local memory; its completion time is this instant (R266, R267). `read` says that the access has read the
bytes. An atomic cancels a lease as a store does (R274). DESIGN CHOICE (notes/assumptions/62). -/
def State.laneWrite (s : State) (h : Held) (p : Place) (data : List Byte) (read : Bool := false) : State :=
  let s := s.credit h.team h.tid
  (s.updLocal h.team p.space fun m => m.unlease p.addr p.bytes).localWrite h.team p.space p.addr data
    (s.bundleMask h.team h.tid) read

/-- Gives a lane an error that comes after its word (R440); that of a lane that is gone only goes into the error log. -/
def State.lateError (s : State) (team tid : Nat) (x : TrapInfo) : State :=
  let held := s.regroup.any fun r => r.team == team && r.lanes.any fun h => h.lane.tid == tid
  match s.team? team with
  | some t =>
    if (t.find tid).isSome || held then s.updTid team tid fun l => l.setLate x
    else s.updTeam team fun t => { t with orphans := t.orphans ++ [(tid, x)] }
  | none => s

/-- Reads the range of an access: the bytes, the trap of a mark or of an uncorrectable codeword, and whether there is such a
codeword (R316, R358). A mark is told before it. DESIGN CHOICE (notes/assumptions/62). -/
def State.readPlace (s : State) (h : Held) (p : Place) : State × List Byte × Option TrapInfo × Bool :=
  let (s, bytes, bad) := s.localRead h.team p.space p.addr p.bytes
  let (s, mark) := s.takeMark h.team h.tid p
  match mark with
  | some t => (s, bytes, some t, bad.isSome)
  | none => (s, bytes, bad.map fun sel => memError sel p.addr h.pc, bad.isSome)

/-- Performs an access whose lines are present, at one instant (R240, R241, R242, R244, R440). -/
def State.perform (s : State) (h : Held) : State :=
  match h.act with
  | .load p reg sx res =>
    let (s, bytes, trap, _) := s.readPlace h p
    s.updLane h.team h.group h.slot fun l => l.updResult res fun r => r.arrive (unitRegs reg bytes sx) trap
  | .store p data => s.laneWrite h p data
  | .scatter es tids => es.foldl (fun s (p, data) => s.laneWrite h p data) (tids.foldl (fun s k => s.credit h.team k) s)
  | .atom p op b c ret =>
    let (s, bytes, trap, bad) := s.readPlace h p
    let w := 8 * p.bytes
    let o := ofBytes bytes
    let s := if bad then s
      else s.laneWrite h p (bytesOf p.bytes (localAtomic op w o (b.toNat % 2 ^ w) (c.toNat % 2 ^ w))) true
    match ret with
    | some (res, reg) =>
      s.updLane h.team h.group h.slot fun l => l.updResult res fun r => r.arrive (unitRegs reg bytes false) trap
    | none => match trap with
      | some t => s.lateError h.team h.tid { t with rpt := true }
      | none => s

/-- The local memory and owner that a held access of a team lies in: the gang's for the scratchpad. -/
def PortAct.space : PortAct → Space
  | .load p .. | .store p _ | .atom p .. => p.space
  | .scatter es _ => match es with | (p, _) :: _ => p.space | [] => .sh

/-- Starts the refetch of an expired leased line (R274): an engine operation that brings it again. -/
def State.startRefetch (s : State) (team : Nat) (spc : Space) (line : Nat) : State :=
  match s.team? team with
  | none => s
  | some t =>
    let l := (s.localOf t spc).line line
    match l.lease with
    | none => s
    | some x =>
      let (num, s) := s.fresh
      let s := s.updLocal team spc fun m => m.setLine { l with pending := 1, lease := some { x with expired := true } }
      let op : EngOp :=
        { num := num, kind := .refetch line, owner := .lane, team := team, group := 0, tid := 0, pc := 0, core := x.core,
          ctx := x.ctx, acq := 0, sp := spc, evp := x.evp, lu := false, lease := some x.ld, phase := .issued,
          wait := none, after := [], left := 0, time := 0 }
      { s with ops := s.ops ++ [op] }

/-- Starts refetches of the expired lines among those an access waits for. -/
def State.refetchLines (s : State) (team : Nat) (ls : List (Space × Nat)) : State :=
  ls.foldl (fun s (spc, n) =>
    match s.team? team with
    | none => s
    | some t =>
      let l := (s.localOf t spc).line n
      if l.pending == 0 && l.expired (s.timeAt t.core) then s.startRefetch team spc n else s) s

/-- Whether every line an access waits for is present. -/
def State.linesPresent (s : State) (team : Nat) (ls : List (Space × Nat)) : Bool :=
  match s.team? team with
  | none => false
  | some t => ls.all fun (spc, n) => spc == .sp || ((s.localOf t spc).line n).present (s.timeAt t.core)

/-- Whether a team is saved. -/
def State.isAway (s : State) (team : Nat) : Bool := match s.team? team with | some t => !t.resident | none => false

/-- Goes through held accesses in order of issue: performs each whose lines are present and that no earlier one still held
stands before on a line (R228, R240). `kept` and `blocked` are the accesses that stay and their lines. A store or scatter held
on an expired line starts a refetch as a load does (R274). DESIGN CHOICE (notes/assumptions/62). Those of a saved team wait
for its restore (R75). -/
def State.drainList (s : State) : List Held → List Held → List (Space × Nat) → State × List Held
  | [], kept, _ => (s, kept)
  | h :: hs, kept, blocked =>
    let ls := h.act.lines
    if s.isAway h.team then s.drainList hs (kept ++ [h]) blocked
    else if !ls.any (fun l => blocked.contains l) && s.linesPresent h.team ls then
      (s.perform h).drainList hs kept blocked
    else
      let s := if ls.any (fun l => blocked.contains l) then s else s.refetchLines h.team ls
      s.drainList hs (kept ++ [h]) (blocked ++ ls)

/-- Performs what can be performed of the accesses held at a space of a team. -/
def State.drain (s : State) (team : Nat) (spc : Space) : State :=
  match s.team? team with
  | none => s
  | some t =>
    let m := s.localOf t spc
    let (s, kept) := s.drainList m.held [] []
    s.updLocal team spc fun m => { m with held := kept }

/-- Issues an access to the port: it is performed at once when nothing holds it (R228). DEDUCED
(notes/assumptions/58). -/
def State.issueLocal (s : State) (h : Held) : State :=
  let spc := h.act.space
  (s.updLocal h.team spc fun m => { m with held := m.held ++ [h] }).drain h.team spc

/-- Raises the pending counts of the lines of a range (R227). -/
def State.raiseLines (s : State) (team : Nat) (spc : Space) (ls : List Nat) : State :=
  s.updLocal team spc fun m => m.raise ls

/-- Lowers pending counts and performs what the lines' presence frees (R227, R228); a line that a leased copy has filled takes
its lease (R272). -/
def State.lowerLines (s : State) (team : Nat) (spc : Space) (ls : List Nat) (lease : Option LineLease := none) : State :=
  let grant (m : LocalMem) : LocalMem := match lease with
    | some x => ls.foldl (fun m n => m.setLine { m.line n with lease := some x }) m
    | none => m
  (s.updLocal team spc fun m => grant (m.lower ls)).drain team spc

/-- An engine's or unit's bytes land in local memory (R227). A saved team's are kept for its restore (R318, R364). -/
def State.land (s : State) (team : Nat) (spc : Space) (addr : Nat) (data : List Byte) (retire : List Nat)
    (mark : Option SlotMark := none) (lease : Option LineLease := none) : State :=
  match s.team? team with
  | none => s
  | some t =>
    let away := !t.resident || (spc == .sc && (match s.gang? t.gang with | some g => g.savedWhole | none => true))
    if away then
      s.updTeam team fun t => { t with lateWrites := t.lateWrites ++
        [{ space := spc, addr := addr, data := data, retire := retire, mark := mark, lease := lease }] }
    else
      let s := if data.isEmpty then s else s.localWrite team spc addr data
      let s := match mark with
        | some k => s.updLocal team spc fun m => { m with marks := m.marks ++ [k] }
        | none => s
      s.lowerLines team spc retire lease

end Sys2Proof.Machine
end

