-- ==== Sys2Proof/Machine/Home.lean ====
section
/-! DEFINITION. Device memory at its homes (R233, R235, R264): reads with the errors of stack cache and DRAM (R358,
R360, R403, R428), writes with grain tags (R236), the dirty log (R269), code lines (R281), poison (R360) and monitors
(R247), writes held for leases (R273), write-back (R268), and the integrity log (R429-R431). -/
namespace Sys2Proof.Machine

-- the host's answers

/-- What is recorded of an agent (R415). -/
def State.agent (s : State) (d : Nat) : Agent := s.fabric.agents.getD d { inc := 0, state := 0, beat := 0 }

/-- Whether an agent is dead (R423). DEDUCED (notes/assumptions/36). -/
def State.deadAgent (s : State) (d : Nat) : Bool := match s.fabric.agents[d]? with
  | some a => a.state == 3
  | none => false

/-- Whether the host answers an access to its memory with an HHL error response (R382). -/
def State.hostRefuses (s : State) (a n : Nat) : Bool :=
  s.mem.hostErr.any fun u => decide (a < 4096 * u + 4096) && decide (4096 * u < a + n)

/-- Whether an access to host memory is performed: the host is alive and gives no error response (R382, R424). -/
def State.hostAnswers (s : State) (a n : Nat) : Bool := !s.deadAgent 64 && !s.hostRefuses a n

/-- The frame number from which frames of a target and device count in a stack's publication state: its own memory first, then
host memory, then each peer's. -/
def frameBase (tgt dev : Nat) : Nat := match tgt with
  | 0 => 0
  | 1 => 2 ^ 32
  | _ => 2 ^ 33 + dev * 2 ^ 32

/-- A written line of a code frame becomes PENDING (R281). -/
def Stack.unpublish (x : Stack) (line : Nat) : Stack :=
  if x.codeFrames.contains (line * 128 / 2 ^ 16) then { x with pubs := setN x.pubs line .pending } else x

/-- Writes host memory over HHL: lines of code frames become PENDING, whatever the writer (R281). -/
def State.hostPut (s : State) (a : Nat) (data : List Byte) : State :=
  { s with mem := { s.mem with host := FarMem.write s.mem.host a data } }.updStack 0 fun x =>
    (linesOf a data.length).foldl (fun (x : Stack) l => x.unpublish (frameBase 1 0 * 512 + l)) x

-- integrity log

/-- An entry that is not written is counted, saturating (R431, R438). -/
def IntegrityLog.missed (x : IntegrityLog) : IntegrityLog :=
  { x with drop := if x.drop = 0xFFFFFFFF then x.drop else x.drop + 1 }

/-- Adds an entry to the integrity log (R429, R431): in host memory, ILIDX following once the release at system scope is
over; or only counted, while the log is disabled or the host does not take the write. -/
def State.integrity (s : State) (agent kind line inc port : Nat) : State :=
  let x := s.ilog
  let at_ := x.base.toNat + 32 * ((x.idx.toNat + x.due.length) % 2 ^ x.log2)
  if x.log2 = 0 || !s.hostAnswers at_ 32 then { s with ilog := x.missed }
  else
    let entry := bytesOf 8 s.time.now.toNat ++ bytesOf 8 (kind + 256 * agent) ++ bytesOf 8 (line % 2 ^ 48) ++
      bytesOf 8 (port + 256 * inc)
    let s := s.hostPut at_ entry
    { s with ilog := { x with due := x.due ++ [s.time.now + BitVec.ofNat 64 (s.margin .system)] } }

/-- ILIDX after the releases that are over at a time (R429). -/
def IntegrityLog.advance (x : IntegrityLog) (now : W64) : IntegrityLog :=
  let k := (x.due.takeWhile fun t => decide (t ≤ now)).length
  { x with idx := x.idx + BitVec.ofNat 32 k, due := x.due.drop k }

-- errors of a line

/-- Selector unit of the DRAM bank of a stack-physical address (R346, R361). -/
def bankUnit (k spa : Nat) : Nat := 256 * k + 16 * (spa / 2 ^ 11 % 16) + spa / 2 ^ 15 % 16

/-- A record of a DRAM bank register (R346). -/
def bankRecord (ctx syn spa : Nat) : W64 :=
  BitVec.ofNat 64 (2 ^ 63 + ctx % 2 ^ 16 * 2 ^ 46 + syn % 1024 * 2 ^ 36 + spa / 32 % 4 * 2 ^ 34 + spa / 128 % 16 * 2 ^ 30 +
    spa / 2 ^ 19 % 2 ^ 20 * 2 ^ 10)

/-- Logs a DRAM error (R346, R361): a held record is uncorrectable when its syndrome says so (R403). -/
def State.logDram (s : State) (k spa ctx syn : Nat) : State :=
  let sel := selectorOf 6 (bankUnit k spa)
  let old := s.errLog sel
  s.setErrLog sel (logUpdate old (bankRecord ctx syn spa) (!dramCorrectable (fieldN old.toNat 45 36)) (!dramCorrectable syn))

/-- Checks one DRAM codeword of 32 bytes (R403): logs an error; true when it is uncorrectable. -/
def State.dramCheck (s : State) (k ctx spa : Nat) : State × Bool :=
  let syn := dramSyndrome (s.flipsAt 6 (bankUnit k spa) spa)
  if syn = 0 then (s, false) else (s.logDram k spa ctx syn, !dramCorrectable syn)

/-- The error state of one line as a read finds it: bad 4-byte words by number, and the selector of the array that
recorded an error. -/
structure LineErr where
  words : List Nat
  sel : Option Nat
  deriving DecidableEq, Repr

/-- Takes a clean line out of the stack cache: its home is the DRAM again. -/
def State.dropClean (s : State) (k line : Nat) : State :=
  if ((s.stack k).cached line).isNone then s else
  let a := devKey k (line * 128)
  let s := { s with mem := { s.mem with home := s.mem.home.write a (s.mem.dram.read a 128) } }
  let s := (List.range 16).foldl (fun s j => s.setFlips 5 k (cacheAddr (line * 128 + 8 * j)) []) s
  s.updStack k fun x => { x with cache := x.cache.filter fun c => c.line != line }

/-- Checks the directory codeword of a line (R358), the 8 bytes at 8 times the line number of the directory array: the line of
a bad one is refetched when it is clean, else all of it is poison. DESIGN CHOICE (notes/assumptions/12). -/
def State.directoryError (s : State) (k line ctx : Nat) : State × LineErr :=
  let a := 8 * line
  let c := s.sramCheck 7 k ctx a
  if !c.2 then (c.1, { words := [], sel := none })
  else if (c.1.stack k).dirty line then (c.1, { words := List.range 32, sel := some (selectorOf 7 k) })
  else ((c.1.setFlips 7 k a []).dropClean k line, { words := [], sel := none })

/-- Checks the stack-cache and directory codewords of a line (R358): those of a clean line are refetched. -/
def State.cacheErrors (s : State) (k line ctx : Nat) : State × LineErr :=
  (List.range 16).foldl (fun r j =>
    if ((r.1.stack k).cached line).isNone then r else
    let a := cacheAddr (line * 128 + 8 * j)
    let c := r.1.sramCheck 5 k ctx a
    if !c.2 then (c.1, r.2)
    else if (c.1.stack k).dirty line then
      (c.1, { words := r.2.words ++ [2 * j, 2 * j + 1], sel := some (r.2.sel.getD (selectorOf 5 k)) })
    else (c.1.dropClean k line, r.2)) (s.directoryError k line ctx)

/-- Checks the DRAM codewords of a line. -/
def State.dramErrors (s : State) (k line ctx : Nat) : State × LineErr :=
  (List.range 4).foldl (fun r j =>
    let a := line * 128 + 32 * j
    let c := r.1.dramCheck k ctx a
    if c.2 then
      (c.1, { words := r.2.words ++ (List.range 8).map (8 * j + ·),
              sel := some (r.2.sel.getD (selectorOf 6 (bankUnit k a))) })
    else (c.1, r.2)) (s, { words := [], sel := none })

/-- Reads bytes with no checks: tables and tags read by the part itself. -/
def State.devPeek (s : State) (k spa n : Nat) : List Byte := s.mem.home.read (devKey k spa) n

def State.devWord (s : State) (k spa : Nat) : W64 := BitVec.ofNat 64 (ofBytes (s.devPeek k spa 8))

-- tags and logs

/-- The tag of a grain (R236): at power-on every grain reads WRITER 0xFFF, TIME 0. -/
def Stack.grain (x : Stack) (g : Nat) : GrainTag := (lookupN x.grains g).getD x.grainBase

/-- Sets the tag of a grain at a write, keeping its lease (R236, R272). -/
def Stack.tag (x : Stack) (g : Nat) (writer : BitVec 12) (time : W64) : Stack :=
  { x with grains := setN x.grains g { x.grain g with writer := writer, time := time } }

/-- Enters a line in the dirty log (R269). -/
def Stack.logLine (x : Stack) (line : Nat) (log : Option (Nat × Nat)) : Stack :=
  match log with
  | none => x
  | some (t, g) =>
    let e : LogEntry := { line := line, team := t, group := g }
    if x.log.contains e then x
    else if 4096 ≤ x.log.length then { x with logOver := true }
    else { x with log := x.log ++ [e] }

/-- Marks a line dirty in the stack cache with the EVP of the access (R235). -/
def Stack.soil (x : Stack) (line : Nat) (evp : BitVec 2) : Stack :=
  { x with cache := { line := line, dirty := true, evp := evp } :: x.cache.filter fun c => c.line != line }

/-- Gives a line of the stack cache the EVP of a read of it (R235). -/
def Stack.touch (x : Stack) (line : Nat) (evp : BitVec 2) : Stack :=
  { x with cache := { line := line, dirty := x.dirty line, evp := evp } :: x.cache.filter fun c => c.line != line }

/-- Fires the monitors of a main-memory line (R247), wherever its lanes' teams are. -/
def State.fireMain (s : State) (k iaLine : Nat) : State :=
  let hits := (s.stack k).watches.filter fun w => w.line == iaLine
  if hits.isEmpty then s else
  let s := s.updStack k fun x => { x with watches := x.watches.filter fun w => w.line != iaLine }
  let fire (m : Monitor) : Monitor := if m.unit = .main k iaLine then { m with fired := true } else m
  hits.foldl (fun s w => s.updTid w.team w.tid fun l => { l with monitor := l.monitor.map fire }) s

-- writes

/-- The bytes of a line that a partial write keeps, made poison where a codeword that the write does not cover whole is
uncorrectable (R360): bad words outside the written bytes. -/
def poisonOutside (bad : List Nat) (off n : Nat) : List Nat :=
  bad.filter fun w => !(decide (off ≤ 4 * w) && decide (4 * w + 4 ≤ off + n))

/-- Writes poison words of a line. -/
def State.putPoison (s : State) (k line : Nat) (words : List Nat) : State :=
  let put (m : Mem) (w : Nat) : Mem := m.write (devKey k (line * 128 + 4 * w)) (bytesOf 4 poisonWord.toNat)
  { s with mem := { s.mem with home := words.foldl put s.mem.home } }

/-- The codewords of a DRAM line as they are stored whole: errors there are gone, and an injection on the bank is applied
(R376, R403). -/
def State.storeDram (s : State) (k line : Nat) : State :=
  (List.range 4).foldl (fun s j =>
    let spa := line * 128 + 32 * j
    let u := bankUnit k spa
    let s := s.setFlips 6 u spa []
    match s.mem.injects.find? fun i => i.kind == 6 && i.unit == u with
    | none => s
    | some i =>
      let s := s.setFlips 6 u spa i.bits
      let left := s.mem.injects.filter fun i => !(i.kind == 6 && i.unit == u)
      { s with mem := { s.mem with injects := left } }) s

/-- Writes a dirty line back to DRAM (R268). The line stays cached and clean. What the stack cache cannot read right goes
out as poison (R358, R360). DEDUCED (notes/assumptions/52). -/
def State.writeBack (s : State) (k line : Nat) : State :=
  if !(s.stack k).dirty line then s else
  let a := devKey k (line * 128)
  let (s, e) := if (s.stack k).poison.contains line then (s, { words := [], sel := none }) else s.cacheErrors k line 0xFFFF
  let s := s.putPoison k line e.words
  let s := { s with mem := { s.mem with dram := s.mem.dram.write a (s.mem.home.read a 128) } }
  (s.storeDram k line).updStack k fun x =>
    { x with cache := x.cache.map fun c => if c.line = line then { c with dirty := false } else c,
             poison := if e.words.isEmpty then x.poison else line :: x.poison }

/-- Frees a line's place in the stack cache (R3, R235), which is its address in the array: the line that stands there, of the
stack's own memory or of a peer's, is written back when it is dirty, and leaves. A peer's home holds what is written to it
already. -/
def State.vacate (s : State) (k line : Nat) : State :=
  let place := cacheAddr (line * 128)
  let old := (s.stack k).cache.filter fun c => cacheAddr (c.line * 128) == place
  let s := old.foldl (fun (s : State) c => (s.writeBack k c.line).dropClean k c.line) s
  let s := s.updStack k fun x => { x with peerLines := x.peerLines.filter fun p => cacheAddr (p.line * 128) != place }
  (List.range 16).foldl (fun s j => s.setFlips 5 k (place + 8 * j) []) s

/-- A line takes its place in the stack cache. The codewords of a line that comes are fresh. -/
def State.allocLine (s : State) (k line : Nat) : State :=
  if ((s.stack k).cached line).isSome then s else s.vacate k line

/-- The time of a write as its grain's tag takes it (R236, R263): the issuing core's die, or the part's own. -/
def State.writerTime (s : State) (who : Writer) : W64 :=
  if who.writer.toNat < 0x200 then s.timeAt who.writer.toNat else s.time.now

/-- Invalidates a line in the private caches of the units of a stack (R268). -/
def State.dropUnitLine (s : State) (k line : Nat) : State :=
  s.updStack k fun x => { x with unitLines := x.unitLines.filter fun u => u.line != line }

/-- Whether a writer is the host or a peer (R236). -/
def Writer.outside (w : Writer) : Bool := decide (0x800 ≤ w.writer.toNat) && decide (w.writer.toNat < 0xA00)

/-- Stores bytes within one line at its home (R264, R236, R269, R281, R360, R427, R247). `bad` are the words that the line's
read found bad in codewords the bytes do not cover whole; `at_` is the completion time of a write that was held (R273). A
write from outside the part goes on to DRAM at once, as the release at system scope that its agent orders behind it needs
(R268, R411). DEDUCED (notes/assumptions/48). -/
def State.lineStore (s : State) (k spa : Nat) (data : List Byte) (who : Writer) (ia ctx : Nat) (evp : BitVec 2)
    (poison : Bool) (bad : List Nat) (at_ : Option W64) : State :=
  let line := spa / 128
  let n := data.length
  let whole := n == 128
  let marked := (s.stack k).poison.contains line
  let outside := poisonOutside bad (spa % 128) n
  let s := s.putPoison k line outside
  let s := s.allocLine k line
  let s := { s with mem := { s.mem with home := s.mem.home.write (devKey k spa) data } }
  let s := s.sramWrite 5 k ctx (cacheAddr spa) n true
  let s := s.sramWrite 7 k ctx (8 * line) 8
  let keep := (marked && !whole) || !outside.isEmpty || poison
  let time := at_.getD (s.writerTime who)
  let s := s.updStack k fun x =>
    let others := x.poison.filter (· != line)
    let x := { x with poison := if keep then line :: others else others,
                      checks := dropN x.checks line,
                      bankWritten := if whole then x.bankWritten.filter (· != line) else x.bankWritten,
                      sharers := x.sharers.filter fun h => h.line != line }
    (((x.soil line evp).logLine line who.log).unpublish line).tag (spa / 512) who.writer time
  let s := if who.outside then (s.writeBack k line).dropUnitLine k line else s
  s.fireMain k (ia / 128)

/-- A write of the host to device memory has been performed now (R409, R411). -/
def State.hostWrote (s : State) : State := { s with hpub := { s.hpub with ct := some s.time.now } }

/-- Recalls a line from the agent that holds it modified (R410): its copy is written back, and the agent keeps a copy that
is not modified. -/
def State.recall (s : State) (k line : Nat) : State :=
  match (s.stack k).sharers.find? fun h => h.line == line && h.modified with
  | none => s
  | some h =>
    let who : Writer := { writer := BitVec.ofNat 12 (if h.agent = 64 then 0x800 else 0x900 + h.agent), log := none }
    let s := s.lineStore k (line * 128) h.data who h.ia 0xFFFF 0 false [] none
    let s := if h.agent = 64 then s.hostWrote else s
    s.updStack k fun x => { x with sharers := { h with modified := false, data := [] } :: x.sharers }

/-- Whether a line's check value is not that of its bytes (R428). -/
def State.checkFails (s : State) (k line : Nat) : Bool :=
  match lookupN (s.stack k).checks line with
  | some v => v != crc32c (s.mem.home.read (devKey k (line * 128)) 128)
  | none => false

/-- Checks a line as a read of its home does (R358, R360). `exits` says that the line leaves the stack by a path on which
a bank-written line is given its check value (R347); `hops`, that it leaves by one on which the value is tested, as it is when
the line comes into the stack cache (R428). -/
def State.lineErrors (s : State) (k line ctx ia : Nat) (exits : Bool) (hops : Bool := exits) : State × LineErr :=
  let s := s.recall k line
  let marked := (s.stack k).poison.contains line
  let (s, e) := if marked then (s, { words := List.range 32, sel := none }) else s.cacheErrors k line ctx
  let comes := !marked && ((s.stack k).cached line).isNone
  let (s, e) := if !comes then (s, e)
    else
      let (s, d) := s.dramErrors k line ctx
      (s, { words := e.words ++ d.words, sel := match e.sel with | some x => some x | none => d.sel })
  if (s.stack k).bankWritten.contains line then
    if !exits then (s, e)
    else
      let s := s.updStack k fun x =>
        { x with bankWritten := x.bankWritten.filter (· != line), checks := dropN x.checks line }
      (s.integrity 0xFF 2 ia 0 0xFF, e)
  else if !marked && (hops || comes) && s.checkFails k line then
    (s.integrity 0xFF 1 ia 0 0xFF, { words := List.range 32, sel := e.sel })
  else (s, e)

-- reads

/-- Bytes of a line as they are delivered, from an offset in it: bad words read as poison (R360). -/
def deliver (bytes : List Byte) (off : Nat) (bad : List Nat) : List Byte :=
  bytes.zipIdx.map fun (b, i) =>
    let a := off + i
    if bad.contains (a / 4) then byteOf poisonWord (a % 4) else b

/-- The bad words of a line that `n` bytes at an address in it meet. -/
def wordsMet (words : List Nat) (a n : Nat) : List Nat :=
  words.filter fun w => decide (a / 128 * 128 + 4 * w < a + n) && decide (a < a / 128 * 128 + 4 * w + 4)

/-- What a read of device memory gives: `words` are the offsets of bad words, which may begin before the range. -/
structure DevRead where
  data : List Byte
  bad : Bool
  sel : Option Nat
  words : List Int
  deriving DecidableEq, Repr

/-- The parts of a range that lie in one line each: address, length. -/
def lineParts : Nat → Nat → Nat → List (Nat × Nat)
  | 0, _, _ => []
  | f + 1, a, n =>
    if n = 0 then [] else
    let k := min n (128 - a % 128)
    (a, k) :: lineParts f (a + k) (n - k)

def partsOf (a n : Nat) : List (Nat × Nat) := lineParts (n / 128 + 2) a n

/-- A read of a line without errors brings it into the stack cache, and it takes the read's EVP (R235). -/
def State.fill (s : State) (k line ctx : Nat) (evp : BitVec 2) : State :=
  let s := if ((s.stack k).cached line).isSome then s
    else (s.allocLine k line).sramWrite 5 k ctx (cacheAddr (line * 128)) 128
  s.updStack k fun x => x.touch line evp

/-- Reads device memory at its home (R264); `evp` is that of an access that brings its lines into the stack cache; `hops` is as
for `State.lineErrors`, and only a read that the stack makes for itself is none. -/
def State.devRead (s : State) (k spa n ctx ia : Nat) (exits : Bool) (evp : Option (BitVec 2) := none) (hops : Bool := true) :
    State × DevRead :=
  (partsOf spa n).foldl (fun r (a, m) =>
    let (s, e) := r.1.lineErrors k (a / 128) ctx ((ia + (a - spa)) / 128 * 128) exits hops
    let s := match evp with | some v => (if e.words.isEmpty then s.fill k (a / 128) ctx v else s) | none => s
    let touched := wordsMet e.words a m
    (s, { data := r.2.data ++ deliver (s.mem.home.read (devKey k a) m) (a % 128) touched,
          bad := r.2.bad || !touched.isEmpty,
          sel := match r.2.sel with | some x => some x | none => if touched.isEmpty then none else e.sel,
          words := r.2.words ++ touched.map fun w => ((a / 128 * 128 + 4 * w : Nat) : Int) - spa }))
    (s, { data := [], bad := false, sel := none, words := [] })

/-- Performs a write of bytes within one line at its home (R264). A partial write checks what the line held (R360, R427):
a codeword that it does not cover whole stays bad. -/
def State.lineWrite (s : State) (k spa : Nat) (data : List Byte) (who : Writer) (ia ctx : Nat) (evp : BitVec 2)
    (poison : Bool) (at_ : Option W64 := none) : State :=
  let line := spa / 128
  let off := spa % 128
  let n := data.length
  if n == 128 then (s.recall k line).lineStore k spa data who ia ctx evp poison [] at_
  else
    let (s, e) := s.lineErrors k line ctx (ia / 128 * 128) false true
    let crc := s.checkFails k line
    -- a codeword that the write covers whole is replaced
    let cw := if ((s.stack k).cached line).isSome then 8 else 32
    let bad := if (s.stack k).poison.contains line then [] else e.words.filter fun w =>
      crc || !(decide (off ≤ 4 * w / cw * cw) && decide (4 * w / cw * cw + cw ≤ off + n))
    s.lineStore k spa data who ia ctx evp poison bad at_

/-- A write performed at once, line by line. -/
def State.devWrite (s : State) (k spa : Nat) (data : List Byte) (who : Writer) (ia ctx : Nat) (evp : BitVec 2 := 0)
    (poison : Bool := false) : State :=
  (partsOf spa data.length).foldl (fun s (a, m) =>
    s.lineWrite k a ((data.drop (a - spa)).take m) who (ia + (a - spa)) ctx evp poison) s

/-- The writer of accesses that the part makes on its own behalf (R236). -/
def partWriter : Writer := { writer := 0xB00, log := none }

/-- Makes a line's bytes undefined (R235, R261): the line is dropped without a write-back. -/
def State.dropLine (s : State) (k line : Nat) : State :=
  let (bs, s) := s.freeBytes 128
  let a := devKey k (line * 128)
  let s := { s with mem := { s.mem with home := s.mem.home.write a bs, dram := s.mem.dram.write a bs } }
  s.updStack k fun x =>
    { x with cache := x.cache.filter fun c => c.line != line, poison := x.poison.filter (· != line) }

/-- Whether an access from outside writes at the home; an agent's write in its own copy does not. -/
def accessWrites : Access → Bool
  | .write _ | .writeBack _ | .atomic .. => true
  | .read _ | .own | .modify .. => false

/-- Whether HHL may perform a host write to the control window (R409): the host's earlier writes to device memory are
performed, those in copies that it holds modified (R410) and those that wait (R273, R391) among them, and the system margin
has passed since. -/
def State.hostReady (s : State) : Bool :=
  !(s.fabric.waits.any fun w => w.agent == 64 && accessWrites w.acc) && s.mem.stackList.all (fun x => (x.heldWrites.all fun h => h.who.writer != 0x800) &&
    !(x.sharers.any fun h => h.agent == 64 && h.modified)) &&
    (match s.hpub.ct with | some t => decide (t + BitVec.ofNat 64 (s.margin .system) ≤ s.time.now) | none => true)

/-- Whether a host access to the control window beyond the identity block has an effect (R409, R434). -/
def State.hostMay (s : State) : Bool := s.power.state == 2 && s.hostReady

-- leases

/-- The grain that a held write is on. -/
def HeldWrite.grain (h : HeldWrite) : Nat := h.act.addr / 512

/-- Writes held on a grain (R273). -/
def Stack.heldOn (x : Stack) (g : Nat) : List HeldWrite := x.heldWrites.filter fun h => h.grain == g

/-- Puts a write behind those that are held (R273): the first 1,024 stand in the buffer. -/
def State.holdWrite (s : State) (k : Nat) (h : HeldWrite) : State :=
  s.updStack k fun x => { x with heldWrites := x.heldWrites ++ [h] }

/-- Takes a held write out (R273): one that waited at the home enters the buffer, and it is performed no earlier than that. -/
def Stack.unhold (x : Stack) (i : Nat) (now : W64) : Stack :=
  let enter (p : HeldWrite × Nat) : HeldWrite := if i < 1024 ∧ p.2 = 1023 ∧ p.1.at_ < now then { p.1 with at_ := now } else p.1
  { x with heldWrites := (x.heldWrites.eraseIdx i).zipIdx.map enter }

/-- Whether a write that reaches a grain now is held, and until when (R263, R273): for the latest lease in force, and behind
earlier held writes of the grain. -/
def State.heldUntil (s : State) (k g : Nat) : Option W64 :=
  let x := s.stack k
  let lm := (x.grain g).lmax
  let earlier := (x.heldOn g).foldl (fun t h => if t ≤ h.at_ then h.at_ else t) s.time.now
  if s.time.now < lm then some (if lm ≤ earlier then earlier else lm)
  else if (x.heldOn g).isEmpty then none else some earlier

/-- Whether the write at a place of a stack's pending-write buffer is due (R273): W has come, no earlier one is held on its
grain, and it is among the 1,024 that the buffer holds. -/
def State.heldDue (s : State) (k i : Nat) (h : HeldWrite) : Bool :=
  decide (i < 1024) && decide (h.at_ ≤ s.time.now) && !((s.stack k).heldWrites.take i).any (fun e => e.grain == h.grain)

/-- Room in the pending-write buffer (R273), for a write that would rather wait where it is than at the home. -/
def State.bufferRoom (s : State) (k : Nat) : Bool := (s.stack k).heldWrites.length < 1024

/-- Performs a write within one line now, or holds it for the grain's leases (R273); true when it is held. -/
def State.submitLine (s : State) (k spa : Nat) (data : List Byte) (who : Writer) (ia ctx : Nat) (evp : BitVec 2)
    (poison : Bool) (op : Option Nat) : State × Bool :=
  match s.heldUntil k (spa / 512) with
  | none => (s.lineWrite k spa data who ia ctx evp poison, false)
  | some w =>
    let h : HeldWrite := { at_ := w, act := .write spa data poison, who := who, op := op, ctx := ctx, ia := ia, evp := evp }
    (s.holdWrite k h, true)

/-- Submits a write of a range to its home; how many of its lines are held (R273). -/
def State.submitWrite (s : State) (k spa : Nat) (data : List Byte) (who : Writer) (ia ctx : Nat) (evp : BitVec 2)
    (poison : Bool) (op : Option Nat) : State × Nat :=
  (partsOf spa data.length).foldl (fun r (a, m) =>
    let x := r.1.submitLine k a ((data.drop (a - spa)).take m) who (ia + (a - spa)) ctx evp poison op
    (x.1, if x.2 then r.2 + 1 else r.2)) (s, 0)

/-- New value of a far atomic (R245, R257): `w` is 32 or 64. -/
def farAtomic (op : BitVec 4) (w : Nat) (o b : Nat) : Nat :=
  let sg (n : Nat) : Int := sextTo w (BitVec.ofNat 64 n)
  match op.toNat with
  | 0 => (o + b) % 2 ^ w
  | 1 => b
  | 2 => if sg b < sg o then b else o
  | 3 => if sg o < sg b then b else o
  | 4 => min o b
  | 5 => max o b
  | 6 => o &&& b
  | 7 => o ||| b
  | 8 => o ^^^ b
  | 9 => (addF fmtF32 .rne false (BitVec.ofNat 64 o) (BitVec.ofNat 64 b)).val.toNat
  | _ => if b ≤ o then 0 else o + 1

/-- What a far atomic at its home gives: the old value, and the selector when its codeword is bad (R360). -/
structure AtomRes where
  old : W64
  bad : Bool
  sel : Option Nat
  deriving DecidableEq, Repr

/-- Performs a far atomic at its home at one instant (R256-R258): one access, which reads the line and writes it. One that
reads a bad codeword leaves poison (R360). -/
def State.atomicNow (s : State) (k spa : Nat) (wide : Bool) (op : BitVec 4) (cas : Bool) (b c : W64) (who : Writer)
    (ia ctx : Nat) (evp : BitVec 2) (at_ : Option W64 := none) : State × AtomRes :=
  let n := if wide then 8 else 4
  let w := 8 * n
  let line := spa / 128
  let (s, e) := s.lineErrors k line ctx (ia / 128 * 128) false true
  let met := wordsMet e.words spa n
  let o := ofBytes (deliver (s.mem.home.read (devKey k spa) n) (spa % 128) met)
  let rest := if (s.stack k).poison.contains line then [] else e.words
  if !met.isEmpty then
    let data := (List.range n).map fun i => byteOf poisonWord (i % 4)
    (s.lineStore k spa data who ia ctx evp true rest at_, { old := BitVec.ofNat 64 o, bad := true, sel := e.sel })
  else
    let b := b.toNat % 2 ^ w
    let v := if cas then (if o = c.toNat % 2 ^ w then b else o) else farAtomic op w o b
    (s.lineStore k spa (bytesOf n v) who ia ctx evp false rest at_, { old := BitVec.ofNat 64 o, bad := false, sel := none })

-- system-scope write-back

/-- The lines of a stack that a system-scope release writes back (R268): those logged for its home groups and those it names,
or every dirty line where the log has overflowed. -/
def Stack.releaseLines (x : Stack) (homes : List (Nat × Nat)) (named : List Nat) : List Nat :=
  if x.logOver then (x.cache.filter (·.dirty)).map (·.line)
  else (x.log.filter fun e => homes.contains (e.team, e.group)).map (·.line) ++ named

/-- Whether a release writes a line of peer memory back (R268, R410). -/
def Stack.releasesPeer (x : Stack) (homes : List (Nat × Nat)) (p : PeerLine) : Bool := x.logOver || p.log.any homes.contains

/-- Whether a system-scope release makes any write-back (R268). -/
def State.writesBack (s : State) (homes ls : List (Nat × Nat)) : Bool :=
  s.mem.stackList.zipIdx.any fun (x, k) =>
    (x.releaseLines homes ((ls.filter fun p => p.1 == k).map (·.2))).any x.dirty ||
      x.peerLines.any fun p => p.dirty && x.releasesPeer homes p

/-- The write-back of R268 for the dirty lines logged for home groups and for those in `ls`, in every stack; a log is cleared
only when it had overflowed. Lines of peer memory are written back at their home (R410). -/
def State.systemWriteBack (s : State) (homes : List (Nat × Nat)) (ls : List (Nat × Nat) := []) : State :=
  (List.range 8).foldl (fun s k =>
    let ls := (s.stack k).releaseLines homes ((ls.filter fun p => p.1 == k).map (·.2))
    let s := ls.foldl (fun s l => (s.writeBack k l).dropUnitLine k l) s
    s.updStack k fun x =>
      let clean (p : PeerLine) : PeerLine := if x.releasesPeer homes p then { p with dirty := false, log := [] } else p
      let all := x.logOver
      let x := { x with peerLines := x.peerLines.map clean }
      if all then { x with log := [], logOver := false } else x) s

/-- The system-scope write-back of a release at `now` that waits for writes complete at `ct` (R268): with the latest completion
time, that of the write-backs it makes included. -/
def State.systemRelease (s : State) (homes ls : List (Nat × Nat)) (ct now : W64) : State × W64 :=
  (s.systemWriteBack homes ls, if s.writesBack homes ls ∧ ct < now then now else ct)

/-- Writes back given lines of given stacks (R299, R357). -/
def State.writeBackLines (s : State) (ls : List (Nat × Nat)) : State :=
  ls.foldl (fun s (k, l) => (s.writeBack k l).dropUnitLine k l) s

end Sys2Proof.Machine
end

