-- ==== Sys2Proof/Machine/Xlate.lean ====
section
/-! DEFINITION. Translation: context descriptors (R381) and spans (R231, R232), the choice of stack (R233), the page walk
with its caches (R383-R390), page faults (R391-R393), and the accesses the part makes on its own behalf (R382). -/
namespace Sys2Proof.Machine

/-- The permissions an access needs (R232). -/
structure Perm where
  rd : Bool
  w : Bool
  x : Bool
  deriving DecidableEq, Repr

def permRead : Perm := { rd := true, w := false, x := false }
def permWrite : Perm := { rd := false, w := true, x := false }
def permAtomic : Perm := { rd := true, w := true, x := false }
def permFetch : Perm := { rd := false, w := false, x := true }

/-- KIND bits of a page fault (R393): fetch, write, read. -/
def Perm.kind (p : Perm) : BitVec 3 := BitVec.ofBool p.x ++ (BitVec.ofBool p.w ++ BitVec.ofBool p.rd)

/-- The stack an intermediate address selects (R233); none for a stack-local address with IA[43:36] nonzero. -/
def stackOf (ia : Nat) : Option Nat :=
  if ia / 2 ^ 47 % 2 = 0 then some ((ia / 2 ^ 12 % 8) ^^^ (ia / 2 ^ 15 % 8) ^^^ (ia / 2 ^ 18 % 4))
  else if ia / 2 ^ 36 % 256 = 0 then some (ia / 2 ^ 44 % 8) else none

/-- The channel of an address within its stack (R233). -/
def channelOf (ia : Nat) : Nat := ia / 2 ^ 11 % 16

-- page tables

/-- Whether an entry with V = 1 is malformed (R386), at a level, for an address of the interleaved window or not. -/
def entryMalformed (level : Nat) (interleaved : Bool) (e : W64) : Bool :=
  let leaf := bit e 62
  if leaf then
    level ≤ 1 || bit e 48 || fieldN e.toNat 15 0 != 0 || (bit e 52 && bit e 51) || fieldN e.toNat 61 60 == 3 ||
      (fieldN e.toNat 61 60 ≤ 1 && fieldN e.toNat 59 54 != 0) || (level == 2 && interleaved) ||
      (bit e 50 && level == 2 && fieldN e.toNat 20 16 != 0) ||
      (bit e 50 && fieldN e.toNat 61 60 == 0 &&
        decide (2 ^ 36 < fieldN e.toNat 47 16 * 2 ^ 16 + (if level = 2 then 2 ^ 21 else 2 ^ 16)))
  else
    level == 3 || fieldN e.toNat 61 36 != 0 || fieldN e.toNat 7 0 != 0 || (level ≤ 1 && fieldN e.toNat 11 8 != 0)

/-- Index of an address at a level (R383). -/
def tableIndex (level ia : Nat) : Nat :=
  match level with
  | 0 => ia / 2 ^ 39 % 512
  | 1 => ia / 2 ^ 30 % 512
  | 2 => ia / 2 ^ 21 % 512
  | _ => ia / 2 ^ 16 % 32

/-- The address bits that a table pointer read at a level covers (R389). -/
def tablePrefix (level ia : Nat) : Nat :=
  match level with
  | 0 => ia / 2 ^ 39
  | 1 => ia / 2 ^ 30
  | _ => ia / 2 ^ 21

/-- What a walk finds. -/
inductive WalkRes where
  | leaf (e : W64) (big : Bool)
  | fault
  | malformed
  deriving DecidableEq, Repr

/-- Reads an aligned word that the part itself keeps in device memory (R383): an uncorrectable codeword reads as poison words
(R358, R360), which are no valid entry. DESIGN CHOICE (notes/assumptions/62). -/
def State.tableWord (s : State) (k spa : Nat) : State × W64 :=
  let (s, r) := s.devRead k spa 8 0xFFFF spa false none false
  (s, BitVec.ofNat 64 (ofBytes r.data))

/-- The entry a walk uses at a level: a pointer held by the walk cache, or the entry in the table (R389). -/
def State.entryAt (s : State) (k level ia table : Nat) : State × W64 :=
  match (s.stack k).walks.find? fun w => w.level == level && w.prefix_ == tablePrefix level ia with
  | some w => (s, w.entry)
  | none => s.tableWord k (table + 8 * tableIndex level ia)

/-- Keeps a table pointer in the walk cache (R389). -/
def State.keepWalk (s : State) (k level ia : Nat) (e : W64) : State :=
  let w : WalkEntry := { level := level, prefix_ := tablePrefix level ia, entry := e }
  s.updStack k fun x => if x.walks.contains w then x else { x with walks := w :: x.walks }

/-- Reads the tables of a stack from a level on (R383, R388). -/
def State.walkFrom (s : State) (k ia : Nat) : Nat → Nat → Nat → State × WalkRes
  | 0, _, _ => (s, .fault)
  | f + 1, level, table =>
    let (s, e) := s.entryAt k level ia table
    if !bit e 63 then (s, .fault)
    else if entryMalformed level (ia / 2 ^ 47 % 2 == 0) e then (s, .malformed)
    else if bit e 62 then (s, .leaf e (level == 2))
    else (s.keepWalk k level ia e).walkFrom k ia f (level + 1) (fieldN e.toNat 35 8 * 2 ^ 8)

/-- The IA page a leaf maps. -/
def pageOf (ia : Nat) (big : Bool) : Nat := if big then ia / 2 ^ 21 * 32 else ia / 2 ^ 16

/-- A leaf held by the stack's translation caches (R389): the micro-TLB of the address's channel, then the second level. -/
def Stack.tlbFind (x : Stack) (ia : Nat) : Option TlbEntry :=
  match x.micro.find? fun p => p.1 == channelOf ia && p.2.page == pageOf ia p.2.big with
  | some p => some p.2
  | none => x.tlb.find? fun t => t.page == pageOf ia t.big

/-- Fills the second level, of 32,768 entries: the oldest leaves a full one (R389). -/
def Stack.tlbFill (x : Stack) (t : TlbEntry) : Stack := { x with tlb := (t :: x.tlb.filter (· != t)).take 32768 }

/-- Fills a channel's micro-TLB, of 64 entries: the oldest leaves a full one (R389). -/
def Stack.microFill (x : Stack) (ch : Nat) (t : TlbEntry) : Stack :=
  if x.micro.contains (ch, t) then x
  else
    let mine := (x.micro.filter fun p => p.1 == ch).take 63
    { x with micro := (ch, t) :: mine ++ x.micro.filter fun p => p.1 != ch }

/-- Drops translations from both levels (R389). -/
def Stack.tlbDrop (x : Stack) (out : TlbEntry → Bool) : Stack :=
  { x with tlb := x.tlb.filter fun t => !out t, micro := x.micro.filter fun p => !out p.2 }

/-- The stack that keeps the publication state of a location's line: its own for device memory, and one for all lines of host
and peer memory, whatever alias reaches them (R280). -/
def Spot.codeStack : Spot → Nat
  | .dev k _ => k
  | _ => 0

/-- The number of a location's line in that publication state. -/
def Spot.codeLine : Spot → Nat
  | .dev _ a => a / 128
  | .host a => frameBase 1 0 * 512 + a / 128
  | .peer d a => frameBase 2 d * 512 + a / 128

/-- The frames of 64 KiB that a leaf names. -/
def leafFrames (e : W64) (big : Bool) : List Nat :=
  let f := fieldN e.toNat 47 16
  if big then (List.range 32).map (f + ·) else [f]

/-- A walk that loads an X leaf makes its frames code frames (R390), those of host and peer memory too (R280). -/
def State.codeFrames (s : State) (k : Nat) (e : W64) (big : Bool) : State :=
  if bit e 51 && bit e 50 then
    let base := frameBase (fieldN e.toNat 61 60) (fieldN e.toNat 59 54)
    let k := if base = 0 then k else 0
    let new := ((leafFrames e big).map (base + ·)).filter fun f => !(s.stack k).codeFrames.contains f
    s.updStack k fun x =>
      { x with codeFrames := new ++ x.codeFrames, pubs := x.pubs.filter fun p => !new.contains (p.1 * 128 / 2 ^ 16) }
  else s

/-- A word of device memory as it is when a copy that another agent holds modified is recalled (R410). -/
def State.heldWord (s : State) (k a : Nat) : W64 :=
  match (s.stack k).sharers.find? fun h => h.line == a / 128 && h.modified with
  | some h => BitVec.ofNat 64 (ofBytes ((h.data.drop (a % 128)).take 8))
  | none => s.devWord k a

/-- The leaf of a page in a stack's tables, whatever the caches hold: its stack-physical address and value (R383). -/
def State.leafOf (s : State) (k ia : Nat) (big : Bool) : Nat → Nat → Nat → Option (Nat × W64)
  | 0, _, _ => none
  | f + 1, level, table =>
    let a := table + 8 * tableIndex level ia
    let e := s.heldWord k a
    if !bit e 63 || entryMalformed level (ia / 2 ^ 47 % 2 == 0) e then none
    else if bit e 62 then (if big == (level == 2) then some (a, e) else none)
    else s.leafOf k ia big f (level + 1) (fieldN e.toNat 35 8 * 2 ^ 8)

/-- Gives some grains WRITER 0xFFF and TIME 0. -/
def Stack.untag (x : Stack) (gs : List Nat) : Stack :=
  if x.grainBase.writer == 0xFFF && x.grainBase.time == 0 then
    { x with grains := x.grains.map fun g => if gs.contains g.1 then (g.1, { g.2 with writer := 0xFFF, time := 0 }) else g }
  else gs.foldl (fun x g => x.tag g 0xFFF 0) x

/-- The grains of a frame in stack k that a page of 64 KiB has its bytes in (R233, R387): those whose addresses select the
stack. -/
def pageGrains (k page : Nat) : List Nat := (List.range 128).filter fun g => stackOf (page * 2 ^ 16 + 512 * g) == some k

/-- The page of a frame's alias, through which system software reaches a free frame (R395). -/
def aliasPage (k f : Nat) : Nat := 2 ^ 31 + k * 2 ^ 28 + f

/-- Whether a page is mapped to a frame of stack k now. -/
def State.mapsFrame (s : State) (k f page : Nat) : Bool :=
  [false, true].any fun big => match s.leafOf k (page * 2 ^ 16) big 4 0 ((s.stack k).root.toNat % 2 ^ 36) with
    | some (_, e) => bit e 50 && fieldN e.toNat 61 60 == 0 && (leafFrames e big)[if big then page % 32 else 0]? == some f
    | none => false

/-- A page's first mapping to a frame of device memory: the grains of the frame that the page has its bytes in take WRITER
0xFFF and TIME 0 (R236), but for those that another page, its alias apart, holds in the frame (R387). DEDUCED
(notes/assumptions/64). -/
def State.mapFrame (s : State) (k f page : Nat) : State :=
  let others := (s.stack k).mapped.filter fun p => p.1 == f && s.mapsFrame k f p.2
  let shared := (others.filter fun p => p.2 != aliasPage k f).flatMap fun p => pageGrains k p.2
  let fresh := (pageGrains k page).filter fun g => !shared.contains g
  s.updStack k fun x =>
    { x.untag (fresh.map (128 * f + ·)) with mapped := (f, page) :: others ++ x.mapped.filter fun p => p.1 != f }

/-- The first mapping of the pages of a leaf to their frames of device memory (R236): a frame that was written through its
alias on the free list (R395) is fresh when a page first has it. DEDUCED (notes/assumptions/64). -/
def State.mapFrames (s : State) (k ia : Nat) (e : W64) (big : Bool) : State :=
  if fieldN e.toNat 61 60 == 0 && bit e 50 then
    let page := if big then ia / 2 ^ 21 * 32 else ia / 2 ^ 16
    let new := ((leafFrames e big).zipIdx.map fun (f, i) => (f, page + i)).filter fun p => !(s.stack k).mapped.contains p
    new.foldl (fun s p => s.mapFrame k p.1 p.2) s
  else s

/-- Finds the leaf of an address: in the translation caches, or by a walk that may fill them (R388-R390). -/
def State.findLeaf (s : State) (k ia : Nat) : State × WalkRes :=
  match (s.stack k).tlbFind ia with
  | some t => (s.updStack k fun x => x.microFill (channelOf ia) t, .leaf t.leaf t.big)
  | none =>
    match s.walkFrom k ia 4 0 ((s.stack k).root.toNat % 2 ^ 36) with
    | (s, .leaf e big) =>
      let s := (s.codeFrames k e big).mapFrames k ia e big
      if bit e 50 && !bit e 49 then
        let t : TlbEntry := { page := pageOf ia big, big := big, leaf := e }
        (s.updStack k fun x => (x.tlbFill t).microFill (channelOf ia) t, .leaf e big)
      else (s, .leaf e big)
    | (s, .malformed) => (s.updStack k fun x => { x with malf := true }, .malformed)
    | r => r

/-- Outcome of a translation (R388). -/
inductive XRes where
  | ok (l : Spot) (leaf : W64)
  | fault
  | nonres (stack page : Nat) (big : Bool)
  /-- the frame is in memory of an agent that is dead: fault 0x18 (R424) -/
  | lost
  deriving DecidableEq, Repr

/-- Where a resident leaf puts a byte (R385). -/
def leafLoc (k ia : Nat) (e : W64) (big : Bool) : Spot :=
  let a := fieldN e.toNat 47 16 * 2 ^ 16 + (if big then ia % 2 ^ 21 else ia % 2 ^ 16)
  match fieldN e.toNat 61 60 with
  | 0 => .dev k a
  | 1 => .host a
  | _ => .peer (fieldN e.toNat 59 54) a

/-- Whether a location is in memory of a dead agent (R424). -/
def State.deadSpot (s : State) : Spot → Bool
  | .dev .. => false
  | .host _ => s.deadAgent 64
  | .peer d _ => s.deadAgent d

/-- What a resident leaf gives: a peer without a route is fault 0x11 (R413), memory of a dead agent is lost (R424), and an HHL
error response is a fault (R382). -/
def State.reach (s : State) (l : Spot) (e : W64) : XRes :=
  match l with
  | .dev .. => .ok l e
  | .host a => if s.deadAgent 64 then .lost else if s.hostRefuses a 1 then .fault else .ok l e
  | .peer d _ => if s.fabric.routes.getD d 0 = 0 then .fault else if s.deadAgent d then .lost else .ok l e

/-- Whether a leaf grants an access. -/
def leafGrants (e : W64) (p : Perm) : Bool := (!p.rd || bit e 53) && (!p.w || bit e 52) && (!p.x || bit e 51)

/-- Gives up a cached leaf that does not grant an access: an entry that grants more is seen without a `tlbinv` (R389). -/
def State.dropNarrow (s : State) (k ia : Nat) (p : Perm) : State :=
  match (s.stack k).tlbFind ia with
  | some t => if leafGrants t.leaf p then s else s.updStack k fun x => x.tlbDrop (· == t)
  | none => s

/-- Translates an intermediate address at the memory side (R388). -/
def State.xlateIA (s : State) (ia : Nat) (p : Perm) : State × XRes :=
  match stackOf ia with
  | none => (s, .fault)
  | some k =>
    match (s.dropNarrow k ia p).findLeaf k ia with
    | (s, .leaf e big) =>
      if !leafGrants e p then (s, .fault)
      else if !bit e 50 || (bit e 49 && p.w) then (s, .nonres k (pageOf ia big) big)
      else (s, s.reach (leafLoc k ia e big) e)
    | (s, _) => (s, .fault)

-- spans

/-- A span of a descriptor (R231). -/
structure SpanReg where
  base : Nat
  limit : Nat
  v : Bool
  x : Bool
  w : Bool
  rd : Bool
  off : Nat
  deriving DecidableEq, Repr

def spanOf (w0 w1 w2 : W64) : SpanReg :=
  { base := fieldN w0.toNat 55 16, limit := fieldN w1.toNat 55 16, v := bit w1 3, x := bit w1 2, w := bit w1 1, rd := bit w1 0,
    off := fieldN w2.toNat 47 16 }

/-- Span i of a descriptor's words. -/
def descSpan (d : List W64) (i : Nat) : SpanReg := spanOf (d.getD (3 * i) 0) (d.getD (3 * i + 1) 0) (d.getD (3 * i + 2) 0)

/-- The span a virtual address falls in (R232). -/
def spanFor (spans : List SpanReg) (va : Nat) : Option SpanReg :=
  spans.find? fun x => x.v && decide (x.base * 2 ^ 16 ≤ va) && decide (va ≤ x.limit * 2 ^ 16 + 0xFFFF)

/-- Translation by spans (R232); none is fault 0x11. -/
def spanXlate (spans : List SpanReg) (va : Nat) (p : Perm) : Option Nat :=
  if 2 ^ 56 ≤ va then none else
  match spanFor spans va with
  | none => none
  | some x =>
    if (p.rd && !x.rd) || (p.w && !x.w) || (p.x && !x.x) then none
    else some ((va + x.off * 2 ^ 16 + 2 ^ 56 - x.base * 2 ^ 16) % 2 ^ 48)

def descSpans (d : List W64) : List SpanReg := (List.range 8).map (descSpan d)

/-- A descriptor's other words (R381). -/
def descTvec (d : List W64) : W64 := d.getD 24 0
def descElog (d : List W64) : W64 := d.getD 25 0
def descSave (d : List W64) : W64 := d.getD 26 0
def descValid (d : List W64) : Bool := bit (d.getD 27 0) 63
def descSaveSize (d : List W64) : Nat := fieldN (d.getD 27 0).toNat 31 0

/-- Bytes of a location that lie together. -/
def State.locPeek (s : State) (l : Spot) (n : Nat) : List Byte :=
  match l with
  | .dev k a => s.devPeek k a n
  | .host a => (List.range n).map fun i => hostGet s.mem (a + i)
  | .peer d a => (List.range n).map fun i => peerGet s.mem.peer d (s.agent d).inc (a + i)

/-- The descriptor of a context: the cached words, or the 256 bytes at `$ctxbase` + 256c, an intermediate address
(notes/assumptions/10), which are then cached (R381). A table that cannot be read gives a descriptor of zeros.
Reserved bits of a descriptor and of its spans are ignored: R10 asks for the fault that the field's own chapter names, and
none does. DESIGN CHOICE (notes/assumptions/67). DEDUCED (notes/assumptions/10). -/
def State.desc (s : State) (c : Nat) : State × List W64 :=
  match lookupN s.priv.descs c with
  | some d => (s, d)
  | none =>
    match s.xlateIA (s.priv.ctxbase.toNat + 256 * c) permRead with
    | (s, .ok l _) =>
      let (s, bs, bad) := match l with
        | .dev k a => let (s, r) := s.devRead k a 256 0xFFFF (s.priv.ctxbase.toNat + 256 * c) false; (s, r.data, r.bad)
        | l => (s, s.locPeek l 256, false)
      if bad then (s, []) else
      let d := (List.range 32).map fun i => BitVec.ofNat 64 (ofBytes ((bs.drop (8 * i)).take 8))
      ({ s with priv := { s.priv with descs := setN s.priv.descs c d } }, d)
    | (s, _) => (s, [])

/-- Translates a virtual address of a context (R232, R388), with the intermediate address. -/
def State.xlate (s : State) (ctx va : Nat) (p : Perm) : State × XRes × Nat :=
  let (s, d) := s.desc ctx
  match spanXlate (descSpans d) va p with
  | none => (s, .fault, 0)
  | some ia => let (s, r) := s.xlateIA ia p; (s, r, ia)

/-- The parts of a virtual range within one 4 KiB unit each: they keep to one stack, one span and one page. -/
def unitParts : Nat → Nat → Nat → List (Nat × Nat)
  | 0, _, _ => []
  | f + 1, a, n =>
    if n = 0 then [] else
    let k := min n (4096 - a % 4096)
    (a, k) :: unitParts f (a + k) (n - k)

def unitsOf (a n : Nat) : List (Nat × Nat) := unitParts (n / 4096 + 2) a n

-- page faults

/-- A page fault (R392): coalesced, forwarded to the collector, or forwarded as a drop. -/
def State.pageFault (s : State) (k page : Nat) (big : Bool) (kind : BitVec 3) (ctx core : Nat) (part : Bool) : State :=
  let x := s.stack k
  let p : PendingPage := { page := page, big := big }
  if x.pages.contains p then s
  else
    let drop := decide (64 ≤ x.pages.length)
    let s := if drop then s else s.updStack k fun x => { x with pages := x.pages ++ [p] }
    let msg : FaultMsg :=
      { stack := k, page := page, big := big, kind := kind, ctx := ctx, core := core, part := part, drop := drop }
    { s with coll := { s.coll with queue := s.coll.queue ++ [msg] } }

-- accesses of the part's own

/-- Outcome of an access that the part makes on its own behalf (R382). -/
inductive PartRes (α : Type) where
  | ok (v : α)
  | fault
  | nonres
  deriving DecidableEq, Repr

/-- The integrity-log entry of R382 for an access at an address. -/
def State.partLog (s : State) (src addr : Nat) : State := s.integrity 0xFF 4 addr src 0xFF

/-- How an access of R382 is addressed: by virtual address of a context, or by intermediate address. -/
inductive PartAddr where
  | va (ctx a : Nat)
  | ia (a : Nat)
  deriving DecidableEq, Repr

def PartAddr.num : PartAddr → Nat
  | .va _ a => a
  | .ia a => a

/-- The core and context a page fault of an access of R382 names, and whether it raises one (R382, R393). -/
structure PartWho where
  src : Nat
  ctx : Nat
  core : Nat
  part : Bool
  raises : Bool
  deriving DecidableEq, Repr

/-- Translates an access of the part's own. -/
def State.partXlate (s : State) (a : PartAddr) (p : Perm) (who : PartWho) : State × PartRes (Spot × Nat) :=
  let (s, r, ia) := match a with
    | .va ctx v => s.xlate ctx v p
    | .ia i => let (s, r) := s.xlateIA i p; (s, r, i)
  match r with
  | .ok l _ => (s, .ok (l, ia))
  | .fault | .lost => (s.partLog who.src (a.num % 2 ^ 48), .fault)
  | .nonres k page big =>
    let s := s.partLog who.src (a.num % 2 ^ 48)
    let s := if who.raises then s.pageFault k page big p.kind who.ctx who.core who.part else s
    (s, .nonres)

/-- A line of peer memory in the cache of the stack that an address selects (R235, R410). -/
def Stack.peerLine (x : Stack) (dev line : Nat) : PeerLine :=
  (x.peerLines.find? fun p => p.dev == dev && p.line == line).getD { dev := dev, line := line, dirty := false, evp := 0, log := [] }

/-- Caches lines of peer memory that an access reaches (R235, R410): a write makes them dirty for its home group. -/
def State.peerTouch (s : State) (ia dev a n : Nat) (evp : BitVec 2) (write : Option Writer) : State :=
  match stackOf ia with
  | none => s
  | some k => (linesOf a n).foldl (fun (s : State) line =>
      let p := (s.stack k).peerLine dev line
      let q := match write with
        | some who => { p with evp := evp, dirty := true, log := (p.log ++ who.log.toList).eraseDups }
        | none => { p with evp := evp }
      let s := if (s.stack k).peerLines.any fun y => y.dev == dev && y.line == line then s else s.vacate k line
      s.updStack k fun x =>
        { x with peerLines := q :: x.peerLines.filter fun y => !(y.dev == dev && y.line == line) }) s

/-- Whether the stack cache that an address selects holds a line of peer memory (R235, R410). -/
def State.holdsPeer (s : State) (ia dev line : Nat) : Bool :=
  match stackOf ia with
  | none => false
  | some k => (s.stack k).peerLines.any fun y => y.dev == dev && y.line == line

/-- Drops a line of peer memory without a write-back (R235): its bytes there are undefined. -/
def State.dropPeer (s : State) (ia dev line : Nat) : State :=
  match stackOf ia with
  | none => s
  | some k =>
    let (bs, s) := s.freeBytes 128
    let s := { s with mem := { s.mem with peer := FarMem.write s.mem.peer (dev * 2 ^ 48 + line * 128) bs } }
    s.updStack k fun x => { x with peerLines := x.peerLines.filter fun y => !(y.dev == dev && y.line == line) }

/-- A write to lines of peer memory makes those of code frames PENDING (R281). -/
def State.unpublishSpot (s : State) (ia : Nat) (l : Spot) (n : Nat) : State :=
  s.updStack l.codeStack fun x =>
      (List.range ((ia % 128 + n + 127) / 128)).foldl (fun (x : Stack) i => x.unpublish (l.codeLine + i)) x

/-- Writes bytes at a location. A write to host or peer memory is seen by no directory of this part, and fires no monitor of
it (R247). DESIGN CHOICE (notes/assumptions/62). -/
def State.locWrite (s : State) (l : Spot) (data : List Byte) (who : Writer) (ia ctx : Nat) (evp : BitVec 2 := 0) : State :=
  match l with
  | .dev k a => (s.submitWrite k a data who ia ctx evp false none).1
  | .host a => s.hostPut a data
  | .peer d a =>
    let s := { s with mem := { s.mem with peer := FarMem.write s.mem.peer (d * 2 ^ 48 + a) data } }
    (s.peerTouch ia d a data.length evp (some who)).unpublishSpot ia l data.length

/-- Reads within one 4 KiB unit for the part itself. An uncorrectable codeword delivers poison (R360) and faults the
access. -/
def State.partReadUnit (s : State) (a : PartAddr) (n : Nat) (who : PartWho) : State × PartRes (List Byte) :=
  match s.partXlate a permRead who with
  | (s, .ok (.dev k spa, ia)) =>
    let (s, r) := s.devRead k spa n 0xFFFF ia false
    if r.bad then (s.partLog who.src (a.num % 2 ^ 48), .fault) else (s, .ok r.data)
  | (s, .ok (l, _)) => (s, .ok (s.locPeek l n))
  | (s, .fault) => (s, .fault)
  | (s, .nonres) => (s, .nonres)

def PartAddr.shift : PartAddr → Nat → PartAddr
  | .va c a, d => .va c (a + d)
  | .ia a, d => .ia (a + d)

/-- Reads a range for the part itself. -/
def State.partRead (s : State) (a : PartAddr) (n : Nat) (who : PartWho) : State × PartRes (List Byte) :=
  (unitsOf a.num n).foldl (fun r (b, m) =>
    match r.2 with
    | .ok bs =>
      match r.1.partReadUnit (a.shift (b - a.num)) m who with
      | (s, .ok cs) => (s, .ok (bs ++ cs))
      | (s, .fault) => (s, .fault)
      | (s, .nonres) => (s, .nonres)
    | _ => r) (s, .ok [])

/-- Translates every unit of a range before anything is written. -/
def State.partProbe (s : State) (a : PartAddr) (n : Nat) (p : Perm) (who : PartWho) :
    State × PartRes (List (Nat × Nat × Spot × Nat)) :=
  (unitsOf a.num n).foldl (fun r (b, m) =>
    match r.2 with
    | .ok ps =>
      match r.1.partXlate (a.shift (b - a.num)) p who with
      | (s, .ok (l, ia)) => (s, .ok (ps ++ [(b - a.num, m, l, ia)]))
      | (s, .fault) => (s, .fault)
      | (s, .nonres) => (s, .nonres)
    | _ => r) (s, .ok [])

/-- The lines of device memory that a write to a location made dirty. -/
def Spot.lines (l : Spot) (n : Nat) : List (Nat × Nat) :=
  match l with
  | .dev k a => (linesOf a n).map fun x => (k, x)
  | _ => []

/-- Writes a range for the part itself, all of it or nothing; the lines made dirty. -/
def State.partWrite (s : State) (a : PartAddr) (data : List Byte) (who : PartWho) (writer : Writer := partWriter) :
    State × PartRes (List (Nat × Nat)) :=
  match s.partProbe a data.length permWrite who with
  | (s, .ok ps) =>
    let s := ps.foldl (fun s (off, n, l, ia) => s.locWrite l ((data.drop off).take n) writer ia who.ctx) s
    (s, .ok (ps.flatMap fun (_, n, l, _) => l.lines n))
  | (s, .fault) => (s, .fault)
  | (s, .nonres) => (s, .nonres)

/-- Adds 1 to a 64-bit word of main memory by a far atomic (R158, R357, R393); it waits for leases as others do. -/
def State.partIncrement (s : State) (a : PartAddr) (who : PartWho) : State × PartRes Unit :=
  match s.partXlate a permAtomic who with
  | (s, .ok (.dev k spa, ia)) =>
    match s.heldUntil k (spa / 512) with
    | none => ((s.atomicNow k spa true 0 false 1 0 partWriter ia who.ctx 0).1, .ok ())
    | some w =>
      let h : HeldWrite :=
        { at_ := w, act := .atomic spa true 0 false 1 0, who := partWriter, op := none, ctx := who.ctx, ia := ia, evp := 0 }
      (s.holdWrite k h, .ok ())
  | (s, .ok (l, ia)) => (s.locWrite l (bytesOf 8 (ofBytes (s.locPeek l 8) + 1)) partWriter ia who.ctx, .ok ())
  | (s, .fault) => (s, .fault)
  | (s, .nonres) => (s, .nonres)

/-- The write-back of a release at system scope over a stamp or entry (R357, R373). -/
def State.partRelease (s : State) (ls : List (Nat × Nat)) : State := s.writeBackLines ls

/-- The part's writes for a writer that are held for leases in some lines (R273). -/
def State.heldIn (s : State) (ls : List (Nat × Nat)) (writer : BitVec 12) : List HeldWrite :=
  ls.flatMap fun (k, line) => (s.stack k).heldWrites.filter fun h => h.who.writer == writer && h.act.addr / 128 == line

/-- Begins the release at system scope over writes of the part's own (R268): it is over a margin after the last of them is
performed. -/
def State.beginRelease (s : State) (ls : List (Nat × Nat)) (writer : BitVec 12 := partWriter.writer) : State × PartWait :=
  let last := (s.heldIn ls writer).foldl (fun t h => if t < h.at_ then h.at_ else t) s.time.now
  (s.partRelease ls, { lines := ls, writer := writer, at_ := last + BitVec.ofNat 64 (s.margin .system) })

/-- Whether a release of the part's own is over. -/
def State.releaseOver (s : State) (x : PartWait) : Bool := decide (x.at_ ≤ s.time.now) && (s.heldIn x.lines x.writer).isEmpty

/-- Answers the host's access over HHL; a write or far atomic with its completion time (R266, R411). -/
def State.answer (s : State) (x : Option (List Byte)) (time : Option W64 := none) : State :=
  { s with fabric := { s.fabric with hhlAnswer := x, hhlTime := time } }

/-- Answers an agent: the host over HHL, a peer by a flit (R414, R415). None is an access that is not performed; a bad codeword
goes to a peer as fault 0x18 (R360). -/
def State.reply (s : State) (agent : Nat) (x : Option (List Byte × Bool)) (time : Option W64 := none) : State :=
  if agent = 64 then s.answer (x.map (·.1)) time
  else
    let note : Notice := match x with
      | some (bs, bad) => .data agent bs bad time
      | none => .fault agent 0x11
    { s with fabric := { s.fabric with sent := note :: s.fabric.sent } }

/-- The agent outside the part that a writer is (R236). -/
def Writer.agent (w : Writer) : Option Nat :=
  if w.outside then some (if w.writer = 0x800 then 64 else w.writer.toNat - 0x900) else none

end Sys2Proof.Machine
end

