-- ==== Sys2Proof/Machine/Frontier.lean ====
section
/-! DEFINITION. A group's frontier (R141-R147): slots and entries, helper lanes, how entries are formed, merged and
chosen, and the loop end that every word evaluates (R127). -/
namespace Sys2Proof.Machine

/-- The slots of a mask, ascending. -/
def slotsOf (m : BitVec 32) : List Nat := (List.range 32).filter fun i => m.getLsbD i

/-- The mask of some slots. -/
def maskOf (ss : List Nat) : BitVec 32 := ss.foldl (fun m i => m ||| BitVec.twoPow 32 i) 0

/-- A lane slot that holds nothing (R140). -/
def emptyLane : Lane :=
  { kind := .empty, tid := 0, pc := 0, prio := 0, regs := [], preds := 0, loops := [], fpstat := 0, trapen := 0, spill := 0,
    hnd := false, acq := 0, ct := 0, param := 0, monitor := none, results := [], late := none }

def Group.lane (g : Group) (i : Nat) : Lane := g.lanes.getD i emptyLane
def Group.isLive (g : Group) (i : Nat) : Bool := (g.lane i).kind == .live
def Group.isHelper (g : Group) (i : Nat) : Bool := (g.lane i).kind == .helper

/-- The lowest live slot of a slot's quad, whose entry a helper lane joins at a run end (R141). -/
def Group.quadLead (g : Group) (i : Nat) : Option Nat := ((List.range 4).map (i / 4 * 4 + ·)).find? fun j => g.isLive j

/-- A spin memory that remembers nothing (R165). -/
def noSpin : Spin :=
  { branch := 0, target := 0, taken := 0, quiet := 0, changed := false, since := none, lines := [] }

/-- A ready entry at a run's start. -/
def Entry.ready (mask : BitVec 32) : Entry :=
  { mask := mask, wake := none, issuing := false, starve := 0, words := 0, vars := 0, split := false, release := none,
    ending := none, spin := noSpin }

/-- Whether an entry is ready or issuing: nothing parks it (R142). -/
def Entry.isReady (e : Entry) : Bool := e.wake.isNone && e.ending.isNone

/-- Priority and PC of an entry: those of its lowest live lane (R142). -/
def Group.keyOf (g : Group) (e : Entry) : Nat × Nat :=
  match (slotsOf e.mask).find? fun i => g.isLive i with
  | some i => ((g.lane i).prio.toNat, (g.lane i).pc.toNat)
  | none => (0, 0)

/-- Frontier order (R142): priority descending, then PC ascending. -/
def keyBefore (a b : Nat × Nat) : Bool := decide (b.1 < a.1) || (decide (a.1 = b.1) && decide (a.2 < b.2))

/-- The entry that holds a slot. -/
def Group.entryAt (g : Group) (slot : Nat) : Option Entry := g.entries.find? fun e => e.mask.getLsbD slot

/-- Changes the entry that holds a slot. -/
def Group.updEntry (g : Group) (slot : Nat) (f : Entry → Entry) : Group :=
  { g with entries := g.entries.map fun e => if e.mask.getLsbD slot then f e else e }

/-- Changes the lanes of listed slots. -/
def Group.updSlots (g : Group) (ss : List Nat) (f : Nat → Lane → Lane) : Group :=
  { g with lanes := g.lanes.zipIdx.map fun (l, i) => if ss.contains i then f i l else l }

-- helper lanes

/-- The live lane that a helper lane goes with (R141, R173): the lowest of the entry that holds its slot, or while none
does, the lowest of its quad. -/
def Group.lead (g : Group) (i : Nat) : Option Nat :=
  match (g.entryAt i).bind fun e => (slotsOf e.mask).find? fun j => g.isLive j with
  | some j => some j
  | none => g.quadLead i

/-- The lanes after every helper lane has followed the live lane that it goes with (R141). -/
def Group.follow (g : Group) : List Lane :=
  g.lanes.zipIdx.map fun (l, i) =>
    if l.kind = .helper then
      match g.lead i with
      | some j => { l with pc := (g.lane j).pc, prio := (g.lane j).prio }
      | none => l
    else l

/-- The slots of an entry: its live lanes, and the helper lanes that go with one of them. -/
def Group.spread (g : Group) (m : BitVec 32) : BitVec 32 :=
  maskOf ((List.range 32).filter fun i =>
    if g.isLive i then m.getLsbD i
    else if g.isHelper i then (match g.lead i with | some j => m.getLsbD j | none => false)
    else false)

/-- Helper lanes of quads without a live lane become empty (R141, R182), but in the quads `kept`. -/
def Group.dropHelpers (kept : List Nat) (g : Group) : Group :=
  { g with lanes := g.lanes.zipIdx.map fun (l, i) =>
      if l.kind = .helper ∧ g.quadLead i = none ∧ !kept.contains (i / 4) then emptyLane else l }

/-- Brings masks and helper lanes in line with the live lanes; an entry without live lanes is gone. -/
def Group.tidy (g : Group) : Group :=
  let g := { g with lanes := g.follow }
  { g with entries := (g.entries.map fun e => { e with mask := g.spread e.mask }).filter fun e => e.mask != 0 }

-- forming, merging, choosing

/-- Adds a slot with what it waits for to the entries being formed (R145). -/
def Group.addSlot (g : Group) (es : List Entry) (slot : Nat) (w : Option Wake) : List Entry :=
  let key := ((g.lane slot).prio.toNat, (g.lane slot).pc.toNat)
  match es with
  | [] => [{ Entry.ready (BitVec.twoPow 32 slot) with wake := w }]
  | e :: rest =>
    if e.wake = w ∧ g.keyOf e = key then { e with mask := e.mask ||| BitVec.twoPow 32 slot } :: rest
    else e :: g.addSlot rest slot w

/-- The entries that lanes form at a run end, one for each condition, priority and PC (R145). -/
def Group.formEntries (g : Group) (ws : List (Nat × Option Wake)) : List Entry :=
  ws.foldl (fun es (slot, w) => g.addSlot es slot w) []

/-- Whether an entry takes part in merging: ready, at a run's start, and not the issuing entry (R145). -/
def Entry.mergeable (e : Entry) : Bool := e.isReady && !e.issuing && e.words == 0 && e.release.isNone

/-- Merges an entry into a list of entries (R145). -/
def Group.mergeInto (g : Group) (es : List Entry) (e : Entry) : List Entry :=
  match es with
  | [] => [e]
  | x :: rest =>
    if x.mergeable && e.mergeable && g.keyOf x == g.keyOf e then
      { Entry.ready (x.mask ||| e.mask) with starve := max x.starve e.starve } :: rest
    else x :: g.mergeInto rest e

def Group.merge (g : Group) : Group := { g with entries := g.entries.foldl g.mergeInto [] }

/-- Whether entry `a` is chosen before entry `b` (R143, R144). -/
def Group.chosenBefore (g : Group) (a b : Entry) : Bool :=
  let sa := decide (256 ≤ a.starve)
  let sb := decide (256 ≤ b.starve)
  if sa && sb then decide (b.starve < a.starve) || (decide (a.starve = b.starve) && keyBefore (g.keyOf a) (g.keyOf b))
  else if sa != sb then sa
  else keyBefore (g.keyOf a) (g.keyOf b)

/-- The entry that is chosen to issue, if any is ready (R143, R145): of equal ones that may not merge, the first in the list.
DESIGN CHOICE (notes/assumptions/68). -/
def Group.choice (g : Group) : Option Entry :=
  g.entries.foldl (fun b e =>
    if !e.isReady then b
    else match b with
      | none => some e
      | some x => if g.chosenBefore e x then some e else some x) none

/-- Makes an entry the issuing one (R143); a change of the issuing entry empties the operand holds (R76). -/
def Group.appoint (g : Group) (e : Entry) : Group :=
  { g with entries := g.entries.map fun x => if x = e then { x with issuing := true } else x,
           holds := if e.mask = g.holder then g.holds else [] }

/-- Chooses the next issuing entry when there is none (R143). -/
def Group.elect (g : Group) : Group :=
  if g.entries.any (·.issuing) then g
  else match g.choice with
    | none => g
    | some e => g.appoint e

/-- Whether an entry is within a run, or within its first word (R73, R75). -/
def Entry.inRun (e : Entry) : Bool := e.words != 0 || e.release.isSome

/-- In a group that may begin no run, an issuing entry that has not begun its run waits again (R362). -/
def Group.unelect (g : Group) : Group :=
  { g with entries := g.entries.map fun e => if e.issuing && !e.inRun then { e with issuing := false } else e }

/-- In a group that may begin no run, an entry within its run is chosen to go on to its end (R75). -/
def Group.electMid (g : Group) : Group :=
  if g.entries.any (·.issuing) then g
  else match g.entries.find? fun e => e.isReady && e.inRun with
    | none => g
    | some e => g.appoint e

-- loop ends

/-- The loop-end evaluation at the word at `x` (R127): the new loop stack, and whether the PC goes back to the top entry's
start. -/
def loopEnd (x : VAddr) : List LoopEntry → List LoopEntry × Option VAddr
  | [] => ([], none)
  | e :: rest =>
    if e.stop = x then
      if e.count - 1 = 0 then loopEnd x rest
      else ({ e with count := e.count - 1 } :: rest, some e.start)
    else (e :: rest, none)

/-- A lane after a word at `x` that does not transfer control (R15, R127). -/
def Lane.advance (l : Lane) (x : VAddr) : Lane :=
  match loopEnd x l.loops with
  | (ls, some p) => { l with loops := ls, pc := p }
  | (ls, none) => { l with loops := ls, pc := x + 8 }

-- results of variable latency

/-- Writes one result's destinations over their present values and merges its flags (R29, R71). -/
def Lane.commit (l : Lane) (r : Result) : Lane := (l.setRegs r.writes).raise r.flags

/-- Commits a run's results in program order up to the first that carries a trap condition, and discards the rest (R71,
R74). The condition is delivered at its own word (R404). DEDUCED (notes/assumptions/15). -/
def Lane.commitAll (l : Lane) : List Result → Lane × Option TrapInfo
  | [] => (l, none)
  | r :: rs => match r.trap with
    | some t => (l, some { t with fpc := some r.pc })
    | none => (l.commit r).commitAll rs

/-- The results of a run that its end commits (R71, R74). -/
def Lane.committed (l : Lane) : List Result := l.results.takeWhile (·.trap.isNone)

/-- A lane at a run end: its results committed, or the trap condition met (R71, R74); an `atomc`'s error after them
(R440). -/
def Lane.runEnd (l : Lane) : Lane × Option TrapInfo :=
  let (l', t) := l.commitAll l.results
  match t with
  | some t => ({ l' with results := [] }, some t)
  | none => ({ l' with results := [], late := none }, l.late)

/-- Whether every result of the lane's run has returned. -/
def Lane.allBack (l : Lane) : Bool := l.results.all (·.back)

end Sys2Proof.Machine
end

