-- ==== Sys2Proof/Machine/Settle.lean ====
section
/-! DEFINITION. What ends lanes and teams (R14, R130, R150, R356), the context error log (R357), the epochs of convergence
registers (R148-R151), barriers (R188), the regrouping table (R181, R182), and `settle`: everything that happens to a
team at the moment its condition holds, after which each group chooses its issuing entry (R143). -/
namespace Sys2Proof.Machine

-- the context error log

/-- Writes one entry of a context's error log and begins the release after which the index counts it (R357); an access that
faults leaves no entry (R382). `team` and `gang` are `$team` and `$gang`. DESIGN CHOICE (notes/assumptions/28). -/
def State.errorEntry (s : State) (ctx core team gang cause : Nat) (code : Byte) (pc : VAddr) : State :=
  let (s, d) := s.desc ctx
  let e := (descElog d).toNat
  let n := e % 64
  let base := fieldN e 55 6 * 64
  if n < 4 ∨ 16 < n then s else
  let who : PartWho := { src := 4, ctx := ctx, core := core, part := true, raises := true }
  match s.partXlate (.va ctx base) permAtomic who with
  | (s, .ok _) =>
    match s.partRead (.va ctx base) 8 who with
    | (s, .ok bs) =>
      let entry := bytesOf 8 (ctx * 2 ^ 48 + team * 2 ^ 38 + gang) ++ bytesOf 8 (cause * 256 + code.toNat) ++
        bytesOf 8 pc.toNat ++ bytesOf 8 s.time.now.toNat
      let ahead := (s.priv.elogs.filter fun x => x.ctx == ctx && x.base == base).length
      match s.partWrite (.va ctx (base + 64 + 32 * ((ofBytes bs + ahead) % 2 ^ n))) entry who with
      | (s, .ok ls) =>
        let (s, w) := s.beginRelease ls
        { s with priv := { s.priv with elogs := s.priv.elogs ++ [{ ctx := ctx, base := base, core := core, wait := w }] } }
      | (s, _) => s
    | (s, _) => s
  | (s, _) => s

/-- Adds 1 to the index of an error log for each entry whose release is over (R357). -/
def State.countEntries (s : State) : State :=
  let isReady (x : ElogWait) : Bool := s.releaseOver x.wait
  let ready := s.priv.elogs.filter isReady
  if ready.isEmpty then s
  else
    let s := { s with priv := { s.priv with elogs := s.priv.elogs.filter fun x => !isReady x } }
    ready.foldl (fun (s : State) x =>
      ((s.partRelease x.wait.lines).partIncrement (.va x.ctx x.base)
        { src := 4, ctx := x.ctx, core := x.core, part := true, raises := true }).1) s

/-- The record of the context error log for a team (R357). -/
def State.errorLog (s : State) (team cause : Nat) (code : Byte) (pc : VAddr) : State :=
  match s.team? team with
  | none => s
  | some t =>
    let gang := match s.gang? t.gang with | some g => g.index | none => 0
    s.errorEntry (s.ctxOf t) t.core t.index gang cause code pc

-- live lanes

/-- The `$tid`s of a team's lanes that a regrouping entry holds (R181). -/
def State.heldTids (s : State) (team : Nat) : List Nat :=
  s.regroup.flatMap fun r => if r.team = team then r.lanes.map fun h => h.lane.tid else []

/-- The quads of a group that lanes held for regrouping have left (R182): their helper lanes stay till the release. -/
def State.heldQuads (s : State) (team g : Nat) : List Nat :=
  s.regroup.flatMap fun r => if r.team = team then (r.lanes.filter (·.group == g)).map (·.slot / 4) else []

/-- The `$tid`s of every live lane of a team, held lanes included (R183). -/
def State.liveTids (s : State) (t : Team) : List Nat := (t.live.map fun p => p.2.2.tid) ++ s.heldTids t.id

-- exit

/-- Drops a lane's watch from the stacks' monitor tables. -/
def State.unwatch (s : State) (team tid : Nat) : State :=
  { s with mem := { s.mem with stackList := s.mem.stackList.map fun x =>
      { x with watches := x.watches.filter fun w => !(w.team == team && w.tid == tid) } } }

/-- Takes a lane out of the sets of every convergence register of its team (R150); what it gave at its signature goes with
it (R200). -/
def ConvReg.remove (c : ConvReg) (tid : Nat) : ConvReg :=
  let m : BitVec 1024 := ~~~(BitVec.twoPow 1024 tid)
  let op := c.op.map fun (o : MatOp) => { o with caps := o.caps.filter (·.tid != tid) }
  { c with decl := c.decl &&& m, sgn := c.sgn &&& m, op := op }

/-- The errors of `atomc`s that were performed after their lanes were gone go into the error log (R440). -/
def State.logOrphans (s : State) (team : Nat) : State :=
  match s.team? team with
  | none => s
  | some t =>
    if t.orphans.isEmpty then s
    else (t.orphans.foldl (fun (s : State) x => s.errorLog team 9 x.2.code x.2.opc) s).updTeam team fun t => { t with orphans := [] }

/-- What a lane that ends leaves behind: an `atomc`'s error it has not taken goes to the error log (R440), and its watch
ends. -/
def State.leaveLane (s : State) (team : Nat) (l : Lane) : State :=
  let s := match l.late with
    | some x => s.errorLog team 9 x.code x.opc
    | none => s
  if l.monitor.isSome then s.unwatch team l.tid else s

/-- The lanes of a team that are held for regrouping end (R356, R440). -/
def State.exitHeld (s : State) (team : Nat) : State :=
  let mine := s.regroup.filter fun r => r.team == team
  let s := (mine.flatMap (·.lanes)).foldl (fun (s : State) h => s.leaveLane team h.lane) s
  { s with regroup := s.regroup.filter fun r => r.team != team }

/-- A lane ends (R14, R130, R150). -/
def State.exitLane (s : State) (team g slot : Nat) : State :=
  match s.lane? team g slot with
  | none => s
  | some l =>
    let s := s.leaveLane team l
    let s := s.updLane team g slot fun _ => emptyLane
    let s := s.updGroup team g (Group.dropHelpers (s.heldQuads team g))
    s.updTeam team fun t => { t with cvs := t.cvs.map fun c => c.remove l.tid }

/-- Lanes of one group end, in one step. -/
def State.exitLanes (s : State) (team g : Nat) (slots : List Nat) : State :=
  slots.foldl (fun s i => s.exitLane team g i) s

-- batches

/-- An empty open batch. -/
def emptyBatch : Batch :=
  { seq := 0, count := 0, ops := [], time := 0, fault := none, multi := false, stamp := none, complete := false, stampAt := none }

/-- Closes a queue's open batch (R293, R298). -/
def CopyQueue.close (q : CopyQueue) (stamp : Option Stamp) : CopyQueue :=
  let n := q.seq + 1
  { q with seq := n, open_ := emptyBatch, closed := q.closed ++ [{ q.open_ with seq := n, stamp := stamp }] }

/-- Closes the open batch, if it holds operations, without a stamp. When they and all earlier batches are complete, so is
it (R294). -/
def CopyQueue.closeEnd (q : CopyQueue) : CopyQueue :=
  if q.open_.count = 0 then q
  else if !q.open_.ops.isEmpty || !(q.closed.all (·.complete)) then q.close none
  else
    let time := if q.open_.time < q.time then q.time else q.open_.time
    let b := { q.open_ with seq := q.seq + 1, complete := true, time := time }
    { q with seq := q.seq + 1, open_ := emptyBatch, time := time, closed := if b.fault.isNone then q.closed else q.closed ++ [b] }

/-- Closes the open batches that hold operations, without a stamp (R356, R364). -/
def Team.closeOpen (t : Team) : Team := { t with queues := t.queues.map CopyQueue.closeEnd }

-- the end of a team

/-- Orders the end of a team that cannot take a trap (R356). DEDUCED (notes/assumptions/23). -/
def State.kill (s : State) (team cause : Nat) (code : Byte) (pc : VAddr) : State :=
  s.updTeam team fun t => if t.ended ∨ t.dying.isSome then t else { t with dying := some (cause, code, pc) }

/-- Whether an entry of a killed team stands at a run end (R356), or in a run that cannot come to its end since it waits for
an epoch that other lanes no longer sign. DEDUCED (notes/assumptions/23). -/
def Team.stopped (t : Team) (e : Entry) : Bool :=
  let open_ := t.cvs.filterMap fun c => c.op.map (·.num)
  !e.inRun || e.ending.isSome || match e.wake with
    | some (.epoch _) => true
    | some (.matrix ops) => ops.any open_.contains
    | _ => false

/-- Ends a killed team once every lane has stopped (R356); one that is saved has no lane that runs. -/
def State.finishKill (s : State) (team : Nat) : State :=
  match s.team? team with
  | none => s
  | some t =>
    match t.dying with
    | none => s
    | some (cause, code, pc) =>
      if t.ended || (t.resident && !(t.groups.all fun g => g.entries.all t.stopped)) then s else
      let s := (t.live.foldl (fun s p => s.exitLane team p.1 p.2.1) s).exitHeld team
      let s := s.updTeam team fun t =>
        Team.closeOpen { t with groups := t.groups.map fun g => { g with entries := [] } }
      (s.errorLog team cause code pc).updTeam team fun t => { t with ended := true }

/-- A team whose last lane has ended (R130). -/
def State.teamOver (s : State) (team : Nat) : State :=
  match s.team? team with
  | none => s
  | some t => if (s.liveTids t).isEmpty then s.updTeam team fun t => { t with ended := true } else s

-- conditions of parked entries

/-- Whether a line of local memory is present for a core. -/
def State.lineHere (s : State) (core : Nat) : LineId → Bool
  | .shared team n => match s.team? team with
    | some t => (t.local_.line n).present (s.timeAt core)
    | none => true
  | .scratch gang n => match s.gang? gang with
    | some g => (g.local_.line n).present (s.timeAt core)
    | none => true

/-- The numbers of a team's matrix operations and appends that are not finished (R196, R200, R217). -/
def Team.matrixOps (t : Team) : List Nat :=
  t.tileOps.map (·.num) ++ t.cvs.filterMap (fun c => c.op.map (·.num)) ++ t.appends.map (·.num)

/-- Whether an engine operation writes main memory (R158, R268). -/
def EngOp.writesMain (o : EngOp) : Bool :=
  match o.kind with
  | .copyOut .. | .scatterOut .. | .far .. | .chain .. => true
  | _ => false

/-- Whether an operation is a team's own, not a host copy channel's. -/
def OpOwner.isTeams : OpOwner → Bool
  | .host _ => false
  | _ => true

/-- Whether an access held at the port is a store or an atomic. -/
def PortAct.writes : PortAct → Bool
  | .load .. => false
  | _ => true

/-- The `$tid`s of the lanes that issued a held access. -/
def Held.tids (h : Held) : List Nat := match h.act with
  | .scatter _ ts => ts
  | _ => [h.tid]

/-- The waits of ReleaseWait for lanes of a team (R268): local stores and atomics performed; main-memory writes, far atomics
and copies complete or faulted. It does not wait for data that lands in local memory (R278). DEDUCED
(notes/assumptions/40). -/
def State.writesDone (s : State) (t : Team) (tids : List Nat) : Bool :=
  let held (m : LocalMem) := m.held.any fun h => h.team == t.id && h.tids.any tids.contains && h.act.writes
  !held t.local_ && !(match s.gang? t.gang with | some g => held g.local_ | none => false)
    && !(s.ops.any fun o => o.team == t.id && o.owner.isTeams && tids.contains o.tid && o.writesMain && o.phase != .done)

/-- The largest CT of lanes (R267). -/
def Team.ctOf (t : Team) (tids : List Nat) : W64 :=
  t.live.foldl (fun m p => if tids.contains p.2.2.tid && decide (m < p.2.2.ct) then p.2.2.ct else m) 0

/-- Whether a release by lanes of a team is over at a scope (R262, R268). -/
def State.released (s : State) (t : Team) (tids : List Nat) (scope : Scope) : Bool :=
  s.writesDone t tids && decide (t.ctOf tids + BitVec.ofNat 64 (s.margin scope) ≤ s.timeAt t.core)

/-- The lanes' `$tid`s of an entry. -/
def Group.tids (g : Group) (e : Entry) : List Nat :=
  ((slotsOf e.mask).filter fun i => g.isLive i).map fun i => (g.lane i).tid

/-- Whether a team's gang has no other team: its `gbar` is a `bar` with fences of cluster scope (R189). -/
def State.aloneInGang (s : State) (t : Team) : Bool := match s.gang? t.gang with | some g => g.size == 1 | none => true

/-- What a parked entry becomes when its condition, read from the state, holds (R145): lines and matrix operations to wait
for, and the release a barrier's arrival makes (R188, R189). -/
def State.wakeEntry (s : State) (t : Team) (g : Group) (e : Entry) : Entry :=
  match e.wake with
  | some (.lines ls) => if ls.all (s.lineHere t.core) then { e with wake := none } else e
  | some (.matrix ops) => if ops.any t.matrixOps.contains then e else { e with wake := none }
  | some (.arrive gang) =>
    if s.released t (g.tids e) (if gang then .cluster else .team) then
      { e with wake := some (if gang && !s.aloneInGang t then .gbar else .bar) }
    else e
  | _ => e

/-- Applies `wakeEntry` to every entry of a group; lanes that have arrived at a barrier have nothing left to release. -/
def State.wakeGroup (s : State) (t : Team) (g : Group) : Group :=
  let es := g.entries.map (s.wakeEntry t g)
  let freed := (g.entries.zip es).flatMap fun (a, b) => if a.wake = b.wake then [] else
    (match b.wake with | some .bar | some .gbar => slotsOf b.mask | _ => [])
  { g.updSlots freed (fun _ l => { l with ct := 0 }) with entries := es }

/-- Whether an entry has arrived at the team barrier (R188). -/
def Group.arrived (g : Group) : Nat := (g.entries.filter fun e => e.wake = some .bar).length

/-- The group whose arrival at the team barrier came now (R164, R188): where several groups arrive at once, the lowest-numbered.
DESIGN CHOICE (notes/assumptions/68). -/
def State.arrival (s : State) (t : Team) : Option Nat :=
  (t.groups.zipIdx.find? fun (g, _) => g.arrived < (s.wakeGroup t g).arrived).map (·.2)

/-- Applies `wakeGroup` to every group of a team. -/
def State.wakeTeam (s : State) (team : Nat) : State :=
  match s.team? team with
  | none => s
  | some t => s.updTeam team fun x => { x with groups := t.groups.map (s.wakeGroup t) }

-- epochs

/-- Whether every live lane of the declared set has signed, after a first signature (R149). -/
def State.epochDone (s : State) (t : Team) (c : ConvReg) : Bool :=
  c.anchor.isSome && (s.liveTids t).all fun i => !c.decl.getLsbD i || c.sgn.getLsbD i

/-- Completes the epoch of convergence register `cv` (R149): its operation issues (R196, R200), the lanes parked on it
become ready, SGN and the anchor are cleared. -/
def State.completeEpoch (s : State) (team cv : Nat) : State :=
  s.updTeam team fun t =>
    let c := t.cvs.getD cv { decl := 0, sgn := 0, anchor := none, op := none, group := none }
    let ops := match c.op with
      | some m => [{ num := m.num, tile := m.word.d.toNat, pc := m.pc, act := .mul m }]
      | none => []
    let wake (e : Entry) : Entry :=
      if e.wake = some (.join cv) ∨ e.wake = some (.epoch cv) then { e with wake := none } else e
    { t with cvs := t.cvs.set cv { c with sgn := 0, anchor := none, op := none, group := none },
             tileOps := t.tileOps ++ ops,
             groups := t.groups.map fun g => { g with entries := g.entries.map wake } }

/-- Completes every epoch of a team that is done. -/
def State.epochs (s : State) (team : Nat) : State :=
  match s.team? team with
  | none => s
  | some t => (List.range t.cvs.length).foldl (fun s cv =>
      match (s.team? team).bind fun t => t.cvs[cv]?.map fun c => (t, c) with
      | some (t, c) => if s.epochDone t c then s.completeEpoch team cv else s
      | none => s) s

-- barriers

/-- Whether every live lane of a team has arrived: parked with a condition, and none held for regrouping (R188). -/
def State.allAt (s : State) (t : Team) (w : Wake) : Bool :=
  (s.heldTids t.id).isEmpty && t.groups.all fun g => g.entries.all fun e => e.wake = some w

/-- Makes the entries parked with a condition ready; their lanes acquire (R188, R267). -/
def State.releaseAt (s : State) (team : Nat) (w : Wake) : State :=
  match s.team? team with
  | none => s
  | some t =>
    let now := s.timeAt t.core
    s.updTeam team fun t =>
      { t with groups := t.groups.map fun g =>
          let freed := (g.entries.filter fun e => e.wake = some w).flatMap fun e => slotsOf e.mask
          { g.updSlots freed (fun _ l => { l with acq := now }) with
            entries := g.entries.map fun e => if e.wake = some w then { e with wake := none } else e } }

/-- The team barrier (R188): `by_` is the group whose arrival or exit may complete it (R164). -/
def State.barrier (s : State) (team : Nat) (by_ : Option Nat) : State :=
  match s.team? team with
  | none => s
  | some t =>
    if (t.groups.any fun g => g.entries.any fun e => e.wake = some .bar) && s.allAt t .bar then
      (s.releaseAt team .bar).updTeam team fun t => { t with last := by_ }
    else s

/-- The gang barrier (R188, R189). -/
def State.gangBarrier (s : State) (gang : Nat) : State :=
  let ts := s.teams.filter fun t => t.gang == gang
  if (ts.any fun t => t.groups.any fun g => g.entries.any fun e => e.wake = some .gbar)
      && ts.all fun t => s.allAt t .gbar then
    ts.foldl (fun s t => s.releaseAt t.id .gbar) s
  else s

-- regrouping

/-- Inserts into a list ordered by `before`. -/
def insertBy (before : α → α → Bool) (x : α) : List α → List α
  | [] => [x]
  | y :: ys => if before x y then x :: y :: ys else y :: insertBy before x ys

def sortBy (before : α → α → Bool) : List α → List α
  | [] => []
  | x :: xs => insertBy before x (sortBy before xs)

/-- The groups that lanes of an entry came from (R182). -/
def Regroup.groups (r : Regroup) : List Nat := (r.lanes.map (·.group)).eraseDups

/-- Fills the slots of one kind of a group with the next held lanes, which go on at their next PC (R182). -/
def Group.fill (k : SlotKind) (g : Group) (ls : List HeldLane) : Group × List HeldLane :=
  let free := (List.range 32).filter fun i => decide ((g.lane i).kind = k)
  let pairs := free.zip ls
  let g' := pairs.foldl (fun (g : Group) (i, h) => { g with lanes := g.lanes.set i h.lane }) g
  let filled := maskOf (pairs.map (·.1))
  let others := g'.entries.map fun e => { e with mask := e.mask &&& ~~~filled }
  ({ g' with entries := others ++ g'.formEntries (pairs.map fun p => (p.1, none)) }, ls.drop pairs.length)

/-- Fills the slots of one kind of some groups, group by group (R182). -/
def fillGroups (k : SlotKind) (order : List Nat) (x : List Group × List HeldLane) : List Group × List HeldLane :=
  order.foldl (fun x gi => match x.1[gi]? with
    | none => x
    | some g => let (g', rest) := g.fill k x.2; (x.1.set gi g', rest)) x

-- the register file's check codes

/-- Array address of a register (R361). -/
def Team.regAddr (t : Team) (g slot reg : Nat) : Nat := t.regBase + ((g * 32 + slot) * t.nregs + reg) * 4

/-- Whether any codeword of a register file is wrong, or will be at a write. -/
def State.regArmed (s : State) : Bool := s.mem.flips.any (·.kind == 0) || s.mem.injects.any (·.kind == 0)

/-- Writes of registers as the register file stores them (R358, R376). -/
def State.wroteRegs (s : State) (team g slot : Nat) (regs : List (Nat × Nat)) : State :=
  if !s.regArmed then s else
  match s.team? team with
  | none => s
  | some t => regs.foldl (fun s (r, n) => s.sramWrite 0 t.core (s.ctxOf t) (t.regAddr g slot r) (4 * n)) s

/-- Releases a regrouping entry (R182). A held lane's loop end was evaluated when it was submitted. Where `hlp.on` has
filled the slots that lanes left, the lanes that find no empty one take those of helper lanes. Their registers are written in
their new slots (R358, R376). DEDUCED (notes/assumptions/20, 25). -/
def State.releaseRegroup (s : State) (r : Regroup) : State :=
  match s.team? r.team with
  | none => s
  | some t =>
    let count (g : Nat) : Nat := (t.live.filter fun p => p.1 == g).length
    let order := sortBy (fun a b => decide (count b < count a) || (decide (count a = count b) && decide (a ≤ b))) r.groups
    let held := sortBy (fun (a b : HeldLane) =>
      decide (a.group < b.group) || (decide (a.group = b.group) && decide (a.slot ≤ b.slot))) r.lanes
    let (groups, _) := fillGroups .helper order (fillGroups .empty order (t.groups, held))
    let s := { s with regroup := s.regroup.filter (· != r) }
    let took (gi i : Nat) : Bool := match groups[gi]? with
      | some g => (g.lane i).kind == .live && held.any fun h => h.lane.tid == (g.lane i).tid
      | none => false
    let s := s.updTeam r.team fun t =>
      { t with groups := groups.zipIdx.map fun (g, gi) => (g.dropHelpers (s.heldQuads r.team gi)).tidy }
    r.groups.foldl (fun s gi => ((List.range 32).filter (took gi)).foldl (fun s i =>
      s.wroteRegs r.team gi i [(0, t.nregs)]) s) s

/-- Whether the group's issue is stopped by a suspended operation or fetch (R362, R391): an operation that was issued again
counts until it has passed. -/
def State.replayable (s : State) (team gi : Nat) (g : Group) : Bool :=
  (s.ops.any fun o => o.team == team && o.group == gi && (o.wait.isSome || o.again == some o.phase) &&
    o.owner.isTeams && (match o.kind with | .refetch _ => false | _ => true))
  || (match s.team? team with
      | some t => t.queues.any fun q => q.closed.any fun b => match b.stamp with
        | some x => x.group == gi && x.wait.isSome
        | none => false
      | none => false)
  || g.entries.any fun e => match e.wake with | some (.fetch ..) => true | _ => false

/-- What a result joins: a tile or a descriptor, and the operations it waits for (R201, R219). -/
def Need.join : Need → Option (Bool × Nat × List Nat)
  | .tileHalf t _ _ ops => some (true, t, ops)
  | .tileStat t _ ops => some (true, t, ops)
  | .olist o _ ops => some (false, o, ops)
  | _ => none

/-- Whether a team's run cannot come to its end until other lanes have signed an epoch: a joining word, or an `mma` all of
whose lanes have signed, waits for it (R200, R201). -/
def Team.awaitsSigners (t : Team) : Bool :=
  let open_ := t.cvs.filterMap fun c => c.op.map (·.num)
  !open_.isEmpty && (
    (t.places.any fun p => p.2.2.results.any fun r => match r.need.join with
      | some (_, _, ops) => ops.any open_.contains
      | none => false)
    || t.groups.any fun g => g.entries.any fun e => e.inRun && (match e.wake with
      | some (.epoch _) => true
      | some (.matrix ops) => ops.any open_.contains
      | _ => false))

/-- Whether a group may begin no run: the team ends, leaves or is away, the group is replayable, or the part is stopped
(R356, R362, R363, R378). A team that is to be saved begins runs while one of its runs waits for lanes that have not signed:
that run could not end otherwise (R364). DEDUCED (notes/assumptions/29). -/
def State.blocked (s : State) (t : Team) (gi : Nat) (g : Group) : Bool :=
  t.dying.isSome || t.ended || (t.saving != 0 && !t.awaitsSigners) || !t.resident || !s.running || s.replayable t.id gi g

/-- Whether every live lane of a team that no regrouping entry holds is parked (R182). -/
def State.allParked (s : State) (t : Team) : Bool :=
  t.groups.zipIdx.all fun (g, gi) =>
    let b := s.blocked t gi g
    g.entries.all fun e => !e.isReady || (b && e.words == 0)

/-- Releases the regrouping entries of a team whose moment has come (R182): it comes to all of them when every other lane is
parked. -/
def State.regroups (s : State) (team : Nat) : State :=
  match s.team? team with
  | none => s
  | some t =>
    let parked := s.allParked t
    (s.regroup.filter fun r => r.team == team && (parked || decide (8 ≤ r.groups.length))).foldl State.releaseRegroup s

-- settle

/-- Merges ready entries and chooses the issuing entry of each group of a team (R143, R145); notes when the team's
replayable period began (R362). -/
def State.elect (s : State) (team : Nat) : State :=
  match s.team? team with
  | none => s
  | some t =>
    let groups := t.groups.zipIdx.map fun (g, gi) =>
      if s.blocked t gi g then g.unelect.merge.electMid else g.merge.elect
    let rep := t.groups.zipIdx.any fun (g, gi) => s.replayable t.id gi g
    let since := if rep then (match t.replaySince with | some x => some x | none => some (s.timeAt t.core)) else none
    s.updTeam team fun t => { t with groups := groups, replaySince := since }

/-- Ends, wakes and releases for one team. The group that completes a barrier is the one that arrives at it now, or else
the one whose lanes have just exited (R188). -/
def State.settleTeam (s : State) (by_ : Option (Nat × Nat)) (team : Nat) : State :=
  let s := (s.finishKill team).logOrphans team
  let s := s.updTeam team fun t => { t with groups := t.groups.map Group.tidy }
  let came := (s.team? team).bind s.arrival
  let s := s.wakeTeam team
  let s := s.epochs team
  let ended := by_.bind fun x => if x.1 = team then some x.2 else none
  s.barrier team (came.or ended)

/-- Everything that happens at the moment its condition holds, in every team; `by_` names the team and group whose run end
came last. -/
def State.settle (s : State) (by_ : Option (Nat × Nat) := none) : State :=
  let ids := s.teams.map (·.id)
  let s := ids.foldl (fun s t => s.settleTeam by_ t) s
  let s := (s.gangs.map (·.id)).foldl (fun s g => s.gangBarrier g) s
  ids.foldl (fun s t => ((s.regroups t).teamOver t).elect t) s

end Sys2Proof.Machine
end

