-- ==== Sys2Proof/Machine/Ops.lean ====
section
/-! DEFINITION. The shared operations of every word: the bundle that issues (R142, R143), the checks before a word (R73,
R77, R128, R358), taking a trap (R353, R354), returning from one (R355), signing a convergence register (R149, R185),
and the run with its end (R68-R75, R145). -/
namespace Sys2Proof.Machine

/-- The bundle that issues a word: its entry's lanes, and P, the lanes whose guard passes (R55, R142). -/
structure Bun where
  team : Nat
  group : Nat
  /-- a slot of the entry -/
  slot : Nat
  core : Nat
  ctx : Nat
  priv : Bool
  pc : VAddr
  /-- live and helper slots of the entry -/
  slots : List Nat
  live : List Nat
  /-- P: live and helper slots whose guard passes; the live ones of them -/
  act : List Nat
  plive : List Nat
  deriving DecidableEq, Repr

/-- An unguarded header: every lane of the bundle is a lane of P. -/
def plainHdr : Hdr := { sw := false, gn := false, gp := 31 }

/-- What the meaning of a word does with the state. -/
inductive Effect where
  /-- the word has had its effect; the PC of the listed slots was set by the word itself -/
  | done (s : State) (moved : List Nat)
  /-- as `done`, and the run ends whatever S is -/
  | doneEnd (s : State) (moved : List Nat)
  /-- the word is held at issue and has no effect (R295, R317) -/
  | hold (s : State)
  /-- the bundle parks before the word issues (R145) -/
  | park (s : State) (w : Wake)
  /-- precise traps, by slot -/
  | trap (s : State) (ts : List (Nat × TrapInfo))
  /-- the word ends the run and acts after the run's commit (R68) -/
  | finish (s : State) (e : Ending)

/-- The bundle a frontier entry forms when it is its group's issuing entry. -/
def State.bun? (s : State) (h : Hdr) (b : BundleId) : Option Bun :=
  match s.team? b.team with
  | none => none
  | some t =>
    match t.groups[b.group]? with
    | none => none
    | some g =>
      match g.entryAt b.slot with
      | none => none
      | some e =>
        if e.issuing && e.isReady && t.resident then
          let slots := (slotsOf e.mask).filter fun i => g.isLive i || g.isHelper i
          let live := slots.filter fun i => g.isLive i
          some { team := b.team, group := b.group, slot := b.slot, core := t.core, ctx := s.ctxOf t, priv := s.privOf t,
                 pc := (g.lane b.slot).pc, slots := slots, live := live,
                 act := slots.filter fun i => (g.lane i).guard h,
                 plive := live.filter fun i => (g.lane i).guard h }
        else none

/-- The lane in a slot of a bundle. -/
def State.lane (s : State) (u : Bun) (slot : Nat) : Lane := (s.lane? u.team u.group slot).getD emptyLane

/-- Changes the lanes in listed slots of a bundle's group. -/
def State.mapLanes (s : State) (u : Bun) (ss : List Nat) (f : Nat → Lane → Lane) : State :=
  s.updGroup u.team u.group fun g => g.updSlots ss f

/-- A precise trap at a word (R351). -/
def trapAt (code : Byte) (pc : VAddr) (info0 info1 : W64 := 0) : TrapInfo :=
  { code := code, info0 := info0, info1 := info1, opc := pc, rpt := false, multi := false }

/-- The same trap in each of some slots. -/
def trapAll (ss : List Nat) (t : TrapInfo) : List (Nat × TrapInfo) := ss.map fun i => (i, t)

-- taking a trap

/-- The bytes of a trap frame (R354). -/
def frameBytes (l : Lane) (t : TrapInfo) (fpc npc : VAddr) (resume : W64) (runend : Bool) : List Byte :=
  let w0 := l.preds.toNat * 2 ^ 32 + t.k.toNat * 2 ^ 16 + (if runend then 1024 else 0) + (if t.multi then 512 else 0)
    + (if t.rpt then 256 else 0) + t.code.toNat
  let loop (i : Nat) : List Byte := match l.loops[i]? with
    | some e => bytesOf 8 e.start.toNat ++ bytesOf 8 e.stop.toNat ++ bytesOf 8 e.count.toNat
    | none => List.replicate 24 0
  bytesOf 8 w0 ++ bytesOf 8 fpc.toNat ++ bytesOf 8 t.opc.toNat ++ bytesOf 8 npc.toNat ++ bytesOf 8 resume.toNat ++
    bytesOf 8 t.info0.toNat ++ bytesOf 8 t.info1.toNat ++ bytesOf 8 l.loops.length ++
    loop 0 ++ loop 1 ++ loop 2 ++ loop 3

/-- A code pointer (R119). -/
def codePtr (prio : Byte) (pc : VAddr) : W64 := prio ++ pc

/-- ADDR and PRIO of a code pointer as they are used (R119). -/
def ptrAddr (p : W64) : VAddr := BitVec.ofNat 56 (p.toNat % 2 ^ 56 / 8 * 8)
def ptrPrio (p : W64) : Byte := BitVec.ofNat 8 (p.toNat / 2 ^ 56)

/-- A lane takes a trap (R353), or its team is killed. DEDUCED (notes/assumptions/18). -/
def State.takeTrap (s : State) (team g slot : Nat) (t : TrapInfo) (fpc npc : VAddr) (resume : W64) (runend : Bool) : State :=
  match s.team? team, s.lane? team g slot with
  | some tm, some l =>
    let (s, d) := s.desc (s.ctxOf tm)
    let tvec := descTvec d
    if l.hnd then s.kill team 2 t.code t.opc
    else if ptrAddr tvec = 0 then s.kill team 1 t.code t.opc
    else
      let a : Int := (l.spill.toNat : Int) - 160
      if !tm.spillOk l.tid a 160 then s.kill team 3 t.code t.opc
      else
        let s := s.stackWrite tm l.tid a.toNat (frameBytes l t fpc npc resume runend)
        s.updLane team g slot fun l =>
          { l with spill := l.spill - 160, loops := [], hnd := true, pc := ptrAddr tvec, prio := ptrPrio tvec }
  | _, _ => s

/-- A precise trap's frame and resumption (R354). -/
def State.takePrecise (s : State) (team g slot : Nat) (t : TrapInfo) (fpc : VAddr) : State :=
  let l := (s.lane? team g slot).getD emptyLane
  let npc := fpc + 8
  s.takeTrap team g slot t fpc npc (codePtr l.prio (if t.code = 0x08 then npc else fpc)) false

/-- A run-end trap condition's frame and resumption at the lane's next PC (R354, R404). -/
def State.takeRunEnd (s : State) (team g slot : Nat) (t : TrapInfo) (fpc : VAddr) : State :=
  let l := (s.lane? team g slot).getD emptyLane
  s.takeTrap team g slot t (t.fpc.getD fpc) l.pc (codePtr l.prio l.pc) true

-- returning from a trap

/-- What a frame's words give `rfe` (R355); none when LOOPD is above 4 or a reserved field is nonzero. The bits of a word
that R354 gives no field count as reserved, and the low bits of a START are not kept, so that the PC stays a multiple of 8
(R15). DEDUCED (notes/assumptions/17). -/
def frameLane (l : Lane) (bs : List Byte) : Option Lane :=
  let w (i : Nat) : Nat := ofBytes ((bs.drop (8 * i)).take 8)
  let resv := fieldN (w 0) 63 56 != 0 || fieldN (w 0) 31 29 != 0 || fieldN (w 0) 15 11 != 0 ||
    [1, 2, 3, 8, 9, 11, 12, 14, 15, 17, 18].any (fun i => fieldN (w i) 63 56 != 0) ||
    [10, 13, 16, 19].any (fun i => fieldN (w i) 63 32 != 0) || fieldN (w 7) 63 3 != 0
  if 4 < w 7 || resv then none
  else
    let loops : List LoopEntry := (List.range (w 7)).map fun i =>
      { start := BitVec.ofNat 56 (w (8 + 3 * i) / 8 * 8), stop := BitVec.ofNat 56 (w (9 + 3 * i)),
        count := BitVec.ofNat 32 (w (10 + 3 * i)) }
    let r := BitVec.ofNat 64 (w 4)
    some { l with preds := BitVec.ofNat 24 (fieldN (w 0) 55 32), loops := loops, spill := l.spill + 160, hnd := false,
                  pc := ptrAddr r, prio := ptrPrio r }

/-- A lane returns from its handler (R355); none where the team is killed instead. -/
def State.returnLane (s : State) (team g slot : Nat) : State × Bool :=
  match s.team? team, s.lane? team g slot with
  | some t, some l =>
    if !t.spillOk l.tid l.spill.toNat 160 then (s, false)
    else
      let (s, bs, bad) := s.stackRead t l.tid l.spill.toNat 160
      if bad.isSome then (s, false)
      else match frameLane l bs with
        | some l' => (s.updLane team g slot fun _ => l', true)
        | none => (s, false)
  | _, _ => (s, false)

/-- `rfe` in every listed slot (R355): all of them return, or the team is killed. -/
def State.returnLanes (s : State) (team g : Nat) (pc : VAddr) : List Nat → State
  | [] => s
  | i :: is =>
    match s.returnLane team g i with
    | (s, true) => s.returnLanes team g pc is
    | (s, false) => s.kill team 2 0x01 pc

-- signing a convergence register

/-- Whether a lane may not sign: outside DECL, already in SGN, or at another address than the anchor (R149, R185). -/
def ConvReg.refuses (c : ConvReg) (tid : Nat) (pc : VAddr) : Bool :=
  !c.decl.getLsbD tid || c.sgn.getLsbD tid || (match c.anchor with | some a => a != pc | none => false)

/-- A convergence register as it is at team start (R148). -/
def ConvReg.empty : ConvReg := { decl := 0, sgn := 0, anchor := none, op := none, group := none }

def Team.cv (t : Team) (n : Nat) : ConvReg := t.cvs.getD n ConvReg.empty

/-- The trap of a lane that may not sign (R351). -/
def cvTrap (n : Nat) (c : ConvReg) (pc : VAddr) : TrapInfo :=
  trapAt 0x04 pc (BitVec.ofNat 64 n) (match c.anchor with | some a => a.setWidth 64 | none => 0)

/-- The lanes that may not sign register `n` from a word at `pc`, with their trap. -/
def State.cvTraps (s : State) (team g n : Nat) (pc : VAddr) (slots : List Nat) : List (Nat × TrapInfo) :=
  match s.team? team with
  | none => []
  | some t =>
    let c := t.cv n
    (slots.filter fun i => c.refuses ((s.lane? team g i).getD emptyLane).tid pc).map fun i => (i, cvTrap n c pc)

/-- One lane signs; true when its signature completes the epoch (R149, R185). -/
def State.signLane (s : State) (team n tid : Nat) (pc : VAddr) : State × Bool :=
  let s := s.updTeam team fun t =>
    let c := t.cv n
    { t with cvs := t.cvs.set n { c with sgn := c.sgn ||| BitVec.twoPow 1024 tid, anchor := some pc } }
  match s.team? team with
  | none => (s, false)
  | some t => if s.epochDone t (t.cv n) then (s.completeEpoch team n, true) else (s, false)

/-- Slots in ascending `$tid` (R151, R185). -/
def State.byTid (s : State) (team g : Nat) (slots : List Nat) : List Nat :=
  let tid (i : Nat) : Nat := ((s.lane? team g i).getD emptyLane).tid
  sortBy (fun a b => decide (tid a ≤ tid b)) slots

/-- Lanes sign in ascending `$tid`; the slots whose signature completed an epoch (R185). -/
def State.signLanes (s : State) (team g n : Nat) (pc : VAddr) (slots : List Nat) : State × List Nat :=
  (s.byTid team g slots).foldl (fun r i =>
    let x := r.1.signLane team n ((r.1.lane? team g i).getD emptyLane).tid pc
    (x.1, if x.2 then r.2 ++ [i] else r.2)) (s, [])

-- the register file's check codes

/-- Reads the registers a word reads in one lane (R358): the trap when a codeword is uncorrectable. -/
def State.readUses (s : State) (u : Bun) (t : Team) (slot : Nat) (us : List RegUse) : State × Option TrapInfo :=
  us.foldl (fun r x =>
    if !x.read then r else
    let (s, bad) := r.1.sramRead 0 u.core u.ctx (t.regAddr u.group slot x.first) (4 * x.count)
    (s, match r.2 with
      | some y => some y
      | none => if bad.isEmpty then none else some (trapAt 0x18 u.pc (BitVec.ofNat 64 (selectorOf 0 u.core)) 0))) (s, none)

/-- Whether the guard of a pair slot passes in a lane (R66). -/
def Lane.slotGuard (l : Lane) : PGuard → Bool
  | .always => true
  | .p0 => l.pred 0
  | .p1 => l.pred 1
  | .notP0 => !l.pred 0

/-- The registers a word uses in one lane: a pair slot whose guard fails uses none (R67). -/
def Lane.uses (l : Lane) (i : Instr) : List RegUse :=
  match pairSlots i with
  | some (x, y) => (if l.slotGuard x.args.pg then slotUses x else []) ++ (if l.slotGuard y.args.pg then slotUses y else [])
  | none => regUses i

/-- Whether a word copies or moves a lane's whole register file: the lane that `hlp.on` copies (R173), a lane that `reform`
submits (R181). DEDUCED (notes/assumptions/25). -/
def Bun.copiesFile (u : Bun) (g : Group) (i : Instr) (j : Nat) : Bool :=
  match i with
  | .hlpOn .. => (u.act.find? fun k => k / 4 == j / 4) == some j &&
      (List.range 4).any fun k => (g.lane (j / 4 * 4 + k)).kind == .empty
  | .reform _ x => u.plive.contains j && (g.lane j).pred x.a.toNat
  | _ => false

/-- The register-file errors that the lanes of P meet (R358). -/
def State.regTraps (s : State) (u : Bun) (i : Instr) : State × List (Nat × TrapInfo) :=
  if !s.regArmed then (s, []) else
  match s.team? u.team with
  | none => (s, [])
  | some t => u.act.foldl (fun r j =>
      let file : List RegUse := match s.group? u.team u.group with
        | some g => if u.copiesFile g i j then [{ first := 0, count := t.nregs, align := 1, read := true }] else []
        | none => []
      let (s, x) := r.1.readUses u t j ((s.lane u j).uses i ++ file)
      (s, match x with | some y => r.2 ++ [(j, y)] | none => r.2)) (s, [])

-- checks before a word

/-- A convergence register that a word names (R148). -/
def namedCv : Instr → Option Nat
  | .sign _ x | .join_ _ x | .cvset _ x => some (x.c.toNat % 16)
  | .mma _ x | .mmaq _ x => some x.cv.toNat
  | .gath _ x => if x.split then some (x.off.toNat % 16) else none
  | _ => none

/-- A tile that a word names (R193). -/
def namedTile : Instr → Option Nat
  | .mma _ x | .mmaq _ x | .tzero _ x | .tfill _ x | .tld _ x | .tst _ x => some x.d.toNat
  | .tmov _ x | .tstat _ x => some x.a.toNat
  | _ => none

/-- The conditions of R77 step 2 that depend on the team: its register, convergence-register and tile counts. -/
def Team.accepts (t : Team) (i : Instr) : Bool :=
  usesBelow t.nregs (regUses i)
    && (match namedCv i with | some n => decide (n < t.ncvs) | none => true)
    && (match namedTile i with | some n => decide (n < t.ntiles) | none => true)

/-- Words with a variable-latency result (R69). -/
def isVarlat : Instr → Bool
  | .div_ .. | .rem_ .. | .frcp .. | .frsq .. | .fsqrt .. | .fdiv .. | .fex2 .. | .flg2 .. | .fsin .. | .fcos ..
  | .tmov .. | .tstat .. | .olcnt .. | .ld .. | .gath .. | .atom .. | .fatom .. | .fcas .. | .qpop .. | .qstat ..
  | .qstatCq .. | .trstat .. | .elog .. => true
  | _ => false

/-- Words that fault at a loop's end (R128). -/
def noLoopEnd : Instr → Bool
  | .bra .. | .brx .. | .call .. | .callx .. | .ret .. | .loop .. | .loopImm .. | .loopPop .. | .trap .. | .rfe .. => true
  | _ => false

/-- Branch words, as R165 counts them. -/
def isBranch : Instr → Bool
  | .bra .. | .brx .. | .call .. | .callx .. | .ret .. => true
  | _ => false

/-- Privileged words (R371). -/
def isPrivileged : Instr → Bool
  | .csave .. | .crest .. | .tlbinv .. | .replay .. | .xinj .. | .elog .. | .elogClr .. | .halt .. => true
  | .rdsr _ x => decide (0x40 ≤ x.a.toNat)
  | .wrsr _ x => decide (0x40 ≤ x.d.toNat)
  | _ => false

/-- The traps that every word can raise before its effect, in the order of R77: an encoding the team does not accept
(step 2), a privileged word (step 4), a run that is full (R73), a word that may not end a loop (R128). A word that would
exceed a run's limit with a guard that fails in every live lane traps them all: R73 raises 0x05 at it and R351 names only
lanes of P. Helper lanes that meet a condition become empty (R141). DEDUCED (notes/assumptions/16). -/
def State.wordTraps (s : State) (i : Instr) (u : Bun) : List (Nat × TrapInfo) :=
  match s.team? u.team with
  | none => []
  | some t =>
    let e := (t.groups[u.group]?.bind fun g => g.entryAt u.slot).getD (Entry.ready 0)
    if !t.accepts i then trapAll u.slots (trapAt 0x01 u.pc)
    else if isPrivileged i && !u.priv && !u.act.isEmpty then trapAll u.act (trapAt 0x02 u.pc)
    else if 4096 ≤ e.words || (isVarlat i && 32 ≤ e.vars) then
      trapAll (if u.plive.isEmpty then u.slots else u.act) (trapAt 0x05 u.pc)
    else if noLoopEnd i then
      trapAll (u.slots.filter fun j => match (s.lane u j).loops with
        | top :: _ => top.stop == u.pc
        | [] => false) (trapAt 0x06 u.pc)
    else []

-- the end of a run

/-- The lane's place after a run's last word, before traps: the loop end is evaluated unless the word stays (R127, R130,
R200). -/
def Ending.place (e : Ending) (x : VAddr) (slot : Nat) (l : Lane) : Lane :=
  match e with
  | .plain | .trap _ => l
  | .exit ps | .epoch ps _ => if ps.contains slot then l else l.advance x
  | .sleep .. | .reform _ | .join .. | .bar .. | .mwait .. => l.advance x

/-- Drops the monitors of lanes (R248). -/
def State.disarm (s : State) (team g : Nat) (slots : List Nat) : State :=
  slots.foldl (fun s i =>
    match s.lane? team g i with
    | none => s
    | some l =>
      if l.monitor.isSome then (s.unwatch team l.tid).updLane team g i fun l => { l with monitor := none } else s) s

/-- Whether an `mwait` returns at once: a monitor of its lanes has fired, or a lane has none (R248). -/
def State.mwaitNow (s : State) (team g : Nat) (slots : List Nat) : Bool :=
  slots.any fun i => match ((s.lane? team g i).getD emptyLane).monitor with
    | some m => m.fired
    | none => true

/-- The earliest of some lanes' deadlines. -/
def minDeadline (ds : List (Nat × W64)) (slots : List Nat) : Option W64 :=
  ds.foldl (fun m p => if slots.contains p.1 then
    (match m with | none => some p.2 | some d => if p.2 < d then some p.2 else some d) else m) none

/-- Submits lanes to the regrouping table (R181): the entry for their team, address and priority, a new one, or none.
DEDUCED (notes/assumptions/20). -/
def State.submitRegroup (s : State) (team g core : Nat) (x : VAddr) (slots : List Nat) : State × Bool :=
  match s.group? team g, slots with
  | some grp, i :: _ =>
    let prio := (grp.lane i).prio
    let hs : List HeldLane := slots.map fun j => { group := g, slot := j, lane := grp.lane j }
    let open_ (r : Regroup) : Bool :=
      r.team == team && r.pc == x && r.prio == prio && (r.groups.contains g || decide (r.groups.length < 8))
    let leave (s : State) : State := slots.foldl (fun s j => s.updLane team g j fun _ => emptyLane) s
    if s.regroup.any open_ then
      let regroup := s.regroup.map fun r => if open_ r then { r with lanes := r.lanes ++ hs } else r
      (leave { s with regroup := regroup }, true)
    else if 16 ≤ (s.regroup.filter fun r => r.core == core).length then (s, false)
    else
      let r : Regroup := { core := core, team := team, pc := x, prio := prio, since := s.time.clock, lanes := hs }
      (leave { s with regroup := s.regroup ++ [r] }, true)
  | _, _ => (s, false)

/-- What the run's last word still does, for the slots `ok` that take no trap; what each slot then waits for (R68, R130,
R132, R181, R186, R188, R200, R248). -/
def State.actEnding (s : State) (team g : Nat) (x : VAddr) (e : Ending) (ok : List Nat) :
    State × List (Nat × Wake) :=
  match e with
  | .plain => (s, [])
  | .trap ts => (ts.foldl (fun s p => if ok.contains p.1 then s.takePrecise team g p.1 p.2 x else s) s, [])
  | .exit ps => (s.exitLanes team g (ps.filter ok.contains), [])
  | .sleep _ ds =>
    let now := match s.team? team with | some t => s.timeAt t.core | none => 0
    (s, (ds.filter fun p => ok.contains p.1 && decide (now < p.2)).map fun p => (p.1, .sleep p.2))
  | .reform ps =>
    let core := match s.team? team with | some t => t.core | none => 0
    ((s.submitRegroup team g core x (ps.filter ok.contains)).1, [])
  | .join ps cv =>
    let mine := ps.filter ok.contains
    let s := (s.signLanes team g cv x mine).1
    let waiting := match s.team? team with | some t => (t.cv cv).anchor.isSome | none => false
    (s, if waiting then mine.map fun i => (i, .join cv) else [])
  | .bar ps gang => (s, (ps.filter ok.contains).map fun i => (i, .arrive gang))
  | .mwait ps ds =>
    let mine := ps.filter ok.contains
    if mine.isEmpty then (s, [])
    else if s.mwaitNow team g mine then (s.disarm team g mine, [])
    else (s, mine.map fun i => (i, .mwait (minDeadline ds mine)))
  | .epoch ps cv =>
    let signed (i : Nat) : Bool := match s.team? team with
      | some t => (t.cv cv).sgn.getLsbD ((s.lane? team g i).getD emptyLane).tid
      | none => false
    (s, (ps.filter fun i => ok.contains i && signed i).map fun i => (i, .epoch cv))

/-- The ending that is carried out: a `join` whose lanes may not all sign is a precise trap at the word (R186). -/
def State.checkEnding (s : State) (team g : Nat) (x : VAddr) (e : Ending) (ok : List Nat) : Ending :=
  match e with
  | .join ps cv =>
    let ts := s.cvTraps team g cv x (ps.filter ok.contains)
    if ts.isEmpty then e else .trap ts
  | _ => e

/-- The runs of registers that stand one after another in a list of writes: first register and count. A pair's two halves are
stored together (R358, R376). -/
def regRuns : List Nat → List (Nat × Nat)
  | [] => []
  | r :: rs => match regRuns rs with
    | (q, n) :: more => if q = r + 1 then (r, n + 1) :: more else (r, 1) :: (q, n) :: more
    | [] => [(r, 1)]

/-- Commits the results of a slot's run (R71): the trap condition met, if any. -/
def State.commitSlot (s : State) (team g slot : Nat) : State × Option TrapInfo :=
  match s.lane? team g slot with
  | none => (s, none)
  | some l =>
    let (l', t) := l.runEnd
    let s := s.updLane team g slot fun _ => l'
    (s.wroteRegs team g slot (l.committed.flatMap fun r => regRuns (r.writes.map (·.1))), t)

/-- Ends a run whose lanes' results have all returned (R71, R74, R145): commit, what the last word still does, traps, and
the entries that the lanes form. -/
def State.finishRun (s : State) (team g : Nat) (mask : BitVec 32) (x : VAddr) (e : Ending) : State :=
  match s.group? team g with
  | none => s
  | some g0 =>
    let slots := (slotsOf mask).filter fun i => g0.isLive i || g0.isHelper i
    let old := (g0.entries.find? fun y => y.mask &&& mask != 0).getD (Entry.ready 0)
    -- commit
    let (s, conds) := slots.foldl (fun (r : State × List (Nat × TrapInfo)) i =>
      let y := r.1.commitSlot team g i
      (y.1, match y.2 with | some t => r.2 ++ [(i, t)] | none => r.2)) (s, [])
    let changed := match s.group? team g with
      | some g1 => slots.any fun i => (g0.lane i).regs != (g1.lane i).regs
      | none => false
    let wrote := slots.flatMap fun i => ((g0.lane i).committed.flatMap (·.writes)).map (·.1)
    let kept (hs : List Nat) : List Nat := if conds.isEmpty then hs.filter fun n => !wrote.contains n else []
    let s := s.updGroup team g fun y => { y with holds := kept y.holds }
    let gone := (conds.filter fun p => g0.isHelper p.1).map (·.1)
    let s := gone.foldl (fun s i => s.updLane team g i fun _ => emptyLane) s
    let conds := conds.filter fun p => g0.isLive p.1
    let ok := slots.filter fun i => g0.isLive i && !conds.any fun p => p.1 == i
    -- the last word's own end
    let e := s.checkEnding team g x e ok
    let traps := match e with | .trap _ => true | _ => false
    let s := s.updGroup team g fun y => { y.updSlots slots (e.place x) with holds := if traps then [] else y.holds }
    let (s, waits) := s.actEnding team g x e ok
    let s := conds.foldl (fun s p => s.takeRunEnd team g p.1 p.2 x) s
    -- entries
    let s := s.updGroup team g fun y =>
      let left := slots.filter fun i => y.isLive i
      let es := y.formEntries (left.map fun i => (i, (waits.find? fun w => w.1 == i).map (·.2)))
      let spin := { old.spin with changed := old.spin.changed || changed }
      let es := match es with
        | [one] => if left == slots.filter fun i => g0.isLive i then [{ one with spin := spin }] else es
        | _ => es
      { y with entries := (y.entries.filter fun z => z.mask &&& mask == 0) ++ es }
    s.settle (some (team, g))

/-- A run's end (R68, R71, R72): it is finished, parks until its results have returned, or is divided. DEDUCED
(notes/assumptions/15). -/
def State.endRun (s : State) (team g slot : Nat) (x : VAddr) (e : Ending) : State :=
  match s.group? team g with
  | none => s
  | some grp =>
    match grp.entryAt slot with
    | none => s
    | some en =>
      let slots := (slotsOf en.mask).filter fun i => grp.isLive i || grp.isHelper i
      let waiting := slots.filter fun i => !(grp.lane i).allBack
      if waiting.isEmpty then s.finishRun team g en.mask x e
      else
        let parked (m : BitVec 32) : Entry :=
          { en with mask := m, wake := some .results, ending := some (x, e), issuing := false, starve := 0, release := none }
        if !en.split || waiting == slots then
          let whole : Entry := { parked en.mask with split := false }
          (s.updGroup team g fun y => y.updEntry slot fun _ => whole).settle (some (team, g))
        else
          let w := maskOf waiting
          let rest := en.mask &&& ~~~w
          let s := s.updGroup team g fun y =>
            { y with entries := y.entries.flatMap fun z =>
                if z.mask.getLsbD slot then [{ en with mask := rest }, parked w] else [z] }
          s.finishRun team g rest x e

/-- Goes on with an entry that was parked on its run's results, all of which have returned (R71). -/
def State.resumeRun (s : State) (team g slot : Nat) : State :=
  match (s.group? team g).bind fun y => y.entryAt slot with
  | some en => match en.ending with
    | some (x, e) => s.finishRun team g en.mask x e
    | none => s
  | none => s

-- after a word

/-- The registers a word leaves in the operand holds (R76): the destinations it has written are no longer held, and those of
a variable-latency result are written at the run end (R71). -/
def holdsAfter (i : Instr) : List Nat :=
  match arithRow i with
  | none => []
  | some (r, x) =>
    let kept := (if x.ra then roleUse r.a x x.a true else []) ++ (if x.rb then roleUse r.b x x.b true else [])
    let written := if isVarlat i then [] else
      (roleUse r.d x x.d false).flatMap fun w => (List.range w.count).map (w.first + ·)
    (kept.flatMap fun w => (List.range w.count).map (w.first + ·)).filter fun n => !written.contains n

/-- Notes the lines that a spin-demoted bundle reads (R165). -/
def State.noteRead (s : State) (u : Bun) (spc : Space) (addrs : List Nat) : State :=
  if spc = .sp then s else
  let gang := match s.team? u.team with | some t => t.gang | none => 0
  let ids := addrs.map fun a => if spc = .sc then LineId.scratch gang (a / 128) else LineId.shared u.team (a / 128)
  s.updGroup u.team u.group fun g => g.updEntry u.slot fun e =>
    if e.spin.since.isSome then
      let lines := (e.spin.lines ++ ids).eraseDups
      { e with spin := { e.spin with lines := lines } }
    else e

/-- What an entry remembers of its short loop after a word at `pc` (R165). `back` is the target of a backward branch of at
most 15 words that the bundle took; one inside the loop does not end a demotion. -/
def Spin.after (p : Spin) (pc : VAddr) (back : Option VAddr) (changed : Bool) (clock : Nat) : Spin :=
  let changed := p.changed || changed
  match back with
  | some t =>
    if p.since.isSome ∧ ¬ (p.branch = pc ∧ p.target = t) ∧ p.target ≤ t ∧ p.target ≤ pc ∧ pc ≤ p.branch then
      { p with changed := changed }
    else if p.taken ≠ 0 ∧ p.branch = pc ∧ p.target = t then
      let quiet := if changed then 0 else p.quiet + 1
      let since := if p.since.isSome then p.since else if 8 ≤ p.taken + 1 ∧ 7 ≤ quiet then some clock else none
      { p with taken := p.taken + 1, quiet := quiet, changed := false, since := since }
    else { branch := pc, target := t, taken := 1, quiet := 0, changed := false, since := none, lines := [] }
  | none => if p.taken ≠ 0 ∧ p.target ≤ pc ∧ pc < p.branch then { p with changed := changed } else noSpin

/-- Whether live lanes stand at more than one priority and PC (R68). -/
def Group.diverged (g : Group) (live : List Nat) : Bool :=
  match live.filter fun i => g.isLive i with
  | [] => false
  | i :: is => is.any fun j => (g.lane j).pc != (g.lane i).pc || (g.lane j).prio != (g.lane i).prio

/-- A group that issues a word of the entry that holds a slot (R144, R163): the other ready entries wait one word longer. -/
def Group.issuedWord (g : Group) (slot : Nat) : Group :=
  { g with entries := g.entries.map fun e =>
             if !e.mask.getLsbD slot && e.isReady then { e with starve := e.starve + 1 } else e,
           age := 0, issued := true }

/-- The group after a word of its issuing entry (R15, R127, R144, R163, R165). `g0` is the group before the word. -/
def Group.afterWord (g0 g : Group) (i : Instr) (u : Bun) (staying : List Nat) (clock : Nat) : Group :=
  let g := g.updSlots (u.slots.filter fun j => !staying.contains j) fun _ l => l.advance u.pc
  let g := { g with lanes := g.follow }
  let back : Option VAddr :=
    match u.live with
    | j :: _ =>
      let p := (g.lane j).pc
      if isBranch i && !g.diverged u.live && decide (p ≤ u.pc) && decide (u.pc.toNat ≤ p.toNat + 120) then some p else none
    | [] => none
  let changed := u.slots.any fun j => (g0.lane j).regs != (g.lane j).regs || (g0.lane j).preds != (g.lane j).preds
  let next (e : Entry) : Entry :=
    { e with words := e.words + 1, vars := if isVarlat i then e.vars + 1 else e.vars, release := none,
             spin := e.spin.after u.pc back changed clock }
  let held : BitVec 32 := match g.entryAt u.slot with | some e => e.mask | none => 0
  { (g.issuedWord u.slot).updEntry u.slot next with holds := holdsAfter i, holder := held }

/-- Completes a word: the bundle goes on, or its run ends, as after a control transfer that leaves its lanes at more than
one priority and PC (R68). A loop end that every lane falls through is a transfer too. -/
def State.afterWord (s0 s : State) (i : Instr) (u : Bun) (moved : List Nat) (ends : Bool) : State :=
  let g0 := (s0.group? u.team u.group).getD { lanes := [], entries := [], hw := 0, age := 0, issued := false, yieldEnd := 0, holds := [], holder := 0 }
  let before := (s.group? u.team u.group).getD g0
  let s := s.updGroup u.team u.group fun g => g0.afterWord g i u moved s.time.clock
  match s.group? u.team u.group with
  | none => s
  | some g =>
    let loopEnds (j : Nat) : Bool := !moved.contains j && ((before.lane j).loops.head?.any fun e => e.stop == u.pc)
    let transfer := isBranch i || u.live.any fun j => g.isLive j && ((g.lane j).pc != u.pc + 8 || loopEnds j)
    if ends || (transfer && g.diverged u.live) then s.endRun u.team u.group u.slot u.pc .plain else s

/-- Completes a word that ends its run and acts after the commit. -/
def State.afterLast (s0 s : State) (i : Instr) (u : Bun) (e : Ending) : State :=
  let g0 := (s0.group? u.team u.group).getD { lanes := [], entries := [], hw := 0, age := 0, issued := false, yieldEnd := 0, holds := [], holder := 0 }
  let s := s.updGroup u.team u.group fun g => g0.afterWord g i u u.slots s.time.clock
  s.endRun u.team u.group u.slot u.pc e

/-- Makes slots empty: helper lanes that met a trap condition (R141). -/
def State.emptySlots (s : State) (u : Bun) (ss : List Nat) : State := s.mapLanes u ss fun _ _ => emptyLane

/-- Precise traps (R74, R351): the word has issued, live lanes trap, helper lanes become empty, the operand holds are
emptied (R76), and the run ends. -/
def State.trapLanes (s : State) (u : Bun) (ts : List (Nat × TrapInfo)) : State :=
  let s := s.updGroup u.team u.group fun g => { g.issuedWord u.slot with holds := [] }
  let s := s.emptySlots u ((ts.filter fun p => !u.live.contains p.1).map (·.1))
  s.endRun u.team u.group u.slot u.pc (.trap (ts.filter fun p => u.live.contains p.1))

/-- Parks the bundle before a word issues, in the middle of its run (R145). -/
def State.parkWord (s : State) (u : Bun) (w : Wake) : State :=
  (s.updGroup u.team u.group fun g => g.updEntry u.slot fun e =>
    { e with wake := some w, issuing := false, release := none }).settle (some (u.team, u.group))

/-- A bundle without some slots. -/
def Bun.without (u : Bun) (ss : List Nat) : Bun :=
  let keep (l : List Nat) : List Nat := l.filter fun i => !ss.contains i
  { u with slots := keep u.slots, live := keep u.live, act := keep u.act, plive := keep u.plive }

/-- Carries out what the meaning of a word gave. -/
def State.applyEffect (s0 : State) (i : Instr) (sw : Bool) (u : Bun) : Effect → State
  | .done s moved =>
    let written (j : Nat) : List (Nat × Nat) :=
      if isVarlat i then [] else (((s0.lane u j).uses i).filter fun r => !r.read).map fun r => (r.first, r.count)
    let s := u.act.foldl (fun s j => s.wroteRegs u.team u.group j (written j)) s
    s0.afterWord s i u moved sw
  | .doneEnd s moved => s0.afterWord s i u moved true
  | .hold s => s
  | .park s w => s.parkWord u w
  | .trap s ts => s.trapLanes u ts
  | .finish s e => s0.afterLast s i u e

/-- The meaning of a word for its bundle: trap conditions of helper lanes alone make those lanes empty, and the word goes on
without them (R141), so often as there may be such lanes. -/
def State.tryBody (i : Instr) (sw : Bool) (body : Bun → State → Effect) : Nat → Bun → State → State
  | 0, u, s => s.applyEffect i sw u (body u s)
  | n + 1, u, s => match body u s with
    | .trap s' ts =>
      if ts.any fun p => u.live.contains p.1 then s'.trapLanes u ts
      else
        let gone := ts.map (·.1)
        State.tryBody i sw body n (u.without gone) (s'.emptySlots u gone)
    | x => s.applyEffect i sw u x

/-- Issues a word for its bundle: the checks before it, then its meaning `body`; trap conditions of helper lanes alone make
those lanes empty, and the word goes on (R141). -/
def State.issueWord (s : State) (i : Instr) (sw : Bool) (u : Bun) (body : Bun → State → Effect) : State :=
  let ts := s.wordTraps i u
  if ts.any fun p => u.live.contains p.1 then s.trapLanes u ts
  else
    let gone := ts.map (·.1)
    let (s1, u1) := if gone.isEmpty then (s, u) else (s.emptySlots u gone, u.without gone)
    let (s2, rt) := s1.regTraps u1 i
    if rt.any fun p => u1.live.contains p.1 then s2.trapLanes u1 rt
    else
      let gone := rt.map (·.1)
      let (s3, u3) := if gone.isEmpty then (s2, u1) else (s2.emptySlots u1 gone, u1.without gone)
      State.tryBody i sw body 32 u3 s3

/-- The meaning of a word: the entry that the subject names issues it. DESIGN CHOICE (notes/assumptions/9). -/
def State.runWord (s : State) (i : Instr) (h : Hdr) (body : Bun → State → Effect) : Host.Outcome State Fault Refusal :=
  match s.subject with
  | .bundle b =>
    match s.bun? h b with
    | some u => .next (s.issueWord i h.sw u body)
    | none => .fault .noBundle
  | _ => .fault .noBundle

end Sys2Proof.Machine
end

