-- ==== Sys2Proof/Machine/Lanewise.lean ====
section
/-! DEFINITION. Words that act in each lane of P on its own state: how a fixed-latency result is written (R70), how a
variable-latency one is kept until the run's end (R71), and the operations that integer, bit and floating words share
(R84-R87). -/
namespace Sys2Proof.Machine

/-- The meaning of a word gives its next state. -/
abbrev Answer := Host.Outcome State Fault Refusal

/-- The view registers of a bundle's team (R152). -/
def State.viewsOf (s : State) (u : Bun) : List W32 := match s.team? u.team with | some t => t.views | none => []

/-- A fixed-latency word that changes each lane of P by itself (R70, R88). -/
def State.perLane (s : State) (i : Instr) (h : Hdr) (f : List W32 → Lane → Lane) : Answer :=
  s.runWord i h fun u s =>
    let vs := s.viewsOf u
    .done (s.mapLanes u u.act fun _ l => f vs l) []

/-- A value with the registers and flags it is for. -/
structure Outs where
  writes : List (Nat × W32)
  flags : W32
  deriving DecidableEq, Repr

/-- An uncommitted result (R70). -/
def resultOf (num : Nat) (pc : VAddr) (o : Outs) : Result :=
  { num := num, pc := pc, need := .formed, writes := o.writes, flags := o.flags, trap := none, back := false }

/-- Adds a result to a lane's run. -/
def Lane.addResult (l : Lane) (r : Result) : Lane := { l with results := l.results ++ [r] }

/-- A variable-latency word whose value each lane of P forms by itself: it is committed at the run's end (R69-R71). -/
def State.perLaneLate (s : State) (i : Instr) (h : Hdr) (f : Lane → Outs) : Answer :=
  s.runWord i h fun u s =>
    let (num, s) := s.fresh
    .done (s.mapLanes u u.act fun _ l => l.addResult (resultOf num u.pc (f l))) []

/-- Writes a value's registers and merges its flags at once. -/
def Lane.put (l : Lane) (o : Outs) : Lane := (l.setRegs o.writes).raise o.flags

/-- A word of TYPE E: every element of one register, from the elements of the sources (R84). -/
def Lane.elementwise (l : Lane) (vs : List W32) (x : Arith) (f : View → W64 → W64 → W64 → W64 × W32) : Lane :=
  let v := View.ofReg (vs.getD (viewIndex x) 0)
  let a := l.reg x.a.toNat
  let b := l.reg x.b.toNat
  let c := l.reg x.c.toNat
  let (d, fl) := packWith v (l.reg x.d.toNat) fun j => f v (v.get a j) (v.get b j) (v.get c j)
  (l.setReg x.d.toNat d).raise fl

/-- An integer word (R84, R86): the exact result of `op` on A, B and C, narrowed to TYPE. -/
def Lane.intOp (l : Lane) (vs : List W32) (x : Arith) (op : Int → Int → Int → Int) : Lane :=
  match x.ty with
  | .vw => l.elementwise vs x fun v a b c => narrow v.width v.signed x.fs (op (v.intValue a) (v.intValue b) (v.intValue c))
  | t =>
    let r := narrow (tyBits t) (tySigned t) x.fs
      (op (intOf t (l.src t x.a.toNat)) (intOf t (l.srcB x)) (intOf t (l.src t x.c.toNat)))
    l.put { writes := resultRegs t x.d.toNat r.1, flags := r.2 }

/-- A word on raw bits of width 32 or 64 (R97): naturals below 2^w in and out. -/
def Lane.bitOp (l : Lane) (x : Arith) (op : Nat → Nat → Nat → Nat) : Lane :=
  let w := tyBits x.ty
  l.dst x.ty x.d.toNat (BitVec.ofNat 64 (op w (l.src x.ty x.a.toNat).toNat (l.srcB x).toNat))

/-- A floating word of one format (R84, R87). -/
def Lane.floatOp (l : Lane) (vs : List W32) (x : Arith) (op : Fmt → W64 → W64 → W64 → FRes) : Lane :=
  match x.ty with
  | .vw => l.elementwise vs x fun v a b c => let r := op (v.fmt.getD fmtF32) a b c; (r.val, r.flags)
  | t =>
    let r := op (fmtOf t) (l.src t x.a.toNat) (l.srcB x) (l.src t x.c.toNat)
    l.put { writes := resultRegs t x.d.toNat r.val, flags := r.flags }

/-- Whether a word reads its elements as floating values through a view of width 4, which is illegal (R22, R102). -/
def badFloatView (vs : List W32) (x : Arith) : Bool :=
  match x.ty with
  | .vw => (View.ofReg (vs.getD (viewIndex x) 0)).width == 4
  | _ => false

/-- A class 2 word (R102): as `perLane`, with the illegal view of R22. -/
def State.perLaneFloat (s : State) (i : Instr) (h : Hdr) (x : Arith) (op : Fmt → W64 → W64 → W64 → FRes) : Answer :=
  s.runWord i h fun u s =>
    let vs := s.viewsOf u
    if badFloatView vs x && !u.act.isEmpty then .trap s (trapAll u.act (trapAt 0x01 u.pc))
    else .done (s.mapLanes u u.act fun _ l => l.floatOp vs x op) []

end Sys2Proof.Machine
end

