-- ==== Sys2Proof/Machine/BitOps.lean ====
section
/-! DEFINITION. Class 1: bit manipulation (R97-R101). -/
namespace Sys2Proof.Machine

/-- `and` (R97). -/
def execAnd (h : Hdr) (x : Arith) (s : State) : Answer := s.perLane (.and_ h x) h fun _ l => l.bitOp x fun _ a b => a &&& b

/-- `or` (R97). -/
def execOr (h : Hdr) (x : Arith) (s : State) : Answer := s.perLane (.or_ h x) h fun _ l => l.bitOp x fun _ a b => a ||| b

/-- `xor` (R97). -/
def execXor (h : Hdr) (x : Arith) (s : State) : Answer := s.perLane (.xor_ h x) h fun _ l => l.bitOp x fun _ a b => a ^^^ b

/-- `andn` (R97): A and not B. -/
def execAndn (h : Hdr) (x : Arith) (s : State) : Answer :=
  s.perLane (.andn h x) h fun _ l => l.bitOp x fun w a b => a &&& (2 ^ w - 1 - b)

/-- `not` (R97). -/
def execNot (h : Hdr) (x : Arith) (s : State) : Answer :=
  s.perLane (.not_ h x) h fun _ l => l.bitOp x fun w a _ => 2 ^ w - 1 - a

/-- A shift in one lane: B is one 32-bit count (R97, R98). -/
def Lane.shiftOp (l : Lane) (x : Arith) (op : Nat → Nat → Nat → Nat) : Lane :=
  l.dst x.ty x.d.toNat (BitVec.ofNat 64 (op (tyBits x.ty) (l.src x.ty x.a.toNat).toNat (l.srcB32 x).toNat))

/-- `shl` (R98). -/
def execShl (h : Hdr) (x : Arith) (s : State) : Answer := s.perLane (.shl h x) h fun _ l => l.shiftOp x shiftLeft

/-- `shr` (R98). -/
def execShr (h : Hdr) (x : Arith) (s : State) : Answer := s.perLane (.shr h x) h fun _ l => l.shiftOp x shiftRight

/-- `sar` in one lane (R98). -/
def Lane.sarOp (l : Lane) (x : Arith) : Lane :=
  l.dst x.ty x.d.toNat (BitVec.ofInt 64 (shiftArith (tyBits x.ty) (intOf x.ty (l.src x.ty x.a.toNat)) (l.srcB32 x).toNat))

/-- `sar` (R98). -/
def execSar (h : Hdr) (x : Arith) (s : State) : Answer := s.perLane (.sar h x) h fun _ l => l.sarOp x

/-- `rotl` (R98). -/
def execRotl (h : Hdr) (x : Arith) (s : State) : Answer := s.perLane (.rotl h x) h fun _ l => l.shiftOp x rotateLeft

/-- `bfx` (R99). -/
def execBfx (h : Hdr) (x : Arith) (s : State) : Answer :=
  s.perLane (.bfx h x) h fun _ l => l.setReg x.d.toNat (fieldExtract (tySigned x.ty) (l.reg x.a.toNat) (l.srcB32 x))

/-- `bfi` (R99). -/
def execBfi (h : Hdr) (x : Arith) (s : State) : Answer :=
  s.perLane (.bfi h x) h fun _ l =>
    l.setReg x.d.toNat (fieldInsert (l.reg x.a.toNat) (l.reg x.b.toNat) (l.reg x.c.toNat))

/-- A count of the bits of A into one register (R97). -/
def Lane.countOp (l : Lane) (x : Arith) (op : Nat → Nat → Nat) : Lane :=
  l.setReg x.d.toNat (BitVec.ofNat 32 (op (tyBits x.ty) (l.src x.ty x.a.toNat).toNat))

/-- `popc` (R97). -/
def execPopc (h : Hdr) (x : Arith) (s : State) : Answer := s.perLane (.popc h x) h fun _ l => l.countOp x popcount

/-- `clz` (R97). -/
def execClz (h : Hdr) (x : Arith) (s : State) : Answer := s.perLane (.clz h x) h fun _ l => l.countOp x leadingZeros

/-- `ctz` (R97). -/
def execCtz (h : Hdr) (x : Arith) (s : State) : Answer := s.perLane (.ctz h x) h fun _ l => l.countOp x trailingZeros

/-- `brev` (R97). -/
def execBrev (h : Hdr) (x : Arith) (s : State) : Answer :=
  s.perLane (.brev h x) h fun _ l => l.bitOp x fun w a _ => bitReverse w a

/-- `prmt` (R100). -/
def execPrmt (h : Hdr) (x : Arith) (s : State) : Answer :=
  s.perLane (.prmt h x) h fun _ l =>
    l.setReg x.d.toNat (permute (l.reg x.a.toNat) (l.reg x.b.toNat) (l.reg x.c.toNat))

/-- The truth table of `lop3`, which stands in TYPE and SUB (R101). -/
def lutOf (x : Arith) : Byte := tyCode x.ty ++ x.sub

/-- `lop3` (R101). -/
def execLop3 (h : Hdr) (x : Arith) (s : State) : Answer :=
  s.perLane (.lop3 h x) h fun _ l =>
    l.setReg x.d.toNat (lut3 (lutOf x) (l.reg x.a.toNat) (l.reg x.b.toNat) (l.reg x.c.toNat))

end Sys2Proof.Machine
end

