-- ==== Sys2Proof/WellFormed.lean ====
section
/-! DEFINITION. Well-formed instructions: words that R77 steps 1 and 2 let through as far as the word alone decides.
What the kernel decides besides (the register count of R17, the `.cv` and `.tiles` counts of R148 and R193) is checked
when the word executes. Whether the agent an event names exists is checked where the event happens. -/
namespace Sys2Proof

/-- Well-formed: every field of the word is accepted. The events of the machine have no fields. -/
def Instr.wf (i : Instr) : Bool := Machine.formOk i

end Sys2Proof
end

