-- ==== Sys2Proof/Decode.lean ====
section
/-! DEFINITION. The decoder of instruction words, total on every 64-bit word and rejecting by name (R54, R57, R66,
R77), and the encoder written from the same tables. A word that is no instruction decodes to `illegalInstruction`,
the opcode table's row for it: it raises trap 0x01 (R77). -/
namespace Sys2Proof
open Machine

/-- Why a word is not an instruction (R77 steps 1 and 2, the part that the word alone decides). -/
inductive DecodeError where
  /-- GP is 24-30, or GN is 1 with GP 31 (R55). -/
  | reservedGuard
  /-- CLASS is 0xD-0xF, or the index is unassigned (R57). -/
  | unassignedOpcode
  /-- A field that names one of few values holds a reserved one (SPACE, WIDTH, SCOPE, FMT, GS). -/
  | reservedValue
  /-- A pair slot's POP is 0x16-0x3F (R66). -/
  | reservedPairOpcode
  /-- A field breaks the opcode's row, the pair rule, R18 or R76. -/
  | fieldNotAccepted
  /-- A bit that no field of the form holds is 1 (R56, R65). -/
  | reservedBitSet
  /-- Fewer than eight bytes were given. -/
  | tooShort
  deriving DecidableEq, Repr

/-- The fields of a full-form word (R54). -/
structure FullWord where
  s : Bool
  gn : Bool
  gp : BitVec 5
  cls : BitVec 4
  idx : BitVec 6
  d : Field8
  a : Field8
  b : Field8
  x : BitVec 22
  deriving DecidableEq, Repr

/-- Lays the fields of a full-form word out (R54); Q is 0. -/
def FullWord.pack (f : FullWord) : W64 :=
  BitVec.ofBool f.s ++ (0#1 ++ (BitVec.ofBool f.gn ++ (f.gp ++ (f.cls ++ (f.idx ++ (f.d ++ (f.a ++ (f.b ++ f.x))))))))

/-- Reads the fields of a full-form word (R54). -/
def FullWord.unpack (w : W64) : FullWord :=
  { s := w.getLsbD 63, gn := w.getLsbD 61, gp := w.extractLsb' 56 5, cls := w.extractLsb' 52 4, idx := w.extractLsb' 46 6,
    d := w.extractLsb' 38 8, a := w.extractLsb' 30 8, b := w.extractLsb' 22 8, x := w.extractLsb' 0 22 }

def rmOfCode (c : BitVec 2) : Rm :=
  match c.toNat with | 0 => .rne | 1 => .rz | 2 => .ru | _ => .rd

def rmCode : Rm → BitVec 2
  | .rne => 0 | .rz => 1 | .ru => 2 | .rd => 3

def spaceOfCode (c : BitVec 3) : Option Space :=
  match c.toNat with | 0 => some .sh | 1 => some .sc | 2 => some .sp | 3 => some .mm | _ => none

def spaceCode : Space → BitVec 3
  | .sh => 0 | .sc => 1 | .sp => 2 | .mm => 3

def widthOfCode (c : BitVec 3) : Option Width :=
  match c.toNat with | 0 => some .b8 | 1 => some .b16 | 2 => some .b32 | 3 => some .b64 | 4 => some .b128 | _ => none

def widthCode : Width → BitVec 3
  | .b8 => 0 | .b16 => 1 | .b32 => 2 | .b64 => 3 | .b128 => 4

def scopeOfCode (c : BitVec 3) : Option Scope :=
  match c.toNat with
  | 0 => some .lane | 1 => some .group | 2 => some .team | 3 => some .cluster | 4 => some .die | 5 => some .device
  | 6 => some .system | _ => none

def scopeCode : Scope → BitVec 3
  | .lane => 0 | .group => 1 | .team => 2 | .cluster => 3 | .die => 4 | .device => 5 | .system => 6

def fmtOfCode (c : BitVec 4) : Option MFmt :=
  match c.toNat with
  | 0 => some .f16 | 1 => some .bf16 | 2 => some .e4m3 | 3 => some .e5m2 | 4 => some .q8q8 | 5 => some .q4q8 | _ => none

def fmtCode : MFmt → BitVec 4
  | .f16 => 0 | .bf16 => 1 | .e4m3 => 2 | .e5m2 => 3 | .q8q8 => 4 | .q4q8 => 5

def gsOfCode (c : BitVec 2) : Option GSize :=
  match c.toNat with | 0 => some .g32 | 1 => some .g64 | 2 => some .g128 | _ => none

def gsCode : GSize → BitVec 2
  | .g32 => 0 | .g64 => 1 | .g128 => 2

/-- X of classes 0-4 and 6 (R58). -/
def Arith.ofWord (f : FullWord) : Arith :=
  { d := f.d, a := f.a, b := f.b, i := f.x.getLsbD 21, ra := f.x.getLsbD 20, rb := f.x.getLsbD 19,
    ty := tyOfCode (f.x.extractLsb' 15 4), rm := rmOfCode (f.x.extractLsb' 13 2), fs := f.x.getLsbD 12,
    sub := f.x.extractLsb' 8 4, c := f.x.extractLsb' 0 8 }

def Arith.x (o : Arith) : BitVec 22 :=
  BitVec.ofBool o.i ++ (BitVec.ofBool o.ra ++ (BitVec.ofBool o.rb ++ (tyCode o.ty ++ (rmCode o.rm ++
    (BitVec.ofBool o.fs ++ (o.sub ++ o.c))))))

/-- X of class 5 (R63). -/
def Ctl.ofWord (f : FullWord) : Ctl :=
  { d := f.d, a := f.a, b := f.b, u := f.x.getLsbD 21, bp := f.x.extractLsb' 13 8, ofl := f.x.extractLsb' 0 13 }

def Ctl.x (o : Ctl) : BitVec 22 := BitVec.ofBool o.u ++ (o.bp ++ o.ofl)

/-- X of class 7 (R64). -/
def Mat.ofWord (f : FullWord) : Option Mat := do
  let fmt ← fmtOfCode (f.x.extractLsb' 18 4)
  let gs ← gsOfCode (f.x.extractLsb' 16 2)
  some { d := f.d, a := f.a, b := f.b, fmt := fmt, gs := gs, oe := f.x.getLsbD 15, od := f.x.extractLsb' 13 2,
         bs := f.x.extractLsb' 11 2, opn := f.x.getLsbD 10, cls := f.x.getLsbD 9, cv := f.x.extractLsb' 5 4 }

def Mat.x (o : Mat) : BitVec 22 :=
  fmtCode o.fmt ++ (gsCode o.gs ++ (BitVec.ofBool o.oe ++ (o.od ++ (o.bs ++ (BitVec.ofBool o.opn ++
    (BitVec.ofBool o.cls ++ (o.cv ++ 0#5)))))))

/-- X of class 8 (R61). -/
def Loc.ofWord (f : FullWord) : Option Loc := do
  let space ← spaceOfCode (f.x.extractLsb' 19 3)
  let width ← widthOfCode (f.x.extractLsb' 16 3)
  some { d := f.d, a := f.a, b := f.b, space := space, width := width, split := f.x.getLsbD 15,
         aux := f.x.extractLsb' 12 3, off := f.x.extractLsb' 0 12 }

def Loc.x (o : Loc) : BitVec 22 :=
  spaceCode o.space ++ (widthCode o.width ++ (BitVec.ofBool o.split ++ (o.aux ++ o.off)))

/-- X of class 9 (R62). -/
def Main.ofWord (f : FullWord) : Option Main := do
  let scope ← scopeOfCode (f.x.extractLsb' 19 3)
  some { d := f.d, a := f.a, b := f.b, scope := scope, evp := f.x.extractLsb' 17 2, lu := f.x.getLsbD 16,
         ls := f.x.getLsbD 15, cq := f.x.extractLsb' 12 3, opx := f.x.extractLsb' 0 12 }

def Main.x (o : Main) : BitVec 22 :=
  scopeCode o.scope ++ (o.evp ++ (BitVec.ofBool o.lu ++ (BitVec.ofBool o.ls ++ (o.cq ++ o.opx))))

/-- X of class A (R297). -/
def Eng.ofWord (f : FullWord) : Option Eng := do
  let scope ← scopeOfCode (f.x.extractLsb' 19 3)
  some { d := f.d, a := f.a, b := f.b, scope := scope, sq := f.x.extractLsb' 16 2, cq := f.x.extractLsb' 12 3,
         opx := f.x.extractLsb' 0 12 }

def Eng.x (o : Eng) : BitVec 22 := scopeCode o.scope ++ (0#1 ++ (o.sq ++ (0#1 ++ (o.cq ++ o.opx))))

/-- X of class B (R312). -/
def Unt.ofWord (f : FullWord) : Unt := { d := f.d, a := f.a, b := f.b, mode := f.x.extractLsb' 14 2 }

def Unt.x (o : Unt) : BitVec 22 := 0#6 ++ (o.mode ++ 0#14)

/-- X of class C (R371). -/
def Sys.ofWord (f : FullWord) : Sys := { d := f.d, a := f.a, b := f.b, sub := f.x.extractLsb' 0 4 }

def Sys.x (o : Sys) : BitVec 22 := 0#18 ++ o.sub

/-- Class 0x0 of the opcode map (R57): the instruction an index names; forms that share an index are told apart by their own fields. -/
def candInteger (idx : Nat) (h : Hdr) (ops : Arith) (k : BitVec 22) : Option Instr :=
  match idx with
  | 0x01 => some (.add h ops)
  | 0x02 => some (.sub h ops)
  | 0x03 => some (.addc h ops)
  | 0x04 => some (.subb h ops)
  | 0x05 => some (.mul h ops)
  | 0x06 => some (.mulh h ops)
  | 0x07 => some (.mad h ops)
  | 0x08 => some (.madw h ops)
  | 0x09 => some (.div_ h ops)
  | 0x0A => some (.rem_ h ops)
  | 0x0B => some (.min_ h ops)
  | 0x0C => some (.max_ h ops)
  | 0x0D => some (.abs h ops)
  | 0x0E => some (.neg h ops)
  | 0x0F => some (.adds h ops)
  | 0x10 => some (.subs h ops)
  | 0x11 => some (.clamp h ops)
  | 0x12 => some (.lea h ops)
  | 0x13 => some (.cmp h ops)
  | 0x14 => some (.sel h ops)
  | 0x15 => some (.movi h ops.d k)
  | 0x16 => some (.movh h ops.d k)
  | 0x17 => some (.dp4 h ops)
  | _ => none

/-- Class 0x1 of the opcode map (R57): the instruction an index names; forms that share an index are told apart by their own fields. -/
def candBits (idx : Nat) (h : Hdr) (ops : Arith) : Option Instr :=
  match idx with
  | 0x00 => some (.and_ h ops)
  | 0x01 => some (.or_ h ops)
  | 0x02 => some (.xor_ h ops)
  | 0x03 => some (.andn h ops)
  | 0x04 => some (.not_ h ops)
  | 0x05 => some (.shl h ops)
  | 0x06 => some (.shr h ops)
  | 0x07 => some (.sar h ops)
  | 0x08 => some (.rotl h ops)
  | 0x09 => some (.bfx h ops)
  | 0x0A => some (.bfi h ops)
  | 0x0B => some (.popc h ops)
  | 0x0C => some (.clz h ops)
  | 0x0D => some (.ctz h ops)
  | 0x0E => some (.brev h ops)
  | 0x0F => some (.prmt h ops)
  | 0x10 => some (.lop3 h ops)
  | _ => none

/-- Class 0x2 of the opcode map (R57): the instruction an index names; forms that share an index are told apart by their own fields. -/
def candFloat (idx : Nat) (h : Hdr) (ops : Arith) : Option Instr :=
  match idx with
  | 0x00 => some (.fadd h ops)
  | 0x01 => some (.fsub h ops)
  | 0x02 => some (.fmul h ops)
  | 0x03 => some (.ffma h ops)
  | 0x04 => some (.fmin h ops)
  | 0x05 => some (.fmax h ops)
  | 0x06 => some (.fcmp h ops)
  | 0x07 => some (.fclass h ops)
  | 0x08 => some (.hfma2 h ops)
  | 0x09 => some (.hadd2 h ops)
  | 0x0A => some (.hmul2 h ops)
  | 0x0B => some (.hdot2 h ops)
  | 0x0C => some (.fmed3 h ops)
  | _ => none

/-- Class 0x3 of the opcode map (R57): the instruction an index names; forms that share an index are told apart by their own fields. -/
def candFp64 (idx : Nat) (h : Hdr) (ops : Arith) : Option Instr :=
  match idx with
  | 0x00 => some (.frcp h ops)
  | 0x01 => some (.frsq h ops)
  | 0x02 => some (.fsqrt h ops)
  | 0x03 => some (.fdiv h ops)
  | 0x04 => some (.fex2 h ops)
  | 0x05 => some (.flg2 h ops)
  | 0x06 => some (.fsin h ops)
  | 0x07 => some (.fcos h ops)
  | 0x08 => some (.dadd h ops)
  | 0x09 => some (.dmul h ops)
  | 0x0A => some (.dfma h ops)
  | 0x0B => some (.dcmp h ops)
  | 0x0C => some (.cvt h ops)
  | 0x0D => some (.frnd h ops)
  | 0x0E => some (if ops.sub == 1 then .packW h ops else .packH h ops)
  | 0x0F => some (.unpk h ops)
  | _ => none

/-- Class 0x4 of the opcode map (R57): the instruction an index names; forms that share an index are told apart by their own fields. -/
def candMove (idx : Nat) (h : Hdr) (ops : Arith) : Option Instr :=
  match idx with
  | 0x00 => some (if ops.i then .movImm h ops else .mov h ops)
  | 0x01 => some (if ops.sub == 1 then .psetAll h ops else .pset h ops)
  | 0x02 => some (if ops.sub == 1 then .pgetAll h ops else .pget h ops)
  | 0x03 => some (.pand h ops)
  | 0x04 => some (.por h ops)
  | 0x05 => some (.pxor h ops)
  | 0x06 => some (.pnot h ops)
  | 0x07 => some (.rdsr h ops)
  | 0x08 => some (.wrsr h ops)
  | 0x09 => some (.vwset h ops)
  | 0x0A => some (.nop h ops)
  | _ => none

/-- Class 0x5 of the opcode map (R57): the instruction an index names; forms that share an index are told apart by their own fields. -/
def candControl (idx : Nat) (h : Hdr) (ops : Ctl) : Option Instr :=
  match idx with
  | 0x00 => some (.bra h ops)
  | 0x01 => some (.brx h ops)
  | 0x02 => some (.call h ops)
  | 0x03 => some (.callx h ops)
  | 0x04 => some (.ret h ops)
  | 0x05 => some (if ops.b == 0 then (if ops.u then .loopImm h ops else .loop h ops) else .loopPop h ops)
  | 0x06 => some (.exit h ops)
  | 0x07 => some (.yield h ops)
  | 0x08 => some (if ops.ofl == 1 then .sleepUntil h ops else .sleep h ops)
  | 0x09 => some (.trap h ops)
  | 0x0A => some (.prio h ops)
  | _ => none

/-- Class 0x6 of the opcode map (R57): the instruction an index names; forms that share an index are told apart by their own fields. -/
def candParallel (idx : Nat) (h : Hdr) (ops : Arith) : Option Instr :=
  match idx with
  | 0x00 => some (.qswap h ops)
  | 0x01 => some (.qdd h ops)
  | 0x02 => some (if ops.sub == 0 then .hlpOff h ops else if ops.sub == 1 then .hlpOn h ops else .hlpIs h ops)
  | 0x03 => some (.shfl h ops)
  | 0x04 => some (if ops.sub == 3 then .voteBallot h ops else .vote h ops)
  | 0x05 => some (.match_ h ops)
  | 0x06 => some (.compact h ops)
  | 0x07 => some (.reform h ops)
  | 0x08 => some (.sign h ops)
  | 0x09 => some (.join_ h ops)
  | 0x0A => some (.cvset h ops)
  | 0x0B => some (.bar h ops)
  | 0x0C => some (.gbar h ops)
  | 0x0D => some (.spawn h ops)
  | 0x0E => some (.launch h ops)
  | 0x0F => some (.redux h ops)
  | _ => none

/-- Class 0x7 of the opcode map (R57): the instruction an index names; forms that share an index are told apart by their own fields. -/
def candMatrix (idx : Nat) (h : Hdr) (ops : Mat) : Option Instr :=
  match idx with
  | 0x00 => some (.mma h ops)
  | 0x01 => some (.mmaq h ops)
  | 0x02 => some (.tzero h ops)
  | 0x03 => some (.tfill h ops)
  | 0x04 => some (.tmov h ops)
  | 0x05 => some (.tld h ops)
  | 0x06 => some (.tst h ops)
  | 0x07 => some (.tstat h ops)
  | 0x08 => some (.qnt h ops)
  | 0x09 => some (.olset h ops)
  | 0x0A => some (.olcnt h ops)
  | 0x0B => some (.dqnt h ops)
  | _ => none

/-- Class 0x8 of the opcode map (R57): the instruction an index names; forms that share an index are told apart by their own fields. -/
def candLocal (idx : Nat) (h : Hdr) (ops : Loc) : Option Instr :=
  match idx with
  | 0x00 => some (.ld h ops)
  | 0x01 => some (.st h ops)
  | 0x02 => some (.gath h ops)
  | 0x03 => some (.scat h ops)
  | 0x04 => some (.atom h ops)
  | 0x05 => some (.atomc h ops)
  | 0x06 => some (.pchk h ops)
  | 0x07 => some (.mon h ops)
  | 0x08 => some (if ops.aux == 1 then .mwaitTimeout h ops else .mwait h ops)
  | _ => none

/-- Class 0x9 of the opcode map (R57): the instruction an index names; forms that share an index are told apart by their own fields. -/
def candMain (idx : Nat) (h : Hdr) (ops : Main) : Option Instr :=
  match idx with
  | 0x00 => some (.cpyin h ops)
  | 0x01 => some (.cpyout h ops)
  | 0x02 => some (.cpyg h ops)
  | 0x03 => some (.cpys h ops)
  | 0x04 => some (if ops.opx.getLsbD 5 then .fatomNr h ops else .fatom h ops)
  | 0x05 => some (.fcas h ops)
  | 0x06 => some (.fence h ops)
  | 0x07 => some (.publ h ops)
  | 0x08 => some (.mhint h ops)
  | 0x09 => some (.mcast h ops)
  | _ => none

/-- Class 0xA of the opcode map (R57): the instruction an index names; forms that share an index are told apart by their own fields. -/
def candEngine (idx : Nat) (h : Hdr) (ops : Eng) : Option Instr :=
  match idx with
  | 0x00 => some (.bclose h ops)
  | 0x01 => some (.waitb h ops)
  | 0x02 => some (.qfence h ops)
  | 0x03 => some (.chain h ops)
  | 0x04 => some (.decod h ops)
  | 0x05 => some (.dtab h ops)
  | 0x06 => some (.sgo h ops)
  | 0x07 => some (.qpop h ops)
  | 0x08 => some (if ops.opx == 1 then .qstatCq h ops else .qstat h ops)
  | 0x09 => some (.apush h ops)
  | 0x0A => some (.aseg h ops)
  | _ => none

/-- Class 0xB of the opcode map (R57): the instruction an index names; forms that share an index are told apart by their own fields. -/
def candUnit (idx : Nat) (h : Hdr) (ops : Unt) : Option Instr :=
  match idx with
  | 0x00 => some (.ray h ops)
  | 0x01 => some (.trhold h ops)
  | 0x02 => some (.trswap h ops)
  | 0x03 => some (.trstat h ops)
  | 0x04 => some (.filt h ops)
  | 0x05 => some (.hgrid h ops)
  | 0x06 => some (.bank h ops)
  | _ => none

/-- Class 0xC of the opcode map (R57): the instruction an index names; forms that share an index are told apart by their own fields. -/
def candSystem (idx : Nat) (h : Hdr) (ops : Sys) : Option Instr :=
  match idx with
  | 0x00 => some (.rfe h ops)
  | 0x01 => some (.csave h ops)
  | 0x02 => some (.crest h ops)
  | 0x03 => some (.tlbinv h ops)
  | 0x04 => some (.replay h ops)
  | 0x05 => some (.xinj h ops)
  | 0x06 => some (if ops.sub == 1 then .elogClr h ops else .elog h ops)
  | 0x07 => some (.halt h ops)
  | _ => none

/-- The opcode of a full-form instruction (R57). -/
def opcodeOf : Instr → Option (BitVec 4 × BitVec 6)
  | .add _ _ => some (0x0, 0x01)
  | .sub _ _ => some (0x0, 0x02)
  | .addc _ _ => some (0x0, 0x03)
  | .subb _ _ => some (0x0, 0x04)
  | .mul _ _ => some (0x0, 0x05)
  | .mulh _ _ => some (0x0, 0x06)
  | .mad _ _ => some (0x0, 0x07)
  | .madw _ _ => some (0x0, 0x08)
  | .div_ _ _ => some (0x0, 0x09)
  | .rem_ _ _ => some (0x0, 0x0A)
  | .min_ _ _ => some (0x0, 0x0B)
  | .max_ _ _ => some (0x0, 0x0C)
  | .abs _ _ => some (0x0, 0x0D)
  | .neg _ _ => some (0x0, 0x0E)
  | .adds _ _ => some (0x0, 0x0F)
  | .subs _ _ => some (0x0, 0x10)
  | .clamp _ _ => some (0x0, 0x11)
  | .lea _ _ => some (0x0, 0x12)
  | .cmp _ _ => some (0x0, 0x13)
  | .sel _ _ => some (0x0, 0x14)
  | .movi _ _ _ => some (0x0, 0x15)
  | .movh _ _ _ => some (0x0, 0x16)
  | .dp4 _ _ => some (0x0, 0x17)
  | .and_ _ _ => some (0x1, 0x00)
  | .or_ _ _ => some (0x1, 0x01)
  | .xor_ _ _ => some (0x1, 0x02)
  | .andn _ _ => some (0x1, 0x03)
  | .not_ _ _ => some (0x1, 0x04)
  | .shl _ _ => some (0x1, 0x05)
  | .shr _ _ => some (0x1, 0x06)
  | .sar _ _ => some (0x1, 0x07)
  | .rotl _ _ => some (0x1, 0x08)
  | .bfx _ _ => some (0x1, 0x09)
  | .bfi _ _ => some (0x1, 0x0A)
  | .popc _ _ => some (0x1, 0x0B)
  | .clz _ _ => some (0x1, 0x0C)
  | .ctz _ _ => some (0x1, 0x0D)
  | .brev _ _ => some (0x1, 0x0E)
  | .prmt _ _ => some (0x1, 0x0F)
  | .lop3 _ _ => some (0x1, 0x10)
  | .fadd _ _ => some (0x2, 0x00)
  | .fsub _ _ => some (0x2, 0x01)
  | .fmul _ _ => some (0x2, 0x02)
  | .ffma _ _ => some (0x2, 0x03)
  | .fmin _ _ => some (0x2, 0x04)
  | .fmax _ _ => some (0x2, 0x05)
  | .fcmp _ _ => some (0x2, 0x06)
  | .fclass _ _ => some (0x2, 0x07)
  | .hfma2 _ _ => some (0x2, 0x08)
  | .hadd2 _ _ => some (0x2, 0x09)
  | .hmul2 _ _ => some (0x2, 0x0A)
  | .hdot2 _ _ => some (0x2, 0x0B)
  | .fmed3 _ _ => some (0x2, 0x0C)
  | .frcp _ _ => some (0x3, 0x00)
  | .frsq _ _ => some (0x3, 0x01)
  | .fsqrt _ _ => some (0x3, 0x02)
  | .fdiv _ _ => some (0x3, 0x03)
  | .fex2 _ _ => some (0x3, 0x04)
  | .flg2 _ _ => some (0x3, 0x05)
  | .fsin _ _ => some (0x3, 0x06)
  | .fcos _ _ => some (0x3, 0x07)
  | .dadd _ _ => some (0x3, 0x08)
  | .dmul _ _ => some (0x3, 0x09)
  | .dfma _ _ => some (0x3, 0x0A)
  | .dcmp _ _ => some (0x3, 0x0B)
  | .cvt _ _ => some (0x3, 0x0C)
  | .frnd _ _ => some (0x3, 0x0D)
  | .packW _ _ => some (0x3, 0x0E)
  | .packH _ _ => some (0x3, 0x0E)
  | .unpk _ _ => some (0x3, 0x0F)
  | .movImm _ _ => some (0x4, 0x00)
  | .mov _ _ => some (0x4, 0x00)
  | .psetAll _ _ => some (0x4, 0x01)
  | .pset _ _ => some (0x4, 0x01)
  | .pgetAll _ _ => some (0x4, 0x02)
  | .pget _ _ => some (0x4, 0x02)
  | .pand _ _ => some (0x4, 0x03)
  | .por _ _ => some (0x4, 0x04)
  | .pxor _ _ => some (0x4, 0x05)
  | .pnot _ _ => some (0x4, 0x06)
  | .rdsr _ _ => some (0x4, 0x07)
  | .wrsr _ _ => some (0x4, 0x08)
  | .vwset _ _ => some (0x4, 0x09)
  | .nop _ _ => some (0x4, 0x0A)
  | .bra _ _ => some (0x5, 0x00)
  | .brx _ _ => some (0x5, 0x01)
  | .call _ _ => some (0x5, 0x02)
  | .callx _ _ => some (0x5, 0x03)
  | .ret _ _ => some (0x5, 0x04)
  | .loop _ _ => some (0x5, 0x05)
  | .loopImm _ _ => some (0x5, 0x05)
  | .loopPop _ _ => some (0x5, 0x05)
  | .exit _ _ => some (0x5, 0x06)
  | .yield _ _ => some (0x5, 0x07)
  | .sleepUntil _ _ => some (0x5, 0x08)
  | .sleep _ _ => some (0x5, 0x08)
  | .trap _ _ => some (0x5, 0x09)
  | .prio _ _ => some (0x5, 0x0A)
  | .qswap _ _ => some (0x6, 0x00)
  | .qdd _ _ => some (0x6, 0x01)
  | .hlpOff _ _ => some (0x6, 0x02)
  | .hlpOn _ _ => some (0x6, 0x02)
  | .hlpIs _ _ => some (0x6, 0x02)
  | .shfl _ _ => some (0x6, 0x03)
  | .voteBallot _ _ => some (0x6, 0x04)
  | .vote _ _ => some (0x6, 0x04)
  | .match_ _ _ => some (0x6, 0x05)
  | .compact _ _ => some (0x6, 0x06)
  | .reform _ _ => some (0x6, 0x07)
  | .sign _ _ => some (0x6, 0x08)
  | .join_ _ _ => some (0x6, 0x09)
  | .cvset _ _ => some (0x6, 0x0A)
  | .bar _ _ => some (0x6, 0x0B)
  | .gbar _ _ => some (0x6, 0x0C)
  | .spawn _ _ => some (0x6, 0x0D)
  | .launch _ _ => some (0x6, 0x0E)
  | .redux _ _ => some (0x6, 0x0F)
  | .mma _ _ => some (0x7, 0x00)
  | .mmaq _ _ => some (0x7, 0x01)
  | .tzero _ _ => some (0x7, 0x02)
  | .tfill _ _ => some (0x7, 0x03)
  | .tmov _ _ => some (0x7, 0x04)
  | .tld _ _ => some (0x7, 0x05)
  | .tst _ _ => some (0x7, 0x06)
  | .tstat _ _ => some (0x7, 0x07)
  | .qnt _ _ => some (0x7, 0x08)
  | .olset _ _ => some (0x7, 0x09)
  | .olcnt _ _ => some (0x7, 0x0A)
  | .dqnt _ _ => some (0x7, 0x0B)
  | .ld _ _ => some (0x8, 0x00)
  | .st _ _ => some (0x8, 0x01)
  | .gath _ _ => some (0x8, 0x02)
  | .scat _ _ => some (0x8, 0x03)
  | .atom _ _ => some (0x8, 0x04)
  | .atomc _ _ => some (0x8, 0x05)
  | .pchk _ _ => some (0x8, 0x06)
  | .mon _ _ => some (0x8, 0x07)
  | .mwaitTimeout _ _ => some (0x8, 0x08)
  | .mwait _ _ => some (0x8, 0x08)
  | .cpyin _ _ => some (0x9, 0x00)
  | .cpyout _ _ => some (0x9, 0x01)
  | .cpyg _ _ => some (0x9, 0x02)
  | .cpys _ _ => some (0x9, 0x03)
  | .fatomNr _ _ => some (0x9, 0x04)
  | .fatom _ _ => some (0x9, 0x04)
  | .fcas _ _ => some (0x9, 0x05)
  | .fence _ _ => some (0x9, 0x06)
  | .publ _ _ => some (0x9, 0x07)
  | .mhint _ _ => some (0x9, 0x08)
  | .mcast _ _ => some (0x9, 0x09)
  | .bclose _ _ => some (0xA, 0x00)
  | .waitb _ _ => some (0xA, 0x01)
  | .qfence _ _ => some (0xA, 0x02)
  | .chain _ _ => some (0xA, 0x03)
  | .decod _ _ => some (0xA, 0x04)
  | .dtab _ _ => some (0xA, 0x05)
  | .sgo _ _ => some (0xA, 0x06)
  | .qpop _ _ => some (0xA, 0x07)
  | .qstatCq _ _ => some (0xA, 0x08)
  | .qstat _ _ => some (0xA, 0x08)
  | .apush _ _ => some (0xA, 0x09)
  | .aseg _ _ => some (0xA, 0x0A)
  | .ray _ _ => some (0xB, 0x00)
  | .trhold _ _ => some (0xB, 0x01)
  | .trswap _ _ => some (0xB, 0x02)
  | .trstat _ _ => some (0xB, 0x03)
  | .filt _ _ => some (0xB, 0x04)
  | .hgrid _ _ => some (0xB, 0x05)
  | .bank _ _ => some (0xB, 0x06)
  | .rfe _ _ => some (0xC, 0x00)
  | .csave _ _ => some (0xC, 0x01)
  | .crest _ _ => some (0xC, 0x02)
  | .tlbinv _ _ => some (0xC, 0x03)
  | .replay _ _ => some (0xC, 0x04)
  | .xinj _ _ => some (0xC, 0x05)
  | .elogClr _ _ => some (0xC, 0x06)
  | .elog _ _ => some (0xC, 0x06)
  | .halt _ _ => some (0xC, 0x07)
  | _ => none

/-- The operand record of a full-form instruction, under the X layout of its class. -/
inductive Operands where
  | arith (x : Arith) | ctl (x : Ctl) | mat (x : Mat) | loc (x : Loc) | main (x : Main) | eng (x : Eng) | unt (x : Unt)
  | sys (x : Sys)
  deriving DecidableEq, Repr

def operandsOf : Instr → Option Operands
  | .add _ x => some (.arith x)
  | .sub _ x => some (.arith x)
  | .addc _ x => some (.arith x)
  | .subb _ x => some (.arith x)
  | .mul _ x => some (.arith x)
  | .mulh _ x => some (.arith x)
  | .mad _ x => some (.arith x)
  | .madw _ x => some (.arith x)
  | .div_ _ x => some (.arith x)
  | .rem_ _ x => some (.arith x)
  | .min_ _ x => some (.arith x)
  | .max_ _ x => some (.arith x)
  | .abs _ x => some (.arith x)
  | .neg _ x => some (.arith x)
  | .adds _ x => some (.arith x)
  | .subs _ x => some (.arith x)
  | .clamp _ x => some (.arith x)
  | .lea _ x => some (.arith x)
  | .cmp _ x => some (.arith x)
  | .sel _ x => some (.arith x)
  | .dp4 _ x => some (.arith x)
  | .and_ _ x => some (.arith x)
  | .or_ _ x => some (.arith x)
  | .xor_ _ x => some (.arith x)
  | .andn _ x => some (.arith x)
  | .not_ _ x => some (.arith x)
  | .shl _ x => some (.arith x)
  | .shr _ x => some (.arith x)
  | .sar _ x => some (.arith x)
  | .rotl _ x => some (.arith x)
  | .bfx _ x => some (.arith x)
  | .bfi _ x => some (.arith x)
  | .popc _ x => some (.arith x)
  | .clz _ x => some (.arith x)
  | .ctz _ x => some (.arith x)
  | .brev _ x => some (.arith x)
  | .prmt _ x => some (.arith x)
  | .lop3 _ x => some (.arith x)
  | .fadd _ x => some (.arith x)
  | .fsub _ x => some (.arith x)
  | .fmul _ x => some (.arith x)
  | .ffma _ x => some (.arith x)
  | .fmin _ x => some (.arith x)
  | .fmax _ x => some (.arith x)
  | .fcmp _ x => some (.arith x)
  | .fclass _ x => some (.arith x)
  | .hfma2 _ x => some (.arith x)
  | .hadd2 _ x => some (.arith x)
  | .hmul2 _ x => some (.arith x)
  | .hdot2 _ x => some (.arith x)
  | .fmed3 _ x => some (.arith x)
  | .frcp _ x => some (.arith x)
  | .frsq _ x => some (.arith x)
  | .fsqrt _ x => some (.arith x)
  | .fdiv _ x => some (.arith x)
  | .fex2 _ x => some (.arith x)
  | .flg2 _ x => some (.arith x)
  | .fsin _ x => some (.arith x)
  | .fcos _ x => some (.arith x)
  | .dadd _ x => some (.arith x)
  | .dmul _ x => some (.arith x)
  | .dfma _ x => some (.arith x)
  | .dcmp _ x => some (.arith x)
  | .cvt _ x => some (.arith x)
  | .frnd _ x => some (.arith x)
  | .packW _ x => some (.arith x)
  | .packH _ x => some (.arith x)
  | .unpk _ x => some (.arith x)
  | .movImm _ x => some (.arith x)
  | .mov _ x => some (.arith x)
  | .psetAll _ x => some (.arith x)
  | .pset _ x => some (.arith x)
  | .pgetAll _ x => some (.arith x)
  | .pget _ x => some (.arith x)
  | .pand _ x => some (.arith x)
  | .por _ x => some (.arith x)
  | .pxor _ x => some (.arith x)
  | .pnot _ x => some (.arith x)
  | .rdsr _ x => some (.arith x)
  | .wrsr _ x => some (.arith x)
  | .vwset _ x => some (.arith x)
  | .nop _ x => some (.arith x)
  | .bra _ x => some (.ctl x)
  | .brx _ x => some (.ctl x)
  | .call _ x => some (.ctl x)
  | .callx _ x => some (.ctl x)
  | .ret _ x => some (.ctl x)
  | .loop _ x => some (.ctl x)
  | .loopImm _ x => some (.ctl x)
  | .loopPop _ x => some (.ctl x)
  | .exit _ x => some (.ctl x)
  | .yield _ x => some (.ctl x)
  | .sleepUntil _ x => some (.ctl x)
  | .sleep _ x => some (.ctl x)
  | .trap _ x => some (.ctl x)
  | .prio _ x => some (.ctl x)
  | .qswap _ x => some (.arith x)
  | .qdd _ x => some (.arith x)
  | .hlpOff _ x => some (.arith x)
  | .hlpOn _ x => some (.arith x)
  | .hlpIs _ x => some (.arith x)
  | .shfl _ x => some (.arith x)
  | .voteBallot _ x => some (.arith x)
  | .vote _ x => some (.arith x)
  | .match_ _ x => some (.arith x)
  | .compact _ x => some (.arith x)
  | .reform _ x => some (.arith x)
  | .sign _ x => some (.arith x)
  | .join_ _ x => some (.arith x)
  | .cvset _ x => some (.arith x)
  | .bar _ x => some (.arith x)
  | .gbar _ x => some (.arith x)
  | .spawn _ x => some (.arith x)
  | .launch _ x => some (.arith x)
  | .redux _ x => some (.arith x)
  | .mma _ x => some (.mat x)
  | .mmaq _ x => some (.mat x)
  | .tzero _ x => some (.mat x)
  | .tfill _ x => some (.mat x)
  | .tmov _ x => some (.mat x)
  | .tld _ x => some (.mat x)
  | .tst _ x => some (.mat x)
  | .tstat _ x => some (.mat x)
  | .qnt _ x => some (.mat x)
  | .olset _ x => some (.mat x)
  | .olcnt _ x => some (.mat x)
  | .dqnt _ x => some (.mat x)
  | .ld _ x => some (.loc x)
  | .st _ x => some (.loc x)
  | .gath _ x => some (.loc x)
  | .scat _ x => some (.loc x)
  | .atom _ x => some (.loc x)
  | .atomc _ x => some (.loc x)
  | .pchk _ x => some (.loc x)
  | .mon _ x => some (.loc x)
  | .mwaitTimeout _ x => some (.loc x)
  | .mwait _ x => some (.loc x)
  | .cpyin _ x => some (.main x)
  | .cpyout _ x => some (.main x)
  | .cpyg _ x => some (.main x)
  | .cpys _ x => some (.main x)
  | .fatomNr _ x => some (.main x)
  | .fatom _ x => some (.main x)
  | .fcas _ x => some (.main x)
  | .fence _ x => some (.main x)
  | .publ _ x => some (.main x)
  | .mhint _ x => some (.main x)
  | .mcast _ x => some (.main x)
  | .bclose _ x => some (.eng x)
  | .waitb _ x => some (.eng x)
  | .qfence _ x => some (.eng x)
  | .chain _ x => some (.eng x)
  | .decod _ x => some (.eng x)
  | .dtab _ x => some (.eng x)
  | .sgo _ x => some (.eng x)
  | .qpop _ x => some (.eng x)
  | .qstatCq _ x => some (.eng x)
  | .qstat _ x => some (.eng x)
  | .apush _ x => some (.eng x)
  | .aseg _ x => some (.eng x)
  | .ray _ x => some (.unt x)
  | .trhold _ x => some (.unt x)
  | .trswap _ x => some (.unt x)
  | .trstat _ x => some (.unt x)
  | .filt _ x => some (.unt x)
  | .hgrid _ x => some (.unt x)
  | .bank _ x => some (.unt x)
  | .rfe _ x => some (.sys x)
  | .csave _ x => some (.sys x)
  | .crest _ x => some (.sys x)
  | .tlbinv _ x => some (.sys x)
  | .replay _ x => some (.sys x)
  | .xinj _ x => some (.sys x)
  | .elogClr _ x => some (.sys x)
  | .elog _ x => some (.sys x)
  | .halt _ x => some (.sys x)
  | _ => none

/-- D, A, B and X of an operand record (R54). -/
def Operands.fields : Operands → Field8 × Field8 × Field8 × BitVec 22
  | .arith o => (o.d, o.a, o.b, o.x)
  | .ctl o => (o.d, o.a, o.b, o.x)
  | .mat o => (o.d, o.a, o.b, o.x)
  | .loc o => (o.d, o.a, o.b, o.x)
  | .main o => (o.d, o.a, o.b, o.x)
  | .eng o => (o.d, o.a, o.b, o.x)
  | .unt o => (o.d, o.a, o.b, o.x)
  | .sys o => (o.d, o.a, o.b, o.x)

/-- Puts a header, an opcode and its operand fields into one word (R54). -/
def packFull (h : Hdr) (op : BitVec 4 × BitVec 6) (f : Field8 × Field8 × Field8 × BitVec 22) : W64 :=
  FullWord.pack { s := h.sw, gn := h.gn, gp := h.gp, cls := op.1, idx := op.2, d := f.1, a := f.2.1, b := f.2.2.1, x := f.2.2.2 }

/-- The full-form instruction that a class and an index name, with its operands read from the word (R57). -/
def candFull (f : FullWord) : Except DecodeError Instr :=
  let h : Hdr := { sw := f.s, gn := f.gn, gp := f.gp }
  let need (o : Option Instr) : Except DecodeError Instr :=
    match o with | some i => .ok i | none => .error .unassignedOpcode
  let value {α : Type} (o : Option α) (k : α → Option Instr) : Except DecodeError Instr :=
    match o with | some x => need (k x) | none => .error .reservedValue
  let n := f.idx.toNat
  match f.cls.toNat with
  | 0 => need (candInteger n h (Arith.ofWord f) f.x)
  | 1 => need (candBits n h (Arith.ofWord f))
  | 2 => need (candFloat n h (Arith.ofWord f))
  | 3 => need (candFp64 n h (Arith.ofWord f))
  | 4 => need (candMove n h (Arith.ofWord f))
  | 5 => need (candControl n h (Ctl.ofWord f))
  | 6 => need (candParallel n h (Arith.ofWord f))
  | 7 => value (Mat.ofWord f) (candMatrix n h)
  | 8 => value (Loc.ofWord f) (candLocal n h)
  | 9 => value (Main.ofWord f) (candMain n h)
  | 10 => value (Eng.ofWord f) (candEngine n h)
  | 11 => need (candUnit n h (Unt.ofWord f))
  | 12 => need (candSystem n h (Sys.ofWord f))
  | _ => .error .unassignedOpcode

/-- POP codes (R66). -/
def popCode : PairOp → BitVec 6
  | .add => 0x00 | .sub => 0x01 | .minI32 => 0x02 | .maxI32 => 0x03 | .minN32 => 0x04 | .maxN32 => 0x05 | .and_ => 0x06
  | .or_ => 0x07 | .xor_ => 0x08 | .shl => 0x09 | .shr => 0x0A | .sar => 0x0B | .mov => 0x0C | .movi => 0x0D
  | .fadd => 0x0E | .fsub => 0x0F | .fmul => 0x10 | .fmin => 0x11 | .fmax => 0x12 | .hadd2 => 0x13 | .hmul2 => 0x14
  | .addi => 0x15

def popOfCode (c : BitVec 6) : Option PairOp :=
  match c.toNat with
  | 0x00 => some .add | 0x01 => some .sub | 0x02 => some .minI32 | 0x03 => some .maxI32 | 0x04 => some .minN32
  | 0x05 => some .maxN32 | 0x06 => some .and_ | 0x07 => some .or_ | 0x08 => some .xor_ | 0x09 => some .shl
  | 0x0A => some .shr | 0x0B => some .sar | 0x0C => some .mov | 0x0D => some .movi | 0x0E => some .fadd
  | 0x0F => some .fsub | 0x10 => some .fmul | 0x11 => some .fmin | 0x12 => some .fmax | 0x13 => some .hadd2
  | 0x14 => some .hmul2 | 0x15 => some .addi | _ => none

/-- PG codes (R66). -/
def pgCode : PGuard → BitVec 2
  | .always => 0 | .p0 => 1 | .p1 => 2 | .notP0 => 3

def pgOfCode (c : BitVec 2) : PGuard :=
  match c.toNat with | 0 => .always | 1 => .p0 | 2 => .p1 | _ => .notP0

/-- A slot's 31 bits (R66). -/
def packSlot (s : PairSlot) : BitVec 31 :=
  popCode s.op ++ (pgCode s.args.pg ++ (s.args.d ++ (s.args.b ++ s.args.imm)))

def unpackSlot (w : BitVec 31) : Option PairSlot := do
  let op ← popOfCode (w.extractLsb' 25 6)
  some { op := op, args := { pg := pgOfCode (w.extractLsb' 23 2), d := w.extractLsb' 15 8, b := w.extractLsb' 7 8,
                              imm := w.extractLsb' 0 7 } }

/-- The pair word whose slot 0 has this opcode. -/
def pairInstr (sw : Bool) (x y : PairSlot) : Instr :=
  match x.op with
  | .add => .pairAdd sw x.args y | .sub => .pairSub sw x.args y | .minI32 => .pairMinI32 sw x.args y
  | .maxI32 => .pairMaxI32 sw x.args y | .minN32 => .pairMinN32 sw x.args y | .maxN32 => .pairMaxN32 sw x.args y
  | .and_ => .pairAnd sw x.args y | .or_ => .pairOr sw x.args y | .xor_ => .pairXor sw x.args y
  | .shl => .pairShl sw x.args y | .shr => .pairShr sw x.args y | .sar => .pairSar sw x.args y
  | .mov => .pairMov sw x.args y | .movi => .pairMovi sw x.args y | .fadd => .pairFadd sw x.args y
  | .fsub => .pairFsub sw x.args y | .fmul => .pairFmul sw x.args y | .fmin => .pairFmin sw x.args y
  | .fmax => .pairFmax sw x.args y | .hadd2 => .pairHadd2 sw x.args y | .hmul2 => .pairHmul2 sw x.args y
  | .addi => .pairAddi sw x.args y

/-- S of a pair word. -/
def pairSwitch : Instr → Bool
  | .pairAdd sw _ _ | .pairSub sw _ _ | .pairMinI32 sw _ _ | .pairMaxI32 sw _ _ | .pairMinN32 sw _ _ | .pairMaxN32 sw _ _
  | .pairAnd sw _ _ | .pairOr sw _ _ | .pairXor sw _ _ | .pairShl sw _ _ | .pairShr sw _ _ | .pairSar sw _ _
  | .pairMov sw _ _ | .pairMovi sw _ _ | .pairFadd sw _ _ | .pairFsub sw _ _ | .pairFmul sw _ _ | .pairFmin sw _ _
  | .pairFmax sw _ _ | .pairHadd2 sw _ _ | .pairHmul2 sw _ _ | .pairAddi sw _ _ => sw
  | _ => false

/-- A pair word: S, Q = 1, slot 0 in [61:31], slot 1 in [30:0] (R66). -/
def packPair (sw : Bool) (x y : PairSlot) : W64 := BitVec.ofBool sw ++ (1#1 ++ (packSlot x ++ packSlot y))

def candPair (w : W64) : Except DecodeError Instr :=
  match unpackSlot (w.extractLsb' 31 31), unpackSlot (w.extractLsb' 0 31) with
  | some x, some y => .ok (pairInstr (w.getLsbD 63) x y)
  | _, _ => .error .reservedPairOpcode

/-- The word of an instruction; `none` for the machine's events, which are no words. -/
def encode (i : Instr) : Option W64 :=
  match i with
  | .movi h d k => some (packFull h (0, 0x15) (d, 0, 0, k))
  | .movh h d k => some (packFull h (0, 0x16) (d, 0, 0, k))
  | .illegalInstruction w => some w
  | _ =>
    match pairSlots i with
    | some (x, y) => some (packPair (pairSwitch i) x y)
    | none =>
      match hdrOf i, opcodeOf i, operandsOf i with
      | some h, some op, some o => some (packFull h op o.fields)
      | _, _, _ => none

/-- The instruction whose fields a word holds, before its fields are checked. -/
def candidate (w : W64) : Except DecodeError Instr :=
  if w.getLsbD 62 then candPair w else candFull (FullWord.unpack w)

/-- R77 steps 1 and 2 as far as the word decides: the guard, the opcode, every field, every reserved bit. -/
def decode? (w : W64) : Except DecodeError Instr :=
  if !w.getLsbD 62 && !hdrOk { sw := w.getLsbD 63, gn := w.getLsbD 61, gp := w.extractLsb' 56 5 } then .error .reservedGuard
  else
    match candidate w with
    | .error e => .error e
    | .ok i =>
      if !formOk i then .error .fieldNotAccepted
      else if encode i == some w then .ok i
      else .error .reservedBitSet

/-- The decoder: a word that is no instruction is the illegal instruction of R77. DEDUCED (notes/assumptions/57). -/
def decode (w : W64) : Instr :=
  match decode? w with
  | .ok i => i
  | .error _ => .illegalInstruction w

/-- Eight bytes, least significant first (R7). -/
def wordOfBytes : List Byte → Option (W64 × List Byte)
  | a :: b :: c :: d :: e :: f :: g :: h :: rest => some (h ++ (g ++ (f ++ (e ++ (d ++ (c ++ (b ++ a)))))), rest)
  | _ => none

/-- Decodes the instruction at the head of a byte list and gives the rest. -/
def decodeBytes (bs : List Byte) : Except DecodeError (Instr × List Byte) :=
  match wordOfBytes bs with
  | some (w, rest) => .ok (decode w, rest)
  | none => .error .tooShort

/-- The bytes of a word as memory holds them (R7). -/
def bytesOfWord (w : W64) : List Byte :=
  [w.extractLsb' 0 8, w.extractLsb' 8 8, w.extractLsb' 16 8, w.extractLsb' 24 8, w.extractLsb' 32 8, w.extractLsb' 40 8,
   w.extractLsb' 48 8, w.extractLsb' 56 8]

/-- The instruction the decoder reads from a word given as the table numbers its bits; every word of this part is 64
bits long, and bits above `nbits` are 0. -/
def decodeTableWord (nbits w : Nat) : Option Instr :=
  if nbits ≤ 64 then
    match decodeBytes (bytesOfWord (BitVec.ofNat 64 (w % 2 ^ nbits))) with
    | .ok (i, _) => some i
    | .error _ => none
  else none

end Sys2Proof
end

