-- ==== Sys2Proof/Machine/Control.lean ====
section
/-! DEFINITION. Class 5: branches, calls, hardware loops, exit, yield, sleep, trap and prio (R119-R134). -/
namespace Sys2Proof.Machine

/-- The signed word offset of `bra` and `call` (R122). -/
def ctlOffset (x : Ctl) : BitVec 29 := x.a ++ (x.b ++ x.ofl)

/-- The target of `bra` and `call` (R122). -/
def ctlTarget (x : Ctl) (a : VAddr) : VAddr := a + ((ctlOffset x).signExtend 56 <<< 3)

/-- Where a lane goes when its guard passes: target and block priority (R122, R123). -/
abbrev Dest := VAddr × Byte

def ctlDest (x : Ctl) (a : VAddr) (_ : Lane) : Dest := (ctlTarget x a, x.bp)
def ptrDest (x : Ctl) (_ : VAddr) (l : Lane) : Dest := (ptrAddr (l.pair x.a.toNat), ptrPrio (l.pair x.a.toNat))

/-- The direction of each live lane of the bundle (R124): none when its guard fails. -/
def State.directions (s : State) (u : Bun) (d : Lane → Dest) : List (Nat × Option Dest) :=
  u.live.map fun i => (i, if u.act.contains i then some (d (s.lane u i)) else none)

/-- The dissent mask (R124). -/
def dissent (ds : List (Nat × Option Dest)) : BitVec 32 :=
  match ds with
  | [] => 0
  | (_, d) :: rest => maskOf ((rest.filter fun p => p.2 != d).map (·.1))

/-- A transfer of control (R122-R124): `link` names the pair that takes the link code pointer. -/
def State.transfer (s : State) (i : Instr) (h : Hdr) (uni : Bool) (d : VAddr → Lane → Dest) (link : Option Nat) : Answer :=
  s.runWord i h fun u s =>
    let m := dissent (s.directions u (d u.pc))
    if uni && m != 0 then .trap s (trapAll u.act (trapAt 0x03 u.pc (m.setWidth 64)))
    else
      let go (_ : Nat) (l : Lane) : Lane :=
        let t := d u.pc l
        let l := match link with
          | some r => l.setPair r (codePtr l.prio (u.pc + 8))
          | none => l
        { l with pc := t.1, prio := t.2 }
      .done (s.mapLanes u u.act go) u.act

/-- `bra` (R122). -/
def execBra (h : Hdr) (x : Ctl) (s : State) : Answer := s.transfer (.bra h x) h x.u (ctlDest x) none

/-- `brx` (R123). -/
def execBrx (h : Hdr) (x : Ctl) (s : State) : Answer := s.transfer (.brx h x) h x.u (ptrDest x) none

/-- `call` (R122). -/
def execCall (h : Hdr) (x : Ctl) (s : State) : Answer := s.transfer (.call h x) h x.u (ctlDest x) (some x.d.toNat)

/-- `callx` (R123). -/
def execCallx (h : Hdr) (x : Ctl) (s : State) : Answer := s.transfer (.callx h x) h x.u (ptrDest x) (some x.d.toNat)

/-- `ret` (R123). -/
def execRet (h : Hdr) (x : Ctl) (s : State) : Answer := s.transfer (.ret h x) h x.u (ptrDest x) none

/-- The push form of `loop` in one lane (R126). -/
def Lane.pushLoop (l : Lane) (a : VAddr) (ofl : BitVec 13) (count : W32) : Lane :=
  let e := a + (ofl.setWidth 56 <<< 3)
  if count = 0 then { l with pc := e + 8 }
  else { l with loops := { start := a + 8, stop := e, count := count } :: l.loops, pc := a + 8 }

/-- The push form of `loop` (R126): a loop fault at depth 4. -/
def State.pushLoops (s : State) (i : Instr) (h : Hdr) (x : Ctl) (count : Lane → W32) : Answer :=
  s.runWord i h fun u s =>
    let full := u.act.filter fun j => 4 ≤ (s.lane u j).loops.length
    if full.isEmpty then .done (s.mapLanes u u.act fun _ l => l.pushLoop u.pc x.ofl (count l)) u.act
    else .trap s (trapAll full (trapAt 0x06 u.pc))

/-- `loop` with a count register (R126). -/
def execLoop (h : Hdr) (x : Ctl) (s : State) : Answer := s.pushLoops (.loop h x) h x fun l => l.reg x.a.toNat

/-- `loop` with an immediate count (R126). -/
def execLoopImm (h : Hdr) (x : Ctl) (s : State) : Answer :=
  s.pushLoops (.loopImm h x) h x fun _ => (x.d ++ x.a).setWidth 32

/-- `loop.pop` (R129). -/
def execLoopPop (h : Hdr) (x : Ctl) (s : State) : Answer :=
  s.runWord (.loopPop h x) h fun u s =>
    let none_ := u.act.filter fun j => (s.lane u j).loops.isEmpty
    if none_.isEmpty then .done (s.mapLanes u u.act fun _ l => { l with loops := l.loops.tail, pc := u.pc + 8 }) u.act
    else .trap s (trapAll none_ (trapAt 0x06 u.pc))

/-- `exit` (R130). -/
def execExit (h : Hdr) (x : Ctl) (s : State) : Answer := s.runWord (.exit h x) h fun u s => .finish s (.exit u.plive)

/-- `yield` (R131, R166). -/
def execYield (h : Hdr) (x : Ctl) (s : State) : Answer :=
  s.runWord (.yield h x) h fun u s =>
    if u.plive.isEmpty then .doneEnd s []
    else .doneEnd (s.updGroup u.team u.group fun g => { g with yieldEnd := s.time.clock + 17 }) []

/-- `sleep` with a duration (R132): the deadline is fixed at issue. -/
def execSleep (h : Hdr) (x : Ctl) (s : State) : Answer :=
  s.runWord (.sleep h x) h fun u s =>
    let now := s.timeAt u.core
    .finish s (.sleep u.plive (u.plive.map fun i => (i, now + ((s.lane u i).reg x.a.toNat).setWidth 64)))

/-- `sleep.until` (R132). -/
def execSleepUntil (h : Hdr) (x : Ctl) (s : State) : Answer :=
  s.runWord (.sleepUntil h x) h fun u s =>
    .finish s (.sleep u.plive (u.plive.map fun i => (i, (s.lane u i).pair x.a.toNat)))

/-- `trap` (R133): the software trap in the lanes of P; a plain run end when P is empty. -/
def execTrap (h : Hdr) (x : Ctl) (s : State) : Answer :=
  s.runWord (.trap h x) h fun u s =>
    if u.act.isEmpty then .doneEnd s []
    else .trap s (trapAll u.act { trapAt 0x08 u.pc with k := x.ofl })

/-- `prio` (R134). -/
def execPrio (h : Hdr) (x : Ctl) (s : State) : Answer :=
  s.runWord (.prio h x) h fun u s => .done (s.mapLanes u u.act fun _ l => { l with prio := x.bp }) []

end Sys2Proof.Machine
end

