-- ==== Sys2Proof/Machine/Integer.lean ====
section
/-! DEFINITION. Class 0: integer arithmetic, compares and constants (R90-R96, R60). -/
namespace Sys2Proof.Machine

/-- `add` (R90): D := A + B. -/
def execAdd (h : Hdr) (x : Arith) (s : State) : Answer :=
  s.perLane (.add h x) h fun vs l => l.intOp vs x fun a b _ => a + b

/-- `sub` (R90): D := A - B. -/
def execSub (h : Hdr) (x : Arith) (s : State) : Answer :=
  s.perLane (.sub h x) h fun vs l => l.intOp vs x fun a b _ => a - b

/-- The carry or borrow a word reads from pC (R91). -/
def Lane.carry (l : Lane) (x : Arith) : Nat := if l.pred x.c.toNat then 1 else 0

/-- `addc` in one lane (R91). -/
def Lane.addCarry (l : Lane) (x : Arith) : Lane :=
  let w := tyBits x.ty
  let t := (l.src x.ty x.a.toNat).toNat + (l.srcB x).toNat + l.carry x
  (l.dst x.ty x.d.toNat (BitVec.ofNat 64 t)).setPred x.c.toNat (carryOut w t)

/-- `subb` in one lane (R91). -/
def Lane.subBorrow (l : Lane) (x : Arith) : Lane :=
  let t : Int := (l.src x.ty x.a.toNat).toNat - (l.srcB x).toNat - l.carry x
  (l.dst x.ty x.d.toNat (BitVec.ofInt 64 t)).setPred x.c.toNat (borrowOut t)

/-- `addc` (R91). -/
def execAddc (h : Hdr) (x : Arith) (s : State) : Answer := s.perLane (.addc h x) h fun _ l => l.addCarry x

/-- `subb` (R91). -/
def execSubb (h : Hdr) (x : Arith) (s : State) : Answer := s.perLane (.subb h x) h fun _ l => l.subBorrow x

/-- `mul` (R90): D := A * B. -/
def execMul (h : Hdr) (x : Arith) (s : State) : Answer :=
  s.perLane (.mul h x) h fun vs l => l.intOp vs x fun a b _ => a * b

/-- `mulh` (R93): the upper half of the exact product. -/
def execMulh (h : Hdr) (x : Arith) (s : State) : Answer :=
  s.perLane (.mulh h x) h fun vs l => l.intOp vs x fun a b _ => a * b / 2 ^ tyBits x.ty

/-- `mad` (R90): D := A * B + C. -/
def execMad (h : Hdr) (x : Arith) (s : State) : Answer :=
  s.perLane (.mad h x) h fun vs l => l.intOp vs x fun a b c => a * b + c

/-- `madw` in one lane (R93): a 32-bit product added to a pair, narrowed to 64 bits. -/
def Lane.madWide (l : Lane) (x : Arith) : Lane :=
  let g := tySigned x.ty
  let c := l.pair x.c.toNat
  let r := narrow 64 g x.fs (intOf x.ty (l.src x.ty x.a.toNat) * intOf x.ty (l.srcB x) +
    (if g then sextTo 64 c else zextTo 64 c))
  (l.setPair x.d.toNat r.1).raise r.2

/-- `madw` (R93). -/
def execMadw (h : Hdr) (x : Arith) (s : State) : Answer := s.perLane (.madw h x) h fun _ l => l.madWide x

/-- Quotient and remainder of R94, by width and signedness. -/
def divide (w : Nat) (signed : Bool) (a b : Int) : Int × Int :=
  if b = 0 then
    (if !signed then 2 ^ w - 1 else if 0 ≤ a then 2 ^ (w - 1) - 1 else -(2 ^ (w - 1)), a)
  else if signed ∧ a = -(2 ^ (w - 1)) ∧ b = -1 then (-(2 ^ (w - 1)), 0)
  else (Int.tdiv a b, Int.tmod a b)

/-- A division in one lane: `pick` takes the quotient or the remainder (R94). -/
def Lane.divOuts (l : Lane) (x : Arith) (pick : Int × Int → Int) : Outs :=
  let q := divide (tyBits x.ty) (tySigned x.ty) (intOf x.ty (l.src x.ty x.a.toNat)) (intOf x.ty (l.srcB x))
  { writes := resultRegs x.ty x.d.toNat (BitVec.ofInt 64 (pick q)), flags := 0 }

/-- `div` (R94). -/
def execDiv (h : Hdr) (x : Arith) (s : State) : Answer := s.perLaneLate (.div_ h x) h fun l => l.divOuts x (·.1)

/-- `rem` (R94). -/
def execRem (h : Hdr) (x : Arith) (s : State) : Answer := s.perLaneLate (.rem_ h x) h fun l => l.divOuts x (·.2)

/-- `min` (R90). -/
def execMin (h : Hdr) (x : Arith) (s : State) : Answer :=
  s.perLane (.min_ h x) h fun vs l => l.intOp vs x fun a b _ => min a b

/-- `max` (R90). -/
def execMax (h : Hdr) (x : Arith) (s : State) : Answer :=
  s.perLane (.max_ h x) h fun vs l => l.intOp vs x fun a b _ => max a b

/-- `abs` (R90). -/
def execAbs (h : Hdr) (x : Arith) (s : State) : Answer :=
  s.perLane (.abs h x) h fun vs l => l.intOp vs x fun a _ _ => if a < 0 then -a else a

/-- `neg` (R90). -/
def execNeg (h : Hdr) (x : Arith) (s : State) : Answer :=
  s.perLane (.neg h x) h fun vs l => l.intOp vs x fun a _ _ => -a

/-- `adds` and `subs` in one lane (R92): the wrapped result, and pC when the exact one is out of range. -/
def Lane.overflowOp (l : Lane) (x : Arith) (op : Int → Int → Int) : Lane :=
  let t := op (intOf x.ty (l.src x.ty x.a.toNat)) (intOf x.ty (l.srcB x))
  (l.dst x.ty x.d.toNat (BitVec.ofInt 64 t)).setPred x.c.toNat (overflowOut (tyBits x.ty) (tySigned x.ty) t)

/-- `adds` (R92). -/
def execAdds (h : Hdr) (x : Arith) (s : State) : Answer := s.perLane (.adds h x) h fun _ l => l.overflowOp x (· + ·)

/-- `subs` (R92). -/
def execSubs (h : Hdr) (x : Arith) (s : State) : Answer := s.perLane (.subs h x) h fun _ l => l.overflowOp x (· - ·)

/-- `clamp` (R90): min(max(A, B), C). -/
def execClamp (h : Hdr) (x : Arith) (s : State) : Answer :=
  s.perLane (.clamp h x) h fun vs l => l.intOp vs x fun a b c => min (max a b) c

/-- The 32-bit B of `lea` under R59 or in its register, extended to the width of TYPE (R95). -/
def Lane.leaIndex (l : Lane) (x : Arith) : Int :=
  let b : W32 := if x.i then (immVal x.ty (immOf x)).setWidth 32 else l.reg x.b.toNat
  match x.ty with
  | .i64 => b.toInt
  | _ => b.toNat

/-- `lea` in one lane (R95). -/
def Lane.leaOp (l : Lane) (x : Arith) : Lane :=
  l.dst x.ty x.d.toNat (BitVec.ofInt 64 ((l.src x.ty x.a.toNat).toNat + l.leaIndex x * 2 ^ x.sub.toNat))

/-- `lea` (R95). -/
def execLea (h : Hdr) (x : Arith) (s : State) : Answer := s.perLane (.lea h x) h fun _ l => l.leaOp x

/-- The comparisons of `cmp` (R95). -/
def compareInt (cc : Nat) (a b : Int) : Bool :=
  match cc with
  | 0 => a == b
  | 1 => a != b
  | 2 => decide (a < b)
  | 3 => decide (a ≤ b)
  | 4 => decide (b < a)
  | _ => decide (b ≤ a)

/-- `cmp` in one lane (R95). -/
def Lane.cmpOp (l : Lane) (x : Arith) : Lane :=
  l.setPred x.d.toNat (compareInt x.sub.toNat (intOf x.ty (l.src x.ty x.a.toNat)) (intOf x.ty (l.srcB x)))

/-- `cmp` (R95). -/
def execCmp (h : Hdr) (x : Arith) (s : State) : Answer := s.perLane (.cmp h x) h fun _ l => l.cmpOp x

/-- `sel` in one lane (R95). -/
def Lane.selOp (l : Lane) (x : Arith) : Lane :=
  l.dst x.ty x.d.toNat (if l.pred x.c.toNat then l.src x.ty x.a.toNat else l.srcB x)

/-- `sel` (R95). -/
def execSel (h : Hdr) (x : Arith) (s : State) : Answer := s.perLane (.sel h x) h fun _ l => l.selOp x

/-- `movi` (R60): a sign-extended 22-bit immediate. -/
def execMovi (h : Hdr) (d : Field8) (k : BitVec 22) (s : State) : Answer :=
  s.perLane (.movi h d k) h fun _ l => l.setReg d.toNat (k.signExtend 32)

/-- `movh` (R60): the immediate to bits [31:10]; bits [9:0] stay. -/
def execMovh (h : Hdr) (d : Field8) (k : BitVec 22) (s : State) : Answer :=
  s.perLane (.movh h d k) h fun _ l => l.setReg d.toNat (k ++ (l.reg d.toNat).setWidth 10)

/-- `dp4` in one lane (R96). -/
def Lane.dp4Op (l : Lane) (x : Arith) : Lane :=
  let g := tySigned x.ty
  let r := narrow 32 g x.fs (intOf x.ty (l.src x.ty x.c.toNat) + dotBytes g (l.reg x.a.toNat) (l.reg x.b.toNat))
  l.put { writes := resultRegs x.ty x.d.toNat r.1, flags := r.2 }

/-- `dp4` (R96). -/
def execDp4 (h : Hdr) (x : Arith) (s : State) : Answer := s.perLane (.dp4 h x) h fun _ l => l.dp4Op x

end Sys2Proof.Machine
end

