-- ==== Sys2Proof/Machine/Moves.lean ====
section
/-! DEFINITION. Class 4 but for special registers: moves, predicates, view registers (R114-R116, R118). -/
namespace Sys2Proof.Machine

/-- `mov` (R114). -/
def execMov (h : Hdr) (x : Arith) (s : State) : Answer :=
  s.perLane (.mov h x) h fun _ l => l.dst x.ty x.d.toNat (l.src x.ty x.a.toNat)

/-- `mov` of an immediate (R114). -/
def execMovImm (h : Hdr) (x : Arith) (s : State) : Answer :=
  s.perLane (.movImm h x) h fun _ l => l.dst x.ty x.d.toNat ((immOf x).setWidth 64)

/-- `pset` (R115). -/
def execPset (h : Hdr) (x : Arith) (s : State) : Answer :=
  s.perLane (.pset h x) h fun _ l =>
    l.setPred x.d.toNat ((if x.i then (immOf x).setWidth 32 else l.reg x.a.toNat) != 0)

/-- `pset.all` (R115). -/
def execPsetAll (h : Hdr) (x : Arith) (s : State) : Answer :=
  s.perLane (.psetAll h x) h fun _ l => { l with preds := (l.reg x.a.toNat).setWidth 24 }

/-- `pget` (R115). -/
def execPget (h : Hdr) (x : Arith) (s : State) : Answer :=
  s.perLane (.pget h x) h fun _ l => l.setReg x.d.toNat (if l.pred x.a.toNat then 1 else 0)

/-- `pget.all` (R115). -/
def execPgetAll (h : Hdr) (x : Arith) (s : State) : Answer :=
  s.perLane (.pgetAll h x) h fun _ l => l.setReg x.d.toNat (l.preds.setWidth 32)

/-- A predicate operation with source negations (R116). -/
def Lane.predOp (l : Lane) (x : Arith) (op : Bool → Bool → Bool) : Lane :=
  l.setPred x.d.toNat (op (l.pred x.a.toNat != x.sub.getLsbD 0) (l.pred x.b.toNat != x.sub.getLsbD 1))

/-- `pand` (R116). -/
def execPand (h : Hdr) (x : Arith) (s : State) : Answer := s.perLane (.pand h x) h fun _ l => l.predOp x (· && ·)

/-- `por` (R116). -/
def execPor (h : Hdr) (x : Arith) (s : State) : Answer := s.perLane (.por h x) h fun _ l => l.predOp x (· || ·)

/-- `pxor` (R116). -/
def execPxor (h : Hdr) (x : Arith) (s : State) : Answer := s.perLane (.pxor h x) h fun _ l => l.predOp x (· != ·)

/-- `pnot` (R114). -/
def execPnot (h : Hdr) (x : Arith) (s : State) : Answer :=
  s.perLane (.pnot h x) h fun _ l => l.setPred x.d.toNat (!l.pred x.a.toNat)

/-- `nop` (R114). -/
def execNop (h : Hdr) (x : Arith) (s : State) : Answer := s.perLane (.nop h x) h fun _ l => l

/-- The value a lane gives `vwset` (R118). -/
def Lane.viewValue (l : Lane) (x : Arith) : W32 := if x.i then (immOf x).setWidth 32 else l.reg x.a.toNat

/-- `vwset` (R118, R152): the highest active lane's value stands. A reserved value traps in the lanes of P that give it, and in
them alone, as R351 says of a check by lane. The value that stands is a live lane's: a helper lane writes no view register.
DESIGN CHOICE (notes/assumptions/68). -/
def execVwset (h : Hdr) (x : Arith) (s : State) : Answer :=
  s.runWord (.vwset h x) h fun u s =>
    let bad := u.act.filter fun i => viewReserved ((s.lane u i).viewValue x)
    if !bad.isEmpty then .trap s (trapAll bad (trapAt 0x01 u.pc))
    else match u.plive.getLast? with
      | none => .done s []
      | some i =>
        let v := (s.lane u i).viewValue x
        .done (s.updTeam u.team fun t => { t with views := t.views.set x.d.toNat v }) []

end Sys2Proof.Machine
end

