-- ==== Sys2Proof/Machine/Parallel.lean ====
section
/-! DEFINITION. Class 6: words across the lanes of a bundle (R168-R180), regrouping (R181), convergence registers
(R184-R186), barriers (R188), tasks (R190) and launches from the device (R192). -/
namespace Sys2Proof.Machine

-- quads

/-- The value a lane gives in a cross-lane word, if its slot is in the bundle (R169-R172). -/
def State.given (s : State) (u : Bun) (x : Arith) (slot : Nat) : Option W64 :=
  if u.slots.contains slot then some ((s.lane u slot).src x.ty x.a.toNat) else none

/-- A word whose result each lane of P takes from another slot of the bundle, or from itself (R171, R174). -/
def State.fromSlot (s : State) (i : Instr) (h : Hdr) (x : Arith) (source : Nat → Lane → Option Nat) : Answer :=
  s.runWord i h fun u s =>
    let value (j : Nat) (l : Lane) : W64 :=
      match (source j l).bind (s.given u x) with
      | some v => v
      | none => l.src x.ty x.a.toNat
    .done (s.mapLanes u u.act fun j l => l.dst x.ty x.d.toNat (value j l)) []

/-- `qswap` (R171). -/
def execQswap (h : Hdr) (x : Arith) (s : State) : Answer :=
  s.fromSlot (.qswap h x) h x fun j _ => some (j / 4 * 4 + (j % 4 ^^^ (x.sub.toNat + 1)))

/-- The quad positions whose difference `qdd` forms for a lane (R172): minuend and subtrahend, x at bit 0 and y at bit 1. -/
def qddPlaces (sub pos : Nat) : Nat × Nat :=
  match sub with
  | 0 => (pos ||| 1, pos / 2 * 2)
  | 1 => (pos ||| 2, pos % 2)
  | 2 => (1, 0)
  | _ => (2, 0)

/-- `qdd` (R172). -/
def execQdd (h : Hdr) (x : Arith) (s : State) : Answer :=
  s.runWord (.qdd h x) h fun u s =>
    let outs (j : Nat) : Outs :=
      let (p, q) := qddPlaces x.sub.toNat (j % 4)
      match s.given u x (j / 4 * 4 + p), s.given u x (j / 4 * 4 + q) with
      | some a, some b =>
        let r := subF (fmtOf x.ty) x.rm x.fs a b
        { writes := resultRegs x.ty x.d.toNat r.val, flags := r.flags }
      | _, _ => { writes := resultRegs x.ty x.d.toNat 0, flags := 0 }
    .done (s.mapLanes u u.act fun j l => l.put (outs j)) []

/-- The quads that hold a lane of P. -/
def Bun.quads (u : Bun) : List Nat := (u.act.map (· / 4)).eraseDups

/-- `hlp.off` (R173). -/
def execHlpOff (h : Hdr) (x : Arith) (s : State) : Answer :=
  s.runWord (.hlpOff h x) h fun u s =>
    .done (s.updGroup u.team u.group fun g =>
      Group.tidy { g with lanes := g.lanes.zipIdx.map fun (l, j) =>
        if l.kind = .helper ∧ u.quads.contains (j / 4) then emptyLane else l }) []

/-- A helper lane that `hlp.on` makes in a slot, from the quad's lowest lane of P (R173). What the rule does not name is as at
a lane's start, and `$param` is the copied lane's. DESIGN CHOICE (notes/assumptions/65). -/
def helperFrom (t : Team) (g slot : Nat) (l : Lane) (now : W64) : Lane :=
  let tid := 32 * g + slot
  { emptyLane with kind := .helper, tid := tid, pc := l.pc, prio := l.prio, regs := l.regs, preds := l.preds,
                   loops := l.loops, spill := BitVec.ofNat 32 (t.spillTop (tid / 32)), acq := now, param := l.param }

/-- `hlp.on` (R173): the new helper lanes join the bundle's entry. A loop end of this word is evaluated for the lanes that
executed it, and a new helper has its copied loop stack from before it. Its registers are written to the register file (R358,
R376). DESIGN CHOICE (notes/assumptions/65). -/
def execHlpOn (h : Hdr) (x : Arith) (s : State) : Answer :=
  s.runWord (.hlpOn h x) h fun u s =>
    match s.team? u.team with
    | none => .done s []
    | some t =>
      let now := s.timeAt u.core
      let model (j : Nat) : Option Nat := u.act.find? fun k => k / 4 == j / 4
      let slots (g : Group) : List Nat := (List.range 32).filter fun j => (g.lane j).kind == .empty && (model j).isSome
      let new := match s.group? u.team u.group with | some g => slots g | none => []
      let make (g : Group) : Group :=
        { g.updSlots new (fun j _ => helperFrom t u.group j (g.lane ((model j).getD 0)) now) with
          entries := g.entries.map fun e => if e.mask.getLsbD u.slot then { e with mask := e.mask ||| maskOf new } else e }
      let s := s.updGroup u.team u.group make
      .done (new.foldl (fun s j => s.wroteRegs u.team u.group j [(0, t.nregs)]) s) []

/-- `hlp.is` (R173). -/
def execHlpIs (h : Hdr) (x : Arith) (s : State) : Answer :=
  s.perLane (.hlpIs h x) h fun _ l => l.setPred x.d.toNat (l.kind == .helper)

-- bundle

/-- The source slot of `shfl` (R174). -/
def shflSource (x : Arith) (j : Nat) (l : Lane) : Option Nat :=
  let b := (if x.i then (immOf x).toNat else (l.reg x.b.toNat).toNat) % 32
  match x.sub.toNat with
  | 0 => some b
  | 1 => if b ≤ j then some (j - b) else none
  | 2 => if j + b < 32 then some (j + b) else none
  | _ => some (j ^^^ b)

/-- `shfl` (R174). -/
def execShfl (h : Hdr) (x : Arith) (s : State) : Answer := s.fromSlot (.shfl h x) h x (shflSource x)

/-- The live lanes of P whose predicate pA is set. -/
def State.predSlots (s : State) (u : Bun) (x : Arith) : List Nat := u.plive.filter fun i => (s.lane u i).pred x.a.toNat

/-- `vote` (R175). -/
def execVote (h : Hdr) (x : Arith) (s : State) : Answer :=
  s.runWord (.vote h x) h fun u s =>
    let n := (s.predSlots u x).length
    let v := match x.sub.toNat with
      | 0 => n == u.plive.length
      | 1 => n != 0
      | _ => n == 0 || n == u.plive.length
    .done (s.mapLanes u u.act fun _ l => l.setPred x.d.toNat v) []

/-- `vote.ballot` (R175). -/
def execVoteBallot (h : Hdr) (x : Arith) (s : State) : Answer :=
  s.runWord (.voteBallot h x) h fun u s =>
    let m := maskOf (s.predSlots u x)
    .done (s.mapLanes u u.act fun _ l => l.setReg x.d.toNat m) []

/-- `match` (R176). -/
def execMatch (h : Hdr) (x : Arith) (s : State) : Answer :=
  s.runWord (.match_ h x) h fun u s =>
    let value (j : Nat) : W64 := (s.lane u j).src x.ty x.a.toNat
    let same (j : Nat) : W32 := maskOf (u.plive.filter fun k => value k == value j)
    .done (s.mapLanes u u.plive fun j l => l.setReg x.d.toNat (same j)) []

/-- `compact` (R177). -/
def execCompact (h : Hdr) (x : Arith) (s : State) : Answer :=
  s.runWord (.compact h x) h fun u s =>
    let chosen := s.predSlots u x
    let value (j : Nat) : Nat :=
      if x.sub = 1 then chosen.length
      else if chosen.contains j then (chosen.filter (· < j)).length
      else chosen.length + ((u.plive.filter fun k => !chosen.contains k).filter (· < j)).length
    .done (s.mapLanes u u.plive fun j l => l.setReg x.d.toNat (BitVec.ofNat 32 (value j))) []

-- redux

/-- One node of the tree of `redux.fadd` (R180). -/
def addNode (f : Fmt) (rm : Rm) (ftz : Bool) (a b : Option W64) : Option W64 × W32 :=
  match a, b with
  | some p, some q => let r := addF f rm ftz p q; (some r.val, r.flags)
  | some p, none => (some p, 0)
  | none, q => (q, 0)

/-- One level of the tree. -/
def addLevel (f : Fmt) (rm : Rm) (ftz : Bool) : List (Option W64) → List (Option W64) × W32
  | a :: b :: rest =>
    let n := addNode f rm ftz a b
    let r := addLevel f rm ftz rest
    (n.1 :: r.1, n.2 ||| r.2)
  | l => (l, 0)

/-- `n` levels of the tree, from the leaves (R180). -/
def addTree (f : Fmt) (rm : Rm) (ftz : Bool) : Nat → List (Option W64) → List (Option W64) × W32
  | 0, l => (l, 0)
  | n + 1, l =>
    let r := addLevel f rm ftz l
    let q := addTree f rm ftz n r.1
    (q.1, r.2 ||| q.2)

/-- The combined value of `redux` with its flags (R179, R180; `.ftz` flushes every leaf, R43); none where a least or greatest
value, or a tree sum, of no lane is asked for. -/
def reduxValue (x : Arith) (vals : List W64) (leaves : List (Option W64)) : Option (W64 × W32) :=
  let ints := vals.map (intOf x.ty)
  match x.sub.toNat with
  | 0 => some (narrow (tyBits x.ty) (tySigned x.ty) x.fs (ints.foldl (· + ·) 0))
  | 1 => match ints with
    | [] => none
    | v :: vs => some (BitVec.ofInt 64 (vs.foldl min v), 0)
  | 2 => match ints with
    | [] => none
    | v :: vs => some (BitVec.ofInt 64 (vs.foldl max v), 0)
  | 3 => some (vals.foldl (· &&& ·) (BitVec.allOnes 64), 0)
  | 4 => some (vals.foldl (· ||| ·) 0, 0)
  | 5 => some (vals.foldl (· ^^^ ·) 0, 0)
  | _ =>
    let f := fmtOf x.ty
    let r := addTree f x.rm x.fs 5 (leaves.map fun v => v.map (f.flush x.fs))
    match r.1 with
    | some v :: _ => some (v, r.2)
    | _ => none

/-- A value that the manual does not state (notes/assumptions/4). DESIGN CHOICE (notes/assumptions/4). -/
def State.freeWord (s : State) : W64 × State :=
  let (bs, s) := s.freeBytes 8
  (BitVec.ofNat 64 (ofBytes bs), s)

/-- `redux` (R179): with helper lanes alone in P there may be no value to give them, and theirs is free. -/
def execRedux (h : Hdr) (x : Arith) (s : State) : Answer :=
  s.runWord (.redux h x) h fun u s =>
    let value (j : Nat) : W64 := (s.lane u j).src x.ty x.a.toNat
    let leaves := (List.range 32).map fun j => if u.plive.contains j then some (value j) else none
    let (v, s) : (W64 × W32) × State := match reduxValue x (u.plive.map value) leaves with
      | some v => (v, s)
      | none => let (w, s) := s.freeWord; ((w, 0), s)
    .done (s.mapLanes u u.act fun _ l => l.put { writes := resultRegs x.ty x.d.toNat v.1, flags := v.2 }) []

-- regrouping, convergence, barriers

/-- `reform` (R181). -/
def execReform (h : Hdr) (x : Arith) (s : State) : Answer :=
  s.runWord (.reform h x) h fun u s => .finish s (.reform (s.predSlots u x))

/-- `sign` (R185). -/
def execSign (h : Hdr) (x : Arith) (s : State) : Answer :=
  s.runWord (.sign h x) h fun u s =>
    let n := x.c.toNat
    let bad := s.cvTraps u.team u.group n u.pc u.plive
    if !bad.isEmpty then .trap s bad
    else
      let (s, last) := s.signLanes u.team u.group n u.pc u.plive
      let s := s.mapLanes u u.act fun j l => l.setPred x.d.toNat (!last.isEmpty && u.plive.contains j)
      .done (if last.isEmpty then s else s.settle) []

/-- `join` (R186). -/
def execJoin (h : Hdr) (x : Arith) (s : State) : Answer :=
  s.runWord (.join_ h x) h fun u s => .finish s (.join u.plive x.c.toNat)

/-- The lanes of some slots as a set of `$tid`s. -/
def tidSet (tids : List Nat) : BitVec 1024 := tids.foldl (fun m i => m ||| BitVec.twoPow 1024 i) 0

/-- `cvset` (R184). With no live lane in P it declares nothing and leaves cvN. DESIGN CHOICE (notes/assumptions/65). -/
def execCvset (h : Hdr) (x : Arith) (s : State) : Answer :=
  s.runWord (.cvset h x) h fun u s =>
    match s.team? u.team with
    | none => .done s []
    | some t =>
      let n := x.c.toNat
      let c := t.cv n
      if u.plive.isEmpty then .done s []
      else if c.sgn != 0 then .trap s (trapAll u.plive (cvTrap n c u.pc))
      else
        let mine := tidSet (u.plive.map fun i => (s.lane u i).tid)
        let decl := match x.sub.toNat with
          | 0 => tidSet (s.liveTids t)
          | 1 => mine
          | _ => c.decl ||| mine
        .done (s.updTeam u.team fun t => { t with cvs := t.cvs.set n { ConvReg.empty with decl := decl } }) []

/-- `bar` (R188). -/
def execBar (h : Hdr) (x : Arith) (s : State) : Answer := s.runWord (.bar h x) h fun u s => .finish s (.bar u.plive false)

/-- `gbar` (R188). -/
def execGbar (h : Hdr) (x : Arith) (s : State) : Answer := s.runWord (.gbar h x) h fun u s => .finish s (.bar u.plive true)

-- tasks and launches

/-- One lane offers a task (R190). -/
def State.offerTask (s : State) (u : Bun) (x : Arith) (slot : Nat) : State :=
  let c := clusterOf u.core
  let l := s.lane u slot
  match (s.team? u.team).bind fun t => s.gang? t.gang with
  | none => s
  | some g =>
    if 256 ≤ (s.tasks.getD c []).length then s.mapLanes u [slot] fun _ l => l.setPred x.d.toNat false
    else
      let task : Task :=
        { entry := l.pair x.a.toNat, arg := l.pair x.b.toNat, launch := g.launch, gang := g.indexOf l.tid, priv := u.priv }
      let s := { s with tasks := s.tasks.set c (s.tasks.getD c [] ++ [task]) }
      let s := s.updLaunch g.launch fun n => { n with tasks := n.tasks + 1 }
      s.mapLanes u [slot] fun _ l => l.setPred x.d.toNat true

/-- `spawn` (R190). -/
def execSpawn (h : Hdr) (x : Arith) (s : State) : Answer :=
  s.runWord (.spawn h x) h fun u s => .done (u.plive.foldl (fun s i => s.offerTask u x i) s) []

/-- Parks a bundle before a word issues until lines are present; expired leased lines are fetched again (R192, R274). -/
def State.parkLines (s : State) (u : Bun) (ls : List (Space × Nat)) : Effect :=
  let gang := match s.team? u.team with | some t => t.gang | none => 0
  let ids := ls.map fun (sp', n) => if sp' = .sc then LineId.scratch gang n else LineId.shared u.team n
  .park (s.refetchLines u.team ls) (.lines ids)

/-- Whether a launch queue takes another record (R192), those offered before it counted. -/
def LaunchQueue.accepts (q : LaunchQueue) : Bool :=
  q.en && q.code == 0 && decide (ringCount q.tail q.head + q.offers.length < 2 ^ q.log2)

/-- Address of a record's slot (R153). -/
def LaunchQueue.slot (q : LaunchQueue) (index : W32) : Nat := q.base.toNat + 128 * (index.toNat % 2 ^ q.log2)

/-- Who writes a launch record and its VALID (R192, R236, R382 source 2): the issuing lane's core. -/
def launchWriter (core : Nat) : Writer := { writer := BitVec.ofNat 12 core, log := none }

def LaunchQueue.launchWho (q : LaunchQueue) (core : Nat) : PartWho :=
  { src := 2, ctx := q.ctx, core := core, part := false, raises := true }

/-- One lane offers a launch record (R192): words 0x00 to 0x77 are written to the next slot, and a release at system scope
begins. Words of a bad codeword read as poison (R358, R360). DEDUCED (notes/assumptions/21). -/
def State.offerRecord (s : State) (u : Bun) (x : Arith) (slot : Nat) : State :=
  let n := x.sub.toNat
  let pd (s : State) (b : Bool) : State := s.mapLanes u [slot] fun _ l => l.setPred x.d.toNat b
  match s.lqs[n]? with
  | none => pd s false
  | some q =>
    if !q.accepts then pd s false
    else
      let (s, bytes, _) := s.unitRead u.team .sh ((s.lane u slot).reg x.a.toNat).toNat 120
      let at_ := q.slot (q.tail + BitVec.ofNat 32 q.offers.length)
      let writer := launchWriter u.core
      match s.partWrite (.va q.ctx at_) bytes (q.launchWho u.core) writer with
      | (s, .ok ls) =>
        let (s, w) := s.beginRelease ls writer.writer
        let o : LaunchOffer := { slot := at_, core := u.core, wait := w, valid := false }
        pd { s with lqs := modifyAt s.lqs n fun q => { q with offers := q.offers ++ [o] } } true
      | (s, _) => pd s false

/-- TAIL counts the oldest offered record (R192), which wakes the launch unit (R153). -/
def LaunchQueue.appended (q : LaunchQueue) : LaunchQueue :=
  { q with tail := q.tail + 1, offers := q.offers.drop 1, wait := match q.wait with | .valid _ => .none | w => w }

/-- The oldest offered record of a queue goes on once the release over it has ended: VALID is written, and when that write
is performed TAIL counts the record. What is offered to a ring that can no longer be written is dropped. -/
def State.appendOffer (s : State) (n : Nat) : State :=
  let upd (s : State) (f : LaunchQueue → LaunchQueue) : State := { s with lqs := modifyAt s.lqs n f }
  match s.lqs[n]? with
  | none => s
  | some q => match q.offers with
    | [] => s
    | o :: rest =>
      if !s.releaseOver o.wait then s
      else if o.valid then upd (s.partRelease o.wait.lines) LaunchQueue.appended
      else
        let writer := launchWriter o.core
        match s.partWrite (.va q.ctx (o.slot + 0x78)) (bytesOf 8 (2 ^ 63)) (q.launchWho o.core) writer with
        | (s, .ok ls) =>
          if (s.heldIn ls writer.writer).isEmpty then upd (s.partRelease ls) LaunchQueue.appended
          else
            let w : PartWait := { lines := ls, writer := writer.writer, at_ := s.time.now }
            upd s fun q => { q with offers := { o with wait := w, valid := true } :: rest }
        | (s, _) => upd s fun q => { q with offers := [] }

/-- The offered records whose releases are over are appended, in the order in which they were offered (R192). -/
def State.offersOver (s : State) : State :=
  (List.range s.lqs.length).foldl (fun (s : State) n =>
    (List.range (s.lqs.getD n LaunchQueue.reset).offers.length).foldl (fun (s : State) _ => s.appendOffer n) s) s

/-- `launch` (R192). DEDUCED (notes/assumptions/21). -/
def execLaunch (h : Hdr) (x : Arith) (s : State) : Answer :=
  s.runWord (.launch h x) h fun u s =>
    match s.team? u.team with
    | none => .done s []
    | some t =>
      let q := s.lqs.getD x.sub.toNat LaunchQueue.reset
      let addr (i : Nat) : W32 := (s.lane u i).reg x.a.toNat
      let bad := u.plive.filter fun i => (addr i).toNat % 128 != 0 || !s.granted t 0 .sh (addr i).toNat 128
      if q.priv && !u.priv && !u.plive.isEmpty then .trap s (trapAll u.plive (trapAt 0x02 u.pc))
      else if !bad.isEmpty then .trap s (bad.map fun i => (i, trapAt 0x11 u.pc 0 ((addr i).setWidth 64)))
      else
        let ls := u.plive.map fun i => (Space.sh, (addr i).toNat / 128)
        if s.linesPresent u.team ls then
          .done (u.plive.foldl (fun s i => s.offerRecord u x i) (s.noteRead u .sh (u.plive.map fun i => (addr i).toNat))) []
        else s.parkLines u ls

end Sys2Proof.Machine
end

