-- ==== Sys2Proof/Machine/Local.lean ====
section
/-! DEFINITION. Class 8: loads, stores, gathers, scatters and atomics of local memory (R237-R246), monitors (R247,
R248); and the events that end waits of lanes and groups (R71, R132, R165, R166, R182, R227, R248, R274). -/
namespace Sys2Proof.Machine

/-- Base plus offset as an exact sum (R222, R238). -/
def Lane.locAddr (l : Lane) (x : Loc) (split : Bool) : Int :=
  exactSum (l.reg x.a.toNat) (if split then 16 * (x.off.extractLsb' 4 8).toInt else x.off.toInt)

/-- The addresses of a gather's or scatter's elements (R238, R242). -/
def Lane.elemAddrs (l : Lane) (x : Loc) : List Int :=
  (List.range (x.aux.toNat + 1)).map fun i => l.locAddr x x.split + (l.reg (x.b.toNat + i)).toNat

/-- The trap of an address outside a space's grant (R222, R224). -/
def rangeTrap (spc : Space) (pc : VAddr) (a : Int) : TrapInfo :=
  trapAt (if spc = .sp then 0x07 else 0x11) pc 0 (BitVec.ofInt 64 a)

/-- The lanes whose addresses fail the checks of R239: the first condition that fails in any lane. -/
def State.badAddrs (s : State) (u : Bun) (spc : Space) (n : Nat) (slots : List Nat) (addrs : Lane → List Int) :
    List (Nat × TrapInfo) :=
  match s.team? u.team with
  | none => []
  | some t =>
    let failing (bad : Lane → Int → Bool) (mk : Int → TrapInfo) : List (Nat × TrapInfo) :=
      slots.filterMap fun j =>
        let l := s.lane u j
        match (addrs l).find? (bad l) with
        | some a => some (j, mk a)
        | none => none
    let out := failing (fun l a => !s.granted t l.tid spc a n) (rangeTrap spc u.pc)
    if out.isEmpty then failing (fun _ a => a % (n : Int) != 0) fun a => trapAt 0x11 u.pc 0 (BitVec.ofInt 64 a) else out

/-- Whether a check failed in a live lane, or in a helper lane. DEDUCED (notes/assumptions/38). -/
def State.checked (s : State) (bad : List (Nat × TrapInfo)) (k : Unit → Effect) : Effect :=
  if bad.isEmpty then k () else .trap s bad

/-- A held access of a lane of a bundle. -/
def State.heldFor (s : State) (u : Bun) (slot : Nat) (act : PortAct) : Held :=
  { team := u.team, group := u.group, slot := slot, tid := (s.lane u slot).tid, pc := u.pc, act := act }

/-- A result that waits for accesses of the port. -/
def portResult (num : Nat) (pc : VAddr) (n : Nat) : Result :=
  { num := num, pc := pc, need := .port n, writes := [], flags := 0, trap := none, back := false }

-- ld, st

/-- `ld` from the lane's own stack (R224, R241). -/
def State.loadStack (s : State) (u : Bun) (x : Loc) (num slot : Nat) : State :=
  match s.team? u.team with
  | none => s
  | some t =>
    let l := s.lane u slot
    let a := (l.locAddr x false).toNat
    let (s, bytes, bad) := s.stackRead t l.tid a (widthBytes x.width)
    let r : Result :=
      { num := num, pc := u.pc, need := .formed, writes := unitRegs x.d.toNat bytes (x.aux == 1), flags := 0,
        trap := bad.map fun sel => memError sel a u.pc, back := false }
    s.mapLanes u [slot] fun _ l => l.addResult r

/-- `ld` from team shared memory or the scratchpad, through the port (R228, R240). -/
def State.loadLocal (s : State) (u : Bun) (x : Loc) (num slot : Nat) : State :=
  let l := s.lane u slot
  let p : Place := { space := x.space, addr := (l.locAddr x false).toNat, bytes := widthBytes x.width }
  let s := s.mapLanes u [slot] fun _ l => l.addResult (portResult num u.pc 1)
  s.issueLocal (s.heldFor u slot (.load p x.d.toNat (x.aux == 1) num))

/-- `ld` (R241). -/
def execLd (h : Hdr) (x : Loc) (s : State) : Answer :=
  s.runWord (.ld h x) h fun u s =>
    let addr (l : Lane) : List Int := [l.locAddr x false]
    s.checked (s.badAddrs u x.space (widthBytes x.width) u.act addr) fun _ =>
      let (num, s) := s.fresh
      let s := s.noteRead u x.space (u.act.map fun j => ((s.lane u j).locAddr x false).toNat)
      .done (u.act.foldl (fun s j => if x.space = .sp then s.loadStack u x num j else s.loadLocal u x num j) s) []

/-- The bytes a lane stores from `n` bytes' worth of registers (R241). -/
def Lane.storeBytes (l : Lane) (reg : Nat) (w : Width) : List Byte :=
  (bytesOfWords (l.run reg (widthRegs w))).take (widthBytes w)

/-- One lane's `st`. -/
def State.storeOne (s : State) (u : Bun) (x : Loc) (slot : Nat) : State :=
  match s.team? u.team with
  | none => s
  | some t =>
    let l := s.lane u slot
    let a := (l.locAddr x false).toNat
    let data := l.storeBytes x.b.toNat x.width
    if x.space = .sp then (s.stackWrite t l.tid a data).credit u.team l.tid
    else s.issueLocal (s.heldFor u slot (.store { space := x.space, addr := a, bytes := data.length } data))

/-- `st` (R241). -/
def execSt (h : Hdr) (x : Loc) (s : State) : Answer :=
  s.runWord (.st h x) h fun u s =>
    let addr (l : Lane) : List Int := [l.locAddr x false]
    s.checked (s.badAddrs u x.space (widthBytes x.width) u.act addr) fun _ =>
      .done (u.plive.foldl (fun s j => s.storeOne u x j) s) []

-- gath, scat

/-- One lane's gather (R242): the elements in order. -/
def State.gatherOne (s : State) (u : Bun) (x : Loc) (num slot : Nat) : State :=
  let l := s.lane u slot
  let as := l.elemAddrs x
  let s := s.mapLanes u [slot] fun _ l => l.addResult (portResult num u.pc as.length)
  as.zipIdx.foldl (fun s (a, i) =>
    let p : Place := { space := x.space, addr := a.toNat, bytes := widthBytes x.width }
    s.issueLocal (s.heldFor u slot (.load p (x.d.toNat + i * widthRegs x.width) false num))) s

/-- Lanes of P that a split gather's convergence register does not expect (R243). -/
def State.splitTraps (s : State) (u : Bun) (x : Loc) : List (Nat × TrapInfo) :=
  match s.team? u.team with
  | none => []
  | some t =>
    let n := x.off.toNat % 16
    let c := t.cv n
    (u.plive.filter fun j =>
      let tid := (s.lane u j).tid
      !c.decl.getLsbD tid || c.sgn.getLsbD tid).map fun j => (j, cvTrap n c u.pc)

/-- `gath` (R242, R243). A lane that the convergence register does not expect is found before an address that is refused.
DESIGN CHOICE (notes/assumptions/62). -/
def execGath (h : Hdr) (x : Loc) (s : State) : Answer :=
  s.runWord (.gath h x) h fun u s =>
    let cvs := if x.split then s.splitTraps u x else []
    s.checked cvs fun _ =>
    s.checked (s.badAddrs u x.space (widthBytes x.width) u.act fun l => l.elemAddrs x) fun _ =>
      let (num, s) := s.fresh
      let s := s.noteRead u x.space (u.act.flatMap fun j => ((s.lane u j).elemAddrs x).map Int.toNat)
      let s := u.act.foldl (fun s j => s.gatherOne u x num j) s
      .done (if x.split then s.updGroup u.team u.group fun g => g.updEntry u.slot fun e => { e with split := true } else s) []

/-- The elements a lane scatters: places and bytes (R242). -/
def Lane.scatterElems (l : Lane) (x : Loc) : List (Place × List Byte) :=
  (l.elemAddrs x).zipIdx.map fun (a, i) =>
    ({ space := x.space, addr := a.toNat, bytes := widthBytes x.width },
     l.storeBytes (x.d.toNat + i * widthRegs x.width) x.width)

/-- `scat` (R242): whole, at one instant, or element by element. -/
def execScat (h : Hdr) (x : Loc) (s : State) : Answer :=
  s.runWord (.scat h x) h fun u s =>
    s.checked (s.badAddrs u x.space (widthBytes x.width) u.act fun l => l.elemAddrs x) fun _ =>
      if x.split then
        .done (u.plive.foldl (fun s j => ((s.lane u j).scatterElems x).foldl (fun s (p, data) =>
          s.issueLocal (s.heldFor u j (.store p data))) s) s) []
      else match u.plive with
        | [] => .done s []
        | j :: _ =>
          let es := u.plive.flatMap fun k => (s.lane u k).scatterElems x
          let tids := u.plive.map fun k => (s.lane u k).tid
          .done (s.issueLocal (s.heldFor u j (.scatter es tids))) []

-- atomics

/-- A lane's operand of an atomic: one register or a pair. -/
def Lane.wordOrPair (l : Lane) (w : Width) (r : Nat) : W64 := if w = .b64 then l.pair r else (l.reg r).setWidth 64

/-- One lane's atomic; `ret` is the result's number when it returns the old value (R244, R245). -/
def State.atomOne (s : State) (u : Bun) (x : Loc) (ret : Option Nat) (slot : Nat) : State :=
  let l := s.lane u slot
  let p : Place := { space := x.space, addr := (l.locAddr x false).toNat, bytes := widthBytes x.width }
  let act : PortAct := .atom p x.aux (l.wordOrPair x.width x.b.toNat) (l.wordOrPair x.width x.d.toNat)
    (ret.map fun num => (num, x.d.toNat))
  let s := match ret with
    | some num => s.mapLanes u [slot] fun _ l => l.addResult (portResult num u.pc 1)
    | none => s
  s.issueLocal (s.heldFor u slot act)

/-- `atom` (R244). -/
def execAtom (h : Hdr) (x : Loc) (s : State) : Answer :=
  s.runWord (.atom h x) h fun u s =>
    let addr (l : Lane) : List Int := [l.locAddr x false]
    s.checked (s.badAddrs u x.space (widthBytes x.width) u.act addr) fun _ =>
      let (num, s) := s.fresh
      let s := s.noteRead u x.space (u.plive.map fun j => ((s.lane u j).locAddr x false).toNat)
      .done (u.plive.foldl (fun s j => s.atomOne u x (some num) j) s) []

/-- `atomc` (R244). -/
def execAtomc (h : Hdr) (x : Loc) (s : State) : Answer :=
  s.runWord (.atomc h x) h fun u s =>
    let addr (l : Lane) : List Int := [l.locAddr x false]
    s.checked (s.badAddrs u x.space (widthBytes x.width) u.act addr) fun _ =>
      let s := s.noteRead u x.space (u.plive.map fun j => ((s.lane u j).locAddr x false).toNat)
      .done (u.plive.foldl (fun s j => s.atomOne u x none j) s) []

/-- `pchk` (R246). -/
def execPchk (h : Hdr) (x : Loc) (s : State) : Answer :=
  s.runWord (.pchk h x) h fun u s =>
    let addr (l : Lane) : List Int := [l.locAddr x false]
    s.checked (s.badAddrs u x.space (widthBytes x.width) u.act addr) fun _ =>
      let s := s.noteRead u x.space (u.act.map fun j => ((s.lane u j).locAddr x false).toNat)
      let here (l : Lane) : Bool := s.linesPresent u.team [(x.space, (l.locAddr x false).toNat / 128)]
      .done (s.mapLanes u u.act fun _ l => l.setPred x.d.toNat (here l)) []

-- monitors

/-- The virtual address a main-memory monitor watches (R247). -/
def Lane.monVa (l : Lane) (x : Loc) : Int := ((l.pair x.a.toNat).toNat : Int) + x.off.toInt

/-- Lanes whose watched main-memory address is refused (R239): out of reach of a readable span, or misaligned. -/
def State.monTraps (s : State) (u : Bun) (x : Loc) (spans : List SpanReg) : List (Nat × TrapInfo) :=
  let failing (bad : Int → Bool) : List (Nat × TrapInfo) := u.act.filterMap fun j =>
    let a := (s.lane u j).monVa x
    if bad a then some (j, trapAt 0x11 u.pc 0 (BitVec.ofInt 64 a)) else none
  let odd := failing fun a => a % 8 != 0
  if !odd.isEmpty then odd
  else failing fun a => decide (a < 0) || (spanXlate spans a.toNat permRead).isNone

/-- Arms a lane's monitor, replacing any earlier watch (R247). -/
def State.arm (s : State) (u : Bun) (slot : Nat) (unit : WatchUnit) : State :=
  let tid := (s.lane u slot).tid
  (s.unwatch u.team tid).mapLanes u [slot] fun _ l => { l with monitor := some { unit := unit, fired := false } }

/-- Enters a watch in a stack's monitor table of 4,096 lines; the oldest watch gives way (R248). Lanes that watch one line have
an entry each. DESIGN CHOICE (notes/assumptions/67). -/
def State.watch (s : State) (k line team tid : Nat) : State :=
  let old := (s.stack k).watches
  let (keep, lost) := if 4096 ≤ old.length then (old.drop 1, old.take 1) else (old, [])
  let s := s.updStack k fun x => { x with watches := keep ++ [{ line := line, team := team, tid := tid }] }
  lost.foldl (fun s w => s.updTid w.team w.tid fun l => { l with monitor := none }) s

/-- Arms a monitor on the line of a main-memory address (R247). -/
def State.armMain (s : State) (u : Bun) (x : Loc) (spans : List SpanReg) (slot : Nat) : State :=
  let l := s.lane u slot
  match spanXlate spans (l.monVa x).toNat permRead with
  | none => s
  | some ia =>
    match stackOf ia with
    | none => s.arm u slot (.main 8 (ia / 128))
    | some k => (s.arm u slot (.main k (ia / 128))).watch k (ia / 128) u.team l.tid

/-- `mon` (R247). -/
def execMon (h : Hdr) (x : Loc) (s : State) : Answer :=
  s.runWord (.mon h x) h fun u s =>
    if x.space = .mm then
      let (s, d) := s.desc u.ctx
      let spans := descSpans d
      s.checked (s.monTraps u x spans) fun _ => .done (u.plive.foldl (fun s j => s.armMain u x spans j) s) []
    else
      let addr (l : Lane) : List Int := [l.locAddr x false]
      s.checked (s.badAddrs u x.space 8 u.act addr) fun _ =>
        .done (u.plive.foldl (fun s j => s.arm u j (.word x.space ((s.lane u j).locAddr x false).toNat)) s) []

/-- `mwait` (R248). -/
def execMwait (h : Hdr) (x : Loc) (s : State) : Answer :=
  s.runWord (.mwait h x) h fun u s => .finish s (.mwait u.plive [])

/-- `mwait` with a timeout (R248): each lane's deadline is fixed at issue. -/
def execMwaitTimeout (h : Hdr) (x : Loc) (s : State) : Answer :=
  s.runWord (.mwaitTimeout h x) h fun u s =>
    let now := s.timeAt u.core
    .finish s (.mwait u.plive (u.plive.map fun j => (j, now + ((s.lane u j).reg x.a.toNat).setWidth 64)))

-- events

/-- The entry a subject names. -/
def State.entryOf (s : State) (b : BundleId) : Option Entry := (s.group? b.team b.group).bind fun g => g.entryAt b.slot

/-- Changes the entry a subject names. -/
def State.updEntryOf (s : State) (b : BundleId) (f : Entry → Entry) : State :=
  s.updGroup b.team b.group fun g => g.updEntry b.slot f

/-- The time base where a team runs. -/
def State.teamTime (s : State) (team : Nat) : W64 := match s.team? team with
  | some t => s.timeAt t.core
  | none => s.time.now

/-- LINE_PRESENT (R227, R228): the accesses held at a line that has become present are performed, and what waits for
lines goes on. -/
def execLinePresent (s : State) : Answer :=
  match s.subject with
  | .line (.shared team _) => .next ((s.drain team .sh).settle)
  | .line (.scratch gang _) =>
    match s.teams.find? fun t => t.gang == gang with
    | some t => .next ((s.drain t.id .sc).settle)
    | none => .next s
  | _ => .next s

/-- A lease at its expiry (R274). -/
def LineState.expire (l : LineState) (now : W64) : LineState :=
  { l with lease := l.lease.map fun x => if x.expiry ≤ now then { x with expired := true } else x }

/-- LEASE_EXPIRY (R274): the line becomes absent. -/
def execLeaseExpiry (s : State) : Answer :=
  match s.subject with
  | .line (.shared team n) =>
    let now := s.teamTime team
    .next (s.updLocal team .sh fun m => m.setLine ((m.line n).expire now))
  | .line (.scratch gang n) =>
    .next (s.updGang gang fun g => { g with local_ := g.local_.setLine ((g.local_.line n).expire (s.dieTime (g.cluster / 4))) })
  | _ => .next s

/-- The number of the result at a place among the results of an entry's run. -/
def State.resultNum (s : State) (b : BundleId) (index : Nat) : Option Nat :=
  match s.group? b.team b.group, s.entryOf b with
  | some g, some e =>
    let nums := ((slotsOf e.mask).flatMap fun i => (g.lane i).results.map (·.num)).eraseDups
    (sortBy (fun a b => decide (a ≤ b)) nums)[index]?
  | _, _ => none

/-- A formed result has returned. -/
def Result.return_ (r : Result) : Result := if r.need = .formed then { r with back := true } else r

/-- Goes on with a parked entry all of whose results have returned (R71); a saved team's goes on once it is restored (R75). -/
def State.commitEntry (s : State) (b : BundleId) : State :=
  match s.group? b.team b.group, s.entryOf b with
  | some g, some e =>
    if s.isAway b.team then s
    else if e.wake = some .results ∧ (slotsOf e.mask).all (fun i => (g.lane i).allBack) then s.resumeRun b.team b.group b.slot else s
  | _, _ => s

/-- VARIABLE_LATENCY_RESULT_RETURN (R71): a result whose values are formed returns to its lanes; an entry parked on its
run's results goes on when it was the last. -/
def execVariableLatencyResultReturn (s : State) : Answer :=
  match s.subject with
  | .result b index =>
    match s.resultNum b index, s.entryOf b with
    | some num, some e =>
      let s := s.updGroup b.team b.group fun g => g.updSlots (slotsOf e.mask) fun _ l => l.updResult num Result.return_
      .next (s.commitEntry b)
    | _, _ => .next s
  | _ => .next s

/-- RUN_END_COMMIT (R71, R72): an entry parked on its run's results commits them once they have returned. -/
def execRunEndCommit (s : State) : Answer :=
  match s.subject with
  | .bundle b => .next (s.commitEntry b)
  | _ => .next s

/-- SPIN_DEMOTION_EXPIRY (R165). -/
def execSpinDemotionExpiry (s : State) : Answer :=
  match s.subject with
  | .bundle b => .next (s.updEntryOf b fun e => match e.spin.since with
    | some c => if c + 65536 ≤ s.time.clock then { e with spin := noSpin } else e
    | none => e)
  | _ => .next s

/-- YIELD_WINDOW_EXPIRY (R166): the subject names team and group. -/
def execYieldWindowExpiry (s : State) : Answer :=
  match s.subject with
  | .unit2 team g => .next (s.updGroup team g fun x => if x.yieldEnd ≤ s.time.clock then { x with yieldEnd := 0 } else x)
  | _ => .next s

/-- SLEEP_WAKE (R132). -/
def execSleepWake (s : State) : Answer :=
  match s.subject with
  | .bundle b =>
    let now := s.teamTime b.team
    .next ((s.updEntryOf b fun e => match e.wake with
      | some (.sleep d) => if d ≤ now then { e with wake := none } else e
      | _ => e).settle)
  | _ => .next s

/-- Makes an entry parked at an `mwait` ready; its lanes' monitors are disarmed (R248). -/
def State.wakeMwait (s : State) (b : BundleId) (e : Entry) : State :=
  ((s.disarm b.team b.group (slotsOf e.mask)).updEntryOf b fun e => { e with wake := none }).settle

/-- MWAIT_WAKE (R248): a monitor has fired, or a lane has none. -/
def execMwaitWake (s : State) : Answer :=
  match s.subject with
  | .bundle b =>
    match s.group? b.team b.group, s.entryOf b with
    | some g, some e => match e.wake with
      | some (.mwait _) =>
        if s.mwaitNow b.team b.group ((slotsOf e.mask).filter fun i => g.isLive i) then .next (s.wakeMwait b e) else .next s
      | _ => .next s
    | _, _ => .next s
  | _ => .next s

/-- MWAIT_DEADLINE (R248). -/
def execMwaitDeadline (s : State) : Answer :=
  match s.subject with
  | .bundle b =>
    match s.entryOf b with
    | some e => match e.wake with
      | some (.mwait (some d)) => if d ≤ s.teamTime b.team then .next (s.wakeMwait b e) else .next s
      | _ => .next s
    | none => .next s
  | _ => .next s

/-- REGROUP_TIMEOUT (R182): the subject names a core and the place of an entry in its regrouping table. -/
def execRegroupTimeout (s : State) : Answer :=
  match s.subject with
  | .unit2 core i =>
    match (s.regroup.filter fun r => r.core == core)[i]? with
    | some r => if r.since + 2048 ≤ s.time.clock then .next ((s.releaseRegroup r).settle) else .next s
    | none => .next s
  | _ => .next s

end Sys2Proof.Machine
end

