-- ==== Sys2Proof/Machine/Engine.lean ====
section
/-! DEFINITION. What every engine operation shares: batches and their completion (R293-R296), issue and order (R278,
R301), the probe pass with its grain checks (R251, R254, R275-R277, R391), the data pass (R251-R254, R360) and read leases
(R272, R274). -/
namespace Sys2Proof.Machine

-- batches

/-- Records a fault on a batch (R296): that of the operation issued first stands. -/
def Batch.fail (b : Batch) (f : BatchFault) : Batch :=
  match b.fault with
  | none => { b with fault := some f }
  | some g => { b with fault := some (if f.op < g.op then f else g), multi := true }

/-- An operation of a batch is complete, with its completion time and its fault. -/
def Batch.opDone (b : Batch) (num : Nat) (time : W64) (fault : Option BatchFault) : Batch :=
  if !b.ops.contains num then b else
  let b := { b with ops := b.ops.filter (· != num), time := if b.time < time then time else b.time }
  match fault with
  | some f => b.fail f
  | none => b

/-- Changes every batch of a queue. -/
def CopyQueue.mapBatches (q : CopyQueue) (f : Batch → Batch) : CopyQueue :=
  { q with open_ := f q.open_, closed := q.closed.map f }

/-- Completes closed batches in closing order (R294). A complete batch with a fault has no stamp to write (R299); one with
nothing left to deliver or write is gone. The stamps that are not written come with it. -/
def CopyQueue.advance (q : CopyQueue) : List Batch → W64 → Bool → CopyQueue × List Stamp
  | [], time, _ => ({ q with closed := [], time := time }, [])
  | b :: bs, time, stuck =>
    if stuck || !b.ops.isEmpty then
      let (q, lost) := q.advance bs time true
      ({ q with closed := b :: q.closed }, lost)
    else
      let fresh := !b.complete
      let t := if b.time < time then time else b.time
      let lost := match b.fault, b.stamp with
        | some _, some x => [x]
        | _, _ => []
      let b := { b with complete := true, time := if fresh then t else b.time, stamp := if b.fault.isSome then none else b.stamp }
      let time := if fresh then t else time
      let (q, rest) := q.advance bs time false
      ({ q with closed := if b.fault.isNone && b.stamp.isNone then q.closed else b :: q.closed }, lost ++ rest)

/-- The space of a local stamp. -/
def Stamp.space (x : Stamp) : Space := if x.kind = 2 then .sc else .sh

/-- Brings a queue's batches up to date; the lines of local stamps that are never written retire (R227, R299). -/
def State.advanceQueue (s : State) (team n : Nat) : State :=
  match (s.team? team).bind fun t => t.queues[n]? with
  | none => s
  | some q =>
    let (q', lost) := q.advance q.closed q.time false
    let s := s.updTeam team fun t => { t with queues := t.queues.set n q' }
    lost.foldl (fun s x => if x.kind = 3 then s else s.land team x.space 0 [] (linesOf x.addr 8)) s

/-- Changes a copy queue of a team. -/
def State.updQueue (s : State) (team n : Nat) (f : CopyQueue → CopyQueue) : State :=
  s.updTeam team fun t => { t with queues := modifyAt t.queues n f }

/-- Operations of a queue that are not complete (R295). -/
def CopyQueue.load (q : CopyQueue) : Nat := q.open_.ops.length + (q.closed.map fun b => b.ops.length).foldl (· + ·) 0

/-- Closed batches of a queue that are not complete (R293). -/
def CopyQueue.outstanding (q : CopyQueue) : Nat := (q.closed.filter fun b => !b.complete).length

-- issue

/-- An `mcast` whose participants' slices have all come is complete for its team (R294). -/
def EngOp.complete (o : EngOp) : Bool :=
  match o.phase, o.kind with
  | .done, _ => true
  | _, .mcast _ _ _ n _ _ => n ≤ o.got.length
  | _, _ => false

/-- Whether an operation is still to be completed. -/
def State.opPending (s : State) (num : Nat) : Bool := match s.op? num with
  | some o => !o.complete
  | none => false

/-- EVP of a copy: raised by one for a predicted-last group (R164, R235). -/
def State.copyEvp (s : State) (u : Bun) (evp : BitVec 2) : BitVec 2 :=
  match s.team? u.team with
  | some t => if t.last = some u.group ∧ evp ≠ 3 then evp + 1 else evp
  | none => evp

/-- An operation of a lane of a bundle. -/
def State.laneOp (s : State) (u : Bun) (slot num : Nat) (kind : OpKind) (owner : OpOwner) (spc : Space) (evp : BitVec 2)
    (lu : Bool) (lease : Option Nat) : EngOp :=
  let l := s.lane u slot
  { num := num, kind := kind, owner := owner, team := u.team, group := u.group, tid := l.tid, pc := u.pc, core := u.core,
    ctx := u.ctx, acq := l.acq, sp := spc, evp := evp, lu := lu, lease := lease, phase := .issued, wait := none, after := [],
    left := 0, time := 0 }

/-- The operations that an operation issued to queue `n` now must wait for (R301). -/
def Team.fencedBy (t : Team) (n : Nat) : List Nat := t.fences.flatMap fun f => if f.1.getLsbD n then f.2 else []

/-- Issues an operation; one of a queue joins its open batch (R294). -/
def State.addOp (s : State) (o : EngOp) : State :=
  match o.owner with
  | .queue n =>
    let after := match s.team? o.team with
      | some t => (t.fencedBy n).filter s.opPending
      | none => []
    let s := s.updQueue o.team n fun q =>
      { q with open_ := { q.open_ with ops := q.open_.ops ++ [o.num], count := q.open_.count + 1 } }
    { s with ops := s.ops ++ [{ o with after := after }] }
  | _ => { s with ops := s.ops ++ [o] }

/-- The local range an operation writes. -/
def OpKind.dstRange : OpKind → Option (Nat × Nat)
  | .copyIn dst _ len => some (dst, len)
  | .gatherIn dst _ _ count esz => some (dst, count * esz)
  | .mcast dst _ len .. => some (dst, len)
  | .decode dst _ outLen _ _ => some (dst, outLen)
  | .refetch line => some (line * 128, 128)
  | _ => none

/-- The local range an operation reads in its data pass. -/
def OpKind.srcRange : OpKind → Option (Nat × Nat)
  | .copyOut src _ len => some (src, len)
  | .scatterOut src _ _ count esz => some (src, count * esz)
  | _ => none

/-- The local address that offset 0 of an operation's pieces has. -/
def OpKind.localBase : OpKind → Nat
  | .copyIn dst .. | .gatherIn dst .. | .mcast dst .. => dst
  | .copyOut src .. | .scatterOut src .. => src
  | .refetch line => line * 128
  | _ => 0

/-- The lines whose pending counts an operation holds up (R227). -/
def EngOp.dstLines (o : EngOp) : List Nat := match o.kind.dstRange with
  | some (a, n) => linesOf a n
  | none => []

/-- Whether an operation writes main memory in its data pass. -/
def OpKind.isOut : OpKind → Bool
  | .copyOut .. | .scatterOut .. => true
  | _ => false

-- the end of an operation

/-- A fault of an operation as its batch records it. -/
def EngOp.faultOf (o : EngOp) (code : Byte) (info0 addr : W64) : BatchFault :=
  { code := code, pc := o.pc, info0 := info0, addr := addr, op := o.num }

/-- A far atomic's result as its lane receives it. -/
def Result.farBack (r : Result) (ws : List (Nat × W32)) (trap : Option TrapInfo) : Result :=
  { r with writes := putWrites r.writes ws, trap := trap, need := .formed }

/-- A host walk ends (R411): the channel is no longer busy and shows what stopped it. -/
def State.endWalk (s : State) (ch : Nat) (fault : Option BatchFault) : State :=
  { s with chans := modifyAt s.chans ch fun c =>
      { c with busy := false,
               code := (match fault with | some f => f.code | none => 0),
               frec := (match fault with | some f => f.addr | none => c.frec) } }

/-- An operation is complete: its batch, its lane's CT and its queue learn of it (R267, R294, R296). -/
def State.completeOp (s : State) (o : EngOp) (time : W64) (fault : Option BatchFault) : State :=
  match o.owner with
  | .host ch => s.endWalk ch fault
  | .lane => s.updTid o.team o.tid fun l => { l with ct := if l.ct < time then time else l.ct }
  | .queue n =>
    let s := if o.writesMain then s.updTid o.team o.tid fun l => { l with ct := if l.ct < time then time else l.ct } else s
    let s := s.updQueue o.team n fun q => q.mapBatches fun b => b.opDone o.num time fault
    s.advanceQueue o.team n

/-- An operation is over and forgotten. -/
def State.endOp (s : State) (o : EngOp) (time : W64) (fault : Option BatchFault) : State :=
  ({ s with ops := s.ops.filter fun x => x.num != o.num }).completeOp o time fault

/-- An operation that met no other fault ends with what its data pass recorded (R360). -/
def EngOp.badFault (o : EngOp) : Option BatchFault := o.bad.map fun (c, i, a) => o.faultOf c i a

/-- The loads, gathers and atomics held at lines whose refetch has failed get its fault (R274, R440). -/
def State.failLoads (s : State) (team : Nat) (spc : Space) (line : Nat) (code : Byte) (addr : W64) : State :=
  match s.team? team with
  | none => s
  | some t =>
    let waits (h : Held) : Bool := (match h.act with | .load .. | .atom .. => true | _ => false) && h.act.lines.contains (spc, line)
    let hit := (s.localOf t spc).held.filter waits
    let s := s.updLocal team spc fun m => { m with held := m.held.filter fun h => !waits h }
    hit.foldl (fun s h =>
      let x : TrapInfo := { code := code, info0 := 0, info1 := addr, opc := h.pc, rpt := false, multi := false }
      match h.act with
      | .load _ reg _ res | .atom _ _ _ _ (some (res, reg)) =>
        s.updLane h.team h.group h.slot fun l => l.updResult res fun r => r.arrive [(reg, 0)] (some x)
      | .atom .. => s.lateError h.team h.tid { x with rpt := true }
      | _ => s) s

/-- An operation fails in its probe pass (R251): it moves nothing and its pending counts retire. Stores held on a line whose
refetch fails cancel its lease and are performed (R274). DESIGN CHOICE (notes/assumptions/62). -/
def State.failOp (s : State) (o : EngOp) (code : Byte) (info0 addr : W64) : State :=
  match o.kind with
  | .refetch line =>
    let s := { s with ops := s.ops.filter fun x => x.num != o.num }
    let s := s.updLocal o.team o.sp fun m => let l := m.line line; m.setLine { l with pending := l.pending - 1 }
    let s := s.failLoads o.team o.sp line code addr
    let held := match s.team? o.team with
      | some t => (s.localOf t o.sp).held.any fun h => h.act.lines.contains (o.sp, line)
      | none => false
    if held then (s.updLocal o.team o.sp fun m => m.setLine { m.line line with lease := none }).drain o.team o.sp else s
  | _ => (s.land o.team o.sp 0 [] o.dstLines).endOp o o.time (some (o.faultOf code info0 addr))

-- order

/-- Whether two places of main memory overlap. -/
def Spot.overlaps (a : Spot) (n : Nat) (b : Spot) (m : Nat) : Bool :=
  match a, b with
  | .dev k x, .dev j y => k == j && decide (x < y + m) && decide (y < x + n)
  | .host x, .host y => decide (x < y + m) && decide (y < x + n)
  | .peer d x, .peer e y => d == e && decide (x < y + m) && decide (y < x + n)
  | _, _ => false

/-- The main-memory pieces an operation has still to move; none when they are not known. -/
def EngOp.todo (o : EngOp) : Option (List Piece) :=
  match o.phase with
  | .probed ps _ => some ps
  | .slice .. => some []
  | .done => some []
  | _ => none

/-- Whether two local ranges overlap. -/
def rangesMeet (a b : Option (Nat × Nat)) : Bool := match a, b with
  | some (x, n), some (y, m) => decide (x < y + m) && decide (y < x + n)
  | _, _ => false

/-- The local range of an index list that an operation has still to read (R254). -/
def EngOp.listRange (o : EngOp) : Option (Nat × Nat) :=
  if o.phase != .issued then none else
  match o.kind with
  | .gatherIn _ _ list count _ | .scatterOut _ _ list count _ => some (list, 4 * count)
  | _ => none

/-- Whether an operation writes main memory, or may. -/
def OpKind.mayWriteMain : OpKind → Bool
  | .copyOut .. | .scatterOut .. | .far .. | .chain .. => true
  | _ => false

/-- Whether an operation and an earlier one share a byte of local memory that one of the two writes (R278). -/
def EngOp.sharesLocal (a b : EngOp) : Bool :=
  let meets (x : Option (Nat × Nat)) (o : EngOp) : Bool :=
    rangesMeet x o.kind.dstRange || rangesMeet x o.kind.srcRange || rangesMeet x o.listRange
  a.sp == b.sp && (meets a.kind.dstRange b || meets b.kind.dstRange a)

/-- Whether a later operation of a queue shares a byte that one of the two writes with an earlier one (R278). Of two that may
write main memory, one that has not been probed, or whose writes are held, is taken to share one, and so is a chain. DESIGN
CHOICE (notes/assumptions/67). -/
def EngOp.conflicts (a b : EngOp) : Bool :=
  let chained (o : EngOp) : Bool := match o.kind with | .chain .. => true | _ => false
  a.sharesLocal b || chained a || chained b || ((a.kind.mayWriteMain || b.kind.mayWriteMain) &&
    match a.todo, b.todo with
    | some ps, some qs => ps.any fun p => qs.any fun q => p.loc.overlaps p.len q.loc q.len
    | _, _ => true)

/-- Whether the order of its queue lets an operation move data: no earlier operation of the queue that is not complete
shares a byte with it (R278). DEDUCED (notes/assumptions/40). -/
def State.inOrder (s : State) (o : EngOp) : Bool :=
  match o.owner with
  | .queue n => !(s.ops.any fun e => decide (e.num < o.num) && e.team == o.team && e.owner == .queue n && !e.complete &&
      e.conflicts o)
  | _ => true

/-- Whether an operation may begin (R301, R391). -/
def State.mayStart (s : State) (o : EngOp) : Bool := o.wait.isNone && !(o.after.any s.opPending)

/-- Whether an operation still holds up the pending count of a local line (R227): a line retires with its last piece, one of
an `mcast` with its slice. -/
def EngOp.pendsAt (o : EngOp) (line : Nat) : Bool :=
  o.dstLines.contains line && !o.complete && (match o.kind, o.phase with
    | .mcast dst _ len n _ _, _ => !o.got.contains ((128 * line - dst) / (len / n))
    | .decode .., _ => true
    | k, .probed kept _ => kept.any fun p => (k.localBase + p.off) / 128 == line
    | _, _ => true)

/-- DIR and LEN of a transfer record (R302). -/
def recDir (w : List W64) : Nat := fieldN (w.getD 3 0).toNat 33 32
def recLen (w : List W64) : Nat := fieldN (w.getD 3 0).toNat 31 0

/-- The local lines that an operation has still to read (R252, R254, R303). -/
def EngOp.readLines (o : EngOp) : List Nat :=
  let lines (r : Option (Nat × Nat)) : List Nat := match r with | some (a, n) => linesOf a n | none => []
  match o.phase with
  | .issued => lines o.listRange ++ lines o.kind.srcRange
  | .probed todo _ => if o.kind.isOut then (todo.map fun p => (o.kind.localBase + p.off) / 128).eraseDups else []
  | .record1 w => if recDir w = 1 then linesOf (w.getD 1 0).toNat (recLen w) else []
  | _ => []

/-- Whether two operations name lines of one local memory. -/
def State.sameLocal (s : State) (a b : EngOp) : Bool :=
  let gang (o : EngOp) : Option Nat := (s.team? o.team).map (·.gang)
  a.sp == b.sp && (a.team == b.team || (a.sp == .sc && gang a == gang b))

/-- Whether an operation waits for an earlier one of its queue, whatever its own probe pass finds (R278). -/
def EngOp.queueWait (a b : EngOp) : Bool :=
  let settled := match a.kind with | .far .. | .chain .. => true | _ => a.todo.isSome || b.todo.isNone
  decide (b.num < a.num) && b.team == a.team && b.owner == a.owner && a.owner != .lane &&
    (b.sharesLocal a || (settled && b.conflicts a))

/-- Whether an `mcast` waits for the slice of another (R255). -/
def EngOp.sliceWait (a b : EngOp) : Bool :=
  match a.kind, b.kind with
  | .mcast _ _ _ _ j _, .mcast _ _ _ _ k slice => a.gang == b.gang && a.owner == b.owner && j == k && !a.got.contains slice
  | _, _ => false

/-- Whether an operation cannot go on before another has (R252, R255, R278, R301). Waits for a line that a later operation
fills count for operations issued after `num`. -/
def State.waitsFor (s : State) (num : Nat) (a b : EngOp) : Bool :=
  !b.complete && a.num != b.num && (a.after.contains b.num || a.queueWait b || a.sliceWait b ||
    (s.sameLocal a b && (decide (b.num < a.num) || decide (num < a.num)) && a.readLines.any b.pendsAt))

/-- Whether one of some operations waits for another, whatever stands between them. -/
def State.waitsThrough (s : State) (o : EngOp) : Nat → List EngOp → List Nat → Bool
  | 0, _, _ => false
  | f + 1, front, seen =>
    (front.any fun a => s.waitsFor o.num a o) ||
      (let next := s.ops.filter fun b => !seen.contains b.num && front.any fun a => s.waitsFor o.num a b
       !next.isEmpty && s.waitsThrough o f next (seen ++ next.map (·.num)))

/-- The writers of a local line that come later than an operation and wait for it (R278, R301): it reads the line before
them, since an operation that has been accepted completes (R295). DESIGN CHOICE (notes/assumptions/67). -/
def State.laterWriters (s : State) (o : EngOp) (line : Nat) : Nat :=
  (s.ops.filter fun e => decide (o.num < e.num) && s.sameLocal e o && e.pendsAt line &&
    s.waitsThrough o (s.ops.length + 1) [e] [o.num, e.num]).length

/-- Whether an operation may read a source line or a line of its index list (R252, R254): it is present, but for later
writers that wait for this operation. -/
def State.sourceReady (s : State) (o : EngOp) (line : Nat) : Bool :=
  match s.team? o.team with
  | none => false
  | some t =>
    let l := (s.localOf t o.sp).line line
    !l.expired (s.timeAt t.core) && (l.pending == 0 || decide (l.pending ≤ s.laterWriters o line))

-- the probe pass

/-- What a probe pass gives. -/
inductive ProbeRes where
  | ok (ps : List Piece)
  | fault (code : Byte) (info0 addr : W64)
  | suspend (w : PageWait)
  /-- the index list is not present yet (R252, R254) -/
  | notYet
  deriving DecidableEq, Repr

/-- Cuts a range into pieces that lie in one line of main memory and one line of local memory. -/
def cutParts : Nat → Nat → Nat → Nat → List (Nat × Nat × Nat)
  | 0, _, _, _ => []
  | f + 1, off, va, n =>
    if n = 0 then [] else
    let k := min n (min (128 - va % 128) (128 - off % 128))
    (off, va, k) :: cutParts f (off + k) (va + k) (n - k)

/-- The parts of a range: where its local side starts within a line decides the cuts. -/
def rangeParts (loc va n : Nat) : List (Nat × Nat × Nat) := cutParts (n / 64 + 3) loc va n

/-- Translates the parts of a probe pass, each by span and page (R232, R388): the first that fails decides. `loc` is the
local address that offset 0 of the operation has. -/
def State.probeParts (s : State) (ctx : Nat) (p : Perm) (loc : Nat) : List (Nat × Nat × Nat) → List Piece → State × ProbeRes
  | [], ps => (s, .ok ps)
  | (a, va, n) :: rest, ps =>
    match s.xlate ctx va p with
    | (s, .ok l _, ia) => s.probeParts ctx p loc rest (ps ++ [{ off := a - loc, len := n, va := va, ia := ia, loc := l }])
    | (s, .fault, _) => (s, .fault 0x11 0 (BitVec.ofNat 64 va))
    | (s, .lost, _) => (s, .fault 0x18 0 (BitVec.ofNat 64 va))
    | (s, .nonres k page big, _) => (s, .suspend { stack := k, page := page, big := big })

/-- The parts an operation names, in the order of its elements (R253-R255, R305): local address, virtual address, length. -/
def State.opParts (s : State) (o : EngOp) : State × Except ProbeRes (List (Nat × Nat × Nat)) :=
  let listed (base list count esz loc : Nat) : State × Except ProbeRes (List (Nat × Nat × Nat)) :=
    let ls := linesOf list (4 * count)
    if !ls.all (s.sourceReady o) then (s.refetchLines o.team (ls.map fun n => (o.sp, n)), .error .notYet)
    else
      let (s, bytes, bad) := s.unitRead o.team o.sp list (4 * count)
      match bad with
      | some sel => (s, .error (.fault 0x18 (BitVec.ofNat 64 sel) (BitVec.ofNat 64 list)))
      | none => (s, .ok ((wordsOfBytes count bytes).zipIdx.flatMap fun (w, i) =>
          rangeParts (loc + esz * i) (base + esz * w.toNat) esz))
  match o.kind with
  | .copyIn dst src len => (s, .ok (rangeParts dst src.toNat len))
  | .copyOut src dst len => (s, .ok (rangeParts src dst.toNat len))
  | .gatherIn dst base list count esz => listed base.toNat list count esz dst
  | .scatterOut src base list count esz => listed base.toNat list count esz src
  | .mcast dst src len n _ slice => (s, .ok (rangeParts (dst + slice * (len / n)) (src.toNat + slice * (len / n)) (len / n)))
  | .decode _ src _ srcLen _ => (s, .ok (rangeParts 0 src.toNat srcLen))
  | .refetch line =>
    match s.team? o.team with
    | none => (s, .ok [])
    | some t => match ((s.localOf t o.sp).line line).lease with
      | none => (s, .ok [])
      | some x => (s, .ok (x.parts.flatMap fun (b, va, n) => rangeParts (line * 128 + b) va.toNat n))
  | _ => (s, .ok [])

/-- The bytes of each grain that some pieces cover, 16 at a time (R276). -/
def coverage (ps : List Piece) : List (Nat × Nat) :=
  ps.foldl (fun m p => match p.loc with
    | .dev k a =>
      let g := devKey k a / 512
      let first := a % 512 / 16
      let count := (a % 16 + p.len + 15) / 16
      setN m g ((lookupN m g).getD 0 ||| ((2 ^ count - 1) * 2 ^ first))
    | _ => m) []

/-- The grain check of one piece (R275, R276). -/
def State.grainFault (s : State) (core : Option Nat) (acq : W64) (cover : Option (List (Nat × Nat))) (p : Piece) :
    Option (Byte × W64) :=
  match p.loc with
  | .dev k a =>
    let t := (s.stack k).grain (a / 512)
    let foreign := t.writer.toNat < 0x200 && some t.writer.toNat != core && decide (acq < t.time)
    let whole := match cover with
      | some m => (lookupN m (devKey k a / 512)).getD 0 == 2 ^ 32 - 1
      | none => false
    if foreign && !whole then some (if cover.isSome then 0x13 else 0x12, BitVec.ofNat 64 (p.va / 512 * 512)) else none
  | _ => none

/-- The grain checks of a copy (R277): those of a leased read are left out (R272). -/
def State.grainChecks (s : State) (core : Option Nat) (acq : W64) (writes leased : Bool) (ps : List Piece) :
    Option (Byte × W64) :=
  if writes then
    let m := coverage ps
    ps.findSome? (s.grainFault core acq (some m))
  else if leased then none
  else ps.findSome? (s.grainFault core acq none)

/-- The core an operation's grain checks compare with: a host walk has none. -/
def EngOp.checkCore (o : EngOp) : Option Nat := if o.owner.isTeams then some o.core else none

/-- The probe pass of an operation. -/
def State.probe (s : State) (o : EngOp) : State × ProbeRes :=
  match s.opParts o with
  | (s, .error r) => (s, r)
  | (s, .ok parts) =>
    match s.probeParts o.ctx (if o.kind.isOut then permWrite else permRead) o.kind.localBase parts [] with
    | (s, .ok ps) =>
      let skip := match o.kind with | .refetch _ => true | _ => false
      match (if skip then none else s.grainChecks o.checkCore o.acq o.kind.isOut o.lease.isSome ps) with
      | some (code, addr) => (s, .fault code 0 addr)
      | none => (s, .ok ps)
    | r => r

/-- Whether translations of a range of intermediate addresses are still in use (R254, R374): by the pieces that operations
past their probe pass have to move, or by writes that are held for leases. DESIGN CHOICE (notes/assumptions/67). -/
def State.inUse (s : State) (lo hi : Nat) : Bool :=
  let inside (a : Nat) : Bool := decide (lo ≤ a) && decide (a < hi)
  (s.ops.any fun o => match o.phase with
    | .probed todo _ => todo.any fun p => inside p.ia
    | _ => false) || (List.range 8).any fun k => (s.stack k).heldWrites.any fun h => inside h.ia

/-- Suspends an operation on a page that is not resident (R362, R391). -/
def State.suspendOp (s : State) (o : EngOp) (w : PageWait) (p : Perm) : State :=
  (s.updOp o.num fun o => { o with wait := some w }).pageFault w.stack w.page w.big p.kind o.ctx o.core (!o.owner.isTeams)

-- the data pass

/-- Grants a read lease on a grain (R272, R273): the expiry it is granted with. -/
def State.grantLease (s : State) (k g ld : Nat) : State × W64 :=
  let x := s.stack k
  let e := s.time.now + BitVec.ofNat 64 (1000 * 2 ^ ld)
  let e := (x.heldOn g).foldl (fun m h => if h.at_ < m then h.at_ else m) e
  let t := x.grain g
  (s.updStack k fun x => { x with grains := setN x.grains g { t with lmax := if t.lmax < e then e else t.lmax } }, e)

/-- What a piece reads as: its bytes, the selector of a bad codeword, the offsets in it of bad words, its lease's expiry. -/
structure PieceRead where
  data : List Byte
  bad : Option W64
  words : List Int
  expiry : Option W64
  deriving DecidableEq, Repr

/-- Reads one piece of main memory for a data pass (R235, R272), memory of an agent that is dead as poison (R424). -/
def State.readPiece (s : State) (ctx : Nat) (lease : Option Nat) (evp : BitVec 2) (p : Piece) : State × PieceRead :=
  match p.loc with
  | .dev k a =>
    let (s, r) := s.devRead k a p.len ctx p.ia true (some evp)
    let bad := if r.bad then some (match r.sel with | some x => BitVec.ofNat 64 x | none => 0) else none
    let (s, e) := match lease with
      | some ld => let (s, e) := s.grantLease k (a / 512) ld; (s, some e)
      | none => (s, none)
    (s, { data := r.data, bad := bad, words := r.words, expiry := e })
  | l =>
    let later := lease.map fun ld => s.time.now + BitVec.ofNat 64 (1000 * 2 ^ ld)
    if s.deadSpot l then
      (s, { data := (List.range p.len).map fun i => byteOf poisonWord ((p.ia + i) % 4), bad := some 0,
            words := (List.range ((p.len + 3) / 4)).map fun i => ((4 * i : Nat) : Int), expiry := none })
    else
      let bs := s.locPeek l p.len
      let s := match l with
        | .peer d a => s.peerTouch p.ia d a p.len evp none
        | _ => s
      (s, { data := bs, bad := none, words := [], expiry := later })

/-- A last-use read drops its line once no piece of the operation still needs it (R235). -/
def State.lastUse (s : State) (p : Piece) (rest : List Piece) : State :=
  match p.loc with
  | .dev k a =>
    let line := a / 128
    if rest.any fun q => match q.loc with | .dev j b => j == k && b / 128 == line | _ => false then s else s.dropLine k line
  | .peer d a =>
    let line := a / 128
    if rest.any fun q => match q.loc with | .peer e b => e == d && b / 128 == line | _ => false then s
    else s.dropPeer p.ia d line
  | .host _ => s

/-- Notes a fault that data carried; the first stands. -/
def EngOp.noteBad (o : EngOp) (code : Byte) (sel : Option W64) (addr : Nat) : EngOp :=
  match o.bad, sel with
  | none, some x => { o with bad := some (code, x, BitVec.ofNat 64 addr) }
  | _, _ => o

/-- The lease that a filled line of local memory takes (R272, R274). -/
def EngOp.lineLease (o : EngOp) (all : List Piece) (line : Nat) : Option LineLease :=
  match o.lease, lookupN o.expiries line with
  | some ld, some e =>
    let base := o.kind.localBase
    let mine := all.filter fun p => (base + p.off) / 128 == line
    some { expiry := e, expired := false, parts := mine.map fun p => ((base + p.off) % 128, BitVec.ofNat 56 p.va, p.len),
           ld := ld, evp := o.evp, ctx := o.ctx, core := o.core }
  | _, _ => none

/-- A local line that an operation has filled retires, with its lease (R227, R272). An asynchronous write issued into the line
before it filled cancels nothing: it found no lease there. DESIGN CHOICE (notes/assumptions/62). -/
def State.retireLine (s : State) (team : Nat) (spc : Space) (line : Nat) (lease : Option LineLease) : State :=
  s.land team spc 0 [] [line] none lease

/-- The clock an operation's completion times are read from (R263). -/
def State.opTime (s : State) (o : EngOp) : W64 := if o.owner.isTeams then s.timeAt o.core else s.time.now

/-- Moves the pieces of an inbound operation that `sel` picks (R251, R253, R254): what is left of them. -/
def State.moveIn (s : State) (o : EngOp) (sel : Piece → Bool) : List Piece → List Piece → State × EngOp × List Piece
  | [], kept => (s, o, kept)
  | p :: rest, kept =>
    if !sel p then s.moveIn o sel rest (kept ++ [p]) else
    let base := o.kind.localBase
    let line := (base + p.off) / 128
    let (s, r) := s.readPiece o.ctx o.lease o.evp p
    let s := if o.lu then s.lastUse p (kept ++ rest) else s
    let o := o.noteBad 0x18 r.bad p.va
    let o := match r.expiry with
      | some e =>
        let m := match lookupN o.expiries line with
          | some x => if x < e then x else e
          | none => e
        { o with expiries := setN o.expiries line m }
      | none => o
    let s := s.land o.team o.sp (base + p.off) r.data []
    let now := s.opTime o
    s.moveIn { o with time := if o.time < now then now else o.time } sel rest kept

/-- Writes one piece of main memory for a data pass: how many of its lines are held (R273), and the lines made dirty. -/
def State.writePiece (s : State) (o : EngOp) (p : Piece) (data : List Byte) (poison : Bool) : State × Nat :=
  let who : Writer := { writer := if o.owner.isTeams then BitVec.ofNat 12 o.core else 0x800,
                        log := if o.owner.isTeams then some (o.team, o.tid / 32) else none }
  match p.loc with
  | .dev k a => s.submitWrite k a data who p.ia o.ctx o.evp poison (some o.num)
  | l => if s.deadSpot l then (s, 0) else (s.locWrite l data who p.ia o.ctx o.evp, 0)

/-- Notes lines made dirty by a queue's operations (R299). -/
def State.noteWrote (s : State) (o : EngOp) (ls : List (Nat × Nat)) : State :=
  match o.owner with
  | .queue n => s.updQueue o.team n fun q => { q with wrote := (q.wrote ++ ls).eraseDups }
  | _ => s

/-- Room at the home for a piece's write: not more than the buffer of writes held for leases takes (R273). -/
def State.pieceRoom (s : State) (p : Piece) : Bool := match p.loc with
  | .dev k a => (s.heldUntil k (a / 512)).isNone || s.bufferRoom k
  | _ => true

/-- Writes one piece of an outbound operation from its present source line (R252-R254). -/
def State.outPiece (s : State) (o : EngOp) (p : Piece) : State × EngOp :=
  let (s, data, bad) := s.unitRead o.team o.sp (o.kind.localBase + p.off) p.len
  let o := o.noteBad 0x18 (bad.map fun x => BitVec.ofNat 64 x) p.va
  let o := o.noteBad 0x18 (if s.deadSpot p.loc then some 0 else none) p.va
  let (s, held) := s.writePiece o p data bad.isSome
  let s := s.noteWrote o (p.loc.lines p.len)
  let now := s.opTime o
  let s := s.updOp o.num fun x => { x with left := x.left + held }
  (s, { o with left := o.left + held, time := if o.time < now then now else o.time })

/-- The pieces of an outbound operation, together where they have one source line. -/
def EngOp.byLine (o : EngOp) : List Piece → List (Nat × List Piece)
  | [] => []
  | p :: rest =>
    let line := (o.kind.localBase + p.off) / 128
    match o.byLine rest with
    | (n, qs) :: more => if n = line then (n, p :: qs) :: more else (line, [p]) :: (n, qs) :: more
    | [] => [(line, [p])]

/-- Moves the pieces of an outbound operation that `sel` picks and whose source lines are present, each source line at one
instant (R252-R254): those of equal places keep their order. -/
def State.moveOut (s : State) (o : EngOp) (sel : Piece → Bool) : List (Nat × List Piece) → List Piece →
    State × EngOp × List Piece
  | [], kept => (s, o, kept)
  | (line, ps) :: rest, kept =>
    let here := s.sourceReady o line
    let picked := ps.all sel
    if !picked || !here || ps.any fun p => kept.any fun q => q.loc.overlaps q.len p.loc p.len then
      let s := if picked && !here then s.refetchLines o.team [(o.sp, line)] else s
      s.moveOut o sel rest (kept ++ ps)
    else
      let (s, o) := ps.foldl (fun (r : State × EngOp) p => r.1.outPiece r.2 p) (s, o)
      s.moveOut o sel rest kept

/-- Ends an operation whose data has moved, or leaves it to wait for the writes that are held (R273). -/
def State.moved (s : State) (o : EngOp) : State :=
  if o.left = 0 then s.endOp o o.time o.badFault else s.updOp o.num fun _ => { o with phase := .writing }

/-- The data pass of the pieces that `sel` picks (R251). -/
def State.dataPass (s : State) (o : EngOp) (todo all : List Piece) (sel : Piece → Bool) : State :=
  if o.kind.isOut then
    let (s, o, kept) := s.moveOut o sel (o.byLine todo) []
    if kept.isEmpty then s.moved o else s.updOp o.num fun _ => { o with phase := .probed kept all }
  else
    let base := o.kind.localBase
    let line (p : Piece) : Nat := (base + p.off) / 128
    let (s, o, kept) := s.moveIn o sel todo []
    let mine := match o.kind with | .refetch n => [n] | _ => []
    let full := ((todo.map line ++ mine).eraseDups).filter fun n => !(kept.any fun p => line p == n)
    let s := full.foldl (fun s n => s.retireLine o.team o.sp n (o.lineLease all n)) s
    if !kept.isEmpty then s.updOp o.num fun _ => { o with phase := .probed kept all }
    else match o.kind with
      | .refetch _ => { s with ops := s.ops.filter fun x => x.num != o.num }
      | _ => s.endOp o o.time o.badFault

end Sys2Proof.Machine
end

