-- ==== Sys2Proof/Machine/MainMem.lean ====
section
/-! DEFINITION. Class 9: copies, far atomics, fences, code publication, hints and sliced fetches (R249-R261, R267-R270,
R282), and the events that perform them (R251, R255, R256, R273). -/
namespace Sys2Proof.Machine

-- issue

/-- What a check says of a lane: it passes, or fails with the address the trap names, where the manual names one. -/
abbrev Check := Lane → Option (Option W64)

def failIf (b : Bool) (a : Option W64) : Option (Option W64) := if b then some a else none

/-- The lanes that fail the first check that any lane fails (R250, R351): each with its own address. -/
def State.failing (s : State) (u : Bun) (slots : List Nat) : List Check → List (Nat × Option W64)
  | [] => []
  | c :: cs =>
    match slots.filterMap fun j => (c (s.lane u j)).map fun a => (j, a) with
    | [] => s.failing u slots cs
    | bad => bad

/-- The access violations of failing lanes (R351): where a check names no address the record's is not stated. -/
def State.deny (s : State) (u : Bun) (info0 : W64) (bad : List (Nat × Option W64)) : Effect :=
  let (s, ts) := bad.foldl (fun (r : State × List (Nat × TrapInfo)) p =>
    match p.2 with
    | some a => (r.1, r.2 ++ [(p.1, trapAt 0x11 u.pc info0 a)])
    | none => let (w, s) := r.1.freeWord; (s, r.2 ++ [(p.1, trapAt 0x11 u.pc info0 w)])) (s, [])
  .trap s ts

/-- INFO0 of a copy's failure (R351): its queue and its batch. -/
def batchInfo (n seq : Nat) : W64 := BitVec.ofNat 64 (n + 256 * (seq % 2 ^ 24))

/-- INFO0 of a copy word that fails its checks: the batch that it would have joined (R351). DEDUCED
(notes/assumptions/39). -/
def State.copyInfo (s : State) (team n : Nat) : W64 :=
  match (s.team? team).bind fun t => t.queues[n]? with
  | some q => batchInfo n (q.seq + 1)
  | none => 0

/-- How far a word that is held in the middle of its issue, or that waits, has come: kept in its entry until it completes. -/
def State.progress (s : State) (u : Bun) : Option W64 :=
  ((s.group? u.team u.group).bind fun g => g.entryAt u.slot).bind (·.release)

def State.setProgress (s : State) (u : Bun) (w : W64) : State :=
  s.updGroup u.team u.group fun g => g.updEntry u.slot fun e => { e with release := some w }

/-- Issues a word lane by lane (R250): one that a full line stops (R227) goes on from the lane it stopped at. -/
def State.issueEach (s : State) (u : Bun) (one : State → Nat → Option State) : List Nat → Effect
  | [] => .done s []
  | j :: js => match one s j with
    | some s => s.issueEach u one js
    | none => .hold (s.setProgress u (BitVec.ofNat 64 j))

/-- Whether a queue takes `k` more operations (R295). -/
def State.queueRoom (s : State) (team n k : Nat) : Bool :=
  match (s.team? team).bind fun t => t.queues[n]? with
  | some q => q.load + k ≤ 1024
  | none => false

/-- Issues a word for the listed lanes, or holds it where its queue has no room for their operations (R250, R295). -/
def State.issueRoom (s : State) (u : Bun) (queue : Option Nat) (one : State → Nat → Option State) (slots : List Nat) : Effect :=
  if queue.all fun n => s.queueRoom u.team n slots.length then s.issueEach u one slots else .hold s

/-- The checks of every lane of P, and the issue of a word that gives each live one an operation (R250). -/
def State.eachLane (s : State) (u : Bun) (queue : Option Nat) (info0 : W64) (checks : List Check)
    (one : State → Nat → Option State) : Effect :=
  match s.progress u with
  | some k => s.issueRoom u queue one (u.plive.filter fun j => k.toNat ≤ j)
  | none =>
    match s.failing u u.act checks with
    | [] => s.issueRoom u queue one u.plive
    | bad => s.deny u info0 bad

/-- SP of a class 9 or class A word. -/
def spaceOf (b : Bool) : Space := if b then .sc else .sh

-- copies

/-- Raises the lines a copy writes and issues it; none where a line is full (R227). DEDUCED (notes/assumptions/39). -/
def State.issueCopy (s : State) (u : Bun) (x : Main) (slot : Nat) (kind : OpKind) (empty : Bool) : Option State :=
  let n := x.cq.toNat
  if empty then
    some (s.updQueue u.team n fun q => { q with open_ := { q.open_ with count := q.open_.count + 1 } })
  else
    let spc := spaceOf (x.opx.getLsbD 0)
    let (num, s') := s.fresh
    let lease := if x.ls then some (x.opx.toNat / 256) else none
    let o := s'.laneOp u slot num kind (.queue n) spc (s.copyEvp u x.evp) x.lu lease
    let ls := o.dstLines
    match s.team? u.team with
    | none => none
    | some t => if (s.localOf t spc).full ls then none else some ((s'.raiseLines u.team spc ls).addOp o)

/-- A contiguous copy (R250, R253): `main` and `loc` give a lane's main and local address. -/
def State.copyWord (s : State) (i : Instr) (h : Hdr) (x : Main) (main : Lane → W64) (loc : Lane → Nat)
    (mk : Lane → OpKind) : Answer :=
  s.runWord i h fun u s =>
    match s.team? u.team with
    | none => .done s []
    | some t =>
      let spc := spaceOf (x.opx.getLsbD 0)
      let len (l : Lane) : Nat := (l.reg x.b.toNat).toNat
      let checks : List Check :=
        [fun l => failIf (len l % 16 != 0 || decide (2 ^ 24 < len l)) none,
         fun l => failIf (main l % 16 != 0) (some (main l)),
         fun l => failIf (loc l % 16 != 0) (some (BitVec.ofNat 64 (loc l))),
         fun l => failIf (len l != 0 && !s.granted t l.tid spc (loc l) (len l)) (some (BitVec.ofNat 64 (loc l))),
         fun l => failIf (decide (2 ^ 56 ≤ (main l).toNat)) (some (main l))]
      s.eachLane u (some x.cq.toNat) (s.copyInfo u.team x.cq.toNat) checks fun s j =>
        s.issueCopy u x j (mk (s.lane u j)) (len (s.lane u j) == 0)

/-- `cpyin` (R250, R253). -/
def execCpyin (h : Hdr) (x : Main) (s : State) : Answer :=
  s.copyWord (.cpyin h x) h x (fun l => l.pair x.a.toNat) (fun l => (l.reg x.d.toNat).toNat) fun l =>
    .copyIn (l.reg x.d.toNat).toNat ((l.pair x.a.toNat).setWidth 56) (l.reg x.b.toNat).toNat

/-- `cpyout` (R250, R253). -/
def execCpyout (h : Hdr) (x : Main) (s : State) : Answer :=
  s.copyWord (.cpyout h x) h x (fun l => l.pair x.a.toNat) (fun l => (l.reg x.d.toNat).toNat) fun l =>
    .copyOut (l.reg x.d.toNat).toNat ((l.pair x.a.toNat).setWidth 56) (l.reg x.b.toNat).toNat

/-- A copy by index list (R250, R254). -/
def State.listWord (s : State) (i : Instr) (h : Hdr) (x : Main) (main : Lane → W64) (loc : Lane → Nat)
    (mk : Lane → Nat → OpKind) : Answer :=
  s.runWord i h fun u s =>
    match s.team? u.team with
    | none => .done s []
    | some t =>
      let spc := spaceOf (x.opx.getLsbD 0)
      let esz := 16 * 2 ^ (x.opx.toNat / 2 % 8)
      let list (l : Lane) : Nat := (l.reg x.b.toNat).toNat
      let count (l : Lane) : Nat := (l.reg (x.b.toNat + 1)).toNat
      let n64 (n : Nat) : Option W64 := some (BitVec.ofNat 64 n)
      let checks : List Check :=
        [fun l => failIf (count l == 0 || decide (65536 < count l)) none,
         fun l => failIf (main l % 16 != 0) (some (main l)),
         fun l => failIf (loc l % 16 != 0) (n64 (loc l)),
         fun l => failIf (list l % 4 != 0) (n64 (list l)),
         fun l => failIf (!s.granted t l.tid spc (loc l) (esz * count l)) (n64 (loc l)),
         fun l => failIf (!s.granted t l.tid spc (list l) (4 * count l)) (n64 (list l)),
         fun l => failIf (decide (2 ^ 56 ≤ (main l).toNat)) (some (main l))]
      s.eachLane u (some x.cq.toNat) (s.copyInfo u.team x.cq.toNat) checks fun s j =>
        s.issueCopy u x j (mk (s.lane u j) esz) false

/-- `cpyg` (R250, R254). -/
def execCpyg (h : Hdr) (x : Main) (s : State) : Answer :=
  s.listWord (.cpyg h x) h x (fun l => l.pair x.a.toNat) (fun l => (l.reg x.d.toNat).toNat) fun l esz =>
    .gatherIn (l.reg x.d.toNat).toNat ((l.pair x.a.toNat).setWidth 56) (l.reg x.b.toNat).toNat
      (l.reg (x.b.toNat + 1)).toNat esz

/-- `cpys` (R250, R254). -/
def execCpys (h : Hdr) (x : Main) (s : State) : Answer :=
  s.listWord (.cpys h x) h x (fun l => l.pair x.a.toNat) (fun l => (l.reg x.d.toNat).toNat) fun l esz =>
    .scatterOut (l.reg x.d.toNat).toNat ((l.pair x.a.toNat).setWidth 56) (l.reg x.b.toNat).toNat
      (l.reg (x.b.toNat + 1)).toNat esz

-- far atomics

/-- The operand of a far atomic: one register or a pair. -/
def Lane.farReg (l : Lane) (wide : Bool) (r : Nat) : W64 := if wide then l.pair r else (l.reg r).setWidth 64

/-- Issues one lane's far atomic (R256): `res` is the number of the result of a returning form. -/
def State.issueFar (s : State) (u : Bun) (x : Main) (cas : Bool) (res : Option Nat) (slot : Nat) : State :=
  let wide := x.opx.getLsbD 4
  let l := s.lane u slot
  let (num, s) := s.fresh
  let kind : OpKind := .far ((l.pair x.a.toNat).setWidth 56) wide (if cas then 0 else x.opx.extractLsb' 0 4) cas
    (l.farReg wide x.b.toNat) (if cas then l.farReg wide x.d.toNat else 0) (res.map fun n => (n, x.d.toNat))
  let owner : OpOwner := if res.isSome then .lane else .queue x.cq.toNat
  let s := s.addOp (s.laneOp u slot num kind owner .sh x.evp false none)
  match res with
  | some n =>
    let r : Result := { num := n, pc := u.pc, need := .far num, writes := [], flags := 0, trap := none, back := false }
    s.mapLanes u [slot] fun _ l => l.addResult r
  | none => s

/-- A far atomic (R256): the address is checked in every lane before any is issued. -/
def State.farWord (s : State) (i : Instr) (h : Hdr) (x : Main) (cas nr : Bool) : Answer :=
  s.runWord i h fun u s =>
    let va (l : Lane) : W64 := l.pair x.a.toNat
    let n : W64 := if x.opx.getLsbD 4 then 8 else 4
    let checks : List Check := [fun l => failIf (va l % n != 0 || decide (2 ^ 56 ≤ (va l).toNat)) (some (va l))]
    let (num, s') := s.fresh
    if nr then s.eachLane u (some x.cq.toNat) 0 checks fun s j => some (s.issueFar u x cas none j)
    else s'.eachLane u none 0 checks fun s j => some (s.issueFar u x cas (some num) j)

/-- `fatom` (R256, R257). -/
def execFatom (h : Hdr) (x : Main) (s : State) : Answer := s.farWord (.fatom h x) h x false false

/-- `fatom.nr` (R256, R257). -/
def execFatomNr (h : Hdr) (x : Main) (s : State) : Answer := s.farWord (.fatomNr h x) h x false true

/-- `fcas` (R258). -/
def execFcas (h : Hdr) (x : Main) (s : State) : Answer := s.farWord (.fcas h x) h x true false

-- fences and publication

/-- The `$tid`s and home groups of some slots. -/
def State.tidsOf (s : State) (u : Bun) (slots : List Nat) : List Nat := slots.map fun j => (s.lane u j).tid

/-- The first part of ReleaseWait (R268): once every write has its completion time, the system-scope write-back is made,
and the tick at which the release is over is known. -/
def State.releaseBegin (s : State) (u : Bun) (scope : Scope) : Option (State × W64) :=
  match s.team? u.team with
  | none => none
  | some t =>
    let tids := s.tidsOf u u.plive
    if !s.writesDone t tids then none
    else
      let ct := t.ctOf tids
      let margin := BitVec.ofNat 64 (s.margin scope)
      if scope = .system then
        let (s, ct) := s.systemRelease ((tids.map fun i => (u.team, i / 32)).eraseDups) [] ct (s.timeAt u.core)
        some (s, ct + margin)
      else some (s, ct + margin)

/-- A release, in the manner of R268, before a word goes on with `k`: it is held until the release is over. -/
def State.releaseThen (s : State) (u : Bun) (scope : Scope) (k : State → Effect) : Effect :=
  let go (s : State) (w : W64) : Effect := if w ≤ s.timeAt u.core then k s else .hold (s.setProgress u w)
  match s.progress u with
  | some w => go s w
  | none => match s.releaseBegin u scope with
    | some (s, w) => go s w
    | none => .hold s

/-- AcquireMark (R267, R270), where the fence acquires. -/
def State.acquire (s : State) (u : Bun) (x : Main) : State :=
  if x.opx.getLsbD 1 then let now := s.timeAt u.core; s.mapLanes u u.plive fun _ l => { l with acq := now } else s

/-- `fence` (R259, R268, R270). DEDUCED (notes/assumptions/41). -/
def execFence (h : Hdr) (x : Main) (s : State) : Answer :=
  s.runWord (.fence h x) h fun u s =>
    if u.plive.isEmpty || x.scope = .lane || !x.opx.getLsbD 0 then .done (s.acquire u x) []
    else s.releaseThen u x.scope fun s =>
      .done ((s.mapLanes u u.plive fun _ l => { l with ct := 0 }).acquire u x) []

/-- The lines that a range touches, by virtual address. -/
def lineVas (a n : Nat) : List Nat := (linesOf a n).map (· * 128)

/-- The intermediate address of a line in a span that grants W or X (R260). -/
def codeXlate (spans : List SpanReg) (va : Nat) : Option Nat :=
  match spanXlate spans va permWrite with
  | some ia => some ia
  | none => spanXlate spans va permFetch

/-- The place of a publication (R282). -/
def placeOf (scope : Scope) (u : Bun) : PubPlace :=
  match scope with
  | .team => .team u.team
  | .cluster => .cluster (clusterOf u.core) u.team
  | .die => .die (dieOf u.core) u.team
  | _ => .none

/-- Records a line of a code page as published (R282). -/
def Stack.publish (x : Stack) (line : Nat) (scope : Scope) (p : PubPlace) : Stack :=
  if x.codeFrames.contains (line * 128 / 2 ^ 16) then { x with pubs := setN x.pubs line (.published scope p) } else x

/-- Publishes a line (R282): a copy that another agent holds modified is recalled first (R410), and its write comes before. -/
def State.publishSpot (s : State) (l : Spot) (scope : Scope) (p : PubPlace) : State :=
  let s := match l with
    | .dev k a => s.recall k (a / 128)
    | _ => s
  s.updStack l.codeStack fun x => x.publish l.codeLine scope p

/-- Publishes the line at an intermediate address; one that is not resident has no pending write (R260). -/
def State.publishIA (s : State) (ia : Nat) (scope : Scope) (p : PubPlace) : State :=
  match s.xlateIA ia { rd := false, w := false, x := false } with
  | (s, .ok l _) => s.publishSpot l scope p
  | (s, _) => s

/-- `publ` (R260, R282). -/
def execPubl (h : Hdr) (x : Main) (s : State) : Answer :=
  s.runWord (.publ h x) h fun u s =>
    let (s, d) := s.desc u.ctx
    let spans := descSpans d
    let base (l : Lane) : W64 := l.pair x.a.toNat
    let len (l : Lane) : Nat := (l.reg x.b.toNat).toNat
    let checks : List Check :=
      [fun l => failIf (decide (2 ^ 56 ≤ (base l).toNat)) (some (base l)),
       fun l => failIf (decide (2 ^ 24 < len l)) none,
       fun l => ((lineVas (base l).toNat (len l)).find? fun a => (codeXlate spans a).isNone).map fun a =>
         some (BitVec.ofNat 64 a)]
    let bad := if (s.progress u).isSome then [] else s.failing u u.act checks
    if !bad.isEmpty then s.deny u 0 bad
    else if u.plive.isEmpty then .done s []
    else s.releaseThen u x.scope fun s =>
      .done (u.plive.foldl (fun s j =>
        let l := s.lane u j
        (lineVas (base l).toNat (len l)).foldl (fun s a => match codeXlate spans a with
          | some ia => s.publishIA ia x.scope (placeOf x.scope u)
          | none => s) s) s) []

-- hints

/-- One line of an `mhint` (R261): a line that cannot be reached is skipped. `.pf` brings it into its cache. -/
def State.hintLine (s : State) (x : Main) (ctx : Nat) (spans : List SpanReg) (va : Nat) : State :=
  let p : Perm := { rd := x.opx.toNat % 4 == 0, w := x.opx.toNat % 4 == 2, x := false }
  match spanXlate spans va p with
  | none => s
  | some ia => match s.xlateIA ia p with
    | (s, .ok (.dev k a) _) =>
      let line := a / 128
      match x.opx.toNat % 4 with
      | 1 => s.updStack k fun y => { y with cache := y.cache.map fun c => if c.line = line then { c with evp := x.evp } else c }
      | 2 => if ((s.stack k).cached line).isSome then s.dropLine k line else s
      | _ => (s.devRead k (line * 128) 128 ctx (ia / 128 * 128) false (some x.evp) false).1
    | (s, .ok (.peer d a) _) =>
      let line := a / 128
      match x.opx.toNat % 4 with
      | 1 => (match stackOf ia with
        | some k => s.updStack k fun y =>
            { y with peerLines := y.peerLines.map fun p => if p.dev = d ∧ p.line = line then { p with evp := x.evp } else p }
        | none => s)
      | 2 => if s.holdsPeer ia d line then s.dropPeer ia d line else s
      | _ => s.peerTouch ia d a 1 x.evp none
    | (s, _) => s

/-- `mhint` (R261): `.drop` takes lines wholly inside the range and counts
as a write of its lane; a range longer than 16 MiB has no effect. -/
def execMhint (h : Hdr) (x : Main) (s : State) : Answer :=
  s.runWord (.mhint h x) h fun u s =>
    let (s, d) := s.desc u.ctx
    .done (u.plive.foldl (fun s j =>
      let l := s.lane u j
      let a := (l.pair x.a.toNat).toNat
      let n := (l.reg x.b.toNat).toNat
      if 2 ^ 24 < n then s else
      let ls := (lineVas a n).filter fun b => x.opx.toNat % 4 != 2 || (decide (a ≤ b) && decide (b + 128 ≤ a + n))
      let s := ls.foldl (fun s b => s.hintLine x u.ctx (descSpans d) b) s
      if x.opx.toNat % 4 != 2 then s else
      let now := s.timeAt u.core
      s.mapLanes u [j] fun _ l => { l with ct := if l.ct < now then now else l.ct }) s) []

-- mcast

/-- `mcast` (R255): one operation, with the operands of the lowest live lane of P. -/
def execMcast (h : Hdr) (x : Main) (s : State) : Answer :=
  s.runWord (.mcast h x) h fun u s =>
    match u.plive, s.team? u.team with
    | j :: _, some t =>
      let l := s.lane u j
      let n := x.opx.toNat % 32 + 1
      let d := (l.reg x.d.toNat).toNat
      let a := l.pair x.a.toNat
      let len := (l.reg x.b.toNat).toNat
      let gsize := match s.gang? t.gang with | some g => g.size | none => 0
      let here (b : Bool) (w : Option W64) : Option (Option W64) := failIf b w
      let bad := [here (decide (n ≤ t.index)) none, here (decide (gsize < n)) none,
        here (len % (128 * n) != 0 || len == 0 || decide (2 ^ 24 < len)) none,
        here (!s.granted t l.tid .sh d len) (some (BitVec.ofNat 64 d)),
        here (d % 128 != 0) (some (BitVec.ofNat 64 d)), here (a % 128 != 0) (some a),
        here (decide (2 ^ 56 ≤ a.toNat)) (some a)].findSome? id
      match bad with
      | some w => s.deny u (s.copyInfo u.team x.cq.toNat) (u.plive.map fun k => (k, w))
      | none =>
        let q := x.cq.toNat
        let nth := match t.queues[q]? with | some y => y.mcasts | none => 0
        let (num, s') := s.fresh
        let lease := if x.ls then some (x.opx.toNat / 256) else none
        let o := { s'.laneOp u j num (.mcast d (a.setWidth 56) len n nth t.index) (.queue q) .sh (s.copyEvp u x.evp) x.lu lease
                   with gang := t.gang }
        if !s.queueRoom u.team q 1 || t.local_.full o.dstLines then .hold s
        else .done (((s'.raiseLines u.team .sh o.dstLines).addOp o).updQueue u.team q fun y =>
          { y with mcasts := y.mcasts + 1 }) []
    | _, _ => .done s []

-- events: copies

/-- A slice that faults is delivered as such (R255). -/
def EngOp.failedSlice (o : EngOp) (code : Byte) (info0 addr : W64) : EngOp :=
  { o with phase := .slice none [], bad := some (code, info0, addr) }

/-- COPY_PROBE_PASS (R251): the subject names the operation. -/
def execCopyProbePass (s : State) : Answer :=
  match s.subject with
  | .unit num =>
    match s.op? num with
    | none => .next s
    | some o =>
      let copies := match o.kind with | .far .. | .chain .. => false | _ => true
      if !copies || o.phase != .issued || !s.mayStart o then .next s
      else match s.probe o with
        | (s, .ok ps) => .next (s.updOp num fun o => { o with phase := .probed ps ps })
        | (s, .fault code i a) => match o.kind with
          | .mcast .. => .next (s.updOp num fun o => o.failedSlice code i a)
          | _ => .next ((s.failOp o code i a).settle)
        | (s, .suspend w) => .next ((s.suspendOp o w (if o.kind.isOut then permWrite else permRead)).settle)
        | (s, .notYet) => .next s
  | _ => .next s

/-- Reads a whole slice (R255). -/
def State.readSlice (s : State) (o : EngOp) : List Piece → List Byte → State × EngOp × List Byte
  | [], data => (s, o, data)
  | p :: rest, data =>
    let (s, r) := s.readPiece o.ctx o.lease o.evp p
    let s := if o.lu then s.lastUse p rest else s
    let o := o.noteBad 0x18 r.bad p.va
    let line := (o.kind.localBase + p.off) / 128
    let o := match r.expiry with
      | some e => { o with expiries := setN o.expiries line (match lookupN o.expiries line with
          | some x => if x < e then x else e
          | none => e) }
      | none => o
    s.readSlice o rest (data ++ r.data)

/-- Moves the pieces of a probed operation that `sel` picks. -/
def State.moveData (s : State) (num : Nat) (sel : EngOp → Piece → Bool) : State :=
  match s.op? num with
  | none => s
  | some o =>
    match o.phase, o.kind with
    | .probed todo _, .mcast .. =>
      if !s.inOrder o then s else
      let (s, o, data) := s.readSlice o todo []
      s.updOp num fun _ => { o with phase := .slice (some data) [] }
    | .probed _ _, .decode .. => s
    | .probed todo all, _ => if s.inOrder o then (s.dataPass o todo all (sel o)).settle else s
    | _, _ => s

/-- COPY_DATA_PASS (R251-R254): the subject names the operation, all of whose data moves that can, or the operation and
one line of local memory. -/
def execCopyDataPass (s : State) : Answer :=
  match s.subject with
  | .unit num => .next (s.moveData num fun _ _ => true)
  | .unit2 num line => .next (s.moveData num fun o p => (o.kind.localBase + p.off) / 128 == line)
  | _ => .next s

-- events: mcast

/-- The team of a gang with a `$team`. -/
def State.gangTeam (s : State) (gang index : Nat) : Option Team := s.teams.find? fun t => t.gang == gang && t.index == index

/-- The operation of a participant that matches an `mcast` (R255). -/
def State.mcastOf (s : State) (team : Nat) (q nth : Nat) : Option EngOp :=
  s.ops.find? fun o => o.team == team && o.owner == .queue q &&
    (match o.kind with | .mcast _ _ _ _ k _ => k == nth | _ => false)

/-- Whether a slice for the local range of `n` bytes at `addr` may be written for a participant's operation: the
earlier operations that it waits for are complete (R301), and so are the earlier ones of its queue that write or read a byte
there, or may, as a chain may (R253, R278, R303). -/
def State.sliceInOrder (s : State) (e : EngOp) (addr n : Nat) : Bool :=
  !(e.after.any s.opPending) && !s.ops.any fun x =>
    decide (x.num < e.num) && x.team == e.team && x.owner == e.owner && !x.complete &&
      ((match x.kind with | .chain .. => true | _ => false) || (x.sp == e.sp &&
        (rangesMeet x.kind.dstRange (some (addr, n)) || rangesMeet x.kind.srcRange (some (addr, n)) ||
          rangesMeet x.listRange (some (addr, n)))))

/-- A slice has come to a participant's operation; its last completes it (R294). -/
def State.gotSlice (s : State) (num index : Nat) (bad : Option (Byte × W64 × W64)) : State :=
  match s.op? num with
  | none => s
  | some o =>
    if o.got.contains index then s else
    let now := s.opTime o
    let o := { o with got := o.got ++ [index], bad := (match o.bad with | some x => some x | none => bad),
                      time := if o.time < now then now else o.time }
    let s := s.updOp num fun _ => o
    if o.complete then s.completeOp o o.time o.badFault else s

/-- A leased line of a slice (R272): the source is found from the line's place in the destination. -/
def EngOp.sliceLease (o : EngOp) (line : Nat) : Option LineLease :=
  match o.kind, o.lease, lookupN o.expiries line with
  | .mcast dst src .., some ld, some e =>
    some { expiry := e, expired := false, parts := [(0, src + BitVec.ofNat 56 (line * 128 - dst), 128)], ld := ld,
           evp := o.evp, ctx := o.ctx, core := o.core }
  | _, _, _ => none

/-- Delivers a slice of `o` to one participant's operation `e` (R255): written, or retired unwritten. -/
def State.deliverSlice (s : State) (o e : EngOp) (addr n index : Nat) (data : Option (List Byte)) : State :=
  let lines := linesOf addr n
  let s := match data with
    | some bs =>
      let s := s.land e.team .sh addr bs []
      lines.foldl (fun (s : State) k => s.retireLine e.team .sh k (o.sliceLease k)) s
    | none => s.land e.team .sh 0 [] lines
  s.gotSlice e.num index o.bad

/-- A participant that ended without issuing (R255): its slice never comes to `o`'s team. -/
def State.absentSlice (s : State) (o : EngOp) (addr n index : Nat) : State :=
  if o.got.contains index then s
  else (s.land o.team .sh 0 [] (linesOf addr n)).gotSlice o.num index (some (0x11, 0, BitVec.ofNat 64 addr))

/-- Delivers a fetched slice to every participant that has issued and not had it; true for those that are absent. -/
def State.sendSlices (s : State) (o : EngOp) (q dst len n nth slice : Nat) (data : Option (List Byte)) (gang : Nat) :
    List Nat → List Nat → State × List Nat
  | [], sent => (s, sent)
  | i :: is, sent =>
    if sent.contains i then s.sendSlices o q dst len n nth slice data gang is sent else
    let part := len / n
    match s.gangTeam gang i with
    | some t =>
      match s.mcastOf t.id q nth with
      | some e =>
        if !s.sliceInOrder e (dst + slice * part) part then
          s.sendSlices o q dst len n nth slice data gang is sent
        else
          let s := s.deliverSlice o e (dst + slice * part) part slice data
          s.sendSlices o q dst len n nth slice data gang is (sent ++ [i])
      | none =>
        if t.ended then
          (s.absentSlice o (dst + i * part) part i).sendSlices o q dst len n nth slice data gang is (sent ++ [i])
        else s.sendSlices o q dst len n nth slice data gang is sent
    | none => (s.absentSlice o (dst + i * part) part i).sendSlices o q dst len n nth slice data gang is (sent ++ [i])

/-- MCAST_SLICE_DELIVER (R255): the subject names the operation whose slice is fetched. -/
def execMcastSliceDeliver (s : State) : Answer :=
  match s.subject with
  | .unit num =>
    match s.op? num with
    | none => .next s
    | some o => match o.phase, o.kind, o.owner with
      | .slice data sent, .mcast dst _ len n nth slice, .queue q =>
        let (s, sent) := s.sendSlices o q dst len n nth slice data o.gang (List.range n) sent
        let s := s.updOp num fun o => { o with phase := .slice data sent }
        let finished := match s.op? num with | some o => o.complete && decide (n ≤ sent.length) | none => false
        .next ((if finished then { s with ops := s.ops.filter fun o => o.num != num } else s).settle)
      | _, _, _ => .next s
  | _ => .next s

-- events: far atomics and held writes

/-- A far atomic is over (R256): its lane, or its batch, gets the old value or the fault. -/
def State.farEnd (s : State) (o : EngOp) (wide : Bool) (ret : Option (Nat × Nat)) (time : W64) (old : W64)
    (fault : Option (Byte × W64 × W64)) : State :=
  match ret with
  | some (res, reg) =>
    let trap : Option TrapInfo := fault.map fun (c, i, a) =>
      { code := c, info0 := i, info1 := a, opc := o.pc, rpt := false, multi := false }
    let ws := if wide then [(reg, lo32 old), (reg + 1, hi32 old)] else [(reg, lo32 old)]
    let s := s.updTid o.team o.tid fun l => l.updResult res fun r => r.farBack ws trap
    (s.endOp o time none).settle
  | none => (s.endOp o time (fault.map fun (c, i, a) => o.faultOf c i a)).settle

/-- The writer of a far atomic's location (R236, R269). -/
def EngOp.writer (o : EngOp) : Writer := { writer := BitVec.ofNat 12 o.core, log := some (o.team, o.tid / 32) }

/-- Where a far atomic's location is, as far as translation tells now. -/
def State.farSpot (s : State) (ctx va : Nat) : Option Spot := match (s.xlate ctx va permAtomic).2.1 with
  | .ok l _ => some l
  | _ => none

/-- Whether two far atomics meet in one location (R256): where it is in memory, or, while that is not known, by virtual
address. -/
def State.farMeets (s : State) (ctx va n ctx' va' n' : Nat) : Bool :=
  match s.farSpot ctx va, s.farSpot ctx' va' with
  | some a, some b => a.overlaps n b n'
  | _, _ => decide (va' < va + n) && decide (va < va' + n')

/-- An earlier far atomic of the same bundle or lane on the location, not yet performed (R256, R264, R265). A lane that
`reform` has moved keeps its order. -/
def State.farBefore (s : State) (o : EngOp) (va n : Nat) : Bool :=
  s.ops.any fun e => decide (e.num < o.num) && e.team == o.team && (e.group == o.group || e.tid == o.tid) && (match e.kind with
    | .far w wide .. => s.farMeets o.ctx va n e.ctx w.toNat (if wide then 8 else 4)
    | _ => false)

/-- Performs a far atomic where its location is (R256, R391). -/
def State.farPerform (s : State) (o : EngOp) (va : VAddr) (wide : Bool) (op : BitVec 4) (cas : Bool) (b c : W64)
    (ret : Option (Nat × Nat)) : State :=
  let n := if wide then 8 else 4
  let a64 : W64 := va.setWidth 64
  match s.xlate o.ctx va.toNat permAtomic with
  | (s, .fault, _) => s.farEnd o wide ret 0 0 (some (0x11, 0, a64))
  | (s, .lost, _) => s.farEnd o wide ret 0 0 (some (0x18, 0, a64))
  | (s, .nonres k page big, _) => (s.suspendOp o { stack := k, page := page, big := big } permAtomic).settle
  | (s, .ok (.dev k spa) _, ia) =>
    match s.heldUntil k (spa / 512) with
    | some w =>
      if !s.bufferRoom k then s else
      let h : HeldWrite := { at_ := w, act := .atomic spa wide op cas b c, who := o.writer, op := some o.num, ctx := o.ctx,
                             ia := ia, evp := o.evp }
      (s.holdWrite k h).updOp o.num fun o =>
        { o with phase := .writing, left := 1 }
    | none =>
      let (s, r) := s.atomicNow k spa wide op cas b c o.writer ia o.ctx o.evp
      let s := s.noteWrote o [(k, spa / 128)]
      let fault := if r.bad then some ((0x18 : Byte), (match r.sel with | some x => BitVec.ofNat 64 x | none => 0), a64) else none
      s.farEnd o wide ret (s.opTime o) r.old fault
  | (s, .ok l _, ia) =>
    let old := ofBytes (s.locPeek l n)
    let w := 8 * n
    let x := b.toNat % 2 ^ w
    let v := if cas then (if old = c.toNat % 2 ^ w then x else old) else farAtomic op w old x
    let s := s.locWrite l (bytesOf n v) o.writer ia o.ctx o.evp
    s.farEnd o wide ret (s.opTime o) (BitVec.ofNat 64 old) none

/-- FAR_ATOMIC_PERFORM (R256-R258): the subject names the operation. -/
def execFarAtomicPerform (s : State) : Answer :=
  match s.subject with
  | .unit num =>
    match s.op? num with
    | none => .next s
    | some o => match o.kind with
      | .far va wide op cas b c ret =>
        if (ret.isSome && s.isAway o.team) || o.phase != .issued || !s.mayStart o || !s.inOrder o || s.farBefore o va.toNat (if wide then 8 else 4) then .next s
        else .next (s.farPerform o va wide op cas b c ret)
      | _ => .next s
  | _ => .next s

/-- A held line of a write from outside has been performed: the last one answers it (R266, R414). -/
def State.dueDone (s : State) (num : Nat) (w : W64) : State :=
  match s.fabric.due.find? fun d => d.num == num with
  | none => s
  | some d =>
    let d := { d with left := d.left - 1, time := if d.time < w then w else d.time }
    let others := s.fabric.due.filter fun x => x.num != num
    if d.left = 0 then { s with fabric := { s.fabric with due := others } }.reply d.agent (some ([], false)) (some d.time)
    else { s with fabric := { s.fabric with due := d :: others } }

/-- A write of an operation that was held has been performed, with W as its completion time (R266, R273). -/
def State.heldDone (s : State) (num : Nat) (w : W64) (old : W64) (fault : Option (Byte × W64)) : State :=
  match s.op? num with
  | none => s.dueDone num w
  | some o =>
    let o := { o with left := o.left - 1, time := if o.time < w then w else o.time }
    let s := s.updOp num fun _ => o
    match o.kind with
    | .far va wide _ _ _ _ ret => s.farEnd o wide ret w old (fault.map fun (c, i) => (c, i, va.setWidth 64))
    | .chain .. => s
    | _ => if o.phase == .writing && o.left == 0 then (s.endOp o o.time o.badFault).settle else s

/-- The line that a held write makes dirty is its queue's from now (R299). -/
def State.heldWrote (s : State) (num k a : Nat) : State := match s.op? num with
  | some o => s.noteWrote o [(k, a / 128)]
  | none => s

end Sys2Proof.Machine
end

