-- ==== Sys2Proof/Machine/Queues.lean ====
section
/-! DEFINITION. Class A on copy queues and decode tables (R297-R305, R311), and the events of stamps (R299), transfer
records (R302, R303) and the weight decoder (R305). -/
namespace Sys2Proof.Machine

/-- A class A word acts once, with the operands of the lowest live lane of P (R297). -/
def State.onceWord (s : State) (i : Instr) (h : Hdr) (f : Bun → Team → Nat → Lane → State → Effect) : Answer :=
  s.runWord i h fun u s =>
    match u.plive, s.team? u.team with
    | j :: _, some t => f u t j (s.lane u j) s
    | _, _ => .done s []

/-- The same trap in every live lane of P. -/
def Bun.all (u : Bun) (s : State) (code : Byte) (info1 : W64) : Effect := .trap s (trapAll u.plive (trapAt code u.pc 0 info1))

def Team.queue (t : Team) (n : Nat) : CopyQueue := t.queues.getD n
  { seq := 0, open_ := emptyBatch, closed := [], time := 0, mcasts := 0, wrote := [] }

-- closing and waiting

/-- Closes a queue's open batch (R293), which may be complete at once (R294). -/
def State.closeBatch (s : State) (team n : Nat) (x : Option Stamp) : State :=
  (s.updQueue team n fun q => q.close x).advanceQueue team n

/-- `bclose` (R298). -/
def execBclose (h : Hdr) (x : Eng) (s : State) : Answer :=
  s.onceWord (.bclose h x) h fun u t j l s =>
    let n := x.cq.toNat
    let sts := x.opx.toNat % 4
    let a : W64 := if sts = 3 then l.pair x.a.toNat else (l.reg x.a.toNat).setWidth 64
    let spc := if sts = 2 then Space.sc else .sh
    let bad := sts != 0 && (a % 8 != 0 || (if sts = 3 then decide (2 ^ 56 ≤ a.toNat) else !s.granted t l.tid spc a.toNat 8))
    let lines := if sts = 1 ∨ sts = 2 then linesOf a.toNat 8 else []
    if bad then u.all s 0x11 a
    else if 16 ≤ (t.queue n).outstanding || (s.localOf t spc).full lines then .hold s
    else
      let stamp : Option Stamp := if sts = 0 then none else
        some { kind := sts, addr := a.toNat, scope := x.scope, tid := (s.lane u j).tid, group := u.group, pc := u.pc,
               wait := none }
      .done ((s.raiseLines u.team spc lines).closeBatch u.team n stamp) []

/-- The fault that a wait delivers: of the oldest complete batch that holds one, closed no later than close `found`
(R300). -/
def CopyQueue.toDeliver (q : CopyQueue) (found : Nat) : Option (Batch × BatchFault) :=
  q.closed.findSome? fun b => if b.complete && decide (b.seq ≤ found) then b.fault.map fun f => (b, f) else none

/-- A delivered fault is cleared; its batch has nothing left to do. -/
def CopyQueue.delivered (q : CopyQueue) (seq : Nat) : CopyQueue :=
  { q with closed := q.closed.filter fun b => b.seq != seq }

/-- INFO0 of a batch's fault (R351). -/
def faultInfo (n seq : Nat) (f : BatchFault) : W64 :=
  if f.code = 0x18 then f.info0 else batchInfo n seq

/-- The reported trap of a batch's fault (R300, R351). -/
def reportedTrap (n : Nat) (b : Batch) (f : BatchFault) : TrapInfo :=
  { code := f.code, info0 := faultInfo n b.seq f, info1 := f.addr, opc := f.pc, rpt := true, multi := b.multi }

/-- The wait of `waitb` once its close is made or found (R300). -/
def State.waitBatches (s : State) (u : Bun) (n left found : Nat) : Effect :=
  match s.team? u.team with
  | none => .done s []
  | some t =>
    let q := t.queue n
    if left < q.outstanding then .hold s
    else
      let s := s.mapLanes u u.plive fun _ l => { l with ct := if l.ct < q.time then q.time else l.ct }
      match q.toDeliver found with
      | some (b, f) => .trap (s.updQueue u.team n fun q => q.delivered b.seq) (trapAll u.plive (reportedTrap n b f))
      | none => .done s []

/-- `waitb` (R300). -/
def execWaitb (h : Hdr) (x : Eng) (s : State) : Answer :=
  s.onceWord (.waitb h x) h fun u t _ _ s =>
    let n := x.cq.toNat
    let left := x.opx.toNat % 16
    match s.progress u with
    | some found => s.waitBatches u n left found.toNat
    | none =>
      let q := t.queue n
      if q.open_.count = 0 then (s.setProgress u (BitVec.ofNat 64 q.seq)).waitBatches u n left q.seq
      else if 16 ≤ q.outstanding then .hold s
      else ((s.closeBatch u.team n none).setProgress u (BitVec.ofNat 64 (q.seq + 1))).waitBatches u n left (q.seq + 1)

/-- `qfence` (R301). -/
def execQfence (h : Hdr) (x : Eng) (s : State) : Answer :=
  s.onceWord (.qfence h x) h fun u t _ _ s =>
    let m : BitVec 8 := x.opx.setWidth 8
    let ops := ((List.range 8).filter m.getLsbD).flatMap fun n =>
      (t.queue n).open_.ops ++ (t.queue n).closed.flatMap (·.ops)
    .done (s.updTeam u.team fun t =>
      { t with fences := (t.fences.filter fun f => f.2.any s.opPending) ++ [(m, ops)] }) []

/-- `qstat` of a copy queue (R311). OPEN stands at 1,024 when more operations have issued since the close, of which some are
complete. DESIGN CHOICE (notes/assumptions/67). -/
def CopyQueue.stat (q : CopyQueue) : W32 :=
  let flt := q.open_.fault.isSome || q.closed.any fun b => b.fault.isSome
  BitVec.ofNat 32 ((if flt then 2 ^ 28 else 0) + q.outstanding * 2 ^ 18 + min q.open_.count 1024)

/-- A status word to every lane of P at the run end (R311). -/
def State.statusResult (s : State) (u : Bun) (d : Nat) (w : W32) : Effect :=
  let (num, s) := s.fresh
  .done (s.mapLanes u u.act fun _ l => l.addResult (resultOf num u.pc { writes := [(d, w)], flags := 0 })) []

/-- `qstat vD, cqN` (R311). -/
def execQstatCq (h : Hdr) (x : Eng) (s : State) : Answer :=
  s.runWord (.qstatCq h x) h fun u s =>
    if u.plive.isEmpty then .done s [] else
    match s.team? u.team with
    | none => .done s []
    | some t => s.statusResult u x.d.toNat (t.queue x.cq.toNat).stat

-- chains and decodes

/-- `chain` (R303). -/
def execChain (h : Hdr) (x : Eng) (s : State) : Answer :=
  s.onceWord (.chain h x) h fun u _ j l s =>
    let a := l.pair x.a.toNat
    if a % 64 != 0 || decide (2 ^ 56 ≤ a.toNat) then u.all s 0x11 a
    else if !s.queueRoom u.team x.cq.toNat 1 then .hold s
    else
      let (num, s) := s.fresh
      .done (s.addOp (s.laneOp u j num (.chain (a.setWidth 56) 0 x.scope) (.queue x.cq.toNat) (spaceOf (x.opx.getLsbD 0))
        (s.copyEvp u 0) false none)) []

/-- The lengths of a decode table (R304): none where the table is rejected. -/
def tableLengths (bs : List Byte) : Option (List (Byte × Nat)) :=
  let syms := bs.zipIdx.filterMap fun (b, i) => if b = 0 then none else some (BitVec.ofNat 8 i, b.toNat)
  let sum : Nat := syms.foldl (fun n p => n + 2 ^ (16 - p.2)) 0
  if bs.any (fun b => 16 < b.toNat) || syms.isEmpty || decide (2 ^ 16 < sum) then none else some syms

/-- The canonical code of ordered symbols (R304): `prev` is the code and length before. -/
def canonical : List (Byte × Nat) → Option (Nat × Nat) → List CodeSym
  | [], _ => []
  | (b, n) :: rest, prev =>
    let c := match prev with
      | none => 0
      | some (c, m) => (c + 1) * 2 ^ (n - m)
    { sym := b, len := n, code := c } :: canonical rest (some (c, n))

/-- The code a decode table gives (R304). -/
def codeOf (bs : List Byte) : Option (List CodeSym) :=
  (tableLengths bs).map fun syms =>
    canonical (sortBy (fun a b => decide (a.2 < b.2) || (decide (a.2 = b.2) && decide (a.1 ≤ b.1))) syms) none

/-- `dtab` (R304). -/
def execDtab (h : Hdr) (x : Eng) (s : State) : Answer :=
  s.onceWord (.dtab h x) h fun u t _ l s =>
    let a := (l.reg x.a.toNat).toNat
    let ls := (linesOf a 256).map fun n => (Space.sh, n)
    if a % 256 != 0 || !s.granted t l.tid .sh a 256 then u.all s 0x11 (BitVec.ofNat 64 a)
    else if !s.linesPresent u.team ls then s.parkLines u ls
    else
      let (s, bs, _) := (s.noteRead u .sh [a, a + 128]).unitRead u.team .sh a 256
      match codeOf bs with
      | none => u.all s 0x01 0
      | some c => .done (s.updTeam u.team fun t => { t with tables := t.tables.set (x.opx.toNat % 4) (some c) }) []

/-- `decod` (R305). DEDUCED (notes/assumptions/42). -/
def execDecod (h : Hdr) (x : Eng) (s : State) : Answer :=
  s.onceWord (.decod h x) h fun u t j l s =>
    let spc := spaceOf (x.opx.getLsbD 2)
    let d := (l.reg x.d.toNat).toNat
    let a := l.pair x.a.toNat
    let outLen := (l.reg x.b.toNat).toNat
    let srcLen := (l.reg (x.b.toNat + 1)).toNat
    let lenOk (n : Nat) : Bool := decide (1 ≤ n) && decide (n ≤ 2 ^ 24)
    match t.tables.getD (x.opx.toNat % 4) none with
    | none => u.all s 0x01 0
    | some code =>
      if !lenOk outLen || !lenOk srcLen then
        let (w, s) := s.freeWord
        u.all s 0x11 w
      else if d % 16 != 0 || !s.granted t l.tid spc d outLen then u.all s 0x11 (BitVec.ofNat 64 d)
      else if 2 ^ 56 ≤ a.toNat then u.all s 0x11 a
      else
        let (num, s') := s.fresh
        let o := s'.laneOp u j num (.decode d (a.setWidth 56) outLen srcLen code) (.queue x.cq.toNat) spc
          (s.copyEvp u 0) false none
        if !s.queueRoom u.team x.cq.toNat 1 || (s.localOf t spc).full o.dstLines then .hold s
        else .done ((s'.raiseLines u.team spc o.dstLines).addOp o) []

-- events: stamps

/-- Changes the batch of a queue with a place in closing order. -/
def CopyQueue.updBatch (q : CopyQueue) (seq : Nat) (f : Batch → Batch) : CopyQueue :=
  { q with closed := q.closed.map fun b => if b.seq = seq then f b else b }

/-- A stamp's value (R299). -/
def Batch.stampValue (b : Batch) : Nat := b.seq % 2 ^ 24 * 2 ^ 40 + b.time.toNat % 2 ^ 40

/-- A written stamp: its batch is gone. -/
def State.stampDone (s : State) (team n seq : Nat) : State := s.updQueue team n fun q => q.delivered seq

/-- A stamp that cannot be written: its batch records the fault (R298, R299). -/
def State.stampFault (s : State) (t : Team) (n : Nat) (b : Batch) (x : Stamp) (code : Byte) : State :=
  let f : BatchFault := { code := code, pc := x.pc, info0 := 0, addr := BitVec.ofNat 64 x.addr, op := 0 }
  s.updQueue t.id n fun q => q.updBatch b.seq fun b => { b.fail f with stamp := none }

/-- Writes a batch's stamp (R298, R299, R391). -/
def State.putStamp (s : State) (t : Team) (n : Nat) (b : Batch) (x : Stamp) : State :=
  let data := bytesOf 8 b.stampValue
  if x.kind ≠ 3 then (s.land t.id x.space x.addr data (linesOf x.addr 8)).stampDone t.id n b.seq
  else
    let ctx := s.ctxOf t
    match s.xlate ctx x.addr permWrite with
    | (s, .ok l _, ia) =>
      let who : Writer := { writer := BitVec.ofNat 12 t.core, log := some (t.id, x.tid / 32) }
      (s.locWrite l data who ia ctx).stampDone t.id n b.seq
    | (s, .fault, _) => s.stampFault t n b x 0x11
    | (s, .lost, _) => s.stampFault t n b x 0x18
    | (s, .nonres k page big, _) =>
      (s.updQueue t.id n fun q => q.updBatch b.seq fun b => { b with stamp := some { x with wait := some (k, page) } }).pageFault
        k page big permWrite.kind ctx t.core false

/-- Begins the release before a stamp (R299): at system scope the lines of the queue's writes are written back. -/
def State.beginStamp (s : State) (t : Team) (n : Nat) (b : Batch) (x : Stamp) : State × W64 :=
  let margin := BitVec.ofNat 64 (s.margin x.scope)
  if x.scope = .system then
    let (s, ct) := s.systemRelease [] (t.queue n).wrote b.time (s.timeAt t.core)
    (s.updQueue t.id n fun q => { q with wrote := [] }, ct + margin)
  else (s, b.time + margin)

/-- STAMP_WRITE (R299): the subject names team and queue, whose oldest stamp to be written is meant. -/
def execStampWrite (s : State) : Answer :=
  match s.subject with
  | .unit2 team n =>
    match s.team? team with
    | none => .next s
    | some t =>
      match (t.queue n).closed.find? fun b => b.complete && b.stamp.isSome with
      | none => .next s
      | some b => match b.stamp with
        | none => .next s
        | some x =>
          if x.wait.isSome then .next s else
          let (s, at_) := match b.stampAt with
            | some w => (s, w)
            | none => s.beginStamp t n b x
          let s := s.updQueue team n fun q => q.updBatch b.seq fun b => { b with stampAt := some at_ }
          if s.timeAt t.core < at_ then .next s else .next ((s.putStamp t n b x).settle)
  | _ => .next s

-- events: chains

/-- A bit of word 3 of a transfer record (R302). -/
def recBit (w : List W64) (n : Nat) : Bool := bit (w.getD 3 0) n

/-- The check of a transfer record (R303): LD is held to no bound of its own. DESIGN CHOICE (notes/assumptions/62). -/
def recOk (w : List W64) : Bool :=
  let x (i : Nat) : Nat := (w.getD i 0).toNat
  let ld := fieldN (x 3) 41 38
  fieldN (x 0) 63 56 == 0 && fieldN (x 0) 5 0 == 0 && fieldN (x 3) 63 43 == 0 && x 5 == 0 && x 6 == 0 &&
    fieldN (x 7) 62 0 == 0 && recDir w != 3 && recLen w % 16 == 0 && decide (recLen w ≤ 2 ^ 24) && x 1 % 16 == 0 &&
    x 2 % 16 == 0 && x 4 % 8 == 0 && (!recBit w 37 || recDir w == 0) && (ld == 0 || recBit w 37)

/-- The copy that a record asks for, as an operation of the chain (R303). A chain of a predicted-last group raises the EVP of
its records by one (R164, R235). -/
def EngOp.recordOp (o : EngOp) (w : List W64) : EngOp :=
  let src := w.getD 1 0
  let dst := w.getD 2 0
  let n := recLen w
  let kind : OpKind := match recDir w with
    | 0 => .copyIn dst.toNat (src.setWidth 56) n
    | 1 => .copyOut src.toNat (dst.setWidth 56) n
    | _ => .copyIn 0 (src.setWidth 56) n
  { o with kind := kind, evp := BitVec.ofNat 2 (min 3 (fieldN (w.getD 3 0).toNat 35 34 + o.evp.toNat)), lu := recBit w 36,
           lease := if recBit w 37 then some (fieldN (w.getD 3 0).toNat 41 38) else none, expiries := [], bad := none }

/-- The destination side of a main-to-main record. -/
def EngOp.recordDst (o : EngOp) (w : List W64) : EngOp :=
  { o.recordOp w with kind := .copyOut 0 ((w.getD 2 0).setWidth 56) (recLen w), lu := false, lease := none }

/-- Whether a record's main addresses fit 56 bits and its local range lies in the grant (R302, R303). -/
def State.recordGranted (s : State) (o : EngOp) (w : List W64) : Bool :=
  let src := (w.getD 1 0).toNat
  let dst := (w.getD 2 0).toNat
  let inGrant (a : Nat) : Bool := match s.team? o.team with
    | some t => recLen w == 0 || s.granted t o.tid o.sp a (recLen w)
    | none => false
  match recDir w with
  | 0 => decide (src < 2 ^ 56) && inGrant dst && o.owner.isTeams
  | 1 => inGrant src && decide (dst < 2 ^ 56) && o.owner.isTeams
  | _ => decide (src < 2 ^ 56) && decide (dst < 2 ^ 56)

/-- Reads pieces of main memory and tells where the bad words of the data begin (R360). -/
def State.readBad (s : State) (o : EngOp) : List Piece → List Byte → List Int → State × EngOp × List Byte × List Int
  | [], data, bad => (s, o, data, bad)
  | p :: rest, data, bad =>
    let (s, r) := s.readPiece o.ctx o.lease o.evp p
    let s := if o.lu then s.lastUse p rest else s
    s.readBad (o.noteBad 0x18 r.bad p.va) rest (data ++ r.data) (bad ++ (r.words.map fun w => w + (p.off : Int)))

/-- Whether a bad word among those that begin at some offsets meets a range. -/
def meetsBad (bad : List Int) (off n : Nat) : Bool := bad.any fun b => decide (b < off + n) && decide ((off : Int) < b + 4)

/-- Writes the pieces of a main-to-main record from its data. -/
def State.writeData (s : State) (o : EngOp) (data : List Byte) (bad : List Int) : List Piece → Nat → State × Nat
  | [], held => (s, held)
  | p :: rest, held =>
    let poison := meetsBad bad p.off p.len
    let (s, n) := s.writePiece o p ((data.drop p.off).take p.len) poison
    s.writeData o data bad rest (held + n)

/-- Makes the copy of a record whose passes are clear (R303): the operation with what it found, and the lines its writes
made dirty. -/
def State.recordMove (s : State) (o : EngOp) (w : List W64) (ps qs : List Piece) : State × EngOp × List (Nat × Nat) :=
  let x := o.recordOp w
  let now := s.opTime o
  let fin (s : State) (y : EngOp) (held : Nat) (ls : List (Nat × Nat)) : State × EngOp × List (Nat × Nat) :=
    (s, { o with bad := y.bad, left := held, time := if o.time < now then now else o.time }, ls)
  match recDir w with
  | 0 =>
    let (s, y, _) := s.moveIn x (fun _ => true) ps []
    fin (x.dstLines.foldl (fun (s : State) n => s.retireLine o.team o.sp n (y.lineLease ps n)) s) y 0 []
  | 1 =>
    let (s, y, _) := s.moveOut x (fun _ => true) (x.byLine ps) []
    fin s y (y.left - x.left) (ps.flatMap fun p => p.loc.lines p.len)
  | _ =>
    let (s, y, data, bad) := s.readBad x ps [] []
    let dead := qs.find? fun p => s.deadSpot p.loc
    let y := y.noteBad 0x18 (dead.map fun _ => 0) (match dead with | some p => p.va | none => 0)
    let (s, held) := s.writeData o data bad qs 0
    fin (s.noteWrote o (qs.flatMap fun p => p.loc.lines p.len)) y held (qs.flatMap fun p => p.loc.lines p.len)

/-- Begins the release over a record's writes (R303, R268), or leaves it to wait for those held for leases. -/
def State.recordRelease (s : State) (num : Nat) (scope : Scope) (w : List W64) (ls : List (Nat × Nat)) : State :=
  match s.op? num with
  | none => s
  | some o =>
    if o.left ≠ 0 then s.updOp num fun o => { o with phase := .record w ls }
    else
      let margin := BitVec.ofNat 64 (s.margin scope)
      let (s, t) := if scope = .system then s.systemRelease [] ls o.time (s.opTime o) else (s, o.time)
      s.updOp num fun o => { o with phase := .releasing (t + margin) w }

/-- A chain's fault, naming the record at `p` (R303). -/
def State.chainFault (s : State) (o : EngOp) (p : VAddr) (code : Byte) (sel : W64) : State :=
  (s.endOp o o.time (some (o.faultOf code sel (p.setWidth 64)))).settle

/-- Probes and performs the record `w` at `p`, whose lines are pending: a copy that fails its probe retires them (R227). -/
def State.chainCopy (s : State) (o : EngOp) (p : VAddr) (scope : Scope) (w : List W64) : State :=
  let x := o.recordOp w
  let mine := if recDir w = 0 then x.dstLines else []
  match s.probe x with
  | (s, .fault code i _) => (s.land o.team o.sp 0 [] mine).chainFault o p code i
  | (s, .suspend pw) => (s.suspendOp o pw (if x.kind.isOut then permWrite else permRead)).settle
  | (s, .notYet) => s
  | (s, .ok ps) =>
    match (if recDir w = 2 then s.probe (o.recordDst w) else (s, .ok [])) with
    | (s, .fault code i _) => s.chainFault o p code i
    | (s, .suspend pw) => (s.suspendOp o pw permWrite).settle
    | (s, .notYet) => s
    | (s, .ok qs) =>
      let srcLines := match x.kind with | .copyOut a _ n => (linesOf a n).map fun k => (o.sp, k) | _ => []
      if !srcLines.isEmpty && !srcLines.all (fun l => s.sourceReady o l.2) then s.refetchLines o.team srcLines
      else if !((if recDir w = 1 then ps else qs).all s.pieceRoom) then s
      else
        let (s, o', ls) := s.recordMove o w ps qs
        let s := s.updOp o.num fun _ => o'
        match o'.bad with
        | some (code, i, _) => s.chainFault o' p code i
        | none => s.recordRelease o.num scope w ls

/-- A write the walk makes itself: a stamp, or OWN (R303): one of the operation's writes, which it waits for where it is held
for a lease (R273, R294, R299); the code of its fault, or the page it waits for, where it is not made. -/
def State.chainWrite (s : State) (o : EngOp) (a : Nat) (data : List Byte) : State × Except (Byte ⊕ PageWait) Unit :=
  match s.xlate o.ctx a permWrite with
  | (s, .ok l _, ia) =>
    let (s, held) := s.writePiece o { off := 0, len := data.length, va := a, ia := ia, loc := l } data false
    let now := s.opTime o
    let s := s.updOp o.num fun o => { o with left := o.left + held, time := if o.time < now then now else o.time }
    (s.noteWrote o (l.lines data.length), .ok ())
  | (s, .fault, _) => (s, .error (.inl 0x11))
  | (s, .lost, _) => (s, .error (.inl 0x18))
  | (s, .nonres k page big, _) => (s, .error (.inr { stack := k, page := page, big := big }))

/-- Whether every write of an operation has been performed. -/
def State.opWritten (s : State) (num : Nat) : Bool := match s.op? num with
  | some o => o.left == 0
  | none => true

/-- A record's write that is not made: a fault ends the walk, a page that is not resident is waited for. -/
def State.chainStuck (s : State) (o : EngOp) (p : VAddr) : Byte ⊕ PageWait → State
  | .inl code => s.chainFault o p code 0
  | .inr pw => (s.suspendOp o pw permWrite).settle

/-- Goes on to the next record (R303). -/
def State.chainNext (s : State) (o : EngOp) (ord : Nat) (scope : Scope) (w : List W64) : State :=
  let next : VAddr := BitVec.ofNat 56 (fieldN (w.getD 0 0).toNat 55 6 * 64)
  s.updOp o.num fun o => { o with kind := .chain next (ord + 1) scope, phase := .issued, again := none }

/-- Writes OWN := 0 of a record (R303), unless that has been done: its word 7 then reads 0 in `w`. -/
def State.chainOwn (s : State) (o : EngOp) (p : VAddr) (ord : Nat) (scope : Scope) (at_ : W64) (w : List W64) : State :=
  if !bit (w.getD 7 0) 63 then s.chainNext o ord scope w
  else match s.chainWrite o (p.toNat + 0x38) (List.replicate 8 0) with
    | (s, .error e) => s.chainStuck o p e
    | (s, .ok _) =>
      if s.opWritten o.num then s.chainNext o ord scope w
      else s.updOp o.num fun o => { o with phase := .releasing at_ (w.set 7 0) }

/-- Ends a record whose release is over (R303): stamp, then OWN := 0, then the next record, each once the writes before it
are performed. A record whose stamp is written reads with STE = 0 in `w`. -/
def State.chainFinish (s : State) (o : EngOp) (p : VAddr) (ord : Nat) (scope : Scope) (at_ : W64) (w : List W64) : State :=
  if o.left ≠ 0 then s
  else if !recBit w 42 then s.chainOwn o p ord scope at_ w
  else
    let stamp := bytesOf 8 ((ord + 1) % 2 ^ 24 * 2 ^ 40 + o.time.toNat % 2 ^ 40)
    match s.chainWrite o (w.getD 4 0).toNat stamp with
    | (s, .error e) => s.chainStuck o p e
    | (s, .ok _) =>
      let w := w.set 3 (w.getD 3 0 &&& ~~~((1 : W64) <<< 42))
      let s := s.updOp o.num fun o => { o with phase := .releasing at_ w }
      if s.opWritten o.num then s.chainOwn o p ord scope at_ w else s

/-- Reads the record at `p` (R303): an end of the walk, a fault, or its copy. -/
def State.chainRead (s : State) (o : EngOp) (p : VAddr) (scope : Scope) : State :=
  match s.xlate o.ctx p.toNat permRead with
  | (s, .fault, _) => s.chainFault o p 0x11 0
  | (s, .lost, _) => s.chainFault o p 0x18 0
  | (s, .nonres k page big, _) => (s.suspendOp o { stack := k, page := page, big := big } permRead).settle
  | (s, .ok l _, ia) =>
    let (s, data, sel) := match l with
      | .dev k a => let (s, r) := s.devRead k a 64 o.ctx ia true (some o.evp); (s, r.data, if r.bad then some r.sel else none)
      | l => (s, s.locPeek l 64, none)
    match sel with
    | some x => s.chainFault o p 0x18 (match x with | some n => BitVec.ofNat 64 n | none => 0)
    | none =>
      let w := (List.range 8).map fun i => BitVec.ofNat 64 (ofBytes ((data.drop (8 * i)).take 8))
      if !bit (w.getD 7 0) 63 then (s.endOp o o.time none).settle
      else if !recOk w || !s.recordGranted o w then s.chainFault o p 0x11 0
      else
        let ls := if recDir w = 0 then (o.recordOp w).dstLines else []
        let full := match s.team? o.team with
          | some t => (s.localOf t o.sp).full ls
          | none => false
        if full && !ls.isEmpty then s
        else ((s.raiseLines o.team o.sp ls).updOp o.num fun o => { o with phase := .record1 w }).chainCopy o p scope w

/-- CHAIN_RECORD (R303): the subject names the operation; its walk goes one step on. -/
def execChainRecord (s : State) : Answer :=
  match s.subject with
  | .unit num =>
    match s.op? num with
    | none => .next s
    | some o => match o.kind with
      | .chain p ord scope =>
        if !s.mayStart o || !s.inOrder o then .next s
        else match o.phase with
          | .issued => if p = 0 then .next ((s.endOp o o.time none).settle) else .next (s.chainRead o p scope)
          | .record1 w => .next (s.chainCopy o p scope w)
          | .record w ls => .next (s.recordRelease num scope w ls)
          | .releasing at_ w => if s.opTime o < at_ then .next s else .next (s.chainFinish o p ord scope at_ w)
          | _ => .next s
      | _ => .next s
  | _ => .next s

-- events: decodes

/-- Whether a code stands at the head of some bits. -/
def CodeSym.heads (c : CodeSym) (bs : List (Bool × Bool)) : Bool :=
  decide (c.len ≤ bs.length) && (bs.take c.len).foldl (fun n b => 2 * n + (if b.1 then 1 else 0)) 0 == c.code

/-- Decodes `n` symbols (R305): the bytes, each with whether a bad source word fed it. It stops where no code matches. -/
def decodeBits (code : List CodeSym) : Nat → List (Bool × Bool) → List (Byte × Bool)
  | 0, _ => []
  | n + 1, bs =>
    match code.find? fun c => c.heads bs with
    | none => []
    | some c => (c.sym, (bs.take c.len).any (·.2)) :: decodeBits code n (bs.drop c.len)

/-- The bits of a stream, bit 7 of its first byte first (R305). -/
def streamBits (bytes : List (Byte × Bool)) : List (Bool × Bool) :=
  bytes.flatMap fun (b, bad) => [7, 6, 5, 4, 3, 2, 1, 0].map fun i => (b.getLsbD i, bad)

/-- The output of a decode (R305, R360): every 4-byte word that a bad word fed is poison. -/
def decodeOutput (out : List (Byte × Bool)) (n : Nat) : List Byte :=
  let all := out ++ List.replicate (n - out.length) (0, false)
  all.zipIdx.map fun (b, i) =>
    if ((all.drop (i / 4 * 4)).take 4).any (·.2) then byteOf poisonWord (i % 4) else b.1

/-- DECODE_RUN (R305): the subject names the operation, whose probe pass is over. -/
def execDecodeRun (s : State) : Answer :=
  match s.subject with
  | .unit num =>
    match s.op? num with
    | none => .next s
    | some o => match o.phase, o.kind with
      | .probed todo _, .decode dst _ outLen _ code =>
        if !s.inOrder o then .next s else
        let (s, o, data, bad) := s.readBad o todo [] []
        let src := data.zipIdx.map fun (b, i) => (b, meetsBad bad i 1)
        let out := decodeBits code outLen (streamBits src)
        let s := s.land o.team o.sp dst (decodeOutput out outLen) (linesOf dst outLen)
        let (w, s') := s.freeWord
        let short := decide (out.length < outLen)
        let now := s.opTime o
        match o.badFault with
        | some f => .next ((s.endOp o now (some f)).settle)
        | none =>
          if short then .next ((s'.endOp o now (some (o.faultOf 0x11 0 w))).settle)
          else .next ((s.endOp o now none).settle)
      | _, _ => .next s
  | _ => .next s

end Sys2Proof.Machine
end

