-- ==== Sys2Proof/Machine/Registers.lean ====
section
/-! DEFINITION. Special registers (R25-R31, R117), the privileged special registers and what writing them does (R153,
R156, R379-R381, R394, R396), and the events that are such writes. -/
namespace Sys2Proof.Machine

-- launch queues

/-- Changes one launch queue. -/
def State.updLq (s : State) (q : Nat) (f : LaunchQueue → LaunchQueue) : State := { s with lqs := modifyAt s.lqs q f }

def State.lq (s : State) (q : Nat) : LaunchQueue := s.lqs.getD q LaunchQueue.reset

/-- LQ_BASE keeps bits [55:7] (R153). -/
def lqBaseMask : W64 := 0x00FFFFFFFFFFFF80

/-- A write of LQ_BASE: ignored while EN is 1 (R153). -/
def State.writeLqBase (s : State) (q : Nat) (v : W64) : State :=
  s.updLq q fun x => if x.en then x else { x with base := v &&& lqBaseMask }

/-- A queue that stops consuming forgets the record it has read (R155). -/
def QueueWait.forget : QueueWait → QueueWait
  | .clear => .clear
  | _ => .none

/-- A write of LQ_CFG under the EN rules (R153). -/
def State.writeLqCfg (s : State) (q : Nat) (v : W32) : State :=
  let en := v.getLsbD 6
  let n := v.toNat % 32
  s.updLq q fun x =>
    if x.en then { x with en := en, wait := if en then x.wait else x.wait.forget }
    else { x with en := en, priv := v.getLsbD 5, log2 := if 4 ≤ n ∧ n ≤ 16 then n else x.log2 }

/-- A write of LQ_TAIL wakes the launch unit (R153, R155). -/
def State.writeLqTail (s : State) (q : Nat) (v : W32) : State :=
  s.updLq q fun x => { x with tail := v, wait := match x.wait with | .valid _ => .none | w => w }

/-- Who makes an access for a launch queue (R382 source 1). -/
def LaunchQueue.who (x : LaunchQueue) : PartWho := { src := 1, ctx := x.ctx, core := 0, part := true, raises := true }

/-- Clears VALID in the record at HEAD and advances HEAD (R155, R156); a fault stops the queue with code 0x06, and a page
that is not resident makes it wait (R382). All of the word that holds VALID becomes 0. DEDUCED
(notes/assumptions/22). -/
def State.dropRecord (s : State) (q : Nat) : State :=
  let x := s.lq q
  match s.partWrite (.va x.ctx (x.slot x.head + 0x78)) (List.replicate 8 0) x.who with
  | (s, .ok _) => s.updLq q fun x => { x with head := x.head + 1, wait := .none }
  | (s, .fault) => s.updLq q fun x => { x with code := 0x06, wait := .none }
  | (s, .nonres) => s.updLq q fun x => { x with wait := .clear }

/-- A write of LQ_ERR: CODE is cleared bit by bit; SKIP with the last of them drops the failed record (R156). -/
def State.writeLqErr (s : State) (q : Nat) (v : W32) : State :=
  let old := (s.lq q).code
  let code := old &&& ~~~(v.setWidth 8)
  let s := s.updLq q fun x => { x with code := code }
  if old ≠ 0 ∧ code = 0 ∧ v.getLsbD 8 then s.dropRecord q else s

/-- LQ_CTX as a word (R380). -/
def LaunchQueue.ctxWord (x : LaunchQueue) : W32 :=
  BitVec.ofNat 32 ((if x.pin then 2 ^ 31 else 0) + x.die * 2 ^ 28 + x.ctx)

/-- A write of LQ_CTX (R380). -/
def State.writeLqCtx (s : State) (q : Nat) (v : W32) : State :=
  s.updLq q fun x => { x with pin := v.getLsbD 31, die := v.toNat / 2 ^ 28 % 4, ctx := v.toNat % 2 ^ 16 }

/-- LQ_CFG as a word (R153). -/
def LaunchQueue.cfgWord (x : LaunchQueue) : W32 :=
  BitVec.ofNat 32 ((if x.en then 64 else 0) + (if x.priv then 32 else 0) + x.log2)

-- translation and residency registers

/-- One half of a 64-bit register replaced. -/
def putHalf (old : W64) (hi : Bool) (v : W32) : W64 := if hi then join32 (lo32 old) v else join32 v (hi32 old)

def getHalf (w : W64) (hi : Bool) : W32 := if hi then hi32 w else lo32 w

/-- A write of `$ctxbase`, 64 KiB aligned, drops every cached descriptor (R381). -/
def State.writeCtxBase (s : State) (v : W64) : State :=
  { s with priv := { s.priv with ctxbase := v &&& 0xFFFFFFFFFFFF0000, descs := [] } }

/-- A write of `$ctxinv` (R381). -/
def State.writeCtxInv (s : State) (v : W32) : State :=
  { s with priv := { s.priv with descs := dropN s.priv.descs (v.toNat % 2 ^ 16) } }

/-- A write of `$fbstat`: DROP is cleared by writing 1 (R394). -/
def State.writeFbStat (s : State) (v : W32) : State :=
  if v.getLsbD 31 then { s with coll := { s.coll with drop := false } } else s

/-- Who makes the accesses of the fault collector (R382 source 6). -/
def State.collWho (s : State) : PartWho := { src := 6, ctx := s.priv.sysctx.toNat, core := 0, part := true, raises := true }

/-- Whether a slot of the fault buffer is held: filled, its release over (R394, R400). -/
def Collector.occ (c : Collector) (i : Nat) : Bool := (c.slots.getD i none).isSome && (lookupN c.fills i).isNone

/-- Frees one slot of the fault buffer: V := 0 in memory; a slot that cannot be written is freed all the same and DROP is
set (R382, R394). One that is being filled is not held yet. DEDUCED (notes/assumptions/34). -/
def State.freeSlot (s : State) (i : Nat) : State :=
  if (lookupN s.coll.fills i).isSome then s else
  let s := { s with coll := { s.coll with slots := s.coll.slots.set i none } }
  match s.partWrite (.va s.priv.sysctx.toNat (s.coll.addr.toNat + 32 * i + 7)) [0] s.collWho with
  | (s, .ok _) => s
  | (s, _) => { s with coll := { s.coll with drop := true } }

/-- A write of `$fback` frees the slots its mask names (R394). -/
def State.writeFback (s : State) (v : W32) : State :=
  ((List.range 8).filter fun i => v.getLsbD i).foldl (fun s i => s.freeSlot i) s

/-- `$fbstat` (R394). -/
def Collector.stat (c : Collector) : W32 :=
  BitVec.ofNat 32 ((if c.drop then 2 ^ 31 else 0) +
    ((List.range 8).filter c.occ).foldl (fun m i => m + 2 ^ i) 0)

/-- A write of `$ptb` and `$ptbh` (R379); the walk starts at the stack-physical address in the low 36 bits (R383). -/
def State.writePtb (s : State) (k : Nat) (v : W64) : State := s.updStack k fun x => { x with root := v }

/-- A write of `$stkstat`: MALF is cleared by writing 1 (R379). -/
def State.writeStkStat (s : State) (k : Nat) (v : W32) : State :=
  if v.getLsbD 31 then s.updStack k fun x => { x with malf := false } else s

/-- `$stkstat` (R379). -/
def Stack.stat (x : Stack) : W32 := BitVec.ofNat 32 ((if x.malf then 2 ^ 31 else 0) + x.pages.length)

/-- A write of `$felttail` wakes Felt (R396). -/
def State.writeFeltTail (s : State) (v : W32) : State := { s with felt := { s.felt with tail := v, stopped := false } }

-- by index

/-- The value of a privileged special register (R379); a write-only one reads zero. -/
def State.readPriv (s : State) (n : Nat) : W32 :=
  let q := s.lq s.priv.lqsel
  let k := s.stack s.priv.stksel
  match n with
  | 0x40 => BitVec.ofNat 32 s.priv.lqsel
  | 0x41 => lo32 q.base
  | 0x42 => hi32 q.base
  | 0x43 => q.cfgWord
  | 0x44 => q.tail
  | 0x45 => q.head
  | 0x46 => q.code.setWidth 32
  | 0x47 => q.ctxWord
  | 0x50 => lo32 s.priv.ctxbase
  | 0x51 => hi32 s.priv.ctxbase
  | 0x58 => lo32 s.coll.addr
  | 0x59 => hi32 s.coll.addr
  | 0x5A => lo32 s.coll.door
  | 0x5B => hi32 s.coll.door
  | 0x5C => s.coll.stat
  | 0x60 => BitVec.ofNat 32 s.priv.stksel
  | 0x61 => lo32 k.root
  | 0x62 => hi32 k.root
  | 0x63 => k.stat
  | 0x68 => lo32 s.felt.base
  | 0x69 => hi32 s.felt.base
  | 0x6A => s.felt.tail
  | 0x6B => s.felt.head
  | 0x70 => s.priv.rsvcore
  | 0x71 => s.priv.sysctx.setWidth 32
  | _ => 0

/-- A write of a privileged special register (R379). -/
def State.writePriv (s : State) (n : Nat) (v : W32) : State :=
  let q := s.priv.lqsel
  let k := s.priv.stksel
  match n with
  | 0x40 => { s with priv := { s.priv with lqsel := v.toNat % 16 } }
  | 0x41 => s.writeLqBase q (putHalf (s.lq q).base false v)
  | 0x42 => s.writeLqBase q (putHalf (s.lq q).base true v)
  | 0x43 => s.writeLqCfg q v
  | 0x44 => s.writeLqTail q v
  | 0x46 => s.writeLqErr q v
  | 0x47 => s.writeLqCtx q v
  | 0x50 => s.writeCtxBase (putHalf s.priv.ctxbase false v)
  | 0x51 => s.writeCtxBase (putHalf s.priv.ctxbase true v)
  | 0x52 => s.writeCtxInv v
  | 0x58 => { s with coll := { s.coll with addr := putHalf s.coll.addr false v &&& 0xFFFFFFFFFFFFFF00 } }
  | 0x59 => { s with coll := { s.coll with addr := putHalf s.coll.addr true v } }
  | 0x5A => { s with coll := { s.coll with door := putHalf s.coll.door false v &&& 0xFFFFFFFFFFFFFFF8 } }
  | 0x5B => { s with coll := { s.coll with door := putHalf s.coll.door true v } }
  | 0x5C => s.writeFbStat v
  | 0x5D => s.writeFback v
  | 0x60 => { s with priv := { s.priv with stksel := v.toNat % 8 } }
  | 0x61 => s.writePtb k (putHalf (s.stack k).root false v)
  | 0x62 => s.writePtb k (putHalf (s.stack k).root true v)
  | 0x63 => s.writeStkStat k v
  | 0x68 => { s with felt := { s.felt with base := putHalf s.felt.base false v &&& 0xFFFFFFFFFFFFE000 } }
  | 0x69 => { s with felt := { s.felt with base := putHalf s.felt.base true v } }
  | 0x6A => s.writeFeltTail v
  | 0x70 => { s with priv := { s.priv with rsvcore := v } }
  | 0x71 => { s with priv := { s.priv with sysctx := v.setWidth 16 } }
  | _ => s

-- rdsr and wrsr

/-- What `rdsr` gives a lane of a bundle (R25, R27-R32). -/
def State.specialValue (s : State) (u : Bun) (n slot : Nat) (l : Lane) : W64 :=
  let w (k : Nat) : W64 := BitVec.ofNat 64 k
  let t := s.team? u.team
  let tn (f : Team → Nat) : W64 := match t with | some x => w (f x) | none => 0
  let gn (f : Gang → Nat) : W64 := match t.bind fun x => s.gang? x.gang with | some g => w (f g) | none => 0
  match n with
  | 0x00 => w l.tid
  | 0x01 => w slot
  | 0x02 => w (slot / 4)
  | 0x03 => w u.group
  | 0x04 => tn (·.index)
  | 0x05 => gn (·.indexOf l.tid)
  | 0x06 => w u.core
  | 0x07 => w (clusterOf u.core)
  | 0x08 => w (dieOf u.core)
  | 0x09 => tn (·.size)
  | 0x0A => gn (·.size)
  | 0x0B => match t.bind s.teamLaunch with | some x => w x.grid | none => 0
  | 0x10 => s.timeAt u.core
  | 0x11 => l.param
  | 0x12 => w u.ctx
  | 0x13 => w ((if l.hnd then 2 else 0) + (if u.priv then 1 else 0))
  | 0x18 => l.fpstat.setWidth 64
  | 0x19 => l.trapen.setWidth 64
  | 0x1A => l.spill.setWidth 64
  | 0x1B => w l.loops.length
  | 0x1C => match l.loops with | e :: _ => e.count.setWidth 64 | [] => 0
  | 0x1D => l.prio.setWidth 64
  | _ => (s.readPriv n).setWidth 64

/-- Registers that `rdsr` writes. -/
def specialRegs (n d : Nat) (v : W64) : List (Nat × W32) :=
  if srWide n then [(d, lo32 v), (d + 1, hi32 v)] else [(d, lo32 v)]

/-- `rdsr` (R117). -/
def execRdsr (h : Hdr) (x : Arith) (s : State) : Answer :=
  s.runWord (.rdsr h x) h fun u s =>
    let n := x.a.toNat
    .done (s.mapLanes u u.act fun j l => l.setRegs (specialRegs n x.d.toNat (s.specialValue u n j l))) []

/-- A write of one of a lane's own special registers (R28-R31, R117). -/
def Lane.writeSpecial (l : Lane) (n : Nat) (v : W32) : Lane :=
  match n with
  | 0x18 => { l with fpstat := v &&& 0x7F }
  | 0x19 => { l with trapen := v &&& 0x3 }
  | 0x1A => { l with spill := v &&& 0x3FFF0 }
  | _ => l

/-- `wrsr` (R117): each lane's own register, or one part-wide write for each live lane of P in ascending slot. -/
def execWrsr (h : Hdr) (x : Arith) (s : State) : Answer :=
  s.runWord (.wrsr h x) h fun u s =>
    let n := x.d.toNat
    if 0x40 ≤ n then .done (u.plive.foldl (fun s j => s.writePriv n ((s.lane u j).reg x.a.toNat)) s) []
    else .done (s.mapLanes u u.act fun _ l => l.writeSpecial n (l.reg x.a.toNat)) []

-- events: writes that have an effect of their own

/-- LQ_TAIL_WRITE (R155): a write of a queue's TAIL; the subject names queue and value. -/
def execLqTailWrite (s : State) : Answer :=
  if !s.hostMay then .next s else
  match s.subject with
  | .write q v => .next (s.writeLqTail q (lo32 v))
  | _ => .next s

/-- LQ_CFG_WRITE (R153). -/
def execLqCfgWrite (s : State) : Answer :=
  if !s.hostMay then .next s else
  match s.subject with
  | .write q v => .next (s.writeLqCfg q (lo32 v))
  | _ => .next s

/-- LQ_ERR_SKIP (R156): SKIP with every set bit of CODE. -/
def execLqErrSkip (s : State) : Answer :=
  if !s.hostMay then .next s else
  match s.subject with
  | .write q v => if bit v 8 then .next (s.writeLqErr q (lo32 v)) else .next s
  | _ => .next s

/-- LQ_ERR_RESUME (R156): CODE cleared without SKIP. -/
def execLqErrResume (s : State) : Answer :=
  if !s.hostMay then .next s else
  match s.subject with
  | .write q v => if bit v 8 then .next s else .next (s.writeLqErr q (lo32 v))
  | _ => .next s

/-- FBACK_WRITE (R394). -/
def execFbackWrite (s : State) : Answer :=
  if !s.hostMay then .next s else
  match s.subject with
  | .write _ v => .next (s.writeFback (lo32 v))
  | _ => .next s

/-- FBSTAT_WRITE (R394). -/
def execFbstatWrite (s : State) : Answer :=
  if !s.hostMay then .next s else
  match s.subject with
  | .write _ v => .next (s.writeFbStat (lo32 v))
  | _ => .next s

/-- CTXINV_WRITE (R381). -/
def execCtxinvWrite (s : State) : Answer :=
  if !s.hostMay then .next s else
  match s.subject with
  | .write _ v => .next (s.writeCtxInv (lo32 v))
  | _ => .next s

/-- CTXBASE_WRITE (R381): half 0 or 1 of the register. -/
def execCtxbaseWrite (s : State) : Answer :=
  if !s.hostMay then .next s else
  match s.subject with
  | .write half v => .next (s.writeCtxBase (putHalf s.priv.ctxbase (half == 1) (lo32 v)))
  | _ => .next s

/-- STKSTAT_WRITE (R379): the subject names the stack. -/
def execStkstatWrite (s : State) : Answer :=
  if !s.hostMay then .next s else
  match s.subject with
  | .write k v => .next (s.writeStkStat k (lo32 v))
  | _ => .next s

/-- FELTTAIL_WRITE (R396). -/
def execFelttailWrite (s : State) : Answer :=
  if !s.hostMay then .next s else
  match s.subject with
  | .write _ v => .next (s.writeFeltTail (lo32 v))
  | _ => .next s

end Sys2Proof.Machine
end

