-- ==== Sys2Proof/Machine/Serge.lean ====
section
/-! DEFINITION. Stream queues and Serge processors: `sgo`, `qpop`, `qstat`, `apush` and `aseg` (R306-R311), and the events
of a Serge word (R307) and of an arriving unit (R308). -/
namespace Sys2Proof.Machine

-- stream queues

def State.stream? (s : State) (core q : Nat) : Option StreamQueue := s.streams.find? fun x => x.core == core && x.q == q

/-- Stores a stream queue. -/
def State.setStream (s : State) (x : StreamQueue) : State :=
  { s with streams := x :: s.streams.filter fun y => !(y.core == x.core && y.q == x.q) }

/-- Whether a queue is held by its team (R306): its program runs, or something is left to pop. -/
def StreamQueue.bound (x : StreamQueue) : Bool := x.running || !x.items.isEmpty || x.taken != 0

/-- What a pop gives (R310). -/
inductive PopRes where
  | data (bs : List Byte)
  | trap (t : TrapInfo)
  deriving DecidableEq, Repr

def StreamItem.isStop : StreamItem → Bool
  | .stop .. => true
  | _ => false

/-- Pops the head of a queue (R310): none while nothing can be said of it. A fault empties the queue, a code behind it is never
delivered, and CODE keeps its value. DESIGN CHOICE (notes/assumptions/67). -/
def StreamQueue.pop (x : StreamQueue) : StreamQueue × Option PopRes :=
  let tr (code : Byte) (i0 i1 : W64) : TrapInfo :=
    { code := code, info0 := i0, info1 := i1, opc := 0, rpt := false, multi := false }
  match x.items with
  | .unit bs :: rest => ({ x with items := rest }, some (.data bs))
  | .flight .. :: _ => (x, none)
  | .fault t :: _ => ({ x with items := [], done := true, running := false }, some (.trap t))
  | .marker :: rest => ({ x with items := rest }, some (.trap (tr 0x1B (BitVec.ofNat 64 x.q) 0)))
  | .stop c i0 i1 :: rest => ({ x with items := rest, code := 0 }, some (.trap (tr c i0 i1)))
  | [] => if x.done then (x, some (.data (List.replicate 128 0))) else (x, none)

/-- What a lane's result of a `qpop` becomes (R310): lane slot L takes word L. -/
def Result.popped (r : Result) (slot : Nat) : PopRes → Result
  | .data bs =>
    let w : W32 := BitVec.ofNat 32 (ofBytes ((bs.drop (4 * slot)).take 4))
    { r with need := .formed, writes := r.writes.map fun p => (p.1, w) }
  | .trap t => { r with need := .formed, trap := some { t with opc := r.pc } }

/-- Gives what was popped to the word that waits with a ticket. -/
def State.givePop (s : State) (team q ticket : Nat) (p : PopRes) : State :=
  s.updTeam team fun t => { t with groups := t.groups.map fun g => { g with lanes := g.lanes.zipIdx.map fun (l, i) =>
    { l with results := l.results.map fun r => if r.need = .pop q ticket then r.popped i p else r } } }

/-- Serves words that wait for a queue, in order of issue. -/
def State.servePops (s : State) (core q : Nat) : Nat → State
  | 0 => s
  | f + 1 =>
    match s.stream? core q with
    | none => s
    | some x =>
      if x.taken = 0 then s else
      match x.pop with
      | (_, none) => s
      | (y, some p) =>
        -- a faulted unit that is popped ends the program
        let s := if x.running && !y.running then
          { s with serges := s.serges.filter fun z => !(z.core == core && z.q == q) } else s
        ((s.setStream { y with first := y.first + 1, taken := y.taken - 1 }).givePop x.team q x.first p).servePops core q f

def State.pops (s : State) (core q : Nat) : State := match s.stream? core q with
  | some x => s.servePops core q x.taken
  | none => s

-- words of lanes

/-- A free Serge processor of a cluster (R306). -/
def State.freeSerge (s : State) (cluster : Nat) : Option Nat :=
  (List.range 4).find? fun i => !(s.serges.any fun z => z.cluster == cluster && z.unit == i)

/-- The spans of a context, as a program captures them (R306). -/
def State.capturedSpans (s : State) (ctx : Nat) : State × List (W64 × W64 × W64) :=
  let (s, d) := s.desc ctx
  (s, (List.range 8).map fun i => (d.getD (3 * i) 0, d.getD (3 * i + 1) 0, d.getD (3 * i + 2) 0))

/-- The registers a Serge program starts with (R306). -/
def sergeLane (l : Lane) (code arg : W64) : Lane :=
  { emptyLane with kind := .live, pc := ptrAddr code, regs := lo32 arg :: hi32 arg :: List.replicate 62 0,
                   trapen := l.trapen, hnd := true, acq := l.acq }

/-- `sgo` of one lane (R306). DEDUCED (notes/assumptions/43). -/
def State.startSerge (s : State) (u : Bun) (x : Eng) (slot : Nat) : State :=
  let q := x.sq.toNat
  let pd (s : State) (b : Bool) : State := s.mapLanes u [slot] fun _ l => l.setPred x.d.toNat b
  let old := s.stream? u.core q
  let busy := match old with
    | some y => (y.team != u.team && y.bound) || y.running
    | none => false
  match busy, s.freeSerge (clusterOf u.core) with
  | false, some unit =>
    let l := s.lane u slot
    let (s, spans) := s.capturedSpans u.ctx
    let z : Serge :=
      { cluster := clusterOf u.core, unit := unit, core := u.core, q := q, team := u.team, ctx := u.ctx, spans := spans,
        acq := l.acq, seg := l.trapen.getLsbD 1, lane := sergeLane l (l.pair x.a.toNat) (l.pair x.b.toNat), next := 0,
        units := 0, wait := none, stopped := false }
    let kept := match old with
      | some y => if y.team = u.team then (y.items.filter fun (i : StreamItem) => !i.isStop, y.first, y.taken) else ([], 0, 0)
      | none => ([], 0, 0)
    let y : StreamQueue :=
      { core := u.core, q := q, team := u.team, items := kept.1, first := kept.2.1, taken := kept.2.2, bad := false,
        done := false, running := true, code := 0 }
    pd { s.setStream y with serges := s.serges ++ [z] } true
  | _, _ => pd s false

/-- `sgo` (R306). -/
def execSgo (h : Hdr) (x : Eng) (s : State) : Answer :=
  s.runWord (.sgo h x) h fun u s => .done (u.plive.foldl (fun s j => s.startSerge u x j) s) []

/-- The stream queue of a team. -/
def State.streamOf (s : State) (u : Bun) (q : Nat) : Option StreamQueue :=
  (s.stream? u.core q).bind fun x => if x.team = u.team then some x else none

/-- `qpop` (R310). -/
def execQpop (h : Hdr) (x : Eng) (s : State) : Answer :=
  s.runWord (.qpop h x) h fun u s =>
    let q := x.sq.toNat
    if u.act.isEmpty then .done s [] else
    match s.streamOf u q with
    | none => .trap s (trapAll u.act (trapAt 0x01 u.pc))
    | some y =>
      let (num, s) := s.fresh
      let r : Result := { num := num, pc := u.pc, need := .pop q (y.first + y.taken), writes := [(x.d.toNat, 0)], flags := 0,
                          trap := none, back := false }
      let s := s.mapLanes u u.act fun _ l => l.addResult r
      .done ((s.setStream { y with taken := y.taken + 1 }).pops u.core q) []

def StreamItem.isUnit : StreamItem → Bool
  | .unit _ => true
  | _ => false

/-- `qstat` of a stream queue (R311). -/
def StreamQueue.stat (x : StreamQueue) : W32 :=
  let flt := x.items.any fun i => match i with | .fault _ | .marker => true | _ => false
  BitVec.ofNat 32 ((if flt then 2 ^ 31 else 0) + (if x.bad then 2 ^ 30 else 0) + (if x.done then 2 ^ 29 else 0) +
    (if x.running then 2 ^ 28 else 0) + x.code.toNat * 2 ^ 16 + (x.items.takeWhile StreamItem.isUnit).length)

/-- `qstat vD, qN` (R311). -/
def execQstat (h : Hdr) (x : Eng) (s : State) : Answer :=
  s.runWord (.qstat h x) h fun u s =>
    if u.plive.isEmpty then .done s [] else
    s.statusResult u x.d.toNat (match s.streamOf u x.sq.toNat with | some y => y.stat | none => 0)

/-- A word that is illegal where a lane issues it (R297): the live lanes of P take the trap, and where there is none the word
does nothing (R23). -/
def State.sergeOnly (s : State) (i : Instr) (h : Hdr) : Answer :=
  s.runWord i h fun u s => if u.plive.isEmpty then .done s [] else .trap s (trapAll u.plive (trapAt 0x01 u.pc))

/-- `apush` issued by a lane (R297). -/
def execApush (h : Hdr) (x : Eng) (s : State) : Answer := s.sergeOnly (.apush h x) h

/-- `aseg` issued by a lane (R297). -/
def execAseg (h : Hdr) (x : Eng) (s : State) : Answer := s.sergeOnly (.aseg h x) h

-- the processor

/-- The meaning of the words a Serge program shares with lanes (R307); none where it does not accept the word. -/
def sergeMeaning (i : Instr) : Option (State → Answer) :=
  match i with
  | .add h x => some (execAdd h x)
  | .sub h x => some (execSub h x)
  | .addc h x => some (execAddc h x)
  | .subb h x => some (execSubb h x)
  | .mul h x => some (execMul h x)
  | .mulh h x => some (execMulh h x)
  | .mad h x => some (execMad h x)
  | .madw h x => some (execMadw h x)
  | .div_ h x => some (execDiv h x)
  | .rem_ h x => some (execRem h x)
  | .min_ h x => some (execMin h x)
  | .max_ h x => some (execMax h x)
  | .abs h x => some (execAbs h x)
  | .neg h x => some (execNeg h x)
  | .adds h x => some (execAdds h x)
  | .subs h x => some (execSubs h x)
  | .clamp h x => some (execClamp h x)
  | .lea h x => some (execLea h x)
  | .cmp h x => some (execCmp h x)
  | .sel h x => some (execSel h x)
  | .movi h d k => some (execMovi h d k)
  | .movh h d k => some (execMovh h d k)
  | .dp4 h x => some (execDp4 h x)
  | .and_ h x => some (execAnd h x)
  | .or_ h x => some (execOr h x)
  | .xor_ h x => some (execXor h x)
  | .andn h x => some (execAndn h x)
  | .not_ h x => some (execNot h x)
  | .shl h x => some (execShl h x)
  | .shr h x => some (execShr h x)
  | .sar h x => some (execSar h x)
  | .rotl h x => some (execRotl h x)
  | .bfx h x => some (execBfx h x)
  | .bfi h x => some (execBfi h x)
  | .popc h x => some (execPopc h x)
  | .clz h x => some (execClz h x)
  | .ctz h x => some (execCtz h x)
  | .brev h x => some (execBrev h x)
  | .prmt h x => some (execPrmt h x)
  | .lop3 h x => some (execLop3 h x)
  | .mov h x => some (execMov h x)
  | .movImm h x => some (execMovImm h x)
  | .pset h x => some (execPset h x)
  | .psetAll h x => some (execPsetAll h x)
  | .pget h x => some (execPget h x)
  | .pgetAll h x => some (execPgetAll h x)
  | .pand h x => some (execPand h x)
  | .por h x => some (execPor h x)
  | .pxor h x => some (execPxor h x)
  | .pnot h x => some (execPnot h x)
  | .rdsr h x => if x.a = 0x10 ∨ x.a = 0x12 then some (execRdsr h x) else none
  | .nop h x => some (execNop h x)
  | .bra h x => some (execBra h x)
  | .brx h x => some (execBrx h x)
  | .call h x => some (execCall h x)
  | .callx h x => some (execCallx h x)
  | .ret h x => some (execRet h x)
  | .loop h x => some (execLoop h x)
  | .loopImm h x => some (execLoopImm h x)
  | .loopPop h x => some (execLoopPop h x)
  | .exit h x => some (execExit h x)
  | .prio h x => some (execPrio h x)
  | _ => none

/-- Words of TYPE E are not accepted (R307); the TYPE field of `lop3` is a part of its table (R101). -/
def packedWord (i : Instr) : Bool := match i with
  | .lop3 .. => false
  | i => match arithRow i with
    | some (_, x) => x.ty == .vw
    | none => false

/-- What a word of a Serge program does. -/
inductive SergeRes where
  | on (l : Lane)
  | ended
  | stop (code : Byte) (info0 info1 : W64)
  deriving DecidableEq, Repr

/-- The part as one word of a Serge program sees it: a team of its own, of one lane, on the program's core. -/
def State.sergeView (s : State) (z : Serge) (t : Team) : State :=
  let g : Group :=
    { lanes := z.lane :: List.replicate 31 emptyLane, entries := [{ Entry.ready 1 with issuing := true }], hw := 0, age := 0,
      issued := false, yieldEnd := 0, holds := [], holder := 0 }
  let team : Team :=
    { t with nregs := 64, groups := [g], place := .core z.core 0 0 0 0, queues := [], dying := none, ended := false,
             saving := 0, cvs := [] }
  { s with teams := [team], regroup := [], ops := [], mem := { s.mem with flips := [], injects := [] },
           subject := .bundle { team := t.id, group := 0, slot := 0 } }

/-- Executes a word that the program shares with lanes (R307): every result is visible to the next word, and a trap
condition ends the program. -/
def State.sergeShared (s : State) (z : Serge) (t : Team) (i : Instr) : SergeRes :=
  match sergeMeaning i with
  | none => .stop 0x01 0 0
  | some f =>
    match f (s.sergeView z t) with
    | .next s' =>
      match (s'.teams.head?.bind (·.dying)), (s'.teams.head?.bind fun t => t.groups.head?).map fun g => g.lane 0 with
      | some (_, code, _), _ => .stop code 0 0
      | none, some l => if l.kind = .live then .on { l.runEnd.1 with hnd := true } else .ended
      | none, none => .ended
    | _ => .stop 0x01 0 0

/-- Translation by a program's captured spans (R307, R308). -/
def State.sergeXlate (s : State) (spans : List (W64 × W64 × W64)) (va : Nat) (p : Perm) : State × XRes × Nat :=
  match spanXlate (spans.map fun (a, b, c) => spanOf a b c) va p with
  | none => (s, .fault, 0)
  | some ia => let (s, r) := s.xlateIA ia p; (s, r, ia)

/-- What a read by a Serge processor gives. -/
inductive SergeRead where
  | data (bs : List Byte)
  | fault (code : Byte) (info0 info1 : W64)
  | suspend (w : PageWait)
  deriving DecidableEq, Repr

/-- Reads within one 4 KiB unit as a copy read (R308): translation, grain checks with the captured AT. -/
def State.sergeReadUnit (s : State) (core : Nat) (z : UnitRead) (va n : Nat) : State × SergeRead :=
  let a64 := BitVec.ofNat 64 va
  match s.sergeXlate z.spans va permRead with
  | (s, .fault, _) => (s, .fault 0x11 0 a64)
  | (s, .lost, _) => (s, .fault 0x18 0 a64)
  | (s, .nonres k page big, _) => (s, .suspend { stack := k, page := page, big := big })
  | (s, .ok (.dev k a) _, ia) =>
    match s.grainFault (some core) z.acq none { off := 0, len := n, va := va, ia := ia, loc := .dev k a } with
    | some (code, g) => (s, .fault code 0 g)
    | none =>
      let (s, r) := s.devRead k a n z.ctx ia true (some 0)
      if r.bad then (s, .fault 0x18 (match r.sel with | some x => BitVec.ofNat 64 x | none => 0) a64) else (s, .data r.data)
  | (s, .ok l _, ia) =>
    let bs := s.locPeek l n
    match l with
    | .peer d a => (s.peerTouch ia d a n 0 none, .data bs)
    | _ => (s, .data bs)

/-- A read by a program. -/
def Serge.read (z : Serge) (va : Nat) : UnitRead := { va := va, ctx := z.ctx, spans := z.spans, acq := z.acq, wait := none }

/-- Reads 8 bytes, which may lie in two 4 KiB units. -/
def State.sergeRead8 (s : State) (z : Serge) (va : Nat) : State × SergeRead :=
  let (s, r) := s.sergeReadUnit z.core (z.read va) va 4
  match r with
  | .data bs => match s.sergeReadUnit z.core (z.read va) (va + 4) 4 with
    | (s, .data cs) => (s, .data (bs ++ cs))
    | x => x
  | _ => (s, r)

/-- Changes the program on a processor. -/
def State.updSerge (s : State) (cluster unit : Nat) (f : Serge → Serge) : State :=
  { s with serges := s.serges.map fun z => if z.cluster = cluster ∧ z.unit = unit then f z else z }

/-- Changes a stream queue. -/
def State.updStream (s : State) (core q : Nat) (f : StreamQueue → StreamQueue) : State :=
  { s with streams := s.streams.map fun x => if x.core = core ∧ x.q = q then f x else x }

/-- A program ends (R307): by `exit`, or stopped with a code. -/
def State.endSerge (s : State) (z : Serge) (stop : Option (Byte × W64 × W64)) : State :=
  let s := { s with serges := s.serges.filter fun y => !(y.cluster == z.cluster && y.unit == z.unit) }
  let s := s.updStream z.core z.q fun x =>
    let x := { x with done := true, running := false }
    match stop with
    | some (c, i0, i1) => { x with items := x.items ++ [.stop c i0 i1], code := c }
    | none => x
  (s.pops z.core z.q).settle

/-- Positions of a queue that are taken (R308). -/
def StreamQueue.used (x : StreamQueue) : Nat := (x.items.filter fun i => match i with
  | .flight .. | .unit _ | .fault _ => true
  | _ => false).length

def StreamItem.isFlight : StreamItem → Bool
  | .flight .. => true
  | _ => false

/-- An exact address as a unit's address: one below 0 counts from 2^65, so that it lies in no span (R309). -/
def unitAddr (a : Int) : Nat := if a < 0 then (a + 2 ^ 65).toNat else a.toNat

/-- The address of the unit after one. -/
def unitAfter (a : Nat) : Nat := if a + 128 = 2 ^ 65 then 0 else a + 128

/-- Pushes units while the queue and the processor have room (R308). -/
def State.pushUnits (s : State) (z : Serge) : Nat → State
  | 0 => s
  | f + 1 =>
    match s.stream? z.core z.q, s.serges.find? fun y => y.cluster == z.cluster && y.unit == z.unit with
    | some x, some z =>
      if z.units = 0 ∨ 64 ≤ x.used ∨ 256 ≤ (x.items.filter StreamItem.isFlight).length then s
      else
        let s := s.updStream z.core z.q fun x => { x with items := x.items ++ [.flight (z.read z.next)] }
        (s.updSerge z.cluster z.unit fun z => { z with next := unitAfter z.next, units := z.units - 1 }).pushUnits z f
    | _, _ => s

/-- `aseg` in a Serge program (R309), once its row pointers are read. -/
def State.asegRow (s : State) (z : Serge) (x : Eng) (r0 r1 : W32) : State :=
  let len := r1.toInt - r0.toInt
  let b : Int := ((z.lane.pair x.b.toNat).toNat : Int)
  let e : Int := ((2 ^ (x.opx.toNat % 8) : Nat) : Int)
  let lo := b + e * r0.toInt
  let hi := b + e * r1.toInt
  let neg := decide (len < 0)
  let n := if hi ≤ lo then 0 else ((hi - 1) / 128 - lo / 128 + 1).toNat
  let s := if neg then s.updStream z.core z.q fun q =>
      let items := if z.seg then q.items ++ [.marker] else q.items
      { q with bad := true, items := items }
    else s
  s.updSerge z.cluster z.unit fun y =>
    { y with lane := (z.lane.setReg x.d.toNat (if neg then 0 else BitVec.ofInt 32 len)).advance z.lane.pc,
             next := unitAddr (lo / 128 * 128), units := n }

/-- Registers v64 and above do not exist in a Serge program (R307). -/
def sergeRegsOk (i : Instr) : Bool := usesBelow 64 (regUses i)

/-- A processor executes the word it has fetched (R307). An `aseg` whose A is no multiple of 4 (R309) stops the program as an
access violation. DESIGN CHOICE (notes/assumptions/62). -/
def State.sergeDo (s : State) (z : Serge) (t : Team) (i : Instr) : State :=
  let pc := z.lane.pc
  let stop (s : State) (c : Byte) (i0 i1 : W64) : State := s.endSerge z (some (c, i0, i1))
  if !sergeRegsOk i || packedWord i then stop s 0x01 0 0 else
  match i with
  | .apush h x =>
    if !z.lane.guard h then s.updSerge z.cluster z.unit fun y => { y with lane := z.lane.advance pc }
    else
      let a := (z.lane.pair x.a.toNat).toNat / 128 * 128
      let s := s.updSerge z.cluster z.unit fun y => { y with lane := z.lane.advance pc, next := a, units := 1 }
      (s.pushUnits z 64).settle
  | .aseg h x =>
    if !z.lane.guard h then s.updSerge z.cluster z.unit fun y => { y with lane := z.lane.advance pc }
    else
      let a := (z.lane.pair x.a.toNat).toNat
      if a % 4 != 0 then stop s 0x11 0 (BitVec.ofNat 64 a)
      else match s.sergeRead8 z a with
        | (s, .fault c i0 i1) => stop s c i0 i1
        | (s, .suspend w) =>
          (s.updSerge z.cluster z.unit fun y => { y with wait := some w }).pageFault w.stack w.page w.big permRead.kind z.ctx
            z.core false
        | (s, .data bs) =>
          let w := wordsOfBytes 2 bs
          let s := s.asegRow z x (w.getD 0 0) (w.getD 1 0)
          ((s.pushUnits z 64).pops z.core z.q).settle
  | i => match s.sergeShared z t i with
    | .on l => s.updSerge z.cluster z.unit fun y => { y with lane := l }
    | .ended => s.endSerge z none
    | .stop c i0 i1 => stop s c i0 i1

/-- Whether a Serge processor may fetch from a line (R283, R307): it is an agent of its cluster. -/
def Stack.sergeFetchable (x : Stack) (line : Nat) (z : Serge) : Bool :=
  match lookupN x.pubs line with
  | none => true
  | some .pending => false
  | some (.published _ p) => match p with
    | .team _ => false
    | .cluster n _ => n == z.cluster
    | .die n _ => n == dieOf z.core
    | .none => true

/-- Fetches and executes a program's next word (R307). -/
def State.sergeStep (s : State) (z : Serge) (t : Team) : State :=
  let va := z.lane.pc.toNat
  let a64 : W64 := z.lane.pc.setWidth 64
  let stop (s : State) (c : Byte) (i0 i1 : W64) : State := s.endSerge z (some (c, i0, i1))
  match s.sergeXlate z.spans va permFetch with
  | (s, .fault, _) => stop s 0x11 0 a64
  | (s, .lost, _) => stop s 0x18 0 a64
  | (s, .nonres k page big, _) =>
    (s.updSerge z.cluster z.unit fun y => { y with wait := some { stack := k, page := page, big := big } }).pageFault k page big
      permFetch.kind z.ctx z.core false
  | (s, .ok (.dev k a) _, ia) =>
    if !(s.stack k).sergeFetchable (a / 128) z then stop s 0x14 0 a64
    else
      let (s, r) := s.devRead k a 8 z.ctx ia false
      if r.bad then stop s 0x18 (match r.sel with | some x => BitVec.ofNat 64 x | none => 0) a64
      else s.sergeDo z t (decode (BitVec.ofNat 64 (ofBytes r.data)))
  | (s, .ok l _, _) =>
    if !(s.stack l.codeStack).sergeFetchable l.codeLine z then stop s 0x14 0 a64
    else s.sergeDo z t (decode (BitVec.ofNat 64 (ofBytes (s.locPeek l 8))))

/-- SERGE_WORD (R307): the subject names cluster and processor. Units of the last word that had no room go first. -/
def execSergeWord (s : State) : Answer :=
  match s.subject with
  | .unit2 cluster unit =>
    match s.serges.find? fun z => z.cluster == cluster && z.unit == unit with
    | none => .next s
    | some z =>
      match s.team? z.team with
      | none => .next s
      | some t =>
        if z.stopped || z.wait.isSome then .next s
        else if z.units ≠ 0 then .next (s.pushUnits z 64)
        else .next (s.sergeStep z t)
  | _ => .next s

/-- SERGE_UNIT_ARRIVE (R308, R391): the subject names core, queue and the place of a unit in flight. Units of a saved team
are held (R364). -/
def execSergeUnitArrive (s : State) : Answer :=
  match s.subject with
  | .unit3 core q i =>
    match (s.stream? core q).bind fun x => x.items[i]? with
    | some (.flight r) =>
      if r.wait.isSome || decide (512 ≤ core) then .next s else
      let put (s : State) (y : StreamItem) : State := s.updStream core q fun x => { x with items := x.items.set i y }
      match s.sergeReadUnit core r r.va 128 with
      | (s, .data bs) => .next (((put s (.unit bs)).pops core q).settle)
      | (s, .fault code i0 i1) =>
        let t : TrapInfo := { code := code, info0 := i0, info1 := i1, opc := 0, rpt := false, multi := false }
        .next (((put s (.fault t)).pops core q).settle)
      | (s, .suspend w) =>
        .next ((put s (.flight { r with wait := some w })).pageFault w.stack w.page w.big permRead.kind r.ctx core false)
    | _ => .next s
  | _ => .next s

end Sys2Proof.Machine
end

