-- ==== Sys2Proof/Machine/Units.lean ====
section
/-! DEFINITION. What every command to a unit beneath a stack shares (R312-R317): the checks at issue, the captured spans,
credits, the unit's reads of its stack's DRAM through its private cache (R279, R315), and the end of a command: its slot,
its mark and its lines. -/
namespace Sys2Proof.Machine

-- checks at issue

/-- A check of R313: the address that the trap names where it fails. -/
abbrev UnitCheck := Lane → Option W64

def failAt (b : Bool) (a : W64) : Option W64 := if b then some a else none

/-- The lanes that fail the first check that any issuing lane fails (R313), each with its trap (R351). -/
def State.unitFails (s : State) (u : Bun) (slots : List Nat) : List (Byte × UnitCheck) → List (Nat × TrapInfo)
  | [] => []
  | (code, c) :: cs =>
    match slots.filterMap fun j => (c (s.lane u j)).map fun a => (j, trapAt code u.pc 0 a) with
    | [] => s.unitFails u slots cs
    | bad => bad

/-- The slot check of R313. -/
def slotCheck (s : State) (t : Team) (slot : Lane → Nat) (size align : Nat) : Byte × UnitCheck :=
  (0x11, fun l => failAt (slot l % align != 0 || !s.granted t l.tid .sh (slot l) size) (BitVec.ofNat 64 (slot l)))

/-- The span check of R313 for an address pair. -/
def spanCheck (spans : List SpanReg) (pair : Lane → W64) : Byte × UnitCheck :=
  (0x11, fun l => failAt (spanXlate spans (pair l).toNat permRead).isNone (pair l))

/-- The intermediate address of a pair that has passed its span check. -/
def pairIA (spans : List SpanReg) (a : W64) : Nat := (spanXlate spans a.toNat permRead).getD 0

/-- The stack-local window, aligned (R313). -/
def localIA (align ia : Nat) : Bool := ia / 2 ^ 47 == 1 && ia / 2 ^ 36 % 256 == 0 && ia % align == 0

/-- The window check of R313: the trap names the slot (R351). -/
def windowCheck (spans : List SpanReg) (pair : Lane → W64) (slot : Lane → Nat) (ok : Nat → Bool) : Byte × UnitCheck :=
  (0x1A, fun l => failAt (!ok (pairIA spans (pair l))) (BitVec.ofNat 64 (slot l)))

/-- The span images of a context in intermediate addresses, as the part captures them at issue (R315). A span whose LIMIT is
below its BASE has none. -/
def spanImages (spans : List SpanReg) : List Image :=
  (spans.filter fun x => x.v && decide (x.base ≤ x.limit)).map fun x =>
    { lo := x.off * 2 ^ 16, hi := x.off * 2 ^ 16 + (x.limit - x.base) * 2 ^ 16 + 0xFFFF, rd := x.rd, w := x.w }

/-- A command of a lane, as the units keep it. -/
def State.mould (s : State) (u : Bun) (j num word slot size : Nat) (images : List Image) : CmdMould :=
  { num := num, word := word, team := u.team, tid := (s.lane u j).tid, pc := u.pc, core := u.core, ctx := u.ctx, slot := slot,
    size := size, images := images }

/-- Every command that a unit holds. -/
def State.moulds (s : State) : List CmdMould :=
  s.rays.map (·.cmd) ++ s.tcmds.map (·.cmd) ++ s.gauze.map (·.cmd) ++ s.calico.map (·.cmd)

/-- The lines of some slots, each once (R314). -/
def slotLines (slots : List (Nat × Nat)) : List Nat := (slots.flatMap fun (a, n) => linesOf a n).eraseDups

-- credits

/-- Commands of each kind that a core has outstanding (R317). -/
def State.rayLoad (s : State) (core : Nat) : Nat := (s.rays.filter fun r => r.cmd.core == core).length
def State.treeLoad (s : State) (core : Nat) : Nat := (s.tcmds.filter fun r => r.cmd.core == core).length
def State.gauzeLoad (s : State) (core : Nat) : Nat := (s.gauze.filter fun r => r.cmd.core == core).length
def State.calicoLoad (s : State) (unit : Nat) : Nat := (s.calico.filter fun r => r.unit == unit).length

-- issue

/-- Issues a word's commands once its checks have passed: it is held while a line is full (R227) or its commands exceed
the credits (R317); `make` gives the state with the commands of one lane. -/
def State.issueUnit (s : State) (u : Bun) (t : Team) (room : Bool) (cmds : List (Nat × Nat × Nat))
    (make : Nat → State → Nat → CmdMould → State) (images : List Image) : Effect :=
  let ls := slotLines (cmds.map fun c => (c.2.1, c.2.2))
  if !room || t.local_.full ls then .hold s
  else
    let (word, s) := s.fresh
    .done (cmds.foldl (fun (s : State) (j, slot, size) =>
      let (num, s) := s.fresh
      make j s num (s.mould u j num word slot size images)) (s.raiseLines u.team .sh ls)) []

-- a unit's reads

/-- Where a unit of stack `k` finds `n` bytes within one line (R315): the stack-physical address; none is trap condition
0x11. -/
def State.unitSpot (s : State) (images : List Image) (k ia n : Nat) (write : Bool) : State × Option Nat :=
  let inside (x : Image) : Bool := (if write then x.w else x.rd) && decide (x.lo ≤ ia) && decide (ia + n ≤ x.hi + 1)
  if ia / 2 ^ 47 != 1 || ia / 2 ^ 44 % 8 != k || !images.any inside then (s, none)
  else match s.xlateIA ia (if write then permWrite else permRead) with
    | (s, .ok (.dev _ a) _) => (s, some a)
    | (s, _) => (s, none)

/-- What a unit reads: bytes with poison in place of bad codewords, the bad 4-byte words by place in the bytes, and the
selector of the first error's register. -/
structure UnitData where
  data : List Byte
  bad : List Nat
  sel : W64
  deriving DecidableEq, Repr

/-- Reads a line of DRAM for a unit (R346): a line that is poison in DRAM, or whose codewords are uncorrectable. A copy that
another agent holds modified is recalled first (R410). -/
def State.dramLine (s : State) (k line ctx : Nat) : State × LineErr :=
  let s := s.recall k line
  if (s.stack k).poison.contains line && !(s.stack k).dirty line then (s, { words := List.range 32, sel := none })
  else s.dramErrors k line ctx

/-- Reads within one line through the private cache of unit `unit` (0 Tulle, 1 Gauze, 2 Calico) of a stack (R279). -/
def State.unitLine (s : State) (unit k ia spa n ctx : Nat) : State × UnitData :=
  let line := spa / 128
  match (s.stack k).unitLines.find? fun x => x.unit == unit && x.line == line && x.at_ == ia / 128 with
  | some x => (s, { data := (x.data.drop (spa % 128)).take n, bad := [], sel := 0 })
  | none =>
    let (s, e) := s.dramLine k line ctx
    let data := s.mem.dram.read (devKey k (line * 128)) 128
    let s := if e.words.isEmpty then
        s.updStack k fun x => { x with unitLines := { unit := unit, line := line, at_ := ia / 128, data := data } :: x.unitLines }
      else s
    let off := spa % 128
    (s, { data := deliver ((data.drop off).take n) off e.words,
          bad := e.words.filter fun w => decide (off < 4 * w + 4) && decide (4 * w < off + n),
          sel := match e.sel with | some x => BitVec.ofNat 64 x | none => 0 })

/-- Reads bytes for a unit, line by line: none where an address fails R315. DEDUCED (notes/assumptions/44). -/
def State.unitBytes (s : State) (unit ctx : Nat) (images : List Image) (k ia n : Nat) : State × Option UnitData :=
  (partsOf ia n).foldl (fun (r : State × Option UnitData) (a, m) =>
    match r.2 with
    | none => r
    | some x =>
      match r.1.unitSpot images k a m false with
      | (s, none) => (s, none)
      | (s, some spa) =>
        let (s, y) := s.unitLine unit k a spa m ctx
        -- the place of line word w among the bytes
        let place (w : Nat) : Nat := (a / 128 * 128 + 4 * w - ia) / 4
        (s, some { data := x.data ++ y.data, bad := x.bad ++ y.bad.map place, sel := if x.bad.isEmpty then y.sel else x.sel }))
    (s, some { data := [], bad := [], sel := 0 })

/-- How a unit's command fails. -/
structure UnitErr where
  code : Byte
  sel : W64
  deriving DecidableEq, Repr

/-- Reads bytes that must be good. -/
def State.unitGood (s : State) (unit ctx : Nat) (images : List Image) (k ia n : Nat) : State × Except UnitErr (List Byte) :=
  match s.unitBytes unit ctx images k ia n with
  | (s, none) => (s, .error { code := 0x11, sel := 0 })
  | (s, some x) => if x.bad.isEmpty then (s, .ok x.data) else (s, .error { code := 0x18, sel := x.sel })

/-- A unit's write within one line (R266, R279, R344): at the home and in DRAM, with the line clean there afterwards and
gone from the units' private caches. `time` is its completion time. -/
def State.unitWrite (s : State) (k spa ia : Nat) (data : List Byte) (ctx : Nat) (time : W64) : State :=
  let line := spa / 128
  ((s.lineWrite k spa data { writer := 0xA00, log := none } ia ctx 0 false (some time)).writeBack k line).dropUnitLine k line

/-- The completion time of a unit's write to a grain that no lease holds (R266, R273). -/
def State.unitNow (s : State) (k spa : Nat) : Option W64 := if (s.heldUntil k (spa / 512)).isNone then some s.time.now else none

/-- A command's write that leases hold takes its place in the buffer (R273). -/
def State.unitClaim (s : State) (k ia num ctx : Nat) (act : HomeAct) : State :=
  match s.heldUntil k (act.addr / 512) with
  | some w => s.holdWrite k
      { at_ := w, act := act, who := { writer := 0xA00, log := none }, op := some num, ctx := ctx, ia := ia, evp := 0 }
  | none => s

-- the end of a command

/-- The lines of a command's slot that no other command of its word holds (R314). -/
def State.slotRetire (s : State) (c : CmdMould) : List Nat :=
  let others := s.moulds.filter fun d => d.word == c.word && d.num != c.num
  (linesOf c.slot c.size).filter fun n => !(others.any fun d => (linesOf d.slot d.size).contains n)

/-- A command that is over leaves the pending-write buffers (R273). -/
def State.dropClaims (s : State) (num : Nat) : State :=
  (List.range 8).foldl (fun s k =>
    match (s.stack k).heldWrites.findIdx? fun h => h.op == some num && h.act == .unit h.act.addr with
    | some i => s.updStack k fun x => x.unhold i s.time.now
    | none => s) s

/-- A command ends (R314, R316): it writes its slot, a trap condition marks it, and its lines retire. The command is no
longer among those of its unit. -/
def State.endCmd (s : State) (c : CmdMould) (data : List Byte) (code : Byte) (sel : W64) : State :=
  let mark : Option SlotMark := if code = 0 then none else
    some { first := c.slot, len := c.size, tid := c.tid, code := code, opc := c.pc, info0 := if code = 0x18 then sel else 0,
           slot := c.slot }
  let s := s.dropClaims c.num
  s.land c.team .sh c.slot data (s.slotRetire c) mark

end Sys2Proof.Machine
end

