-- ==== Sys2Proof/Machine/Tulle.lean ====
section
/-! DEFINITION. Tulle: rays, treelets, holds and swaps (R312, R319-R332, R348), with the events of a batch (R326), a ray's
time limit (R326) and a drained treelet (R328). -/
namespace Sys2Proof.Machine

-- exact arithmetic

/-- An infinite bound has denominator 0. -/
def Ratio.le (a b : Ratio) : Bool :=
  if a.den = 0 ∧ b.den = 0 then decide (a.num ≤ b.num) else decide (a.num * b.den ≤ b.num * a.den)

def Ratio.lt (a b : Ratio) : Bool := !b.le a

/-- The quotient of two exact numbers, the second not zero. -/
def Dy.quot (a b : Dy) : Ratio :=
  let n : Int := a.m * ((pow2N a.e * pow2D b.e : Nat) : Int)
  let d : Int := b.m * ((pow2N b.e * pow2D a.e : Nat) : Int)
  if d < 0 then { num := -n, den := d.natAbs } else { num := n, den := d.natAbs }

/-- A decoded number that is no NaN as a bound. -/
def FVal.ratio : FVal → Ratio
  | .inf neg => { num := if neg then -1 else 1, den := 0 }
  | v => v.dy.quot (Dy.ofInt 1)

/-- Rounded RNE to f32 (R323). -/
def Ratio.toF32 (a : Ratio) : W32 :=
  if a.num = 0 then 0 else lo32 (roundMag fmtF32 .rne false (decide (a.num < 0)) a.num.natAbs a.den).val

/-- The value of an f32 word. -/
def f32Val (w : W32) : FVal := fmtF32.decode (w.setWidth 64)

def f32Dy (w : W32) : Dy := (f32Val w).dy

/-- An exact vector. -/
structure V3 where
  x : Dy
  y : Dy
  z : Dy
  deriving DecidableEq, Repr

def V3.sub (a b : V3) : V3 := { x := a.x.sub b.x, y := a.y.sub b.y, z := a.z.sub b.z }
def V3.dot (a b : V3) : Dy := ((a.x.mul b.x).add (a.y.mul b.y)).add (a.z.mul b.z)
def V3.cross (a b : V3) : V3 :=
  { x := (a.y.mul b.z).sub (a.z.mul b.y), y := (a.z.mul b.x).sub (a.x.mul b.z), z := (a.x.mul b.y).sub (a.y.mul b.x) }

/-- Three f32 words of a list as a vector. -/
def v3At (ws : List W32) (i : Nat) : V3 :=
  { x := f32Dy (ws.getD i 0), y := f32Dy (ws.getD (i + 1) 0), z := f32Dy (ws.getD (i + 2) 0) }

def allFinite (ws : List W32) : Bool := ws.all fun w => (f32Val w).isFinite

-- treelet entries

/-- A treelet's entry (R319). -/
structure TreeEntry where
  w0 : Nat
  w1 : Nat
  deriving DecidableEq, Repr

def TreeEntry.ok (e : TreeEntry) : Bool :=
  fieldN e.w0 63 63 == 1 && fieldN e.w0 62 50 == 0 && fieldN e.w0 6 0 == 0 && fieldN e.w1 23 17 == 0

def TreeEntry.lines (e : TreeEntry) : Nat := fieldN e.w0 49 41 + 1
def TreeEntry.off (e : TreeEntry) : Nat := fieldN e.w0 40 7 * 128
def TreeEntry.version (e : TreeEntry) : Nat := fieldN e.w1 15 0
def TreeEntry.swapt (e : TreeEntry) : Nat := fieldN e.w1 63 24
def TreeEntry.inst (e : TreeEntry) : Bool := fieldN e.w1 16 16 == 1

/-- The stack of a treelet, its slice's base, and its entry's address (R319). -/
def treeStack (i : Nat) : Nat := i / 2 ^ 13
def sliceBase (scene i : Nat) : Nat := scene + treeStack i * 2 ^ 44
def entryAddr (scene i : Nat) : Nat := sliceBase scene i + 16 * (i % 2 ^ 13)

/-- The end of a stack's share of the stack-local window (R319). -/
def sliceEnd (i : Nat) : Nat := 2 ^ 47 + 2 ^ 44 * treeStack i + 2 ^ 36

/-- Reads a treelet's entry; the error carries the VERSION of an entry that could be read (R328). -/
def State.treeEntry (s : State) (c : CmdMould) (scene i : Nat) : State × Except (UnitErr × Nat) TreeEntry :=
  match s.unitGood 0 c.ctx c.images (treeStack i) (entryAddr scene i) 16 with
  | (s, .error e) => (s, .error (e, 0))
  | (s, .ok bs) =>
    let e : TreeEntry := { w0 := ofBytes (bs.take 8), w1 := ofBytes (bs.drop 8) }
    if e.ok then (s, .ok e) else (s, .error ({ code := 0x1A, sel := 0 }, e.version))

-- queues

/-- Whether a hold is on a treelet, which its scene and index name (R319). -/
def Hold.on (h : Hold) (scene i : Nat) : Bool := h.scene == scene && h.treelet == i

/-- The team that holds a treelet: one that has ended holds nothing (R332). -/
def State.holderOf (s : State) (scene i : Nat) : Option Nat :=
  ((s.stack (treeStack i)).holds.find? fun h => h.on scene i &&
    (match s.team? h.team with | some t => !t.ended | none => false)).map (·.team)

/-- Holds in force at a stack (R328). -/
def State.holdCount (s : State) (k : Nat) : Nat :=
  ((s.stack k).holds.filter fun h => match s.team? h.team with | some t => !t.ended | none => false).length

/-- A ray that waits in a queue of its treelet. -/
def Ray.queued (r : Ray) : Bool := r.fate.isNone && !r.spilled

/-- The rays queued at a treelet, in order of arrival. -/
def State.raysAt (s : State) (scene i : Nat) : List Ray :=
  s.rays.filter fun r => r.queued && r.treelet == i && r.scene == scene

/-- The treelets of a stack that have a queue: scene and index. -/
def State.treeQueues (s : State) (k : Nat) : List (Nat × Nat) :=
  ((s.rays.filter fun r => r.queued && treeStack r.treelet == k).map fun r => (r.scene, r.treelet)).eraseDups

/-- Whether a ray finds room at its treelet (R325): 65,536 rays and 4,096 queues to a stack. -/
def State.rayRoom (s : State) (scene i : Nat) : Bool :=
  let k := treeStack i
  let qs := s.treeQueues k
  decide ((s.rays.filter fun r => r.queued && treeStack r.treelet == k).length < 65536) &&
    (qs.contains (scene, i) || decide (qs.length < 4096))

/-- A ray joins the queue of a treelet (R325, R327): one that comes to another stack finds Tulle there or ends. -/
def State.joinRay (s : State) (r : Ray) (i : Nat) (arrives : Bool) : State :=
  let fate : Option Byte := if arrives && !bit (s.stack (treeStack i)).spillReg 0 then some 0x1A else none
  let r := { r with treelet := i, since := s.time.now, spilled := !s.rayRoom r.scene i, fate := fate }
  { s with rays := s.rays ++ [r] }

/-- Rays in the spill region rejoin their queues first-in first-out as room frees (R325). -/
def State.unspill (s : State) (k : Nat) : List Ray → State
  | [] => s
  | r :: rs =>
    if !r.spilled || r.fate.isSome || treeStack r.treelet != k then s.unspill k rs
    else if s.rayRoom r.scene r.treelet then
      let rays := s.rays.map fun (x : Ray) =>
        if x.cmd.num = r.cmd.num then { x with spilled := false, since := s.time.now } else x
      ({ s with rays := rays }).unspill k rs
    else s

-- records

/-- A hit record (R324). -/
def hitRecord (h : Hit) (rayid count : Nat) (trunc : Bool) : List Byte :=
  bytesOfWords [h.t.toF32, h.u.toF32, h.v.toF32, h.prim, (h.inst.map (·.1)).getD 0xFFFFFFFF, (h.inst.map (·.2)).getD 0,
    BitVec.ofNat 32 (rayid * 2 ^ 16 + count * 2 ^ 8 + (if trunc then 4 else 0) + (if h.front then 2 else 0) + 1),
    BitVec.ofNat 32 h.tre]

/-- A record without a hit (R324): a miss, or an error with its code. -/
def missRecord (t : W32) (rayid : Nat) (code : Byte) : List Byte :=
  bytesOfWords [t, 0, 0, 0xFFFFFFFF, 0xFFFFFFFF, 0, BitVec.ofNat 32 (rayid * 2 ^ 16 + (if code = 0 then 0 else 8)),
    BitVec.ofNat 32 (code.toNat * 2 ^ 24)]

def Ray.rayid (r : Ray) : Nat := (r.msg.getD 9 0).toNat / 2 ^ 16

/-- What a ray that completes writes to its slot (R324). -/
def Ray.result (r : Ray) : List Byte :=
  let hs := r.hits.take (if r.mode = 2 then 16 else 1)
  let trunc := decide (16 < r.hits.length)
  let recs := hs.flatMap fun h => hitRecord h r.rayid hs.length trunc
  let recs := if hs.isEmpty then missRecord 0x7F800000 r.rayid 0 else recs
  recs ++ List.replicate (r.cmd.size - recs.length) 0

/-- What a ray that ends with a trap condition writes (R324): `poison` where an uncorrectable node or item ended it. -/
def Ray.errResult (r : Ray) (code : Byte) (poison : Bool) : List Byte :=
  let rec_ := missRecord (if poison then poisonWord else 0x7F800000) r.rayid code
  rec_ ++ List.replicate (r.cmd.size - rec_.length) 0

/-- A ray leaves the part. -/
def State.endRay (s : State) (r : Ray) (data : List Byte) (code : Byte) (sel : W64) : State :=
  ({ s with rays := s.rays.filter fun x => x.cmd.num != r.cmd.num }).endCmd r.cmd data code sel

-- traversal

/-- How a ray fails in a treelet. -/
structure RayErr where
  code : Byte
  sel : W64
  /-- an uncorrectable error in a node or item -/
  poison : Bool
  deriving DecidableEq, Repr

def badScene : RayErr := { code := 0x1A, sel := 0, poison := false }

/-- A treelet as a ray traverses it. -/
structure Treelet where
  index : Nat
  base : Nat
  lines : Nat
  inst : Bool
  deriving DecidableEq, Repr

/-- Reads bytes of a treelet, which must lie in it (R321). -/
def State.treeRead (s : State) (c : CmdMould) (x : Treelet) (off n : Nat) (item : Bool) :
    State × Except RayErr (List Byte) :=
  if 128 * x.lines < off + n then (s, .error badScene) else
  match s.unitGood 0 c.ctx c.images (treeStack x.index) (x.base + off) n with
  | (s, .ok bs) => (s, .ok bs)
  | (s, .error e) => (s, .error { code := e.code, sel := e.sel, poison := item && e.code == 0x18 })

/-- The origin and direction of a ray where it is. -/
def Ray.line (r : Ray) (i : Option InstCtx) : V3 × V3 := match i with
  | some c => (v3At c.o 0, v3At c.d 0)
  | none => (v3At r.msg 0, v3At r.msg 3)

def Ray.tmin (r : Ray) : Ratio := (f32Val (r.msg.getD 6 0)).ratio
def Ray.tmax (r : Ray) : Ratio := (f32Val (r.msg.getD 7 0)).ratio
def Ray.flag (r : Ray) (n : Nat) : Bool := (r.msg.getD 8 0).getLsbD n

/-- Narrows a segment to the part that one axis of a box meets: none where it meets nothing. -/
def slab (o d lo hi : Dy) (seg : Option (Ratio × Ratio)) : Option (Ratio × Ratio) :=
  seg.bind fun (a, b) =>
    if d.m = 0 then (if lo.le o && o.le hi then some (a, b) else none)
    else
      let p := (lo.sub o).quot d
      let q := (hi.sub o).quot d
      let (p, q) := if q.lt p then (q, p) else (p, q)
      let a := if a.lt p then p else a
      let b := if q.lt b then q else b
      if a.le b then some (a, b) else none

/-- Whether the exact segment meets a box (R323). -/
def Ray.meets (r : Ray) (o d lo hi : V3) : Bool :=
  let seg := slab o.x d.x lo.x hi.x (some (r.tmin, r.tmax))
  (slab o.z d.z lo.z hi.z (slab o.y d.y lo.y hi.y seg)).isSome

/-- A node (R320): its words and boxes' bytes. -/
def nodeOk (bs : List Byte) : Bool :=
  let ws := wordsOfBytes 4 bs
  let e := (ws.getD 3 0).toNat
  let scale (i : Nat) : Bool := decide (1 ≤ fieldN e (8 * i + 7) (8 * i)) && decide (fieldN e (8 * i + 7) (8 * i) ≤ 254)
  allFinite (ws.take 3) && e / 2 ^ 24 == 0 && scale 0 && scale 1 && scale 2

/-- The c-th child reference of a node (R320). -/
def nodeRef (bs : List Byte) (c : Nat) : Nat := ofBytes ((bs.drop (0x40 + 8 * c)).take 8)

/-- The reserved bits of a reference (R321). -/
def refOk (r : Nat) : Bool :=
  match fieldN r 63 62 with
  | 0 => r == 0
  | 1 => fieldN r 61 9 == 0
  | 2 => fieldN r 61 13 == 0
  | _ => fieldN r 61 16 == 0

/-- A corner of the c-th box of a node (R320): lo with `add` 0 from byte 0, hi with `add` 1 from byte 3. -/
def nodeCorner (bs : List Byte) (c from_ add : Nat) : V3 :=
  let ws := wordsOfBytes 4 bs
  let e := (ws.getD 3 0).toNat
  let at_ (i : Nat) : Dy :=
    (f32Dy (ws.getD i 0)).add { m := (((bs.getD (0x10 + 6 * c + from_ + i) 0).toNat + add : Nat) : Int),
                                e := (fieldN e (8 * i + 7) (8 * i) : Int) - 127 }
  { x := at_ 0, y := at_ 1, z := at_ 2 }

/-- The work that a child reference makes: a link is the root of another treelet (R321). -/
def refWork (tre r : Nat) (i : Option InstCtx) : Nat × RayWork :=
  if fieldN r 63 62 = 3 then (fieldN r 15 0, { ref := none, inst := i }) else (tre, { ref := some (BitVec.ofNat 64 r), inst := i })

/-- A list rotated by n places. -/
def rotate (n : Nat) (l : List α) : List α := l.drop (n % (l.length + 1)) ++ l.take (n % (l.length + 1))

/-- Visits a node (R320, R323): every box that the segment meets is entered, others or none; the order is the part's. -/
def State.visitNode (s : State) (r : Ray) (x : Treelet) (line : Nat) (i : Option InstCtx) :
    State × Except RayErr (List (Nat × RayWork)) :=
  match s.treeRead r.cmd x (128 * line) 128 true with
  | (s, .error e) => (s, .error e)
  | (s, .ok bs) =>
    if !nodeOk bs || !((List.range 8).all fun c => refOk (nodeRef bs c)) then (s, .error badScene)
    else
      let (free, s) := s.freeBytes 2
      let (o, d) := r.line i
      let enter (c : Nat) : Bool := nodeRef bs c != 0 &&
        (r.meets o d (nodeCorner bs c 0 0) (nodeCorner bs c 3 1) || (free.getD 0 0).getLsbD c)
      let cs := rotate (free.getD 1 0).toNat ((List.range 8).filter enter)
      (s, .ok (cs.map fun c => refWork x.index (nodeRef bs c) i))

/-- A row of a matrix times a vector, rounded once (R323). -/
def transformRow (m : List W32) (row : Nat) (v : V3) (w : Dy) : W32 :=
  let a := v3At m (4 * row)
  lo32 (roundDy fmtF32 .rne false false ((a.dot v).add ((f32Dy (m.getD (4 * row + 3) 0)).mul w))).val

/-- An instance record (R321, R323): the work in its geometry, none where the ray skips it or can hit nothing there. -/
def Ray.enterInstance (r : Ray) (ws : List W32) (i : Option InstCtx) : Except RayErr (List (Nat × RayWork)) :=
  let w34 := (ws.getD 13 0).toNat
  if w34 / 2 ^ 25 != 0 || ws.getD 15 0 != 0 then .error badScene
  else if (r.msg.getD 9 0).toNat % 256 &&& fieldN w34 23 16 = 0 then .ok []
  else if !allFinite (ws.take 12) then .ok []
  else
    let (o, d) := r.line i
    let o' := (List.range 3).map fun k => transformRow ws k o (Dy.ofInt 1)
    let d' := (List.range 3).map fun k => transformRow ws k d (Dy.ofInt 0)
    if !allFinite o' || !allFinite d' || d'.all (fun w => (f32Val w).isZero) then .ok []
    else .ok [(w34 % 2 ^ 16, { ref := none, inst := some { o := o', d := d', inst := ws.getD 12 0, user := ws.getD 14 0,
                                                           opaque_ := w34 / 2 ^ 24 % 2 == 1 } })]

/-- The candidate hit of a triangle (R323). -/
def Ray.candidate (r : Ray) (ws : List W32) (i : Option InstCtx) (tre : Nat) : Option Hit :=
  if !allFinite (ws.take 9) then none else
  let (o, d) := r.line i
  let v0 := v3At ws 0
  let e1 := (v3At ws 3).sub v0
  let e2 := (v3At ws 6).sub v0
  let nd := (e1.cross e2).dot d
  if nd.m = 0 then none else
  let front := decide (nd.m < 0)
  if (r.flag 0 && !front) || (r.flag 1 && front) then none else
  let p := d.cross e2
  let det := e1.dot p
  let w := o.sub v0
  let q := w.cross e1
  let t := (e2.dot q).quot det
  let u := (w.dot p).quot det
  let v := (d.dot q).quot det
  let inside := decide (0 ≤ u.num) && decide (0 ≤ v.num) &&
    decide (u.num * v.den + v.num * u.den ≤ ((u.den * v.den : Nat) : Int))
  if inside && r.tmin.le t && t.le r.tmax then
    some { t := t, u := u, v := v, prim := ws.getD 9 0, inst := i.map fun c => (c.inst, c.user), front := front, tre := tre }
  else none

/-- The mask bit of a candidate (R323). -/
def Hit.maskBit (h : Hit) (level : Nat) : Nat :=
  let n := 2 ^ level
  let u := h.u.num.toNat * n
  let v := h.v.num.toNat * n
  let i := min (u / h.u.den) (n - 1)
  let j := min (v / h.v.den) (n - 1)
  let d := if h.u.den * h.v.den ≤ u % h.u.den * h.v.den + v % h.v.den * h.u.den then 1 else 0
  2 * (j * n + i) + d

/-- The order of R324: least t, lower PRIM, lower INST. -/
def Hit.before (a b : Hit) : Bool :=
  let inst (h : Hit) : W32 := (h.inst.map (·.1)).getD 0xFFFFFFFF
  a.t.lt b.t || (a.t.le b.t && (decide (a.prim < b.prim) || (a.prim == b.prim && decide (inst a ≤ inst b))))

/-- An accepted hit (R324). -/
def Ray.accept (r : Ray) (h : Hit) : Ray :=
  { r with hits := (insertBy Hit.before h r.hits).take (if r.mode = 2 then 17 else 1) }

/-- Tests a triangle (R321, R323). -/
def State.testTriangle (s : State) (r : Ray) (x : Treelet) (ws : List W32) (i : Option InstCtx) : State × Except RayErr Ray :=
  let w28 := (ws.getD 10 0).toNat
  let w2c := (ws.getD 11 0).toNat
  let level := fieldN w28 3 1
  if w28 / 16 != 0 || w2c / 2 ^ 16 != 0 || decide (4 < level) then (s, .error badScene)
  else match r.candidate ws i x.index with
    | none => (s, .ok r)
    | some h =>
      let solid := w28 % 2 == 1 || r.flag 2 || (match i with | some c => c.opaque_ | none => false)
      if solid then (s, .ok (r.accept h))
      else if r.flag 3 then (s, .ok r)
      else
        let off := w2c % 2 ^ 16 * 16
        let b := h.maskBit level
        if 128 * x.lines < off + (2 * 4 ^ level + 7) / 8 then (s, .error badScene)
        else match s.treeRead r.cmd x (off + b / 8) 1 false with
          | (s, .error e) => (s, .error e)
          | (s, .ok bs) => (s, .ok (if (bs.getD 0 0).getLsbD (b % 8) then r.accept h else r))

/-- Visits the items of a leaf (R321): the ray, with the work that instances make. -/
def State.visitLeaf (s : State) (r : Ray) (x : Treelet) (line : Nat) (i : Option InstCtx) :
    Nat → Nat → List (Nat × RayWork) → State × Except RayErr (Ray × List (Nat × RayWork))
  | 0, _, ws => (s, .ok (r, ws))
  | n + 1, k, ws =>
    if r.mode = 1 ∧ !r.hits.isEmpty then (s, .ok (r, ws)) else
    let size := if x.inst then 64 else 48
    match s.treeRead r.cmd x (128 * line + k * size) size true with
    | (s, .error e) => (s, .error e)
    | (s, .ok bs) =>
      let item := wordsOfBytes 16 bs
      if x.inst then
        match r.enterInstance item i with
        | .error e => (s, .error e)
        | .ok new => s.visitLeaf r x line i n (k + 1) (ws ++ new)
      else
        match s.testTriangle r x item i with
        | (s, .error e) => (s, .error e)
        | (s, .ok r) => s.visitLeaf r x line i n (k + 1) ws

/-- Goes on with a ray's work while it lies in the treelet; a visit is bounded, and what is left waits in the queue. -/
def State.walkTree (s : State) (x : Treelet) : Nat → Ray → State × Except RayErr Ray
  | 0, r => (s, .ok r)
  | f + 1, r =>
    if r.mode = 1 ∧ !r.hits.isEmpty then (s, .ok { r with work := [] }) else
    match r.work with
    | [] => (s, .ok r)
    | (t, w) :: rest =>
      if t != x.index then (s, .ok r) else
      let r := { r with work := rest }
      let leaf := match w.ref with | some y => fieldN y.toNat 63 62 == 2 | none => false
      let line := match w.ref with | some y => fieldN y.toNat 8 0 | none => 0
      if leaf then
        let n := match w.ref with | some y => fieldN y.toNat 12 9 + 1 | none => 0
        match s.visitLeaf r x line w.inst n 0 [] with
        | (s, .error e) => (s, .error e)
        | (s, .ok (r, new)) => s.walkTree x f { r with work := new ++ r.work }
      else
        match s.visitNode r x line w.inst with
        | (s, .error e) => (s, .error e)
        | (s, .ok new) => s.walkTree x f { r with work := new ++ r.work }

/-- A ray as it begins at its ROOT (R331). -/
def Ray.restart (r : Ray) : Ray :=
  { r with hits := [], entered := [], work := [((r.msg.getD 10 0).toNat % 2 ^ 16, { ref := none, inst := none })] }

/-- Whether a treelet was swapped since a ray first entered it (R331). -/
def TreeEntry.changed (e : TreeEntry) (version time : Nat) : Bool :=
  let d := (e.swapt + 2 ^ 40 - time) % 2 ^ 40
  e.version != version || (decide (1 ≤ d) && decide (d < 2 ^ 39))

/-- One ray's visit to a treelet (R323, R327, R331). -/
def State.visit (s : State) (r : Ray) (i : Nat) : State × Except RayErr Ray :=
  match s.treeEntry r.cmd r.scene i with
  | (s, .error (e, _)) => (s, .error { code := e.code, sel := e.sel, poison := false })
  | (s, .ok e) =>
    let x : Treelet := { index := i, base := sliceBase r.scene i + e.off, lines := e.lines, inst := e.inst }
    match lookupN r.entered i with
    | some (v, t) => if e.changed v t then (s, .ok r.restart) else s.walkTree x 4096 r
    | none => s.walkTree x 4096 { r with entered := (i, e.version, s.time.now.toNat % 2 ^ 40) :: r.entered }

/-- Whether a ray has not completed within 1 s of its issue (R326). -/
def State.rayLate (s : State) (r : Ray) : Bool := decide (1000000000 ≤ (s.time.now - r.issued).toNat)

/-- Ends a ray that has not completed within 1 s (R324, R326). -/
def State.endLateRay (s : State) (r : Ray) : State := s.endRay r (r.errResult 0x1A false) 0x1A 0

/-- A ray of a batch: it ends, or goes to the queue where its work is. DEDUCED (notes/assumptions/45). -/
def State.traverse (s : State) (r : Ray) (i : Nat) : State :=
  let s := { s with rays := s.rays.filter fun x => x.cmd.num != r.cmd.num }
  if s.rayLate r then s.endLateRay r else
  match s.visit r i with
  | (s, .error e) => s.endRay r (r.errResult e.code e.poison) e.code e.sel
  | (s, .ok r) =>
    match r.work with
    | [] => s.endRay r r.result 0 0
    | (j, _) :: _ => s.joinRay r j (treeStack j != treeStack i)

/-- How long a treelet's oldest ray has waited, in ticks. -/
def State.queueAge (s : State) (scene i : Nat) : Nat :=
  (s.raysAt scene i).foldl (fun m r => max m (s.time.now - r.since).toNat) 0

/-- The score of a treelet in thousandths of a ray (R326). -/
def State.treeScore (s : State) (scene i : Nat) : Nat := 1000 * (s.raysAt scene i).length + 32 * s.queueAge scene i

/-- Whether Tulle may pick a treelet now (R326). -/
def State.mayPick (s : State) (k scene i : Nat) : Bool :=
  let qs := (s.treeQueues k).filter fun j => (s.holderOf j.1 j.2).isNone
  let old := qs.filter fun j => 64000 ≤ s.queueAge j.1 j.2
  qs.contains (scene, i) &&
    (if old.isEmpty then qs.all fun j => s.treeScore j.1 j.2 ≤ s.treeScore scene i
     else old.contains (scene, i) && old.all fun j => s.queueAge j.1 j.2 ≤ s.queueAge scene i)

-- words

/-- Whether a ray returns a miss untraversed (R323). -/
def missAtOnce (msg : List W32) : Bool :=
  let lo := f32Val (msg.getD 6 0)
  let hi := f32Val (msg.getD 7 0)
  !allFinite (msg.take 6) || ((msg.drop 3).take 3).all (fun w => (f32Val w).isZero) || lo.isNan || hi.isNan || hi.less lo

/-- Sends a lane's ray to its root's stack (R322). -/
def State.sendRay (s : State) (c : CmdMould) (mode scene : Nat) (msg : List W32) : State :=
  let root := (msg.getD 10 0).toNat % 2 ^ 16
  let r : Ray := Ray.restart
    { cmd := c, mode := mode, msg := msg, scene := scene, issued := s.time.now, treelet := root, since := s.time.now,
      spilled := false, entered := [], work := [], hits := [], fate := none }
  if missAtOnce msg then { s with rays := s.rays ++ [{ r with fate := some 0 }] } else s.joinRay r root true

/-- A scene address (R313, R319). -/
def sceneIA (ia : Nat) : Bool := localIA 128 ia && ia / 2 ^ 44 % 8 == 0

/-- `ray` (R312, R313, R322). -/
def execRay (h : Hdr) (x : Unt) (s : State) : Answer :=
  s.runWord (.ray h x) h fun u s =>
    match s.team? u.team with
    | none => .done s []
    | some t =>
      let (s, d) := s.desc u.ctx
      let spans := descSpans d
      let slot (l : Lane) : Nat := (l.reg x.d.toNat).toNat
      let scene (l : Lane) : W64 := l.pair x.b.toNat
      let size := if x.mode = 2 then 512 else 32
      let m (l : Lane) (i : Nat) : Nat := (l.reg (x.a.toNat + i)).toNat
      let resv (l : Lane) : Bool := m l 8 / 16 != 0 || fieldN (m l 9) 15 8 != 0 || m l 10 / 2 ^ 16 != 0
      let bad := s.unitFails u u.plive
        [slotCheck s t slot size size, spanCheck spans scene, windowCheck spans scene slot sceneIA,
         (0x1A, fun l => failAt (resv l) (BitVec.ofNat 64 (slot l)))]
      if !bad.isEmpty then .trap s bad
      else if u.plive.isEmpty then .done s []
      else
        s.issueUnit u t (decide (s.rayLoad u.core + u.plive.length ≤ 2048))
          (u.plive.map fun j => (j, slot (s.lane u j), size))
          (fun j s _ c =>
            let l := s.lane u j
            s.sendRay c x.mode.toNat (pairIA spans (scene l)) (l.run x.a.toNat 11))
          (spanImages spans)

/-- The status word of `trhold` and `trswap` (R328). -/
def treeStatus (version queued : Nat) (code : Byte) : List Byte :=
  bytesOf 8 (version * 2 ^ 48 + min queued 0xFFFFFF * 2 ^ 8 + code.toNat)

/-- A treelet command ends with a code of R328 that is no trap condition. -/
def State.treeDone (s : State) (c : CmdMould) (scene i version : Nat) (code : Byte) : State :=
  s.endCmd c (treeStatus version (s.raysAt scene i).length code) 0 0

/-- A treelet command ends with a trap condition. -/
def State.treeFail (s : State) (c : CmdMould) (version : Nat) (e : UnitErr) : State :=
  s.endCmd c (treeStatus version 0 e.code) e.code e.sel

/-- The issue of a treelet command that has a slot (R312, R313), with the operands of the lowest live lane of P. -/
def State.treeWord (s : State) (i : Instr) (h : Hdr) (x : Unt) (present : Bool)
    (make : Bun → Nat → Nat → State → CmdMould → Effect) : Answer :=
  s.onceWord i h fun u t j l s =>
    let (s, d) := s.desc u.ctx
    let spans := descSpans d
    let slot (l : Lane) : Nat := (l.reg x.d.toNat).toNat
    let scene (l : Lane) : W64 := l.pair x.a.toNat
    let bad := s.unitFails u [j] [slotCheck s t slot 8 8, spanCheck spans scene, windowCheck spans scene slot sceneIA]
    match bad with
    | (_, tr) :: _ => .trap s (trapAll u.plive tr)
    | [] =>
      let ls := [(Space.sh, slot l / 128)]
      if present && !s.linesPresent u.team ls then s.parkLines u ls
      else if 16 ≤ s.treeLoad u.core || t.local_.full [slot l / 128] then .hold s
      else
        let (num, s) := s.fresh
        let c := s.mould u j num num (slot l) 8 (spanImages spans)
        make u (pairIA spans (scene l)) ((l.reg x.b.toNat).toNat % 2 ^ 16) (s.raiseLines u.team .sh [slot l / 128]) c

/-- Changes a team's hold on a treelet. -/
def State.updHold (s : State) (scene i team : Nat) (f : Hold → Hold) : State :=
  s.updStack (treeStack i) fun y => { y with holds := y.holds.map fun h => if h.on scene i ∧ h.team = team then f h else h }

/-- Changes the hold that a `trhold` has made, where no swap has cleared it. -/
def State.updOwnHold (s : State) (x : TreeCmd) (f : Hold → Hold) : State :=
  s.updStack (treeStack x.treelet) fun y =>
    { y with holds := y.holds.map fun h => if h.on x.scene x.treelet ∧ h.cmd = x.cmd.num then f h else h }

/-- A `trhold` that waits fails (R328): what it has made of a hold is undone, unless another `trhold` of the team has found the
hold and been told so, which R348 then relies on. -/
def State.failHold (s : State) (x : TreeCmd) : State :=
  let mine (h : Hold) : Bool := h.on x.scene x.treelet && h.cmd == x.cmd.num
  (s.updOwnHold x fun h => { h with draining := false }).updStack (treeStack x.treelet) fun y =>
    { y with holds := y.holds.filter fun h => !mine h || h.granted }

/-- `trhold` (R328). -/
def execTrhold (h : Hdr) (x : Unt) (s : State) : Answer :=
  s.treeWord (.trhold h x) h x false fun u scene i s c =>
    match s.treeEntry c scene i with
    | (s, .error (e, v)) => .done (s.treeFail c v e) []
    | (s, .ok e) =>
      match s.holderOf scene i with
      | some t =>
        let s := if t = u.team then s.updHold scene i t fun h => { h with granted := true } else s
        .done (s.treeDone c scene i e.version (if t = u.team then 0x00 else 0x01)) []
      | none =>
        if 64 ≤ s.holdCount (treeStack i) then .done (s.treeDone c scene i e.version 0x02) []
        else
          let hold : Hold :=
            { scene := scene, treelet := i, team := u.team, draining := true, granted := false, cmd := c.num }
          let s := s.updStack (treeStack i) fun k => { k with holds := hold :: k.holds.filter fun h => !h.on scene i }
          .done { s with tcmds := s.tcmds ++ [{ cmd := c, treelet := i, scene := scene, swap := none }] } []

/-- Invalidates Tulle's node cache for the lines of an extent (R329). -/
def State.dropNodes (s : State) (k a n : Nat) : State :=
  s.updStack k fun x => { x with unitLines := x.unitLines.filter fun y => !(y.unit == 0 && (linesOf a n).contains y.at_) }

/-- The new word 0 of a swap (R329): valid, no reserved bit, within the slice. -/
def swapWordOk (scene i w : Nat) : Bool :=
  let e : TreeEntry := { w0 := w, w1 := 0 }
  e.ok && decide (sliceBase scene i + e.off + 128 * e.lines ≤ sliceEnd i)

/-- Swaps a treelet (R329), once the entry's address is found. -/
def State.swapTree (s : State) (c : CmdMould) (scene i spa w : Nat) (e : TreeEntry) (time : W64) : State :=
  let k := treeStack i
  let v := (e.version + 1) % 2 ^ 16
  let w1 := time.toNat % 2 ^ 40 * 2 ^ 24 + fieldN e.w1 23 16 * 2 ^ 16 + v
  let s := s.unitWrite k spa (entryAddr scene i) (bytesOf 8 w ++ bytesOf 8 w1) c.ctx time
  let new : TreeEntry := { w0 := w, w1 := w1 }
  let s := s.dropNodes k (sliceBase scene i + e.off) (128 * e.lines)
  let s := s.dropNodes k (sliceBase scene i + new.off) (128 * new.lines)
  let s := s.updStack k fun x => { x with holds := x.holds.filter fun h => !h.on scene i }
  s.treeDone c scene i v 0x00

/-- Performs a swap whose new word 0 is read, or leaves it to wait for leases on the entry's grain (R273, R329): `sel` is the
error of the word's read, and `turn` the completion time of one that has waited. -/
def State.trySwap (s : State) (c : CmdMould) (scene i w : Nat) (sel : Option Nat) (turn : Option W64) : State :=
  let k := treeStack i
  let s := { s with tcmds := s.tcmds.filter fun y => y.cmd.num != c.num }
  match s.treeEntry c scene i with
  | (s, .error (e, v)) => s.treeFail c v e
  | (s, .ok e) =>
    if s.holderOf scene i ≠ some c.team then s.treeDone c scene i e.version 0x03
    else match sel with
      | some x => s.treeFail c e.version { code := 0x18, sel := BitVec.ofNat 64 x }
      | none =>
        if !swapWordOk scene i w then s.treeFail c e.version { code := 0x1A, sel := 0 }
        else match s.unitSpot c.images k (entryAddr scene i) 16 true with
          | (s, none) => s.treeFail c e.version { code := 0x11, sel := 0 }
          | (s, some spa) => match (if turn.isSome then turn else s.unitNow k spa) with
            | some time => s.swapTree c scene i spa w e time
            | none =>
              let s := s.unitClaim k (entryAddr scene i) c.num c.ctx (.unit spa)
              { s with tcmds := s.tcmds ++ [{ cmd := c, treelet := i, scene := scene, swap := some w }] }

/-- `trswap` (R329). -/
def execTrswap (h : Hdr) (x : Unt) (s0 : State) : Answer :=
  s0.treeWord (.trswap h x) h x true fun u scene i s c =>
    let (s, data, sel) := (s.noteRead u .sh [c.slot]).unitRead u.team .sh c.slot 8
    .done (s.trySwap c scene i (ofBytes data) sel none) []

/-- The turn of a swap that was held (R273): `w` is its completion time. -/
def State.heldSwap (s : State) (num : Nat) (w : W64) : State :=
  match s.tcmds.find? fun x => x.cmd.num == num with
  | none => s
  | some x => match x.swap with
    | some word => (s.trySwap x.cmd x.scene x.treelet word none (some w)).settle
    | none => s

/-- The status word of `trstat` (R330). -/
def State.treeStat (s : State) (team scene i version : Nat) : W32 :=
  let held := s.holderOf scene i
  let draining := held.isSome && (s.stack (treeStack i)).holds.any fun h => h.on scene i && h.draining
  BitVec.ofNat 32 ((if held.isSome then 2 ^ 31 else 0) + (if held = some team then 2 ^ 30 else 0) +
    (if draining then 2 ^ 29 else 0) + min (s.raysAt scene i).length 8191 * 2 ^ 16 + version)

/-- `trstat` (R330). -/
def execTrstat (h : Hdr) (x : Unt) (s : State) : Answer :=
  s.onceWord (.trstat h x) h fun u _ j l s =>
    let (s, d) := s.desc u.ctx
    let spans := descSpans d
    let scene (l : Lane) : W64 := l.pair x.a.toNat
    match s.unitFails u [j] [spanCheck spans scene, windowCheck spans scene (fun _ => 0) sceneIA] with
    | (_, tr) :: _ => .trap s (trapAll u.plive tr)
    | [] =>
      let i := (l.reg x.b.toNat).toNat % 2 ^ 16
      let c := s.mould u j 0 0 0 0 (spanImages spans)
      match s.treeEntry c (pairIA spans (scene l)) i with
      | (s, .ok e) => s.statusResult u x.d.toNat (s.treeStat u.team (pairIA spans (scene l)) i e.version)
      | (s, .error (e, _)) =>
        let at_ : W64 := if e.code = 0x1A then 0 else BitVec.ofNat 64 (entryAddr (pairIA spans (scene l)) i)
        let (num, s) := s.fresh
        let r : Result := { num := num, pc := u.pc, need := .formed, writes := [], flags := 0,
                            trap := some (trapAt e.code u.pc e.sel at_), back := false }
        .done (s.mapLanes u u.act fun _ l => l.addResult r) []

-- events

/-- Rays rejoin their queues wherever a batch may have made room. -/
def State.unspillAll (s : State) : State := (List.range 8).foldl (fun s k => s.unspill k s.rays) s

/-- RAY_TRAVERSE_BATCH (R326): the subject names a stack and scene and index of the treelet that its Tulle picks, all of whose queued rays it
traverses; or a ray that ends untraversed. -/
def execRayTraverseBatch (s : State) : Answer :=
  match s.subject with
  | .unit3 k scene i =>
    if !s.mayPick k scene i then .next s
    else .next ((((s.raysAt scene i).foldl (fun s r => s.traverse r i) s).unspillAll).settle)
  | .unit num =>
    match s.rays.find? fun r => r.cmd.num == num with
    | none => .next s
    | some r =>
      if s.rayLate r then .next ((s.endLateRay r).settle) else
      match r.fate with
      | none => .next s
      | some 0 => .next ((s.endRay r r.result 0 0).settle)
      | some c => .next ((s.endRay r (r.errResult c false) c 0).settle)
  | _ => .next s

/-- RAY_TIMEOUT (R326): the subject names the ray; one that has not completed 1 s after its issue ends. -/
def execRayTimeout (s : State) : Answer :=
  match s.subject with
  | .unit num =>
    match s.rays.find? fun r => r.cmd.num == num with
    | none => .next s
    | some r =>
      if s.rayLate r then .next (((s.endLateRay r).unspillAll).settle) else .next s
  | _ => .next s

/-- TRHOLD_DRAINED (R328): the subject names the waiting command; no batch is inside its treelet. -/
def execTrholdDrained (s : State) : Answer :=
  match s.subject with
  | .unit num =>
    match s.tcmds.find? fun x => x.cmd.num == num && x.swap.isNone with
    | none => .next s
    | some x =>
      let s := { s with tcmds := s.tcmds.filter fun y => y.cmd.num != num }
      match s.treeEntry x.cmd x.scene x.treelet with
      | (s, .error (e, v)) => .next (((s.failHold x).treeFail x.cmd v e).settle)
      | (s, .ok e) =>
        let s := s.updOwnHold x fun h => { h with draining := false, granted := true }
        .next ((s.treeDone x.cmd x.scene x.treelet e.version 0x00).settle)
  | _ => .next s

end Sys2Proof.Machine
end

