-- ==== Sys2Proof/Machine/Gauze.lean ====
section
/-! DEFINITION. Gauze: texture filtering and hash grids (R312, R313, R333-R339), with the events of their results. -/
namespace Sys2Proof.Machine

-- f32 steps, each rounded RNE

def f32Mul (a b : W64) : W64 := (mulF fmtF32 .rne false a b).val
def f32Fma (a b c : W64) : W64 := (fmaF fmtF32 .rne false a b c).val
def f32Round (x : Dy) : W64 := (roundDy fmtF32 .rne false false x).val
/-- An f16 as f32, and an f32 as f16. -/
def f16To32 (w : W64) : W64 := (convertFF fmtF16 fmtF32 .rne false w).val
def f32To16 (w : W64) : W64 := (convertFF fmtF32 fmtF16 .rne false w).val

/-- Reads for a command through Gauze's private cache (R339). -/
def State.gauzeRead (s : State) (g : GauzeCmd) (ia n : Nat) : State × Option UnitData :=
  s.unitBytes 1 g.cmd.ctx g.cmd.images g.stack ia n

/-- Reads a command's descriptor (R333, R337). -/
def State.gauzeDesc (s : State) (g : GauzeCmd) : State × Except UnitErr (List Nat) :=
  match s.unitGood 1 g.cmd.ctx g.cmd.images g.stack g.desc 64 with
  | (s, .error e) => (s, .error e)
  | (s, .ok bs) => (s, .ok ((List.range 8).map fun i => ofBytes ((bs.drop (8 * i)).take 8)))

-- textures

/-- A texture descriptor (R333). -/
structure Texture where
  w : List Nat
  deriving DecidableEq, Repr

def Texture.word (t : Texture) (i : Nat) : Nat := t.w.getD i 0
def Texture.off (t : Texture) : Nat := fieldN (t.word 0) 39 7 * 128
def Texture.threeD (t : Texture) : Bool := fieldN (t.word 1) 53 52 == 1
def Texture.nl (t : Texture) : Nat := fieldN (t.word 1) 51 48
def Texture.fmt (t : Texture) : Nat := fieldN (t.word 2) 7 0

/-- Dimensions of a level (R333). -/
def Texture.dims (t : Texture) (l : Nat) : List Nat :=
  let d (i : Nat) : Nat := max 1 ((fieldN (t.word 1) (16 * i + 15) (16 * i) + 1) / 2 ^ l)
  [d 0, d 1, if t.threeD then d 2 else 1]

/-- Bytes of a texel (R334). -/
def texelBytes (fmt : Nat) : Nat := match fmt with
  | 2 => 8
  | 3 => 2
  | 6 => 1
  | _ => 4

/-- Bytes of a level's texels, and those rounded up to 128 (R333). -/
def Texture.texels (t : Texture) (l : Nat) : Nat := (t.dims l).foldl (· * ·) (texelBytes t.fmt)
def Texture.levelBytes (t : Texture) (l : Nat) : Nat := (t.texels l + 127) / 128 * 128

/-- Where a level starts, from the descriptor (R333). -/
def Texture.levelStart (t : Texture) (l : Nat) : Nat := (List.range l).foldl (fun a i => a + t.levelBytes i) t.off

/-- The checks of R333 for a descriptor at an address of stack k. -/
def Texture.ok (t : Texture) (desc k : Nat) : Bool :=
  let big := (t.dims 0).foldl max 1
  fieldN (t.word 0) 63 40 == 0 && fieldN (t.word 0) 6 0 == 0 && fieldN (t.word 1) 63 54 == 0 &&
    decide (fieldN (t.word 1) 53 52 < 2) && fieldN (t.word 2) 63 17 == 0 && decide (t.fmt ≤ 6) &&
    (t.w.drop 4).all (· == 0) && decide (t.nl ≤ Nat.log2 big) &&
    decide (desc + t.levelStart t.nl + t.texels t.nl ≤ 2 ^ 47 + 2 ^ 44 * k + 2 ^ 36)

/-- c / 255 (R334). -/
def unorm (c : Nat) : W64 := if c = 0 then 0 else (roundMag fmtF32 .rne false false c 255).val

/-- The greatest `r + k`, `k < 2^n`, whose fifth power times `d` is at most `a`. -/
def root5 (a d : Nat) : Nat → Nat → Nat
  | 0, r => r
  | n + 1, r => if (r + 2 ^ n) ^ 5 * d ≤ a then root5 a d n (r + 2 ^ n) else root5 a d n r

/-- The IEC 61966-2-1 decoding of c / 255 (R334): linear to 0.04045, else ((x + 0.055) / 1.055) ^ 2.4. -/
def srgb (c : Nat) : W64 :=
  if c = 0 then 0
  else if c ≤ 10 then (roundMag fmtF32 .rne false false (100 * c) (255 * 1292)).val
  else
    let n := (1000 * c + 14025) ^ 12 * 2 ^ 500
    let d := 269025 ^ 12
    let r := root5 n d 101 0
    (roundMag fmtF32 .rne false false (2 * r + (if r ^ 5 * d = n then 0 else 1)) (2 ^ 101)).val

/-- The components of a texel from its bytes (R334). -/
def texel (fmt : Nat) (bs : List Byte) : List W64 :=
  let b (i : Nat) : Nat := (bs.getD i 0).toNat
  let h (i : Nat) : W64 := BitVec.ofNat 64 (b (2 * i) + 256 * b (2 * i + 1))
  let one : W64 := 0x3F800000
  match fmt with
  | 0 => [unorm (b 0), unorm (b 1), unorm (b 2), unorm (b 3)]
  | 1 => [srgb (b 0), srgb (b 1), srgb (b 2), unorm (b 3)]
  | 2 => [f16To32 (h 0), f16To32 (h 1), f16To32 (h 2), f16To32 (h 3)]
  | 3 => [f16To32 (h 0), 0, 0, one]
  | 4 => [f16To32 (h 0), f16To32 (h 1), 0, one]
  | 5 => [BitVec.ofNat 64 (ofBytes (bs.take 4)), 0, 0, one]
  | _ => [unorm (b 0), 0, 0, one]

/-- The components of a texel that cannot be read (R339): those that memory gives are poison. -/
def badTexel (fmt : Nat) : List W64 :=
  let p : W64 := poisonWord.setWidth 64
  match fmt with
  | 3 | 5 | 6 => [p, 0, 0, 0x3F800000]
  | 4 => [p, p, 0, 0x3F800000]
  | _ => [p, p, p, p]

/-- The address mode of an axis (R333, R336): none is the border. -/
def wrapCoord (mode n : Nat) (i : Int) : Option Nat :=
  match mode with
  | 0 => some (i % (n : Int)).toNat
  | 1 => some (min (max i 0) ((n : Int) - 1)).toNat
  | 2 => let m := (i % (2 * (n : Int))).toNat
         some (if m < n then m else 2 * n - 1 - m)
  | _ => if 0 ≤ i ∧ i < (n : Int) then some i.toNat else none

/-- The components of BORDER (R333, R336). -/
def Texture.border (t : Texture) : List W64 :=
  (List.range 4).map fun i => f16To32 (BitVec.ofNat 64 (fieldN (t.word 3) (16 * i + 15) (16 * i)))

/-- What sampling has found so far: a value, and the selector of the first bad codeword. -/
structure Sample where
  vals : List W64
  sel : Option W64
  deriving DecidableEq, Repr

/-- Reads the texel at integer coordinates of a level (R333, R336): none where its address fails R315. -/
def State.texelAt (s : State) (g : GauzeCmd) (t : Texture) (l : Nat) (cs : List Int) : State × Option Sample :=
  let dims := t.dims l
  let at_ (i : Nat) : Option Nat := wrapCoord (fieldN (t.word 2) (9 + 2 * i) (8 + 2 * i)) (dims.getD i 1) (cs.getD i 0)
  match at_ 0, at_ 1, (if t.threeD then at_ 2 else some 0) with
  | some x, some y, some z =>
    let n := texelBytes t.fmt
    let a := g.desc + t.levelStart l + n * ((z * dims.getD 1 1 + y) * dims.getD 0 1 + x)
    match s.gauzeRead g a n with
    | (s, none) => (s, none)
    | (s, some d) =>
      (s, some (if d.bad.isEmpty then { vals := texel t.fmt d.data, sel := none }
                else { vals := badTexel t.fmt, sel := some d.sel }))
  | _, _, _ => (s, some { vals := t.border, sel := none })

/-- The first bad codeword stands. -/
def orSel (a b : Option W64) : Option W64 := match a with | some x => some x | none => b

/-- One axis of a linear sample (R335): i0 and the two weights. -/
def linearAxis (coord : Dy) (n : Nat) : Int × W64 × W64 :=
  let p := (coord.mul (Dy.ofInt n)).sub { m := 1, e := -1 }
  let i := p.floor
  let f := f32Round (p.sub (Dy.ofInt i))
  (i, f32Round ((Dy.ofInt 1).sub (fmtF32.decode f).dy), f)

/-- The corners of a linear sample, ascending (R335): one rounding per corner and component. -/
def State.linearCorners (s : State) (g : GauzeCmd) (t : Texture) (l : Nat) (axes : List (Int × W64 × W64)) :
    List Nat → Sample → State × Option Sample
  | [], acc => (s, some acc)
  | c :: cs, acc =>
    let d (i : Nat) : Nat := c / 2 ^ i % 2
    let ax (i : Nat) : Int × W64 × W64 := axes.getD i (0, 0, 0)
    let wt (i : Nat) : W64 := if d i = 0 then (ax i).2.1 else (ax i).2.2
    let w := f32Mul (wt 0) (wt 1)
    let w := if t.threeD then f32Mul w (wt 2) else w
    match s.texelAt g t l ((List.range 3).map fun i => (ax i).1 + (d i : Int)) with
    | (s, none) => (s, none)
    | (s, some x) =>
      s.linearCorners g t l axes cs
        { vals := (x.vals.zip acc.vals).map fun p => f32Fma w p.1 p.2, sel := orSel acc.sel x.sel }

/-- Sample(l) (R335). DEDUCED (notes/assumptions/46). -/
def State.sample (s : State) (g : GauzeCmd) (t : Texture) (l : Nat) (linear : Bool) : State × Option Sample :=
  let coord (i : Nat) : Dy := if i = 2 ∧ !t.threeD then Dy.ofInt 0 else f32Dy (g.coords.getD i 0)
  let dims := t.dims l
  if linear then
    s.linearCorners g t l ((List.range 3).map fun i => linearAxis (coord i) (dims.getD i 1))
      (List.range (if t.threeD then 8 else 4)) { vals := [0, 0, 0, 0], sel := none }
  else s.texelAt g t l ((List.range 3).map fun i => ((coord i).mul (Dy.ofInt (dims.getD i 1 : Nat))).floor)

/-- The levels of a sample and the weight of the second (R335). -/
def Texture.levels (t : Texture) (lod : Dy) : Nat × Nat × Dy × Bool :=
  let lam := if lod.lt (Dy.ofInt 0) then Dy.ofInt 0 else if (Dy.ofInt t.nl).lt lod then Dy.ofInt t.nl else lod
  let linear := if lam.m = 0 then fieldN (t.word 2) 14 14 == 1 else fieldN (t.word 2) 15 15 == 1
  if fieldN (t.word 2) 16 16 = 1 ∧ lam.m ≠ 0 then
    let l0 := lam.floor.toNat
    (l0, min (l0 + 1) t.nl, lam.sub (Dy.ofInt l0), linear)
  else
    let l := min (lam.add { m := 1, e := -1 }).floor.toNat t.nl
    (l, l, Dy.ofInt 0, linear)

/-- What a command at Gauze writes: the bytes, and its trap condition. -/
structure GauzeRes where
  data : List Byte
  code : Byte
  sel : W64
  deriving DecidableEq, Repr

def gauzeFail (data : List Byte) (e : UnitErr) : GauzeRes := { data := data, code := e.code, sel := e.sel }

/-- Values as f16 in a slot, with the mark of a bad codeword (R339). -/
def gauzeDone (vals : List W64) (sel : Option W64) : GauzeRes :=
  { data := vals.flatMap fun v => bytesOf 2 v.toNat, code := if sel.isSome then 0x18 else 0, sel := sel.getD 0 }

/-- `filt` at Gauze (R335). What a command that cannot sample writes is not stated. -/
def State.filter (s : State) (g : GauzeCmd) : State × GauzeRes :=
  let unstated (s : State) (e : UnitErr) : State × GauzeRes :=
    let (bs, s) := s.freeBytes 8
    (s, gauzeFail bs e)
  match s.gauzeDesc g with
  | (s, .error e) => unstated s e
  | (s, .ok ws) =>
    let t : Texture := { w := ws }
    let used := g.coords.zipIdx.filterMap fun (w, i) => if i = 2 ∧ !t.threeD then none else some w
    if !t.ok g.desc g.stack then unstated s { code := 0x1A, sel := 0 }
    else if !allFinite used then (s, gauzeDone (List.replicate 4 0x7E00) none)
    else
      let (l0, l1, a, linear) := t.levels (f32Dy (g.coords.getD 3 0))
      match s.sample g t l0 linear with
      | (s, none) => unstated s { code := 0x11, sel := 0 }
      | (s, some x) =>
        match s.sample g t l1 linear with
        | (s, none) => unstated s { code := 0x11, sel := 0 }
        | (s, some y) =>
          let b := f32Round ((Dy.ofInt 1).sub a)
          let a := f32Round a
          (s, gauzeDone ((x.vals.zip y.vals).map fun p => f32To16 (f32Fma b p.1 (f32Mul a p.2))) (orSel x.sel y.sel))

-- hash grids

/-- A hash-grid descriptor (R337). -/
structure HashGrid where
  w : List Nat
  deriving DecidableEq, Repr

def HashGrid.word (t : HashGrid) (i : Nat) : Nat := t.w.getD i 0
def HashGrid.off (t : HashGrid) : Nat := fieldN (t.word 0) 39 7 * 128
def HashGrid.bres (t : HashGrid) : Nat := fieldN (t.word 1) 51 32
def HashGrid.tb (t : HashGrid) : Nat := fieldN (t.word 1) 12 8
def HashGrid.features (t : HashGrid) : Nat := 2 * 2 ^ fieldN (t.word 1) 5 4
def HashGrid.levels (t : HashGrid) : Nat := fieldN (t.word 1) 3 0 + 1
def HashGrid.grow (t : HashGrid) : W32 := BitVec.ofNat 32 (fieldN (t.word 2) 31 0)

/-- G^l, exactly. -/
def Dy.pow (a : Dy) : Nat → Dy
  | 0 => Dy.ofInt 1
  | n + 1 => (a.pow n).mul a

/-- Nl (R337). -/
def HashGrid.res (t : HashGrid) (l : Nat) : Nat := ((Dy.ofInt t.bres).mul ((f32Dy t.grow).pow l)).floor.toNat

/-- The checks of R337. -/
def HashGrid.ok (t : HashGrid) : Bool :=
  fieldN (t.word 0) 63 40 == 0 && fieldN (t.word 0) 6 0 == 0 && fieldN (t.word 1) 63 52 == 0 && fieldN (t.word 1) 31 13 == 0 &&
    fieldN (t.word 1) 7 6 == 0 && fieldN (t.word 2) 63 32 == 0 && (t.w.drop 3).all (· == 0) && decide (1 ≤ t.bres) &&
    decide (8 ≤ t.tb) && decide (t.tb ≤ 22) && fieldN (t.word 1) 5 4 != 3 && (f32Val t.grow).isFinite &&
    (Dy.ofInt 1).le (f32Dy t.grow) && (List.range t.levels).all fun l => t.res l ≤ 2 ^ 20

/-- One axis of a level (R338): the cell, and the exact weights; none where the product overflows. -/
def hashAxis (coord : W32) (n : Nat) : Option (Int × Dy × Dy) :=
  match fmtF32.decode (f32Round ((f32Dy coord).mul (Dy.ofInt n))) with
  | .fin neg m e =>
    let x := (FVal.fin neg m e).dy
    let c := x.floor
    let f := x.sub (Dy.ofInt c)
    some (c, (fmtF32.decode (f32Round ((Dy.ofInt 1).sub f))).dy, f)
  | _ => none

/-- The table entry of a grid point (R338). -/
def gridHash (tb : Nat) (x y z : Int) : Nat :=
  let m (i : Int) : W32 := BitVec.ofInt 32 i
  (m x ^^^ (m y * 0x9E3B4C71) ^^^ (m z * 0x5D2AE6B3)).toNat % 2 ^ tb

/-- The corners of a level, ascending (R338). -/
def State.hashCorners (s : State) (g : GauzeCmd) (t : HashGrid) (table : Nat) (axes : List (Int × Dy × Dy)) :
    List Nat → Sample → State × Option Sample
  | [], acc => (s, some acc)
  | k :: ks, acc =>
    let d (i : Nat) : Nat := k / 2 ^ i % 2
    let ax (i : Nat) : Int × Dy × Dy := axes.getD i (0, Dy.ofInt 0, Dy.ofInt 0)
    let wt (i : Nat) : Dy := if d i = 0 then (ax i).2.1 else (ax i).2.2
    let c (i : Nat) : Int := (ax i).1 + (d i : Int)
    let w1 := (fmtF32.decode (f32Round ((wt 0).mul (wt 1)))).dy
    let w := f32Round (w1.mul (wt 2))
    let n := t.features
    match s.gauzeRead g (table + 2 * n * gridHash t.tb (c 0) (c 1) (c 2)) (2 * n) with
    | (s, none) => (s, none)
    | (s, some x) =>
      let feature (i : Nat) : W64 :=
        if x.bad.isEmpty then f16To32 (BitVec.ofNat 64 (ofBytes ((x.data.drop (2 * i)).take 2))) else poisonWord.setWidth 64
      let sel := if x.bad.isEmpty then none else some x.sel
      s.hashCorners g t table axes ks
        { vals := acc.vals.zipIdx.map fun (a, i) => f32Fma w (feature i) a, sel := orSel acc.sel sel }

/-- The levels of a hash grid in order (R338). -/
def State.hashLevels (s : State) (g : GauzeCmd) (t : HashGrid) : List Nat → Sample → State × Option Sample
  | [], out => (s, some out)
  | l :: ls, out =>
    let n := t.features
    match g.coords.take 3 |>.mapM fun c => hashAxis c (t.res l) with
    | none => s.hashLevels g t ls { out with vals := out.vals ++ List.replicate n 0x7E00 }
    | some axes =>
      let table := g.desc + t.off + l * 2 ^ t.tb * 2 * n
      match s.hashCorners g t table axes (List.range 8) { vals := List.replicate n 0, sel := none } with
      | (s, none) => (s, none)
      | (s, some x) => s.hashLevels g t ls { vals := out.vals ++ x.vals.map f32To16, sel := orSel out.sel x.sel }

/-- `hgrid` at Gauze (R338). -/
def State.hashGrid (s : State) (g : GauzeCmd) : State × GauzeRes :=
  match s.gauzeDesc g with
  | (s, .error e) => (s, gauzeFail [] e)
  | (s, .ok ws) =>
    let t : HashGrid := { w := ws }
    let nans := List.replicate (t.levels * t.features) (0x7E00 : W64)
    if !t.ok then (s, gauzeFail [] { code := 0x1A, sel := 0 })
    else if !allFinite (g.coords.take 3) then (s, gauzeDone nans none)
    else match s.hashLevels g t (List.range t.levels) { vals := [], sel := none } with
      | (s, none) => (s, gauzeFail (gauzeDone nans none).data { code := 0x11, sel := 0 })
      | (s, some x) => (s, gauzeDone x.vals x.sel)

-- words and events

/-- The issue of a Gauze command (R312, R313, R317): `size` and `align` of its slot, `n` coordinate registers. -/
def State.gauzeWord (s : State) (i : Instr) (h : Hdr) (x : Unt) (hash : Bool) (size align n : Nat) : Answer :=
  s.runWord i h fun u s =>
    match s.team? u.team with
    | none => .done s []
    | some t =>
      let (s, d) := s.desc u.ctx
      let spans := descSpans d
      let slot (l : Lane) : Nat := (l.reg x.d.toNat).toNat
      let desc (l : Lane) : W64 := l.pair x.b.toNat
      let bad := s.unitFails u u.plive
        [slotCheck s t slot size align, spanCheck spans desc, windowCheck spans desc slot (localIA 64)]
      if !bad.isEmpty then .trap s bad
      else if u.plive.isEmpty then .done s []
      else
        s.issueUnit u t (decide (s.gauzeLoad u.core + u.plive.length ≤ 4096))
          (u.plive.map fun j => (j, slot (s.lane u j), size))
          (fun j s _ c =>
            let l := s.lane u j
            let ia := pairIA spans (desc l)
            let g : GauzeCmd := { cmd := c, hash := hash, stack := ia / 2 ^ 44 % 8, desc := ia, coords := l.run x.a.toNat n }
            { s with gauze := s.gauze ++ [g] })
          (spanImages spans)

/-- `filt` (R335). -/
def execFilt (h : Hdr) (x : Unt) (s : State) : Answer := s.gauzeWord (.filt h x) h x false 8 8 4

/-- `hgrid` (R338): the issue check covers 256 bytes. -/
def execHgrid (h : Hdr) (x : Unt) (s : State) : Answer := s.gauzeWord (.hgrid h x) h x true 256 16 3

/-- A Gauze command ends with its result. -/
def State.endGauze (s : State) (g : GauzeCmd) (r : GauzeRes) : State :=
  (({ s with gauze := s.gauze.filter fun y => y.cmd.num != g.cmd.num }).endCmd g.cmd r.data r.code r.sel).settle

/-- FILT_RESULT (R335): the subject names the command. -/
def execFiltResult (s : State) : Answer :=
  match s.subject with
  | .unit num =>
    match s.gauze.find? fun y => y.cmd.num == num && !y.hash with
    | none => .next s
    | some g => let (s, r) := s.filter g; .next (s.endGauze g r)
  | _ => .next s

/-- HGRID_RESULT (R338): the subject names the command. -/
def execHgridResult (s : State) : Answer :=
  match s.subject with
  | .unit num =>
    match s.gauze.find? fun y => y.cmd.num == num && y.hash with
    | none => .next s
    | some g => let (s, r) := s.hashGrid g; .next (s.endGauze g r)
  | _ => .next s

end Sys2Proof.Machine
end

