-- ==== Sys2Proof/Machine/Calico.lean ====
section
/-! DEFINITION. Calico: `bank` (R312, R313, R340), the check of a program (R341), its bundles (R342, R343), columns of DRAM
rows (R344, R346), writes (R344, R347) and the status line (R345). -/
namespace Sys2Proof.Machine

-- programs

/-- A move (R341). -/
structure Move2 where
  dst : Nat
  src : Nat
  imm : Nat
  deriving DecidableEq, Repr

def moveOf (w : Nat) : Move2 := { dst := fieldN w 31 26, src := fieldN w 25 20, imm := fieldN w 19 0 }

/-- The moves of a bundle: a no-op move is none (R341). -/
def bundleMoves (w : W64) : List Move2 :=
  [moveOf (w.toNat % 2 ^ 32), moveOf (w.toNat / 2 ^ 32)].filter fun m => m != { dst := 0x3F, src := 0x3F, imm := 0 }

/-- Readable and writable ports (R342). -/
def portReads (n : Nat) : Bool := decide (n < 16) || [0x10, 0x11, 0x13, 0x16, 0x17, 0x1A, 0x1D, 0x1F, 0x3F].contains n
def portWrites (n : Nat) : Bool :=
  decide (n < 16) || [0x10, 0x11, 0x12, 0x14, 0x15, 0x16, 0x17, 0x18, 0x19, 0x1B, 0x1C, 0x1E, 0x3E].contains n

/-- The check of a bundle (R341). -/
def bundleOk (w : W64) : Bool :=
  let ms := bundleMoves w
  let ds := ms.map (·.dst)
  ms.all (fun m => portWrites m.dst && portReads m.src && (m.imm == 0 || m.src == 0x3F)) &&
    decide (ds.eraseDups.length = ds.length) && !(ds.contains 0x11 && ds.contains 0x1B)

-- status

/-- The status line (R345), as 32 words. -/
def CalicoCmd.status (c : CalicoCmd) (code : Byte) (fault badcmd done : Bool) (last : Nat) : List W32 :=
  let b (x : Bool) (n : Nat) : Nat := if x then 2 ^ n else 0
  BitVec.ofNat 32 (code.toNat * 2 ^ 24 + b fault 6 + b badcmd 5 + b c.shadow 4 + b c.ce 3 + b c.ue 2 + b done 0) ::
    BitVec.ofNat 32 (last * 2 ^ 8 + c.outs.length) :: List.replicate 30 0

/-- A command ends (R344, R345): with a condition, or normally with `none`. Columns that are still to come are never read, and
nothing of them is reported (R343). DESIGN CHOICE (notes/assumptions/68). -/
def State.endCalico (s : State) (c : CalicoCmd) (stop : Option Byte) (last : Nat) : State :=
  let code : Byte := match stop with | some x => x | none => if c.ue then 0x18 else 0
  let line := c.status code (stop == some 0x11) (stop == some 0x1A) stop.isNone last
  let data := bytesOfWords (line ++ c.outs.flatMap id)
  let data := data ++ List.replicate (c.cmd.size - data.length) 0
  (({ s with calico := s.calico.filter fun y => y.cmd.num != c.cmd.num }).endCmd c.cmd data code (c.firstUe.getD 0)).settle

/-- The command that runs on a unit: the first that has come to it (R344). -/
def State.calicoOn (s : State) (unit : Nat) : Option CalicoCmd := s.calico.find? fun c => c.unit == unit

def CalicoCmd.stack (c : CalicoCmd) : Nat := c.unit / 16

/-- Stores a command's new state. -/
def State.putCalico (s : State) (c : CalicoCmd) : State :=
  { s with calico := s.calico.map fun y => if y.cmd.num = c.cmd.num then c else y }

-- issue

/-- A command block (R340). -/
structure BankBlock where
  bytes : List Byte
  deriving DecidableEq, Repr

def BankBlock.word (b : BankBlock) (i : Nat) : Nat := ofBytes ((b.bytes.drop (8 * i)).take 8)
def BankBlock.prog (b : BankBlock) : W64 := BitVec.ofNat 64 (fieldN (b.word 0) 55 0)
def BankBlock.data (b : BankBlock) : W64 := BitVec.ofNat 64 (fieldN (b.word 2) 55 0)
def BankBlock.nout (b : BankBlock) : Nat := fieldN (b.word 1) 10 8
def BankBlock.nb (b : BankBlock) : Nat := fieldN (b.word 1) 5 0

/-- The reserved fields and limits of a block, its data in the stack-local window, and the alignments (R313, R340). -/
def BankBlock.ok (b : BankBlock) (prog data : Nat) : Bool :=
  fieldN (b.word 0) 63 56 == 0 && fieldN (b.word 1) 63 11 == 0 && fieldN (b.word 1) 7 6 == 0 && fieldN (b.word 2) 63 56 == 0 &&
    (((b.bytes.drop 0x18).take 0x68).all (· == 0)) && decide (b.nout ≤ 4) && prog % 8 == 0 && localIA 2048 data

/-- The lanes' blocks are read at issue: bytes by slot. A block with an uncorrectable codeword traps 0x18 precisely, INFO0 the
selector and INFO1 the block's address (R340, R358). DESIGN CHOICE (notes/assumptions/68). -/
def State.readBlocks (s : State) (u : Bun) (addr : Lane → Nat) :
    List Nat → List (Nat × BankBlock) → List (Nat × TrapInfo) → State × List (Nat × BankBlock) × List (Nat × TrapInfo)
  | [], bs, ts => (s, bs, ts)
  | j :: js, bs, ts =>
    let a := addr (s.lane u j)
    let (s, data, bad) := s.unitRead u.team .sh a 384
    let ts := match bad with
      | some sel => ts ++ [(j, trapAt 0x18 u.pc (BitVec.ofNat 64 sel) (BitVec.ofNat 64 a))]
      | none => ts
    s.readBlocks u addr js (bs ++ [(j, { bytes := data })]) ts

/-- A command as it comes to its unit (R340). -/
def BankBlock.command (b : BankBlock) (c : CmdMould) (prog data : Nat) : CalicoCmd :=
  let zero : List W32 := List.replicate 32 0
  { cmd := c, unit := 16 * (data / 2 ^ 44 % 8) + data / 2 ^ 11 % 16, prog := prog, nout := b.nout, nb := b.nb, data := data,
    started := false, code := [], at_ := 0,
    k := [wordsOfBytes 32 (b.bytes.drop 0x80), wordsOfBytes 32 (b.bytes.drop 0x100)] ++ List.replicate 14 zero,
    acc := List.replicate 64 0, maca := zero, redo := 0, cvo := zero, row := 0, col := 0, stream := [], outs := [], ce := false,
    ue := false, shadow := false, firstUe := none }

/-- Whether every unit has room for the commands of a word (R317). -/
def State.calicoRoom (s : State) (units : List Nat) : Bool :=
  units.all fun n => s.calicoLoad n + (units.filter (· == n)).length ≤ 64

/-- `bank` (R340). -/
def execBank (h : Hdr) (x : Unt) (s : State) : Answer :=
  s.runWord (.bank h x) h fun u s =>
    match s.team? u.team with
    | none => .done s []
    | some t =>
      let (s, d) := s.desc u.ctx
      let spans := descSpans d
      let block (l : Lane) : Nat := (l.reg x.a.toNat).toNat
      let slot (l : Lane) : Nat := (l.reg x.d.toNat).toNat
      let bad := s.unitFails u u.plive [slotCheck s t block 384 128]
      if !bad.isEmpty then .trap s bad
      else if u.plive.isEmpty then .done s []
      else
        let ls := (slotLines (u.plive.map fun j => (block (s.lane u j), 384))).map fun n => (Space.sh, n)
        if !s.linesPresent u.team ls then s.parkLines u ls
        else
          let read := (u.plive.map fun j => block (s.lane u j)).flatMap fun a => [a, a + 128, a + 256]
          let (s, blocks, unread) := (s.noteRead u .sh read).readBlocks u block u.plive [] []
          if !unread.isEmpty then .trap s unread
          else
            let bl (j : Nat) : BankBlock := (lookupN blocks j).getD { bytes := [] }
            let size (j : Nat) : Nat := 128 * (1 + min (bl j).nout 4)
            let fails (code : Byte) (c : Nat → Lane → Option W64) : List (Nat × TrapInfo) :=
              u.plive.filterMap fun j => (c j (s.lane u j)).map fun a => (j, trapAt code u.pc 0 a)
            let ia (a : W64) : Option Nat := spanXlate spans a.toNat permRead
            let ia0 (a : W64) : Nat := (ia a).getD 0
            let slots := fails 0x11 fun j l =>
              failAt (slot l % 128 != 0 || !s.granted t l.tid .sh (slot l) (size j)) (BitVec.ofNat 64 (slot l))
            let progs := fails 0x11 fun j _ => failAt (ia (bl j).prog).isNone (bl j).prog
            let datas := fails 0x11 fun j _ => failAt (ia (bl j).data).isNone (bl j).data
            let spans' := (progs ++ datas.filter fun p => !(progs.any fun q => q.1 == p.1))
            let odd := fails 0x1A fun j l =>
              failAt (!(bl j).ok (ia0 (bl j).prog) (ia0 (bl j).data)) (BitVec.ofNat 64 (slot l))
            if !slots.isEmpty then .trap s slots
            else if !spans'.isEmpty then .trap s spans'
            else if !odd.isEmpty then .trap s odd
            else
              let make (j : Nat) (c : CmdMould) : CalicoCmd := (bl j).command c (ia0 (bl j).prog) (ia0 (bl j).data)
              let units := u.plive.map fun j => (make j (s.mould u j 0 0 0 0 [])).unit
              s.issueUnit u t (s.calicoRoom units) (u.plive.map fun j => (j, slot (s.lane u j), size j))
                (fun j s _ c => { s with calico := s.calico ++ [make j c] }) (spanImages spans)

-- the unit's DRAM

/-- Whether a read of DRAM corrects an error (R346, R403) in a codeword that `n` bytes touch. -/
def State.corrects (s : State) (k spa n : Nat) : Bool :=
  (List.range ((spa % 32 + n + 31) / 32)).any fun j =>
    let a := spa / 32 * 32 + 32 * j
    let syn := dramSyndrome (s.flipsAt 6 (bankUnit k a) a)
    syn != 0 && dramCorrectable syn

/-- Whether the program read of a command corrects an error: what its private cache holds it does not read again, and a copy
that another agent holds modified is recalled first (R410). -/
def State.progCorrects (s : State) (c : CalicoCmd) : State × Bool :=
  (partsOf c.prog (8 * (c.nb + 1))).foldl (fun (r : State × Bool) (a, m) =>
    match r.1.unitSpot c.cmd.images c.stack a m false with
    | (s, some spa) =>
      if (s.stack c.stack).unitLines.any fun y => y.unit == 2 && y.line == spa / 128 then (s, r.2)
      else
        let s := s.recall c.stack (spa / 128)
        (s, r.2 || s.corrects c.stack spa m)
    | (s, none) => (s, r.2)) (s, false)

/-- The intermediate address of a column (R344). -/
def CalicoCmd.colAddr (c : CalicoCmd) (row col : Nat) : Nat := c.data + 32768 * row + 128 * col

/-- Reads a column (R344, R346): its words, with poison elements in bad codewords; none where its address fails. -/
def State.readColumn (s : State) (c : CalicoCmd) (ia : Nat) : State × Option (CalicoCmd × List W32) :=
  let k := c.stack
  match s.unitSpot c.cmd.images k ia 128 false with
  | (s, none) => (s, none)
  | (s, some spa) =>
    let s := s.recall k (spa / 128)
    let dirty := (s.stack k).dirty (spa / 128)
    let ce := s.corrects k spa 128
    let (s, e) := s.dramLine k (spa / 128) c.cmd.ctx
    let ws := wordsOfBytes 32 (s.mem.dram.read (devKey k spa) 128)
    let ws := ws.zipIdx.map fun (w, i) => if e.words.contains i then 0x7E5A7E5A else w
    let ue := !e.words.isEmpty
    let first := match c.firstUe with
      | some x => some x
      | none => if ue then some (match e.sel with | some x => BitVec.ofNat 64 x | none => 0) else none
    (s, some ({ c with shadow := c.shadow || dirty, ce := c.ce || ce, ue := c.ue || ue, firstUe := first }, ws))

/-- Writes a whole line to DRAM (R344, R347): cached copies are gone, the line is bank-written, its grain is tagged, and a
code line becomes PENDING (R281). `time` is the completion time. -/
def State.bankWrite (s : State) (k spa ia : Nat) (data : List Byte) (time : W64) : State :=
  let line := spa / 128
  let a := devKey k spa
  let s := { s with mem := { s.mem with home := s.mem.home.write a data, dram := s.mem.dram.write a data } }
  let s := (s.storeDram k line).updStack k fun x =>
    let x := { x with cache := x.cache.filter fun c => c.line != line,
                      log := x.log.filter fun e => e.line != line,
                      poison := x.poison.filter (· != line),
                      checks := dropN x.checks line,
                      bankWritten := line :: x.bankWritten.filter (· != line),
                      sharers := x.sharers.filter fun h => h.line != line }
    (x.unpublish line).tag (spa / 512) 0xA00 time
  (s.dropUnitLine k line).fireMain k (ia / 128)

-- bundles

/-- The value of a scalar port (R342). -/
def scalar (w : W32) : List W32 := w :: List.replicate 31 0

/-- Element i of 64 × f16 (R342). -/
def half (ws : List W32) (i : Nat) : W64 := BitVec.ofNat 64 ((ws.getD (i / 2) 0).toNat / 2 ^ (16 * (i % 2)) % 2 ^ 16)

/-- MACT (R342): exact products, one rounding. -/
def multiplyAdd (a v acc : List W32) : List W32 :=
  (List.range 64).map fun i =>
    lo32 (fmaVals fmtF32 .rne false (fmtF16.decode (half a i)) (fmtF16.decode (half v i)) (f32Val (acc.getD i 0))).val

/-- One level of RED (R342). -/
def addPairs : List W32 → List W32
  | a :: b :: rest => lo32 (addF fmtF32 .rne false (a.setWidth 64) (b.setWidth 64)).val :: addPairs rest
  | l => l

/-- RED (R342): the root of the tree over 32 leaves. -/
def reduceTree (ws : List W32) : W32 := (addPairs (addPairs (addPairs (addPairs (addPairs ws))))).getD 0 0

/-- CVH (R342). -/
def narrowAcc (acc : List W32) : List W32 :=
  (List.range 32).map fun i =>
    BitVec.ofNat 32 ((f32To16 ((acc.getD (2 * i) 0).setWidth 64)).toNat + 2 ^ 16 *
      (f32To16 ((acc.getD (2 * i + 1) 0).setWidth 64)).toNat)

/-- What a bundle meets. -/
inductive BundleRes where
  | ok (c : CalicoCmd)
  | ended (c : CalicoCmd)
  | bad (code : Byte) (c : CalicoCmd)
  | stall

/-- Whether a command's stream has a column still to come. -/
def CalicoCmd.coming (c : CalicoCmd) : Bool := c.stream.any fun x => match x with | .pending _ => true | .here _ => false

/-- Reads a source port (R342, R343): `stream` is what earlier pops of the bundle have left; none is a bad command. STAT gives
the words 0x00 and 0x04 of the status, with the OUT units so far and CODE, LAST and DONE 0 (R345). DESIGN CHOICE
(notes/assumptions/68). -/
def CalicoCmd.source (c : CalicoCmd) (m : Move2) (stream : List Column) : Option (List W32 × List Column) :=
  if m.src < 16 then some (c.k.getD m.src [], stream) else
  match m.src with
  | 0x10 => some (scalar (BitVec.ofNat 32 c.row), stream)
  | 0x11 => some (scalar (BitVec.ofNat 32 c.col), stream)
  | 0x13 => match stream with
    | .here ws :: rest => some (ws, rest)
    | _ => none
  | 0x16 => some (c.acc.take 32, stream)
  | 0x17 => some (c.acc.drop 32, stream)
  | 0x1A => some (scalar c.redo, stream)
  | 0x1D => some (c.status 0 false false false 0, stream)
  | 0x1F => some (c.cvo, stream)
  | _ => some (scalar (BitVec.ofNat 32 m.imm), stream)

/-- The values that a bundle's moves read; none where a pop meets a column that is not there. Where both moves read RDS, the
second pops the next column (R342). DESIGN CHOICE (notes/assumptions/68). -/
def CalicoCmd.sources (c : CalicoCmd) : List Move2 → List Column → Option (List (Move2 × List W32) × List Column)
  | [], st => some ([], st)
  | m :: ms, st => match c.source m st with
    | none => none
    | some (v, st) => (c.sources ms st).map fun (vs, st) => ((m, v) :: vs, st)

/-- RDT (R342-R344): `c0` is the command before the bundle. -/
def State.readTrigger (s : State) (c0 c : CalicoCmd) (n : Nat) : State × BundleRes :=
  if n = 0 ∨ 16 < c0.col + n ∨ 16 < c0.stream.length + n then (s, .bad 0x1A c)
  else
    let as := (List.range n).map fun i => c0.colAddr c0.row (c0.col + i)
    let (s, ok) := as.foldl (fun (r : State × Bool) a =>
      let (s, x) := r.1.unitSpot c.cmd.images c.stack a 128 false
      (s, r.2 && x.isSome)) (s, true)
    if ok then (s, .ok { c with stream := c.stream ++ as.map Column.pending }) else (s, .bad 0x11 c)

/-- WRT (R342, R344): leases on the grain hold the write (R273). -/
def State.writeTrigger (s : State) (c0 c : CalicoCmd) (v : List W32) : State × BundleRes :=
  if 16 ≤ c0.col then (s, .bad 0x1A c)
  else
    let ia := c0.colAddr c0.row c0.col
    match s.unitSpot c.cmd.images c.stack ia 128 true with
    | (s, none) => (s, .bad 0x11 c)
    | (s, some spa) =>
      let c := { c with col := c0.col + 1 }
      match s.unitNow c.stack spa with
      | none => (s.unitClaim c.stack ia c.cmd.num c.cmd.ctx (.bank spa (bytesOfWords v)), .ok c)
      | some time =>
        let c := { c with shadow := c.shadow || (s.stack c.stack).dirty (spa / 128) }
        (s.bankWrite c.stack spa ia (bytesOfWords v) time, .ok c)

/-- Writes a destination port (R342): `c0` is the command before the bundle. -/
def State.destination (s : State) (c0 c : CalicoCmd) (m : Move2) (v : List W32) : State × BundleRes :=
  let x := (v.getD 0 0).toNat
  if m.dst < 16 then (s, .ok { c with k := c.k.set m.dst v }) else
  match m.dst with
  | 0x10 => (s, .ok { c with row := x % 2 ^ 20 })
  | 0x11 => if 15 < x then (s, .bad 0x1A c) else (s, .ok { c with col := x })
  | 0x12 => s.readTrigger c0 c x
  | 0x14 => (s, .ok { c with maca := v })
  | 0x15 => (s, .ok { c with acc := multiplyAdd c0.maca v c0.acc })
  | 0x16 => (s, .ok { c with acc := v ++ c.acc.drop 32 })
  | 0x17 => (s, .ok { c with acc := c.acc.take 32 ++ v })
  | 0x18 => (s, .ok { c with acc := List.replicate 64 0 })
  | 0x19 => (s, .ok { c with redo := reduceTree v })
  | 0x1B => s.writeTrigger c0 c v
  | 0x1C => if c.nout ≤ c.outs.length then (s, .bad 0x1A c) else (s, .ok { c with outs := c.outs ++ [v] })
  | 0x1E => (s, .ok { c with cvo := narrowAcc c0.acc })
  | _ => (s, .ended c)

/-- Writes the destinations of a bundle, move 0 first. -/
def State.destinations (s : State) (c0 : CalicoCmd) : CalicoCmd → Bool → List (Move2 × List W32) → State × BundleRes
  | c, e, [] => (s, if e then .ended c else .ok c)
  | c, e, (m, v) :: ms => match s.destination c0 c m v with
    | (s, .ok c) => s.destinations c0 c e ms
    | (s, .ended c) => s.destinations c0 c true ms
    | r => r

/-- Executes the next bundle of a command (R343). DEDUCED (notes/assumptions/47). -/
def State.runBundle (s : State) (c : CalicoCmd) : State × BundleRes :=
  match c.sources (bundleMoves (c.code.getD c.at_ 0)) c.stream with
  | none => if c.coming then (s, .stall) else (s, .bad 0x1A c)
  | some (vs, stream) => s.destinations c { c with stream := stream } false vs

-- events

/-- CALICO_PROGRAM_CHECK (R341): the subject names the unit, whose next command reads and checks its program. -/
def execCalicoProgramCheck (s : State) : Answer :=
  match s.subject with
  | .unit n =>
    match s.calicoOn n with
    | none => .next s
    | some c =>
      if c.started then .next s else
      let (s, ce) := s.progCorrects c
      let c := { c with ce := c.ce || ce }
      match s.unitBytes 2 c.cmd.ctx c.cmd.images c.stack c.prog (8 * (c.nb + 1)) with
      | (s, none) => .next (s.endCalico c (some 0x11) 0)
      | (s, some d) =>
        let code := (List.range (c.nb + 1)).map fun i => BitVec.ofNat 64 (ofBytes ((d.data.drop (8 * i)).take 8))
        if !d.bad.isEmpty then .next (s.endCalico { c with ue := true, firstUe := some d.sel } (some 0x18) 0)
        else if !code.all bundleOk then .next (s.endCalico c (some 0x1A) 0)
        else .next (s.putCalico { c with started := true, code := code })
  | _ => .next s

/-- Whether a write of a command is held for leases (R273). -/
def State.bankHeld (s : State) (c : CalicoCmd) : Bool :=
  (s.stack c.stack).heldWrites.any fun h => h.op == some c.cmd.num

/-- Ends a command, once its writes are performed (R344). -/
def State.overCalico (s : State) (c : CalicoCmd) (stop : Option Byte) (last : Nat) : State :=
  if s.bankHeld c then s.putCalico { c with outcome := some (stop, last) } else s.endCalico c stop last

/-- CALICO_BUNDLE (R343): the subject names the unit. A bundle waits for the write of an earlier one that is held (R273). -/
def execCalicoBundle (s : State) : Answer :=
  match s.subject with
  | .unit n =>
    match s.calicoOn n with
    | none => .next s
    | some c =>
      if !c.started || s.bankHeld c then .next s else
      match c.outcome with
      | some (stop, last) => .next (s.endCalico c stop last)
      | none => match s.runBundle c with
        | (_, .stall) => .next s
        | (s, .bad code c') => .next (s.overCalico c' (some code) c.at_)
        | (s, .ended c') => .next (s.overCalico c' none c.at_)
        | (s, .ok c') =>
          if c.at_ = c.nb then .next (s.overCalico c' none c.at_) else .next (s.putCalico { c' with at_ := c.at_ + 1 })
  | _ => .next s

/-- The first column of a stream that is still to come is there. -/
def arriveColumn (ws : List W32) : List Column → List Column
  | [] => []
  | .pending _ :: rest => .here ws :: rest
  | x :: rest => x :: arriveColumn ws rest

/-- CALICO_COLUMN_ARRIVE (R343, R344, R346): the subject names the unit; columns come in order. One whose address fails as it
arrives ends the program at the bundle that is next, which LAST names (R345). DESIGN CHOICE (notes/assumptions/68). -/
def execCalicoColumnArrive (s : State) : Answer :=
  match s.subject with
  | .unit n =>
    match s.calicoOn n with
    | none => .next s
    | some c =>
      if c.outcome.isSome then .next s else
      match c.stream.findSome? fun x => match x with | .pending a => some a | .here _ => none with
      | none => .next s
      | some a => match s.readColumn c a with
        | (s, none) => .next (s.overCalico c (some 0x11) c.at_)
        | (s, some (c, ws)) => .next (s.putCalico { c with stream := arriveColumn ws c.stream })
  | _ => .next s

-- held writes

/-- Performs the write at a place of a stack's pending-write buffer (R273): its time is W (R236, R263, R266). -/
def State.performHeld (s : State) (k i : Nat) (h : HeldWrite) : State :=
  let s := s.updStack k fun x => x.unhold i s.time.now
  let s := if h.who.writer = 0x800 then s.hostWrote else s
  match h.act with
  | .write a data poison =>
    let s := s.lineWrite k a data h.who h.ia h.ctx h.evp poison (some h.at_)
    match h.op with
    | some num => (s.heldWrote num k a).heldDone num h.at_ 0 none
    | none => s
  | .atomic a wide op cas b c =>
    let (s, r) := s.atomicNow k a wide op cas b c h.who h.ia h.ctx h.evp (some h.at_)
    let s := match h.op with
      | some num => s.heldWrote num k a
      | none => s
    let fault := if r.bad then some ((0x18 : Byte), (match r.sel with | some x => BitVec.ofNat 64 x | none => 0)) else none
    match h.op, h.who.agent with
    | some num, _ => s.heldDone num h.at_ r.old fault
    | none, some d => s.reply d (some (bytesOf (if wide then 8 else 4) r.old.toNat, r.bad)) (some h.at_)
    | none, none => s
  | .unit _ => match h.op with
    | some num => s.heldSwap num h.at_
    | none => s
  | .bank a data =>
    let shadow := (s.stack k).dirty (a / 128)
    let note (c : CalicoCmd) : CalicoCmd := if h.op = some c.cmd.num then { c with shadow := c.shadow || shadow } else c
    { s with calico := s.calico.map note }.bankWrite k a h.ia data h.at_

/-- Performs the writes of one stack that are due, from a place in its buffer on (R273). -/
def State.performStack (s : State) (k : Nat) : Nat → Nat → State
  | 0, _ => s
  | f + 1, i => match (s.stack k).heldWrites[i]? with
    | none => s
    | some h =>
      if s.heldDue k i h then (s.performHeld k i h).performStack k f i
      else s.performStack k f (i + 1)

/-- Performs every held write that is due: each is performed at its W (R273). -/
def State.performDue (s : State) : State :=
  (List.range 8).foldl (fun (s : State) k => s.performStack k (s.stack k).heldWrites.length 0) s

/-- Performs every held write and writes every dirty line back, before a warm start and before status-only mode (R433). -/
def State.quiesce (s : State) : State :=
  (List.range 8).foldl (fun (s : State) k =>
    let s := (s.stack k).heldWrites.foldl (fun (s : State) h => s.performHeld k 0 h) s
    (((s.stack k).cache.filter (·.dirty)).map (·.line)).foldl (fun s l => s.writeBack k l) s) s

/-- PENDING_WRITE_PERFORM (R273): the subject names a stack and a place in its pending-write buffer. -/
def execPendingWritePerform (s : State) : Answer :=
  match s.subject with
  | .unit2 k i => match (s.stack k).heldWrites[i]? with
    | none => .next s
    | some h => if s.heldDue k i h then .next (s.performHeld k i h) else .next s
  | _ => .next s

end Sys2Proof.Machine
end

