-- ==== Sys2Proof/Machine/Outside.lean ====
section
/-! DEFINITION. Accesses from outside the part, by the host or a Damask peer, at their home: where they are, what waits for a
page, for leases or for room (R273, R391), the sharers of a line (R410), reads, writes and far atomics with their answers (R264,
R266, R411, R414). -/
namespace Sys2Proof.Machine

/-- Bytes an access names. -/
def accessLen : Access → Nat
  | .read n => n
  | .write bs => bs.length
  | .own | .modify .. | .writeBack _ => 128
  | .atomic _ wide _ _ _ => if wide then 8 else 4

def accessPerm : Access → Perm
  | .read _ => permRead
  | .write _ | .own | .modify .. | .writeBack _ => permWrite
  | .atomic .. => permAtomic

/-- An access that names a whole line does so at its address; a far atomic is naturally aligned (R245). -/
def accessAligned (a : Access) (ia : Nat) : Bool :=
  match a with
  | .own => ia % 128 == 0
  | .modify off bs => ia % 128 == 0 && decide (off + bs.length ≤ 128)
  | .writeBack bs => ia % 128 == 0 && bs.length == 128
  | .atomic _ wide _ _ _ => ia % (if wide then 8 else 4) == 0
  | _ => true

/-- A page fault of an access from outside (R391, R392): the context and core that the fault names are not stated. -/
def State.outsideFault (s : State) (k page : Nat) (big : Bool) (p : Perm) : State :=
  let (w, s) := s.freeWord
  s.pageFault k page big p.kind (w.toNat % 2 ^ 16) (w.toNat / 2 ^ 16 % 512) false

/-- Where the parts of an access are; where it cannot be performed, whether it ends with a fault or waits for a page. -/
def State.outsideSpots (s : State) (ia n : Nat) (p : Perm) : State × Except Bool (List (Nat × Nat × Spot)) :=
  (unitsOf ia n).foldl (fun (r : State × Except Bool (List (Nat × Nat × Spot))) (a, m) =>
    match r.2 with
    | .error _ => r
    | .ok ps =>
      match r.1.xlateIA a p with
      | (s, .ok l _) => (s, .ok (ps ++ [(a, m, l)]))
      | (s, .nonres k page big) => (s.outsideFault k page big p, .error false)
      | (s, _) => (s, .error true)) (s, .ok [])

/-- Records an agent as a sharer of a line (R410): beside others, or with `modified` the only one, with its copy. -/
def State.share (s : State) (agent k line ia : Nat) (modified : Bool) (data : List Byte) : State :=
  s.updStack k fun x =>
    let keep := x.sharers.filter fun h => !(h.line == line && (modified || h.agent == agent))
    { x with sharers := { line := line, agent := agent, modified := modified, ia := ia, data := data } :: keep }

/-- Whether an agent holds a line of device memory modified. -/
def State.holdsModified (s : State) (agent : Nat) : Spot → Bool
  | .dev k a => (s.stack k).sharers.any fun h => h.line == a / 128 && h.modified && h.agent == agent
  | _ => false

/-- An agent writes in its own modified copy of a line. -/
def Sharer.put (h : Sharer) (off : Nat) (bs : List Byte) : Sharer :=
  { h with data := h.data.take off ++ bs ++ h.data.drop (off + bs.length) }

/-- A far atomic from outside (R414): performed at its home, or held for leases there (R273), from where its old value is
answered; that value, and whether it was bad, where it is performed now. -/
def State.outsideAtomic (s : State) (l : Spot) (ia : Nat) (wide : Bool) (op : BitVec 4) (cas : Bool) (b c : W64)
    (who : Writer) : State × List Byte × Bool :=
  let n := if wide then 8 else 4
  match l with
  | .dev k a =>
    match s.heldUntil k (a / 512) with
    | none => let (s, r) := s.atomicNow k a wide op cas b c who ia 0xFFFF 0; (s, bytesOf n r.old.toNat, r.bad)
    | some w =>
      let h : HeldWrite :=
        { at_ := w, act := .atomic a wide op cas b c, who := who, op := none, ctx := 0xFFFF, ia := ia, evp := 0 }
      (s.holdWrite k h, [], false)
  | l =>
    let o := ofBytes (s.locPeek l n)
    let b := b.toNat % 2 ^ (8 * n)
    let v := if cas then (if o = c.toNat % 2 ^ (8 * n) then b else o) else farAtomic op (8 * n) o b
    (s.locWrite l (bytesOf n v) who ia 0xFFFF, bytesOf n o, false)

/-- Whether a grain has a lease in force, for which the line may not be taken for modification yet (R272, R410). -/
def State.leased (s : State) (l : Spot) : Bool := match l with
  | .dev k a => (s.heldUntil k (a / 512)).isSome
  | _ => false

/-- Room for an access that writes (R273). -/
def State.outsideRoom (s : State) (l : Spot) : Bool := match l with
  | .dev k a => (s.heldUntil k (a / 512)).isNone || s.bufferRoom k
  | _ => true

/-- A write from outside; what leases hold of it is known by its number (R273). -/
def State.outsideWrite (s : State) (l : Spot) (data : List Byte) (who : Writer) (ia num : Nat) : State :=
  match l with
  | .dev k a => (s.submitWrite k a data who ia 0xFFFF 0 false (some num)).1
  | l => s.locWrite l data who ia 0xFFFF

/-- One part of an access, at its home, with the bytes that answer it and whether a codeword of them was bad. A line that
another agent holds modified is recalled first (R410), and one that the agent takes for modification leaves the private caches
of the units, which then read it anew (R279, R411). DEDUCED (notes/assumptions/48). -/
def State.outsidePart (s : State) (agent num : Nat) (who : Writer) (acc : Access) (base a m : Nat) (l : Spot) :
    State × List Byte × Bool :=
  match acc, l with
  | .read _, .dev k x =>
    let (s, r) := s.devRead k x m 0xFFFF a true (some 0)
    ((partsOf x m).foldl (fun (s : State) p =>
      if s.holdsModified agent (.dev k p.1) then s
      else s.share agent k (p.1 / 128) ((a + (p.1 - x)) / 128 * 128) false []) s, r.data, r.bad)
  | .read _, l => (s, s.locPeek l m, false)
  | .write bs, l => (s.outsideWrite l ((bs.drop (a - base)).take m) who a num, [], false)
  | .own, .dev k x =>
    let (s, r) := s.devRead k x 128 0xFFFF a true (some 0)
    ((s.share agent k (x / 128) a true r.data).dropUnitLine k (x / 128), r.data, r.bad)
  | .modify off bs, .dev k x =>
    ((s.updStack k fun y => { y with sharers := y.sharers.map fun h =>
      if h.line = x / 128 ∧ h.agent = agent ∧ h.modified then h.put off bs else h }).dropUnitLine k (x / 128), [], false)
  | .writeBack bs, .dev k x =>
    let s := s.updStack k fun y => { y with sharers := y.sharers.filter fun h => !(h.line == x / 128 && h.agent == agent) }
    (s.outsideWrite l ((bs.drop (a - base)).take m) who a num, [], false)
  | .own, _ | .modify .., _ | .writeBack _, _ => (s, [], false)
  | .atomic op wide b c cas, l => s.outsideAtomic l a wide op cas b c who

/-- An access from outside waits (R273, R391). -/
def State.outsideHold (s : State) (w : OutsideWait) : State :=
  { s with fabric := { s.fabric with waits := s.fabric.waits ++ [w] } }

/-- Whether an access must wait behind one that came before it to the same bytes (R273). -/
def State.outsideBehind (s : State) (ia n : Nat) : Bool :=
  s.fabric.waits.any fun w => !w.page && decide (w.ia < ia + n) && decide (ia < w.ia + accessLen w.acc)

/-- A host or peer access at its home (R264, R410, R411, R414). One that meets a page that is not resident waits for a `replay`
(R391), and one that writes waits for a lease's end or for room at the home (R273); one in a copy that the agent does not hold
is not performed. What leases hold of a write or far atomic is answered when it is performed, with its completion time
(R266). -/
def State.outside (s : State) (agent : Nat) (writer : BitVec 12) (ia : Nat) (acc : Access) : State :=
  let n := accessLen acc
  let wait (page : Bool) : OutsideWait :=
    { agent := agent, inc := (s.agent agent).inc, writer := writer, ia := ia, acc := acc, page := page }
  if !accessAligned acc ia || decide (2 ^ 48 < ia + n) then s.reply agent none
  else
    match s.outsideSpots ia n (accessPerm acc) with
    | (s, .error true) => s.reply agent none
    | (s, .error false) => s.outsideHold (wait true)
    | (s, .ok ps) =>
      let lacks := match acc with
        | .modify .. | .writeBack _ => ps.any fun (_, _, l) => !s.holdsModified agent l
        | _ => false
      let waits := match acc with
        | .own => s.outsideBehind ia n || ps.any fun (_, _, l) => s.leased l
        | .write _ | .atomic .. => s.outsideBehind ia n || ps.any fun (_, _, l) => !s.outsideRoom l
        | _ => false
      if lacks then s
      else if waits then s.outsideHold (wait false)
      else
        let who : Writer := { writer := writer, log := none }
        let later := match acc with | .atomic .. => ps.any fun (_, _, l) => s.leased l | _ => false
        let (num, s) := s.fresh
        let (s, bytes, bad) := ps.foldl (fun (r : State × List Byte × Bool) (a, m, l) =>
          let (s, bs, bad) := r.1.outsidePart agent num who acc ia a m l
          (s, r.2.1 ++ bs, r.2.2 || bad)) (s, [], false)
        let s := if agent == 64 && accessWrites acc then s.hostWrote else s
        let held := (s.mem.stackList.map fun x => (x.heldWrites.filter fun h => h.op == some num).length).foldl (· + ·) 0
        let now := s.time.now
        let time := if accessWrites acc then some now else none
        if later then s.settle
        else if held ≠ 0 then
          ({ s with fabric := { s.fabric with due := { num := num, agent := agent, left := held, time := now } :: s.fabric.due } }
            : State).settle
        else (s.reply agent (some (bytes, bad)) time).settle

/-- The accesses from outside that wait for leases, for room or behind others are tried again, in their order (R273, R391). What
an incarnation that is gone had asked for is discarded (R425). -/
def State.retryOutside (s : State) : State :=
  s.fabric.waits.foldl (fun (s : State) w =>
    if w.page then s.outsideHold w
    else if (s.agent w.agent).inc ≠ w.inc ∨ (s.agent w.agent).state = 3 then s
    else s.outside w.agent w.writer w.ia w.acc) { s with fabric := { s.fabric with waits := [] } }

end Sys2Proof.Machine
end

