-- ==== Sys2Proof/Machine/Fetch.lean ====
section
/-! DEFINITION. Instruction fetch (R125, R283, R358, R391), and which words a clock issues: ranking (R163), units and
bank-use vectors (R162). -/
namespace Sys2Proof.Machine

/-- What a fetch gives. -/
inductive FetchRes where
  | word (w : W64)
  /-- a precise trap at the word in every live lane of the bundle -/
  | trap (t : TrapInfo)
  /-- the page is not resident: the entry parks at the word (R391) -/
  | park (w : Wake)
  deriving DecidableEq, Repr

/-- Whether a bundle lies inside a publication's place (R282, R283). -/
def PubPlace.holds (p : PubPlace) (u : Bun) : Bool :=
  match p with
  | .team id => id == u.team
  | .cluster n id => n == clusterOf u.core || id == u.team
  | .die n id => n == dieOf u.core || id == u.team
  | .none => true

/-- Whether a line's publication state lets a bundle fetch from it (R283). -/
def Stack.fetchable (x : Stack) (line : Nat) (u : Bun) : Bool :=
  match lookupN x.pubs line with
  | none => true
  | some .pending => false
  | some (.published _ p) => p.holds u

/-- The read of the instruction cache (R358, R376): the line is written to its place in the cache when it is fetched, which
stores an armed injection, and the codeword read there is checked; a bad one is logged and the line is fetched again, so the
word is right. A line has its place by its intermediate address (R233, R280). DEDUCED (notes/assumptions/24). -/
def State.icacheRead (s : State) (u : Bun) (ia : Nat) : State :=
  let a := ia % 2 ^ 32 / 8 * 8
  let s := if s.mem.injects.any fun j => j.kind == 4 && j.unit == u.core then s.sramWrite 4 u.core u.ctx a 8 else s
  if (s.flipsAt 4 u.core a).isEmpty then s
  else (s.sramCheck 4 u.core u.ctx a).1.setFlips 4 u.core a []

/-- Fetches the word at the bundle's PC. No word executes of a line with a codeword that is uncorrectable (R358).
DEDUCED (notes/assumptions/24). -/
def State.fetch (s : State) (u : Bun) : State × FetchRes :=
  let info1 : W64 := u.pc.setWidth 64
  match s.xlate u.ctx u.pc.toNat permFetch with
  | (s, .fault, _) => (s, .trap (trapAt 0x11 u.pc 0 info1))
  | (s, .lost, _) => (s, .trap (trapAt 0x18 u.pc 0 info1))
  | (s, .nonres k page big, _) =>
    (s.pageFault k page big permFetch.kind u.ctx u.core false, .park (.fetch k page))
  | (s, .ok (.dev k a) _, ia) =>
    if !(s.stack k).fetchable (a / 128) u then (s, .trap (trapAt 0x14 u.pc 0 info1))
    else
      let s := s.icacheRead u ia
      let (s, e) := s.lineErrors k (a / 128) u.ctx (ia / 128 * 128) false true
      if !e.words.isEmpty then
        (s, .trap (trapAt 0x18 u.pc (match e.sel with | some x => BitVec.ofNat 64 x | none => 0) info1))
      else (s, .word (BitVec.ofNat 64 (ofBytes (s.mem.home.read (devKey k a) 8))))
  | (s, .ok l _, ia) =>
    if !(s.stack l.codeStack).fetchable l.codeLine u then (s, .trap (trapAt 0x14 u.pc 0 info1))
    else (s.icacheRead u ia, .word (BitVec.ofNat 64 (ofBytes (s.locPeek l 8))))

/-- The guard fields of a word. -/
def hdrFor (i : Instr) : Hdr := (hdrOf i).getD plainHdr

/-- The instruction that an entry would issue next, if its word can be fetched. -/
def State.nextInstr (s : State) (b : BundleId) : Option Instr :=
  match s.bun? plainHdr b with
  | none => none
  | some u => match (s.fetch u).2 with
    | .word w => some (decode w)
    | _ => none

-- units and banks

/-- The units of a quarter (R162). -/
inductive ExecUnit where
  | vector | integer | special | port | branch | command
  deriving DecidableEq, Repr

/-- The unit that takes a word (R162). -/
def unitOf (i : Instr) : ExecUnit :=
  match pairSlots i with
  | some (x, y) =>
    if (x.op == .fadd || x.op == .fsub || x.op == .fmul || x.op == .fmin || x.op == .fmax || x.op == .hadd2 || x.op == .hmul2
      || y.op == .fadd || y.op == .fsub || y.op == .fmul || y.op == .fmin || y.op == .fmax || y.op == .hadd2 || y.op == .hmul2)
    then .vector else .integer
  | none =>
    match opcodeOf i with
    | none => .integer
    | some (c, idx) =>
      match c.toNat with
      | 0 => (match i with
        | .mul .. | .mulh .. | .mad .. | .madw .. | .dp4 .. => .vector
        | .div_ .. | .rem_ .. => .special
        | _ => .integer)
      | 1 | 4 => .integer
      | 2 => .vector
      | 3 => if idx.toNat < 8 then .special else .vector
      | 5 | 6 => .branch
      | 8 => .port
      | _ => .command

/-- A word's bank-use vector (R162): bank b at bit b, registers held in an operand hold left out. -/
def bankVector (i : Instr) (holds : List Nat) : BitVec 4 :=
  let regs := (regUses i).flatMap fun r => ((List.range r.count).map (r.first + ·)).filter fun n => !(r.read && holds.contains n)
  regs.foldl (fun m n => m ||| BitVec.twoPow 4 (n % 4)) 0

-- ranking

/-- A group that could issue, with what ranks it (R163). -/
structure Candidate where
  b : BundleId
  hw : Nat
  age : Nat
  level : Int
  /-- in the window after a `yield` (R166) -/
  yields : Bool
  deriving DecidableEq, Repr

/-- The level of a group (R163). -/
def State.levelOf (s : State) (t : Team) (gi : Nat) (g : Group) (e : Entry) : Int :=
  let u := if t.last = some gi ∧ g.lanes.any (fun l => l.kind == .live) then 8 else 0
  let d := if e.spin.since.isSome then 16 else 0
  (min 63 (s.baseOf t + g.age / 1024) : Nat) + u - d

/-- Whether one group ranks above another (R163). -/
def Candidate.above (a b : Candidate) : Bool :=
  let oa := decide (32768 ≤ a.age)
  let ob := decide (32768 ≤ b.age)
  if oa != ob then oa
  else if oa then decide (b.age < a.age) || (decide (a.age = b.age) && decide (a.hw < b.hw))
  else decide (b.level < a.level) || (decide (a.level = b.level) &&
    (decide (b.age < a.age) || (decide (a.age = b.age) && decide (a.hw < b.hw))))

/-- The ready groups of a quarter, best first (R163). -/
def State.candidates (s : State) (core quarter : Nat) : List Candidate :=
  let all := s.teams.flatMap fun t =>
    if !t.resident || t.core != core then [] else
    t.groups.zipIdx.filterMap fun (g, gi) =>
      if g.hw % 4 != quarter then none else
      match g.entries.find? fun e => e.issuing && e.isReady with
      | none => none
      | some e => match (slotsOf e.mask).find? fun i => g.isLive i with
        | none => none
        | some slot =>
          some { b := { team := t.id, group := gi, slot := slot }, hw := g.hw, age := g.age,
                 level := s.levelOf t gi g e, yields := decide (s.time.clock < g.yieldEnd) }
  sortBy Candidate.above all

/-- Whether a candidate's word is held at issue (R162, R295): trying it issues nothing, parks nothing and brings it no
further. `run` executes a word. -/
def State.heldBy (run : Instr → State → Host.Outcome State Fault Refusal) (s : State) (b : BundleId) : Bool :=
  let s := { s.updGroup b.team b.group fun g => { g with issued := false } with subject := .bundle b }
  let stage (s : State) : Option (Bool × Option Wake × Option W64) := (s.group? b.team b.group).bind fun g =>
    (g.entryAt b.slot).map fun e => (g.issued, e.wake, e.release)
  match s.nextInstr b with
  | none => false
  | some i => match run i s with
    | .next s' => stage s' == stage s
    | _ => false

/-- The words a quarter issues in a clock (R162): the best candidate, and the best other whose unit and banks are
free. A group in the window of a `yield` issues only where no other group of its quarter is ready (R166). DEDUCED
(notes/assumptions/54). -/
def State.quarterPlan (s : State) (held : BundleId → Bool) (core quarter : Nat) : List BundleId :=
  let all := s.candidates core quarter
  match (if all.length ≤ 1 then all else all.filter fun c => !c.yields && !held c.b) with
  | [] => []
  | [c] => [c.b]
  | c :: rest =>
    let holds (b : BundleId) : List Nat := match s.group? b.team b.group with | some g => g.holds | none => []
    match s.nextInstr c.b with
    | none => [c.b]
    | some i =>
      let v := bankVector i (holds c.b)
      match rest.find? fun d => match s.nextInstr d.b with
        | some j => unitOf j != unitOf i && bankVector j (holds d.b) &&& v == 0
        | none => false with
      | some d => [c.b, d.b]
      | none => [c.b]

/-- The words that all quarters issue in a clock. -/
def State.clockPlan (s : State) (held : BundleId → Bool) : List BundleId :=
  let cores := ((s.teams.filter fun t => t.resident && !t.ended).map Team.core).eraseDups
  cores.flatMap fun c => (List.range 4).flatMap fun q => s.quarterPlan held c q

/-- What a bundle does to convergence registers in a clock (R151). -/
inductive Signing where
  | exits
  /-- lanes with these `$tid`s sign a register of a team at a word's address -/
  | signs (team cv : Nat) (pc : VAddr) (tids : List Nat)
  | neither
  deriving DecidableEq, Repr

/-- What an issuing bundle does, by its word. A `join` signs at its run's end, which is at once where nothing is out. -/
def State.wordSigning (s : State) (b : BundleId) : Signing :=
  let signs (i : Instr) (cv : Nat) : Signing := match s.bun? (hdrFor i) b with
    | some u => .signs b.team cv u.pc (u.plive.map fun j => (s.lane u j).tid)
    | none => .neither
  match s.nextInstr b with
  | some (.exit ..) => .exits
  | some (.sign h x) => signs (.sign h x) x.c.toNat
  | some (.join_ h x) => signs (.join_ h x) x.c.toNat
  | some (.mma h x) => signs (.mma h x) x.cv.toNat
  | some (.mmaq h x) => signs (.mmaq h x) x.cv.toNat
  | _ => .neither

/-- What an entry does whose run commits, by the word that ended the run. -/
def State.commitSigning (s : State) (b : BundleId) : Signing :=
  match s.group? b.team b.group with
  | none => .neither
  | some g => match (g.entryAt b.slot).bind (·.ending) with
    | some (_, .exit _) => .exits
    | some (x, .join ps cv) => .signs b.team cv x (ps.map fun j => (g.lane j).tid)
    | _ => .neither

/-- The place of a bundle among those of its clock (R151): exits first, signatures last, so that the lane with the highest
`$tid` signs last. Where words at two addresses sign one register, the word of the lowest `$tid` sets the anchor. DEDUCED
(notes/assumptions/54). -/
def Signing.rank (all : List Signing) : Signing → Nat
  | .exits => 0
  | .neither => 1
  | .signs team cv pc tids =>
    let rivals := all.filterMap fun y => match y with
      | .signs t c p ts => if t = team ∧ c = cv then some (p, ts.foldl min 1024) else none
      | _ => none
    let first := rivals.foldl (fun (m : VAddr × Nat) y => if y.2 < m.2 then y else m) (pc, tids.foldl min 1024)
    2 + (if pc = first.1 then 0 else 2048) + tids.foldl max 0

-- time

/-- The slewing of the time base in the next ticks (R416): one tick gained or lost in each 10,000 that have gone by, that is
100 ppm; with the ticks that count towards the next. -/
def TimeBase.slewBy (t : TimeBase) (ticks : Nat) : Int × Nat :=
  let run := t.slewed + ticks
  let k := min t.slew.natAbs (run / 10000)
  (if 0 ≤ t.slew then k else -k, if k = t.slew.natAbs then 0 else run - 10000 * k)

/-- A group that some clocks go by for (R163): each in which it is ready and does not issue makes it older. -/
def Group.wait (g : Group) (clocks : Nat) : Group :=
  if clocks = 0 then g
  else { g with age := if g.entries.any (·.isReady) then g.age + (clocks - if g.issued then 1 else 0) else g.age,
                issued := false }

/-- Time passes (R4, R163, R416): ready groups that do not issue grow older. DESIGN CHOICE (notes/assumptions/53). -/
def State.pass (s : State) (ticks clocks : Nat) : State :=
  if ticks = 0 ∧ clocks = 0 then s else
  let (d, run) := s.time.slewBy ticks
  let now := s.time.now + BitVec.ofInt 64 (ticks + d)
  { s with time := { s.time with now := now, clock := s.time.clock + clocks, slew := s.time.slew - d, slewed := run },
           ilog := s.ilog.advance now,
           teams := s.teams.map fun t => { t with groups := t.groups.map fun g => g.wait clocks } }

/-- Ticks that go by in the next clock at a clock rate: 5 in every 8 clocks at 1,600 MHz (R4, R439). -/
def ticksFor (mhz clock : Nat) : Nat := (clock + 1) * 1000 / mhz - clock * 1000 / mhz

end Sys2Proof.Machine
end

