-- ==== Sys2Proof/Machine/Place.lean ====
section
/-! DEFINITION. Starting teams (R14, R138, R141, R142, R161), and the placement of one word from outside the part, as the
host's `withFetchWord` asks for it. -/
namespace Sys2Proof.Machine

/-- A local memory in which nothing has been written. -/
def emptyLocal : LocalMem := { bytes := [], lines := [], held := [], marks := [] }

/-- A copy queue at team start (R293). -/
def emptyQueue : CopyQueue :=
  { seq := 0, open_ := emptyBatch, closed := [], time := 0, mcasts := 0, wrote := [] }

/-- A tile at team placement (R193-R195). -/
def emptyTile : Tile :=
  { elems := [], v := false, d := false, flags := 0, open_ := false, bd := [], bo := [], fault := none }

/-- A lane at its start (R14): registers whose start value the manual does not give are 0 (notes/assumptions/5).
DESIGN CHOICE (notes/assumptions/5). -/
def startLane (kind : SlotKind) (tid : Nat) (entry param : W64) (nregs : Nat) (spill : W32) (now : W64) : Lane :=
  { kind := kind, tid := tid, pc := ptrAddr entry, prio := ptrPrio entry, regs := List.replicate nregs 0, preds := 0,
    loops := [], fpstat := 0, trapen := 0, spill := spill, hnd := false, acq := now, ct := 0, param := param,
    monitor := none, results := [], late := none }

/-- A group at team start (R138, R141, R142): one ready entry that holds its live and helper lanes. -/
def startGroup (g size : Nat) (hlp : Bool) (hw : Nat) (mk : SlotKind → Nat → Lane) : Group :=
  let lane (i : Nat) : Lane :=
    let tid := 32 * g + i
    if tid < size then mk .live tid
    else if hlp ∧ 32 * g + i / 4 * 4 < size then mk .helper tid
    else emptyLane
  let lanes := (List.range 32).map lane
  let mask := maskOf ((List.range 32).filter fun i => (lane i).kind != .empty)
  { lanes := lanes, entries := [{ Entry.ready mask with issuing := true }], hw := hw, age := 0, issued := false, yieldEnd := 0, holds := [], holder := 0 }

/-- What a team is started with. -/
structure TeamSeed where
  id : Nat
  gang : Nat
  index : Nat
  size : Nat
  nregs : Nat
  /-- bytes of `.shared` -/
  shared : Nat
  spillUnits : Nat
  ntiles : Nat
  ncvs : Nat
  hlp : Bool
  place : TeamPlace
  hws : List Nat
  /-- entry and `$param` of a lane by `$tid` -/
  entry : W64
  params : List W64
  now : W64
  frame : Nat
  frameLen : Nat
  deriving DecidableEq, Repr

/-- A team as it starts (R14, R161). -/
def startTeam (x : TeamSeed) : Team :=
  let t : Team :=
    { id := x.id, gang := x.gang, index := x.index, size := x.size, nregs := x.nregs, shared := x.shared,
      spillUnits := x.spillUnits, ntiles := x.ntiles, ncvs := x.ncvs, place := x.place, groups := [],
      views := [3, 3, 3, 3], cvs := List.replicate x.ncvs ConvReg.empty, tiles := List.replicate x.ntiles emptyTile,
      tileOps := [], ods := [none, none, none, none], appends := [], local_ := emptyLocal,
      queues := List.replicate 8 emptyQueue, fences := [], tables := [none, none, none, none], last := none,
      frame := x.frame, frameLen := x.frameLen, imaged := [], lateWrites := [], dying := none, ended := false, saving := 0,
      replaySince := none, orphans := [], marked := false, stuck := false }
  let mk (k : SlotKind) (tid : Nat) : Lane :=
    startLane k tid x.entry (x.params.getD tid (x.params.getD 0 0)) x.nregs (BitVec.ofNat 32 (t.spillTop (tid / 32))) x.now
  let n := (x.size + 31) / 32
  { t with groups := (List.range n).map fun g => startGroup g x.size x.hlp (x.hws.getD g g) (mk) }

-- one word from outside

/-- Where `placeWord` puts its word: a virtual address, its intermediate address in stack 0's window, and its
stack-physical address. -/
def wordVA : Nat := 0x10000
def wordIA : Nat := 2 ^ 47 + 0x10000

/-- The descriptor of context 0 with one span that maps the word's page for fetches (R231, R381). -/
def wordDesc : List W64 :=
  [BitVec.ofNat 64 0x10000, BitVec.ofNat 64 (0x10000 + 12), BitVec.ofNat 64 wordIA] ++ List.replicate 24 0 ++
    [BitVec.ofNat 64 (2 ^ 63)] ++ List.replicate 4 0

/-- The leaf of the word's page (R385): resident, executable, its frame 1 of stack 0. -/
def wordLeaf : W64 := BitVec.ofNat 64 (2 ^ 63 + 2 ^ 62 + 2 ^ 51 + 2 ^ 50 + 0x10000)

/-- The state in which the next step fetches and runs the instruction word `w`: the part runs, and one team of one lane
of a privileged kernel stands at a word that the part can fetch (notes/assumptions/6). -/
def State.placeWord (s : State) (w : Nat) : State :=
  let id := s.nextNum
  let launch : Launch :=
    { id := id, queue := 0, ctx := 0, priv := true, pin := none, entry := BitVec.ofNat 64 wordVA, param := 0, grid := 1,
      gangSize := 1, teamSize := 1, scratch := 0, spillUnits := 320, shared := 0, cv := 16, tiles := 16, nregs := 256,
      done := 0, hlp := false, base := 0, teams := [id + 2], placed := 1, live := 1, tasks := 0, waiting := none, reserve := none,
      end_ := .running }
  let gang : Gang :=
    { id := id + 1, launch := id, index := 0, size := 1, cluster := 0, base := 0, scratch := 0, local_ := emptyLocal,
      task := false, laneGangs := [], savedWhole := false, frame := 0, frameLen := 0 }
  let team := startTeam
    { id := id + 2, gang := id + 1, index := 0, size := 1, nregs := 256, shared := 0, spillUnits := 320, ntiles := 16,
      ncvs := 16, hlp := false, place := .core 0 0 0 0 0, hws := [0], entry := BitVec.ofNat 64 wordVA, params := [0],
      now := s.time.now, frame := 0, frameLen := 0 }
  let tlb : TlbEntry := { page := wordIA / 2 ^ 16, big := false, leaf := wordLeaf }
  let s := s.updStack 0 fun x => { x with tlb := tlb :: x.tlb }
  { s with power := { s.power with state := 2, step := 0 },
           priv := { s.priv with descs := setN s.priv.descs 0 wordDesc },
           launches := launch :: s.launches, gangs := gang :: s.gangs, teams := team :: s.teams, nextNum := id + 3,
           mem := { s.mem with home := s.mem.home.write (devKey 0 0x10000) (bytesOf 8 (w % 2 ^ 64)) },
           agenda := [{ ticks := 0, clocks := 0, act := .issue { team := id + 2, group := 0, slot := 0 } }] }

end Sys2Proof.Machine
end

