-- ==== Sys2Proof/Machine/Launcher.lean ====
section
/-! DEFINITION. The launch unit: launch records and their check (R154-R157), storage on cores and in save areas (R159,
R365, R381), placement of gangs (R160, R161, R225, R380) and of task teams (R191), the end of teams and launches (R158,
R161). -/
namespace Sys2Proof.Machine

-- launch records

/-- A field of one word of a launch record (R154). -/
def lrField (w : List W64) (i hi lo : Nat) : Nat := fieldN (w.getD i 0).toNat hi lo

def lrGrid (w : List W64) : Nat := lrField w 2 63 32
def lrGang (w : List W64) : Nat := lrField w 2 21 16
def lrTeam (w : List W64) : Nat := lrField w 2 10 0
def lrScratch (w : List W64) : Nat := lrField w 3 55 38
def lrSpill (w : List W64) : Nat := lrField w 3 37 25
def lrShared (w : List W64) : Nat := lrField w 3 24 13
def lrCv (w : List W64) : Nat := lrField w 3 12 8
def lrTiles (w : List W64) : Nat := lrField w 3 7 3
def lrRegs (w : List W64) : Nat := 32 * (lrField w 3 2 0 + 1)
def lrDone (w : List W64) : W64 := w.getD 4 0
def lrValid (w : List W64) : Bool := bit (w.getD 15 0) 63

/-- The dependences of a record that are used (R154): counter and target. -/
def lrDeps (w : List W64) : List (W64 × W64) :=
  ([0, 1, 2, 3].map fun i => (w.getD (6 + 2 * i) 0, w.getD (7 + 2 * i) 0)).filter fun p => p.1 != 0

/-- Condition of code 0x01 (R157). -/
def lrMalformed (w : List W64) : Bool :=
  lrField w 2 31 22 != 0 || lrField w 2 15 11 != 0 || lrField w 3 63 56 != 0 || lrField w 5 63 9 != 0 ||
    lrField w 5 7 6 != 0 || w.getD 14 0 != 0 || lrField w 15 62 0 != 0 ||
    [0, 4, 6, 8, 10, 12].any fun i => lrField w i 2 0 != 0

-- storage

/-- What a team takes on its core (R159). -/
structure Needs where
  groups : Nat
  regs : Nat
  mem : Nat
  tiles : Nat
  cvs : Nat
  deriving DecidableEq, Repr

def Needs.none_ : Needs := { groups := 0, regs := 0, mem := 0, tiles := 0, cvs := 0 }

def Needs.add (a b : Needs) : Needs :=
  { groups := a.groups + b.groups, regs := a.regs + b.regs, mem := a.mem + b.mem, tiles := a.tiles + b.tiles,
    cvs := a.cvs + b.cvs }

/-- Whether an amount is within a core (R137, R159). -/
def Needs.fitCore (a : Needs) : Bool :=
  decide (a.groups ≤ 64) && decide (a.regs ≤ 524288) && decide (a.mem ≤ 262144) && decide (a.tiles ≤ 16) &&
    decide (a.cvs ≤ 16)

/-- The needs of a team (R159): `shared` in bytes, `spill` in 16-byte units. -/
def needsOf (size nregs shared spill tiles cvs : Nat) : Needs :=
  let g := (size + 31) / 32
  { groups := g, regs := g * 32 * nregs * 4, mem := shared + g * (16 * spill + 384), tiles := tiles, cvs := cvs }

def Team.needs (t : Team) : Needs := needsOf t.size t.nregs t.shared t.spillUnits t.ntiles t.ncvs

def Launch.needs (l : Launch) : Needs := needsOf l.teamSize l.nregs l.shared l.spillUnits l.tiles l.cv

/-- The needs of a task team of a launch (R191). -/
def Launch.taskNeeds (l : Launch) (n : Nat) : Needs := needsOf n l.nregs 0 l.spillUnits 0 0

/-- The teams that hold storage on a core. -/
def State.teamsOn (s : State) (core : Nat) : List Team := s.teams.filter fun t => t.resident && t.core == core

def State.coreUsed (s : State) (core : Nat) : Needs := (s.teamsOn core).foldl (fun n t => n.add t.needs) Needs.none_

/-- The core that system software reserves on a die (R379). -/
def State.reservedOn (s : State) (die : Nat) : Option Nat :=
  let b := s.priv.rsvcore.toNat / 256 ^ die % 256
  if 128 ≤ b then some (128 * die + b % 128) else none

def State.isReserved (s : State) (core : Nat) : Bool := s.reservedOn (dieOf core) == some core

/-- The unreserved cores of a cluster, ascending. -/
def State.openCores (s : State) (cluster : Nat) : List Nat :=
  ((List.range 32).map (32 * cluster + ·)).filter fun c => !s.isReserved c

/-- Places teams of one size first-fit on cores with what those already hold (R159): the core of each. -/
def firstFitCores (n : Needs) : Nat → List (Nat × Needs) → Option (List Nat)
  | 0, _ => some []
  | k + 1, cores =>
    match cores.find? fun c => (c.2.add n).fitCore with
    | none => none
    | some (c, _) =>
      (firstFitCores n k (cores.map fun x => if x.1 = c then (x.1, x.2.add n) else x)).map fun r => c :: r

/-- The lowest place of `len` bytes in [lo, hi) clear of ranges that are in use, ordered by start. -/
def gapFrom : List (Nat × Nat) → Nat → Nat → Nat → Option Nat
  | [], lo, hi, len => if lo + len ≤ hi then some lo else none
  | (a, n) :: rest, lo, hi, len => if lo + len ≤ a then some lo else gapFrom rest (max lo (a + n)) hi len

def firstGap (used : List (Nat × Nat)) (lo hi len : Nat) : Option Nat :=
  gapFrom (sortBy (fun a b => decide (a.1 ≤ b.1)) (used.filter fun u => u.2 != 0)) lo hi len

/-- Where `len` of a core's array start: its first gap; where it has none, past everything (notes/assumptions/11).
DESIGN CHOICE (notes/assumptions/11). -/
def arrayBase (used : List (Nat × Nat)) (len : Nat) : Nat :=
  let total : Nat := used.foldl (fun n u => n + u.2) 0
  (firstGap used 0 (total + total + len) len).getD total

/-- The places a team takes on a core (R159, R161). -/
def State.placeOn (s : State) (core : Nat) (n : Needs) : TeamPlace :=
  let ts := s.teamsOn core
  .core core (arrayBase (ts.map fun t => (t.memBase, t.needs.mem)) n.mem)
    (arrayBase (ts.map fun t => (t.regBase, t.needs.regs)) n.regs)
    (arrayBase (ts.map fun t => (t.tileBase, t.ntiles)) n.tiles)
    (arrayBase (ts.map fun t => (t.cvBase, t.ncvs)) n.cvs)

/-- Free hardware group slots of a core (R161), of which a team takes the lowest-numbered. DESIGN CHOICE
(notes/assumptions/68). -/
def State.freeHw (s : State) (core : Nat) : List Nat :=
  let used := (s.teamsOn core).flatMap fun t => t.groups.map (·.hw)
  (List.range 64).filter fun h => !used.contains h

-- scratchpad

/-- The die addresses of a cluster's slices (R225). -/
def clusterBase (cluster : Nat) : Nat := 2 ^ 24 * (cluster % 4)

/-- The ranges of scratchpad in use on a die. -/
def State.scratchUsed (s : State) (die : Nat) : List (Nat × Nat) :=
  (s.gangs.filter fun g => g.cluster / 4 == die && !g.savedWhole).map fun g => (g.base, g.scratch)

/-- Whether a gang's scratchpad may start at a die address (R225). -/
def State.scratchFree (s : State) (cluster gb len : Nat) : Bool :=
  len == 0 || (gb % 128 == 0 && decide (clusterBase cluster ≤ gb) && decide (gb + len ≤ clusterBase cluster + 2 ^ 24) &&
    (s.scratchUsed (cluster / 4)).all fun u => decide (gb + len ≤ u.1) || decide (u.1 + u.2 ≤ gb))

/-- The lowest Gb of a cluster where a scratchpad fits. -/
def State.scratchGap (s : State) (cluster len : Nat) : Option Nat :=
  firstGap (s.scratchUsed (cluster / 4)) (clusterBase cluster) (clusterBase cluster + 2 ^ 24) len

-- save areas

def roundUp (n k : Nat) : Nat := (n + k - 1) / k * k

/-- Team memory that a frame holds (R365): `.shared` and the spill areas. -/
def frameMem (size shared spill : Nat) : Nat := shared + (size + 31) / 32 * 16 * spill

/-- Where the sections of a frame start, and its end (R365): header, lane records, registers, group state, team state,
capture buffers, team memory, frontier areas, stream units, tiles. -/
def frameOffsets (size nregs shared spill tiles cvs : Nat) : List Nat :=
  let g := (size + 31) / 32
  let m := frameMem size shared spill
  let lens := [256, 192 * 32 * g, 4 * nregs * 32 * g, 1024 * g, 16384, 8192 * cvs, m + (m + 127) / 128, 384 * g, 32768,
    41088 * tiles]
  (lens.foldl (fun (r : List Nat × Nat) n => (r.1 ++ [r.2], r.2 + roundUp n 128)) ([], 0)) |> fun r => r.1 ++ [r.2]

def frameSize (size nregs shared spill tiles cvs : Nat) : Nat :=
  (frameOffsets size nregs shared spill tiles cvs).getD 10 0

/-- Size of a gang frame (R365). -/
def gangFrameSize (scratch : Nat) : Nat := roundUp (scratch + (scratch + 127) / 128) 128

/-- The slots in use in a context's save area (R381). -/
def State.slotsUsed (s : State) (ctx : Nat) : List (Nat × Nat) :=
  ((s.teams.filter fun t => s.ctxOf t == ctx).map fun t => (t.frame, t.frameLen)) ++
    (s.gangs.filter fun g => (match s.launch? g.launch with | some l => l.ctx == ctx | none => false)).map
      fun g => (g.frame, g.frameLen)

/-- Takes slots first-fit in a save area (R381): the address of each. DESIGN CHOICE (notes/assumptions/27). -/
def takeSlots (lo hi : Nat) : List Nat → List (Nat × Nat) → Option (List Nat)
  | [], _ => some []
  | n :: rest, used =>
    match firstGap used lo hi n with
    | none => none
    | some a => (takeSlots lo hi rest ((a, n) :: used)).map fun r => a :: r

/-- A context's save area (R352, R381): its start and its size. -/
def State.saveArea (s : State) (ctx : Nat) : State × Nat × Nat :=
  let (s, d) := s.desc ctx
  (s, fieldN (descSave d).toNat 55 16 * 2 ^ 16, descSaveSize d * 65536)

/-- Takes a gang's slots: its teams' frame slots and its gang frame (R381). -/
def State.gangSlots (s : State) (ctx : Nat) (lens : List Nat) : Option (List Nat) :=
  let (_, lo, n) := s.saveArea ctx
  takeSlots lo (lo + n) lens (s.slotsUsed ctx)

/-- The sizes of a gang's slots. -/
def Launch.slotSizes (l : Launch) : List Nat :=
  List.replicate l.gangSize (frameSize l.teamSize l.nregs l.shared l.spillUnits l.tiles l.cv) ++ [gangFrameSize l.scratch]

-- check

/-- Whether one gang fits an empty cluster or core (R157): with as many unreserved cores as any cluster has. -/
def State.gangFitsEmpty (s : State) (pin : Option Nat) (gang : Nat) (n : Needs) : Bool :=
  match pin with
  | some _ => ((List.range gang).foldl (fun a _ => a.add n) Needs.none_).fitCore
  | none =>
    let most := (List.range 16).foldl (fun m c => max m (s.openCores c).length) 0
    (firstFitCores n gang ((List.range most).map fun c => (c, Needs.none_))).isSome

/-- A record as the launch it becomes (R154, R380). -/
def LaunchQueue.launch (q : LaunchQueue) (queue id : Nat) (w : List W64) : Launch :=
  { id := id, queue := queue, ctx := q.ctx, priv := q.priv, pin := if q.pin then some q.die else none,
    entry := w.getD 0 0, param := w.getD 1 0, grid := lrGrid w, gangSize := lrGang w, teamSize := lrTeam w,
    scratch := 128 * lrScratch w, spillUnits := lrSpill w, shared := 128 * lrShared w, cv := lrCv w, tiles := lrTiles w,
    nregs := lrRegs w, done := lrDone w, hlp := bit (w.getD 5 0) 8, base := lrField w 5 5 0, teams := [], placed := 0,
    live := 0, tasks := 0, waiting := none, reserve := none, end_ := .running }

/-- The check of a record (R157): 0, or the code of the first condition that holds. -/
def State.checkRecord (s : State) (q : LaunchQueue) (w : List W64) : State × Byte :=
  let l := q.launch 0 0 w
  let (s, d) := s.desc q.ctx
  let (s, _, size) := s.saveArea q.ctx
  let slots : Nat := l.slotSizes.foldl (· + ·) 0
  (s,
    if lrMalformed w then 0x01
    else if l.teamSize = 0 ∨ l.gangSize = 0 ∨ l.grid = 0 ∨ 1024 < l.teamSize ∨ 32 < l.gangSize then 0x02
    else if 2048 < lrShared w ∨ 4096 < l.spillUnits ∨ 131072 < lrScratch w ∨ 16 < l.cv ∨ 16 < l.tiles then 0x03
    else if !descValid d then 0x07
    else if !l.needs.fitCore then 0x04
    else if !s.gangFitsEmpty l.pin l.gangSize l.needs then 0x05
    else if q.pin && (s.reservedOn q.die).isNone then 0x08
    else if size < slots then 0x09
    else 0x00)

-- consuming records

/-- Reads the dependence counters of a record (R155): whether every one has reached its target. -/
def State.depsMet (s : State) (x : LaunchQueue) : List (W64 × W64) → State × PartRes Bool
  | [] => (s, .ok true)
  | (a, target) :: rest =>
    match s.partRead (.va x.ctx a.toNat) 8 x.who with
    | (s, .ok bs) => if target.toNat ≤ ofBytes bs then s.depsMet x rest else (s, .ok false)
    | (s, .fault) => (s, .fault)
    | (s, .nonres) => (s, .nonres)

/-- 10 µs in ticks (R155). -/
def retryTicks : W64 := 10000

/-- Admits a checked record once its dependences are met (R155, R382). -/
def State.admitRecord (s : State) (q : Nat) (w : List W64) : State :=
  match s.depsMet (s.lq q) (lrDeps w) with
  | (s, .ok true) =>
    let (id, s) := s.fresh
    let l := { (s.lq q).launch q id w with waiting := some s.time.now }
    let s := s.updLq q fun x => { x with wait := .none }
    { s with launches := s.launches ++ [l] }.dropRecord q
  | (s, .ok false) => s.updLq q fun x => { x with wait := .deps (s.time.now + retryTicks) w }
  | (s, .fault) => s.updLq q fun x => { x with code := 0x06, wait := .none }
  | (s, .nonres) => s.updLq q fun x => { x with wait := .page (some w) }

/-- Whether a pinned gang of a queue waits for room, and the queue behind it (R380). -/
def State.pinnedWaits (s : State) (q : Nat) : Bool :=
  s.launches.any fun l => l.queue == q && l.pin.isSome && decide (l.placed < l.grid)

/-- Whether the launch unit may go on with a queue (R155, R378). -/
def State.consumes (s : State) (q : Nat) : Bool :=
  let x := s.lq q
  decide (q < 16) && x.en && x.code == 0 && x.head != x.tail && s.running && !s.pinnedWaits q

/-- Reads, checks and admits the record at HEAD (R155). -/
def State.consume (s : State) (q : Nat) : State :=
  let x := s.lq q
  match s.partRead (.va x.ctx (x.slot x.head)) 128 x.who with
  | (s, .ok bs) =>
    let w := (List.range 16).map fun i => BitVec.ofNat 64 (ofBytes ((bs.drop (8 * i)).take 8))
    if !lrValid w then s.updLq q fun x => { x with wait := .valid (s.time.now + retryTicks) }
    else
      match s.checkRecord x w with
      | (s, code) => if code ≠ 0 then s.updLq q fun x => { x with code := code, wait := .none } else s.admitRecord q w
  | (s, .fault) => s.updLq q fun x => { x with code := 0x06, wait := .none }
  | (s, .nonres) => s.updLq q fun x => { x with wait := .page none }

/-- LAUNCH_RECORD_CONSUME (R155): the subject names the queue. DEDUCED (notes/assumptions/22). -/
def execLaunchRecordConsume (s : State) : Answer :=
  match s.subject with
  | .unit q => if s.consumes q && (s.lq q).wait == .none then .next (s.consume q) else .next s
  | _ => .next s

/-- VALID_RETRY (R155). -/
def execValidRetry (s : State) : Answer :=
  match s.subject with
  | .unit q =>
    match (s.lq q).wait with
    | .valid at_ => if s.consumes q && decide (at_ ≤ s.time.now) then .next (s.consume q) else .next s
    | _ => .next s
  | _ => .next s

/-- DEPENDENCE_REREAD (R155): at any write of a counter, and every 10 µs. -/
def execDependenceReread (s : State) : Answer :=
  match s.subject with
  | .unit q =>
    match (s.lq q).wait with
    | .deps _ w => if s.consumes q then .next (s.admitRecord q w) else .next s
    | _ => .next s
  | _ => .next s

-- placement

/-- The core a launch is pinned to (R380). -/
def State.pinCore (s : State) (l : Launch) : Option Nat := l.pin.bind s.reservedOn

/-- The cores of a cluster that a launch's gangs may take. -/
def State.coresFor (s : State) (l : Launch) (cluster : Nat) : List Nat :=
  match l.pin with
  | none => s.openCores cluster
  | some _ => match s.pinCore l with
    | some c => if clusterOf c = cluster then [c] else []
    | none => []

/-- Whether another launch's waiting gang keeps a cluster (R160). -/
def State.keptFrom (s : State) (launch cluster : Nat) : Bool :=
  s.launches.any fun m => m.id != launch && m.reserve == some cluster

def State.suspendedCtx (s : State) (ctx : Nat) : Bool := s.priv.suspended.contains ctx

/-- Whether a launch has a gang to place. -/
def State.hasGang (s : State) (l : Launch) : Bool := decide (l.placed < l.grid) && !s.suspendedCtx l.ctx

/-- The tasks at the head of a queue that may form one team (R191): equal entry, launch and PRIV. -/
def sameTasks : List Task → List Task
  | [] => []
  | t :: ts => t :: ts.takeWhile fun x => x.entry == t.entry && x.launch == t.launch && x.priv == t.priv

/-- Whether a core has room for a launch's team of `n` tasks (R191). -/
def State.taskFits (s : State) (l : Launch) (n core : Nat) : Bool :=
  (s.coresFor l (clusterOf core)).contains core && !s.keptFrom l.id (clusterOf core) &&
    ((s.coreUsed core).add (l.taskNeeds n)).fitCore

/-- Whether the next gang of a launch fits a cluster now (R159, R160). -/
def State.fitsCluster (s : State) (l : Launch) (cluster : Nat) : Bool :=
  !s.keptFrom l.id cluster && (match l.reserve with | some c => c == cluster | none => true)
    && (firstFitCores l.needs l.gangSize ((s.coresFor l cluster).map fun c => (c, s.coreUsed c))).isSome
    && (s.scratchGap cluster l.scratch).isSome && (s.gangSlots l.ctx l.slotSizes).isSome

def State.fitsSomewhere (s : State) (l : Launch) : Bool := (List.range 16).any fun c => s.fitsCluster l c

/-- Whether launch `a` goes before launch `b` (R160). -/
def Launch.before (a b : Launch) : Bool :=
  decide (b.base < a.base) || (decide (a.base = b.base) &&
    (decide (a.queue < b.queue) || (decide (a.queue = b.queue) && decide (a.id < b.id))))

/-- Whether the tasks at the head of a cluster's queue are of a higher-ranked launch and fit a core of it: a task team ranks
with the BASE of its launch (R191). -/
def State.taskAhead (s : State) (l : Launch) (cluster : Nat) : Bool :=
  match (s.tasks.getD cluster []).head?.bind fun k => s.launch? k.launch with
  | some m => m.before l && !s.suspendedCtx m.ctx && (List.range 32).any fun c => s.taskFits m 1 (32 * cluster + c)
  | none => false

/-- Whether a gang or task team of a launch is next: none of a higher-ranked launch fits (R160, R191). -/
def State.isNext (s : State) (l : Launch) : Bool :=
  !(s.launches.any fun m => m.before l && s.hasGang m && s.fitsSomewhere m) && !(List.range 16).any fun c => s.taskAhead l c

/-- Whether each of some cores has room for one team more, each team counted (R159). -/
def roomOn (n : Needs) : List Nat → (Nat → Needs) → Bool
  | [], _ => true
  | c :: cs, used => ((used c).add n).fitCore && roomOn n cs fun d => if d = c then (used c).add n else used d

/-- Whether the launch unit's choice of place for a gang is a place for it (R159, R160, R225, R380). -/
def State.placeOk (s : State) (l : Launch) (p : Placement) : Bool :=
  match p.cores with
  | [] => false
  | c :: _ =>
    let k := clusterOf c
    p.cores.length == l.gangSize && p.cores.all ((s.coresFor l k).contains ·) && roomOn l.needs p.cores s.coreUsed &&
      s.scratchFree k p.gb l.scratch && !s.keptFrom l.id k && (match l.reserve with | some r => r == k | none => true)

/-- Starts one team of a gang on its core (R161). -/
def State.startOn (s : State) (l : Launch) (gang index core frame : Nat) : State :=
  let (id, s) := s.fresh
  let t := startTeam
    { id := id, gang := gang, index := index, size := l.teamSize, nregs := l.nregs, shared := l.shared,
      spillUnits := l.spillUnits, ntiles := l.tiles, ncvs := l.cv, hlp := l.hlp, place := s.placeOn core l.needs,
      hws := s.freeHw core, entry := l.entry, params := [l.param], now := s.timeAt core, frame := frame,
      frameLen := frameSize l.teamSize l.nregs l.shared l.spillUnits l.tiles l.cv }
  let s := { s with teams := s.teams ++ [t] }
  s.updLaunch l.id fun x => { x with teams := x.teams ++ [id] }

/-- GANG_PLACEMENT (R160, R161): the subject names launch and place. -/
def execGangPlacement (s : State) : Answer :=
  match s.subject with
  | .place n p =>
    match s.launch? n with
    | none => .next s
    | some l =>
      if !s.hasGang l || !s.running || !s.isNext l || !s.placeOk l p then .next s else
      match s.gangSlots l.ctx l.slotSizes with
      | none => .next s
      | some slots =>
        let (gid, s) := s.fresh
        let gang : Gang :=
          { id := gid, launch := l.id, index := l.placed, size := l.gangSize, cluster := clusterOf (p.cores.getD 0 0),
            base := p.gb, scratch := l.scratch, local_ := emptyLocal, task := false, laneGangs := [], savedWhole := false,
            frame := slots.getD l.gangSize 0, frameLen := gangFrameSize l.scratch }
        let s := { s with gangs := s.gangs ++ [gang] }
        let s := s.updLaunch l.id fun x =>
          { x with placed := x.placed + 1, live := x.live + 1, reserve := none,
                   waiting := if x.placed + 1 < x.grid then some s.time.now else none }
        let s := (p.cores.zipIdx).foldl (fun (s : State) (c, i) => s.startOn l gid i c (slots.getD i 0)) s
        .next s.settle
  | _ => .next s

/-- 1 ms in ticks (R160). -/
def starveTicks : W64 := 1000000

/-- Whether the next gang of a launch would fit a cluster in which nothing runs. -/
def State.fitsEmptied (s : State) (l : Launch) (cluster : Nat) : Bool :=
  (firstFitCores l.needs l.gangSize ((s.coresFor l cluster).map fun c => (c, Needs.none_))).isSome

/-- PLACEMENT_STARVATION (R160): the subject names launch and the cluster kept for it. -/
def execPlacementStarvation (s : State) : Answer :=
  match s.subject with
  | .unit2 n cluster =>
    match s.launch? n with
    | none => .next s
    | some l =>
      match l.waiting with
      | none => .next s
      | some since =>
        if !s.hasGang l || l.reserve.isSome || decide (16 ≤ cluster) || decide (s.time.now - since < starveTicks) ||
            s.fitsSomewhere l || s.keptFrom n cluster || !s.fitsEmptied l cluster then .next s
        else .next (s.updLaunch n fun x => { x with reserve := some cluster })
  | _ => .next s

-- task teams

/-- TASK_TEAM_FORM (R191): the subject names cluster, core and how many tasks at the head of the queue are taken.
DEDUCED (notes/assumptions/26). -/
def execTaskTeamForm (s : State) : Answer :=
  match s.subject with
  | .unit3 cluster core count =>
    let ts := (sameTasks (s.tasks.getD cluster [])).take (min count 32)
    match ts with
    | [] => .next s
    | k :: _ =>
      match s.launch? k.launch with
      | none => .next s
      | some l =>
        let n := ts.length
        let size := frameSize n l.nregs 0 l.spillUnits 0 0
        if clusterOf core ≠ cluster ∨ s.suspendedCtx l.ctx ∨ !s.running ∨ !s.isNext l ∨ !s.taskFits l n core then .next s else
        match s.gangSlots l.ctx [size] with
        | none => .next s
        | some slots =>
          let (gid, s) := s.fresh
          let (id, s) := s.fresh
          let gang : Gang :=
            { id := gid, launch := l.id, index := k.gang, size := 1, cluster := cluster, base := 0, scratch := 0,
              local_ := emptyLocal, task := true, laneGangs := ts.map (·.gang), savedWhole := false, frame := 0, frameLen := 0 }
          let t := startTeam
            { id := id, gang := gid, index := 0, size := n, nregs := l.nregs, shared := 0, spillUnits := l.spillUnits,
              ntiles := 0, ncvs := 0, hlp := l.hlp, place := s.placeOn core (l.taskNeeds n), hws := s.freeHw core,
              entry := k.entry, params := ts.map (·.arg), now := s.timeAt core, frame := slots.getD 0 0, frameLen := size }
          let s := { s with tasks := s.tasks.set cluster ((s.tasks.getD cluster []).drop n), gangs := s.gangs ++ [gang],
                            teams := s.teams ++ [t] }
          .next (s.updLaunch l.id fun x => { x with teams := x.teams ++ [id] }).settle
  | _ => .next s

-- the end of teams

/-- Whether every operation of a team has completed (R158): engines, stamps, the matrix unit, local accesses, unit
commands. -/
def State.operationsDone (s : State) (t : Team) : Bool :=
  let held (m : LocalMem) := m.held.any fun h => h.team == t.id
  !(s.ops.any fun o => o.team == t.id && o.owner.isTeams && !o.complete)
    && t.queues.all (fun q => q.open_.ops.isEmpty && q.closed.all fun b => b.complete && b.stamp.isNone)
    && t.tileOps.isEmpty && t.appends.isEmpty
    && !held t.local_ && !(match s.gang? t.gang with | some g => held g.local_ | none => false)
    && !(s.rays.any fun r => r.cmd.team == t.id) && !(s.tcmds.any fun r => r.cmd.team == t.id)
    && !(s.gauze.any fun r => r.cmd.team == t.id) && !(s.calico.any fun r => r.cmd.team == t.id)

/-- The error-log entries of a team that ends (R296, R316): batch faults and slot marks that nothing has received. -/
def State.logLost (s : State) (t : Team) : State :=
  let faults := t.queues.flatMap fun q => (q.closed.filterMap (·.fault)) ++ q.open_.fault.toList
  let s := faults.foldl (fun s f => s.errorLog t.id 5 f.code f.pc) s
  (t.local_.marks ++ t.lateWrites.filterMap (·.mark)).foldl (fun s m => s.errorLog t.id 6 m.code m.opc) s

/-- A gang whose last team is gone has finished (R158, R161, R191). -/
def State.gangOver (s : State) (g : Gang) (size : Nat) : State :=
  if s.teams.any fun t => t.gang == g.id then s
  else
    let s := { s with gangs := s.gangs.filter fun x => x.id != g.id }
    s.updLaunch g.launch fun l => if g.task then { l with tasks := l.tasks - size } else { l with live := l.live - 1 }

/-- TEAM_RESOURCES_FREE (R161): the subject names the team. Its stream queues, Serge programs and treelet holds end with
it (R306, R328). -/
def execTeamResourcesFree (s : State) : Answer :=
  match s.subject with
  | .unit id =>
    match s.team? id with
    | none => .next s
    | some t =>
      if !t.ended || !s.operationsDone t then .next s else
      let s := s.logLost t
      let s := { s with teams := s.teams.filter fun x => x.id != id, streams := s.streams.filter fun x => x.team != id,
                        serges := s.serges.filter fun z => z.team != id }
      let s := (List.range 8).foldl (fun (s : State) k =>
        s.updStack k fun x => { x with holds := x.holds.filter fun h => h.team != id }) s
      match s.gang? t.gang with
      | none => .next s
      | some g => .next (s.gangOver g t.size).settle
  | _ => .next s

-- the end of launches

/-- Forgets a launch. -/
def State.dropLaunch (s : State) (n : Nat) : State := { s with launches := s.launches.filter fun l => l.id != n }

/-- Adds 1 to a launch's completion counter (R158, R382). -/
def State.countDone (s : State) (l : Launch) : State :=
  let who : PartWho := { src := 3, ctx := l.ctx, core := 0, part := true, raises := true }
  match s.partIncrement (.va l.ctx l.done.toNat) who with
  | (s, .ok _) => s.dropLaunch l.id
  | (s, .fault) =>
    -- the manual gives such an entry no team, gang, code or PC
    let (w, s) := s.freeWord
    (s.errorEntry l.ctx 0 (w.toNat % 1024) (w.toNat / 2 ^ 10 % 2 ^ 32) 8 (w.setWidth 8) 0).dropLaunch l.id
  | (s, .nonres) => s.updLaunch l.id fun x => { x with end_ := .page }

/-- LAUNCH_COMPLETION (R158): the subject names the launch. First its release begins; once that is over its counter is
incremented. -/
def execLaunchCompletion (s : State) : Answer :=
  match s.subject with
  | .unit n =>
    match s.launch? n with
    | none => .next s
    | some l =>
      if !s.running ∨ l.placed < l.grid ∨ l.live ≠ 0 ∨ l.tasks ≠ 0 then .next s else
      match l.end_ with
      | .running =>
        if l.done = 0 then .next (s.dropLaunch n)
        else
          let homes := l.teams.flatMap fun t => (List.range 32).map fun g => (t, g)
          let s := s.systemWriteBack homes
          .next (s.updLaunch n fun x => { x with end_ := .releasing (s.time.now + BitVec.ofNat 64 (s.margin .system)) })
      | .releasing at_ => if s.time.now < at_ then .next s else .next (s.countDone l)
      | .page => .next s
  | _ => .next s

end Sys2Proof.Machine
end

