-- ==== Sys2Proof/Machine/Quant.lean ====
section
/-! DEFINITION. The arithmetic of the matrix units: fragments (R197-R199), `mma` (R202), `mmaq` (R203, R204), and the
quantiser and its inverse (R216-R218). -/
namespace Sys2Proof.Machine

-- fragments

/-- The format of an `mma` (R197). -/
def matFmt : MFmt → Fmt
  | .f16 => fmtF16
  | .bf16 => fmtBf16
  | .e4m3 => fmtE4m3
  | _ => fmtE5m2

/-- Elements in one register of A, and of B (R198). -/
def fmtPerA : MFmt → Nat
  | .f16 | .bf16 => 2
  | .e4m3 | .e5m2 | .q8q8 => 4
  | .q4q8 => 8

def fmtPerB : MFmt → Nat
  | .f16 | .bf16 => 2
  | _ => 4

/-- Position `i` of a register that holds `per` elements. -/
def packedAt (w : W32) (per i : Nat) : Nat := w.toNat / 2 ^ (32 / per * i) % 2 ^ (32 / per)

/-- The registers captured for a slot; zeros where none has signed (R200). -/
def capA (caps : List Capture) (slot : Nat) : List W32 := match caps.find? fun c => c.slot == slot with
  | some c => c.a
  | none => []

def capB (caps : List Capture) (slot : Nat) : List W32 := match caps.find? fun c => c.slot == slot with
  | some c => c.b
  | none => []

/-- Row m of A: K elements (R198). -/
def rowA (f : MFmt) (caps : List Capture) (m : Nat) : List Nat :=
  let regs := capA caps (m % 32)
  (List.range (fmtK f)).map fun k => packedAt (regs.getD (8 * (m / 32) + k / fmtPerA f) 0) (fmtPerA f) (k % fmtPerA f)

/-- Column n of B. -/
def colB (f : MFmt) (caps : List Capture) (n : Nat) : List Nat :=
  let regs := capB caps n
  (List.range (fmtK f)).map fun k => packedAt (regs.getD (k / fmtPerB f) 0) (fmtPerB f) (k % fmtPerB f)

/-- Registers a lane gives at its signature (R200): the fragments, then the scale registers of the sets in use (R199). -/
def captureOf (x : Mat) (slot : Nat) (l : Lane) : Capture :=
  let q := fmtQuant x.fmt
  let nb := fmtNb x.fmt x.gs
  { slot := slot, tid := l.tid,
    a := l.run x.a.toNat 16 ++ (if q then l.run (x.a.toNat + 16 + 2 * x.bs.toNat) (2 * nb) else []),
    b := l.run x.b.toNat (fmtF x.fmt) ++ (if q then l.run (x.b.toNat + fmtF x.fmt + x.bs.toNat) nb else []) }

-- the sum of one element

/-- A term of a sum that is rounded once: finite, with its sign when it is zero, or infinite. -/
inductive Term where
  | fin (v : Dy) (neg : Bool)
  | inf (neg : Bool)
  deriving DecidableEq, Repr

/-- Rounds a sum of terms once to f32 (R202, R203): infinities of both signs are invalid (R39), and an exact zero is
negative only when every term is a zero of negative sign. -/
def roundTerms (ts : List Term) : FRes :=
  let pos := ts.any (· == .inf false)
  let neg := ts.any (· == .inf true)
  if pos && neg then invalid fmtF32
  else if pos || neg then infinite fmtF32 neg
  else
    let sum := ts.foldl (fun a t => match t with | .fin v _ => a.add v | .inf _ => a) (Dy.ofInt 0)
    let allNeg := ts.all fun t => match t with
      | .fin v n => v.m == 0 && n
      | .inf _ => false
    roundDy fmtF32 .rne false allNeg sum

/-- A value as a term. -/
def FVal.term (v : FVal) : Term := match v with
  | .inf n => .inf n
  | _ => .fin v.dy v.sign

/-- The product of two values that is not invalid. -/
def mulTerm (a b : FVal) : Term :=
  let s := a.sign != b.sign
  if a.isInf || b.isInf then .inf s else .fin (a.dy.mul b.dy) s

/-- Whether a product has a zero and an infinite factor (R39 rule 4). -/
def badProduct (a b : FVal) : Bool := (a.isInf && b.isZero) || (a.isZero && b.isInf)

/-- One element of `mma` (R202). -/
def mmaElem (t : FVal) (as bs : List FVal) : FRes :=
  let ps := as.zip bs
  nanRules fmtF32 (t :: (as ++ bs)) <|
    if ps.any fun p => badProduct p.1 p.2 then invalid fmtF32
    else roundTerms (t.term :: ps.map fun p => mulTerm p.1 p.2)

/-- The flags of a rounding as a tile's status word shows them (R194). -/
def tileFlags (fl : W32) : W32 := (fl &&& 0x1D) <<< 8

/-- `mma` on a tile's elements (R202): the new elements and the flags raised. -/
def mmaTile (f : MFmt) (caps : List Capture) (elems : List W32) : List W32 × W32 :=
  let fm := matFmt f
  let rows := (List.range 64).map fun m => (rowA f caps m).map fun w => fm.decode (BitVec.ofNat 64 w)
  let cols := (List.range 32).map fun n => (colB f caps n).map fun w => fm.decode (BitVec.ofNat 64 w)
  let rs := rows.zipIdx.flatMap fun (a, m) => cols.zipIdx.map fun (b, n) =>
    mmaElem (fmtF32.decode ((elems.getD (32 * m + n) 0).setWidth 64)) a b
  (rs.map fun r => lo32 r.val, tileFlags (rs.foldl (fun fl r => fl ||| r.flags) 0))

-- quantised operands

/-- The escape code (R50). -/
def escCode (f : MFmt) : Nat := if f == .q4q8 then 15 else 255

/-- A scale register of A: scale, zero point and ESC (R49, R199). -/
structure ScaleReg where
  s : W64
  z : Nat
  esc : Bool
  deriving DecidableEq, Repr

/-- Reads a scale register with a field of 4-bit or 8-bit codes (R49). -/
def scaleReg (q4 : Bool) (w : W32) : ScaleReg :=
  { s := BitVec.ofNat 64 (w.toNat % 2 ^ 16), z := w.toNat / 2 ^ 16 % (if q4 then 16 else 256), esc := w.getLsbD (if q4 then 23 else 31) }

/-- Scale register of row m of A in portion j. -/
def scaleA (f : MFmt) (caps : List Capture) (m j : Nat) : ScaleReg :=
  scaleReg (f == .q4q8) ((capA caps (m % 32)).getD (16 + 2 * j + m / 32) 0)

/-- Scale register of column n of B in portion j. -/
def scaleB (f : MFmt) (caps : List Capture) (n j : Nat) : ScaleReg :=
  scaleReg false ((capB caps n).getD (fmtF f + j) 0)

/-- Length of a portion (R199). -/
def portionLen (f : MFmt) (g : GSize) : Nat := min (gsize g) (fmtK f)

/-- The escaped elements of an operation (R207): local k and row, in ascending k, then row. -/
def escapes (x : Mat) (caps : List Capture) : List (Nat × Nat) :=
  let rows := (List.range 64).map fun m => (m, rowA x.fmt caps m)
  let pl := portionLen x.fmt x.gs
  (List.range (fmtK x.fmt)).flatMap fun k => rows.filterMap fun (m, r) =>
    if r.getD k 0 == escCode x.fmt && (scaleA x.fmt caps m (k / pl)).esc then some (k, m) else none

/-- Whether a zero-point field of B has ESC = 1 (R205). -/
def escapedB (x : Mat) (caps : List Capture) : Bool :=
  (List.range 32).any fun n => (List.range (fmtNb x.fmt x.gs)).any fun j => (scaleB x.fmt caps n j).esc

/-- The state of a sum with no term. -/
def OutSum.empty : OutSum :=
  { val := 0, posInf := false, negInf := false, nan := false, sig := false, bad := false, poison := false, posZero := false,
    negZero := false, posFin := false, negFin := false }

/-- One outlier term v · (qb - zb) as a sum (R203, R204); a difference of 0 is +0. -/
def outTerm (v : FVal) (q : Int) : OutSum :=
  let neg := v.sign != decide (q < 0)
  let e := OutSum.empty
  match v with
  | .poison => { e with poison := true }
  | .snan => { e with sig := true }
  | .qnan => { e with nan := true }
  | .inf _ => if q = 0 then { e with bad := true } else { e with posInf := !neg, negInf := neg }
  | .fin .. =>
    let x := (v.dy.mul (Dy.ofInt q))
    if x.m = 0 then { e with posZero := !neg, negZero := neg }
    else { e with val := Dy.floor { x with e := x.e + 24 }, posFin := !neg, negFin := neg }

/-- Adds sums (R195). -/
def OutSum.add (a b : OutSum) : OutSum :=
  { val := a.val + b.val, posInf := a.posInf || b.posInf, negInf := a.negInf || b.negInf, nan := a.nan || b.nan,
    sig := a.sig || b.sig, bad := a.bad || b.bad, poison := a.poison || b.poison, posZero := a.posZero || b.posZero,
    negZero := a.negZero || b.negZero, posFin := a.posFin || b.posFin, negFin := a.negFin || b.negFin }

/-- Whether any term has been folded in. -/
def OutSum.any (o : OutSum) : Bool :=
  o.posInf || o.negInf || o.nan || o.sig || o.bad || o.poison || o.posZero || o.negZero || o.posFin || o.negFin

/-- The terms sb · v · (qb - zb) of a sum, grouped by what they are (R203, R204); none when one is invalid. -/
def OutSum.terms (o : OutSum) (sb : FVal) : Option (List Term) :=
  let flip (n : Bool) : Bool := sb.sign != n
  let put (c : Bool) (t : Term) : List Term := if c then [t] else []
  if o.bad || (sb.isZero && (o.posInf || o.negInf)) || (sb.isInf && (o.posZero || o.negZero)) then none
  else
    let infs := put o.posInf (.inf (flip false)) ++ put o.negInf (.inf (flip true))
    let zeros := put o.posZero (.fin (Dy.ofInt 0) (flip false)) ++ put o.negZero (.fin (Dy.ofInt 0) (flip true))
    let fins :=
      if sb.isInf then put o.posFin (.inf (flip false)) ++ put o.negFin (.inf (flip true))
      else if sb.isZero then
        put o.posFin (.fin (Dy.ofInt 0) (flip false)) ++ put o.negFin (.fin (Dy.ofInt 0) (flip true))
      else if o.posFin || o.negFin then
        [.fin (sb.dy.mul { m := o.val, e := -24 }) false]
      else []
    some (infs ++ zeros ++ fins)

/-- RoundNE(T + sa·sb·D + sb·O) (R203, R204). -/
def quantElem (t sa sb : FVal) (d : Int) (o : OutSum) : FRes :=
  let ins := [t, sa, sb]
  if ins.any (· == .poison) || o.poison then fres fmtF32.poison
  else if ins.any (· == .snan) || o.sig then fres fmtF32.nan flagNV
  else if ins.any (· == .qnan) || o.nan then fres fmtF32.nan
  else
    let dz : FVal := .fin (decide (d < 0)) d.natAbs 0
    let inf := sa.isInf || sb.isInf
    if inf && (sa.isZero || sb.isZero || d == 0) then invalid fmtF32
    else
      let s := (sa.sign != sb.sign) != dz.sign
      let p : Term := if inf then .inf s else .fin ((sa.dy.mul sb.dy).mul (Dy.ofInt d)) s
      match o.terms sb with
      | none => invalid fmtF32
      | some os => roundTerms (t.term :: p :: os)

/-- Sum of products of a portion (R203): escaped codes count as z. -/
def dense (as bs : List Int) : Int := (as.zip bs).foldl (fun s p => s + p.1 * p.2) 0

/-- Codes of A minus the zero point in portion j of row m; an escaped element gives 0 (R50). -/
def diffA (x : Mat) (caps : List Capture) (m j : Nat) : List Int :=
  let pl := portionLen x.fmt x.gs
  let sr := scaleA x.fmt caps m j
  (((rowA x.fmt caps m).drop (j * pl)).take pl).map fun (c : Nat) =>
    if sr.esc && c == escCode x.fmt then (0 : Int) else (c : Int) - sr.z

/-- Codes of B minus the zero point in portion j of column n. -/
def diffB (x : Mat) (caps : List Capture) (n j : Nat) : List Int :=
  let pl := portionLen x.fmt x.gs
  let sr := scaleB x.fmt caps n j
  (((colB x.fmt caps n).drop (j * pl)).take pl).map fun (c : Nat) => (c : Int) - (sr.z : Int)

/-- The outlier terms of element (m, n) in portion j: `vals` gives local k, row and value of every escape. -/
def outliersOf (x : Mat) (vals : List (Nat × Nat × W64)) (m j : Nat) (bs : List Int) : OutSum :=
  let pl := portionLen x.fmt x.gs
  vals.foldl (fun o (k, r, v) =>
    if r == m && k / pl == j then o.add (outTerm (fmtF16.decode v) (bs.getD (k % pl) 0)) else o) OutSum.empty

/-- One block portion of `mmaq` with g at most K, on all elements (R203). -/
def quantPortion (x : Mat) (caps : List Capture) (vals : List (Nat × Nat × W64)) (j : Nat) (elems : List W32) :
    List W32 × W32 :=
  let cols := (List.range 32).map fun n => (diffB x caps n j, fmtF16.decode (scaleB x.fmt caps n j).s)
  let rs := (List.range 64).flatMap fun m =>
    let a := diffA x caps m j
    let sa := fmtF16.decode (scaleA x.fmt caps m j).s
    cols.zipIdx.map fun ((b, sb), n) =>
      quantElem (fmtF32.decode ((elems.getD (32 * m + n) 0).setWidth 64)) sa sb (dense a b) (outliersOf x vals m j b)
  (rs.map fun r => lo32 r.val, tileFlags (rs.foldl (fun fl r => fl ||| r.flags) 0))

/-- `mmaq` with g above K on a tile (R203): folds into the block register, and rounds when it closes. -/
def quantBlock (x : Mat) (caps : List Capture) (vals : List (Nat × Nat × W64)) (t : Tile) : Tile :=
  let fresh := x.opn || !t.open_
  let cols := (List.range 32).map fun n => diffB x caps n 0
  let sums := (List.range 64).flatMap fun m =>
    let a := diffA x caps m 0
    cols.zipIdx.map fun (b, n) =>
      let i := 32 * m + n
      let bd := if fresh then 0 else t.bd.getD i 0
      let bo := if fresh then OutSum.empty else t.bo.getD i OutSum.empty
      (bd + dense a b, bo.add (outliersOf x vals m 0 b))
  if !x.cls then { t with bd := sums.map (·.1), bo := sums.map (·.2), open_ := true }
  else
    let rs := sums.zipIdx.map fun ((d, o), i) =>
      quantElem (fmtF32.decode ((t.elems.getD i 0).setWidth 64)) (fmtF16.decode (scaleA x.fmt caps (i / 32) 0).s)
        (fmtF16.decode (scaleB x.fmt caps (i % 32) 0).s) d o
    { t with elems := rs.map (fun r => lo32 r.val), flags := t.flags ||| tileFlags (rs.foldl (fun fl r => fl ||| r.flags) 0),
             bd := [], bo := [], open_ := false }

/-- `mmaq` on a tile, its checks passed (R203). -/
def quantTile (x : Mat) (caps : List Capture) (vals : List (Nat × Nat × W64)) (t : Tile) : Tile :=
  if gsize x.gs > fmtK x.fmt then quantBlock x caps vals t
  else
    let (e, fl) := (List.range (fmtNb x.fmt x.gs)).foldl (fun r j =>
      let y := quantPortion x caps vals j r.1
      (y.1, r.2 ||| y.2)) (t.elems, 0)
    { t with elems := e, flags := t.flags ||| fl }

-- the quantiser

/-- Rounds n / d to the nearest integer, ties to even. -/
def roundNear (n : Int) (d : Nat) : Int :=
  let q := n / (d : Int)
  let r := 2 * (n % (d : Int))
  if r < (d : Int) then q else if (d : Int) < r then q + 1 else if q % 2 = 0 then q else q + 1

/-- Integer nearest to a quotient of dyadic numbers, the divisor positive. -/
def roundQuot (a b : Dy) : Int :=
  let k := a.e - b.e
  roundNear (a.m * pow2N k) (b.m.toNat * pow2D k)

/-- The half of element k of row half `r` in the extended layout (R216). -/
def extHalf (l : Lane) (a kk r k : Nat) : W64 :=
  ((l.reg (a + kk / 2 * r + k / 2)).extractLsb' (16 * (k % 2)) 16).setWidth 64

/-- A row-block's values with their local k. -/
abbrev RowBlock := List (Nat × W64)

/-- Whether an f16 encoding is a zero. -/
def isZeroHalf (v : W64) : Bool := v.toNat % 2 ^ 15 == 0

/-- The ranking of `qnt` (R217): non-finite first, then larger magnitude, then lower k. -/
def rankBefore (a b : Nat × W64) : Bool :=
  let mag (v : W64) : Nat := if v.toNat % 2 ^ 15 < 0x7C00 then v.toNat % 2 ^ 15 else 0x7C00
  decide (mag b.2 < mag a.2) || (decide (mag a.2 = mag b.2) && decide (a.1 ≤ b.1))

/-- The elements a row-block elects (R217). -/
def elected (e : Nat) (rb : RowBlock) : List Nat :=
  ((sortBy rankBefore (rb.filter fun p => !isZeroHalf p.2)).take e).map (·.1)

/-- A fitted row-block: scale, zero point, code by local k, and whether NV is set. -/
structure Fit where
  s : W64
  z : Nat
  codes : List (Nat × Nat)
  nv : Bool
  deriving DecidableEq, Repr

/-- Fits a row-block with its elected elements (R217). -/
def fitBlock (f : MFmt) (oe : Bool) (el : List Nat) (rb : RowBlock) : Fit :=
  let top := escCode f
  let n := if oe then top - 1 else top
  let rm := rb.filter fun p => !el.contains p.1
  let code (g : W64 → Nat) : List (Nat × Nat) := rb.map fun p => (p.1, if el.contains p.1 then top else g p.2)
  let vs := rm.map fun p => fmtF16.decode p.2
  if vs.any (· == .poison) then { s := 0x7E5A, z := 0, codes := code fun _ => 0, nv := false }
  else if vs.any fun v => v.isNan || v.isInf then { s := 0x7E00, z := 0, codes := code fun _ => 0, nv := true }
  else
    let lo := vs.foldl (fun a v => if v.dy.lt a then v.dy else a) (Dy.ofInt 0)
    let hi := vs.foldl (fun a v => if a.lt v.dy then v.dy else a) (Dy.ofInt 0)
    let d := hi.sub lo
    if d.m = 0 then { s := 0, z := 0, codes := code fun _ => 0, nv := false }
    else
      let s := (roundMag fmtF16 .ru false false (d.m.toNat * pow2N d.e) (n * pow2D d.e)).val
      let sv := (fmtF16.decode s).dy
      let clamp (x : Int) : Nat := (min (max x 0) (n : Int)).toNat
      let z := clamp (roundQuot lo.neg sv)
      { s := s, z := z, codes := code fun v => clamp (roundQuot (fmtF16.decode v).dy sv + z), nv := false }

/-- The registers of one row half of a fragment with its scale registers (R198, R199, R217). -/
def fitRegs (x : Mat) (r : Nat) (fits : List Fit) : List (Nat × W32) :=
  let f := x.fmt
  let per := fmtPerA f
  let codes := fits.flatMap (·.codes)
  let code (k : Nat) : Nat := match codes.find? fun p => p.1 == k with | some p => p.2 | none => 0
  let frag := (List.range 8).map fun i =>
    (x.d.toNat + 8 * r + i, BitVec.ofNat 32 ((List.range per).foldl (fun w j => w + code (per * i + j) * 2 ^ (32 / per * j)) 0))
  let field (y : Fit) : Nat := y.z + (if x.oe then (if f == .q4q8 then 128 else 2 ^ 15) else 0)
  let scales := fits.zipIdx.map fun (y, j) =>
    (x.d.toNat + 16 + 2 * (x.bs.toNat + j) + r, BitVec.ofNat 32 (y.s.toNat + field y * 2 ^ 16))
  frag ++ scales

/-- A row's blocks as `qnt` reads them (R216). -/
def rowBlocks (x : Mat) (l : Lane) (r : Nat) : List RowBlock :=
  let kk := fmtK x.fmt
  let g := gsize x.gs
  (List.range (fmtNb x.fmt x.gs)).map fun j =>
    (List.range g).map fun i => (j * g + i, extHalf l x.a.toNat kk r (j * g + i))

/-- What `qnt` writes in a lane, its kept outliers given as local k and row (R217). -/
def quantLane (x : Mat) (slot : Nat) (kept : List (Nat × Nat)) (l : Lane) : Outs :=
  let fits (r : Nat) : List Fit := (rowBlocks x l r).map fun rb =>
    fitBlock x.fmt x.oe ((kept.filter fun p => p.2 == slot + 32 * r).map (·.1)) rb
  let f0 := fits 0
  let f1 := fits 1
  { writes := fitRegs x 0 f0 ++ fitRegs x 1 f1, flags := flagIf ((f0 ++ f1).any (·.nv)) flagNV }

/-- The elements a lane elects: local k, row and value (R217). -/
def electLane (x : Mat) (slot : Nat) (l : Lane) : List (Nat × Nat × W64) :=
  (List.range 2).flatMap fun r => (rowBlocks x l r).flatMap fun rb =>
    let el := elected (x.b.toNat % 8) rb
    (rb.filter fun p => el.contains p.1).map fun p => (p.1, slot + 32 * r, p.2)

/-- An outlier entry (R52). -/
def outEntry (k row : Nat) (v : W64) : List Byte := bytesOf 8 (2 ^ 63 + k * 2 ^ 22 + row * 2 ^ 16 + v.toNat)

/-- One value of `dqnt` (R218). -/
def dequant (f : MFmt) (sr : ScaleReg) (c : Nat) : FRes :=
  let s := fmtF16.decode sr.s
  if s == .poison then fres fmtF16.poison
  else if sr.esc && c == escCode f then fres 0
  else
    let q : Int := (c : Int) - sr.z
    mulVals fmtF16 .rne false s (.fin (decide (q < 0)) q.natAbs 0)

/-- What `dqnt` writes in a lane (R218). -/
def dequantLane (x : Mat) (l : Lane) : Outs :=
  let f := x.fmt
  let kk := fmtK f
  let per := fmtPerA f
  let value (r k : Nat) : FRes :=
    let j := if gsize x.gs > kk then 0 else k / gsize x.gs
    let sr := scaleReg (f == .q4q8) (l.reg (x.a.toNat + 16 + 2 * (x.bs.toNat + j) + r))
    dequant f sr (packedAt (l.reg (x.a.toNat + 8 * r + k / per)) per (k % per))
  let regs := (List.range 2).flatMap fun r => (List.range (kk / 2)).map fun i =>
    let a := value r (2 * i)
    let b := value r (2 * i + 1)
    ((x.d.toNat + kk / 2 * r + i, (b.val.setWidth 16 ++ a.val.setWidth 16 : W32)), a.flags ||| b.flags)
  { writes := regs.map (·.1), flags := regs.foldl (fun fl p => fl ||| p.2) 0 }

end Sys2Proof.Machine
end

