-- ==== Sys2Proof/Machine/Matrix.lean ====
section
/-! DEFINITION. Class 7 (R193-R220): signing with captures, tiles and their operations in tile order, joins and recorded
faults, outlier descriptors; and the events in which the matrix unit performs what has issued. -/
namespace Sys2Proof.Machine

-- tiles

def Team.tile (t : Team) (n : Nat) : Tile := t.tiles.getD n
  { elems := [], v := false, d := false, flags := 0, open_ := false, bd := [], bo := [], fault := none }

def Team.od (t : Team) (n : Nat) : Option Outlier := t.ods.getD n none

/-- The elements of a tile; +0 while V is 0 (R194). -/
def Tile.values (t : Tile) : List W32 := (List.range 2048).map fun i => if t.v then t.elems.getD i 0 else 0

/-- Changes a tile of a team. -/
def State.updTile (s : State) (team n : Nat) (f : Tile → Tile) : State :=
  s.updTeam team fun t => { t with tiles := t.tiles.set n (f (t.tile n)) }

/-- Changes a bound descriptor of a team. -/
def State.updOd (s : State) (team n : Nat) (f : Outlier → Outlier) : State :=
  s.updTeam team fun t => { t with ods := t.ods.set n ((t.od n).map f) }

/-- Records a fault on a tile; an older one stays (R208). -/
def Tile.record (t : Tile) (f : RecFault) : Tile := { t with fault := match t.fault with | some g => some g | none => some f }

def Outlier.record (o : Outlier) (f : RecFault) : Outlier :=
  { o with fault := match o.fault with | some g => some g | none => some f }

/-- The trap that delivers a recorded fault (R209). DEDUCED (notes/assumptions/37). -/
def RecFault.trap (f : RecFault) : TrapInfo :=
  { code := f.code, info0 := f.info0, info1 := 0, opc := f.pc, rpt := true, multi := false }

/-- INFO0 of a fault of a tile or of a descriptor (R351). -/
def tileInfo (n index : Nat) : W64 := BitVec.ofNat 64 (n + index % 2048 * 2 ^ 16)
def odInfo (n index : Nat) : W64 := BitVec.ofNat 64 (16 + n + index % 2048 * 2 ^ 16)

-- the tile store's check codes

/-- Whether any tile codeword is wrong, or will be at a write. -/
def State.tileArmed (s : State) : Bool := s.mem.flips.any (·.kind == 3) || s.mem.injects.any (·.kind == 3)

/-- Array address of an element (R361). -/
def Team.tileAddr (t : Team) (n elem : Nat) : Nat := (t.tileBase + n) * 8192 + 4 * elem

/-- The matrix unit reads the elements of a tile that `reads` names: the elements of an uncorrectable codeword become poison,
and fault 0x18 is recorded on the tile (R358). A tile whose V is 0 reads as +0 and reads no codeword (R194). -/
def State.tileCheck (s : State) (team n : Nat) (reads : Nat → Bool) (pc : VAddr) : State :=
  if !s.tileArmed then s else
  match s.team? team with
  | none => s
  | some t =>
    let words := (List.range 1024).filter fun c => (t.tile n).v && (reads (2 * c) || reads (2 * c + 1))
    let (s, bad) := words.foldl (fun r c =>
      let a := t.tileAddr n (2 * c)
      let y := r.1.sramCheck 3 t.core (s.ctxOf t) a
      (y.1, if y.2 then r.2 ++ [a] else r.2)) (s, [])
    if bad.isEmpty then s
    else s.updTile team n fun x =>
      let elems := x.values.zipIdx.map fun (w, i) => if bad.contains (t.tileAddr n i / 8 * 8) then poisonWord else w
      Tile.record { x with elems := elems, d := true } { code := 0x18, pc := pc, info0 := BitVec.ofNat 64 (selectorOf 3 t.core) }

/-- Elements of a tile are written from `first` on (R358, R376). -/
def State.tileWrote (s : State) (team n first count : Nat) : State :=
  if !s.tileArmed then s else
  match s.team? team with
  | none => s
  | some t => s.sramWrite 3 t.core (s.ctxOf t) (t.tileAddr n first) (4 * count)

-- joins

/-- Whether an operation captured for an epoch is on a tile and signed by a lane of some `$tid`s. -/
def ConvReg.signedOn (c : ConvReg) (tile : Nat) (tids : List Nat) : Bool :=
  (match c.op with | some m => m.word.d.toNat == tile | none => false) && tids.any fun i => c.sgn.getLsbD i

/-- What a join of a tile by lanes waits for (R201). -/
def Team.tileJoin (t : Team) (tile : Nat) (tids : List Nat) : List Nat :=
  (t.tileOps.filter fun o => o.tile == tile).map (·.num) ++
    (t.cvs.filter fun c => c.signedOn tile tids).filterMap fun c => c.op.map (·.num)

/-- Whether an operation names a descriptor. -/
def TileAct.usesOd (a : TileAct) (n : Nat) : Bool :=
  match a with
  | .mul m => m.quant && m.word.oe && m.word.od.toNat == n
  | _ => false

/-- What a join of a descriptor waits for (R219): the `mmaq`s and appends that have issued on it. -/
def Team.odJoin (t : Team) (n : Nat) : List Nat :=
  (t.tileOps.filter fun o => o.act.usesOd n).map (·.num) ++ (t.appends.filter fun a => a.od == n).map (·.num)

/-- Whether an epoch that names a tile has a signature (R194). -/
def Team.tileSigned (t : Team) (n : Nat) : Bool :=
  t.cvs.any fun c => c.sgn != 0 && (match c.op with | some m => m.word.d.toNat == n | none => false)

/-- The status word of a tile (R194) at a join that every operation waited for has passed: IF shows other epochs (R215), with
a signature or complete and not yet performed. -/
def Team.tileStatus (t : Team) (n : Nat) : W32 :=
  let x := t.tile n
  let issued (o : TileOp) : Bool := o.tile == n && (match o.act with | .mul _ => true | _ => false)
  let fly := t.tileOps.any issued || t.tileSigned n
  x.flags ||| BitVec.ofNat 32 ((if fly then 8 else 0) + (if x.open_ then 4 else 0) + (if x.d then 2 else 0) + (if x.v then 1 else 0))

/-- The word `olcnt` gives (R220). -/
def Outlier.word (o : Outlier) : W32 := BitVec.ofNat 32 ((if o.ovf then 2 ^ 31 else 0) + o.cur * 2 ^ 11 + o.cnt)

/-- The registers a join writes in a lane slot (R213, R215, R220). -/
def Team.joinWrites (t : Team) (slot : Nat) : Need → List (Nat × W32)
  | .tileHalf n half d _ =>
    let vs := (t.tile n).values
    (List.range 32).map fun i => (d + i, vs.getD (32 * (32 * half + i) + slot) 0)
  | .tileStat n d _ => [(d, t.tileStatus n)]
  | .olist o d _ => [(d, match t.od o with | some x => x.word | none => 0)]
  | _ => []

/-- The elements of its tile that a joining word reads (R213, R215): those of the half and of the lanes of P for `tmov`, none
for `tstat`. -/
def Need.elements (need : Need) (slots : List Nat) (i : Nat) : Bool :=
  match need with
  | .tileHalf _ half _ _ => i / 1024 == half && slots.contains (i % 32)
  | _ => false

/-- Forms the results of one joining word: the recorded fault is delivered to it and cleared (R209), although helper lanes
alone take no trap. The elements that it reads are checked (R358). DESIGN CHOICE (notes/assumptions/66). -/
def State.formJoin (s : State) (team num : Nat) (tile : Bool) (n : Nat) : State :=
  match s.team? team with
  | none => s
  | some t =>
    let trap := (if tile then (t.tile n).fault else (t.od n).bind (·.fault)).map RecFault.trap
    let s := if tile then s.updTile team n fun x => { x with fault := none }
      else s.updOd team n fun x => { x with fault := none }
    let mine : List (Nat × Result) := t.places.flatMap fun p => (p.2.2.results.filter fun r => r.num == num).map fun r => (p.2.1, r)
    let s : State := match mine.head? with
      | some (_, r) => if tile then s.tileCheck team n (r.need.elements (mine.map Prod.fst)) r.pc else s
      | none => s
    match s.team? team with
    | none => s
    | some t =>
      s.updTeam team fun y => { y with groups := y.groups.map fun g =>
        { g with lanes := g.lanes.zipIdx.map fun (l, i) =>
          l.updResult num fun r => { r with writes := t.joinWrites i r.need, trap := trap, need := .formed } } }

/-- The joining words of a team whose operations have all finished, in the order they issued: number, and what is
joined. -/
def Team.joinsDone (t : Team) : List (Nat × Bool × Nat) :=
  let pending := t.matrixOps
  let rs := t.places.flatMap fun p => p.2.2.results.filterMap fun r => match r.need.join with
    | some (tile, n, ops) => if ops.any pending.contains then none else some (r.num, tile, n)
    | none => none
  sortBy (fun a b => decide (a.1 ≤ b.1)) rs.eraseDups

/-- Forms every join that has nothing left to wait for (R201, R209). -/
def State.formJoins (s : State) (team : Nat) : State :=
  match s.team? team with
  | none => s
  | some t => t.joinsDone.foldl (fun s (num, tile, n) => s.formJoin team num tile n) s

-- performing tile operations

/-- A tile all of whose elements are given, as `tzero` and `tld` leave it (R212, R214). -/
def Tile.load (t : Tile) (elems : List W32) : Tile :=
  { t with elems := elems, v := true, d := true, flags := 0, open_ := false, bd := [], bo := [] }

/-- A tile after `tfill` (R212). -/
def Tile.fill (t : Tile) (h : Nat) (cols : List (Nat × List W32)) : Tile :=
  let elems := t.values.zipIdx.map fun (w, i) =>
    if i / 32 / 32 = h then
      match cols.find? fun c => c.1 == i % 32 with
      | some c => c.2.getD (i / 32 % 32) 0
      | none => w
    else w
  { t with elems := elems, v := true, d := true }

/-- What the matching of escapes with entries finds (R207): the values by escape, or the index that failed. -/
inductive Matched where
  | ok (vals : List (Nat × Nat × W64))
  | fail (index : Nat)
  deriving DecidableEq, Repr

/-- An outlier entry read from team memory (R207): an uncorrectable codeword of it is used as it is read. DESIGN CHOICE
(notes/assumptions/62). -/
def State.readEntry (s : State) (team : Nat) (o : Outlier) (i : Nat) : State × W64 :=
  let (s, bs, _) := s.unitRead team .sh (o.base + 8 * i) 8
  (s, BitVec.ofNat 64 (ofBytes bs))

/-- Matches the escapes from entry `i` on (R207). -/
def State.matchEntries (s : State) (team : Nat) (o : Outlier) :
    List (Nat × Nat) → Nat → List (Nat × Nat × W64) → State × Matched
  | [], _, vals => (s, .ok vals)
  | (k, m) :: es, i, vals =>
    if o.cnt ≤ i then (s, .fail i)
    else
      let (s, x) := s.readEntry team o i
      if bit x 63 && bits x 62 38 == 0 && bits x 37 22 == o.korg + k && bits x 21 16 == m then
        s.matchEntries team o es (i + 1) (vals ++ [(k, m, BitVec.ofNat 64 (bits x 15 0))])
      else (s, .fail i)

/-- The checks of R207 on a descriptor. -/
def State.matchAll (s : State) (team : Nat) (o : Outlier) (es : List (Nat × Nat)) (kk : Nat) : State × Matched :=
  match s.matchEntries team o es o.cur [] with
  | (s, .fail i) => (s, .fail i)
  | (s, .ok vals) =>
    let next := o.cur + es.length
    let (s, low) := if next < o.cnt then
        let (s, x) := s.readEntry team o next
        (s, decide (bits x 37 22 < o.korg + kk))
      else (s, false)
    if low || 65536 < o.korg + kk then (s, .fail next) else (s, .ok vals)

/-- The lines of the entries that an `mmaq` reads (R207). -/
def entryLines (o : Outlier) (n : Nat) : List Nat :=
  linesOf (o.base + 8 * o.cur) (8 * min (n + 1) (o.cnt - o.cur))

/-- Performs an `mmaq` on its tile (R203-R208). The checks come before a descriptor's fault is taken over (R292). DEDUCED
(notes/assumptions/37). -/
def State.performQuant (s : State) (team tile : Nat) (m : MatOp) : State :=
  match s.team? team with
  | none => s
  | some t =>
    let x := m.word
    let es := escapes x m.caps
    let badB := escapedB x m.caps
    let mism (s : State) (i : Nat) : State :=
      s.updTile team tile fun y => y.record { code := 0x16, pc := m.pc, info0 := tileInfo tile i }
    -- an operation that only folds into the block register leaves the elements alone, unless it makes them +0 (R194, R203)
    let folds := decide (fmtK x.fmt < gsize x.gs) && !x.cls
    let go (s : State) (vals : List (Nat × Nat × W64)) : State :=
      let s := s.tileCheck team tile (fun _ => !folds) m.pc
      let s := s.updTile team tile fun y => { quantTile x m.caps vals { y with elems := y.values } with v := true, d := true }
      if folds && (t.tile tile).v then s else s.tileWrote team tile 0 2048
    if !x.oe then
      if badB || !es.isEmpty then mism s 0 else go s []
    else
      let n := x.od.toNat
      match t.od n with
      | none => mism s 0
      | some o =>
        if badB then mism s o.cur
        else match s.matchAll team o es (fmtK x.fmt) with
          | (s, .fail i) => mism s i
          | (s, .ok vals) => match o.fault with
            | some f => (s.updOd team n fun y => { y with fault := none }).updTile team tile fun y => y.record f
            | none =>
              (go s vals).updOd team n fun y => { y with cur := y.cur + es.length, korg := y.korg + fmtK x.fmt }

/-- Performs an `mma` or `mmaq` (R202, R203). -/
def State.performMul (s : State) (team tile : Nat) (m : MatOp) : State :=
  if m.quant then s.performQuant team tile m
  else
    let s := s.tileCheck team tile (fun _ => true) m.pc
    let s := s.updTile team tile fun y =>
      let (e, fl) := mmaTile m.word.fmt m.caps y.values
      { y with elems := e, flags := y.flags ||| fl, v := true, d := true }
    s.tileWrote team tile 0 2048

/-- Performs one operation on a tile (R196, R212, R214). -/
def State.performTile (s : State) (team : Nat) (o : TileOp) : State :=
  match o.act with
  | .zero => (s.updTile team o.tile fun x => x.load (List.replicate 2048 0)).tileWrote team o.tile 0 2048
  | .fill h cols =>
    let s := s.updTile team o.tile fun x => x.fill h cols
    if !s.tileArmed then s else
    (List.range 512).foldl (fun s i =>
      -- pairs of columns share a codeword
      let row := 32 * h + i / 16
      let c := i % 16 * 2
      let has (k : Nat) : Bool := cols.any fun p => p.1 == k
      if has c && has (c + 1) then s.tileWrote team o.tile (32 * row + c) 2
      else if has c then s.tileWrote team o.tile (32 * row + c) 1
      else if has (c + 1) then s.tileWrote team o.tile (32 * row + c + 1) 1
      else s) s
  | .load a =>
    let (s, bs, bad) := s.unitRead team .sh a 8192
    let s := s.updTile team o.tile fun x => x.load (wordsOfBytes 2048 bs)
    let s := s.tileWrote team o.tile 0 2048
    match bad with
    | some sel => s.updTile team o.tile fun x => x.record { code := 0x18, pc := o.pc, info0 := BitVec.ofNat 64 sel }
    | none => s
  | .store a =>
    let s := s.tileCheck team o.tile (fun _ => true) o.pc
    match s.team? team with
    | none => s
    | some t => s.land team .sh a (bytesOfWords (t.tile o.tile).values) (linesOf a 8192)
  | .mul m => s.performMul team o.tile m

/-- Performs an operation, forgets it, and forms the joins that waited for it. -/
def State.finishTile (s : State) (team : Nat) (o : TileOp) : State :=
  ((s.performTile team o).updTeam team fun t => { t with tileOps := t.tileOps.filter fun p => p.num != o.num }).formJoins team

/-- The next operation of a tile, in tile order (R196). -/
def Team.headOp (t : Team) (tile : Nat) : Option TileOp := t.tileOps.find? fun o => o.tile == tile

/-- Performs the `tzero`s and `tfill`s that stand at the head of their tile's order. -/
def State.runFree (s : State) (team : Nat) : Nat → State
  | 0 => s
  | n + 1 =>
    match s.team? team with
    | none => s
    | some t =>
      match t.tileOps.find? fun o => (match o.act with | .zero | .fill .. => true | _ => false) &&
          (match t.headOp o.tile with | some p => p.num == o.num | none => false) with
      | some o => (s.finishTile team o).runFree team n
      | none => s

def State.runTiles (s : State) (team : Nat) : State :=
  match s.team? team with
  | some t => s.runFree team t.tileOps.length
  | none => s

/-- Issues an operation on a tile (R196). -/
def State.issueTile (s : State) (u : Bun) (tile : Nat) (act : TileAct) : State :=
  let (num, s) := s.fresh
  (s.updTeam u.team fun t => { t with tileOps := t.tileOps ++ [{ num := num, tile := tile, pc := u.pc, act := act }] }).runTiles
    u.team

-- mma, mmaq

/-- `mma` and `mmaq` at their word (R200). -/
def State.matrixWord (s : State) (i : Instr) (h : Hdr) (quant : Bool) (x : Mat) : Answer :=
  s.runWord i h fun u s =>
    match s.team? u.team with
    | none => .done s []
    | some t =>
      let n := x.cv.toNat
      let c := t.cv n
      let tid (j : Nat) : Nat := (s.lane u j).tid
      let parked := u.plive.filter fun j => c.sgn.getLsbD (tid j)
      let rest := u.plive.filter fun j => !c.sgn.getLsbD (tid j)
      if u.plive.isEmpty then .done s []
      else if rest.isEmpty then .park s (.epoch n)
      else if quant && x.oe && (t.od x.od.toNat).isNone then .trap s (trapAll rest (trapAt 0x01 u.pc))
      else
        let other := match c.group with | some g => g != u.group | none => false
        let bad := rest.filter fun j => other || c.refuses (tid j) u.pc
        if !bad.isEmpty then .trap s (trapAll bad (cvTrap n c u.pc))
        else
          let (num, s) := s.fresh
          let caps := rest.map fun j => captureOf x j (s.lane u j)
          let op : MatOp := match c.op with
            | some m => { m with caps := caps ++ m.caps.filter fun c => !rest.contains c.slot }
            | none => { num := num, pc := u.pc, quant := quant, word := x, caps := caps }
          let s := s.updTeam u.team fun t =>
            { t with cvs := t.cvs.set n { t.cv n with op := some op, group := some u.group } }
          let (s, last) := s.signLanes u.team u.group n u.pc rest
          let s := if last.isEmpty then s else s.settle
          if parked.isEmpty then .done s [] else .finish s (.epoch parked n)

/-- `mma` (R200, R202). -/
def execMma (h : Hdr) (x : Mat) (s : State) : Answer := s.matrixWord (.mma h x) h false x

/-- `mmaq` (R200, R203, R211). -/
def execMmaq (h : Hdr) (x : Mat) (s : State) : Answer := s.matrixWord (.mmaq h x) h true x

-- tile moves

/-- `tzero` (R212). -/
def execTzero (h : Hdr) (x : Mat) (s : State) : Answer :=
  s.runWord (.tzero h x) h fun u s =>
    if u.act.isEmpty then .done s [] else .done (s.issueTile u x.d.toNat .zero) []

/-- `tfill` (R212). With no live lane in P it does nothing, though helper lanes be there. DESIGN CHOICE
(notes/assumptions/66). -/
def execTfill (h : Hdr) (x : Mat) (s : State) : Answer :=
  s.runWord (.tfill h x) h fun u s =>
    if u.plive.isEmpty then .done s []
    else
      let cols := u.plive.map fun j => (j, (s.lane u j).run x.a.toNat 32)
      .done (s.issueTile u x.d.toNat (.fill x.b.toNat cols)) []

/-- A word whose results join a tile or a descriptor (R201, R213, R215, R220). -/
def State.joinWord (s : State) (u : Bun) (need : Need) : Effect :=
  if u.act.isEmpty then .done s []
  else
    let (num, s) := s.fresh
    let r : Result :=
      { num := num, pc := u.pc, need := need, writes := [], flags := 0, trap := none, back := false }
    .done ((s.mapLanes u u.act fun _ l => l.addResult r).formJoins u.team) []

/-- The `$tid`s of the live lanes of P. -/
def State.ptids (s : State) (u : Bun) : List Nat := u.plive.map fun j => (s.lane u j).tid

/-- What a join of a tile by a bundle waits for. -/
def State.tileWaits (s : State) (u : Bun) (tile : Nat) : List Nat :=
  match s.team? u.team with
  | some t => t.tileJoin tile (s.ptids u)
  | none => []

/-- `tmov` (R213). -/
def execTmov (h : Hdr) (x : Mat) (s : State) : Answer :=
  s.runWord (.tmov h x) h fun u s =>
    s.joinWord u (.tileHalf x.a.toNat x.b.toNat x.d.toNat (s.tileWaits u x.a.toNat))

/-- `tstat` (R215). -/
def execTstat (h : Hdr) (x : Mat) (s : State) : Answer :=
  s.runWord (.tstat h x) h fun u s => s.joinWord u (.tileStat x.a.toNat x.d.toNat (s.tileWaits u x.a.toNat))

/-- The image address of `tld` and `tst` (R214): vA of the lowest live lane of P. -/
def State.imageAddr (s : State) (u : Bun) (x : Mat) : Nat := match u.plive with
  | j :: _ => ((s.lane u j).reg x.a.toNat).toNat
  | [] => 0

/-- Whether an image address is refused (R214). -/
def badImage (t : Team) (a : Nat) : Bool := a % 128 != 0 || decide (t.shared < a + 8192)

/-- `tld` (R214). -/
def execTld (h : Hdr) (x : Mat) (s : State) : Answer :=
  s.runWord (.tld h x) h fun u s =>
    match s.team? u.team with
    | none => .done s []
    | some t =>
      let a := s.imageAddr u x
      if u.plive.isEmpty then .done s []
      else if badImage t a then .trap s (trapAll u.plive (trapAt 0x11 u.pc 0 (BitVec.ofNat 64 a)))
      else .done (s.issueTile u x.d.toNat (.load a)) []

/-- `tst` (R214): parks until its join has finished, and delivers a recorded fault precisely. -/
def execTst (h : Hdr) (x : Mat) (s : State) : Answer :=
  s.runWord (.tst h x) h fun u s =>
    match s.team? u.team with
    | none => .done s []
    | some t =>
      let n := x.d.toNat
      let a := s.imageAddr u x
      let ops := s.tileWaits u n
      if u.plive.isEmpty then .done s []
      else if badImage t a then .trap s (trapAll u.plive (trapAt 0x11 u.pc 0 (BitVec.ofNat 64 a)))
      else if !ops.isEmpty then .park s (.matrix ops)
      else match (t.tile n).fault with
        | some f => .trap (s.updTile u.team n fun y => { y with fault := none }) (trapAll u.plive f.trap)
        | none =>
          if t.local_.full (linesOf a 8192) then .hold s
          else .done ((s.raiseLines u.team .sh (linesOf a 8192)).issueTile u n (.store a)) []

-- quantiser

/-- The outcome of the election of a `qnt` word (R217): the kept elements, and whether some were dropped. -/
def electWord (room : Nat) (els : List (Nat × Nat × W64)) : List (Nat × Nat × W64) × Bool :=
  let order := sortBy (fun (a b : Nat × Nat × W64) =>
    decide (a.1 < b.1) || (decide (a.1 = b.1) && decide (a.2.1 ≤ b.2.1))) els
  (order.take room, decide (room < order.length))

/-- Writes what `qnt` gives in every lane of P. -/
def State.quantLanes (s : State) (u : Bun) (x : Mat) (kept : List (Nat × Nat × W64)) : State :=
  s.mapLanes u u.act fun j l => l.put (quantLane x j (kept.map fun e => (e.1, e.2.1)) l)

/-- `qnt` with a descriptor (R217). A word whose P holds helper lanes alone elects nothing and still advances KORG, or
records 0x16. DESIGN CHOICE (notes/assumptions/66). -/
def State.quantOd (s : State) (u : Bun) (x : Mat) (o : Outlier) : Effect :=
  let n := x.od.toNat
  let kk := fmtK x.fmt
  if 65536 < o.korg + kk then
    .done ((s.quantLanes u x []).updOd u.team n fun y => y.record { code := 0x16, pc := u.pc, info0 := odInfo n y.cnt }) []
  else
    let (kept, lost) := electWord (o.cap - o.cnt) (u.plive.flatMap fun j => electLane x j (s.lane u j))
    let a := o.base + 8 * o.cnt
    let ls := linesOf a (8 * kept.length)
    let full := match s.team? u.team with | some t => t.local_.full ls | none => false
    if full then .hold s
    else
      let s := s.quantLanes u x kept
      let s := s.updOd u.team n fun y =>
        let y := { y with cnt := y.cnt + kept.length, korg := y.korg + kk, ovf := y.ovf || lost }
        if lost && !x.b.getLsbD 3 then y.record { code := 0x15, pc := u.pc, info0 := odInfo n 0 } else y
      if kept.isEmpty then .done s []
      else
        let (num, s) := s.fresh
        let data := kept.flatMap fun e => outEntry (o.korg + e.1) e.2.1 e.2.2
        let ap : Append := { num := num, od := n, addr := a, data := data }
        .done ((s.raiseLines u.team .sh ls).updTeam u.team fun t => { t with appends := t.appends ++ [ap] }) []

/-- `qnt` (R216, R217). -/
def execQnt (h : Hdr) (x : Mat) (s : State) : Answer :=
  s.runWord (.qnt h x) h fun u s =>
    if u.act.isEmpty then .done s []
    else if !x.oe then .done (s.quantLanes u x []) []
    else match (s.team? u.team).bind fun t => t.od x.od.toNat with
      | none => .trap s (trapAll u.act (trapAt 0x01 u.pc))
      | some o => s.quantOd u x o

/-- `dqnt` (R218). -/
def execDqnt (h : Hdr) (x : Mat) (s : State) : Answer :=
  s.perLane (.dqnt h x) h fun _ l => l.put (dequantLane x l)

/-- The descriptor a pair binds (R219), if it is well formed. -/
def bindOd (lo hi : W32) : Option Outlier :=
  let cap := fieldN lo.toNat 28 18
  let cnt := fieldN hi.toNat 10 0
  let base := fieldN lo.toNat 17 0
  if fieldN lo.toNat 31 29 != 0 || fieldN hi.toNat 15 11 != 0 || base % 8 != 0 || cap = 0 || 1024 < cap || cap < cnt then none
  else some { base := base, cap := cap, cnt := cnt, cur := 0, korg := fieldN hi.toNat 31 16, ovf := false, fault := none }

/-- `olset` (R219). -/
def execOlset (h : Hdr) (x : Mat) (s : State) : Answer :=
  s.runWord (.olset h x) h fun u s =>
    match s.team? u.team, u.plive with
    | some t, j :: _ =>
      let n := x.od.toNat
      let ops := t.odJoin n
      let l := s.lane u j
      if !ops.isEmpty then .park s (.matrix ops)
      else match (t.od n).bind (·.fault) with
        | some f => .trap (s.updOd u.team n fun y => { y with fault := none }) (trapAll u.plive f.trap)
        | none =>
          match bindOd (l.reg x.a.toNat) (l.reg (x.a.toNat + 1)) with
          | none => .trap s (trapAll u.plive (trapAt 0x01 u.pc))
          | some o =>
            if t.shared < o.base + 8 * o.cap then
              .trap s (trapAll u.plive (trapAt 0x11 u.pc 0 (BitVec.ofNat 64 o.base)))
            else .done (s.updTeam u.team fun t => { t with ods := t.ods.set n (some o) }) []
    | _, _ => .done s []

/-- `olcnt` (R220). -/
def execOlcnt (h : Hdr) (x : Mat) (s : State) : Answer :=
  s.runWord (.olcnt h x) h fun u s =>
    match s.team? u.team with
    | none => .done s []
    | some t =>
      let n := x.od.toNat
      if !u.act.isEmpty && (t.od n).isNone then .trap s (trapAll u.act (trapAt 0x01 u.pc))
      else s.joinWord u (.olist n x.d.toNat (t.odJoin n))

-- events

/-- The operation at the head of a tile's order when its lines are present, as an event performs it. -/
def State.readyTile (s : State) (team tile : Nat) (ok : Team → TileAct → Bool) : Option TileOp :=
  match s.team? team with
  | none => none
  | some t =>
    if !t.resident then none else
    match t.headOp tile with
    | some o => if ok t o.act then some o else none
    | none => none

/-- An event of the matrix unit on a tile. -/
def State.tileEvent (s : State) (ok : State → Team → TileAct → Bool) : Answer :=
  match s.subject with
  | .unit2 team tile =>
    match s.readyTile team tile (ok s) with
    | some o => .next (((s.finishTile team o).runTiles team).settle)
    | none => .next s
  | _ => .next s

/-- Whether the lines of an `mmaq`'s entries are present (R207). -/
def State.entriesHere (s : State) (t : Team) (m : MatOp) : Bool :=
  if !m.quant || !m.word.oe then true
  else match t.od m.word.od.toNat with
    | none => true
    | some o => (entryLines o (escapes m.word m.caps).length).all fun n => (t.local_.line n).present (s.timeAt t.core)

/-- MATRIX_OPERATION_PERFORM (R196): the subject names team and tile. -/
def execMatrixOperationPerform (s : State) : Answer :=
  s.tileEvent fun s t a => match a with
    | .mul m => s.entriesHere t m
    | _ => false

/-- TLD_PERFORM (R214): every line of the image is present. -/
def execTldPerform (s : State) : Answer :=
  s.tileEvent fun s t a => match a with
    | .load x => t.local_.present (s.timeAt t.core) x 8192
    | _ => false

/-- TST_PERFORM (R214). -/
def execTstPerform (s : State) : Answer :=
  s.tileEvent fun _ _ a => match a with
    | .store _ => true
    | _ => false

/-- QNT_APPEND_WRITE (R217): the subject names team and descriptor; its oldest append is written. -/
def execQntAppendWrite (s : State) : Answer :=
  match s.subject with
  | .unit2 team od =>
    match (s.team? team).bind fun t => t.appends.find? fun a => a.od == od with
    | none => .next s
    | some a =>
      let s := s.land team .sh a.addr a.data (linesOf a.addr a.data.length)
      let s := s.updTeam team fun t => { t with appends := t.appends.filter fun b => b.num != a.num }
      .next ((s.formJoins team).settle)
  | _ => .next s

end Sys2Proof.Machine
end

