-- ==== Sys2Proof/Machine/Saver.lean ====
section
/-! DEFINITION. Saving and restoring teams and gangs: when a team is saved (R362, R363, R373), the frame (R359, R365-R367),
the save (R364, R75) and the restore (R368, R369), with their events. -/
namespace Sys2Proof.Machine

-- lane records

/-- The deadline of a lane that sleeps (R132, R366). -/
def Group.sleepOf (g : Group) (slot : Nat) : Option W64 := (g.entryAt slot).bind fun e => match e.wake with
  | some (.sleep d) => some d
  | _ => none

/-- Word i of some bytes. -/
def byteWord (bs : List Byte) (i : Nat) : Nat := ofBytes ((bs.drop (8 * i)).take 8)

/-- A lane with the fields of a record (R366). The low bits of a START are not kept, as in a trap frame (R15). DEDUCED
(notes/assumptions/17). -/
def Lane.withRecord (l : Lane) (bs : List Byte) : Lane :=
  let w := byteWord bs
  let ptr := BitVec.ofNat 64 (w 0)
  let loops : List LoopEntry := (List.range (min 4 (w 6 % 8))).map fun i =>
    { start := BitVec.ofNat 56 (w (8 + 3 * i) / 8 * 8), stop := BitVec.ofNat 56 (w (9 + 3 * i)), count := BitVec.ofNat 32 (w (10 + 3 * i)) }
  { l with pc := ptrAddr ptr, prio := ptrPrio ptr, fpstat := BitVec.ofNat 32 (fieldN (w 1) 63 32) &&& 0x7F,
           hnd := w 1 / 2 ^ 31 % 2 == 1, preds := BitVec.ofNat 24 (w 1 % 2 ^ 24),
           spill := BitVec.ofNat 32 (fieldN (w 2) 63 32) &&& 0x3FFF0, trapen := BitVec.ofNat 32 (w 2 % 2 ^ 32) &&& 0x3,
           acq := BitVec.ofNat 64 (w 3), ct := BitVec.ofNat 64 (w 4), loops := loops }

/-- The bytes of a lane record (R366): its reserved fields are zero (R10). -/
def recordBytes (l : Lane) (home kind : Nat) (slp : Bool) (dl : List Byte) : List Byte :=
  let w1 := l.fpstat.toNat * 2 ^ 32 + (if l.hnd then 2 ^ 31 else 0) + home % 32 * 2 ^ 26 + kind * 2 ^ 24 + l.preds.toNat
  let loop (i : Nat) : List Byte :=
    let e := l.loops.getD i { start := 0, stop := 0, count := 0 }
    bytesOf 8 e.start.toNat ++ bytesOf 8 e.stop.toNat ++ bytesOf 8 e.count.toNat
  bytesOf 8 (codePtr l.prio l.pc).toNat ++ bytesOf 8 w1 ++ bytesOf 8 (l.spill.toNat * 2 ^ 32 + l.trapen.toNat) ++
    bytesOf 8 l.acq.toNat ++ bytesOf 8 l.ct.toNat ++ dl ++ bytesOf 8 ((if slp then 256 else 0) + l.loops.length) ++
    List.replicate 8 0 ++ loop 0 ++ loop 1 ++ loop 2 ++ loop 3 ++ List.replicate 32 0

/-- A lane record (R366); of an empty slot only SLOT is told. `free` fills what the manual leaves open, in the fields that a
record has. -/
def laneRecord (g : Group) (slot : Nat) (free : List Byte) : List Byte :=
  let l := g.lane slot
  let dl := (free.drop 40).take 8
  if l.kind = .empty then
    recordBytes (emptyLane.withRecord free) (byteWord free 1 / 2 ^ 26) 0 (byteWord free 6 / 256 % 2 == 1) dl
  else
    let sleep := g.sleepOf slot
    recordBytes l l.home (if l.kind = .live then 1 else 2) sleep.isSome (match sleep with | some d => bytesOf 8 d.toNat | none => dl)

/-- A lane as its record gives it back (R366, R368), in a slot that lane `tid` would start in. Nonzero bits of the reserved
fields are ignored, and a SLOT of 3 leaves the slot's kind. HOME is the group of `$tid`, which never changes (R139, R223).
DESIGN CHOICE (notes/assumptions/67). -/
def Lane.fromRecord (l : Lane) (tid : Nat) (bs : List Byte) : Lane :=
  let kind : SlotKind := match byteWord bs 1 / 2 ^ 24 % 4 with | 0 => .empty | 1 => .live | 2 => .helper | _ => l.kind
  if kind = SlotKind.empty then (if l.kind = SlotKind.empty then l else emptyLane)
  else (if l.kind = SlotKind.empty then { emptyLane with kind := kind, tid := tid } else { l with kind := kind }).withRecord bs

/-- The deadline that a lane record names for a sleeping lane (R366). -/
def recordSleep (bs : List Byte) : Option W64 :=
  if byteWord bs 6 / 256 % 2 == 1 then some (BitVec.ofNat 64 (byteWord bs 5)) else none

/-- The entries of a group as the lane records give them back (R366, R368): lanes sleep as their SLP and DL say, and a lane
that was in no entry is ready. -/
def Group.fromRecords (g : Group) (lanes : List Lane) (sleep : Nat → Option W64) : Group :=
  let wakes (e : Entry) : List Entry := match e.wake with
    | none | some (.sleep _) =>
      let slots := slotsOf e.mask
      ((slots.map sleep).eraseDups).map fun d =>
        { e with mask := maskOf (slots.filter fun i => sleep i == d), wake := d.map Wake.sleep }
    | _ => [e]
  let g' := { g with lanes := lanes, entries := g.entries.flatMap wakes }
  if lanes.map (·.kind) == g.lanes.map (·.kind) then g'
  else
    let new := (List.range 32).filter fun i => g'.isLive i && (g.lane i).kind == .empty
    Group.tidy { g' with entries := g'.entries ++ g'.formEntries (new.map fun i => (i, none)) }

-- tile images

/-- STATE of a block record (R367). -/
def OutSum.stateBits (o : OutSum) : Nat :=
  let negOnly := o.negZero && !({ o with negZero := false } : OutSum).any
  (if o.posInf then 1 else 0) + (if o.negInf then 2 else 0) + (if o.nan || o.sig || o.bad then 4 else 0) +
    (if o.poison then 8 else 0) + (if negOnly then 16 else 0) + (if o.any then 32 else 0)

/-- A block record (R367). -/
def blockRecord (bd : Int) (o : OutSum) : List Byte :=
  let st := o.stateBits
  bytesOf 4 (BitVec.ofInt 32 bd).toNat ++ bytesOf 4 st ++
    bytesOf 8 (if st % 16 = 0 then (BitVec.ofInt 64 o.val).toNat else 0)

/-- The sum that a block record gives back. -/
def sumOfRecord (bs : List Byte) : OutSum :=
  let st := ofBytes ((bs.drop 4).take 4)
  let v := (BitVec.ofNat 64 (ofBytes ((bs.drop 8).take 8))).toInt
  let has (n : Nat) : Bool := st / 2 ^ n % 2 == 1
  { OutSum.empty with val := v, posInf := has 0, negInf := has 1, nan := has 2, poison := has 3, negZero := has 4,
                      posZero := has 5 && !has 4 && v == 0, posFin := has 5 && decide (0 < v), negFin := has 5 && decide (v < 0) }

/-- The status word of a tile image (R194, R367): no operation is in flight, `signed` says whether an epoch that names the
tile has a signature, and the image is current. -/
def Tile.savedStatus (t : Tile) (signed : Bool) : W32 :=
  t.flags ||| BitVec.ofNat 32 ((if signed then 8 else 0) + (if t.open_ then 4 else 0) + (if t.v then 1 else 0))

/-- The parts of a tile image that are written (R367): offset and bytes. -/
def Tile.image (t : Tile) (signed : Bool) : List (Nat × List Byte) :=
  let elems := (0, t.values.flatMap fun w => bytesOf 4 w.toNat)
  let blocks := if t.open_ then
      [(0x2000, (List.range 2048).flatMap fun i => blockRecord (t.bd.getD i 0) (t.bo.getD i OutSum.empty))]
    else []
  elems :: blocks ++ [(0xA000, bytesOf 4 (t.savedStatus signed).toNat ++ List.replicate 124 0)]

/-- A tile as its image gives it back: `parts` are those of `Tile.image` as read (R367, R368). A record that is as the tile's
own would be leaves the tile's own sum. Nonzero bits of reserved fields are ignored. DESIGN CHOICE (notes/assumptions/67). -/
def Tile.fromImage (t : Tile) (parts : List (List Byte)) : Tile :=
  let elems := (List.range 2048).map fun i => BitVec.ofNat 32 (ofBytes (((parts.getD 0 []).drop (4 * i)).take 4))
  let st := BitVec.ofNat 32 (ofBytes ((parts.getLastD []).take 4))
  let recs := if t.open_ then parts.getD 1 [] else []
  let rec_ (i : Nat) : List Byte := (recs.drop (16 * i)).take 16
  let bd := if t.open_ then (List.range 2048).map fun i => (BitVec.ofNat 32 (ofBytes ((rec_ i).take 4))).toInt else []
  let bo := if t.open_ then (List.range 2048).map fun i =>
      let old := t.bo.getD i OutSum.empty
      if blockRecord (t.bd.getD i 0) old = rec_ i then old else sumOfRecord (rec_ i)
    else []
  { t with elems := elems, v := st.getLsbD 0, d := false, flags := st &&& 0x1D00, open_ := st.getLsbD 2 && t.open_,
           bd := bd, bo := bo }

-- the frame

/-- The RES word of a team's launch (R82, R154). -/
def Team.resWord (t : Team) (scratch : Nat) : Nat :=
  scratch / 128 * 2 ^ 38 + t.spillUnits * 2 ^ 25 + t.shared / 128 * 2 ^ 13 + t.ncvs * 2 ^ 8 + t.ntiles * 8 + (t.nregs / 32 - 1)

/-- The header words before the CRC (R365). DESIGN CHOICE (notes/assumptions/30). -/
def State.headerWords (s : State) (t : Team) : List Nat :=
  let (gi, scr) := match s.gang? t.gang with | some g => (g.index, g.scratch) | none => (0, 0)
  [s.ctxOf t, gi, t.index, t.resWord scr, t.groups.length, if 2 ≤ t.saving then 1 else 0, s.time.now.toNat, t.saving]

def Team.offsets (t : Team) : List Nat := frameOffsets t.size t.nregs t.shared t.spillUnits t.ntiles t.ncvs

def Team.section_ (t : Team) (i : Nat) : Nat := t.offsets.getD i 0

/-- Bytes of team memory in a frame. -/
def Team.memLen (t : Team) : Nat := frameMem t.size t.shared t.spillUnits

/-- The byte that a frame keeps of a line (R365). -/
def LocalMem.lineByte (m : LocalMem) (n : Nat) : Byte :=
  let l := m.line n
  BitVec.ofNat 8 (l.pending % 16 + (if l.lease.isSome then 16 else 0))

/-- Bytes padded to a length with free ones. -/
def State.padTo (s : State) (n : Nat) (bs : List Byte) : State × List Byte :=
  let (f, s) := s.freeBytes (n - bs.length)
  (s, bs ++ f)

/-- The sections from the lane records up to the tiles (R365): those whose layout is not told hold free bytes. -/
def State.frameBody (s : State) (t : Team) : State × List Byte :=
  let (s, lanes) := t.groups.foldl (fun (r : State × List Byte) g =>
    (List.range 32).foldl (fun (r : State × List Byte) i =>
      let (f, s) := r.1.freeBytes 192
      (s, r.2 ++ laneRecord g i f)) r) (s, [])
  let (s, regs) := t.groups.foldl (fun (r : State × List Byte) g =>
    (List.range 32).foldl (fun (r : State × List Byte) i =>
      let l := g.lane i
      let (f, s) := r.1.freeBytes (if l.kind = .empty then 4 * t.nregs else 0)
      (s, r.2 ++ (if l.kind = .empty then f else l.regs.flatMap fun w => bytesOf 4 w.toNat))) r) (s, [])
  let (s, state) := s.padTo (t.section_ 6 - t.section_ 3) []
  let mem := t.local_.bytes.read 0 t.memLen ++ (List.range ((t.memLen + 127) / 128)).map t.local_.lineByte
  let (s, mem) := s.padTo (t.section_ 7 - t.section_ 6) mem
  let (s, rest) := s.padTo (t.section_ 9 - t.section_ 7) []
  (s, lanes ++ regs ++ state ++ mem ++ rest)

/-- The tiles that a frame has an image of, with the parts of each: offset in the frame and bytes. -/
def Team.tileParts (t : Team) : List (Nat × List (Nat × List Byte)) :=
  (t.tiles.zipIdx.filter fun x => x.1.v).map fun (x, n) =>
    (n, (x.image (t.tileSigned n)).map fun p => (t.section_ 9 + 41088 * n + p.1, p.2))

/-- The tiles that a save writes (R364 step 7): those with V = 1 but for one with D = 0 whose image in the frame is current,
its status word included. -/
def Team.staleTiles (t : Team) : List (Nat × List (Nat × List Byte)) :=
  t.tileParts.filter fun p => !(t.imaged.contains (p.1, t.tileSigned p.1) && !(t.tile p.1).d)

/-- Whether the arrays that hold the state which a save reads have an uncorrectable codeword (R359). -/
def State.savedErrors (s : State) (t : Team) : State × Bool :=
  let ctx := s.ctxOf t
  let live := t.places.filter fun p => p.2.2.kind != .empty
  let (s, b0) := if !s.regArmed then (s, false) else live.foldl (fun (r : State × Bool) p =>
    let (s, bad) := r.1.sramRead 0 t.core ctx (t.regAddr p.1 p.2.1 0) (4 * t.nregs)
    (s, r.2 || !bad.isEmpty)) (s, false)
  let (s, b1) := if !(s.mem.flips.any (·.kind == 1)) then (s, false) else
    let (s, bad) := s.sramRead 1 t.core ctx t.memBase t.memLen
    (s, !bad.isEmpty)
  let (s, b3) := if !s.tileArmed then (s, false) else t.staleTiles.foldl
    (fun (r : State × Bool) x =>
      let (s, bad) := r.1.sramRead 3 t.core ctx (t.tileAddr x.1 0) 8192
      (s, r.2 || !bad.isEmpty)) (s, false)
  (s, b0 || b1 || b3)

/-- Who reads and writes a team's frame (R382 source 5, R393): the team's core; only a restore raises a page fault. -/
def State.frameWho (s : State) (t : Team) (core : Nat) (raises : Bool) : PartWho :=
  { src := 5, ctx := s.ctxOf t, core := core, part := false, raises := raises }

/-- Writes parts of a frame; false when an access failed. -/
def State.writeParts (s : State) (ctx base : Nat) (who : PartWho) : List (Nat × List Byte) → State × Bool
  | [] => (s, true)
  | (off, bs) :: rest =>
    match s.partWrite (.va ctx (base + off)) bs who with
    | (s, .ok _) => s.writeParts ctx base who rest
    | (s, _) => (s, false)

/-- Writes a team's frame (R364 step 7): none where the save is abandoned (R382). -/
def State.writeFrame (s : State) (t : Team) : State × Option Team :=
  let who := s.frameWho t t.core false
  let ctx := s.ctxOf t
  match s.partProbe (.va ctx t.frame) t.frameLen permWrite who with
  | (s, .ok _) =>
    let (s, bad) := s.savedErrors t
    let (s, body) := s.frameBody t
    let header := (s.headerWords t).flatMap (bytesOf 8)
    let tiles := t.tileParts
    let crc := crc32c (header ++ body ++ tiles.flatMap fun p => p.2.flatMap (·.2))
    let (s, pad) := s.padTo 256 (header ++ bytesOf 8 crc.toNat)
    let parts := (0, pad) :: (256, body) :: t.staleTiles.flatMap (·.2)
    match s.writeParts ctx t.frame who parts with
    | (s, true) =>
      let tiles' := t.tiles.map fun x => if x.v then { x with d := false } else x
      (s, some { t with tiles := tiles', imaged := tiles.map fun p => (p.1, t.tileSigned p.1), marked := bad })
    | (s, false) => (s, none)
  | (s, _) => (s, none)

-- the save

/-- Whether an entry waits in the middle of its run for a page of code (R391), or is held at a `waitb` (R300, R402). -/
def State.waitsInRun (s : State) (t : Team) (gi : Nat) (e : Entry) : Bool :=
  match e.wake, slotsOf e.mask with
  | some (.fetch ..), _ => true
  | none, i :: _ => match s.nextInstr { team := t.id, group := gi, slot := i } with
    | some (.waitb _ x) => e.release.isSome || decide (16 ≤ (t.queue x.cq.toNat).outstanding)
    | _ => false
  | _, _ => false

/-- Whether an entry of a group can be saved (R75, R364): at a run's start or parked there; split off, with every result
that has been performed returned; or, in a replayable group, held in its run at a `waitb` or at a page of code, with no result
out (R391, R402). DEDUCED (notes/assumptions/29). -/
def State.savable (s : State) (t : Team) (gi : Nat) (g : Group) (e : Entry) : Bool :=
  let results := (slotsOf e.mask).flatMap fun i => (g.lane i).results
  (!e.inRun && e.ending.isNone) || (e.split && e.ending.isSome && results.all fun r => r.back || r.need != .formed) ||
    (e.ending.isNone && results.isEmpty && s.replayable t.id gi g && s.waitsInRun t gi e)

/-- Whether a team that is to be saved has come to its run ends, and its matrix unit to rest (R364). -/
def State.atRest (s : State) (t : Team) : Bool :=
  t.saving != 0 && t.resident && !t.ended && t.dying.isNone && t.tileOps.isEmpty && t.appends.isEmpty &&
    t.groups.zipIdx.all fun (g, gi) => g.entries.all fun e => s.savable t gi g e

/-- Drops a team's monitors (R364). -/
def State.disarmTeam (s : State) (t : Team) : State :=
  let s := t.live.foldl (fun s p => s.unwatch t.id p.2.2.tid) s
  s.updTeam t.id fun t => t.mapLanes fun l => { l with monitor := none }

/-- The number under which a saved team's stream queues and Serge programs stand: no core or cluster has it. -/
def awayCore (team : Nat) : Nat := 512 + team

/-- A team's stream queues and Serge programs leave its core (R364). -/
def State.parkSerge (s : State) (t : Team) : State :=
  { s with streams := s.streams.map fun x => if x.team = t.id then { x with core := awayCore t.id } else x,
           serges := s.serges.map fun z =>
             if z.team = t.id then { z with core := awayCore t.id, cluster := awayCore t.id, unit := z.q, stopped := true } else z }

/-- The scratchpad lines that are present (R227, R274). -/
def Gang.presentLines (g : Gang) (now : W64) : List Nat :=
  (List.range ((g.scratch + 127) / 128)).filter fun n => (g.local_.line n).pending == 0 && !(g.local_.line n).expired now

/-- What is written of a gang frame (R364 step 8, R365): the present lines, and a byte for every line. -/
def Gang.frameParts (g : Gang) (now : W64) : List (Nat × List Byte) :=
  (g.presentLines now).map (fun n => (128 * n, g.local_.bytes.read (128 * n) 128)) ++
    [(g.scratch, (List.range ((g.scratch + 127) / 128)).map g.local_.lineByte)]

/-- Leases that are over stay over while the scratchpad is away: a frame has the lines of the others. -/
def LocalMem.freezeLeases (m : LocalMem) (now : W64) : LocalMem :=
  { m with lines := m.lines.map fun l => { l with lease := l.lease.map fun x => { x with expired := l.expired now } } }

/-- The parts of the cores' scratchpads that `n` bytes at an address of a cluster's take (R361): unit, address, length. -/
def padSlices (cluster base n : Nat) : List (Nat × Nat × Nat) :=
  let first := base / 2 ^ 19
  (List.range (n / 2 ^ 19 + 2)).filterMap fun i =>
    let lo := max base ((first + i) * 2 ^ 19)
    let hi := min (base + n) ((first + i + 1) * 2 ^ 19)
    if lo < hi then some (128 * (cluster / 4) + first + i, lo % 2 ^ 19, hi - lo) else none

/-- Whether every other team of a gang has ended or is saved; one saved alone before counts with them. -/
def State.lastOfGang (s : State) (t : Team) : Bool :=
  s.teams.all fun x => x.gang != t.gang || x.id == t.id || x.ended || !x.resident

/-- Whether the lines that a save reads of a gang's scratchpad have an uncorrectable codeword (R359). -/
def State.padErrors (s : State) (g : Gang) (ctx : Nat) (lines : List Nat) : State × Bool :=
  if !(s.mem.flips.any (·.kind == 2)) then (s, false) else
  (lines.flatMap fun n => padSlices g.cluster (g.base + 128 * n) 128).foldl (fun (r : State × Bool) (unit, a, n) =>
    let (s, bad) := r.1.sramRead 2 unit ctx a n
    (s, r.2 || !bad.isEmpty)) (s, false)

/-- Writes a gang frame, and frees the scratchpad (R363, R364 step 8); false when the access failed. An error marks every
frame of the gang (R359). DEDUCED (notes/assumptions/31). -/
def State.savePad (s : State) (t : Team) (g : Gang) : State × Bool :=
  let now := s.time.now
  match s.writeParts (s.ctxOf t) g.frame (s.frameWho t t.core false) (g.frameParts now) with
  | (s, true) =>
    let (s, bad) := s.padErrors g (s.ctxOf t) (g.presentLines now)
    let s := s.updGang g.id fun g => { g with savedWhole := true, base := 0, local_ := g.local_.freezeLeases now }
    (if bad then { s with teams := s.teams.map fun x => if x.gang = g.id then { x with marked := true } else x } else s, true)
  | (s, false) => (s, false)

/-- Saves a gang's scratchpad with its last team (R363); false when the access failed. -/
def State.saveGang (s : State) (t : Team) : State × Bool :=
  match s.gang? t.gang with
  | none => (s, true)
  | some g => if t.saving < 2 || !s.lastOfGang t then (s, true) else s.savePad t g

/-- Counts a saved team for the `csave`s that wait for its context (R373). -/
def State.countSave (s : State) (ctx : Nat) : State :=
  { s with priv := { s.priv with saves := s.priv.saves.map fun o => if o.ctx = ctx then { o with count := o.count + 1 } else o } }

/-- Whether a gang has a pending `gbar` (R363). -/
def State.pendingGbar (s : State) (gang : Nat) : Bool :=
  s.teams.any fun t => t.gang == gang && t.groups.any fun g => g.entries.any fun e => e.wake == some .gbar

/-- A team with a save ordered: a save of its whole gang prevails over one of its own, also over one that is made. -/
def Team.ordered (t : Team) (reason : Nat) : Team :=
  if t.ended then t
  else match t.place with
    | .core .. => { t with saving := max t.saving reason }
    | .saved r at_ => { t with place := .saved (max r reason) at_ }

/-- A save of a team that is abandoned (R382): it runs on, and its gang is not saved whole now. -/
def State.abandonSave (s : State) (t : Team) : State :=
  { s with teams := s.teams.map fun x =>
      if x.id = t.id then { x with saving := 0, replaySince := none }
      else if x.gang = t.gang then
        { x with saving := min x.saving 1, place := match x.place with | .saved _ at_ => .saved 1 at_ | p => p }
      else x }

/-- Whether a team was saved for its whole gang (R363), whose scratchpad is not saved yet. -/
def State.leftWhole (s : State) (t : Team) : Bool :=
  (match t.place with | .saved r _ => decide (2 ≤ r) | _ => false) &&
    match s.gang? t.gang with | some g => !g.savedWhole | none => false

/-- A gang to be saved whole whose last team ended before it was saved: the scratchpad is written with those that are
(R363, R364 step 8). -/
def State.saveLeft (s : State) (t : Team) : State :=
  match s.gang? t.gang with
  | none => s
  | some g =>
    if !s.leftWhole t || !s.lastOfGang t then s else
    match s.savePad t g with
    | (s, true) => s.settle
    | (s, false) => (s.abandonSave t).settle

/-- Orders the save of a team, and of its whole gang where that is called for (R363). -/
def State.orderSave (s : State) (t : Team) (reason : Nat) : State :=
  let reason := if reason = 1 ∧ s.pendingGbar t.gang then 3 else reason
  if reason = 1 then s.updTeam t.id fun x => x.ordered 1
  else { s with teams := s.teams.map fun x => if x.gang = t.gang then x.ordered reason else x }

/-- TEAM_SAVE (R364): the subject names the team. A `gbar` of its gang that has become pending has the whole gang saved
(R363). -/
def execTeamSave (s : State) : Answer :=
  match s.subject with
  | .unit id =>
    match s.team? id with
    | none => .next s
    | some t =>
      if !s.running || !s.atRest t then .next (if s.running && !t.resident && !t.ended then s.saveLeft t else s) else
      let s := if t.saving = 1 then s.orderSave t 1 else s
      -- steps 2 to 6
      let s := (s.regroup.filter fun r => r.team == id).foldl State.releaseRegroup s
      let s := s.updTeam id Team.closeOpen
      let s := (List.range 8).foldl (fun s n => s.advanceQueue id n) s
      match s.team? id with
      | none => .next s
      | some t =>
        match s.writeFrame t with
        | (s, none) => .next (s.abandonSave t).settle
        | (s, some t') =>
          match s.saveGang t with
          | (s, false) => .next (s.abandonSave t).settle
          | (s, true) =>
            let s := (s.disarmTeam t).parkSerge t
            let s := s.updTeam id fun t =>
              { t with tiles := t'.tiles, imaged := t'.imaged, marked := t.marked || t'.marked, saving := 0, replaySince := none,
                       place := .saved t'.saving (s.timeAt t.core),
                       groups := t.groups.map fun g =>
                         { g with holds := [], entries := g.entries.map fun e => { e with issuing := e.issuing && e.inRun } } }
            .next (s.countSave (s.ctxOf t)).settle
  | _ => .next s

-- when a team is saved

/-- Whether a lane of some groups has not arrived at a barrier (R362). -/
def lacksAt (gs : List Group) (w : Wake) : Bool :=
  gs.any fun g => g.entries.any fun e => e.wake != some w && (slotsOf e.mask).any g.isLive

/-- Whether a lane of some groups has not signed an epoch of the team that has begun (R362). -/
def Team.lacksSigner (t : Team) (gs : List Group) : Bool :=
  t.cvs.any fun c => c.sgn != 0 && gs.any fun g => (List.range 32).any fun i =>
    g.isLive i && c.decl.getLsbD (g.lane i).tid && !c.sgn.getLsbD (g.lane i).tid

/-- Whether every live lane of a team outside its replayable groups is parked, those of the replayable groups come no further
in their runs, and a barrier of the team or of its gang, or an epoch, lacks one of them (R362). -/
def State.heldUp (s : State) (t : Team) : Bool :=
  let rep (x : Group × Nat) : Bool := s.replayable t.id x.2 x.1
  let stuck := (t.groups.zipIdx.filter rep).map (·.1)
  let still (gi : Nat) (e : Entry) : Bool := !e.isReady || !e.inRun || s.waitsInRun t gi e
  (s.heldTids t.id).isEmpty &&
    t.groups.zipIdx.all (fun x => if rep x then x.1.entries.all (still x.2) else x.1.entries.all fun e => !e.isReady) &&
    (((t.groups.any fun g => g.entries.any fun e => e.wake == some .bar) && lacksAt stuck .bar) ||
      (s.pendingGbar t.gang && lacksAt stuck .gbar) || t.lacksSigner stuck)

/-- REPLAYABLE_SAVE_TIMEOUT (R362, R391): the subject names the team. A team on a reserved core is never saved so. -/
def execReplayableSaveTimeout (s : State) : Answer :=
  match s.subject with
  | .unit id =>
    match s.team? id with
    | none => .next s
    | some t =>
      match t.replaySince with
      | none => .next s
      | some since =>
        let rep := t.groups.zipIdx.any fun x => s.replayable id x.2 x.1
        let due := decide (100000 ≤ (s.timeAt t.core - since).toNat) || s.heldUp t
        if !s.running || !t.resident || t.ended || t.saving != 0 || s.isReserved t.core || !rep || !due then .next s
        else .next (s.orderSave t 1).settle
  | _ => .next s

/-- Whether a team of a context is still to be saved. -/
def State.stillSaving (s : State) (ctx : Nat) : Bool := s.teams.any fun t => s.ctxOf t == ctx && t.saving != 0 && !t.ended

/-- CSAVE_STAMP (R373): the oldest order whose teams are all saved writes its stamp. The subject names the context.
DEDUCED (notes/assumptions/32). -/
def execCsaveStamp (s : State) : Answer :=
  match s.subject with
  | .unit ctx =>
    match s.priv.saves.find? fun o => o.ctx == ctx with
    | none => .next s
    | some o =>
      if s.stillSaving ctx then .next s else
      let drop (s : State) : State := { s with priv := { s.priv with saves := s.priv.saves.erase o } }
      let value := o.count % 2 ^ 24 * 2 ^ 40 + s.time.now.toNat % 2 ^ 40
      let who : PartWho := { src := 5, ctx := o.stampCtx, core := o.core, part := false, raises := true }
      match s.partWrite (.va o.stampCtx o.stamp.toNat) (bytesOf 8 value) who with
      | (s, .ok ls) => .next (drop (s.partRelease ls))
      | (s, .fault) => .next (drop s)
      | (s, .nonres) => .next s
  | _ => .next s

-- the restore

/-- Reads parts of a frame. -/
def State.readParts (s : State) (ctx base : Nat) (who : PartWho) : List (Nat × Nat) → State × PartRes (List (List Byte))
  | [] => (s, .ok [])
  | (off, n) :: rest =>
    match s.partRead (.va ctx (base + off)) n who with
    | (s, .ok bs) => match s.readParts ctx base who rest with
      | (s, .ok r) => (s, .ok (bs :: r))
      | x => x
    | (s, .fault) => (s, .fault)
    | (s, .nonres) => (s, .nonres)

/-- The lease of a line that a frame gives back as leased: the line is absent, and is read again as it was filled. -/
def LineState.leaseBack (l : LineState) : LineLease :=
  { l.lease.getD { expiry := 0, expired := true, parts := [], ld := 0, evp := 0, ctx := 0, core := 0 } with expired := true }

/-- The lines of a local memory as a frame's line bytes give them back; leased lines are absent (R274, R368). The bytes of the
lines `kept`, which were absent at the save, are as they were left: the frame has none of them. DEDUCED
(notes/assumptions/31). -/
def LocalMem.fromFrame (m : LocalMem) (len : Nat) (bs : List Byte) (kept : List Nat) : LocalMem :=
  let bytes := kept.foldl (fun (b : Mem) n => b.write (128 * n) (m.bytes.read (128 * n) 128)) (Mem.write [] 0 (bs.take len))
  let lines := (List.range ((len + 127) / 128)).map fun n =>
    let b := (bs.getD (len + n) 0).toNat
    { m.line n with pending := b % 16, lease := if b / 16 % 2 == 1 then some (m.line n).leaseBack else none }
  { m with bytes := bytes, lines := lines.filter fun l => l.pending != 0 || l.lease.isSome }

/-- The lines of a saved scratchpad that its frame has no bytes of. -/
def Gang.keptLines (g : Gang) : List Nat :=
  (List.range ((g.scratch + 127) / 128)).filter fun n =>
    (g.local_.line n).pending != 0 || (match (g.local_.line n).lease with | some x => x.expired | none => false)

/-- A team as its frame's body gives it back (R366, R368). -/
def Team.fromBody (t : Team) (body : List Byte) : Team :=
  let at_ (off n : Nat) : List Byte := (body.drop (off - 256)).take n
  let record (gi i : Nat) : List Byte := at_ (t.section_ 1 + 192 * (32 * gi + i)) 192
  let lane (gi i : Nat) (l : Lane) : Lane :=
    let l := l.fromRecord (32 * gi + i) (record gi i)
    let rs := at_ (t.section_ 2 + 4 * t.nregs * (32 * gi + i)) (4 * t.nregs)
    if l.kind = .empty then l else { l with regs := wordsOfBytes t.nregs rs }
  let groups := t.groups.zipIdx.map fun (g, gi) =>
    g.fromRecords (g.lanes.zipIdx.map fun (l, i) => lane gi i l) fun i => recordSleep (record gi i)
  { t with groups := groups, local_ := t.local_.fromFrame t.memLen (at_ (t.section_ 6) (t.section_ 7 - t.section_ 6)) [] }

/-- What reading a team's frame gives (R368, R369). -/
inductive FrameRead where
  | ok (t : Team)
  | kill (cause : Nat)
  | wait
  deriving DecidableEq, Repr

/-- Reads and checks a team's frame (R368, R369, R382). DEDUCED (notes/assumptions/31). -/
def State.readFrame (s : State) (t : Team) (core : Nat) : State × FrameRead :=
  let who := s.frameWho t core true
  let parts := t.tileParts
  let ranges := (0, 72) :: (256, t.section_ 9 - 256) :: parts.flatMap fun p => p.2.map fun x => (x.1, x.2.length)
  match s.readParts (s.ctxOf t) t.frame who ranges with
  | (s, .ok (header :: body :: tiles)) =>
    if byteWord header 8 ≠ (crc32c (header.take 64 ++ body ++ tiles.flatten)).toNat then (s, .kill 4)
    else if t.marked then (s, .kill 7)
    else
      let t1 := t.fromBody body
      let t2 := (parts.foldl (fun (r : Team × List (List Byte)) p =>
        let k := p.2.length
        ({ r.1 with tiles := r.1.tiles.set p.1 ((t.tile p.1).fromImage (r.2.take k)) }, r.2.drop k)) (t1, tiles)).1
      (s, .ok t2)
  | (s, .nonres) => (s, .wait)
  | (s, _) => (s, .kill 4)

/-- Where the stream queues and Serge programs of a team can go on (R368): a queue of the core that no other team holds,
and as many free processors as it has programs. -/
def State.sergeRoom (s : State) (t : Team) (core : Nat) : Bool :=
  let need := (s.serges.filter fun z => z.team == t.id).length
  let used := (s.serges.filter fun z => z.cluster == clusterOf core).length
  decide (need + used ≤ 4) && (s.streams.filter fun x => x.team == t.id && x.bound).all fun x =>
    match s.stream? core x.q with
    | some y => !y.bound
    | none => true

/-- A restored team's stream queues and Serge programs go on (R368). -/
def State.resumeSerge (s : State) (t : Team) (core : Nat) : State :=
  let mine := s.streams.filter fun x => x.team == t.id
  let others := s.streams.filter fun x => x.team != t.id && !(x.core == core && mine.any fun y => y.q == x.q)
  let moved := mine.map fun (x : StreamQueue) => { x with core := core }
  let s := { s with streams := others ++ moved }
  (s.serges.filter fun z => z.team == t.id).foldl (fun s z =>
    let unit := (s.freeSerge (clusterOf core)).getD 0
    let z' := { z with core := core, cluster := clusterOf core, unit := unit, stopped := false }
    { s with serges := s.serges.map fun y => if y = z then z' else y }) s

/-- A group as it is restored: `mwait` entries are ready, counters are zero (R368). -/
def Group.restored (g : Group) (hw : Nat) : Group :=
  let entry (e : Entry) : Entry :=
    { e with starve := 0, spin := noSpin,
             wake := match e.wake with | some (.mwait _) => none | w => w }
  { g with hw := hw, age := 0, issued := false, yieldEnd := 0, holds := [], holder := 0, entries := g.entries.map entry }

/-- Delivers what was held for a saved team, and performs what its lanes had not (R75, R318, R368). -/
def State.deliverLate (s : State) (team : Nat) : State :=
  match s.team? team with
  | none => s
  | some t =>
    let s := s.updTeam team fun t => { t with lateWrites := [] }
    let s := t.lateWrites.foldl (fun s w => s.land team w.space w.addr w.data w.retire w.mark
      (w.lease.map fun x => { x with expired := true })) s
    (s.drain team .sh).drain team .sc

/-- Puts a team back on a core (R368). -/
def State.putBack (s : State) (t : Team) (core : Nat) : State :=
  let free := s.freeHw core
  let place := s.placeOn core t.needs
  let t := { t with place := place, groups := t.groups.zipIdx.map fun (g, gi) => g.restored (free.getD gi 0), last := none,
                    stuck := false, replaySince := none }
  let s := s.updTeam t.id fun _ => t
  let s := if s.regArmed then t.places.foldl (fun s p =>
    if p.2.2.kind = .empty then s else s.sramWrite 0 core (s.ctxOf t) (t.regAddr p.1 p.2.1 0) (4 * t.nregs)) s else s
  let s := s.sramWrite 1 core (s.ctxOf t) t.memBase t.memLen
  let s := (t.tiles.zipIdx.filter (·.1.v)).foldl (fun (s : State) x => s.tileWrote t.id x.2 0 2048) s
  (s.resumeSerge t core).deliverLate t.id

/-- Restores one team's frame onto a core, or kills the team (R368, R369). -/
def State.restoreTeam (s : State) (t : Team) (core : Nat) : State :=
  match s.readFrame t core with
  | (s, .ok t') => s.putBack t' core
  | (s, .kill cause) =>
    -- the manual gives such an entry no trap code and no PC
    let (w, s) := s.freeWord
    s.kill t.id cause (w.setWidth 8) (BitVec.ofNat 56 (w.toNat / 256))
  | (s, .wait) => s.updTeam t.id fun t => { t with stuck := true }

/-- Whether a saved team may be restored: not replayable, its context not suspended, its restore not waiting for a page
(R362, R373, R382). -/
def State.restorable (s : State) (t : Team) : Bool :=
  !t.resident && !t.ended && t.dying.isNone && !t.stuck && s.running && !s.suspendedCtx (s.ctxOf t) &&
    !(t.groups.zipIdx.any fun x => s.replayable t.id x.2 x.1)

/-- Whether a core's time base has come to where a saved team's lanes have read (R32). -/
def State.timeMet (s : State) (t : Team) (core : Nat) : Bool := match t.place with
  | .saved _ at_ =>
    let d := at_ - s.timeAt core
    d == 0 || decide (16 < d.toNat)
  | _ => true

/-- The cores that a team of a gang may take in a cluster. -/
def State.teamCores (s : State) (g : Gang) (cluster : Nat) : List Nat :=
  match s.launch? g.launch with
  | some l => s.coresFor l cluster
  | none => []

/-- Whether some teams can go to some cores together. -/
def State.roomForTeams (s : State) : List (Team × Nat) → (Nat → Needs) → Bool
  | [], _ => true
  | (t, c) :: rest, used =>
    let n := (used c).add t.needs
    n.fitCore && s.sergeRoom t c && s.roomForTeams rest fun d => if d = c then n else used d

/-- Restores a team saved alone, on a core of its gang's cluster (R363). -/
def State.restoreAlone (s : State) (t : Team) (g : Gang) (core : Nat) : State :=
  if !s.restorable t || !s.timeMet t core || g.savedWhole || s.leftWhole t ||
      !(s.teamCores g g.cluster).contains core || s.keptFrom g.launch g.cluster || !s.roomForTeams [(t, core)] s.coreUsed then s
  else (s.restoreTeam t core).settle

/-- The teams of a gang that are away, in `$team` order. -/
def State.awayTeams (s : State) (gang : Nat) : List Team :=
  sortBy (fun a b => decide (a.index ≤ b.index)) (s.teams.filter fun t => t.gang == gang && !t.resident && !t.ended && t.dying.isNone)

/-- Restores a gang saved whole, its scratchpad at a new Gb (R363, R368). A page of its frames that is not resident makes
it wait. -/
def State.restoreGang (s : State) (g : Gang) (p : Placement) : State :=
  let ts := s.awayTeams g.id
  let k := clusterOf (p.cores.getD 0 0)
  let pairs := ts.zip p.cores
  let ok := ts.length == p.cores.length && ts.all s.restorable && p.cores.all ((s.teamCores g k).contains ·) &&
    pairs.all (fun p => s.timeMet p.1 p.2) && !s.keptFrom g.launch k && s.roomForTeams pairs s.coreUsed && s.scratchFree k p.gb g.scratch
  match ts with
  | [] => s
  | t :: _ =>
    if !ok then s else
    let waits (s : State) : Bool := pairs.any fun p => (s.readFrame p.1 p.2).2 == .wait
    match s.partRead (.va (s.ctxOf t) g.frame) (g.scratch + (g.scratch + 127) / 128) (s.frameWho t (p.cores.getD 0 0) true) with
    | (s, .ok bs) =>
      if waits s then
        pairs.foldl (fun (s : State) p => if (s.readFrame p.1 p.2).2 == .wait then s.restoreTeam p.1 p.2 else s) s
      else
        let s := s.updGang g.id fun g =>
          { g with savedWhole := false, cluster := k, base := p.gb, local_ := g.local_.fromFrame g.scratch bs g.keptLines }
        let s := (padSlices k p.gb g.scratch).foldl (fun (s : State) (unit, a, n) => s.sramWrite 2 unit (s.ctxOf t) a n) s
        (pairs.foldl (fun (s : State) (t, c) => s.restoreTeam t c) s).settle
    | (s, .nonres) => ts.foldl (fun (s : State) t => s.updTeam t.id fun t => { t with stuck := true }) s
    | (s, .fault) =>
      let (w, s) := s.freeWord
      (ts.foldl (fun s t => s.kill t.id 4 (w.setWidth 8) (BitVec.ofNat 56 (w.toNat / 256))) s).settle

/-- TEAM_RESTORE (R368): the subject names a team saved alone, or a gang saved whole, and the place chosen for it. -/
def execTeamRestore (s : State) : Answer :=
  match s.subject with
  | .place n p =>
    match s.gang? n with
    | some g => if g.savedWhole then .next (s.restoreGang g p) else .next s
    | none =>
      match s.team? n with
      | none => .next s
      | some t => match s.gang? t.gang with
        | none => .next s
        | some g => .next (s.restoreAlone t g (p.cores.getD 0 512))
  | _ => .next s

end Sys2Proof.Machine
end

