-- ==== Sys2Proof/Machine/System.lean ====
section
/-! DEFINITION. Class C (R371-R378): `rfe`, `csave`, `crest`, `tlbinv`, `replay`, `xinj`, `elog`, `halt`. -/
namespace Sys2Proof.Machine

/-- `rfe` (R355, R372): lanes outside a handler trap; otherwise the lanes return and the run ends. DEDUCED
(notes/assumptions/17). -/
def execRfe (h : Hdr) (x : Sys) (s : State) : Answer :=
  s.runWord (.rfe h x) h fun u s =>
    let bad := u.plive.filter fun i => !(s.lane u i).hnd
    if !bad.isEmpty then .trap s (trapAll bad (trapAt 0x01 u.pc))
    else .doneEnd (s.returnLanes u.team u.group u.pc u.plive) u.plive

-- suspending contexts

/-- Orders the save of every resident team of a context, gang by gang (R363, R373). A gang all of whose teams are saved
alone already is saved whole with its scratchpad. -/
def State.saveContext (s : State) (ctx : Nat) : State :=
  let away := s.gangs.filterMap fun g =>
    let ts := s.teams.filter fun t => t.gang == g.id && !t.ended
    match ts with
    | t :: _ => if s.ctxOf t == ctx && !g.savedWhole && ts.all (!·.resident) then some (t, g) else none
    | [] => none
  let s := away.foldl (fun (s : State) x => (s.savePad x.1 x.2).1) s
  (s.teams.filter fun t => s.ctxOf t == ctx && t.resident && !t.ended && t.saving < 2).foldl (fun s t => s.orderSave t 2) s

/-- `csave` (R373). -/
def execCsave (h : Hdr) (x : Sys) (s : State) : Answer :=
  s.onceWord (.csave h x) h fun u _ _ l s =>
    let a := l.pair x.a.toNat
    let c := l.reg x.b.toNat
    if 2 ^ 16 ≤ c.toNat then
      let (w, s) := s.freeWord
      u.all s 0x11 w
    else if a % 8 != 0 || decide (2 ^ 56 ≤ a.toNat) then u.all s 0x11 a
    else
      let ctx := c.toNat
      let was := s.suspendedCtx ctx
      let order : SaveOrder := { ctx := ctx, stamp := a, stampCtx := u.ctx, core := u.core, count := 0 }
      let priv := { s.priv with suspended := if was then s.priv.suspended else ctx :: s.priv.suspended,
                                saves := if a = 0 then s.priv.saves else s.priv.saves ++ [order] }
      let s := { s with priv := priv }
      .done (if was then s else s.saveContext ctx) []

/-- `crest` (R373). -/
def execCrest (h : Hdr) (x : Sys) (s : State) : Answer :=
  s.onceWord (.crest h x) h fun _ _ _ l s =>
    let c := (l.reg x.b.toNat).toNat % 2 ^ 16
    let left := s.priv.suspended.filter (· != c)
    .done { s with priv := { s.priv with suspended := left } } []

-- translations

/-- IA bits below those that select a table pointer read at a level (R383). -/
def walkShift (level : Nat) : Nat := match level with | 0 => 39 | 1 => 30 | _ => 21

/-- Whether an IA page overlaps a range. -/
def pageMeets (page : Nat) (big : Bool) (lo hi : Nat) : Bool :=
  let a := page * 65536
  decide (a < hi) && decide (lo < a + (if big then 2 ^ 21 else 65536))

/-- Drops what a stack caches of the translations of a range (R374, R389). -/
def Stack.tlbInv (x : Stack) (lo hi : Nat) : Stack :=
  { x.tlbDrop (fun t => pageMeets t.page t.big lo hi) with
           walks := x.walks.filter fun w =>
             let n := walkShift w.level
             !(decide (w.prefix_ * 2 ^ n < hi) && decide (lo < (w.prefix_ + 1) * 2 ^ n)),
           pages := x.pages.filter fun p => !pageMeets p.page p.big lo hi }

/-- `tlbinv` (R374): the next word waits until every translation that used the dropped entries is completed. -/
def execTlbinv (h : Hdr) (x : Sys) (s : State) : Answer :=
  s.onceWord (.tlbinv h x) h fun u _ _ l s =>
    let a := (l.pair x.a.toNat).toNat
    let count := (l.reg x.b.toNat).toNat
    let p := if x.sub.toNat = 0 then 2 ^ 16 else 2 ^ 21
    if a % p ≠ 0 ∨ 2 ^ 48 ≤ a then u.all s 0x11 (l.pair x.a.toNat)
    else if count = 0 ∨ 65536 < count ∨ 2 ^ 48 < a + count * p then
      let (w, s) := s.freeWord
      u.all s 0x11 w
    else
      let s := if (s.progress u).isSome then s
        else (List.range 8).foldl (fun s k => s.updStack k fun y => y.tlbInv a (a + count * p)) s
      if s.inUse a (a + count * p) then .hold (s.setProgress u 0) else .done s []

-- replay

/-- Runs an event for a subject. -/
def State.tryEvent (s : State) (x : Subject) (f : State → Answer) : State :=
  match f { s with subject := x } with
  | .next s' => s'
  | _ => s

/-- Issues a suspended operation again (R375, R391). Its group stays replayable until it has passed (R362). -/
def State.retryOp (s : State) (o : EngOp) : State :=
  let s := s.updOp o.num fun x => { x with wait := none, again := some x.phase }
  s.tryEvent (.unit o.num) (match o.kind with
    | .far .. => execFarAtomicPerform
    | .chain .. => execChainRecord
    | _ => execCopyProbePass)

/-- Tries the suspended stamps of a queue again (R391). -/
def State.retryStamps (s : State) (team n : Nat) : State :=
  let clear (x : Stamp) : Stamp := { x with wait := none }
  let s := s.updQueue team n fun q => { q with closed := q.closed.map fun b => { b with stamp := b.stamp.map clear } }
  s.tryEvent (.unit2 team n) execStampWrite

/-- Whether a queue has a suspended stamp. -/
def CopyQueue.stampWaits (q : CopyQueue) : Bool := q.closed.any fun b => match b.stamp with
  | some x => x.wait.isSome
  | none => false

/-- Tries one position of a stream queue again (R391). -/
def State.retryUnit (s : State) (core q i : Nat) : State :=
  match (s.stream? core q).bind fun x => x.items[i]? with
  | some (.flight r) =>
    if r.wait.isNone then s else
    let s := s.updStream core q fun y => { y with items := y.items.set i (.flight { r with wait := none }) }
    s.tryEvent (.unit3 core q i) execSergeUnitArrive
  | _ => s

/-- Tries the suspended units of a stream queue again, the last first (R391): a pop then moves none that is still to be
tried. -/
def State.retryStream (s : State) (x : StreamQueue) : State :=
  (List.range x.items.length).reverse.foldl (fun s i => s.retryUnit x.core x.q i) s

/-- The state of an entry that waits for a page of code, after `replay` (R391): ready once its page is resident. -/
def State.retryFetch (s : State) (team gi : Nat) (slot ctx core : Nat) (pc : VAddr) : State :=
  match s.xlate ctx pc.toNat permFetch with
  | (s, .nonres k page big, _) => s.pageFault k page big permFetch.kind ctx core false
  | (s, _, _) => s.updGroup team gi fun g => g.updEntry slot fun e => { e with wake := none }

/-- The entries that wait for pages of code: team, group, slot, context, core, PC. -/
def State.fetchWaits (s : State) : List (Nat × Nat × Nat × Nat × Nat × VAddr) :=
  s.teams.flatMap fun t => t.groups.zipIdx.flatMap fun (g, gi) => g.entries.filterMap fun e => match e.wake with
    | some (.fetch ..) => (slotsOf e.mask).head?.map fun i => (t.id, gi, i, s.ctxOf t, t.core, (g.lane i).pc)
    | _ => none

/-- Tries a launch queue's access again (R382). -/
def State.retryQueue (s : State) (q : Nat) : State :=
  match (s.lq q).wait with
  | .page none => s.updLq q fun x => { x with wait := .none }
  | .page (some w) => if s.consumes q then s.admitRecord q w else s
  | .clear => s.dropRecord q
  | _ => s

/-- `replay` (R375, R382, R391, R392): the pending tables are emptied, and everything suspended is tried again. -/
def State.replayAll (s : State) : State :=
  let s := (List.range 8).foldl (fun (s : State) k => s.updStack k fun x => { x with pages := [] }) s
  let s := (s.ops.filter fun o => o.wait.isSome).foldl (fun s o => s.retryOp o) s
  let stamps := s.teams.flatMap fun t => (t.queues.zipIdx.filter fun x => x.1.stampWaits).map fun x => (t.id, x.2)
  let s := stamps.foldl (fun s (t, n) => s.retryStamps t n) s
  let s := s.streams.foldl (fun s x => s.retryStream x) s
  let s := (s.serges.filter fun z => z.wait.isSome).foldl (fun (s : State) z =>
    (s.updSerge z.cluster z.unit fun y => { y with wait := none }).tryEvent (.unit2 z.cluster z.unit) execSergeWord) s
  let s := s.fetchWaits.foldl (fun (s : State) (t, g, i, ctx, core, pc) => s.retryFetch t g i ctx core pc) s
  let s := (List.range 16).foldl (fun s q => s.retryQueue q) s
  let s := (s.launches.filter fun l => l.end_ == .page).foldl (fun s l => s.countDone l) s
  let tried (w : OutsideWait) : OutsideWait := { w with page := false }
  let s := ({ s with fabric := { s.fabric with waits := s.fabric.waits.map tried } } : State).retryOutside
  let freed (j : FeltJob) : FeltJob := { j with waits := false }
  { s with felt := { s.felt with waiting := false, jobs := s.felt.jobs.map freed }, teams := s.teams.map fun t => { t with stuck := false } }

/-- `replay` (R375). DEDUCED (notes/assumptions/33). -/
def execReplay (h : Hdr) (x : Sys) (s : State) : Answer :=
  s.onceWord (.replay h x) h fun _ _ _ _ s =>
    let own := s.subject
    .done ({ s.replayAll with subject := own }.settle) []

-- error injection and logs

/-- Whether a selector is valid (R361). -/
def selectorOk (w : W32) : Bool :=
  let kind := w.toNat / 2 ^ 28
  let unit := w.toNat / 2 ^ 16 % 4096
  w.toNat % 2 ^ 16 == 0 && (if kind ≤ 4 then decide (unit < 512) else if kind = 5 ∨ kind = 7 then decide (unit < 8)
    else kind == 6 && decide (unit < 2048))

/-- The injection that a control word arms (R376): its flipped bits; none where a field is invalid. -/
def injectBits (c : W32) : Option (List Nat) :=
  let b0 := c.toNat % 256
  let b1 := c.toNat / 256 % 256
  let data := c.getLsbD 30
  let two := c.getLsbD 29
  let top := if data then 64 else 8
  let n (b : Nat) : Nat := if data then b else 1000 + b
  if c.toNat / 2 ^ 16 % 2 ^ 13 ≠ 0 ∨ top ≤ b0 ∨ top ≤ b1 then none
  else if two then (if b0 = b1 then none else some [n b0, n b1])
  else if b1 = 0 then some [n b0] else none

/-- `xinj` (R376). -/
def execXinj (h : Hdr) (x : Sys) (s : State) : Answer :=
  s.onceWord (.xinj h x) h fun u _ _ l s =>
    let sel := l.reg x.a.toNat
    let c := l.reg x.b.toNat
    let kind := sel.toNat / 2 ^ 28
    let unit := sel.toNat / 2 ^ 16 % 4096
    match selectorOk sel, injectBits c with
    | true, some bits =>
      let rest := s.mem.injects.filter fun j => !(j.kind == kind && j.unit == unit)
      let new := if c.getLsbD 31 then [{ kind := kind, unit := unit, bits := bits }] else []
      .done { s with mem := { s.mem with injects := new ++ rest } } []
    | _, _ => u.all s 0x01 0

/-- `elog` (R377). -/
def execElog (h : Hdr) (x : Sys) (s : State) : Answer :=
  s.onceWord (.elog h x) h fun u _ _ l s =>
    let sel := l.reg x.a.toNat
    if !selectorOk sel then u.all s 0x01 0
    else
      let v := s.errLog sel.toNat
      let (num, s) := s.fresh
      let d := x.d.toNat
      let r := resultOf num u.pc { writes := [(d, lo32 v), (d + 1, hi32 v)], flags := 0 }
      .done (s.mapLanes u u.act fun _ l => l.addResult r) []

/-- `elog.clr` (R377): V and OVR are cleared by writing 1 (R361, R346). -/
def execElogClr (h : Hdr) (x : Sys) (s : State) : Answer :=
  s.onceWord (.elogClr h x) h fun u _ _ l s =>
    let sel := l.reg x.a.toNat
    if !selectorOk sel then u.all s 0x01 0
    else
      let m := l.pair x.b.toNat &&& 0xC000000000000000
      .done (s.setErrLog sel.toNat (s.errLog sel.toNat &&& ~~~m)) []

-- halt

/-- Whether an operation can still go on: it waits for no page, for no earlier operation, for no line of local memory and
for no other team. -/
def State.opGoesOn (s : State) (o : EngOp) : Bool :=
  s.mayStart o && s.inOrder o && (match o.phase with
    | .slice .. => false
    | .issued => (match o.kind with
      | .gatherIn _ _ list n _ | .scatterOut _ _ list n _ =>
        (linesOf list (4 * n)).all (s.sourceReady o)
      | _ => true)
    | .probed .. => (match o.kind.srcRange with
      | some (a, n) => (linesOf a n).any (s.sourceReady o)
      | none => true)
    | _ => true)

/-- Whether a Serge program can still go on: its queue takes its units and no page stops it. -/
def State.sergeGoesOn (s : State) (z : Serge) : Bool :=
  z.wait.isNone && !z.stopped && (match s.stream? z.core z.q with
    | some x => z.units == 0 || decide (x.used < 64)
    | none => true)

-- Felt's records

def FeltJob.op (j : FeltJob) : Nat := fieldN j.w0.toNat 63 56
def FeltJob.big (j : FeltJob) : Bool := bit j.w0 48
/-- IA of the page. -/
def FeltJob.ia (j : FeltJob) : Nat := fieldN j.w0.toNat 47 16 * 2 ^ 16
def FeltJob.compress (j : FeltJob) : Bool := bit j.w0 0
/-- 4 KiB blocks of the page (R397). -/
def FeltJob.blocks (j : FeltJob) : Nat := if j.big then 512 else 16

/-- Whether a record is malformed (RESULT 1, R396). -/
def FeltJob.malformed (j : FeltJob) : Bool :=
  j.op == 0 || decide (4 < j.op) || fieldN j.w0.toNat 55 49 != 0 || fieldN j.w0.toNat 15 1 != 0 ||
    fieldN j.w3.toNat 62 8 != 0 || j.w1.toNat % 4096 != 0 || j.w2.toNat % 8 != 0 ||
    (if j.op ≤ 2 then j.big && j.ia % 2 ^ 21 != 0 else j.ia != 0)

/-- Whether a record acts on all of device memory, or names a page. -/
def FeltJob.whole (j : FeltJob) : Bool := !j.malformed && (j.op == 3 || j.op == 4)
def FeltJob.names (j : FeltJob) : Bool := j.op == 1 || j.op == 2

/-- Whether two records may not run together (R396). -/
def FeltJob.clashes (a b : FeltJob) : Bool :=
  a.whole || b.whole || (a.names && b.names &&
    decide (a.ia < b.ia + b.blocks * 4096) && decide (b.ia < a.ia + a.blocks * 4096))

/-- Whether an OUT still waits for the operations that have their pieces in its page (R254). -/
def State.outWaits (s : State) (j : FeltJob) : Bool :=
  let size := 4096 * j.blocks
  j.op == 2 && j.result.isNone && s.inUse (j.ia / size * size) (j.ia / size * size + size)

/-- Whether a record may start: no earlier one that is not finished clashes with it. -/
def State.feltMayRun (s : State) (j : FeltJob) : Bool :=
  !s.outWaits j && (s.felt.jobs.takeWhile fun x => x.index != j.index).all fun x => !x.clashes j

/-- Engines and units have completed what they accepted and can complete (R378). -/
def State.enginesIdle (s : State) : Bool :=
  !s.ops.any s.opGoesOn && !s.serges.any s.sergeGoesOn && s.rays.isEmpty && s.tcmds.isEmpty && s.gauze.isEmpty &&
    s.calico.isEmpty && s.felt.jobs.all fun j => j.waits || !s.feltMayRun j

/-- STATUS of a start at its first step (R432, R438). -/
def Power.starting (p : Power) : Power := { p with state := 1, step := 1, warm := false, input := none, fwver := 0, bver := 0 }

/-- What engines and units have left is given up: a stopped part makes no more traffic (R378, R425). -/
def State.abandon (s : State) : State :=
  { s with ops := [], serges := [], rays := [], tcmds := [], gauze := [], calico := [], felt := { s.felt with jobs := [] },
           fabric := { s.fabric with waits := [] } }

/-- A stop is over (R378, R433-R435, R438): held writes are performed, dirty lines written back and the outputs disabled; the
part is in status-only mode, or begins the start it stopped for, with the failure code of the stop. -/
def State.endStop (s : State) (code : Byte) : State :=
  let s := s.quiesce.abandon
  let off (x : Output) : Output := { x with en := false, scan := .off, next := .off, chosen := false }
  let p := { s.power with fail := code }
  let p := if s.power.thenStart then p.starting else { p with state := 3, step := 0 }
  { s with power := { p with halting := none, thenStart := false }, outputs := s.outputs.map off }

/-- A part that stops does so once its engines are idle. -/
def State.tryStop (s : State) : State := match s.power.halting with
  | some code => if s.enginesIdle then s.endStop code else s
  | none => s

/-- The part stops with a failure code (R378): cores and launch unit at once, the engines as they complete; the outputs go on
till then (R370). A start that it stopped for is given up. -/
def State.stopPart (s : State) (code : Byte) : State :=
  { s with power := { s.power with halting := some code, thenStart := false } }.tryStop

/-- The part enters status-only mode at once (R425, R435): it sends nothing more, and what the part itself has still to write
is given up. -/
def State.enterStatus (s : State) (code : Byte) : State :=
  let t := { s with power := { s.power with thenStart := false } }.endStop code
  { t with coll := { t.coll with fills := [], queue := [] }, priv := { t.priv with elogs := [] },
           lqs := t.lqs.map fun q => { q with offers := [] }, fabric := { t.fabric with sent := s.fabric.sent } }

/-- The part stops as `halt` does for a start that STARTCTL names (R435): FAILCODE stays as it is, or takes the code of a stop
that goes on already. -/
def State.stopForStart (s : State) (warm : Bool) : State :=
  let code := s.power.halting.getD s.power.fail
  let s := { s with power := { s.power with attempts := 0, wantWarm := warm, thenStart := true, halting := some code } }
  if s.power.state = 2 then s.tryStop else s.endStop code

/-- `halt` (R68, R378): a run end. -/
def execHalt (h : Hdr) (x : Sys) (s : State) : Answer :=
  s.runWord (.halt h x) h fun u s => match u.plive with
    | [] => .doneEnd s []
    | j :: _ => .doneEnd (s.stopPart (((s.lane u j).reg x.a.toNat).setWidth 8)) []

end Sys2Proof.Machine
end

