-- ==== Sys2Proof/Machine/Residency.lean ====
section
/-! DEFINITION. The fault collector (R392-R394) and Felt: its ring (R396), page images (R397), IN and OUT (R398), CKPT and
RESTORE (R399). -/
namespace Sys2Proof.Machine

-- the fault collector

/-- The bytes of a fault-buffer slot (R393). -/
def FaultSlot.bytes (x : FaultSlot) : List Byte :=
  bytesOf 8 (2 ^ 63 + x.stackMask.toNat * 2 ^ 48 + x.page % 2 ^ 32 * 2 ^ 16 + (if x.big then 16 else 0) + x.kind.toNat * 2) ++
    bytesOf 8 (x.ctx % 2 ^ 16 * 2 ^ 48 + (if x.part then 2 ^ 38 else x.core % 512 * 2 ^ 39) + x.count.toNat) ++
    bytesOf 8 x.time.toNat ++ bytesOf 8 x.seq.toNat

/-- Writes a slot to the fault buffer and begins the release (R393): none when it cannot be written. -/
def State.putSlot (s : State) (i : Nat) (x : FaultSlot) : State × Option PartWait :=
  match s.partWrite (.va s.priv.sysctx.toNat (s.coll.addr.toNat + 32 * i)) x.bytes s.collWho with
  | (s, .ok ls) => let (s, w) := s.beginRelease ls; (s, some w)
  | (s, _) => (s, none)

/-- A fault is dropped (R392-R394). -/
def State.dropFault (s : State) (m : FaultMsg) : State :=
  let p : PendingPage := { page := m.page, big := m.big }
  let s := s.updStack m.stack fun x => { x with pages := x.pages.filter (· != p) }
  { s with coll := { s.coll with drop := true } }

/-- A fault merged into a slot (R393). -/
def FaultSlot.merge (x : FaultSlot) (m : FaultMsg) : FaultSlot :=
  { x with stackMask := x.stackMask ||| BitVec.twoPow 8 m.stack, kind := x.kind ||| m.kind,
           count := if x.count = 0xFFFFFFFF then x.count else x.count + 1 }

/-- The slot that a fault fills (R393): its TIME is the tick of the fill (R401). -/
def FaultMsg.slot (m : FaultMsg) (seq : W32) (now : W64) : FaultSlot :=
  { page := m.page, big := m.big, stackMask := BitVec.twoPow 8 m.stack, kind := m.kind, ctx := m.ctx, core := m.core,
    part := m.part, count := 1, time := now, seq := seq }

/-- Handles one forwarded fault (R393, R382). DEDUCED (notes/assumptions/34). -/
def State.collect (s : State) (m : FaultMsg) : State :=
  let slots := s.coll.slots
  match slots.findIdx? fun x => match x with | some y => y.page == m.page | none => false with
  | some i =>
    match slots.getD i none with
    | none => s
    | some x =>
      let y := x.merge m
      match s.putSlot i y with
      | (s, some _) => { s with coll := { s.coll with slots := slots.set i (some y) } }
      | (s, none) => s.dropFault m
  | none =>
    match (if m.drop then none else slots.findIdx? (·.isNone)) with
    | none => s.dropFault m
    | some i =>
      -- the doorbell is translated first: a fault whose doorbell cannot be rung is dropped whole
      match s.partXlate (.va s.priv.sysctx.toNat s.coll.door.toNat) permAtomic s.collWho with
      | (s, .ok _) =>
        let y := m.slot (s.coll.seq + 1) s.time.now
        match s.putSlot i y with
        | (s, some w) =>
          { s with coll := { s.coll with slots := s.coll.slots.set i (some y), seq := s.coll.seq + 1,
                                         fills := s.coll.fills ++ [(i, w)] } }
        | (s, none) => s.dropFault m
      | (s, _) => s.dropFault m

/-- Drops the fault of a slot whose doorbell cannot be rung (R382): its slot is free again, and its pages leave the pending
tables of its stacks (R393). -/
def State.dropSlot (s : State) (i : Nat) : State :=
  match s.coll.slots.getD i none with
  | none => s
  | some x =>
    let p : PendingPage := { page := x.page, big := x.big }
    let s := ((List.range 8).filter fun k => x.stackMask.getLsbD k).foldl (fun (s : State) k =>
      s.updStack k fun y => { y with pages := y.pages.filter (· != p) }) s
    let s := s.freeSlot i
    { s with coll := { s.coll with drop := true } }

/-- The slots whose release is over show in OCC, and each rings the doorbell (R393, R400). One that cannot ring it is dropped
(R382). -/
def State.fillsOver (s : State) : State :=
  let ready := s.coll.fills.filter fun x => s.releaseOver x.2
  if ready.isEmpty then s
  else
    let s := { s with coll := { s.coll with fills := s.coll.fills.filter fun x => !ready.contains x } }
    ready.foldl (fun (s : State) x =>
      match (s.partRelease x.2.lines).partIncrement (.va s.priv.sysctx.toNat s.coll.door.toNat) s.collWho with
      | (s, .ok _) => s
      | (s, _) => s.dropSlot x.1) s

/-- FAULT_COLLECTOR_FORWARD (R393): the collector takes the oldest forwarded fault. -/
def execFaultCollectorForward (s : State) : Answer :=
  let s := s.fillsOver
  match s.coll.queue with
  | [] => .next s
  | m :: rest => .next ({ s with coll := { s.coll with queue := rest } }.collect m)

-- Felt's ring

/-- Who makes Felt's accesses (R382 sources 7 and 8). -/
def State.feltWho (s : State) (src : Nat) : PartWho := { src := src, ctx := s.priv.sysctx.toNat, core := 0, part := true, raises := true }

/-- Address of a ring record. -/
def State.feltSlot (s : State) (i : W32) : Nat := s.felt.base.toNat + 32 * (i.toNat % 256)

/-- The record at the end of its work, which writes RESULT, makes a release, and then writes the stamp and OWN (R396). A record
that cannot be written stops Felt, or makes it wait for its page (R382). -/
def State.feltFinish (s : State) (j : FeltJob) (result : Byte) : State :=
  let at_ := s.feltSlot j.index + 0x18
  let gone (s : State) : State :=
    { s with felt := { s.felt with jobs := s.felt.jobs.filter fun x => x.index != j.index } }
  let keep (s : State) (rel : Option PartWait) : State :=
    let f (x : FeltJob) : FeltJob := if x.index = j.index then { x with result := some result, rel := rel } else x
    { s with felt := { s.felt with jobs := s.felt.jobs.map f } }
  let hold (s : State) : State :=
    let f (x : FeltJob) : FeltJob := if x.index = j.index then { x with waits := true } else x
    { s with felt := { s.felt with waiting := true, jobs := s.felt.jobs.map f } }
  let stop (s : State) : State := gone { s with felt := { s.felt with stopped := true } }
  let wait (s : State) (rel : Option PartWait) : State := hold (keep s rel)
  let put (s : State) (w : Nat) : State × PartRes (List (Nat × Nat)) :=
    s.partWrite (.va s.priv.sysctx.toNat at_) (bytesOf 8 w) (s.feltWho 7)
  match j.rel with
  | none => match put s (2 ^ 63 + result.toNat) with
    | (s, .ok ls) => let (s, w) := s.beginRelease ls; keep s (some w)
    | (s, .fault) => stop s
    | (s, .nonres) => wait s none
  | some w =>
    if !s.releaseOver w then s
    else
      let s := s.partRelease w.lines
      let s := if j.w2 = 0 then s else
        let value := j.index.toNat % 2 ^ 24 * 2 ^ 40 + s.time.now.toNat % 2 ^ 40
        (s.partWrite (.ia j.w2.toNat) (bytesOf 8 value) (s.feltWho 8)).1
      match put s result.toNat with
      | (s, .ok _) => gone s
      | (s, .fault) => stop s
      | (s, .nonres) => wait s (some w)

/-- Takes the record at the head (R396); none while Felt may not. A malformed one ends at once; one that does not belong
to Felt stops it. DEDUCED (notes/assumptions/35). -/
def State.feltTake (s : State) : Option State :=
  if s.felt.head = s.felt.tail || s.felt.stopped || s.felt.waiting || 16 ≤ s.felt.jobs.length || !s.running then none
  else
    let i := s.felt.head
    match s.partRead (.va s.priv.sysctx.toNat (s.feltSlot i)) 32 (s.feltWho 7) with
    | (s, .ok bs) =>
      let w (n : Nat) : W64 := BitVec.ofNat 64 (byteWord bs n)
      let j : FeltJob := { index := i, w0 := w 0, w1 := w 1, w2 := w 2, w3 := w 3, result := none, waits := false, rel := none }
      if !bit j.w3 63 then some { s with felt := { s.felt with stopped := true } }
      else
        let s := { s with felt := { s.felt with head := i + 1, jobs := s.felt.jobs ++ [j] } }
        some (if j.malformed then s.feltFinish j 1 else s)
    | (s, .fault) => some { s with felt := { s.felt with stopped := true } }
    | (s, .nonres) => some { s with felt := { s.felt with waiting := true } }

/-- Takes records while Felt may. -/
def State.feltTakeAll (s : State) : Nat → State
  | 0 => s
  | f + 1 => match s.feltTake with
    | none => s
    | some s => s.feltTakeAll f

/-- The event that carries a record on: a reserved OP goes with IN. -/
def FeltJob.event (j : FeltJob) : Nat := if j.op == 0 || decide (4 < j.op) then 1 else j.op

-- leaves

/-- The stacks that hold a page (R387, R398): all eight in the interleaved window, else the one selected. -/
def pageStacks (ia : Nat) : List Nat :=
  if ia / 2 ^ 47 % 2 = 0 then List.range 8 else (stackOf ia).toList

/-- The leaves of a page: stack, address and value; none where one is missing, or the page selects no stack. -/
def State.pageLeaves (s : State) (j : FeltJob) : Option (List (Nat × Nat × W64)) :=
  if (pageStacks j.ia).isEmpty then none
  else (pageStacks j.ia).mapM fun k => (s.leafOf k j.ia j.big 4 0 ((s.stack k).root.toNat % 2 ^ 36)).map fun x => (k, x.1, x.2)

/-- Whether a leaf is of device memory with P and MIG as told, its frame within the stack. -/
def leafIs (big : Bool) (p mig : Bool) (e : W64) : Bool :=
  fieldN e.toNat 61 60 == 0 && bit e 50 == p && bit e 49 == mig && (!big || fieldN e.toNat 20 16 == 0) &&
    decide (fieldN e.toNat 47 16 * 2 ^ 16 + (if big then 2 ^ 21 else 2 ^ 16) ≤ 2 ^ 36)

/-- Where the 4 KiB blocks of a page lie: stack and stack-physical address of each (R385, R387). -/
def pageBlocks (j : FeltJob) (leaves : List (Nat × Nat × W64)) : List (Nat × Nat) :=
  (List.range j.blocks).filterMap fun b =>
    let ia := j.ia + 4096 * b
    (stackOf ia).bind fun k => (leaves.find? fun x => x.1 == k).map fun x =>
      (k, fieldN x.2.2.toNat 47 16 * 2 ^ 16 + (if j.big then ia % 2 ^ 21 else ia % 2 ^ 16))

/-- Writes a leaf's P and MIG. -/
def State.setLeaf (s : State) (p mig : Bool) (x : Nat × Nat × W64) : State :=
  let e := x.2.2.toNat - (if bit x.2.2 50 then 2 ^ 50 else 0) - (if bit x.2.2 49 then 2 ^ 49 else 0) +
    (if p then 2 ^ 50 else 0) + (if mig then 2 ^ 49 else 0)
  s.devWrite x.1 x.2.1 (bytesOf 8 e) partWriter (2 ^ 47 + x.1 * 2 ^ 44 + x.2.1) 0xFFFF

/-- IA alias of a stack-physical address. -/
def aliasIA (k spa : Nat) : Nat := 2 ^ 47 + k * 2 ^ 44 + spa

-- images

/-- Bytes of host memory. -/
def State.hostRead (s : State) (a n : Nat) : List Byte := (List.range n).map fun i => hostGet s.mem (a + i)

/-- Length of an image's header (R397). -/
def imageHeader (blocks : Nat) : Nat := roundUp (16 + 2 * blocks) 64

/-- A compressed block as Felt reads it: 4 KiB whatever it was given (R397). -/
def unpackedBlock (stored : List Byte) : List Byte := (Config.feltUnpack stored ++ List.replicate 4096 0).take 4096

/-- The stored blocks of an image from an address on, each 16-byte aligned (R397). -/
def State.imageBlocks (s : State) : List Nat → Nat → List (List Byte)
  | [], _ => []
  | n :: rest, a =>
    let stored := s.hostRead a n
    let block := if n = 0 then List.replicate 4096 0
      else if n = 4096 then stored
      else unpackedBlock stored
    block :: s.imageBlocks rest (a + roundUp n 16)

/-- Reads and checks an image (R397, R398): its blocks, or the RESULT where a check fails. A host that does not answer gives
no data that could be right. DESIGN CHOICE (notes/assumptions/63). -/
def State.readImage (s : State) (j : FeltJob) : Except Byte (List (List Byte)) :=
  let tier := j.w1.toNat
  if !s.hostAnswers tier (imageHeader j.blocks) then .error 4 else
  let h := s.hostRead tier (imageHeader j.blocks)
  let n32 (o : Nat) : Nat := ofBytes ((h.drop o).take 4)
  let lens := (List.range j.blocks).map fun b => ofBytes ((h.drop (16 + 2 * b)).take 2)
  let size := lens.foldl (fun n x => n + roundUp x 16) 0
  if n32 0 ≠ 0x46544C31 ∨ n32 8 ≠ j.blocks ∨ n32 12 ≠ 0 ∨ lens.any (4096 < ·) then .error 3
  else if !s.hostAnswers (tier + imageHeader j.blocks) size then .error 4
  else
    let blocks := s.imageBlocks lens (tier + imageHeader j.blocks)
    if (crc32c blocks.flatten).toNat = n32 4 then .ok blocks else .error 3

/-- A block as an image stores it (R397): its length and bytes. `bad` says that it holds a poisoned line. Felt keeps a
compressed form only where it is shorter and reads back as the block. DEDUCED (notes/assumptions/60): the coding is free,
but an image that Felt made holds the page. -/
def storedBlock (compress bad : Bool) (block : List Byte) : Nat × List Byte :=
  let packed := Config.feltPack block
  if block.all (· == 0) then (0, [])
  else if compress && !bad && packed.length != 0 && decide (packed.length < 4096) && unpackedBlock packed == block then
    (packed.length, packed)
  else (4096, block)

/-- An image (R397). -/
def imageOf (compress : Bool) (blocks : List (List Byte × Bool)) : List Byte :=
  let stored := blocks.map fun b => storedBlock compress b.2 b.1
  let head := bytesOf 4 0x46544C31 ++ bytesOf 4 (crc32c (blocks.flatMap (·.1))).toNat ++ bytesOf 4 blocks.length ++
    bytesOf 4 0 ++ stored.flatMap fun x => bytesOf 2 x.1
  let pad (n : Nat) (bs : List Byte) : List Byte := bs ++ List.replicate (n - bs.length) 0
  pad (imageHeader blocks.length) head ++ stored.flatMap fun x => pad (roundUp x.1 16) x.2

-- IN and OUT

/-- A frame that an IN writes is no longer a code frame, and its grains start afresh (R390, R398). -/
def Stack.freshBlock (x : Stack) (spa : Nat) : Stack :=
  let f := spa / 2 ^ 16
  let g := spa / 512
  { x with codeFrames := x.codeFrames.filter (· != f), pubs := x.pubs.filter fun p => p.1 * 128 / 2 ^ 16 != f,
           grains := (List.range 8).foldl (fun m i => setN m (g + i) { writer := 0xFFF, time := 0, lmax := 0 }) x.grains }

/-- The work of IN (R398): its RESULT. -/
def State.feltRunIn (s : State) (j : FeltJob) : State × Byte :=
  match s.pageLeaves j with
  | none => (s, 2)
  | some ls =>
    if !ls.all (fun x => leafIs j.big false true x.2.2) then (s, 2)
    else match s.readImage j with
      | .error r => (s, r)
      | .ok blocks =>
        let places := pageBlocks j ls
        let s := (places.zip blocks).foldl (fun (s : State) (p, bs) =>
          (s.devWrite p.1 p.2 bs partWriter (aliasIA p.1 p.2) 0xFFFF).updStack p.1 fun x => x.freshBlock p.2) s
        let s := s.partRelease (places.flatMap fun p => (linesOf p.2 4096).map fun l => (p.1, l))
        (ls.foldl (fun s x => s.setLeaf true false x) s, 0)

/-- Reads a 4 KiB block of a page for an image, writing its dirty lines back (R398): its bytes, and whether a line of it
was bad. -/
def State.feltBlock (s : State) (p : Nat × Nat) : State × List Byte × Bool :=
  let s := s.writeBackLines ((linesOf p.2 4096).map fun l => (p.1, l))
  let (s, r) := s.devRead p.1 p.2 4096 0xFFFF (aliasIA p.1 p.2) true
  (s, r.data, r.bad)

/-- Reads the blocks of a page. -/
def State.feltBlocks (s : State) : List (Nat × Nat) → State × List (List Byte × Bool)
  | [] => (s, [])
  | p :: rest =>
    let (s, bs, bad) := s.feltBlock p
    let (s, r) := s.feltBlocks rest
    (s, (bs, bad) :: r)

/-- The work of OUT (R398): its RESULT. An image that the host does not take leaves the page resident. DESIGN CHOICE
(notes/assumptions/63). -/
def State.feltRunOut (s : State) (j : FeltJob) : State × Byte :=
  match s.pageLeaves j with
  | none => (s, 2)
  | some ls =>
    if !ls.all (fun x => leafIs j.big true true x.2.2) then (s, 2)
    else
      let (s, blocks) := s.feltBlocks (pageBlocks j ls)
      let image := imageOf j.compress blocks
      if !s.hostAnswers j.w1.toNat image.length then (s, 4) else
      let s := s.hostPut j.w1.toNat image
      let s := ls.foldl (fun s x => s.setLeaf false false x) s
      let page := pageOf j.ia j.big
      let s := ls.foldl (fun (s : State) x =>
        s.updStack x.1 fun y => y.tlbDrop fun t => t.page == page && t.big == j.big) s
      (s, if blocks.any (·.2) then 4 else 0)

-- CKPT and RESTORE

/-- Lines of a stack that something may be wrong with. -/
def State.suspectLines (s : State) (k : Nat) : List Nat :=
  let x := s.stack k
  let flips := s.mem.flips.filterMap fun f =>
    if f.kind == 6 && f.unit / 256 == k then some (f.addr / 128)
    else if f.kind == 7 && f.unit == k then some (f.addr / 8) else none
  let cached := x.cache.filterMap fun c =>
    if s.mem.flips.any fun f => f.kind == 5 && f.unit == k && f.addr / 128 == cacheAddr (c.line * 128) / 128 then some c.line else none
  let away := x.sharers.filterMap fun h => if h.modified then some h.line else none
  (x.poison ++ x.checks.map (·.1) ++ x.bankWritten ++ flips ++ cached ++ away).eraseDups

/-- The work of CKPT (R399): the image is device memory as its homes hold it, bad lines as poison. DESIGN CHOICE
(notes/assumptions/63). -/
def State.feltRunCkpt (s : State) (j : FeltJob) : State × Byte :=
  if !s.hostAnswers j.w1.toNat (2 ^ 39) then (s, 4) else
  let suspects := (List.range 8).flatMap fun k => (s.suspectLines k).map fun l => (k, l)
  let (s, snap, bad) := suspects.foldl (fun (r : State × Mem × Bool) (k, l) =>
    let (s, d) := r.1.devRead k (l * 128) 128 0xFFFF (aliasIA k (l * 128)) true
    (s, r.2.1.write (devKey k (l * 128)) d.data, r.2.2 || d.bad)) (s, s.mem.home, false)
  let tier := j.w1.toNat
  let host := s.mem.host.filter fun c => !(decide (tier ≤ c.1) && decide (c.1 < tier + 2 ^ 39))
  let s := { s with mem := { s.mem with host := host, ckpts := (tier, snap) :: s.mem.ckpts } }
  let first := frameBase 1 0 * 512 + tier / 128
  -- lines of code frames under the image become PENDING (R281)
  (s.updStack 0 fun x =>
    ((x.codeFrames.flatMap fun f => (List.range 512).map (512 * f + ·)).filter fun l =>
      decide (first ≤ l) && decide (l < first + 2 ^ 32)).foldl Stack.unpublish x, if bad then 4 else 0)

/-- Device memory as a safe tier holds it (R399): the checkpoint that starts there with what has been written over it, or
else byte by byte. -/
def tierMem (m : Memory) (tier : Nat) : Mem :=
  match m.ckpts.find? fun c => decide (c.1 < tier + 2 ^ 39) && decide (tier < c.1 + 2 ^ 39) with
  | some (t, snap) =>
    if t = tier then
      (m.host.filter fun c => decide (tier ≤ c.1) && decide (c.1 < tier + 2 ^ 39)).foldl (fun x c => x.set (c.1 - tier) c.2) snap
    else ((List.range (2 ^ 39)).map fun a => (a, hostGet m (tier + a))).filter fun c => c.2 != 0
  | none => ((List.range (2 ^ 39)).map fun a => (a, hostGet m (tier + a))).filter fun c => c.2 != 0

/-- A stack all of whose memory has been written by the part (R399): grains, code lines, monitors. -/
def Stack.overwritten (x : Stack) (now : W64) : Stack :=
  { x with grains := x.grains.map fun g => (g.1, { g.2 with writer := 0xB00, time := now }),
           grainBase := { writer := 0xB00, time := now, lmax := 0 }, cache := [], poison := [], checks := [], bankWritten := [],
           log := [], logOver := false, sharers := [], unitLines := [],
           pubs := ((x.codeFrames.filter fun f => decide (f < 2 ^ 32)).flatMap fun f =>
             (List.range 512).map fun i => (f * 512 + i, PubState.pending)) ++ x.pubs.filter fun p => decide (2 ^ 41 ≤ p.1) }

/-- Fires every monitor of a stack. -/
def State.fireAll (s : State) (k : Nat) : State :=
  ((s.stack k).watches.map (·.line)).eraseDups.foldl (fun s l => s.fireMain k l) s

/-- The work of RESTORE (R399). DESIGN CHOICE (notes/assumptions/63). -/
def State.feltRunRestore (s : State) (j : FeltJob) : State × Byte :=
  if !s.hostAnswers j.w1.toNat (2 ^ 39) then (s, 4) else
  let m := tierMem s.mem j.w1.toNat
  let now := s.time.now
  let flips := s.mem.flips.filter fun f => f.kind < 5
  let s := { s with mem := { s.mem with home := m, dram := m, flips := flips } }
  ((List.range 8).foldl (fun (s : State) k => (s.fireAll k).updStack k fun x => x.overwritten now) s, 0)

-- events

/-- A Felt event: Felt takes what records it may, then the record with the subject's ring index, if it is of this kind and
may run, is done, or its result is written. -/
def State.feltEvent (s : State) (op : Nat) (run : State → FeltJob → State × Byte) : Answer :=
  match s.subject with
  | .unit i =>
    let s := s.feltTakeAll 16
    match s.felt.jobs.find? fun j => j.index == BitVec.ofNat 32 i && j.event == op with
    | none => .next s
    | some j =>
      if j.waits || !s.feltMayRun j then .next s
      else match j.result with
        | some r => .next (s.feltFinish j r)
        | none =>
          let (s, r) := run s j
          .next (s.feltFinish j r)
  | _ => .next s

/-- FELT_IN (R398): the subject names the ring index. -/
def execFeltIn (s : State) : Answer := s.feltEvent 1 State.feltRunIn

/-- FELT_OUT (R398). -/
def execFeltOut (s : State) : Answer := s.feltEvent 2 State.feltRunOut

/-- FELT_CKPT (R399). -/
def execFeltCkpt (s : State) : Answer := s.feltEvent 3 State.feltRunCkpt

/-- FELT_RESTORE (R399). -/
def execFeltRestore (s : State) : Answer := s.feltEvent 4 State.feltRunRestore

end Sys2Proof.Machine
end

