-- ==== Sys2Proof/Machine/Display.lean ====
section
/-! DEFINITION. Display outputs (R370, R419-R422): their registers, the enable, the present word, and the frames they scan
out. -/
namespace Sys2Proof.Machine

/-- Changes one output. -/
def State.updOutput (s : State) (o : Nat) (f : Output → Output) : State := { s with outputs := modifyAt s.outputs o f }

def State.output (s : State) (o : Nat) : Output := s.outputs.getD o Output.reset

-- geometry

/-- Active pixels and lines (R421). -/
def Output.cols (x : Output) : Nat := fieldN x.size.toNat 15 0 + 1
def Output.rows (x : Output) : Nat := fieldN x.size.toNat 31 16 + 1

/-- Pixels of a line and lines of a frame (R419): active, front porch, sync and back porch. -/
def timingTotal (active : Nat) (w : W64) : Nat :=
  active + fieldN w.toNat 63 48 + (fieldN w.toNat 47 32 + 1) + fieldN w.toNat 31 16

def Output.lineTotal (x : Output) : Nat := timingTotal x.cols x.horiz
def Output.frameTotal (x : Output) : Nat := timingTotal x.rows x.vert

/-- Whether the nominal rate is beyond 75 Gbit/s (R419). -/
def Output.tooFast (x : Output) : Bool :=
  decide (75 * x.period.toNat < x.lineTotal * x.frameTotal * (if x.fmt then 30 else 24))

/-- The first frame start after a time (R419, R421). -/
def Output.firstStart (x : Output) (now : W64) : W64 :=
  let p := x.period.toNat
  if now.toNat < x.start.toNat then x.start
  else BitVec.ofNat 64 (x.start.toNat + ((now.toNat - x.start.toNat) / p + 1) * p)

-- registers

/-- A write of the word at offset 0x00: it takes effect only while EN is 0, and an enable beyond the rate of R419 is
ignored. -/
def State.writeOutEn (s : State) (o : Nat) (v : W32) : State :=
  s.updOutput o fun x =>
    if x.en then x else
    let y := { x with en := v.getLsbD 0, fmt := v.getLsbD 1 }
    if !y.en then y
    else if y.tooFast then x
    else { y with deadline := y.firstStart s.time.now, chosen := false, next := .off, scan := .off }

/-- Commits the nine pose elements (R421). -/
def Output.commit (x : Output) : Output := { x with committed := x.pose }

/-- A write of 4 bytes at an offset of the block (R421). DEDUCED (notes/assumptions/49). -/
def State.writeOutput (s : State) (o off : Nat) (v : W32) : State :=
  if off = 0 then s.writeOutEn o v
  else s.updOutput o fun x =>
    let hi := off % 8 == 4
    if off = 0x50 then { x with margin := v }
    else if 0x58 ≤ off ∧ off < 0x7C then { x with pose := x.pose.set ((off - 0x58) / 4) v }
    else if off = 0x7C then x.commit
    else if x.en then x
    else match off / 8 with
      | 1 => { x with size := putHalf x.size hi v &&& 0xFFFF0000FFFFFFFF }
      | 2 => { x with start := putHalf x.start hi v }
      | 3 => if hi then x else { x with period := v }
      | 8 => { x with present := putHalf x.present hi v &&& 0xFFFFFFFFFFF8 }
      | 16 => { x with evbase := putHalf x.evbase hi v &&& 0xFFFFFFFFFFFFF000 }
      | 18 => { x with horiz := putHalf x.horiz hi v &&& 0xFFFFFFFFFFFF0003 }
      | 19 => { x with vert := putHalf x.vert hi v &&& 0xFFFFFFFFFFFF0000 }
      | n => if 4 ≤ n ∧ n < 8 then
          { x with fbs := x.fbs.set (n - 4) (putHalf (x.fbs.getD (n - 4) 0) hi v &&& 0xFFFFFFFFFF80) }
        else x

/-- A read of 4 bytes at an offset of the block (R421). -/
def Output.read (x : Output) (off : Nat) : W32 :=
  let hi := off % 8 == 4
  if 0x58 ≤ off ∧ off < 0x7C then x.pose.getD ((off - 0x58) / 4) 0
  else match off / 8 with
    | 0 => if hi then 0 else BitVec.ofNat 32 ((if x.fmt then 2 else 0) + (if x.en then 1 else 0))
    | 1 => getHalf x.size hi
    | 2 => getHalf x.start hi
    | 3 => if hi then 0 else x.period
    | 8 => getHalf x.present hi
    | 9 => getHalf x.deadline hi
    | 10 => if hi then 0 else x.margin
    | 16 => getHalf x.evbase hi
    | 17 => if hi then 0 else x.evidx
    | 18 => getHalf x.horiz hi
    | 19 => getHalf x.vert hi
    | n => if 4 ≤ n ∧ n < 8 then getHalf (x.fbs.getD (n - 4) 0) hi else 0

-- events of an output

/-- Appends an event record (R370, R422). One that the host does not take is not written, and EVIDX does not advance (R382
source 10). -/
def State.present (s : State) (o cause : Nat) : State :=
  let x := s.output o
  let seq := match x.last with | some (_, q) => q.toNat | none => 0
  let bs := bytesOf 8 s.time.now.toNat ++ bytesOf 8 (cause + o % 4 * 2 ^ 8 + seq * 2 ^ 32)
  let at_ := x.evbase.toNat + 16 * (x.evidx.toNat % 256)
  if !s.hostAnswers at_ 16 then s.partLog 10 (at_ % 2 ^ 48)
  else (s.hostPut at_ bs).updOutput o fun x => { x with evidx := x.evidx + 1 }

/-- Who reads for the displays (R382 source 9): no page fault is raised. -/
def displayWho : PartWho := { src := 9, ctx := 0, core := 0, part := true, raises := false }

/-- An f32 that is neither infinite nor a NaN. -/
def finite32 (w : W32) : Bool := (fmtF32.decode (w.setWidth 64)).isFinite

/-- What is scanned when no new frame is complete (R370). -/
def State.fallback (s : State) (o : Nat) : State :=
  let x := s.output o
  match x.last with
  | none => (s.present o 4).updOutput o fun x => { x with next := .black }
  | some (b, _) =>
    let s := s.present o 1
    if x.committed.all finite32 then s.updOutput o fun x => { x with next := .warp b x.committed }
    else (s.present o 3).updOutput o fun x => { x with next := .frame b }

/-- The present word at this instant; none where it reads as unchanged (R382). -/
def State.presentWord (s : State) (o : Nat) : State × Option W64 :=
  match s.partRead (.ia (s.output o).present.toNat) 8 displayWho with
  | (s, .ok bs) => (s, some (BitVec.ofNat 64 (ofBytes bs)))
  | (s, _) => (s, none)

/-- SEQ of the last complete frame, 0 while there is none. -/
def Output.lastSeq (x : Output) : Nat := match x.last with | some (_, q) => q.toNat | none => 0

/-- Chooses the frame scanned at DEADLINE (R420). -/
def State.choose (s : State) (o : Nat) : State :=
  let (s, w) := s.presentWord o
  let x := s.output o
  let fresh := match w with
    | some w => if x.lastSeq < fieldN w.toNat 63 32 then some w else none
    | none => none
  match fresh with
  | some w =>
    let b := w.toNat % 4
    s.updOutput o fun x => { x with last := some (b, hi32 w), prior := x.last.map (·.1), next := .frame b }
  | none => s.fallback o

/-- OUTPUT_ENABLE (R419): a write of the word that holds EN; the subject names output and value. -/
def execOutputEnable (s : State) : Answer :=
  match s.subject with
  | .write o v => .next (if s.hostMay then s.writeOutEn o (lo32 v) else s)
  | _ => .next s

/-- POSESEQ_WRITE (R421). -/
def execPoseseqWrite (s : State) : Answer :=
  match s.subject with
  | .write o _ | .unit o => .next (if s.hostMay then s.updOutput o Output.commit else s)
  | _ => .next s

/-- Whether an output reads its present word now (R420). -/
def State.presentDue (s : State) (o : Nat) : Bool :=
  let x := s.output o
  decide (o < s.outputs.length) && x.en && !x.chosen && decide (x.deadline.toNat ≤ s.time.now.toNat + x.margin.toNat)

/-- PRESENT_WORD_READ (R420): the subject names the output. -/
def execPresentWordRead (s : State) : Answer :=
  match s.subject with
  | .unit o =>
    if !s.presentDue o then .next s
    else
      let s := s.choose o
      let s := if s.time.unsync then s.present o 5 else s
      .next (s.updOutput o fun x => { x with chosen := true })
  | _ => .next s

-- scan-out

/-- The words of a line of a frame buffer from an intermediate address in it, none for a word that cannot be shown: one
of an uncorrectable codeword (R370), or of a line that faults (R382); and how many such events there are. -/
def State.scanPart (s : State) (ia n : Nat) : State × List (Option W32) × Nat :=
  let words (bs : List Byte) : List W32 :=
    (List.range (n / 4)).map fun j => BitVec.ofNat 32 (ofBytes ((bs.drop (4 * j)).take 4))
  match s.partXlate (.ia ia) permRead displayWho with
  | (s, .ok (.dev k a, _)) =>
    let (s, e) := s.lineErrors k (a / 128) 0xFFFF (ia / 128 * 128) false true
    let ws := words (s.mem.home.read (devKey k a) n)
    let bad := wordsMet e.words a n
    let size := if ((s.stack k).cached (a / 128)).isSome then 2 else 8
    (s, ws.zipIdx.map (fun (w, j) => if bad.contains (a % 128 / 4 + j) then none else some w),
      ((bad.map (· / size)).eraseDups).length)
  | (s, .ok (l, _)) => (s, (words (s.locPeek l n)).map some, 0)
  | (s, _) => (s, List.replicate (n / 4) none, 1)

/-- The pixels of a buffer, row by row, and how many codewords of them cannot be shown. -/
def State.readBuffer (s : State) (o buf : Nat) : State × List (Option W32) × Nat :=
  let x := s.output o
  let base := (x.fbs.getD buf 0).toNat
  let stride := 128 * fieldN x.size.toNat 63 48
  (List.range x.rows).foldl (fun r y =>
    (partsOf (base + y * stride) (4 * x.cols)).foldl (fun (r : State × List (Option W32) × Nat) (a, n) =>
      let (s, ws, k) := r.1.scanPart (a % 2 ^ 48) n
      (s, r.2.1 ++ ws, r.2.2 + k)) r) (s, [], 0)

/-- The pixels of the complete frame before the one scanned, which stand for those that cannot be shown; black where it has
none to show. -/
def State.oldFrame (s : State) (o : Nat) : State × List W32 :=
  match (s.output o).prior with
  | some b => let (s, px, _) := s.readBuffer o b; (s, px.map (·.getD 0))
  | none => (s, [])

/-- One row of the homography at a pixel, each step rounded to f32 (R422). -/
def warpRow (h : List W32) (i : Nat) (x y : W64) : W64 :=
  let e (k : Nat) : W64 := (h.getD (3 * i + k) 0).setWidth 64
  let mul (a b : W64) := (mulF fmtF32 .rne false a b).val
  let add (a b : W64) := (addF fmtF32 .rne false a b).val
  add (add (mul (e 0) x) (mul (e 1) y)) (e 2)

/-- A pixel's centre along one axis as f32. -/
def pixelCentre (n : Nat) : W64 := (roundMag fmtF32 .rne false false (2 * n + 1) 2).val

/-- The source pixel along one axis: the floor of the rounded quotient, where it is finite and in range. -/
def warpAxis (u w : W64) (size : Nat) : Option Nat :=
  let q := fmtF32.decode (divF fmtF32 .rne false u w).val
  if !q.isFinite then none else
  let n := q.dy.floor
  if 0 ≤ n ∧ n < size then some n.toNat else none

/-- The source pixel of an output pixel under the warp (R422); none is black. -/
def warpSource (h : List W32) (cols rows x y : Nat) : Option Nat :=
  let cx := pixelCentre x
  let cy := pixelCentre y
  let w := warpRow h 2 cx cy
  let wv := fmtF32.decode w
  if wv.sign || wv.isZero || wv.isNan then none
  else match warpAxis (warpRow h 0 cx cy) w cols, warpAxis (warpRow h 1 cx cy) w rows with
    | some i, some j => some (j * cols + i)
    | _, _ => none

/-- What is scanned out of some pixels (R370, R422): `at_` gives the source of each output pixel. A pixel that cannot be shown
is the last complete frame's at that place, unwarped. -/
def scanOut (cols rows : Nat) (px : List (Option W32)) (old : List W32) (at_ : Nat → Nat → Option Nat) : List W32 :=
  (List.range rows).flatMap fun y => (List.range cols).map fun x => match at_ x y with
    | none => 0
    | some i => match px.getD i (some 0) with
      | some w => w
      | none => old.getD (y * cols + x) 0

/-- The pixel that the stream carries for a word of the frame buffer (R419, R421): three components of 8 or 10 bits, the
first at the least significant end; alpha is not sent. DEDUCED (notes/assumptions/49). -/
def Output.rgb (x : Output) (w : W32) : Rgb :=
  let n := if x.fmt then 10 else 8
  let c (i : Nat) : Nat := w.toNat / 2 ^ (n * i) % 2 ^ n
  { r := c 0, g := c 1, b := c 2 }

/-- The pixels of what is scanned, and how many codewords of them were bad. -/
def State.picture (s : State) (o : Nat) (c : Scan) : State × List Rgb × Nat :=
  let x := s.output o
  let shown (s : State) (b : Nat) (at_ : Nat → Nat → Option Nat) : State × List Rgb × Nat :=
    let (s, px, bad) := s.readBuffer o b
    let (s, old) := if bad = 0 then (s, []) else s.oldFrame o
    (s, (scanOut x.cols x.rows px old at_).map x.rgb, bad)
  match c with
  | .frame b => shown s b fun i j => some (j * x.cols + i)
  | .warp b h => shown s b (warpSource h x.cols x.rows)
  | _ => (s, (List.replicate (x.cols * x.rows) 0).map x.rgb, 0)

/-- Whether an output begins a frame now (R419). -/
def State.scanDue (s : State) (o : Nat) : Bool :=
  let x := s.output o
  decide (o < s.outputs.length) && x.en && x.chosen && decide (x.deadline ≤ s.time.now)

/-- FRAME_SCAN_START (R419, R420): the subject names the output. DEADLINE advances by PERIOD. -/
def execFrameScanStart (s : State) : Answer :=
  match s.subject with
  | .unit o =>
    if !s.scanDue o then .next s
    else
      let (s, px, bad) := s.picture o (s.output o).next
      let s := (List.range bad).foldl (fun (s : State) _ => s.present o 2) s
      .next (s.updOutput o fun x =>
        { x with scan := x.next, picture := px, chosen := false,
                 deadline := x.deadline + x.period.setWidth 64 })
  | _ => .next s

end Sys2Proof.Machine
end

