-- ==== Sys2Proof/Machine/Boot.lean ====
section
/-! DEFINITION. Start-up and power (R432-R439): the steps of a start, what survives one, and the thermal events. -/
namespace Sys2Proof.Machine

-- what survives a start

/-- A stack as a warm start leaves it (R433): memory with its poison marks and check values survives; caches, tags,
leases, logs and registers do not; a code line that is not PENDING is published at system scope. -/
def Stack.warm (x : Stack) : Stack :=
  { Stack.reset with
    pubs := x.pubs.filter fun p => p.2 == .pending, codeFrames := x.codeFrames, poison := x.poison,
    bankWritten := x.bankWritten, checks := x.checks }

/-- The memories at step 1 of a start: no cache, log register or injection survives, and of the stored errors only those
of the DRAM. -/
def Memory.started (m : Memory) : Memory :=
  { m with home := m.dram, stackList := m.stackList.map Stack.warm, flips := m.flips.filter (·.kind == 6), injects := [],
           errLogs := [] }

/-- The memories after step 3 of a cold start: device memory is zero, with valid check bits and check values (R432). -/
def Memory.zeroed (m : Memory) : Memory := { Memory.reset with host := m.host, hostErr := m.hostErr, ckpts := m.ckpts, peer := m.peer }

/-- The part as a start begins: every register at its reset value and no work anywhere (R9, R14, R433). What is outside
the part, its clocks, the fields held over starts and the model's own fields stay. -/
def State.started (s : State) : State :=
  { State.reset with
    time := { TimeBase.reset with now := s.time.now, clock := s.time.clock },
    mem := s.mem.started, power := s.power, nextNum := s.nextNum, freeCtr := s.freeCtr, subject := s.subject,
    agenda := s.agenda }

-- signatures

/-- The words of a block of SHA-512 (FIPS 180-4), as R436 uses it: the first 16, and then the schedule. -/
def shaSchedule : Nat → List W64 → List W64
  | 0, _ => []
  | n + 1, ws =>
    let w (i : Nat) : W64 := ws.getD i 0
    let s0 := (w 1).rotateRight 1 ^^^ (w 1).rotateRight 8 ^^^ (w 1 >>> 7)
    let s1 := (w 14).rotateRight 19 ^^^ (w 14).rotateRight 61 ^^^ (w 14 >>> 6)
    w 0 :: shaSchedule n (ws.tail ++ [s1 + w 9 + s0 + w 0])

/-- The largest x of `n` bits, over `x`, whose k-th power is at most `a`. -/
def rootBits (k a : Nat) : Nat → Nat → Nat
  | 0, x => x
  | n + 1, x => let y := x + 2 ^ n; rootBits k a n (if y ^ k ≤ a then y else x)

/-- The first 80 primes. -/
def shaPrimes : List Nat := ((List.range 410).filter fun n => 2 ≤ n && (List.range 19).all fun d => d + 2 ≥ n || n % (d + 2) != 0).take 80

/-- The first 64 bits of the fraction of the k-th root of a prime. -/
def rootFraction (k p : Nat) : W64 := BitVec.ofNat 64 (rootBits k (p * 2 ^ (64 * k)) 70 0)

/-- The constants of SHA-512: of the cube roots of the first 80 primes, and of the square roots of the first eight. -/
def shaK : List W64 := shaPrimes.map (rootFraction 3)
def shaInit : List W64 := (shaPrimes.take 8).map (rootFraction 2)

/-- One round. -/
def shaRound (v : List W64) (kw : W64) : List W64 :=
  let x (i : Nat) : W64 := v.getD i 0
  let s1 := (x 4).rotateRight 14 ^^^ (x 4).rotateRight 18 ^^^ (x 4).rotateRight 41
  let t1 := x 7 + s1 + ((x 4 &&& x 5) ^^^ (~~~(x 4) &&& x 6)) + kw
  let s0 := (x 0).rotateRight 28 ^^^ (x 0).rotateRight 34 ^^^ (x 0).rotateRight 39
  let t2 := s0 + ((x 0 &&& x 1) ^^^ (x 0 &&& x 2) ^^^ (x 1 &&& x 2))
  [t1 + t2, x 0, x 1, x 2, x 3 + t1, x 4, x 5, x 6]

/-- A number whose bytes stand most significant first. -/
def ofBytesBE (bs : List Byte) : Nat := bs.foldl (fun n b => n * 256 + b.toNat) 0

/-- The bytes of a number, most significant first. -/
def bytesBE (n v : Nat) : List Byte := (bytesOf n v).reverse

/-- One block of 128 bytes. -/
def shaBlock (h : List W64) (bs : List Byte) : List W64 :=
  let ws := (List.range 16).map fun i => BitVec.ofNat 64 (ofBytesBE ((bs.drop (8 * i)).take 8))
  let v := ((shaSchedule 80 ws).zip shaK).foldl (fun v p => shaRound v (p.1 + p.2)) h
  (h.zip v).map fun p => p.1 + p.2

/-- The SHA-512 digest of some bytes (R436), as 64 bytes. -/
def sha512 (bs : List Byte) : List Byte :=
  let n := bs.length
  let all := bs ++ [(0x80 : Byte)] ++ List.replicate ((239 - n % 128) % 128) 0 ++ bytesBE 16 (8 * n)
  let h := (List.range (all.length / 128)).foldl (fun h i => shaBlock h ((all.drop (128 * i)).take 128)) shaInit
  h.flatMap fun w => bytesBE 8 w.toNat

/-- b to the e modulo m, e of `n` bits. -/
def powMod (b m : Nat) (e : W32) (n : Nat) : Nat :=
  ((List.range n).reverse).foldl (fun x i => let y := x * x % m; if e.getLsbD i then y * b % m else y) 1

/-- MGF1 with SHA-512 (R436): `n` bytes of mask. -/
def mgf1 (seed : List Byte) (n : Nat) : List Byte :=
  ((List.range ((n + 63) / 64)).flatMap fun i => sha512 (seed ++ bytesBE 4 i)).take n

/-- Whether an RSASSA-PSS signature verifies (R436: PKCS #1 v2.2, SHA-512, MGF1 with SHA-512, a salt of 64 bytes), with a key
of 4,096 bits. -/
def pssVerifies (modulus : Nat) (exponent : W32) (sig digest : List Byte) : Bool :=
  let em := bytesBE 512 (powMod (ofBytesBE sig) modulus exponent 32)
  let masked := em.take 447
  let h := (em.drop 447).take 64
  let mask := mgf1 h 447
  let db := ((masked.zip mask).map fun p => p.1 ^^^ p.2).zipIdx.map fun (b, i) => if i = 0 then b &&& 0x7F else b
  decide (2 ^ 4095 ≤ modulus) && decide (modulus < 2 ^ 4096) && sig.length == 512 && decide (ofBytesBE sig < modulus) &&
    em.getD 511 0 == 0xBC && decide ((em.getD 0 0).toNat < 128) && (db.take 382).all (· == 0) && db.getD 382 0 == 1 &&
    h == sha512 (List.replicate 8 0 ++ digest ++ db.drop 383)

/-- Whether a key's digest is one of the two in mask ROM (R436): of its modulus and its exponent. -/
def keyKnown (modulus : Nat) (exponent : W32) : Bool :=
  let d := BitVec.ofNat 512 (ofBytesBE (sha512 (bytesBE 512 modulus ++ bytesBE 4 exponent.toNat)))
  d == Config.romDigest 0 || d == Config.romDigest 1

-- the configuration blob

/-- Word i of the blob. -/
def BlobWord (b : BootInput) (i : Nat) : W64 := b.blob.getD i 0

/-- Some bytes of the blob. -/
def blobBytes (b : BootInput) (off n : Nat) : List Byte :=
  (List.range n).map fun i => (BlobWord b ((off + i) / 8)).extractLsb' (8 * ((off + i) % 8)) 8

/-- A blob with a wrong MAGIC or a nonzero reserved field (R437). -/
def blobMalformed (b : BootInput) : Bool :=
  lo32 (BlobWord b 0) != 0x42435848 || fieldN (BlobWord b 1).toNat 47 16 != 0 || fieldN (BlobWord b 1).toNat 7 6 != 0 ||
    hi32 (BlobWord b 4) != 0 || (List.range 59).any fun i => BlobWord b (5 + i) != 0

/-- The conditions on the blob's key and signature (R436, R437): KEYEXP is odd and at least 3, the key is known, and the
signature over bytes 0x000-0x3FF verifies. -/
def blobSigned (b : BootInput) : Bool :=
  let n := ofBytesBE (blobBytes b 0x600 512)
  let e := lo32 (BlobWord b 4)
  e.getLsbD 0 && decide (3 ≤ e.toNat) && keyKnown n e &&
    pssVerifies n e (blobBytes b 0x400 512) (sha512 (blobBytes b 0 0x400))

/-- What a firmware image carries (R436), found in the bytes that its signature covers. -/
def fwVersion (f : FwImage) : BitVec 16 := Config.fwVersion f.bytes
def fwModulus (f : FwImage) : Nat := Config.fwModulus f.bytes
def fwExponent (f : FwImage) : W32 := Config.fwExponent f.bytes

/-- The conditions on a firmware image's key and signature (R436). -/
def fwAccepted (f : FwImage) : Bool :=
  keyKnown (fwModulus f) (fwExponent f) && pssVerifies (fwModulus f) (fwExponent f) f.sig (sha512 f.bytes)

def blobMinFw (b : BootInput) : Nat := fieldN (BlobWord b 1).toNat 63 48
def blobInc (b : BootInput) : Byte := BitVec.ofNat 8 (fieldN (BlobWord b 1).toNat 15 8)
def blobDev (b : BootInput) : Nat := fieldN (BlobWord b 1).toNat 5 0

/-- Loads what the blob gives the fabric block and STATUS (R413, R415, R438). -/
def State.loadBlob (s : State) (b : BootInput) : State :=
  let route (d : Nat) : BitVec 12 := BitVec.ofNat 12 (BlobWord b (64 + d)).toNat
  { s with fabric := { s.fabric with inc := blobInc b, dev := blobDev b, routes := (List.range 64).map route },
           power := { s.power with bver := (hi32 (BlobWord b 0)).setWidth 16 } }

-- the time base

/-- The time-base block with a configuration (R416): its own master, another master, or alone. -/
def TimeBase.configure (t : TimeBase) (dev : Nat) (v : Byte) : TimeBase :=
  let t := { t with cfg := v, met := false, slew := 0 }
  if !v.getLsbD 7 then { t with unsync := true, master := false, bound := 0xFFFF }
  else if !v.getLsbD 6 && v.toNat % 64 == dev then { t with unsync := false, master := true, bound := 0 }
  else { t with unsync := true, master := false, bound := 0xFFFF }

-- the steps

/-- A step that fails ends the start (R432, R435): a cold start follows, or after the third failure status-only mode. -/
def State.failStart (s : State) (step : Nat) (code : Byte) : State :=
  let n := s.power.attempts + 1
  let p := { s.power with fail := code, attempts := n, wantWarm := false, input := none }
  { s with power := if 3 ≤ n then { p with state := 3, step := step } else p.starting }

/-- The start goes on with a step, which STATUS shows (R432, R438). -/
def State.toStep (s : State) (step : Nat) : State := { s with power := { s.power with step := step } }

/-- Step 1 (R432, R433): the start runs as a warm start only when training results are held. -/
def State.startRails (s : State) (b : BootInput) : State :=
  let warm := s.power.wantWarm && s.power.trained
  let s := s.quiesce.started
  let s := { s with power := { s.power with warm := warm, input := some b, fwver := 0, bver := 0 } }
  if b.failStep1 then s.failStart 1 0x01 else s.toStep (if warm then 4 else 2)

/-- Step 3 (R432). -/
def State.startStacks (s : State) (b : BootInput) : State :=
  if b.failStep3 then s.failStart 3 0x03
  else { s with mem := s.mem.zeroed, power := { s.power with trained := true } }.toStep 4

/-- Step 4 (R432, R436, R437). -/
def State.startBlob (s : State) (b : BootInput) : State :=
  let (free, s) := s.freeBytes 1
  if b.blobTimeout then s.failStart 4 (if (free.getD 0 0).getLsbD 0 then 0x05 else 0x06)
  else if !blobSigned b then s.failStart 4 0x05
  else if blobMalformed b then s.failStart 4 0x06
  else (s.loadBlob b).toStep 5

/-- Step 5 (R432, R436). -/
def State.startFirmware (s : State) (b : BootInput) : State :=
  if b.fwTimeout || !fwAccepted b.fw || decide ((fwVersion b.fw).toNat < blobMinFw b) then s.failStart 5 0x04
  else { s with power := { s.power with fwver := fwVersion b.fw } }.toStep 6

/-- Step 6 (R432, R426). -/
def State.startLinks (s : State) (b : BootInput) : State :=
  if b.failStep6 then s.failStart 6 0x20
  else { s with fabric := { s.fabric with up := b.ports, inc := b.learned.getD s.fabric.inc, joining := b.learned.isSome } }.toStep 7

/-- Step 7 (R432): the time base is 0 and configured, the privileged registers are zero, LOG2 of `$lqcfg` with them, which
R153 gives 4 at reset (R379), and `$rsvcore` is the blob's. DEDUCED (notes/assumptions/69). -/
def State.startTime (s : State) (b : BootInput) : State :=
  { s with lqs := s.lqs.map fun (q : LaunchQueue) => { q with log2 := 0 },
           time := { s.time with now := 0 }.configure s.fabric.dev (BitVec.ofNat 8 (BlobWord b 3).toNat),
           priv := { s.priv with rsvcore := lo32 (BlobWord b 2) } }.toStep 8

/-- Step 8 (R432): the part runs. -/
def State.startRuns (s : State) : State :=
  { s with power := { s.power with state := 2, step := 0, input := none } }

/-- The step of a start that now runs (R432): what the start finds outside the part is as its first step found it. DESIGN CHOICE
(notes/assumptions/67). -/
def State.startStep (s : State) (b0 : BootInput) : State :=
  let b := s.power.input.getD b0
  match s.power.step with
  | 1 => s.startRails b
  | 2 => if b.failStep2 then s.failStart 2 0x02 else s.toStep 3
  | 3 => s.startStacks b
  | 4 => s.startBlob b
  | 5 => s.startFirmware b
  | 6 => s.startLinks b
  | 7 => s.startTime b
  | _ => s.startRuns

-- STARTCTL

/-- A write of STARTCTL that names a start (R435): ignored while a start runs; a running part first stops. -/
def State.beginStart (s : State) (warm : Bool) : State :=
  if s.power.state = 1 ∨ s.power.thenStart then s else s.stopForStart warm

/-- A start of one kind: the next step of the one in progress, or one that STARTCTL names now, which runs once the part has
stopped. DEDUCED (notes/assumptions/50). -/
def State.startAs (s : State) (warm : Bool) (b : BootInput) : State :=
  if (s.power.state = 1 ∨ s.power.thenStart) ∧ (s.power.wantWarm ≠ warm ∨ s.power.attempts ≠ 0) then s
  else
    let s := s.beginStart warm
    if s.power.state = 1 then s.startStep b else s

/-- POWER_ON (R432): a cold start begins; memory outside the part is what it was. -/
def execPowerOn (s : State) : Answer :=
  .next { State.reset with mem := s.mem.zeroed, nextNum := s.nextNum, freeCtr := s.freeCtr, subject := s.subject,
                           agenda := s.agenda }

/-- COLD_START (R432): the subject gives what the start finds outside the part; one event is one step. -/
def execColdStart (s : State) : Answer :=
  match s.subject with
  | .boot b => .next (s.startAs false b)
  | _ => .next s

/-- WARM_START (R432). -/
def execWarmStart (s : State) : Answer :=
  match s.subject with
  | .boot b => .next (s.startAs true b)
  | _ => .next s

/-- AUTO_RESTART (R435): a step of the cold start after a failed one. -/
def execAutoRestart (s : State) : Answer :=
  match s.subject with
  | .boot b => .next (if s.power.state = 1 ∧ s.power.attempts ≠ 0 then s.startStep b else s)
  | _ => .next s

-- heat

/-- THERMAL_THROTTLE (R439): a die is at 105 °C. -/
def execThermalThrottle (s : State) : Answer :=
  .next { s with power := { s.power with mhz := max 800 (s.power.mhz - 100) } }

/-- THERMAL_RECOVER (R439): the die is below 95 °C. -/
def execThermalRecover (s : State) : Answer := .next { s with power := { s.power with mhz := 1600 } }

/-- THERMAL_SHUTDOWN (R439): a die is at 115 °C. -/
def execThermalShutdown (s : State) : Answer :=
  .next (if s.power.state = 3 then s else (s.stopPart 0x30).settle)

end Sys2Proof.Machine
end

