-- ==== Sys2Proof/Machine/Floating.lean ====
section
/-! DEFINITION. Classes 2 and 3: floating point, special functions, conversions, packing (R102-R113). -/
namespace Sys2Proof.Machine

/-- `fadd` (R102). -/
def execFadd (h : Hdr) (x : Arith) (s : State) : Answer :=
  s.perLaneFloat (.fadd h x) h x fun f a b _ => addF f x.rm x.fs a b

/-- `fsub` (R102). -/
def execFsub (h : Hdr) (x : Arith) (s : State) : Answer :=
  s.perLaneFloat (.fsub h x) h x fun f a b _ => subF f x.rm x.fs a b

/-- `fmul` (R102). -/
def execFmul (h : Hdr) (x : Arith) (s : State) : Answer :=
  s.perLaneFloat (.fmul h x) h x fun f a b _ => mulF f x.rm x.fs a b

/-- `ffma` (R102). -/
def execFfma (h : Hdr) (x : Arith) (s : State) : Answer :=
  s.perLaneFloat (.ffma h x) h x fun f a b c => fmaF f x.rm x.fs a b c

/-- `fmin` (R104). -/
def execFmin (h : Hdr) (x : Arith) (s : State) : Answer :=
  s.perLaneFloat (.fmin h x) h x fun f a b _ => minF f x.fs a b

/-- `fmax` (R104). -/
def execFmax (h : Hdr) (x : Arith) (s : State) : Answer :=
  s.perLaneFloat (.fmax h x) h x fun f a b _ => maxF f x.fs a b

/-- `fmed3` (R104). -/
def execFmed3 (h : Hdr) (x : Arith) (s : State) : Answer :=
  s.perLaneFloat (.fmed3 h x) h x fun f a b c => med3F f x.fs a b c

/-- A floating compare in one lane (R105). -/
def Lane.fcmpOp (l : Lane) (x : Arith) : Lane :=
  let r := compareF (fmtOf x.ty) x.fs x.sub.toNat (l.src x.ty x.a.toNat) (l.srcB x)
  (l.setPred x.d.toNat r.1).raise r.2

/-- `fcmp` (R105). -/
def execFcmp (h : Hdr) (x : Arith) (s : State) : Answer := s.perLane (.fcmp h x) h fun _ l => l.fcmpOp x

/-- `fclass` (R106). -/
def execFclass (h : Hdr) (x : Arith) (s : State) : Answer :=
  s.perLane (.fclass h x) h fun _ l =>
    l.setReg x.d.toNat (BitVec.ofNat 32 (2 ^ classF (fmtOf x.ty) (l.src x.ty x.a.toNat)))

/-- One half of a packed source (R103): an immediate stands in both halves. -/
def Lane.half (l : Lane) (r : Field8) (n : Nat) : W64 := ((l.reg r.toNat).extractLsb' (16 * n) 16).setWidth 64
def Lane.halfB (l : Lane) (x : Arith) (n : Nat) : W64 := if x.i then (immOf x).setWidth 64 else l.half x.b n

/-- A packed two-half word in one lane (R103). -/
def Lane.halves (l : Lane) (x : Arith) (op : Fmt → W64 → W64 → W64 → FRes) : Lane :=
  let f := fmtOf x.ty
  let r0 := op f (l.half x.a 0) (l.halfB x 0) (l.half x.c 0)
  let r1 := op f (l.half x.a 1) (l.halfB x 1) (l.half x.c 1)
  let d : W32 := r1.val.setWidth 16 ++ r0.val.setWidth 16
  (l.setReg x.d.toNat d).raise (r0.flags ||| r1.flags)

/-- `hfma2` (R103). -/
def execHfma2 (h : Hdr) (x : Arith) (s : State) : Answer :=
  s.perLane (.hfma2 h x) h fun _ l => l.halves x fun f a b c => fmaF f x.rm x.fs a b c

/-- `hadd2` (R103). -/
def execHadd2 (h : Hdr) (x : Arith) (s : State) : Answer :=
  s.perLane (.hadd2 h x) h fun _ l => l.halves x fun f a b _ => addF f x.rm x.fs a b

/-- `hmul2` (R103). -/
def execHmul2 (h : Hdr) (x : Arith) (s : State) : Answer :=
  s.perLane (.hmul2 h x) h fun _ l => l.halves x fun f a b _ => mulF f x.rm x.fs a b

/-- `hdot2` in one lane (R107). -/
def Lane.hdotOp (l : Lane) (x : Arith) : Lane :=
  let r := dot2F (fmtOf x.ty) x.rm x.fs (l.reg x.a.toNat) (l.reg x.b.toNat) (l.reg x.c.toNat)
  (l.setReg x.d.toNat (lo32 r.val)).raise r.flags

/-- `hdot2` (R107). -/
def execHdot2 (h : Hdr) (x : Arith) (s : State) : Answer := s.perLane (.hdot2 h x) h fun _ l => l.hdotOp x

-- class 3

/-- A result of one operand or two for the run's end (R108). -/
def Lane.floatOuts (l : Lane) (x : Arith) (op : Fmt → W64 → W64 → FRes) : Outs :=
  let r := op (fmtOf x.ty) (l.src x.ty x.a.toNat) (l.srcB x)
  { writes := resultRegs x.ty x.d.toNat r.val, flags := r.flags }

/-- `frcp` (R109). -/
def execFrcp (h : Hdr) (x : Arith) (s : State) : Answer :=
  s.perLaneLate (.frcp h x) h fun l => l.floatOuts x fun f a _ => rcpF f x.fs a

/-- `frsq` (R109). -/
def execFrsq (h : Hdr) (x : Arith) (s : State) : Answer :=
  s.perLaneLate (.frsq h x) h fun l => l.floatOuts x fun f a _ => rsqF f x.fs a

/-- `fsqrt` (R110). -/
def execFsqrt (h : Hdr) (x : Arith) (s : State) : Answer :=
  s.perLaneLate (.fsqrt h x) h fun l => l.floatOuts x fun f a _ => sqrtF f x.rm x.fs a

/-- `fdiv` (R110). -/
def execFdiv (h : Hdr) (x : Arith) (s : State) : Answer :=
  s.perLaneLate (.fdiv h x) h fun l => l.floatOuts x fun f a b => divF f x.rm x.fs a b

/-- `fex2` (R109). -/
def execFex2 (h : Hdr) (x : Arith) (s : State) : Answer :=
  s.perLaneLate (.fex2 h x) h fun l => l.floatOuts x fun f a _ => ex2F f x.fs a

/-- `flg2` (R109). -/
def execFlg2 (h : Hdr) (x : Arith) (s : State) : Answer :=
  s.perLaneLate (.flg2 h x) h fun l => l.floatOuts x fun f a _ => lg2F f x.fs a

/-- `fsin` (R109). -/
def execFsin (h : Hdr) (x : Arith) (s : State) : Answer :=
  s.perLaneLate (.fsin h x) h fun l => l.floatOuts x fun f a _ => trigF 0 f x.fs a

/-- `fcos` (R109). -/
def execFcos (h : Hdr) (x : Arith) (s : State) : Answer :=
  s.perLaneLate (.fcos h x) h fun l => l.floatOuts x fun f a _ => trigF 1 f x.fs a

/-- `dadd` (R108). -/
def execDadd (h : Hdr) (x : Arith) (s : State) : Answer :=
  s.perLane (.dadd h x) h fun vs l => l.floatOp vs x fun f a b _ => addF f x.rm x.fs a b

/-- `dmul` (R108). -/
def execDmul (h : Hdr) (x : Arith) (s : State) : Answer :=
  s.perLane (.dmul h x) h fun vs l => l.floatOp vs x fun f a b _ => mulF f x.rm x.fs a b

/-- `dfma` (R108). -/
def execDfma (h : Hdr) (x : Arith) (s : State) : Answer :=
  s.perLane (.dfma h x) h fun vs l => l.floatOp vs x fun f a b c => fmaF f x.rm x.fs a b c

/-- `dcmp` (R108). -/
def execDcmp (h : Hdr) (x : Arith) (s : State) : Answer := s.perLane (.dcmp h x) h fun _ l => l.fcmpOp x

/-- A conversion between the formats of two TYPE codes (R44-R47, R111). -/
def convert (src dst : Ty) (rm : Rm) (fs : Bool) (w : W64) : FRes :=
  if tyFloat src then
    if tyFloat dst then convertFF (fmtOf src) (fmtOf dst) rm fs w
    else convertFI (fmtOf src) (tyBits dst) (tySigned dst) rm fs w
  else if tyFloat dst then convertIF (fmtOf dst) rm fs (intOf src w)
  else convertII (tyBits dst) (tySigned dst) fs (intOf src w)

/-- `cvt` in one lane (R111). -/
def Lane.cvtOp (l : Lane) (x : Arith) : Lane :=
  let r := convert (cvtSrc x) x.ty x.rm x.fs (l.src (cvtSrc x) x.a.toNat)
  l.put { writes := resultRegs x.ty x.d.toNat r.val, flags := r.flags }

/-- Whether a `cvt` consumes poison with the trap enabled (R89, R111). -/
def Lane.cvtPoison (l : Lane) (x : Arith) : Bool :=
  tyFloat (cvtSrc x) && tyInt x.ty && l.trapen.getLsbD 0 &&
    (fmtOf (cvtSrc x)).decode (l.src (cvtSrc x) x.a.toNat) == .poison

/-- `cvt` (R111): trap 0x18 in the lanes that consume poison (R89). -/
def execCvt (h : Hdr) (x : Arith) (s : State) : Answer :=
  s.runWord (.cvt h x) h fun u s =>
    let bad := u.act.filter fun i => (s.lane u i).cvtPoison x
    if bad.isEmpty then .done (s.mapLanes u u.act fun _ l => l.cvtOp x) []
    else .trap s (trapAll bad (trapAt 0x18 u.pc))

/-- `frnd` (R112). -/
def execFrnd (h : Hdr) (x : Arith) (s : State) : Answer :=
  s.perLane (.frnd h x) h fun vs l => l.floatOp vs x fun f a _ _ => integralF f x.rm x.fs a

/-- `pack.h` (R113). -/
def execPackH (h : Hdr) (x : Arith) (s : State) : Answer :=
  s.perLane (.packH h x) h fun _ l =>
    l.setReg x.d.toNat ((l.reg x.b.toNat).setWidth 16 ++ (l.reg x.a.toNat).setWidth 16)

/-- `pack.w` (R113). -/
def execPackW (h : Hdr) (x : Arith) (s : State) : Answer :=
  s.perLane (.packW h x) h fun _ l => l.setPair x.d.toNat (join32 (l.reg x.a.toNat) (l.reg x.b.toNat))

/-- `unpk` (R113). -/
def execUnpk (h : Hdr) (x : Arith) (s : State) : Answer :=
  s.perLane (.unpk h x) h fun _ l =>
    let w := tyBits x.ty
    l.setReg x.d.toNat (widen x.ty (BitVec.ofNat 64 ((l.reg x.a.toNat).toNat / 2 ^ (w * x.sub.toNat) % 2 ^ w)))

end Sys2Proof.Machine
end

