-- ==== Sys2Proof/Machine/Host.lean ====
section
/-! DEFINITION. The host and the installation: the host control window (R408, R409, R434, R438), host copy channels and
host publication (R411, R412), accesses of the host and of peers to device memory (R410, R411, R414, R415, R425), the time
base (R416-R418), heartbeats and dead agents (R423-R426), links (R407) and the integrity log's count (R438). -/
namespace Sys2Proof.Machine

-- the time base

/-- A write of TBCFG (R416, R418). -/
def State.writeTbCfg (s : State) (v : Byte) : State := { s with time := s.time.configure s.fabric.dev v }

/-- TBSTAT (R418). -/
def TimeBase.stat (t : TimeBase) : W32 :=
  BitVec.ofNat 32 ((if t.unsync then 2 ^ 31 else 0) + (if t.master then 2 ^ 30 else 0) + min t.bound 0xFFFF)

/-- A replacement that waited to set its time base sends its JOIN (R426). -/
def Fabric.join (f : Fabric) : Fabric :=
  if f.joining then { f with joining := false, sent := .join f.dev f.inc :: f.sent } else f

/-- A write of TBSET (R418): ignored while a context is resident, or with a value below TB. -/
def State.setTime (s : State) (v : W64) : State :=
  if s.teams.any (·.resident) || decide (v < s.time.now) then s
  else { s with time := { s.time with now := v }, fabric := s.fabric.join }

-- fabric registers

/-- The last word a device's admission registers hold (R415). -/
def admitBaseMask : W64 := 0xFFFFFFFFFFFF0007
def admitLimitMask : W64 := 0x0000FFFFFFFF0000

/-- A write of 4 bytes at an offset of the fabric block (R415). -/
def Fabric.write (f : Fabric) (off : Nat) (v : W32) : Fabric :=
  let hi := off % 8 == 4
  if 0x200 ≤ off ∧ off < 0x400 then
    if hi then f else { f with routes := f.routes.set ((off - 0x200) / 8) (v.setWidth 12) }
  else if 0x800 ≤ off ∧ off < 0xC00 then
    let d := (off - 0x800) / 16
    if off % 16 < 8 then { f with admitBase := f.admitBase.set d (putHalf (f.admitBase.getD d 0) hi v &&& admitBaseMask) }
    else { f with admitLimit := f.admitLimit.set d (putHalf (f.admitLimit.getD d 0) hi v &&& admitLimitMask) }
  else f

/-- A read of 4 bytes at an offset of the fabric block (R415). -/
def Fabric.read (f : Fabric) (off : Nat) : W32 :=
  let hi := off % 8 == 4
  if off = 0 then BitVec.ofNat 32 (f.inc.toNat * 256 + f.dev % 64)
  else if off = 8 then f.up.setWidth 32
  else if 0x200 ≤ off ∧ off < 0x400 then if hi then 0 else (f.routes.getD ((off - 0x200) / 8) 0).setWidth 32
  else if 0x400 ≤ off ∧ off < 0x608 then
    match f.agents[(off - 0x400) / 8]? with
    | some a => if hi then 0 else BitVec.ofNat 32 (a.inc.toNat * 256 + a.state)
    | none => 0
  else if 0x800 ≤ off ∧ off < 0xC00 then
    let d := (off - 0x800) / 16
    getHalf (if off % 16 < 8 then f.admitBase.getD d 0 else f.admitLimit.getD d 0) hi
  else 0

-- host copy channels and host publication

/-- A write of a channel's HEAD (R411): the walk of R303 at system scope, with AT = now; one that is not a record's address
ends at once. -/
def State.startWalk (s : State) (h : Nat) (v : W64) : State :=
  match s.chans[h]? with
  | none => s
  | some c =>
    if c.busy then s
    else if v % 64 != 0 || decide (2 ^ 56 ≤ v.toNat) then
      { s with chans := modifyAt s.chans h fun c => { c with code := 0x11, frec := v } }
    else
      let (num, s) := s.fresh
      let o : EngOp :=
        { num := num, kind := .chain (v.setWidth 56) 0 .system, owner := .host h, team := 0, group := 0, tid := 0, pc := 0,
          core := 0, ctx := c.ctx, acq := s.time.now, sp := .sh, evp := 0, lu := false, lease := none, phase := .issued,
          wait := none, after := [], left := 0, time := 0 }
      let s := { s with chans := modifyAt s.chans h fun c => { c with busy := true } }
      s.addOp o

/-- A write of HPUBLEN (R412): ignored while BUSY; a length above 16 MiB sets ERR and publishes nothing. -/
def State.startPub (s : State) (v : W32) : State :=
  if s.hpub.busy then s
  else if 2 ^ 24 < v.toNat then { s with hpub := { s.hpub with len := v, err := true } }
  else { s with hpub := { s.hpub with len := v, busy := true } }

/-- Whether a line is in device memory (R412). A page that is not resident has no published lines to record. -/
def State.pubLine (s : State) (ia : Nat) : State :=
  let bad (s : State) : State := { s with hpub := { s.hpub with err := true } }
  if 2 ^ 48 ≤ ia then bad s
  else match s.xlateIA ia { rd := false, w := false, x := false } with
    | (s, .ok (.dev k a) _) => s.publishSpot (.dev k a) .system .none
    | (s, .nonres ..) => s
    | (s, _) => bad s

/-- Publishes the range of HPUBBASE and HPUBLEN at system scope (R412). -/
def State.publishRange (s : State) : State :=
  let s := (linesOf s.hpub.base.toNat s.hpub.len.toNat).foldl (fun (s : State) n => s.pubLine (n * 128)) s
  { s with hpub := { s.hpub with busy := false } }

-- the host control window

/-- A write of 4 bytes of the Tulle spill register (R325). -/
def spillMask : W64 := 0xFFFFFFFFFFE00001

/-- A host write of 4 bytes at an offset of the window beyond the identity block (R408). -/
def State.hcwWrite4 (s : State) (off : Nat) (v : W32) : State :=
  let hi := off % 8 == 4
  if off < 0x1000 then s
  else if off < 0x2000 then
    let q := (off - 0x1000) / 0x40
    match off % 0x40 with
    | 0x00 => s.writeLqBase q (putHalf (s.lq q).base false v)
    | 0x04 => s.writeLqBase q (putHalf (s.lq q).base true v)
    | 0x08 => s.writeLqCfg q v
    | 0x10 => s.writeLqTail q v
    | 0x20 => s.writeLqErr q v
    | 0x28 => s.writeLqCtx q v
    | _ => s
  else if off < 0x3000 then
    let x := (off - 0x2000) / 4
    if (0x50 ≤ x ∧ x ≤ 0x5D) ∨ (0x68 ≤ x ∧ x ≤ 0x71) then s.writePriv x v else s
  else if off < 0x4000 then
    let k := (off - 0x3000) / 0x40
    match off % 0x40 with
    | 0x00 => s.writePtb k (putHalf (s.stack k).root false v)
    | 0x04 => s.writePtb k (putHalf (s.stack k).root true v)
    | 0x08 => s.writeStkStat k v
    | 0x10 | 0x14 => s.updStack k fun x => { x with spillReg := putHalf x.spillReg hi v &&& spillMask }
    | _ => s
  else if off < 0x5000 then if off = 0x4010 then s.writeTbCfg (v.setWidth 8) else s
  else if off < 0x6000 then s.writeOutput ((off - 0x5000) / 0x100) (off % 0x100) v
  else if off < 0x7000 then { s with fabric := s.fabric.write (off - 0x6000) v }
  else if off < 0x8000 then
    let put (hi : Bool) : State :=
      let w := putHalf (s.ilog.base ||| BitVec.ofNat 64 s.ilog.log2) hi v
      { s with ilog := { s.ilog with base := w &&& 0xFFFFFFFFFFFFF000, log2 := w.toNat % 32 } }
    match off - 0x7000 with
    | 0x00 => put false
    | 0x04 => put true
    | _ => s
  else if off < 0x9000 then
    let h := (off - 0x8000) / 0x40
    match off % 0x40 with
    | 0x00 => s.startWalk h (v.setWidth 64)
    | 0x04 => s.startWalk h (v.setWidth 64 <<< 32)
    | 0x08 => { s with chans := modifyAt s.chans h fun c => { c with ctx := v.toNat % 2 ^ 16 } }
    | 0x10 => { s with chans := modifyAt s.chans h fun c => { c with code := c.code &&& ~~~(v.setWidth 8) } }
    | _ => s
  else match off - 0x9000 with
    | 0x00 => { s with hpub := { s.hpub with base := putHalf s.hpub.base false v &&& 0xFFFFFFFFFF80 } }
    | 0x04 => { s with hpub := { s.hpub with base := putHalf s.hpub.base true v &&& 0xFFFFFFFFFF80 } }
    | 0x08 => s.startPub v
    | 0x10 => if v.getLsbD 1 then { s with hpub := { s.hpub with err := false } } else s
    | _ => s

/-- A write of STARTCTL (R435, R438): 1 a cold start, 2 a warm start. -/
def State.startCtl (s : State) (v : W64) : State :=
  match v.toNat % 4 with
  | 1 => s.beginStart false
  | 2 => s.beginStart true
  | _ => s

/-- Whether the window answers an access (R408, R434): 4 or 8 bytes, naturally aligned. While the part does not run only the
identity block answers. -/
def State.hcwAnswers (s : State) (off width : Nat) : Bool :=
  (width == 4 || width == 8) && off % width == 0 && decide (off < 2 ^ 20) && (decide (off < 0x1000) || s.power.state == 2)

/-- A host write to the window (R408, R409, R434): one that it does not answer has no effect. -/
def State.hcwWrite (s : State) (off width : Nat) (v : W64) : State :=
  if !s.hcwAnswers off width then s.answer none
  else if !s.hostReady then s
  else
  let s := s.answer (some [])
  if off = 0x18 then s.startCtl v
  else if off = 0x4018 then (if width = 8 then s.setTime v else s)
  else if width = 4 then s.hcwWrite4 off (lo32 v)
  else if 0x8000 ≤ off ∧ off < 0x9000 ∧ off % 0x40 = 0 then s.startWalk ((off - 0x8000) / 0x40) v
  else (s.hcwWrite4 off (lo32 v)).hcwWrite4 (off + 4) (hi32 v)

/-- STATUS (R438). -/
def Power.status (p : Power) : W32 :=
  BitVec.ofNat 32 (p.fail.toNat * 2 ^ 24 + p.attempts % 4 * 2 ^ 20 + (if p.warm then 2 ^ 19 else 0) + p.step % 16 * 2 ^ 8 +
    p.state % 4)

/-- A read of 4 bytes of the identity block (R438). -/
def State.readId (s : State) (off : Nat) : W32 :=
  match off with
  | 0x00 => (0x9216#16 ++ (0x1D#8 ++ Config.siliconRev))
  | 0x08 => lo32 Config.siliconSerial
  | 0x0C => hi32 Config.siliconSerial
  | 0x10 => s.power.status
  | 0x20 => s.ilog.drop
  | 0x28 => s.power.fwver ++ s.power.bver
  | _ => 0

/-- A host read of 4 bytes at an aligned offset of the window (R408): an unassigned one reads 0. -/
def State.hcwRead4 (s : State) (off : Nat) : W32 :=
  let hi := off % 8 == 4
  if off < 0x1000 then s.readId off
  else if off < 0x2000 then
    let x := s.lq ((off - 0x1000) / 0x40)
    if 16 ≤ (off - 0x1000) / 0x40 then 0 else (match off % 0x40 with
      | 0x00 => lo32 x.base
      | 0x04 => hi32 x.base
      | 0x08 => x.cfgWord
      | 0x10 => x.tail
      | 0x18 => x.head
      | 0x20 => x.code.setWidth 32
      | 0x28 => x.ctxWord
      | _ => 0)
  else if off < 0x3000 then
    let x := (off - 0x2000) / 4
    (if (0x50 ≤ x ∧ x ≤ 0x5D) ∨ (0x68 ≤ x ∧ x ≤ 0x71) then s.readPriv x else 0)
  else if off < 0x4000 then
    let k := s.stack ((off - 0x3000) / 0x40)
    (if 8 ≤ (off - 0x3000) / 0x40 then 0 else match off % 0x40 with
      | 0x00 => lo32 k.root
      | 0x04 => hi32 k.root
      | 0x08 => k.stat
      | 0x10 => lo32 k.spillReg
      | 0x14 => hi32 k.spillReg
      | _ => 0)
  else if off < 0x5000 then
    (match off - 0x4000 with
      | 0x00 => lo32 s.time.now
      | 0x04 => hi32 s.time.now
      | 0x08 => s.time.stat
      | 0x10 => s.time.cfg.setWidth 32
      | _ => 0)
  else if off < 0x6000 then
    (match s.outputs[(off - 0x5000) / 0x100]? with
      | some x => x.read (off % 0x100)
      | none => 0)
  else if off < 0x7000 then s.fabric.read (off - 0x6000)
  else if off < 0x8000 then
    (match off - 0x7000 with
      | 0x00 => lo32 s.ilog.base ||| BitVec.ofNat 32 s.ilog.log2
      | 0x04 => hi32 s.ilog.base
      | 0x08 => s.ilog.idx
      | _ => 0)
  else if off < 0x9000 then
    (match s.chans[(off - 0x8000) / 0x40]? with
      | some c => (match off % 0x40 with
        | 0x08 => BitVec.ofNat 32 c.ctx
        | 0x10 => BitVec.ofNat 32 ((if c.busy then 2 ^ 31 else 0) + c.code.toNat)
        | 0x18 => lo32 c.frec
        | 0x1C => hi32 c.frec
        | _ => 0)
      | none => 0)
  else
    (match off - 0x9000 with
      | 0x00 => getHalf s.hpub.base hi
      | 0x04 => getHalf s.hpub.base hi
      | 0x08 => s.hpub.len
      | 0x10 => BitVec.ofNat 32 ((if s.hpub.err then 2 else 0) + (if s.hpub.busy then 1 else 0))
      | _ => 0)

/-- A host read of the window (R408, R434): its bytes; none is an HHL error response. -/
def State.hcwRead (s : State) (off width : Nat) : Option (List Byte) :=
  if !s.hcwAnswers off width then none
  else
    let low := bytesOf 4 (s.hcwRead4 off).toNat
    some (if width = 8 then low ++ bytesOf 4 (s.hcwRead4 (off + 4)).toNat else low)

/-- HOST_COPY_HEAD_WRITE (R411): the subject names the channel and the head pointer. -/
def execHostCopyHeadWrite (s : State) : Answer :=
  match s.subject with
  | .write h v => .next (if s.hostMay then s.startWalk h v else s)
  | _ => .next s

/-- HPUBLEN_WRITE (R412). -/
def execHpublenWrite (s : State) : Answer :=
  match s.subject with
  | .write _ v => .next (if s.hostMay then s.startPub (lo32 v) else s)
  | _ => .next s

/-- HOST_PUBLICATION (R412): the host's earlier code writes are complete as R409 has it. -/
def execHostPublication (s : State) : Answer :=
  .next (if s.hpub.busy ∧ s.hostReady then s.publishRange else s)

/-- TBSET (R418). -/
def execTbset (s : State) : Answer :=
  match s.subject with
  | .write _ v => .next (if s.hostMay then (s.setTime v).settle else s)
  | _ => .next s

/-- ILDROP_READ (R438): the count is cleared as it is read. -/
def execIldropRead (s : State) : Answer := .next { s with ilog := { s.ilog with drop := 0 } }

/-- TIME_SYNC_EXCHANGE (R416, R417): the subject gives the measured bound and the slew until the next exchange, at most
100 ppm of 100 µs. -/
def execTimeSyncExchange (s : State) : Answer :=
  match s.subject with
  | .sync x =>
    if s.power.state ≠ 2 ∨ !s.time.cfg.getLsbD 7 ∨ s.time.master then .next s
    else
      let slew : Int := max (-10) (min 10 x.slew)
      .next { s with time := { s.time with bound := min x.bound 0xFFFF, unsync := decide (20 < x.bound), met := true, slew := slew } }
  | _ => .next s

-- dead agents

/-- Changes what is recorded of an agent. -/
def State.updAgent (s : State) (d : Nat) (f : Agent → Agent) : State :=
  { s with fabric := { s.fabric with agents := modifyAt s.fabric.agents d f } }

/-- A stack after an agent's death (R424): lines it held modified carry the poison mark, it shares nothing, and no copy of its
memory stays. -/
def Stack.bury (x : Stack) (d : Nat) : Stack :=
  let lost := (x.sharers.filter fun h => h.agent == d && h.modified).map (·.line)
  { x with poison := lost ++ x.poison.filter (fun l => !lost.contains l), sharers := x.sharers.filter fun h => h.agent != d,
           peerLines := x.peerLines.filter fun p => p.dev != d }

/-- Applies R424 for a device and an incarnation, once. Requests that wait on it end with 0x18 as their data pass finds it
dead. -/
def State.bury (s : State) (d : Nat) (i : Byte) : State :=
  if 65 ≤ d || s.fabric.buried.contains (d, i) then s
  else
    let s := (List.range 8).foldl (fun (s : State) k => s.updStack k fun x => x.bury d) s
    let s := s.updAgent d fun a => { a with inc := (if a.inc.toNat ≤ i.toNat then i + 1 else a.inc), state := 3 }
    { s with fabric := { s.fabric with buried := (d, i) :: s.fabric.buried } }

/-- Whether an agent's heartbeats have been away for 3 ms (R423). -/
def State.heartLost (s : State) (d : Nat) : Bool :=
  let a := s.agent d
  s.power.state == 2 && (a.state == 1 || a.state == 2) && decide (3000000 ≤ (s.time.now - a.beat).toNat)

/-- Declares an agent dead, and sends DEAD (R423, R424). -/
def State.declare (s : State) (d : Nat) : State :=
  let i := (s.agent d).inc
  ({ s with fabric := { s.fabric with sent := .dead d i :: s.fabric.sent } }).bury d i

/-- A declaration that is due comes before what arrives from the agent in the same tick (R425). -/
def State.declareDue (s : State) (d : Nat) : State := if s.heartLost d then s.declare d else s

/-- DEAD (R424): the notice of a device and an incarnation arrives. -/
def execDead (s : State) : Answer :=
  match s.subject with
  | .unit2 d i => .next (if s.power.state = 2 then s.bury d (BitVec.ofNat 8 i) else s)
  | _ => .next s

/-- HEARTBEAT_DEAD (R423, R424): 3 ms after its last heartbeat the agent is declared dead, and DEAD is sent. -/
def execHeartbeatDead (s : State) : Answer :=
  match s.subject with
  | .unit d =>
    .next (s.declareDue d)
  | _ => .next s

/-- HEARTBEAT_SLOW (R423): 1.5 ms after its last heartbeat. -/
def execHeartbeatSlow (s : State) : Answer :=
  match s.subject with
  | .unit d =>
    let a := s.agent d
    if s.power.state ≠ 2 ∨ a.state ≠ 1 ∨ (s.time.now - a.beat).toNat < 1500000 then .next s
    else .next (s.updAgent d fun a => { a with state := 2 })
  | _ => .next s

/-- HEARTBEAT_RECEIVE (R423, R425): the subject gives the sender and the incarnation it carries. A declaration that is due comes
before it. -/
def execHeartbeatReceive (s : State) : Answer :=
  match s.subject with
  | .unit2 d i =>
    let s := s.declareDue d
    let a := s.agent d
    if s.power.state ≠ 2 ∨ a.inc ≠ BitVec.ofNat 8 i ∨ a.state = 3 then .next s
    else .next (s.updAgent d fun a => { a with state := 1, beat := s.time.now })
  | _ => .next s

/-- HEARTBEAT_SEND (R417, R423, R434): once in each whole millisecond, while the bound is at most 1,000 ns. -/
def execHeartbeatSend (s : State) : Answer :=
  .next (if s.power.state = 2 ∧ s.time.bound ≤ 1000 ∧ s.fabric.lastBeat.toNat / 1000000 < s.time.now.toNat / 1000000 then
    { s with fabric := { s.fabric with lastBeat := s.time.now } } else s)

/-- A replacement is taken in (R426): what the part before it held is not in its memory. -/
def State.welcome (s : State) (d : Nat) : State :=
  let s := s.updAgent d fun a => { a with state := 1, beat := s.time.now }
  { s with mem := { s.mem with peer := s.mem.peer.filter fun c => c.1 / 2 ^ 48 != d } }

/-- JOIN_NOTICE (R426): a lower recorded incarnation is buried first; a device that is not dead is refused. -/
def execJoinNotice (s : State) : Answer :=
  match s.subject with
  | .unit2 d i =>
    if s.power.state ≠ 2 ∨ 64 ≤ d then .next s
    else
      let s := if (s.agent d).inc.toNat < i % 256 then s.bury d (BitVec.ofNat 8 i - 1) else s
      let a := s.agent d
      .next (if a.inc = BitVec.ofNat 8 i ∧ a.state = 3 then s.welcome d else s)
  | _ => .next s

/-- STALE (R425): a notice for this part's own device number and incarnation stops its traffic, and with it all its work, at
once: it enters status-only mode. -/
def execStale (s : State) : Answer :=
  match s.subject with
  | .unit2 d i =>
    .next (if s.power.state = 2 ∧ d = s.fabric.dev ∧ BitVec.ofNat 8 i = s.fabric.inc then (s.enterStatus 0x21).settle else s)
  | _ => .next s

-- links

/-- LINK_ERROR (R407): the subject names a die-to-die link; its retraining begins. -/
def execLinkError (s : State) : Answer :=
  match s.subject with
  | .unit l =>
    .next (if s.power.state = 2 ∧ l < 6 then
      { s with fabric := { s.fabric with retrain := setN s.fabric.retrain l s.time.now } } else s)
  | _ => .next s

/-- LINK_RETRAIN_FAIL (R407): a link that has not been retrained within 1 ms stops the part. -/
def execLinkRetrainFail (s : State) : Answer :=
  match s.subject with
  | .unit l => match lookupN s.fabric.retrain l with
    | some t => .next (if s.power.state = 2 ∧ 1000000 ≤ (s.time.now - t).toNat then (s.stopPart 0x20).settle else s)
    | none => .next s
  | _ => .next s

-- accesses from outside

/-- What a peer's access needs to be admitted (R415): a far atomic is a write. -/
def accessAdmit : Access → Perm
  | .atomic .. => permWrite
  | a => accessPerm a

/-- Whether a peer's access is admitted (R415). -/
def Fabric.admits (f : Fabric) (d ia n : Nat) (p : Perm) : Bool :=
  let b := f.admitBase.getD d 0
  let l := f.admitLimit.getD d 0
  bit b 2 && (!p.rd || bit b 0) && (!p.w || bit b 1) && decide (fieldN b.toNat 47 16 ≤ ia / 2 ^ 16) &&
    decide ((ia + (n - 1)) / 2 ^ 16 ≤ fieldN l.toNat 47 16)

/-- A transaction whose incarnation is not the recorded one (R425): discarded and logged; an older sender is told, at most
once in a millisecond, by the port that the transaction came by: the host by an HHL error response. -/
def State.discard (s : State) (d : Nat) (inc : Byte) (port : Nat) : State :=
  let s := s.integrity d 3 0 inc.toNat port
  let note := (d, inc, s.time.now.toNat / 1000000)
  if inc.toNat < (s.agent d).inc.toNat && !s.fabric.staled.contains note then
    let s := { s with fabric := { s.fabric with staled := note :: s.fabric.staled } }
    if d = 64 then s.answer none else { s with fabric := { s.fabric with sent := .stale d inc port :: s.fabric.sent } }
  else s

/-- A flit that is not addressed to this part goes on by the route for its destination (R413); without one the request ends
with a fault. -/
def State.forward (s : State) (r : PeerRequest) : State :=
  let ports := s.fabric.routes.getD r.dst.toNat 0
  let note : Notice := if ports = 0 then .fault r.dev.toNat 0x11 else .forward r.dst.toNat r.dev.toNat r.ia.toNat ports
  { s with fabric := { s.fabric with sent := note :: s.fabric.sent } }

/-- A peer's request to this part (R414, R415, R425). -/
def State.peerRequest (s : State) (r : PeerRequest) : State :=
  let d := r.dev.toNat
  let s := s.declareDue d
  let a := s.agent d
  if a.inc ≠ r.inc then s.discard d r.inc r.port
  else if a.state = 3 then s
  else if !s.fabric.admits d r.ia.toNat (accessLen r.acc) (accessAdmit r.acc) then s.reply d none
  else s.outside d (BitVec.ofNat 12 (0x900 + d)) r.ia.toNat r.acc

/-- DAMASK_REQUEST (R413-R415, R425): an inbound request of a peer. -/
def execDamaskRequest (s : State) : Answer :=
  match s.subject with
  | .peer r =>
    if s.power.state ≠ 2 then .next s
    else if r.dst.toNat ≠ s.fabric.dev then .next (s.forward r)
    else .next (s.peerRequest r)
  | _ => .next s

/-- A transaction of the host with an incarnation (R425): what it does, where it is taken. -/
def State.hostTakes (s : State) (inc : Byte) (f : State → State) : State :=
  let s := s.declareDue 64
  let a := s.agent 64
  if a.inc ≠ inc then s.discard 64 inc 0xFF
  else f s

/-- HOST_DEVICE_MEMORY_ACCESS (R410, R411, R425, R434): an access of the host over HHL. -/
def execHostDeviceMemoryAccess (s : State) : Answer :=
  match s.subject with
  | .host r =>
    if s.power.state ≠ 2 then .next (s.answer none)
    else .next (s.hostTakes r.inc fun s => if (s.agent 64).state = 3 then s else s.outside 64 0x800 r.ia.toNat r.acc)
  | _ => .next s

/-- REGISTER_WRITE (R408, R425): the subject gives offset, width and value of a host write. -/
def execRegisterWrite (s : State) : Answer :=
  match s.subject with
  | .window off width v inc => .next (s.hostTakes inc fun s => s.hcwWrite off width v).settle
  | _ => .next s

/-- A host read of the window (R408, R425, R438): ILDROP is cleared as it is read. -/
def State.windowRead (s : State) (off width : Nat) (inc : Byte) : State :=
  s.hostTakes inc fun s =>
    let bs := s.hcwRead off width
    let s := s.answer bs
    if off = 0x20 ∧ bs.isSome then { s with ilog := { s.ilog with drop := 0 } } else s

end Sys2Proof.Machine
end

