-- ==== Sys2Proof/Machine/Pairs.lean ====
section
/-! DEFINITION. Pair words (R66, R67), and words that are no instruction (R77). -/
namespace Sys2Proof.Machine

/-- The operands of a slot's full-form equivalent (R66): TYPE, and D, A and B or the immediate. -/
def slotArith (x : PairSlot) : Arith :=
  let ty : Ty := match x.op with
    | .add | .sub | .minI32 | .maxI32 | .sar | .addi | .movi => .i32
    | .minN32 | .maxN32 => .n32
    | .and_ | .or_ | .xor_ | .shl | .shr | .mov => .b32
    | .fadd | .fsub | .fmul | .fmin | .fmax => .f32
    | .hadd2 | .hmul2 => .f16
  let k : BitVec 16 := x.args.imm.signExtend 16
  let im := pairImm x.op
  { d := x.args.d, a := x.args.d, b := if im then k.extractLsb' 8 8 else x.args.b, i := im, ra := false, rb := false,
    ty := ty, rm := .rne, fs := false, sub := 0, c := if im then k.extractLsb' 0 8 else 0 }

/-- A slot's effect on a lane whose slot guard passes (R66). -/
def Lane.slotOp (l : Lane) (s : PairSlot) : Lane :=
  let x := slotArith s
  match s.op with
  | .add | .addi => l.intOp [] x fun a b _ => a + b
  | .sub => l.intOp [] x fun a b _ => a - b
  | .minI32 | .minN32 => l.intOp [] x fun a b _ => min a b
  | .maxI32 | .maxN32 => l.intOp [] x fun a b _ => max a b
  | .and_ => l.bitOp x fun _ a b => a &&& b
  | .or_ => l.bitOp x fun _ a b => a ||| b
  | .xor_ => l.bitOp x fun _ a b => a ^^^ b
  | .shl => l.shiftOp x shiftLeft
  | .shr => l.shiftOp x shiftRight
  | .sar => l.sarOp x
  | .mov => l.setReg x.d.toNat (l.reg x.b.toNat)
  | .movi => l.setReg x.d.toNat ((immOf x).signExtend 32)
  | .fadd => l.floatOp [] x fun f a b _ => addF f .rne false a b
  | .fsub => l.floatOp [] x fun f a b _ => subF f .rne false a b
  | .fmul => l.floatOp [] x fun f a b _ => mulF f .rne false a b
  | .fmin => l.floatOp [] x fun f a b _ => minF f false a b
  | .fmax => l.floatOp [] x fun f a b _ => maxF f false a b
  | .hadd2 => l.halves x fun f a b _ => addF f .rne false a b
  | .hmul2 => l.halves x fun f a b _ => mulF f .rne false a b

/-- A slot in a lane: nothing where its guard fails. -/
def Lane.slotRun (l : Lane) (s : PairSlot) : Lane := if l.slotGuard s.args.pg then l.slotOp s else l

/-- Both slots in a lane (R67): each reads the lane as it was, the destinations differ, and the flags are merged. -/
def Lane.pairOp (l : Lane) (x y : PairSlot) : Lane :=
  let a := l.slotRun x
  let b := l.slotRun y
  let d := y.args.d.toNat
  (a.setReg d (b.reg d)).raise b.fpstat

/-- A pair word (R67). -/
def State.pairWord (s : State) (i : Instr) (sw : Bool) (x y : PairSlot) : Answer :=
  s.perLane i { plainHdr with sw := sw } fun _ l => l.pairOp x y

/-- PAIR_ADD (R66): a pair word whose slot 0 is `add`. -/
def execPairAdd (sw : Bool) (x : SlotArgs) (y : PairSlot) (s : State) : Answer :=
  s.pairWord (.pairAdd sw x y) sw { op := .add, args := x } y

/-- PAIR_SUB (R66): a pair word whose slot 0 is `sub`. -/
def execPairSub (sw : Bool) (x : SlotArgs) (y : PairSlot) (s : State) : Answer :=
  s.pairWord (.pairSub sw x y) sw { op := .sub, args := x } y

/-- PAIR_MIN_I32 (R66): a pair word whose slot 0 is `minI32`. -/
def execPairMinI32 (sw : Bool) (x : SlotArgs) (y : PairSlot) (s : State) : Answer :=
  s.pairWord (.pairMinI32 sw x y) sw { op := .minI32, args := x } y

/-- PAIR_MAX_I32 (R66): a pair word whose slot 0 is `maxI32`. -/
def execPairMaxI32 (sw : Bool) (x : SlotArgs) (y : PairSlot) (s : State) : Answer :=
  s.pairWord (.pairMaxI32 sw x y) sw { op := .maxI32, args := x } y

/-- PAIR_MIN_N32 (R66): a pair word whose slot 0 is `minN32`. -/
def execPairMinN32 (sw : Bool) (x : SlotArgs) (y : PairSlot) (s : State) : Answer :=
  s.pairWord (.pairMinN32 sw x y) sw { op := .minN32, args := x } y

/-- PAIR_MAX_N32 (R66): a pair word whose slot 0 is `maxN32`. -/
def execPairMaxN32 (sw : Bool) (x : SlotArgs) (y : PairSlot) (s : State) : Answer :=
  s.pairWord (.pairMaxN32 sw x y) sw { op := .maxN32, args := x } y

/-- PAIR_AND (R66): a pair word whose slot 0 is `and`. -/
def execPairAnd (sw : Bool) (x : SlotArgs) (y : PairSlot) (s : State) : Answer :=
  s.pairWord (.pairAnd sw x y) sw { op := .and_, args := x } y

/-- PAIR_OR (R66): a pair word whose slot 0 is `or`. -/
def execPairOr (sw : Bool) (x : SlotArgs) (y : PairSlot) (s : State) : Answer :=
  s.pairWord (.pairOr sw x y) sw { op := .or_, args := x } y

/-- PAIR_XOR (R66): a pair word whose slot 0 is `xor`. -/
def execPairXor (sw : Bool) (x : SlotArgs) (y : PairSlot) (s : State) : Answer :=
  s.pairWord (.pairXor sw x y) sw { op := .xor_, args := x } y

/-- PAIR_SHL (R66): a pair word whose slot 0 is `shl`. -/
def execPairShl (sw : Bool) (x : SlotArgs) (y : PairSlot) (s : State) : Answer :=
  s.pairWord (.pairShl sw x y) sw { op := .shl, args := x } y

/-- PAIR_SHR (R66): a pair word whose slot 0 is `shr`. -/
def execPairShr (sw : Bool) (x : SlotArgs) (y : PairSlot) (s : State) : Answer :=
  s.pairWord (.pairShr sw x y) sw { op := .shr, args := x } y

/-- PAIR_SAR (R66): a pair word whose slot 0 is `sar`. -/
def execPairSar (sw : Bool) (x : SlotArgs) (y : PairSlot) (s : State) : Answer :=
  s.pairWord (.pairSar sw x y) sw { op := .sar, args := x } y

/-- PAIR_MOV (R66): a pair word whose slot 0 is `mov`. -/
def execPairMov (sw : Bool) (x : SlotArgs) (y : PairSlot) (s : State) : Answer :=
  s.pairWord (.pairMov sw x y) sw { op := .mov, args := x } y

/-- PAIR_MOVI (R66): a pair word whose slot 0 is `movi`. -/
def execPairMovi (sw : Bool) (x : SlotArgs) (y : PairSlot) (s : State) : Answer :=
  s.pairWord (.pairMovi sw x y) sw { op := .movi, args := x } y

/-- PAIR_FADD (R66): a pair word whose slot 0 is `fadd`. -/
def execPairFadd (sw : Bool) (x : SlotArgs) (y : PairSlot) (s : State) : Answer :=
  s.pairWord (.pairFadd sw x y) sw { op := .fadd, args := x } y

/-- PAIR_FSUB (R66): a pair word whose slot 0 is `fsub`. -/
def execPairFsub (sw : Bool) (x : SlotArgs) (y : PairSlot) (s : State) : Answer :=
  s.pairWord (.pairFsub sw x y) sw { op := .fsub, args := x } y

/-- PAIR_FMUL (R66): a pair word whose slot 0 is `fmul`. -/
def execPairFmul (sw : Bool) (x : SlotArgs) (y : PairSlot) (s : State) : Answer :=
  s.pairWord (.pairFmul sw x y) sw { op := .fmul, args := x } y

/-- PAIR_FMIN (R66): a pair word whose slot 0 is `fmin`. -/
def execPairFmin (sw : Bool) (x : SlotArgs) (y : PairSlot) (s : State) : Answer :=
  s.pairWord (.pairFmin sw x y) sw { op := .fmin, args := x } y

/-- PAIR_FMAX (R66): a pair word whose slot 0 is `fmax`. -/
def execPairFmax (sw : Bool) (x : SlotArgs) (y : PairSlot) (s : State) : Answer :=
  s.pairWord (.pairFmax sw x y) sw { op := .fmax, args := x } y

/-- PAIR_HADD2 (R66): a pair word whose slot 0 is `hadd2`. -/
def execPairHadd2 (sw : Bool) (x : SlotArgs) (y : PairSlot) (s : State) : Answer :=
  s.pairWord (.pairHadd2 sw x y) sw { op := .hadd2, args := x } y

/-- PAIR_HMUL2 (R66): a pair word whose slot 0 is `hmul2`. -/
def execPairHmul2 (sw : Bool) (x : SlotArgs) (y : PairSlot) (s : State) : Answer :=
  s.pairWord (.pairHmul2 sw x y) sw { op := .hmul2, args := x } y

/-- PAIR_ADDI (R66): a pair word whose slot 0 is `addi`. -/
def execPairAddi (sw : Bool) (x : SlotArgs) (y : PairSlot) (s : State) : Answer :=
  s.pairWord (.pairAddi sw x y) sw { op := .addi, args := x } y

/-- ILLEGAL_INSTRUCTION (R77 steps 1 and 2): the word is no instruction, and every live lane of the bundle takes trap
0x01. -/
def execIllegalInstruction (_w : W64) (s : State) : Answer :=
  match s.subject with
  | .bundle b =>
    match s.bun? plainHdr b with
    | some u => .next (s.trapLanes u (trapAll u.slots (trapAt 0x01 u.pc)))
    | none => .fault .noBundle
  | _ => .fault .noBundle

end Sys2Proof.Machine
end

