-- ==== Sys2Proof/Machine/Dispatch.lean ====
section
/-! DEFINITION. What each instruction does: one arm per row of the opcode table. -/
namespace Sys2Proof.Machine

/-- The meaning of one instruction. -/
def exec (i : Instr) (s : State) : Host.Outcome State Fault Refusal :=
  match i with
  | .add h x => Sys2Proof.Machine.execAdd h x s
  | .sub h x => Sys2Proof.Machine.execSub h x s
  | .addc h x => Sys2Proof.Machine.execAddc h x s
  | .subb h x => Sys2Proof.Machine.execSubb h x s
  | .mul h x => Sys2Proof.Machine.execMul h x s
  | .mulh h x => Sys2Proof.Machine.execMulh h x s
  | .mad h x => Sys2Proof.Machine.execMad h x s
  | .madw h x => Sys2Proof.Machine.execMadw h x s
  | .div_ h x => Sys2Proof.Machine.execDiv h x s
  | .rem_ h x => Sys2Proof.Machine.execRem h x s
  | .min_ h x => Sys2Proof.Machine.execMin h x s
  | .max_ h x => Sys2Proof.Machine.execMax h x s
  | .abs h x => Sys2Proof.Machine.execAbs h x s
  | .neg h x => Sys2Proof.Machine.execNeg h x s
  | .adds h x => Sys2Proof.Machine.execAdds h x s
  | .subs h x => Sys2Proof.Machine.execSubs h x s
  | .clamp h x => Sys2Proof.Machine.execClamp h x s
  | .lea h x => Sys2Proof.Machine.execLea h x s
  | .cmp h x => Sys2Proof.Machine.execCmp h x s
  | .sel h x => Sys2Proof.Machine.execSel h x s
  | .movi h d k => Sys2Proof.Machine.execMovi h d k s
  | .movh h d k => Sys2Proof.Machine.execMovh h d k s
  | .dp4 h x => Sys2Proof.Machine.execDp4 h x s
  | .and_ h x => Sys2Proof.Machine.execAnd h x s
  | .or_ h x => Sys2Proof.Machine.execOr h x s
  | .xor_ h x => Sys2Proof.Machine.execXor h x s
  | .andn h x => Sys2Proof.Machine.execAndn h x s
  | .not_ h x => Sys2Proof.Machine.execNot h x s
  | .shl h x => Sys2Proof.Machine.execShl h x s
  | .shr h x => Sys2Proof.Machine.execShr h x s
  | .sar h x => Sys2Proof.Machine.execSar h x s
  | .rotl h x => Sys2Proof.Machine.execRotl h x s
  | .bfx h x => Sys2Proof.Machine.execBfx h x s
  | .bfi h x => Sys2Proof.Machine.execBfi h x s
  | .popc h x => Sys2Proof.Machine.execPopc h x s
  | .clz h x => Sys2Proof.Machine.execClz h x s
  | .ctz h x => Sys2Proof.Machine.execCtz h x s
  | .brev h x => Sys2Proof.Machine.execBrev h x s
  | .prmt h x => Sys2Proof.Machine.execPrmt h x s
  | .lop3 h x => Sys2Proof.Machine.execLop3 h x s
  | .fadd h x => Sys2Proof.Machine.execFadd h x s
  | .fsub h x => Sys2Proof.Machine.execFsub h x s
  | .fmul h x => Sys2Proof.Machine.execFmul h x s
  | .ffma h x => Sys2Proof.Machine.execFfma h x s
  | .fmin h x => Sys2Proof.Machine.execFmin h x s
  | .fmax h x => Sys2Proof.Machine.execFmax h x s
  | .fcmp h x => Sys2Proof.Machine.execFcmp h x s
  | .fclass h x => Sys2Proof.Machine.execFclass h x s
  | .hfma2 h x => Sys2Proof.Machine.execHfma2 h x s
  | .hadd2 h x => Sys2Proof.Machine.execHadd2 h x s
  | .hmul2 h x => Sys2Proof.Machine.execHmul2 h x s
  | .hdot2 h x => Sys2Proof.Machine.execHdot2 h x s
  | .fmed3 h x => Sys2Proof.Machine.execFmed3 h x s
  | .frcp h x => Sys2Proof.Machine.execFrcp h x s
  | .frsq h x => Sys2Proof.Machine.execFrsq h x s
  | .fsqrt h x => Sys2Proof.Machine.execFsqrt h x s
  | .fdiv h x => Sys2Proof.Machine.execFdiv h x s
  | .fex2 h x => Sys2Proof.Machine.execFex2 h x s
  | .flg2 h x => Sys2Proof.Machine.execFlg2 h x s
  | .fsin h x => Sys2Proof.Machine.execFsin h x s
  | .fcos h x => Sys2Proof.Machine.execFcos h x s
  | .dadd h x => Sys2Proof.Machine.execDadd h x s
  | .dmul h x => Sys2Proof.Machine.execDmul h x s
  | .dfma h x => Sys2Proof.Machine.execDfma h x s
  | .dcmp h x => Sys2Proof.Machine.execDcmp h x s
  | .cvt h x => Sys2Proof.Machine.execCvt h x s
  | .frnd h x => Sys2Proof.Machine.execFrnd h x s
  | .packH h x => Sys2Proof.Machine.execPackH h x s
  | .packW h x => Sys2Proof.Machine.execPackW h x s
  | .unpk h x => Sys2Proof.Machine.execUnpk h x s
  | .mov h x => Sys2Proof.Machine.execMov h x s
  | .movImm h x => Sys2Proof.Machine.execMovImm h x s
  | .pset h x => Sys2Proof.Machine.execPset h x s
  | .psetAll h x => Sys2Proof.Machine.execPsetAll h x s
  | .pget h x => Sys2Proof.Machine.execPget h x s
  | .pgetAll h x => Sys2Proof.Machine.execPgetAll h x s
  | .pand h x => Sys2Proof.Machine.execPand h x s
  | .por h x => Sys2Proof.Machine.execPor h x s
  | .pxor h x => Sys2Proof.Machine.execPxor h x s
  | .pnot h x => Sys2Proof.Machine.execPnot h x s
  | .rdsr h x => Sys2Proof.Machine.execRdsr h x s
  | .wrsr h x => Sys2Proof.Machine.execWrsr h x s
  | .vwset h x => Sys2Proof.Machine.execVwset h x s
  | .nop h x => Sys2Proof.Machine.execNop h x s
  | .bra h x => Sys2Proof.Machine.execBra h x s
  | .brx h x => Sys2Proof.Machine.execBrx h x s
  | .call h x => Sys2Proof.Machine.execCall h x s
  | .callx h x => Sys2Proof.Machine.execCallx h x s
  | .ret h x => Sys2Proof.Machine.execRet h x s
  | .loop h x => Sys2Proof.Machine.execLoop h x s
  | .loopImm h x => Sys2Proof.Machine.execLoopImm h x s
  | .loopPop h x => Sys2Proof.Machine.execLoopPop h x s
  | .exit h x => Sys2Proof.Machine.execExit h x s
  | .yield h x => Sys2Proof.Machine.execYield h x s
  | .sleep h x => Sys2Proof.Machine.execSleep h x s
  | .sleepUntil h x => Sys2Proof.Machine.execSleepUntil h x s
  | .trap h x => Sys2Proof.Machine.execTrap h x s
  | .prio h x => Sys2Proof.Machine.execPrio h x s
  | .qswap h x => Sys2Proof.Machine.execQswap h x s
  | .qdd h x => Sys2Proof.Machine.execQdd h x s
  | .hlpOff h x => Sys2Proof.Machine.execHlpOff h x s
  | .hlpOn h x => Sys2Proof.Machine.execHlpOn h x s
  | .hlpIs h x => Sys2Proof.Machine.execHlpIs h x s
  | .shfl h x => Sys2Proof.Machine.execShfl h x s
  | .vote h x => Sys2Proof.Machine.execVote h x s
  | .voteBallot h x => Sys2Proof.Machine.execVoteBallot h x s
  | .match_ h x => Sys2Proof.Machine.execMatch h x s
  | .compact h x => Sys2Proof.Machine.execCompact h x s
  | .reform h x => Sys2Proof.Machine.execReform h x s
  | .sign h x => Sys2Proof.Machine.execSign h x s
  | .join_ h x => Sys2Proof.Machine.execJoin h x s
  | .cvset h x => Sys2Proof.Machine.execCvset h x s
  | .bar h x => Sys2Proof.Machine.execBar h x s
  | .gbar h x => Sys2Proof.Machine.execGbar h x s
  | .spawn h x => Sys2Proof.Machine.execSpawn h x s
  | .launch h x => Sys2Proof.Machine.execLaunch h x s
  | .redux h x => Sys2Proof.Machine.execRedux h x s
  | .mma h x => Sys2Proof.Machine.execMma h x s
  | .mmaq h x => Sys2Proof.Machine.execMmaq h x s
  | .tzero h x => Sys2Proof.Machine.execTzero h x s
  | .tfill h x => Sys2Proof.Machine.execTfill h x s
  | .tmov h x => Sys2Proof.Machine.execTmov h x s
  | .tld h x => Sys2Proof.Machine.execTld h x s
  | .tst h x => Sys2Proof.Machine.execTst h x s
  | .tstat h x => Sys2Proof.Machine.execTstat h x s
  | .qnt h x => Sys2Proof.Machine.execQnt h x s
  | .olset h x => Sys2Proof.Machine.execOlset h x s
  | .olcnt h x => Sys2Proof.Machine.execOlcnt h x s
  | .dqnt h x => Sys2Proof.Machine.execDqnt h x s
  | .ld h x => Sys2Proof.Machine.execLd h x s
  | .st h x => Sys2Proof.Machine.execSt h x s
  | .gath h x => Sys2Proof.Machine.execGath h x s
  | .scat h x => Sys2Proof.Machine.execScat h x s
  | .atom h x => Sys2Proof.Machine.execAtom h x s
  | .atomc h x => Sys2Proof.Machine.execAtomc h x s
  | .pchk h x => Sys2Proof.Machine.execPchk h x s
  | .mon h x => Sys2Proof.Machine.execMon h x s
  | .mwait h x => Sys2Proof.Machine.execMwait h x s
  | .mwaitTimeout h x => Sys2Proof.Machine.execMwaitTimeout h x s
  | .cpyin h x => Sys2Proof.Machine.execCpyin h x s
  | .cpyout h x => Sys2Proof.Machine.execCpyout h x s
  | .cpyg h x => Sys2Proof.Machine.execCpyg h x s
  | .cpys h x => Sys2Proof.Machine.execCpys h x s
  | .fatom h x => Sys2Proof.Machine.execFatom h x s
  | .fatomNr h x => Sys2Proof.Machine.execFatomNr h x s
  | .fcas h x => Sys2Proof.Machine.execFcas h x s
  | .fence h x => Sys2Proof.Machine.execFence h x s
  | .publ h x => Sys2Proof.Machine.execPubl h x s
  | .mhint h x => Sys2Proof.Machine.execMhint h x s
  | .mcast h x => Sys2Proof.Machine.execMcast h x s
  | .bclose h x => Sys2Proof.Machine.execBclose h x s
  | .waitb h x => Sys2Proof.Machine.execWaitb h x s
  | .qfence h x => Sys2Proof.Machine.execQfence h x s
  | .chain h x => Sys2Proof.Machine.execChain h x s
  | .decod h x => Sys2Proof.Machine.execDecod h x s
  | .dtab h x => Sys2Proof.Machine.execDtab h x s
  | .sgo h x => Sys2Proof.Machine.execSgo h x s
  | .qpop h x => Sys2Proof.Machine.execQpop h x s
  | .qstat h x => Sys2Proof.Machine.execQstat h x s
  | .qstatCq h x => Sys2Proof.Machine.execQstatCq h x s
  | .apush h x => Sys2Proof.Machine.execApush h x s
  | .aseg h x => Sys2Proof.Machine.execAseg h x s
  | .ray h x => Sys2Proof.Machine.execRay h x s
  | .trhold h x => Sys2Proof.Machine.execTrhold h x s
  | .trswap h x => Sys2Proof.Machine.execTrswap h x s
  | .trstat h x => Sys2Proof.Machine.execTrstat h x s
  | .filt h x => Sys2Proof.Machine.execFilt h x s
  | .hgrid h x => Sys2Proof.Machine.execHgrid h x s
  | .bank h x => Sys2Proof.Machine.execBank h x s
  | .rfe h x => Sys2Proof.Machine.execRfe h x s
  | .csave h x => Sys2Proof.Machine.execCsave h x s
  | .crest h x => Sys2Proof.Machine.execCrest h x s
  | .tlbinv h x => Sys2Proof.Machine.execTlbinv h x s
  | .replay h x => Sys2Proof.Machine.execReplay h x s
  | .xinj h x => Sys2Proof.Machine.execXinj h x s
  | .elog h x => Sys2Proof.Machine.execElog h x s
  | .elogClr h x => Sys2Proof.Machine.execElogClr h x s
  | .halt h x => Sys2Proof.Machine.execHalt h x s
  | .pairAdd sw x y => Sys2Proof.Machine.execPairAdd sw x y s
  | .pairSub sw x y => Sys2Proof.Machine.execPairSub sw x y s
  | .pairMinI32 sw x y => Sys2Proof.Machine.execPairMinI32 sw x y s
  | .pairMaxI32 sw x y => Sys2Proof.Machine.execPairMaxI32 sw x y s
  | .pairMinN32 sw x y => Sys2Proof.Machine.execPairMinN32 sw x y s
  | .pairMaxN32 sw x y => Sys2Proof.Machine.execPairMaxN32 sw x y s
  | .pairAnd sw x y => Sys2Proof.Machine.execPairAnd sw x y s
  | .pairOr sw x y => Sys2Proof.Machine.execPairOr sw x y s
  | .pairXor sw x y => Sys2Proof.Machine.execPairXor sw x y s
  | .pairShl sw x y => Sys2Proof.Machine.execPairShl sw x y s
  | .pairShr sw x y => Sys2Proof.Machine.execPairShr sw x y s
  | .pairSar sw x y => Sys2Proof.Machine.execPairSar sw x y s
  | .pairMov sw x y => Sys2Proof.Machine.execPairMov sw x y s
  | .pairMovi sw x y => Sys2Proof.Machine.execPairMovi sw x y s
  | .pairFadd sw x y => Sys2Proof.Machine.execPairFadd sw x y s
  | .pairFsub sw x y => Sys2Proof.Machine.execPairFsub sw x y s
  | .pairFmul sw x y => Sys2Proof.Machine.execPairFmul sw x y s
  | .pairFmin sw x y => Sys2Proof.Machine.execPairFmin sw x y s
  | .pairFmax sw x y => Sys2Proof.Machine.execPairFmax sw x y s
  | .pairHadd2 sw x y => Sys2Proof.Machine.execPairHadd2 sw x y s
  | .pairHmul2 sw x y => Sys2Proof.Machine.execPairHmul2 sw x y s
  | .pairAddi sw x y => Sys2Proof.Machine.execPairAddi sw x y s
  | .illegalInstruction w => Sys2Proof.Machine.execIllegalInstruction w s
  | .runEndCommit => Sys2Proof.Machine.execRunEndCommit s
  | .spinDemotionExpiry => Sys2Proof.Machine.execSpinDemotionExpiry s
  | .yieldWindowExpiry => Sys2Proof.Machine.execYieldWindowExpiry s
  | .sleepWake => Sys2Proof.Machine.execSleepWake s
  | .mwaitWake => Sys2Proof.Machine.execMwaitWake s
  | .mwaitDeadline => Sys2Proof.Machine.execMwaitDeadline s
  | .regroupTimeout => Sys2Proof.Machine.execRegroupTimeout s
  | .lqTailWrite => Sys2Proof.Machine.execLqTailWrite s
  | .lqCfgWrite => Sys2Proof.Machine.execLqCfgWrite s
  | .lqErrSkip => Sys2Proof.Machine.execLqErrSkip s
  | .lqErrResume => Sys2Proof.Machine.execLqErrResume s
  | .launchRecordConsume => Sys2Proof.Machine.execLaunchRecordConsume s
  | .validRetry => Sys2Proof.Machine.execValidRetry s
  | .dependenceReread => Sys2Proof.Machine.execDependenceReread s
  | .gangPlacement => Sys2Proof.Machine.execGangPlacement s
  | .placementStarvation => Sys2Proof.Machine.execPlacementStarvation s
  | .teamResourcesFree => Sys2Proof.Machine.execTeamResourcesFree s
  | .launchCompletion => Sys2Proof.Machine.execLaunchCompletion s
  | .taskTeamForm => Sys2Proof.Machine.execTaskTeamForm s
  | .linePresent => Sys2Proof.Machine.execLinePresent s
  | .copyProbePass => Sys2Proof.Machine.execCopyProbePass s
  | .copyDataPass => Sys2Proof.Machine.execCopyDataPass s
  | .stampWrite => Sys2Proof.Machine.execStampWrite s
  | .chainRecord => Sys2Proof.Machine.execChainRecord s
  | .decodeRun => Sys2Proof.Machine.execDecodeRun s
  | .mcastSliceDeliver => Sys2Proof.Machine.execMcastSliceDeliver s
  | .farAtomicPerform => Sys2Proof.Machine.execFarAtomicPerform s
  | .pendingWritePerform => Sys2Proof.Machine.execPendingWritePerform s
  | .leaseExpiry => Sys2Proof.Machine.execLeaseExpiry s
  | .matrixOperationPerform => Sys2Proof.Machine.execMatrixOperationPerform s
  | .qntAppendWrite => Sys2Proof.Machine.execQntAppendWrite s
  | .tldPerform => Sys2Proof.Machine.execTldPerform s
  | .tstPerform => Sys2Proof.Machine.execTstPerform s
  | .sergeWord => Sys2Proof.Machine.execSergeWord s
  | .sergeUnitArrive => Sys2Proof.Machine.execSergeUnitArrive s
  | .rayTraverseBatch => Sys2Proof.Machine.execRayTraverseBatch s
  | .rayTimeout => Sys2Proof.Machine.execRayTimeout s
  | .trholdDrained => Sys2Proof.Machine.execTrholdDrained s
  | .filtResult => Sys2Proof.Machine.execFiltResult s
  | .hgridResult => Sys2Proof.Machine.execHgridResult s
  | .calicoProgramCheck => Sys2Proof.Machine.execCalicoProgramCheck s
  | .calicoBundle => Sys2Proof.Machine.execCalicoBundle s
  | .calicoColumnArrive => Sys2Proof.Machine.execCalicoColumnArrive s
  | .replayableSaveTimeout => Sys2Proof.Machine.execReplayableSaveTimeout s
  | .teamSave => Sys2Proof.Machine.execTeamSave s
  | .csaveStamp => Sys2Proof.Machine.execCsaveStamp s
  | .teamRestore => Sys2Proof.Machine.execTeamRestore s
  | .faultCollectorForward => Sys2Proof.Machine.execFaultCollectorForward s
  | .fbackWrite => Sys2Proof.Machine.execFbackWrite s
  | .fbstatWrite => Sys2Proof.Machine.execFbstatWrite s
  | .ctxinvWrite => Sys2Proof.Machine.execCtxinvWrite s
  | .ctxbaseWrite => Sys2Proof.Machine.execCtxbaseWrite s
  | .stkstatWrite => Sys2Proof.Machine.execStkstatWrite s
  | .felttailWrite => Sys2Proof.Machine.execFelttailWrite s
  | .feltIn => Sys2Proof.Machine.execFeltIn s
  | .feltOut => Sys2Proof.Machine.execFeltOut s
  | .feltCkpt => Sys2Proof.Machine.execFeltCkpt s
  | .feltRestore => Sys2Proof.Machine.execFeltRestore s
  | .registerWrite => Sys2Proof.Machine.execRegisterWrite s
  | .hostCopyHeadWrite => Sys2Proof.Machine.execHostCopyHeadWrite s
  | .hpublenWrite => Sys2Proof.Machine.execHpublenWrite s
  | .hostPublication => Sys2Proof.Machine.execHostPublication s
  | .tbset => Sys2Proof.Machine.execTbset s
  | .timeSyncExchange => Sys2Proof.Machine.execTimeSyncExchange s
  | .damaskRequest => Sys2Proof.Machine.execDamaskRequest s
  | .stale => Sys2Proof.Machine.execStale s
  | .heartbeatSend => Sys2Proof.Machine.execHeartbeatSend s
  | .heartbeatSlow => Sys2Proof.Machine.execHeartbeatSlow s
  | .heartbeatDead => Sys2Proof.Machine.execHeartbeatDead s
  | .dead => Sys2Proof.Machine.execDead s
  | .joinNotice => Sys2Proof.Machine.execJoinNotice s
  | .linkRetrainFail => Sys2Proof.Machine.execLinkRetrainFail s
  | .ildropRead => Sys2Proof.Machine.execIldropRead s
  | .outputEnable => Sys2Proof.Machine.execOutputEnable s
  | .poseseqWrite => Sys2Proof.Machine.execPoseseqWrite s
  | .presentWordRead => Sys2Proof.Machine.execPresentWordRead s
  | .frameScanStart => Sys2Proof.Machine.execFrameScanStart s
  | .powerOn => Sys2Proof.Machine.execPowerOn s
  | .coldStart => Sys2Proof.Machine.execColdStart s
  | .warmStart => Sys2Proof.Machine.execWarmStart s
  | .autoRestart => Sys2Proof.Machine.execAutoRestart s
  | .thermalThrottle => Sys2Proof.Machine.execThermalThrottle s
  | .thermalRecover => Sys2Proof.Machine.execThermalRecover s
  | .thermalShutdown => Sys2Proof.Machine.execThermalShutdown s
  | .variableLatencyResultReturn => Sys2Proof.Machine.execVariableLatencyResultReturn s
  | .hostDeviceMemoryAccess => Sys2Proof.Machine.execHostDeviceMemoryAccess s
  | .heartbeatReceive => Sys2Proof.Machine.execHeartbeatReceive s
  | .linkError => Sys2Proof.Machine.execLinkError s

end Sys2Proof.Machine
end

