-- ==== Sys2Proof/Machine/Schedule.lean ====
section
/-! DEFINITION. What a step of the part is: a word issued by a frontier entry (R143), an event, or what a memory array does
of itself; and the moves the part makes when none is asked for. -/
namespace Sys2Proof.Machine

/-- How a word or event is executed: the part's meaning of its instructions. -/
abbrev Exec := Instr → State → Host.Outcome State Fault Refusal

/-- An entry issues its next word: fetch, then the meaning of what the word decodes to (R125). An entry that does not
issue changes nothing. -/
def State.issue (run : Exec) (s : State) (b : BundleId) : Host.Outcome State Fault Refusal :=
  match s.bun? plainHdr b with
  | none => .next s
  | some u =>
    match s.fetch u with
    | (s, .word w) => run (decode w) { s with subject := .bundle b }
    | (s, .trap t) => .next (s.trapLanes u (trapAll u.slots t))
    | (s, .park w) => .next (s.parkWord u w)

/-- An operation whose queue entry is uncorrectable as it is read (R358). -/
def State.opEntryBad (s : State) (o : EngOp) : State :=
  if o.phase != .issued then s
  else match o.kind with
    | .far _ wide _ _ _ _ ret => s.farEnd o wide ret 0 0 (some (0x18, 0, 0))
    | .chain p .. => s.chainFault o p 0x18 0
    | .mcast .. => s.updOp o.num fun o => o.failedSlice 0x18 0 0
    | _ => (s.failOp o 0x18 0 0).settle

/-- A unit command whose queue entry is uncorrectable (R358). -/
def State.unitEntryBad (s : State) (num : Nat) : State :=
  let s := match s.rays.find? fun r => r.cmd.num == num with
    | some r => ((s.endRay r (r.errResult 0x18 false) 0x18 0).unspillAll).settle
    | none => s
  let s := match s.tcmds.find? fun x => x.cmd.num == num with
    | some x =>
      let s := { s with tcmds := s.tcmds.filter fun y => y.cmd.num != num }
      let s := if x.swap.isNone then s.failHold x else s
      (s.treeFail x.cmd 0 { code := 0x18, sel := 0 }).settle
    | none => s
  let s := match s.gauze.find? fun g => g.cmd.num == num with
    | some g =>
      let (bs, s) := if g.hash then ([], s) else s.freeBytes 8
      s.endGauze g (gauzeFail bs { code := 0x18, sel := 0 })
    | none => s
  match s.calico.find? fun c => c.cmd.num == num with
  | some c => s.endCalico c (some 0x18) 0
  | none => s

/-- A position of a stream queue that is uncorrectable (R358): its unit arrives with the fault. -/
def StreamQueue.spoil (x : StreamQueue) (i : Nat) : StreamQueue :=
  let bad : TrapInfo := { code := 0x18, info0 := 0, info1 := 0, opc := 0, rpt := false, multi := false }
  match x.items[i]? with
  | some (.flight _) | some (.unit _) => { x with items := x.items.set i (.fault bad) }
  | _ => x

/-- An uncorrectable error in an entry of a queue (R358). -/
def State.queueError (s : State) : Subject → State
  | .unit num => match s.op? num with
    | some o => s.opEntryBad o
    | none => s.unitEntryBad num
  | .unit2 c n => match s.serges.find? fun z => z.cluster == c && z.unit == n with
    | some z => s.endSerge z (some (0x18, 0, 0))
    | none => s
  | .unit3 core q i => (s.updStream core q fun x => x.spoil i).pops core q |>.settle
  | _ => s

/-- What happens of itself, or is asked for. DESIGN CHOICE (notes/assumptions/55). -/
def State.act (run : Exec) (s : State) : Act → Host.Outcome State Fault Refusal
  | .issue b => s.issue run b
  | .event i x => if isEvent i then run i { s with subject := x } else .next s
  | .evict k line =>
    let s := s.writeBack k line
    .next (s.dropClean k line)
  | .evictPeer k d line => .next (s.updStack k fun x =>
      { x with peerLines := x.peerLines.filter fun p => !(p.dev == d && p.line == line) })
  | .dropTlb k page => .next (s.updStack k fun x => x.tlbDrop fun e => e.page == page)
  | .dropWalks k => .next (s.updStack k fun x => { x with walks := [] })
  | .dropUnit k line => .next (s.dropUnitLine k line)
  | .upset k line =>
    let v := ~~~(crc32c (s.mem.home.read (devKey k (line * 128)) 128))
    .next (s.updStack k fun x => { x with checks := setN x.checks line v })
  | .flip f => .next (s.addFlips f.kind f.unit f.addr f.bits)
  | .queueError x => .next (s.queueError x)
  | .hostRead off width inc => .next (s.windowRead off width inc).settle
  | .hostUnit n refuses =>
    let others := s.mem.hostErr.filter (· != n)
    .next { s with mem := { s.mem with hostErr := if refuses then n :: others else others } }
  | .wait => .next s

/-- What the passing of time brings about: held writes whose leases are over are performed (R273), the releases of the part's
own writes end (R192, R357, R400), and a part that stops goes on with it (R378). -/
def State.elapse (s : State) (ticks clocks : Nat) : State :=
  ((((s.pass ticks clocks).performDue).retryOutside.countEntries.fillsOver.offersOver).settle).tryStop

/-- One move: time passes, and what that brings about happens; then the move's act. -/
def State.move (run : Exec) (s : State) (m : Move) : Host.Outcome State Fault Refusal :=
  if m.ticks = 0 ∧ m.clocks = 0 then s.act run m.act else (s.elapse m.ticks m.clocks).act run m.act

-- declarations

/-- The device that a transaction comes from (R425). -/
def Act.sender : Act → Option Nat
  | .event _ (.peer r) => some r.dev.toNat
  | .event _ (.host _) | .event _ (.window ..) | .hostRead .. => some 64
  | .event .heartbeatReceive (.unit2 d _) => some d
  | _ => none

/-- The device that a declaration is about. -/
def Act.declares : Act → Option Nat
  | .event .dead (.unit2 d _) => some d
  | .event .heartbeatDead (.unit d) => some d
  | _ => none

/-- A declaration about a device among the moves of the same tick, and the moves without it. -/
def takeDeclaration (d : Nat) : List Move → Option (Act × List Move)
  | [] => none
  | m :: rest =>
    if m.ticks ≠ 0 then none
    else if m.act.declares = some d then some (m.act, { m with act := .wait } :: rest)
    else (takeDeclaration d rest).map fun p => (p.1, m :: p.2)

/-- The moves with a declaration before a transaction of the same tick from the same device (R425). -/
def declaredFirst : List Move → List Move
  | [] => []
  | m :: rest => match m.act.sender with
    | none => m :: rest
    | some d => match takeDeclaration d rest with
      | none => m :: rest
      | some (x, others) => { m with act := x } :: { ticks := 0, clocks := 0, act := m.act } :: others

-- events that are due

/-- The events that may be due for a frontier entry. -/
def entryEvents (b : BundleId) (results : Nat) (e : Entry) : List (Instr × Subject) :=
  let wake : List (Instr × Subject) := match e.wake with
    | some .results => [(.runEndCommit, .bundle b)]
    | some (.sleep _) => [(.sleepWake, .bundle b)]
    | some (.mwait _) => [(.mwaitWake, .bundle b), (.mwaitDeadline, .bundle b)]
    | _ => []
  ((List.range results).map fun i => (.variableLatencyResultReturn, .result b i)) ++ wake ++
    [(.spinDemotionExpiry, .bundle b)]

/-- The events that may be due for a resident or saved team. -/
def State.teamEvents (s : State) (t : Team) : List (Instr × Subject) :=
  let entries := t.groups.zipIdx.flatMap fun (g, gi) => g.entries.flatMap fun e =>
    match (slotsOf e.mask).head? with
    | some i =>
      let nums := ((slotsOf e.mask).flatMap fun j => (g.lane j).results.map (·.num)).eraseDups
      entryEvents { team := t.id, group := gi, slot := i } nums.length e
    | none => []
  let tiles := (List.range t.ntiles).flatMap fun n =>
    [(Instr.matrixOperationPerform, Subject.unit2 t.id n), (.tldPerform, .unit2 t.id n), (.tstPerform, .unit2 t.id n)]
  let lines := t.local_.lines.flatMap fun l =>
    [(Instr.leaseExpiry, Subject.line (.shared t.id l.line)), (.linePresent, .line (.shared t.id l.line))]
  let stamps := (List.range 8).map fun n => (Instr.stampWrite, Subject.unit2 t.id n)
  let windows := (List.range t.groups.length).map fun g => (Instr.yieldWindowExpiry, Subject.unit2 t.id g)
  let away : List (Instr × Subject) :=
    if t.resident then [] else
    match s.gang? t.gang with
    | some g => (s.teamCores g g.cluster).map fun c => (.teamRestore, .place t.id { cores := [c], gb := g.base })
    | none => []
  entries ++ (if t.tileOps.isEmpty then [] else tiles) ++ (t.appends.map fun a => (.qntAppendWrite, .unit2 t.id a.od)) ++
    lines ++ stamps ++ windows ++ away ++
    [(.replayableSaveTimeout, .unit t.id), (.teamSave, .unit t.id), (.teamResourcesFree, .unit t.id)]

/-- The events that may be due for an engine operation. -/
def opEvents (o : EngOp) : List (Instr × Subject) :=
  if o.wait.isSome then [] else
  match o.phase, o.kind with
  | .issued, .far .. => [(.farAtomicPerform, .unit o.num)]
  | _, .chain .. => [(.chainRecord, .unit o.num)]
  | .issued, _ => [(.copyProbePass, .unit o.num)]
  | .probed .., .decode .. => [(.decodeRun, .unit o.num)]
  | .probed .., _ => [(.copyDataPass, .unit o.num)]
  | .slice .., _ => [(.mcastSliceDeliver, .unit o.num)]
  | _, _ => []

/-- The events that may be due in one stack's units. -/
def State.stackEvents (s : State) (k : Nat) : List (Instr × Subject) :=
  ((List.range (s.stack k).heldWrites.length).map fun i => (.pendingWritePerform, .unit2 k i)) ++
    ((s.treeQueues k).map fun q => (.rayTraverseBatch, .unit3 k q.1 q.2))

/-- A first-fit place for a launch's next gang, or for a gang saved whole, in each cluster. -/
def State.placesFor (s : State) (n : Needs) (l : Launch) (size scratch : Nat) : List Placement :=
  (List.range 16).filterMap fun c =>
    match firstFitCores n size ((s.coresFor l c).map fun d => (d, s.coreUsed d)), s.scratchGap c scratch with
    | some cores, some gb => some { cores := cores, gb := gb }
    | _, _ => none

/-- The events that may be due for a launch. -/
def State.launchEvents (s : State) (l : Launch) : List (Instr × Subject) :=
  ((s.placesFor l.needs l l.gangSize l.scratch).map fun p => (.gangPlacement, .place l.id p)) ++
    ((List.range 16).map fun c => (.placementStarvation, .unit2 l.id c)) ++ [(.launchCompletion, .unit l.id)]

/-- The events that may be due for a queue, a cluster's tasks, and what runs for a cluster. -/
def State.queueEvents (s : State) (q : Nat) : List (Instr × Subject) :=
  let retry : List (Instr × Subject) := match (s.lq q).wait with
    | .none => [(.launchRecordConsume, .unit q)]
    | .valid _ => [(.validRetry, .unit q)]
    | .deps at_ w =>
      let met := match (s.depsMet (s.lq q) (lrDeps w)).2 with | .ok x => x | _ => false
      if met || at_ ≤ s.time.now then [(.dependenceReread, .unit q)] else []
    | _ => []
  let tasks := (sameTasks (s.tasks.getD q [])).length
  retry ++ (if tasks = 0 then [] else (List.range 32).map fun c => (.taskTeamForm, .unit3 q (32 * q + c) tasks))

/-- The events that may be due in the stream units: a pushed unit, and the next word of a program. -/
def State.streamEvents (s : State) : List (Instr × Subject) :=
  (s.streams.flatMap fun x => (List.range x.items.length).map fun i => (.sergeUnitArrive, .unit3 x.core x.q i)) ++
    s.serges.map fun z => (.sergeWord, .unit2 z.cluster z.unit)

/-- The events that may be due in the units beneath the stacks. -/
def State.unitEvents (s : State) : List (Instr × Subject) :=
  (s.rays.flatMap fun r => [(.rayTraverseBatch, .unit r.cmd.num), (.rayTimeout, .unit r.cmd.num)]) ++
    ((s.tcmds.filter (·.swap.isNone)).map fun x => (.trholdDrained, .unit x.cmd.num)) ++
    (s.gauze.map fun g => (if g.hash then .hgridResult else .filtResult, .unit g.cmd.num)) ++
    s.calico.flatMap fun c =>
      [(.calicoProgramCheck, .unit c.unit), (.calicoColumnArrive, .unit c.unit), (.calicoBundle, .unit c.unit)]

/-- The events that may be due in the residency blocks, the displays and the fabric. -/
def State.blockEvents (s : State) : List (Instr × Subject) :=
  [(.faultCollectorForward, .self)] ++ (s.priv.saves.map fun o => (.csaveStamp, .unit o.ctx)) ++
    ((s.felt.head.toNat :: s.felt.jobs.map fun j => j.index.toNat).flatMap fun i =>
      [(.feltIn, .unit i), (.feltOut, .unit i), (.feltCkpt, .unit i), (.feltRestore, .unit i)]) ++
    ((List.range 4).flatMap fun o => [(.presentWordRead, .unit o), (.frameScanStart, .unit o)]) ++
    [(.hostPublication, .self), (.heartbeatSend, .self)] ++
    (List.range 65).flatMap fun d => [(.heartbeatDead, .unit d), (.heartbeatSlow, .unit d)]

/-- The events of scratchpads and regrouping tables that may be due. -/
def State.sharedEvents (s : State) : List (Instr × Subject) :=
  (s.gangs.flatMap fun g => g.local_.lines.flatMap fun l =>
    [(.leaseExpiry, .line (.scratch g.id l.line)), (.linePresent, .line (.scratch g.id l.line))]) ++
    (s.regroup.flatMap fun r => (List.range 8).map fun i => (.regroupTimeout, .unit2 r.core i)) ++
    (s.gangs.filter (·.savedWhole)).flatMap fun g =>
      match s.launch? g.launch with
      | some l => (s.placesFor l.needs l (s.awayTeams g.id).length g.scratch).map fun p => (.teamRestore, .place g.id p)
      | none => []

/-- The events that nothing outside the part has to ask for and that may be due, in the order the part takes them. One that
is not due changes nothing. -/
def dueEvents (s : State) : List (Instr × Subject) :=
  (s.ops.flatMap opEvents) ++ (s.teams.flatMap fun t => s.teamEvents t) ++ s.sharedEvents ++
    ((List.range 8).flatMap fun k => s.stackEvents k) ++ s.streamEvents ++ s.unitEvents ++ s.blockEvents ++
    ((List.range 16).flatMap fun q => s.queueEvents q) ++ s.launches.flatMap fun l => s.launchEvents l

/-- Whether an event changes anything now. -/
def State.happens (run : Exec) (s : State) (e : Instr × Subject) : Bool :=
  match run e.1 { s with subject := e.2 } with
  | .next t => t != { s with subject := e.2 }
  | _ => true

/-- What a move of a clock does to convergence registers (R151). -/
def State.signing (s : State) : Act → Signing
  | .issue b => s.wordSigning b
  | .event .runEndCommit (.bundle b) => s.commitSigning b
  | _ => .neither

/-- Bundles' words and the commits of runs, in the order in which they take effect in one clock (R151). -/
def State.clockOrder (s : State) (acts : List Act) : List Act :=
  match acts with
  | [] | [_] => acts
  | _ =>
    let xs := acts.map fun a => (s.signing a, a)
    let all := xs.map (·.1)
    (sortBy (fun (x y : Nat × Act) => decide (x.1 ≤ y.1)) (xs.map fun x => (x.1.rank all, x.2))).map (·.2)

/-- The moves of one clock when none is asked for: every quarter issues (R162), every event that is due happens, so that
none is put off for ever (R167), and a clock passes. -/
def State.plan (run : Exec) (s : State) (due : State → List (Instr × Subject)) : List Move :=
  let words : List Act := (s.clockPlan (s.heldBy run)).map fun b => .issue b
  let happen := (due s).filter (s.happens run)
  let commits : List Act := (happen.filter (·.1 == .runEndCommit)).map fun (i, x) => .event i x
  let events : List Act := (happen.filter (·.1 != .runEndCommit)).map fun (i, x) => .event i x
  (s.clockOrder (words ++ commits) ++ events).map (fun a => { ticks := 0, clocks := 0, act := a }) ++
    [{ ticks := ticksFor s.power.mhz s.time.clock, clocks := 1, act := .wait }]

/-- One step of the part: the first move asked for, or the first of its own. -/
def State.stepWith (run : Exec) (due : State → List (Instr × Subject)) (s : State) :
    Host.Outcome State Fault Refusal :=
  match declaredFirst s.agenda with
  | m :: rest => State.move run { s with agenda := rest } m
  | [] =>
    match s.plan run due with
    | m :: rest => State.move run { s with agenda := rest } m
    | [] => .next s

end Sys2Proof.Machine
end

