-- ==== Sys2Proof/Machine/Step.lean ====
section
/-! DEFINITION. The step function and the host's placement of one word. -/
namespace Sys2Proof.Machine

/-- One step of the part. -/
def step (s : State) : Host.Outcome State Fault Refusal := s.stepWith exec dueEvents

/-- `s` with the instruction word `w` placed where the very next step fetches and runs it. DESIGN CHOICE
(notes/assumptions/6). -/
def State.withFetchWord (s : State) (_nbits w : Nat) : State := s.placeWord w

end Sys2Proof.Machine
end

