-- ==== Sys2Proof/Safety.lean ====
section
/-! DEFINITION. The terms in which claims about the part are stated: what it is for a word to be ready to have its effect,
what a word that acts in every lane leaves, runs of the part, and what counts as a safe one. -/
namespace Sys2Proof

open Sys2Proof.Machine

-- runs

/-- A step from one state answers the next one. -/
def Steps (s t : State) : Prop := step s = .next t

/-- States that steps reach from a state. -/
inductive Reaches : State → State → Prop where
  | refl (s : State) : Reaches s s
  | tail (s t u : State) : Reaches s t → Steps t u → Reaches s u

/-- The part never stops from a state: no reachable state's step ends in a fault or a refusal. -/
def Safe (s : State) : Prop := ∀ t, Reaches s t → ∃ u, Steps t u

/-- Every memory is in its canonical form: main memory, and the local memory of every team and gang. -/
def Canonical (s : State) : Prop :=
  s.mem.wf = true ∧ (∀ t ∈ s.teams, t.local_.bytes.wf = true) ∧ ∀ g ∈ s.gangs, g.local_.bytes.wf = true

-- words

/-- The bundle that a frontier entry names. -/
def BundleOf (u : Bun) : BundleId := { team := u.team, group := u.group, slot := u.slot }

/-- The word `i` with the header `h` is issued by the bundle `u` and nothing stops it before its own effect: the entry
issues (R142, R143), none of the traps that any word can meet holds (R73, R77, R128), and no codeword of a register file
is in error or armed to be (R358, R376). -/
abbrev Ready (s : State) (i : Instr) (h : Hdr) (u : Bun) : Prop :=
  s.subject = .bundle (BundleOf u) ∧ s.bun? h (BundleOf u) = some u ∧ s.wordTraps i u = [] ∧ s.regArmed = false

/-- What a word leaves that turns each lane of P by itself: the lanes changed, then the bundle goes on (R15, R127) or, with
S = 1, its run ends (R68). -/
def EachLane (s : State) (i : Instr) (h : Hdr) (u : Bun) (f : List W32 → Lane → Lane) : State :=
  s.afterWord (s.mapLanes u u.act fun _ l => f (s.viewsOf u) l) i u [] h.sw

/-- What a word of variable latency leaves: a result joined to the run of each lane of P, to be committed at the run's end
(R69-R71). -/
def EachLaneLate (s : State) (i : Instr) (h : Hdr) (u : Bun) (f : Lane → Outs) : State :=
  s.afterWord (s.fresh.2.mapLanes u u.act fun _ l => l.addResult (resultOf s.fresh.1 u.pc (f l))) i u [] h.sw

/-- The word, issued by any bundle of any state that is ready for it, turns each lane of P by `f`. -/
def TurnsLanes (i : Instr) (h : Hdr) (f : List W32 → Lane → Lane) : Prop :=
  ∀ (s : State) (u : Bun), Ready s i h u → exec i s = .next (EachLane s i h u f)

/-- The word, issued by any bundle of any state that is ready for it, gives each lane of P the result `f`. -/
def GivesResults (i : Instr) (h : Hdr) (f : Lane → Outs) : Prop :=
  ∀ (s : State) (u : Bun), Ready s i h u → exec i s = .next (EachLaneLate s i h u f)

/-- The word, issued by any bundle of any state that is ready for it, turns each lane of P by the floating operation `op`,
unless its view has elements of 4 bits (R22, R102). -/
def FloatsLanes (i : Instr) (h : Hdr) (x : Arith) (op : Fmt → W64 → W64 → W64 → FRes) : Prop :=
  ∀ (s : State) (u : Bun), Ready s i h u → badFloatView (s.viewsOf u) x = false →
    exec i s = .next (EachLane s i h u fun vs l => l.floatOp vs x op)

/-- The lanes of the bundle stand together after its word: at one PC and one priority (R68). -/
def StandTogether (s : State) (u : Bun) : Prop :=
  ∀ j ∈ u.live, ∀ k ∈ u.live, ((s.lane u j).advance u.pc).pc = ((s.lane u k).advance u.pc).pc ∧
    (s.lane u j).prio = (s.lane u k).prio

/-- The word goes on within its run: S is 0, and no loop of a live lane of the bundle ends at it or the lanes stay
together (R68, R127). -/
def GoesOn (s : State) (h : Hdr) (u : Bun) : Prop :=
  h.sw = false ∧ ((∀ j ∈ u.live, ∀ e ∈ (s.lane u j).loops.head?, e.stop ≠ u.pc) ∨ StandTogether s u)

/-- The registers that a word writes (R54, R84). -/
def destRegs (i : Instr) : List Nat :=
  ((regUses i).filter fun d => !d.read).flatMap fun d => (List.range d.count).map (d.first + ·)

/-- The word completes with the change `done`, by any bundle of any state that is ready for it and where `can` holds: the
bundle then goes on, or its run ends (R15, R68, R127). -/
def Acts (i : Instr) (h : Hdr) (can : State → Bun → Prop) (done : State → Bun → State) : Prop :=
  ∀ (s : State) (u : Bun), Ready s i h u → can s u → exec i s = .next (s.afterWord (done s u) i u [] h.sw)

/-- A word that acts once, with the operands of the lowest live lane `j` of P, completes with the change `done`. -/
def ActsOnce (i : Instr) (h : Hdr) (can : State → Bun → Team → Lane → Prop)
    (done : State → Bun → Team → Nat → Lane → State) : Prop :=
  ∀ (s : State) (u : Bun) (t : Team) (j : Nat) (js : List Nat), Ready s i h u → u.plive = j :: js →
    s.team? u.team = some t → can s u t (s.lane u j) →
    exec i s = .next (s.afterWord (done s u t j (s.lane u j)) i u [] h.sw)

/-- The word ends its run and acts after the run's commit, by any bundle of any state that is ready for it (R68). -/
def EndsRun (i : Instr) (h : Hdr) (e : State → Bun → Ending) : Prop :=
  ∀ (s : State) (u : Bun), Ready s i h u → exec i s = .next (s.afterLast s i u (e s u))

/-- The word raises a trap, precise at it, in each of the lanes `bad` finds, one of which is live: the run ends with those
traps and nothing else of the word happens (R74, R141). -/
def Traps (i : Instr) (h : Hdr) (can : State → Bun → Prop) (ts : State → Bun → List (Nat × TrapInfo)) : Prop :=
  ∀ (s : State) (u : Bun), Ready s i h u → can s u → ((ts s u).any fun p => u.live.contains p.1) = true →
    exec i s = .next (s.trapLanes u (ts s u))

/-- Every address that listed lanes use lies in the space's grant and is aligned (R239). -/
def Accessible (s : State) (u : Bun) (spc : Space) (n : Nat) (slots : List Nat) (addrs : Lane → List Int) : Prop :=
  ∀ t, s.team? u.team = some t → ∀ j ∈ slots, ∀ a ∈ addrs (s.lane u j),
    s.granted t (s.lane u j).tid spc a n = true ∧ a % (n : Int) = 0

/-- One byte of a space of a team's local memory. -/
def LocalByte (s : State) (team : Nat) (spc : Space) (a : Nat) : Byte :=
  match s.team? team with
  | some t => (s.localOf t spc).bytes.get a
  | none => 0

/-- Local memory as an access finds it whose effect nothing else touches: nothing is held at the port of the space, no
codeword is in error or armed to be (R358, R376), and the bytes are in canonical form (`Canonical`). -/
def PortFree (s : State) (t : Team) (spc : Space) : Prop :=
  (s.localOf t spc).held = [] ∧ (s.localOf t spc).bytes.wf = true ∧ s.mem.flips = [] ∧ s.mem.injects = []

/-- The byte at an address where `old` stood, after writes made in order: the last that covers it stands (R240). -/
def byteAfter (ws : List (Nat × List Byte)) (a : Nat) (old : Byte) : Byte :=
  ws.foldl (fun v w => if w.1 ≤ a then w.2.getD (a - w.1) v else v) old

/-- No bytes but those of one space of a team differ: main memory, every other local memory and, where the space is the
team's own, every other team and every gang are as they were. -/
def OnlySpace (s t : State) (tm : Team) (spc : Space) : Prop :=
  t.mem.home = s.mem.home ∧ t.mem.dram = s.mem.dram ∧ t.mem.host = s.mem.host ∧ t.mem.peer = s.mem.peer ∧
  (∀ id a, id ≠ tm.id ∨ spc = .sc → LocalByte t id .sh a = LocalByte s id .sh a) ∧
  (∀ g, spc ≠ .sc ∨ g ≠ tm.gang → (t.gang? g).map (·.local_.bytes) = (s.gang? g).map (·.local_.bytes)) ∧
  (spc ≠ .sc → t.gangs = s.gangs ∧ ∀ id, id ≠ tm.id → t.team? id = s.team? id)

-- what stays

/-- One lane before and after a word: registers outside `rs` and predicates outside `ps` keep their values, `$fpstat` only
gains flags, the PC and the loops may change, and nothing else does. -/
def LaneKept (rs ps : List Nat) (a b : Lane) : Prop :=
  b = { a with pc := b.pc, loops := b.loops, regs := b.regs, preds := b.preds, fpstat := b.fpstat } ∧
  (∀ n, n ∉ rs → b.reg n = a.reg n) ∧ (∀ n, n < 24 → n ∉ ps → b.pred n = a.pred n) ∧ b.fpstat &&& a.fpstat = a.fpstat

/-- One lane before and after a word that gives it a result for the run's end: no register, predicate or flag changes yet;
the result's registers are among `rs`. -/
def LaneKeptLate (rs : List Nat) (a b : Lane) : Prop :=
  ∃ r : Result, b = { a with pc := b.pc, loops := b.loops, results := a.results ++ [r] } ∧ ∀ w ∈ r.writes, w.1 ∈ rs

/-- Nothing but the lanes and entries of the bundle's group differs: no memory, no special register of the part, no other
team, no other group, nothing else of the team, no live lane of another bundle. -/
def OnlyOwnLanes (s t : State) (u : Bun) : Prop :=
  t = { s with teams := t.teams, nextNum := t.nextNum } ∧
  (∀ id, id ≠ u.team → t.team? id = s.team? id) ∧
  (∃ gs, t.team? u.team = (s.team? u.team).map fun x => { x with groups := gs }) ∧
  (∀ g, g ≠ u.group → t.group? u.team g = s.group? u.team g) ∧
  (∀ j, j ∉ u.slots → (s.lane u j).kind = .live → t.lane u j = s.lane u j)

/-- The word, where it goes on within its run and `can` holds, changes in the live lanes of P what `kept` lets it, in the
bundle's other live lanes only the PC and the loops, and nothing else anywhere. -/
def FrameWhere (i : Instr) (h : Hdr) (can : State → Bun → Prop) (kept : Lane → Lane → Prop) : Prop :=
  ∀ (s t : State) (u : Bun), Ready s i h u → can s u → GoesOn s h u → exec i s = .next t →
    OnlyOwnLanes s t u ∧ (∀ j ∈ u.plive, kept (s.lane u j) (t.lane u j)) ∧
      ∀ j ∈ u.live, j ∉ u.plive → t.lane u j = { s.lane u j with pc := (t.lane u j).pc, loops := (t.lane u j).loops }

/-- `FrameWhere` with nothing asked beside. -/
abbrev Frame (i : Instr) (h : Hdr) (kept : Lane → Lane → Prop) : Prop := FrameWhere i h (fun _ _ => True) kept

end Sys2Proof
end

