-- ==== Sys2Proof/Certificates/Slice0/Obligations.lean ====
section
/-! DEFINITION. The statements for the provers: what the encoding, each family of words, taking a trap and returning from
one, and the events of the part do, each with the rules of spec/ it formalises or rests on. -/
open Sys2Proof Sys2Proof.Machine

/-- For every instruction that is well-formed, is not the illegal instruction and has a word, decoding its word gives
the instruction, with every operand at every value that the encoding admits. (R54, R57, R58, R61, R62, R63, R64, R66,
R297, R312, R371) -/
def Obligations.DecodeOfEncode : Prop :=
  ∀ (i : Instr) (w : W64), i.wf = true → (∀ v, i ≠ .illegalInstruction v) → encode i = some w → decode w = i

/-- For every 64-bit word: what it decodes to encodes to the same word, and is well-formed unless the word is illegal;
no word decodes to an event. A full-form word whose GP is 24 to 30, or whose GN is 1 with GP 31, or whose CLASS is 0xD
to 0xF, decodes to the illegal instruction; so does one of class 0x0 to 0xC with an INDEX that the class does not
assign (above its last one, or 0 in class 0); so does every word, of either form, that no well-formed instruction has
as its encoding (a reserved bit that is set, a reserved value); so do the all-zero and the all-ones word. (R54, R55,
R57, R66, R77) -/
def Obligations.EveryWordDecodesOnce : Prop :=
  (
  ∀ w : W64, encode (decode w) = some w ∧ (decode w = .illegalInstruction w ∨ (decode w).wf = true) ∧
    isEvent (decode w) = false) ∧
  (
  (∀ w : W64, w.getLsbD 62 = false → 24 ≤ (w.extractLsb' 56 5).toNat → (w.extractLsb' 56 5).toNat ≤ 30 →
    decode w = .illegalInstruction w) ∧
  (∀ w : W64, w.getLsbD 62 = false → w.extractLsb' 56 5 = 31 → w.getLsbD 61 = true → decode w = .illegalInstruction w) ∧
  (∀ w : W64, w.getLsbD 62 = false → 0xD ≤ (w.extractLsb' 52 4).toNat → decode w = .illegalInstruction w) ∧
  (∀ (w : W64) (c last : Nat), w.getLsbD 62 = false → (w.extractLsb' 52 4).toNat = c →
    [0x17, 0x10, 0x0C, 0x0F, 0x0A, 0x0A, 0x0F, 0x0B, 0x08, 0x09, 0x0A, 0x06, 0x07][c]? = some last →
    (last < (w.extractLsb' 46 6).toNat ∨ (c = 0 ∧ (w.extractLsb' 46 6).toNat = 0)) → decode w = .illegalInstruction w) ∧
  (∀ w : W64, (∀ i : Instr, i.wf = true → (∀ v, i ≠ .illegalInstruction v) → encode i ≠ some w) →
    decode w = .illegalInstruction w) ∧
  decode 0 = .illegalInstruction 0 ∧ decode (BitVec.allOnes 64) = .illegalInstruction (BitVec.allOnes 64))

/-- Nine words that the manual works out bit by bit (a fused multiply-add, a branch, a pair word, a truth-table word,
a shuffle, a gather, a copy, a return from a trap, a call) decode to the instructions they stand for, with the fields
the manual gives. (R58, R63, R66, R67, R101, R122, R174, R242, R250, R355) -/
def Obligations.SpecWordsDecode : Prop :=
  decode 0x9F20C1020245200A = .ffma { sw := true, gn := false, gp := 31 }
    { d := 4, a := 8, b := 9, i := false, ra := false, rb := false, ty := .f32, rm := .rz, fs := false, sub := 0, c := 10 } ∧
  decode 0x9F50003FFFE81FFB = .bra { sw := true, gn := false, gp := 31 }
    { d := 0, a := 0xFF, b := 0xFF, u := true, bp := 0x40, ofl := 0x1FFB } ∧
  decode 0xC001020020828500 = .pairAdd true { pg := .always, d := 4, b := 8, imm := 0 }
    { op := .fmul, args := { pg := .p0, d := 5, b := 10, imm := 0 } } ∧
  decode 0x1F14004080C48604 = .lop3 { sw := false, gn := false, gp := 31 }
    { d := 1, a := 2, b := 3, i := false, ra := false, rb := false, ty := tyOfCode 9, rm := .rne, fs := false, sub := 6, c := 4 } ∧
  decode 0x1F60C18140278301 = .shfl { sw := false, gn := false, gp := 31 }
    { d := 6, a := 5, b := 0, i := true, ra := false, rb := false, ty := .b32, rm := .rne, fs := false, sub := 3, c := 1 } ∧
  decode 0x1F808201030A9021 = .gath { sw := false, gn := false, gp := 31 }
    { d := 8, a := 4, b := 12, space := .sc, width := .b32, split := true, aux := 1, off := 0x021 } ∧
  decode 0x1F9005018580B401 = .cpyin { sw := false, gn := false, gp := 31 }
    { d := 20, a := 6, b := 22, scope := .lane, evp := 0, lu := false, ls := true, cq := 3, opx := 0x401 } ∧
  decode 0x1FC0000000000000 = .rfe { sw := false, gn := false, gp := 31 } { d := 0, a := 0, b := 0, sub := 0 } ∧
  decode 0x1F50828000010002 = .call { sw := false, gn := false, gp := 31 }
    { d := 10, a := 0, b := 0, u := false, bp := 8, ofl := 2 }

/-- Where the next move is the issue of a frontier entry and its fetch gives a word, the step is the execution of what
that word decodes to, by that entry, in the state after the fetch. A word fetched from a line that is present,
resident, fetchable and free of errors is the eight bytes at the address, least significant first. (R7, R125, R143,
R162, R283) -/
def Obligations.StepRunsWord : Prop :=
  (∀ (s s' : State) (b : BundleId) (u : Bun) (rest : List Move) (w : W64),
    s.agenda = { ticks := 0, clocks := 0, act := .issue b } :: rest →
    State.bun? { s with agenda := rest } plainHdr b = some u →
    State.fetch { s with agenda := rest } u = (s', .word w) →
    step s = exec (decode w) { s' with subject := .bundle b }) ∧
  (∀ (s s1 s2 : State) (u : Bun) (k a ia : Nat) (g : W64),
    s.xlate u.ctx u.pc.toNat permFetch = (s1, .ok (.dev k a) g, ia) → (s1.stack k).fetchable (a / 128) u = true →
    (s1.icacheRead u ia).lineErrors k (a / 128) u.ctx (ia / 128 * 128) false true = (s2, { words := [], sel := none }) →
    s.fetch u = (s2, .word (BitVec.ofNat 64 (ofBytes (s2.mem.home.read (devKey k a) 8)))))

/-- Where the next move is the issue of a frontier entry: a fetch that fails takes its trap in every live lane of the
bundle, precise at the word, and its helper lanes become empty; a page of code that is not resident parks the entry;
an entry that does not issue changes nothing. Where the next move is an event, the step is the execution of that event
with the subject the move names; where the move lets time pass first, the step is that of the state in which the time
has passed and what it brings about has happened. The next move is the first asked for, but that a declaration about a
device comes before a transaction from it in the same tick. (That the next move is the first asked for, and that an
event with its subject is a move of the agenda, are the model's choices, log entries 1 and 2; the order of a
declaration is R425's.) (R4, R5, R125, R143, R283, R351, R358, R391, R425) -/
def Obligations.StepTakesOtherMoves : Prop :=
  (
  ∀ (s s' : State) (b : BundleId) (rest : List Move), s.agenda = { ticks := 0, clocks := 0, act := .issue b } :: rest →
    (State.bun? { s with agenda := rest } plainHdr b = none → step s = .next { s with agenda := rest }) ∧
    ∀ u, State.bun? { s with agenda := rest } plainHdr b = some u →
      (∀ t, State.fetch { s with agenda := rest } u = (s', .trap t) → step s = .next (s'.trapLanes u (trapAll u.slots t))) ∧
      (∀ w, State.fetch { s with agenda := rest } u = (s', .park w) → step s = .next (s'.parkWord u w))) ∧
  (
  (∀ (s : State) (i : Instr) (x : Subject) (rest : List Move), isEvent i = true →
    declaredFirst s.agenda = { ticks := 0, clocks := 0, act := .event i x } :: rest →
    step s = exec i { s with agenda := rest, subject := x }) ∧
  (∀ (s : State) (i : Instr) (x : Subject) (n c : Nat) (rest : List Move), isEvent i = true → 0 < n + c →
    declaredFirst s.agenda = { ticks := n, clocks := c, act := .event i x } :: rest →
    step s = exec i { State.elapse { s with agenda := rest } n c with subject := x }) ∧
  (∀ (m : Move) (rest : List Move), m.act.sender = none ∨ (∀ d, takeDeclaration d rest = none) →
    declaredFirst (m :: rest) = m :: rest) ∧
  (∀ (m x : Move) (rest : List Move) (d : Nat), m.act.sender = some d → x.ticks = 0 → x.act.declares = some d →
    (declaredFirst (m :: x :: rest)).head? = some { m with act := x.act }))

/-- From every state whatever, reachable or not, the step answers a next state: no word, no event and no order of the
two ends in a fault or a refusal. So the part is safe from every state. (That every word and event answers a next
state, whatever the state, is the model's choice, log entry 9.) (R77, R74, R143) -/
def Obligations.NothingStopsThePart : Prop :=
  (∀ s : State, ∃ t, step s = .next t) ∧ ∀ s : State, Safe s

/-- When power is applied, STATUS shows state 1 at step 1 of a cold start with no failure code and no attempts; no
team, gang, launch, task, operation or command is held; every launch queue is disabled with HEAD, TAIL and CODE zero;
every output is disabled; the time base is not synchronised, with the bound 0xFFFF; every memory lists nothing. (That
the first step has number 1 and that nothing of an earlier life is held are the readings of the log entries 7 and 8.)
(R9, R153, R415, R418, R421, R432, R438) -/
def Obligations.ResetLeaves : Prop :=
  State.reset.power.state = 1 ∧ State.reset.power.step = 1 ∧ State.reset.power.fail = 0 ∧ State.reset.power.attempts = 0 ∧
  State.reset.teams = [] ∧ State.reset.gangs = [] ∧ State.reset.launches = [] ∧ State.reset.ops = [] ∧
  State.reset.serges = [] ∧ State.reset.rays = [] ∧ State.reset.tcmds = [] ∧ State.reset.gauze = [] ∧
  State.reset.calico = [] ∧ State.reset.felt.jobs = [] ∧ (∀ c, State.reset.tasks.getD c [] = []) ∧
  (∀ q < 16, (State.reset.lq q).en = false ∧ (State.reset.lq q).head = 0 ∧ (State.reset.lq q).tail = 0 ∧
    (State.reset.lq q).code = 0) ∧
  (∀ o ∈ State.reset.outputs, o.en = false) ∧ State.reset.outputs.length = 4 ∧
  State.reset.time.unsync = true ∧ State.reset.time.bound = 0xFFFF ∧ State.reset.time.now = 0 ∧
  State.reset.streams = [] ∧ State.reset.regroup = [] ∧ State.reset.mem.home = [] ∧ State.reset.mem.dram = [] ∧
  State.reset.mem.host = [] ∧ State.reset.mem.peer = [] ∧ (∀ a, State.reset.mem.home.get a = 0) ∧
  State.reset.mem.stackList.length = 8

/-- An integer word on a TYPE without a view writes the exact result of its operation modulo 2^w when FS is 0 and sets
no flag; when FS is 1 it writes the result clamped to the range of the type and sets SA in `$fpstat` exactly when
clamping changed the value, and sets no other flag. (R86) -/
def Obligations.NarrowsIntegers : Prop :=
  ∀ (l : Lane) (vs : List W32) (x : Arith) (op : Int → Int → Int → Int), x.ty ≠ .vw →
    let w := tyBits x.ty
    let lo : Int := if tySigned x.ty then -(2 ^ (w - 1)) else 0
    let hi : Int := if tySigned x.ty then 2 ^ (w - 1) - 1 else 2 ^ w - 1
    let v := op (intOf x.ty (l.src x.ty x.a.toNat)) (intOf x.ty (l.srcB x)) (intOf x.ty (l.src x.ty x.c.toNat))
    (x.fs = false → l.intOp vs x op = l.dst x.ty x.d.toNat (BitVec.ofInt 64 v)) ∧
    (x.fs = true → lo ≤ v → v ≤ hi → l.intOp vs x op = l.dst x.ty x.d.toNat (BitVec.ofInt 64 v)) ∧
    (x.fs = true → v < lo → l.intOp vs x op =
      { l.dst x.ty x.d.toNat (BitVec.ofInt 64 lo) with fpstat := l.fpstat ||| 0x40 }) ∧
    (x.fs = true → hi < v → l.intOp vs x op =
      { l.dst x.ty x.d.toNat (BitVec.ofInt 64 hi) with fpstat := l.fpstat ||| 0x40 })

/-- In each lane of P, `addc` in 32-bit form writes (A + B + pC) mod 2^32 and sets pC when the sum reaches 2^32, and
`subb` writes (A - B - pC) mod 2^32 and sets pC when the difference is negative; the 64-bit forms do the same on pairs
with 2^64. For operands in the range of a type of width w, quotient q and remainder r satisfy a = q*b + r with |r| <
|b| and r of the dividend's sign where b is not 0 and the quotient fits; a zero divisor gives the greatest value, or
the least for a negative signed dividend, with remainder a; the least value divided by -1 gives the least value with
remainder 0. (R91, R94) -/
def Obligations.CarriesAndDivisions : Prop :=
  (
  ∀ (l : Lane) (x : Arith), x.i = false →
    let c : Nat := if l.pred x.c.toNat then 1 else 0
    (x.ty = .n32 → let a := (l.reg x.a.toNat).toNat; let b := (l.reg x.b.toNat).toNat
      l.addCarry x = (l.setReg x.d.toNat (BitVec.ofNat 32 (a + b + c))).setPred x.c.toNat (decide (2 ^ 32 ≤ a + b + c)) ∧
      l.subBorrow x = (l.setReg x.d.toNat (BitVec.ofInt 32 (a - b - c))).setPred x.c.toNat (decide (a < b + c))) ∧
    (x.ty = .n64 → let a := (l.pair x.a.toNat).toNat; let b := (l.pair x.b.toNat).toNat
      l.addCarry x = (l.setPair x.d.toNat (BitVec.ofNat 64 (a + b + c))).setPred x.c.toNat (decide (2 ^ 64 ≤ a + b + c)) ∧
      l.subBorrow x = (l.setPair x.d.toNat (BitVec.ofInt 64 (a - b - c))).setPred x.c.toNat (decide (a < b + c)))) ∧
  (
  ∀ (w : Nat) (g : Bool) (a b : Int), 0 < w → intFits w g a = true → intFits w g b = true →
    (b ≠ 0 → ¬(g = true ∧ a = -(2 ^ (w - 1)) ∧ b = -1) →
      a = (divide w g a b).1 * b + (divide w g a b).2 ∧ (divide w g a b).2.natAbs < b.natAbs ∧
      (0 ≤ a → 0 ≤ (divide w g a b).2) ∧ (a ≤ 0 → (divide w g a b).2 ≤ 0) ∧ intFits w g (divide w g a b).1 = true) ∧
    (b = 0 → (divide w g a b).2 = a ∧
      (divide w g a b).1 = if g = false then 2 ^ w - 1 else if 0 ≤ a then 2 ^ (w - 1) - 1 else -(2 ^ (w - 1))) ∧
    (g = true → a = -(2 ^ (w - 1)) → b = -1 → divide w g a b = (-(2 ^ (w - 1)), 0)))

/-- With c the unsigned 32-bit count and w the width of TYPE: `shl` writes (A * 2^c) mod 2^w and `shr` the floor of A
/ 2^c, both 0 when c >= w; `sar` writes the floor of the signed A / 2^c, which is 0 or all ones when c >= w; `rotl`
rotates left by c mod w. (R98) -/
def Obligations.ShiftsByCount : Prop :=
  ∀ (h : Hdr) (x : Arith) (s : State) (u : Bun),
    let w := tyBits x.ty
    let a (l : Lane) : Nat := (l.src x.ty x.a.toNat).toNat
    let c (l : Lane) : Nat := (if x.i then (immOf x).setWidth 32 else l.reg x.b.toNat).toNat
    (x.ty = .b32 ∨ x.ty = .n64 →
      (Ready s (.shl h x) h u → exec (.shl h x) s = .next (EachLane s (.shl h x) h u fun _ l =>
        l.dst x.ty x.d.toNat (BitVec.ofNat 64 (if w ≤ c l then 0 else a l * 2 ^ c l % 2 ^ w)))) ∧
      (Ready s (.shr h x) h u → exec (.shr h x) s = .next (EachLane s (.shr h x) h u fun _ l =>
        l.dst x.ty x.d.toNat (BitVec.ofNat 64 (if w ≤ c l then 0 else a l / 2 ^ c l)))) ∧
      (Ready s (.rotl h x) h u → exec (.rotl h x) s = .next (EachLane s (.rotl h x) h u fun _ l =>
        l.dst x.ty x.d.toNat (BitVec.ofNat 64
          (a l * 2 ^ (c l % w) % 2 ^ w + a l / 2 ^ (w - c l % w)))))) ∧
    (x.ty = .i32 ∨ x.ty = .i64 →
      Ready s (.sar h x) h u → exec (.sar h x) s = .next (EachLane s (.sar h x) h u fun _ l =>
        let v := intOf x.ty (l.src x.ty x.a.toNat)
        l.dst x.ty x.d.toNat (BitVec.ofInt 64 (if w ≤ c l then (if v < 0 then -1 else 0) else v / 2 ^ c l))))

/-- For every bit position i below 32, bit i of the result of `lop3` is bit 4*B[i] + 2*C[i] + A[i] of its truth table,
whose bits [7:4] stand in TYPE and [3:0] in SUB. (R101) -/
def Obligations.TruthTableBits : Prop :=
  (∀ (lut : Byte) (a b c : W32) (i : Nat), i < 32 →
    (lut3 lut a b c).getLsbD i = lut.getLsbD ((b.getLsbD i).toNat * 4 + (c.getLsbD i).toNat * 2 + (a.getLsbD i).toNat)) ∧
  (∀ x : Arith, lutOf x = tyCode x.ty ++ x.sub) ∧
  ∀ h x, TurnsLanes (.lop3 h x) h fun _ l =>
    l.setReg x.d.toNat (lut3 (lutOf x) (l.reg x.a.toNat) (l.reg x.b.toNat) (l.reg x.c.toNat))

/-- `movi` writes its 22-bit immediate sign-extended; `movh` writes its immediate to bits [31:10] and leaves bits
[9:0]; a `movi` of c's low ten bits and a `movh` of c's upper 22 bits leave c in the register; neither changes any
flag, predicate or other register. (R60) -/
def Obligations.WideConstants : Prop :=
  (∀ h d k, TurnsLanes (.movi h d k) h fun _ l => l.setReg d.toNat (k.signExtend 32)) ∧
  (∀ h d k, TurnsLanes (.movh h d k) h fun _ l => l.setReg d.toNat (k ++ (l.reg d.toNat).setWidth 10)) ∧
  (∀ (l : Lane) (d : Field8) (c : W32), d.toNat < l.regs.length →
    let k : BitVec 22 := c.extractLsb' 10 22
    let l1 := l.setReg d.toNat (((c &&& 0x3FF).setWidth 22).signExtend 32)
    l1.setReg d.toNat (k ++ (l1.reg d.toNat).setWidth 10) = l.setReg d.toNat c)

/-- In each of the formats f16, bf16, f32, f64, e4m3 and e5m2, addition, subtraction, multiplication and fused
multiplication of inputs of which one is poison give the poison encoding of the format and no flag, whatever the other
inputs are, signalling NaNs included. (R37, R39) -/
def Obligations.PoisonComesFirst : Prop :=
  ∀ (t : Ty) (rm : Rm) (ftz : Bool) (a b c : W64), tyFloat t = true →
    let f := fmtOf t
    let p : W64 := f.poison
    (f.decode a = .poison ∨ f.decode b = .poison →
      (addF f rm ftz a b).val = p ∧ (addF f rm ftz a b).flags = 0 ∧ (subF f rm ftz a b).val = p ∧
      (subF f rm ftz a b).flags = 0 ∧ (mulF f rm ftz a b).val = p ∧ (mulF f rm ftz a b).flags = 0) ∧
    (f.decode a = .poison ∨ f.decode b = .poison ∨ f.decode c = .poison →
      (fmaF f rm ftz a b c).val = p ∧ (fmaF f rm ftz a b c).flags = 0)

/-- In a lane whose registers hold both destinations, which differ: the first destination takes what slot 0 alone
would give from the lane as it was, the second what slot 1 alone would give from the lane as it was, every other
register, every predicate and the PC stay, and the flags are the OR of the two slots' flags; a slot whose guard fails
changes nothing and leaves the other slot's effect. Each pair word, whatever its slot 0, from any state that is ready
for it, completes: every lane of the bundle has both slots' effects, each under its own guard. (R66, R67) -/
def Obligations.PairWordsComplete : Prop :=
  (
  ∀ (l : Lane) (x y : PairSlot), x.args.d ≠ y.args.d → x.args.d.toNat < l.regs.length → y.args.d.toNat < l.regs.length →
    let t := l.pairOp x y
    t.reg x.args.d.toNat = (l.slotRun x).reg x.args.d.toNat ∧ t.reg y.args.d.toNat = (l.slotRun y).reg y.args.d.toNat ∧
    (∀ n, n ≠ x.args.d.toNat → n ≠ y.args.d.toNat → t.reg n = l.reg n) ∧
    t.fpstat = (l.slotRun x).fpstat ||| (l.slotRun y).fpstat ∧ t = { l with regs := t.regs, fpstat := t.fpstat } ∧
    (l.slotGuard x.args.pg = false → l.slotRun x = l) ∧ (l.slotGuard y.args.pg = false → t = l.slotRun x)) ∧
  (
  ∀ (sw : Bool) (x : SlotArgs) (y : PairSlot),
  TurnsLanes (.pairAdd sw x y) { plainHdr with sw := sw } (fun _ l => l.pairOp { op := .add, args := x } y) ∧
  TurnsLanes (.pairSub sw x y) { plainHdr with sw := sw } (fun _ l => l.pairOp { op := .sub, args := x } y) ∧
  TurnsLanes (.pairMinI32 sw x y) { plainHdr with sw := sw } (fun _ l => l.pairOp { op := .minI32, args := x } y) ∧
  TurnsLanes (.pairMaxI32 sw x y) { plainHdr with sw := sw } (fun _ l => l.pairOp { op := .maxI32, args := x } y) ∧
  TurnsLanes (.pairMinN32 sw x y) { plainHdr with sw := sw } (fun _ l => l.pairOp { op := .minN32, args := x } y) ∧
  TurnsLanes (.pairMaxN32 sw x y) { plainHdr with sw := sw } (fun _ l => l.pairOp { op := .maxN32, args := x } y) ∧
  TurnsLanes (.pairAnd sw x y) { plainHdr with sw := sw } (fun _ l => l.pairOp { op := .and_, args := x } y) ∧
  TurnsLanes (.pairOr sw x y) { plainHdr with sw := sw } (fun _ l => l.pairOp { op := .or_, args := x } y) ∧
  TurnsLanes (.pairXor sw x y) { plainHdr with sw := sw } (fun _ l => l.pairOp { op := .xor_, args := x } y) ∧
  TurnsLanes (.pairShl sw x y) { plainHdr with sw := sw } (fun _ l => l.pairOp { op := .shl, args := x } y) ∧
  TurnsLanes (.pairShr sw x y) { plainHdr with sw := sw } (fun _ l => l.pairOp { op := .shr, args := x } y) ∧
  TurnsLanes (.pairSar sw x y) { plainHdr with sw := sw } (fun _ l => l.pairOp { op := .sar, args := x } y) ∧
  TurnsLanes (.pairMov sw x y) { plainHdr with sw := sw } (fun _ l => l.pairOp { op := .mov, args := x } y) ∧
  TurnsLanes (.pairMovi sw x y) { plainHdr with sw := sw } (fun _ l => l.pairOp { op := .movi, args := x } y) ∧
  TurnsLanes (.pairFadd sw x y) { plainHdr with sw := sw } (fun _ l => l.pairOp { op := .fadd, args := x } y) ∧
  TurnsLanes (.pairFsub sw x y) { plainHdr with sw := sw } (fun _ l => l.pairOp { op := .fsub, args := x } y) ∧
  TurnsLanes (.pairFmul sw x y) { plainHdr with sw := sw } (fun _ l => l.pairOp { op := .fmul, args := x } y) ∧
  TurnsLanes (.pairFmin sw x y) { plainHdr with sw := sw } (fun _ l => l.pairOp { op := .fmin, args := x } y) ∧
  TurnsLanes (.pairFmax sw x y) { plainHdr with sw := sw } (fun _ l => l.pairOp { op := .fmax, args := x } y) ∧
  TurnsLanes (.pairHadd2 sw x y) { plainHdr with sw := sw } (fun _ l => l.pairOp { op := .hadd2, args := x } y) ∧
  TurnsLanes (.pairHmul2 sw x y) { plainHdr with sw := sw } (fun _ l => l.pairOp { op := .hmul2, args := x } y) ∧
  TurnsLanes (.pairAddi sw x y) { plainHdr with sw := sw } (fun _ l => l.pairOp { op := .addi, args := x } y))

/-- Each class 0 word, from any state that is ready for it, completes: every lane of P gets the result of its row, and
the bundle goes on or its run ends. (R84, R86, R90, R91, R92, R93, R95, R96, R60) -/
def Obligations.IntegerWordsComplete : Prop :=
  (∀ h x, TurnsLanes (.add h x) h fun vs l => l.intOp vs x fun a b _ => a + b) ∧
  (∀ h x, TurnsLanes (.sub h x) h fun vs l => l.intOp vs x fun a b _ => a - b) ∧
  (∀ h x, TurnsLanes (.addc h x) h fun _ l => l.addCarry x) ∧
  (∀ h x, TurnsLanes (.subb h x) h fun _ l => l.subBorrow x) ∧
  (∀ h x, TurnsLanes (.mul h x) h fun vs l => l.intOp vs x fun a b _ => a * b) ∧
  (∀ h x, TurnsLanes (.mulh h x) h fun vs l => l.intOp vs x fun a b _ => a * b / 2 ^ tyBits x.ty) ∧
  (∀ h x, TurnsLanes (.mad h x) h fun vs l => l.intOp vs x fun a b c => a * b + c) ∧
  (∀ h x, TurnsLanes (.madw h x) h fun _ l => l.madWide x) ∧
  (∀ h x, TurnsLanes (.min_ h x) h fun vs l => l.intOp vs x fun a b _ => min a b) ∧
  (∀ h x, TurnsLanes (.max_ h x) h fun vs l => l.intOp vs x fun a b _ => max a b) ∧
  (∀ h x, TurnsLanes (.abs h x) h fun vs l => l.intOp vs x fun a _ _ => if a < 0 then -a else a) ∧
  (∀ h x, TurnsLanes (.neg h x) h fun vs l => l.intOp vs x fun a _ _ => -a) ∧
  (∀ h x, TurnsLanes (.adds h x) h fun _ l => l.overflowOp x (· + ·)) ∧
  (∀ h x, TurnsLanes (.subs h x) h fun _ l => l.overflowOp x (· - ·)) ∧
  (∀ h x, TurnsLanes (.clamp h x) h fun vs l => l.intOp vs x fun a b c => min (max a b) c) ∧
  (∀ h x, TurnsLanes (.lea h x) h fun _ l => l.leaOp x) ∧
  (∀ h x, TurnsLanes (.cmp h x) h fun _ l => l.cmpOp x) ∧
  (∀ h x, TurnsLanes (.sel h x) h fun _ l => l.selOp x) ∧
  (∀ h d k, TurnsLanes (.movi h d k) h fun _ l => l.setReg d.toNat (k.signExtend 32)) ∧
  (∀ h d k, TurnsLanes (.movh h d k) h fun _ l => l.setReg d.toNat (k ++ (l.reg d.toNat).setWidth 10)) ∧
  (∀ h x, TurnsLanes (.dp4 h x) h fun _ l => l.dp4Op x)

/-- Each class 1 word, from any state that is ready for it, completes: every lane of P gets the result of its row.
(R84, R97, R98, R99, R100, R101) -/
def Obligations.BitWordsComplete : Prop :=
  (∀ h x, TurnsLanes (.and_ h x) h fun _ l => l.bitOp x fun _ a b => a &&& b) ∧
  (∀ h x, TurnsLanes (.or_ h x) h fun _ l => l.bitOp x fun _ a b => a ||| b) ∧
  (∀ h x, TurnsLanes (.xor_ h x) h fun _ l => l.bitOp x fun _ a b => a ^^^ b) ∧
  (∀ h x, TurnsLanes (.andn h x) h fun _ l => l.bitOp x fun w a b => a &&& (2 ^ w - 1 - b)) ∧
  (∀ h x, TurnsLanes (.not_ h x) h fun _ l => l.bitOp x fun w a _ => 2 ^ w - 1 - a) ∧
  (∀ h x, TurnsLanes (.shl h x) h fun _ l => l.shiftOp x shiftLeft) ∧
  (∀ h x, TurnsLanes (.shr h x) h fun _ l => l.shiftOp x shiftRight) ∧
  (∀ h x, TurnsLanes (.sar h x) h fun _ l => l.sarOp x) ∧
  (∀ h x, TurnsLanes (.rotl h x) h fun _ l => l.shiftOp x rotateLeft) ∧
  (∀ h x, TurnsLanes (.bfx h x) h fun _ l => l.setReg x.d.toNat (fieldExtract (tySigned x.ty) (l.reg x.a.toNat) (l.srcB32 x))) ∧
  (∀ h x, TurnsLanes (.bfi h x) h fun _ l => l.setReg x.d.toNat (fieldInsert (l.reg x.a.toNat) (l.reg x.b.toNat) (l.reg x.c.toNat))) ∧
  (∀ h x, TurnsLanes (.popc h x) h fun _ l => l.countOp x popcount) ∧
  (∀ h x, TurnsLanes (.clz h x) h fun _ l => l.countOp x leadingZeros) ∧
  (∀ h x, TurnsLanes (.ctz h x) h fun _ l => l.countOp x trailingZeros) ∧
  (∀ h x, TurnsLanes (.brev h x) h fun _ l => l.bitOp x fun w a _ => bitReverse w a) ∧
  (∀ h x, TurnsLanes (.prmt h x) h fun _ l => l.setReg x.d.toNat (permute (l.reg x.a.toNat) (l.reg x.b.toNat) (l.reg x.c.toNat))) ∧
  (∀ h x, TurnsLanes (.lop3 h x) h fun _ l => l.setReg x.d.toNat (lut3 (lutOf x) (l.reg x.a.toNat) (l.reg x.b.toNat) (l.reg x.c.toNat)))

/-- Each class 2 word and each fixed-latency class 3 word, from any state that is ready for it (for a packed word:
whose view's elements are not of 4 bits; for `cvt`: where no lane of P consumes poison with its trap enabled),
completes: every lane of P gets the result of its row and its flags. (R22, R89, R102, R103, R104, R105, R106, R107,
R108, R111, R112, R113) -/
def Obligations.FloatWordsComplete : Prop :=
  (∀ h x, FloatsLanes (.fadd h x) h x fun f a b _ => addF f x.rm x.fs a b) ∧
  (∀ h x, FloatsLanes (.fsub h x) h x fun f a b _ => subF f x.rm x.fs a b) ∧
  (∀ h x, FloatsLanes (.fmul h x) h x fun f a b _ => mulF f x.rm x.fs a b) ∧
  (∀ h x, FloatsLanes (.ffma h x) h x fun f a b c => fmaF f x.rm x.fs a b c) ∧
  (∀ h x, FloatsLanes (.fmin h x) h x fun f a b _ => minF f x.fs a b) ∧
  (∀ h x, FloatsLanes (.fmax h x) h x fun f a b _ => maxF f x.fs a b) ∧
  (∀ h x, FloatsLanes (.fmed3 h x) h x fun f a b c => med3F f x.fs a b c) ∧
  (∀ h x, TurnsLanes (.fcmp h x) h fun _ l => l.fcmpOp x) ∧
  (∀ h x, TurnsLanes (.fclass h x) h fun _ l => l.setReg x.d.toNat (BitVec.ofNat 32 (2 ^ classF (fmtOf x.ty) (l.src x.ty x.a.toNat)))) ∧
  (∀ h x, TurnsLanes (.hfma2 h x) h fun _ l => l.halves x fun f a b c => fmaF f x.rm x.fs a b c) ∧
  (∀ h x, TurnsLanes (.hadd2 h x) h fun _ l => l.halves x fun f a b _ => addF f x.rm x.fs a b) ∧
  (∀ h x, TurnsLanes (.hmul2 h x) h fun _ l => l.halves x fun f a b _ => mulF f x.rm x.fs a b) ∧
  (∀ h x, TurnsLanes (.hdot2 h x) h fun _ l => l.hdotOp x) ∧
  (∀ h x, TurnsLanes (.dadd h x) h fun vs l => l.floatOp vs x fun f a b _ => addF f x.rm x.fs a b) ∧
  (∀ h x, TurnsLanes (.dmul h x) h fun vs l => l.floatOp vs x fun f a b _ => mulF f x.rm x.fs a b) ∧
  (∀ h x, TurnsLanes (.dfma h x) h fun vs l => l.floatOp vs x fun f a b c => fmaF f x.rm x.fs a b c) ∧
  (∀ h x, TurnsLanes (.dcmp h x) h fun _ l => l.fcmpOp x) ∧
  (∀ h x, TurnsLanes (.frnd h x) h fun vs l => l.floatOp vs x fun f a _ _ => integralF f x.rm x.fs a) ∧
  (∀ h x, TurnsLanes (.packH h x) h fun _ l => l.setReg x.d.toNat ((l.reg x.b.toNat).setWidth 16 ++ (l.reg x.a.toNat).setWidth 16)) ∧
  (∀ h x, TurnsLanes (.packW h x) h fun _ l => l.setPair x.d.toNat (join32 (l.reg x.a.toNat) (l.reg x.b.toNat))) ∧
  (∀ h x, TurnsLanes (.unpk h x) h fun _ l => let w := tyBits x.ty; l.setReg x.d.toNat (widen x.ty (BitVec.ofNat 64 ((l.reg x.a.toNat).toNat / 2 ^ (w * x.sub.toNat) % 2 ^ w)))) ∧
  (∀ h x, Acts (.cvt h x) h (fun s u => ∀ j ∈ u.act, (s.lane u j).cvtPoison x = false) fun s u =>
    s.mapLanes u u.act fun _ l => l.cvtOp x)

/-- Each variable-latency arithmetic word, from any state that is ready for it, completes: every lane of P holds one
more result of its run, with the registers and flags of its row; no register changes before the run's end. (R69, R70,
R94, R108, R109, R110) -/
def Obligations.LateWordsComplete : Prop :=
  (∀ h x, GivesResults (.div_ h x) h fun l => l.divOuts x (·.1)) ∧
  (∀ h x, GivesResults (.rem_ h x) h fun l => l.divOuts x (·.2)) ∧
  (∀ h x, GivesResults (.frcp h x) h fun l => l.floatOuts x fun f a _ => rcpF f x.fs a) ∧
  (∀ h x, GivesResults (.frsq h x) h fun l => l.floatOuts x fun f a _ => rsqF f x.fs a) ∧
  (∀ h x, GivesResults (.fsqrt h x) h fun l => l.floatOuts x fun f a _ => sqrtF f x.rm x.fs a) ∧
  (∀ h x, GivesResults (.fdiv h x) h fun l => l.floatOuts x fun f a b => divF f x.rm x.fs a b) ∧
  (∀ h x, GivesResults (.fex2 h x) h fun l => l.floatOuts x fun f a _ => ex2F f x.fs a) ∧
  (∀ h x, GivesResults (.flg2 h x) h fun l => l.floatOuts x fun f a _ => lg2F f x.fs a) ∧
  (∀ h x, GivesResults (.fsin h x) h fun l => l.floatOuts x fun f a _ => trigF 0 f x.fs a) ∧
  (∀ h x, GivesResults (.fcos h x) h fun l => l.floatOuts x fun f a _ => trigF 1 f x.fs a)

/-- Each class 4 word but for special and view registers, `hlp.is` and `dqnt`, from any state that is ready for it,
completes: every lane of P gets the registers or predicates of its row. (R114, R115, R116, R173, R218) -/
def Obligations.MoveWordsComplete : Prop :=
  (∀ h x, TurnsLanes (.mov h x) h fun _ l => l.dst x.ty x.d.toNat (l.src x.ty x.a.toNat)) ∧
  (∀ h x, TurnsLanes (.movImm h x) h fun _ l => l.dst x.ty x.d.toNat ((immOf x).setWidth 64)) ∧
  (∀ h x, TurnsLanes (.pset h x) h fun _ l => l.setPred x.d.toNat ((if x.i then (immOf x).setWidth 32 else l.reg x.a.toNat) != 0)) ∧
  (∀ h x, TurnsLanes (.psetAll h x) h fun _ l => { l with preds := (l.reg x.a.toNat).setWidth 24 }) ∧
  (∀ h x, TurnsLanes (.pget h x) h fun _ l => l.setReg x.d.toNat (if l.pred x.a.toNat then 1 else 0)) ∧
  (∀ h x, TurnsLanes (.pgetAll h x) h fun _ l => l.setReg x.d.toNat (l.preds.setWidth 32)) ∧
  (∀ h x, TurnsLanes (.pand h x) h fun _ l => l.predOp x (· && ·)) ∧
  (∀ h x, TurnsLanes (.por h x) h fun _ l => l.predOp x (· || ·)) ∧
  (∀ h x, TurnsLanes (.pxor h x) h fun _ l => l.predOp x (· != ·)) ∧
  (∀ h x, TurnsLanes (.pnot h x) h fun _ l => l.setPred x.d.toNat (!l.pred x.a.toNat)) ∧
  (∀ h x, TurnsLanes (.nop h x) h fun _ l => l) ∧
  (∀ h x, TurnsLanes (.hlpIs h x) h fun _ l => l.setPred x.d.toNat (l.kind == .helper)) ∧
  (∀ h x, TurnsLanes (.dqnt h x) h fun _ l => l.put (dequantLane x l))

/-- From any state that is ready: `rdsr` writes the special register's value to D in every lane of P; `wrsr` of a
lane's own register writes it in each lane of P, with reserved bits ignored; `wrsr` of a privileged register makes one
write for each live lane of P in ascending slot; `vwset` of acceptable values leaves the value of the highest live
lane of P in the view register. (R25, R28, R30, R31, R117, R118, R152, R379) -/
def Obligations.SpecialRegisterWordsComplete : Prop :=
  (∀ h x, Acts (.rdsr h x) h (fun _ _ => True) fun s u => s.mapLanes u u.act fun j l =>
    let v := s.specialValue u x.a.toNat j l
    if srWide x.a.toNat then l.setPair x.d.toNat v else l.setReg x.d.toNat (v.setWidth 32)) ∧
  (∀ h x, x.d = 0x18 → Acts (.wrsr h x) h (fun _ _ => True) fun s u => s.mapLanes u u.act fun _ l =>
    { l with fpstat := l.reg x.a.toNat &&& 0x7F }) ∧
  (∀ h x, x.d = 0x19 → Acts (.wrsr h x) h (fun _ _ => True) fun s u => s.mapLanes u u.act fun _ l =>
    { l with trapen := l.reg x.a.toNat &&& 0x3 }) ∧
  (∀ h x, x.d = 0x1A → Acts (.wrsr h x) h (fun _ _ => True) fun s u => s.mapLanes u u.act fun _ l =>
    { l with spill := l.reg x.a.toNat &&& 0x3FFF0 }) ∧
  (∀ h x, 0x40 ≤ x.d.toNat → Acts (.wrsr h x) h (fun _ _ => True) fun s u =>
    u.plive.foldl (fun s j => s.writePriv x.d.toNat ((s.lane u j).reg x.a.toNat)) s) ∧
  (∀ h x, Acts (.vwset h x) h (fun s u => ∀ j ∈ u.act, viewReserved ((s.lane u j).viewValue x) = false) fun s u =>
    match u.plive.getLast? with
    | none => s
    | some j => s.updTeam u.team fun t => { t with views := t.views.set x.d.toNat ((s.lane u j).viewValue x) })

/-- From any state that is ready for it and where U is 0 or every lane of the bundle takes the same direction: `bra`
and `call` send every lane of P to the address of the word plus 8 times the signed 29-bit offset, with the block
priority BP; `brx`, `callx` and `ret` to the code pointer in the pair A, with its priority; `call` and `callx` leave
{$prio, PC + 8} in the pair D, after A has been read. Lanes outside P go on at the next word. (R119, R122, R123, R124)
-/
def Obligations.TransfersComplete : Prop :=
  ∀ (h : Hdr) (x : Ctl) (s : State) (u : Bun),
    let target : VAddr := u.pc + ((x.a ++ (x.b ++ x.ofl) : BitVec 29).signExtend 56 <<< 3)
    let ptr (l : Lane) : W64 := l.pair x.a.toNat
    let link (l : Lane) : Lane := l.setPair x.d.toNat (l.prio ++ (u.pc + 8))
    let far (l : Lane) : VAddr := BitVec.ofNat 56 ((ptr l).toNat % 2 ^ 56 / 8 * 8)
    let goes (l : Lane) : Byte := BitVec.ofNat 8 ((ptr l).toNat / 2 ^ 56)
    let one (d : Lane → VAddr × Byte) : Prop := x.u = false ∨ ∀ j ∈ u.live, ∀ k ∈ u.live,
      (if j ∈ u.act then some (d (s.lane u j)) else none) = (if k ∈ u.act then some (d (s.lane u k)) else none)
    let near : Prop := one fun _ => (target, x.bp)
    let away : Prop := one fun l => (far l, goes l)
    let next (i : Instr) (f : Lane → Lane) : Prop :=
      exec i s = .next (s.afterWord (s.mapLanes u u.act fun _ l => f l) i u u.act h.sw)
    (Ready s (.bra h x) h u → near → next (.bra h x) fun l => { l with pc := target, prio := x.bp }) ∧
    (Ready s (.call h x) h u → near → next (.call h x) fun l => { link l with pc := target, prio := x.bp }) ∧
    (Ready s (.brx h x) h u → away → next (.brx h x) fun l => { l with pc := far l, prio := goes l }) ∧
    (Ready s (.ret h x) h u → away → next (.ret h x) fun l => { l with pc := far l, prio := goes l }) ∧
    (Ready s (.callx h x) h u → away → next (.callx h x) fun l => { link l with pc := far l, prio := goes l })

/-- Where U is 1 and the live lanes of the bundle take more than one direction (target and priority, or none), `bra`,
`call`, `brx`, `callx` and `ret` raise the uniformity violation 0x03 in the lanes of P before any effect: INFO0 of the
record is the mask of the live lanes whose direction differs from that of the lowest one, INFO1 is 0. A bundle of one
live lane never raises it: the word goes on as with U = 0. (R119, R122, R123, R124, R351) -/
def Obligations.DissentTraps : Prop :=
  ∀ (h : Hdr) (x : Ctl) (s : State) (u : Bun) (k : Nat) (ks : List Nat), u.live = k :: ks →
    let target : VAddr := u.pc + ((x.a ++ (x.b ++ x.ofl) : BitVec 29).signExtend 56 <<< 3)
    let ptr (l : Lane) : W64 := l.pair x.a.toNat
    let link (l : Lane) : Lane := l.setPair x.d.toNat (l.prio ++ (u.pc + 8))
    let near (_ : Lane) : VAddr × Byte := (target, x.bp)
    let far (l : Lane) : VAddr × Byte :=
      (BitVec.ofNat 56 ((ptr l).toNat % 2 ^ 56 / 8 * 8), BitVec.ofNat 8 ((ptr l).toNat / 2 ^ 56))
    let way (d : Lane → VAddr × Byte) (j : Nat) : Option (VAddr × Byte) := if j ∈ u.act then some (d (s.lane u j)) else none
    let others (d : Lane → VAddr × Byte) : List Nat := ks.filter fun j => way d j != way d k
    let transfer (i : Instr) (d : Lane → VAddr × Byte) (keep : Lane → Lane) : Prop := Ready s i h u →
      (x.u = true → others d ≠ [] →
        exec i s = .next (s.trapLanes u (trapAll u.act (trapAt 0x03 u.pc ((maskOf (others d)).setWidth 64) 0)))) ∧
      (ks = [] → exec i s = .next (s.afterWord
        (s.mapLanes u u.act fun _ l => { keep l with pc := (d l).1, prio := (d l).2 }) i u u.act h.sw))
    transfer (.bra h x) near id ∧ transfer (.call h x) near link ∧ transfer (.brx h x) far id ∧
    transfer (.callx h x) far link ∧ transfer (.ret h x) far id

/-- From any state that is ready: where no lane of P holds four loops, `loop` pushes {start PC + 8, end PC + 8*OFL,
count} in each lane of P and goes on, or skips to the word after the end when the count is 0; where every lane of P
holds a loop, `loop.pop` removes the innermost one; `prio` sets the priority of the lanes of P. With four loops held,
whatever the count, `loop` raises the loop fault 0x06 in the lanes of P that hold them, and `loop.pop` in those that
hold none, with every loop stack as it was. (R126, R129, R134, R351) -/
def Obligations.LoopWordsComplete : Prop :=
  ∀ (h : Hdr) (x : Ctl) (s : State) (u : Bun),
    let stop : VAddr := u.pc + (x.ofl.setWidth 56 <<< 3)
    let push (c : W32) (l : Lane) : Lane :=
      if c = 0 then { l with pc := stop + 8 }
      else { l with loops := { start := u.pc + 8, stop := stop, count := c } :: l.loops, pc := u.pc + 8 }
    let room : Prop := ∀ j ∈ u.act, (s.lane u j).loops.length < 4
    (Ready s (.loop h x) h u → room → exec (.loop h x) s = .next (s.afterWord
      (s.mapLanes u u.act fun _ l => push (l.reg x.a.toNat) l) (.loop h x) u u.act h.sw)) ∧
    (Ready s (.loopImm h x) h u → room → exec (.loopImm h x) s = .next (s.afterWord
      (s.mapLanes u u.act fun _ l => push ((x.d ++ x.a).setWidth 32) l) (.loopImm h x) u u.act h.sw)) ∧
    (Ready s (.loopPop h x) h u → (∀ j ∈ u.act, (s.lane u j).loops ≠ []) → exec (.loopPop h x) s = .next (s.afterWord
      (s.mapLanes u u.act fun _ l => { l with loops := l.loops.tail, pc := u.pc + 8 }) (.loopPop h x) u u.act h.sw)) ∧
    Acts (.prio h x) h (fun _ _ => True) (fun s u => s.mapLanes u u.act fun _ l => { l with prio := x.bp }) ∧
    let full : List Nat := u.act.filter fun j => 4 ≤ (s.lane u j).loops.length
    let none_ : List Nat := u.act.filter fun j => (s.lane u j).loops.isEmpty
    let faults (i : Instr) (js : List Nat) : Prop := Ready s i h u → (∃ j ∈ js, j ∈ u.live) →
      exec i s = .next (s.trapLanes u (trapAll js (trapAt 0x06 u.pc)))
    faults (.loop h x) full ∧ faults (.loopImm h x) full ∧ faults (.loopPop h x) none_

/-- From any state that is ready: `exit`, `sleep`, `reform`, `join`, `bar`, `gbar` and `mwait` end the run whatever S
is, and what they do in the live lanes of P (for `reform`: those whose predicate is set) is done at the run's end,
with deadlines fixed at issue; `yield` ends the run and opens its window of 16 clocks when P has a live lane. (R68,
R130, R131, R132, R166, R181, R186, R188, R248) -/
def Obligations.RunEndersComplete : Prop :=
  (∀ h x, EndsRun (.exit h x) h fun _ u => .exit u.plive) ∧
  (∀ h x, EndsRun (.sleep h x) h fun s u =>
    .sleep u.plive (u.plive.map fun j => (j, s.timeAt u.core + ((s.lane u j).reg x.a.toNat).setWidth 64))) ∧
  (∀ h x, EndsRun (.sleepUntil h x) h fun s u => .sleep u.plive (u.plive.map fun j => (j, (s.lane u j).pair x.a.toNat))) ∧
  (∀ h x, EndsRun (.reform h x) h fun s u => .reform (u.plive.filter fun j => (s.lane u j).pred x.a.toNat)) ∧
  (∀ h x, EndsRun (.join_ h x) h fun _ u => .join u.plive x.c.toNat) ∧
  (∀ h x, EndsRun (.bar h x) h fun _ u => .bar u.plive false) ∧
  (∀ h x, EndsRun (.gbar h x) h fun _ u => .bar u.plive true) ∧
  (∀ h x, EndsRun (.mwait h x) h fun _ u => .mwait u.plive []) ∧
  (∀ h x, EndsRun (.mwaitTimeout h x) h fun s u =>
    .mwait u.plive (u.plive.map fun j => (j, s.timeAt u.core + ((s.lane u j).reg x.a.toNat).setWidth 64))) ∧
  (∀ (h : Hdr) (x : Ctl) (s : State) (u : Bun), Ready s (.yield h x) h u → exec (.yield h x) s = .next (s.afterWord
    (if u.plive = [] then s else s.updGroup u.team u.group fun g => { g with yieldEnd := s.time.clock + 17 })
    (.yield h x) u [] true))

/-- From any state that is ready: `shfl` and `qswap` give each lane of P the value of the slot they name where that
slot is in the bundle, its own otherwise; `vote` and `vote.ballot` count the live lanes of P whose predicate is set;
`match` gives each live lane of P the mask of the live lanes of P with its value; `compact` its rank; `redux` combines
the values of the live lanes of P; `qdd` the difference of two lanes of the quad. (R169, R171, R172, R174, R175, R176,
R177, R179, R180) -/
def Obligations.CrossLaneWordsComplete : Prop :=
  ∀ (h : Hdr) (x : Arith),
    let val (s : State) (u : Bun) (j : Nat) : W64 := (s.lane u j).src x.ty x.a.toNat
    let from_ (s : State) (u : Bun) (j : Nat) : Option Nat → W64
      | some k => if k ∈ u.slots then val s u k else val s u j
      | none => val s u j
    let set_ (s : State) (u : Bun) : List Nat := u.plive.filter fun j => (s.lane u j).pred x.a.toNat
    Acts (.shfl h x) h (fun _ _ => True) (fun s u => s.mapLanes u u.act fun j l =>
      let b := (if x.i then (immOf x).toNat else (l.reg x.b.toNat).toNat) % 32
      l.dst x.ty x.d.toNat (from_ s u j (match x.sub.toNat with
        | 0 => some b
        | 1 => if b ≤ j then some (j - b) else none
        | 2 => if j + b < 32 then some (j + b) else none
        | _ => some (j ^^^ b)))) ∧
    Acts (.qswap h x) h (fun _ _ => True) (fun s u => s.mapLanes u u.act fun j l =>
      l.dst x.ty x.d.toNat (from_ s u j (some (j / 4 * 4 + (j % 4 ^^^ (x.sub.toNat + 1)))))) ∧
    Acts (.vote h x) h (fun _ _ => True) (fun s u => s.mapLanes u u.act fun _ l =>
      l.setPred x.d.toNat (match x.sub.toNat with
        | 0 => (set_ s u).length == u.plive.length
        | 1 => (set_ s u).length != 0
        | _ => (set_ s u).length == 0 || (set_ s u).length == u.plive.length)) ∧
    Acts (.voteBallot h x) h (fun _ _ => True) (fun s u => s.mapLanes u u.act fun _ l =>
      l.setReg x.d.toNat (maskOf (set_ s u))) ∧
    Acts (.match_ h x) h (fun _ _ => True) (fun s u => s.mapLanes u u.plive fun j l =>
      l.setReg x.d.toNat (maskOf (u.plive.filter fun k => val s u k == val s u j))) ∧
    Acts (.compact h x) h (fun _ _ => True) (fun s u => s.mapLanes u u.plive fun j l =>
      l.setReg x.d.toNat (BitVec.ofNat 32 (if x.sub = 1 then (set_ s u).length
        else if (set_ s u).contains j then ((set_ s u).filter (· < j)).length
        else (set_ s u).length + ((u.plive.filter fun k => !(set_ s u).contains k).filter (· < j)).length))) ∧
    Acts (.redux h x) h (fun _ u => u.plive ≠ []) (fun s u => s.mapLanes u u.act fun _ l =>
      match reduxValue x (u.plive.map (val s u))
          ((List.range 32).map fun j => if u.plive.contains j then some (val s u j) else none) with
      | some v => l.put { writes := resultRegs x.ty x.d.toNat v.1, flags := v.2 }
      | none => l) ∧
    Acts (.qdd h x) h (fun _ _ => True) (fun s u => s.mapLanes u u.act fun j l =>
      let (p, q) := qddPlaces x.sub.toNat (j % 4)
      match s.given u x (j / 4 * 4 + p), s.given u x (j / 4 * 4 + q) with
      | some a, some b =>
        let r := subF (fmtOf x.ty) x.rm x.fs a b
        l.put { writes := resultRegs x.ty x.d.toNat r.val, flags := r.flags }
      | _, _ => l.put { writes := resultRegs x.ty x.d.toNat 0, flags := 0 })

/-- From any state that is ready: `sign` of lanes that may all sign signs them in ascending `$tid` and sets the
predicate of the live lanes of P where their word completes the epoch; `cvset` of a register with no signature
declares the team, P, or P besides; `spawn` offers one task for each live lane of P; `launch` of records that lie on
128-byte lines in the team's memory and are present offers one record for each live lane of P; `hlp.on` fills the
empty slots of the quads of P with helpers that join the word's entry and `hlp.off` empties their helper slots. (R149,
R173, R184, R185, R190, R192) -/
def Obligations.TeamWordsComplete : Prop :=
  ∀ (h : Hdr) (x : Arith),
    Acts (.sign h x) h (fun s u => s.cvTraps u.team u.group x.c.toNat u.pc u.plive = []) (fun s u =>
      let r := s.signLanes u.team u.group x.c.toNat u.pc u.plive
      let s := r.1.mapLanes u u.act fun j l => l.setPred x.d.toNat (!r.2.isEmpty && u.plive.contains j)
      if r.2.isEmpty then s else s.settle) ∧
    (∀ s u t, Ready s (.cvset h x) h u → s.team? u.team = some t → u.plive ≠ [] → (t.cv x.c.toNat).sgn = 0 →
      let mine := tidSet (u.plive.map fun i => (s.lane u i).tid)
      let decl := match x.sub.toNat with
        | 0 => tidSet (s.liveTids t)
        | 1 => mine
        | _ => (t.cv x.c.toNat).decl ||| mine
      exec (.cvset h x) s = .next (s.afterWord (s.updTeam u.team fun t =>
        { t with cvs := t.cvs.set x.c.toNat { decl := decl, sgn := 0, anchor := none, op := none, group := none } })
        (.cvset h x) u [] h.sw)) ∧
    Acts (.spawn h x) h (fun _ _ => True) (fun s u => u.plive.foldl (fun s i => s.offerTask u x i) s) ∧
    Acts (.launch h x) h (fun s u => ((s.lqs.getD x.sub.toNat LaunchQueue.reset).priv = false ∨ u.priv = true) ∧
        (∀ t, s.team? u.team = some t → ∀ i ∈ u.plive, ((s.lane u i).reg x.a.toNat).toNat % 128 = 0 ∧
          ((s.lane u i).reg x.a.toNat).toNat + 128 ≤ t.shared) ∧
        s.linesPresent u.team (u.plive.map fun i => (Space.sh, ((s.lane u i).reg x.a.toNat).toNat / 128)) = true)
      (fun s u => u.plive.foldl (fun s i => s.offerRecord u x i)
        (s.noteRead u .sh (u.plive.map fun i => ((s.lane u i).reg x.a.toNat).toNat))) ∧
    Acts (.hlpOff h x) h (fun _ _ => True) (fun s u => s.updGroup u.team u.group fun g =>
      Group.tidy { g with lanes := g.lanes.zipIdx.map fun (l, j) =>
        if l.kind = .helper ∧ u.quads.contains (j / 4) then emptyLane else l }) ∧
    (∀ s u t, Ready s (.hlpOn h x) h u → s.team? u.team = some t →
      exec (.hlpOn h x) s = .next (s.afterWord (s.updGroup u.team u.group fun g =>
        let model (j : Nat) : Option Nat := u.act.find? fun k => k / 4 == j / 4
        let new := (List.range 32).filter fun j => (g.lane j).kind == .empty && (model j).isSome
        let lanes := g.lanes.zipIdx.map fun (l, j) =>
          if new.contains j then helperFrom t u.group j (g.lane ((model j).getD 0)) (s.timeAt u.core) else l
        { g with lanes := lanes, entries := g.entries.map fun e =>
            if e.mask.getLsbD u.slot then { e with mask := e.mask ||| maskOf new } else e }) (.hlpOn h x) u [] h.sw))

/-- From any state that is ready: `mma` and `mmaq`, where no live lane of P has signed the epoch and all may sign,
capture the lanes' fragments and sign (`mmaq` with an outlier descriptor bound); `tzero`, `tfill`, `tld` and `tst`
issue their operation on the tile (`tld` and `tst` at a granted 128-byte aligned image, `tst` once the tile's earlier
operations are done and no fault is recorded); `tmov`, `tstat` and `olcnt` leave a result that joins the tile or
descriptor; `qnt` without a descriptor quantises; `olset` binds a well-formed descriptor. (R196, R200, R201, R212,
R213, R214, R215, R217, R219, R220) -/
def Obligations.MatrixWordsComplete : Prop :=
  ∀ (h : Hdr) (x : Mat),
    let signs (i : Instr) (quant : Bool) : Prop := ∀ (s : State) (u : Bun) (t : Team), Ready s i h u →
      s.team? u.team = some t → u.plive ≠ [] →
      (quant = true → x.oe = true → (t.od x.od.toNat).isSome = true) →
      (∀ j ∈ u.plive, (t.cv x.cv.toNat).decl.getLsbD (s.lane u j).tid = true ∧
        (t.cv x.cv.toNat).sgn.getLsbD (s.lane u j).tid = false) →
      ((t.cv x.cv.toNat).anchor = none ∨ (t.cv x.cv.toNat).anchor = some u.pc) →
      ((t.cv x.cv.toNat).group = none ∨ (t.cv x.cv.toNat).group = some u.group) →
      exec i s = .next (s.afterWord (
        let caps := u.plive.map fun j => captureOf x j (s.lane u j)
        let op : MatOp := match (t.cv x.cv.toNat).op with
          | some m => { m with caps := caps ++ m.caps.filter fun c => !u.plive.contains c.slot }
          | none => { num := s.nextNum, pc := u.pc, quant := quant, word := x, caps := caps }
        let s1 := s.fresh.2.updTeam u.team fun t =>
          { t with cvs := t.cvs.set x.cv.toNat { t.cv x.cv.toNat with op := some op, group := some u.group } }
        let r := s1.signLanes u.team u.group x.cv.toNat u.pc u.plive
        if r.2.isEmpty then r.1 else r.1.settle) i u [] h.sw)
    let image (s : State) (u : Bun) : Prop := u.plive ≠ [] ∧ ∀ t, s.team? u.team = some t →
      s.imageAddr u x % 128 = 0 ∧ s.imageAddr u x + 8192 ≤ t.shared
    signs (.mma h x) false ∧ signs (.mmaq h x) true ∧
    Acts (.tzero h x) h (fun _ u => u.act ≠ []) (fun s u => s.issueTile u x.d.toNat .zero) ∧
    Acts (.tfill h x) h (fun _ u => u.plive ≠ []) (fun s u => s.issueTile u x.d.toNat
      (.fill x.b.toNat (u.plive.map fun j => (j, (s.lane u j).run x.a.toNat 32)))) ∧
    Acts (.tld h x) h image (fun s u => s.issueTile u x.d.toNat (.load (s.imageAddr u x))) ∧
    Acts (.tst h x) h (fun s u => image s u ∧ s.tileWaits u x.d.toNat = [] ∧ ∀ t, s.team? u.team = some t →
        (t.tile x.d.toNat).fault = none ∧ t.local_.full (linesOf (s.imageAddr u x) 8192) = false)
      (fun s u => (s.raiseLines u.team .sh (linesOf (s.imageAddr u x) 8192)).issueTile u x.d.toNat
        (.store (s.imageAddr u x))) ∧
    Acts (.tmov h x) h (fun _ u => u.act ≠ []) (fun s u => (s.fresh.2.mapLanes u u.act fun _ l => l.addResult
      { num := s.nextNum, pc := u.pc, need := .tileHalf x.a.toNat x.b.toNat x.d.toNat (s.tileWaits u x.a.toNat), writes := [],
        flags := 0, trap := none, back := false }).formJoins u.team) ∧
    Acts (.tstat h x) h (fun _ u => u.act ≠ []) (fun s u => (s.fresh.2.mapLanes u u.act fun _ l => l.addResult
      { num := s.nextNum, pc := u.pc, need := .tileStat x.a.toNat x.d.toNat (s.tileWaits u x.a.toNat), writes := [],
        flags := 0, trap := none, back := false }).formJoins u.team) ∧
    Acts (.olcnt h x) h (fun s u => u.act ≠ [] ∧ ∀ t, s.team? u.team = some t → (t.od x.od.toNat).isSome = true)
      (fun s u => (s.fresh.2.mapLanes u u.act fun _ l => l.addResult
        { num := s.nextNum, pc := u.pc,
          need := .olist x.od.toNat x.d.toNat (match s.team? u.team with | some t => t.odJoin x.od.toNat | none => []),
          writes := [], flags := 0, trap := none, back := false }).formJoins u.team) ∧
    Acts (.qnt h x) h (fun _ u => u.act ≠ [] ∧ x.oe = false) (fun s u => s.mapLanes u u.act fun j l =>
      l.put (quantLane x j [] l)) ∧
    ActsOnce (.olset h x) h (fun _ _ t l => t.odJoin x.od.toNat = [] ∧ (t.od x.od.toNat).bind (·.fault) = none ∧
        ∃ o, bindOd (l.reg x.a.toNat) (l.reg (x.a.toNat + 1)) = some o ∧ o.base + 8 * o.cap ≤ t.shared)
      (fun s u _ _ l => match bindOd (l.reg x.a.toNat) (l.reg (x.a.toNat + 1)) with
        | some o => s.updTeam u.team fun t => { t with ods := t.ods.set x.od.toNat (some o) }
        | none => s)

/-- From any state that is ready, where every address the word uses lies in its space's grant and is aligned: `ld`,
`gath` and `atom` leave a result in each lane (live lanes alone for `atom`) and hand the access to the port or read
the lane's stack; `st`, `scat` and `atomc` hand their accesses to the port or write the lane's stack; `pchk` tells
whether the line is present; `mon` arms a monitor on the word. (R237, R238, R239, R241, R242, R243, R244, R246, R247)
-/
def Obligations.LocalWordsComplete : Prop :=
  ∀ (h : Hdr) (x : Loc),
    let n := widthBytes x.width
    let one (l : Lane) : List Int := [l.locAddr x false]
    let at_ (s : State) (u : Bun) (j : Nat) : Nat := ((s.lane u j).locAddr x false).toNat
    Acts (.ld h x) h (fun s u => Accessible s u x.space n u.act one) (fun s u =>
      let num := s.nextNum
      let s := s.fresh.2
      let s := s.noteRead u x.space (u.act.map (at_ s u))
      u.act.foldl (fun s j => if x.space = .sp then s.loadStack u x num j else s.loadLocal u x num j) s) ∧
    Acts (.st h x) h (fun s u => Accessible s u x.space n u.act one) (fun s u =>
      u.plive.foldl (fun s j => s.storeOne u x j) s) ∧
    Acts (.gath h x) h (fun s u => (x.split = true → s.splitTraps u x = []) ∧
        Accessible s u x.space n u.act fun l => l.elemAddrs x) (fun s u =>
      let num := s.nextNum
      let s := s.fresh.2
      let s := s.noteRead u x.space (u.act.flatMap fun j => ((s.lane u j).elemAddrs x).map Int.toNat)
      let s := u.act.foldl (fun s j => s.gatherOne u x num j) s
      if x.split then s.updGroup u.team u.group fun g => g.updEntry u.slot fun e => { e with split := true } else s) ∧
    Acts (.scat h x) h (fun s u => Accessible s u x.space n u.act fun l => l.elemAddrs x) (fun s u =>
      if x.split then u.plive.foldl (fun s j => ((s.lane u j).scatterElems x).foldl (fun s (p, data) =>
        s.issueLocal (s.heldFor u j (.store p data))) s) s
      else match u.plive with
        | [] => s
        | j :: _ => s.issueLocal (s.heldFor u j (.scatter (u.plive.flatMap fun k => (s.lane u k).scatterElems x)
            (u.plive.map fun k => (s.lane u k).tid)))) ∧
    Acts (.atom h x) h (fun s u => Accessible s u x.space n u.act one) (fun s u =>
      let num := s.nextNum
      let s := s.fresh.2
      let s := s.noteRead u x.space (u.plive.map (at_ s u))
      u.plive.foldl (fun s j => s.atomOne u x (some num) j) s) ∧
    Acts (.atomc h x) h (fun s u => Accessible s u x.space n u.act one) (fun s u =>
      let s := s.noteRead u x.space (u.plive.map (at_ s u))
      u.plive.foldl (fun s j => s.atomOne u x none j) s) ∧
    Acts (.pchk h x) h (fun s u => Accessible s u x.space n u.act one) (fun s u =>
      let s := s.noteRead u x.space (u.act.map (at_ s u))
      s.mapLanes u u.act fun _ l =>
        l.setPred x.d.toNat (s.linesPresent u.team [(x.space, (l.locAddr x false).toNat / 128)])) ∧
    Acts (.mon h x) h (fun s u => x.space ≠ .mm ∧ Accessible s u x.space 8 u.act one) (fun s u =>
      u.plive.foldl (fun s j => s.arm u j (.word x.space ((s.lane u j).locAddr x false).toNat)) s) ∧
    Acts (.mon h x) h (fun s u => x.space = .mm ∧ ∀ j ∈ u.act,
        let a := ((s.desc u.ctx).1.lane u j).monVa x
        a % 8 = 0 ∧ 0 ≤ a ∧ spanXlate (descSpans (s.desc u.ctx).2) a.toNat permRead ≠ none)
      (fun s u => u.plive.foldl (fun t j => t.armMain u x (descSpans (s.desc u.ctx).2) j) (s.desc u.ctx).1)

/-- From any state that is ready, with the word not in the middle of its issue and the operand checks of its
description passed in each lane of P: where the queue takes the lanes' operations and no destination line is full,
`cpyin`, `cpyout`, `cpyg`, `cpys`, `fatom`, its form without a result, and `fcas` issue one operation for each live
lane of P in ascending slot. (R249, R250, R253, R254, R256, R295) -/
def Obligations.CopyWordsIssue : Prop :=
  ∀ (h : Hdr) (x : Main) (s t : State) (u : Bun) (tm : Team), s.team? u.team = some tm → s.progress u = none →
    let q := x.cq.toNat
    let spc := spaceOf (x.opx.getLsbD 0)
    let esz := 16 * 2 ^ (x.opx.toNat / 2 % 8)
    let main (j : Nat) : W64 := (s.lane u j).pair x.a.toNat
    let loc (j : Nat) : Nat := ((s.lane u j).reg x.d.toNat).toNat
    let b0 (j : Nat) : Nat := ((s.lane u j).reg x.b.toNat).toNat
    let b1 (j : Nat) : Nat := ((s.lane u j).reg (x.b.toNat + 1)).toNat
    let room : Prop := s.queueRoom u.team q u.plive.length = true
    let copyOk : Prop := room ∧ ∀ j ∈ u.act, b0 j % 16 = 0 ∧ b0 j ≤ 2 ^ 24 ∧ main j % 16 = 0 ∧ loc j % 16 = 0 ∧
      (b0 j = 0 ∨ s.granted tm (s.lane u j).tid spc (loc j) (b0 j) = true) ∧ (main j).toNat < 2 ^ 56
    let listOk : Prop := room ∧ ∀ j ∈ u.act, 1 ≤ b1 j ∧ b1 j ≤ 65536 ∧ main j % 16 = 0 ∧ loc j % 16 = 0 ∧ b0 j % 4 = 0 ∧
      s.granted tm (s.lane u j).tid spc (loc j) (esz * b1 j) = true ∧
      s.granted tm (s.lane u j).tid spc (b0 j) (4 * b1 j) = true ∧ (main j).toNat < 2 ^ 56
    let farOk : Prop := ∀ j ∈ u.act, main j % (if x.opx.getLsbD 4 then 8 else 4) = 0 ∧ (main j).toNat < 2 ^ 56
    let each (mk : Lane → OpKind) (empty : Lane → Bool) : Prop :=
      u.plive.foldlM (fun s j => s.issueCopy u x j (mk (s.lane u j)) (empty (s.lane u j))) s = some t
    let a56 (l : Lane) : VAddr := (l.pair x.a.toNat).setWidth 56
    let r (l : Lane) (n : Field8) : Nat := (l.reg n.toNat).toNat
    let next (i : Instr) (t : State) : Prop := exec i s = .next (s.afterWord t i u [] h.sw)
    (Ready s (.cpyin h x) h u → copyOk → each (fun l => .copyIn (r l x.d) (a56 l) (r l x.b)) (fun l => r l x.b == 0) →
      next (.cpyin h x) t) ∧
    (Ready s (.cpyout h x) h u → copyOk → each (fun l => .copyOut (r l x.d) (a56 l) (r l x.b)) (fun l => r l x.b == 0) →
      next (.cpyout h x) t) ∧
    (Ready s (.cpyg h x) h u → listOk →
      each (fun l => .gatherIn (r l x.d) (a56 l) (r l x.b) (l.reg (x.b.toNat + 1)).toNat esz) (fun _ => false) →
      next (.cpyg h x) t) ∧
    (Ready s (.cpys h x) h u → listOk →
      each (fun l => .scatterOut (r l x.d) (a56 l) (r l x.b) (l.reg (x.b.toNat + 1)).toNat esz) (fun _ => false) →
      next (.cpys h x) t) ∧
    (Ready s (.fatom h x) h u → farOk →
      next (.fatom h x) (u.plive.foldl (fun s' j => s'.issueFar u x false (some s.nextNum) j) s.fresh.2)) ∧
    (Ready s (.fatomNr h x) h u → farOk → room →
      next (.fatomNr h x) (u.plive.foldl (fun s' j => s'.issueFar u x false none j) s)) ∧
    (Ready s (.fcas h x) h u → farOk →
      next (.fcas h x) (u.plive.foldl (fun s' j => s'.issueFar u x true (some s.nextNum) j) s.fresh.2))

/-- From any state that is ready: a `fence` that does not release, or of lane scope, or with no live lane of P,
acquires and goes on; a releasing `fence` or a `publ` whose release is over (its tick has come) clears the lanes' CT
or publishes the lines of each live lane of P; `mhint` hints each line of each range of at most 16 MiB, `.drop` the
lines that lie wholly in it, as a write of its lane; a release that begins completes at once where its tick has come,
and is held until then otherwise; `mcast` with operands that pass its checks issues one operation where the queue and
the lines have room. (That a lane-scope release leaves CT as it was, that `publ` waits as a release does and leaves CT
as well, and that a hint over 16 MiB has no effect are the readings of log entry 41.) (R255, R259, R260, R261, R267,
R268) -/
def Obligations.FenceWordsComplete : Prop :=
  ∀ (h : Hdr) (x : Main),
    Acts (.fence h x) h (fun _ u => u.plive = [] ∨ x.scope = .lane ∨ x.opx.getLsbD 0 = false) (fun s u => s.acquire u x) ∧
    Acts (.fence h x) h (fun s u => u.plive ≠ [] ∧ x.scope ≠ .lane ∧ x.opx.getLsbD 0 = true ∧
        ∃ w, s.progress u = some w ∧ w ≤ s.timeAt u.core)
      (fun s u => (s.mapLanes u u.plive fun _ l => { l with ct := 0 }).acquire u x) ∧
    Acts (.publ h x) h (fun s u => u.plive ≠ [] ∧ ∃ w, s.progress u = some w ∧ w ≤ (s.desc u.ctx).1.timeAt u.core)
      (fun s u => u.plive.foldl (fun s' j =>
        (lineVas ((s'.lane u j).pair x.a.toNat).toNat ((s'.lane u j).reg x.b.toNat).toNat).foldl (fun s' a =>
          match codeXlate (descSpans (s.desc u.ctx).2) a with
          | some ia => s'.publishIA ia x.scope (placeOf x.scope u)
          | none => s') s') (s.desc u.ctx).1) ∧
    Acts (.mhint h x) h (fun _ _ => True) (fun s u => u.plive.foldl (fun s' j =>
      let drops : Bool := x.opx.toNat % 4 == 2
      let a := ((s'.lane u j).pair x.a.toNat).toNat
      let n := ((s'.lane u j).reg x.b.toNat).toNat
      if 2 ^ 24 < n then s' else
      let whole (b : Nat) : Bool := decide (a ≤ b) && decide (b + 128 ≤ a + n)
      let t := ((lineVas a n).filter fun b => !drops || whole b).foldl
        (fun t b => t.hintLine x u.ctx (descSpans (s.desc u.ctx).2) b) s'
      if drops then t.mapLanes u [j] fun _ l => { l with ct := if l.ct < t.timeAt u.core then t.timeAt u.core else l.ct }
      else t) (s.desc u.ctx).1) ∧
    (∀ s s' u w, Ready s (.fence h x) h u → u.plive ≠ [] → x.scope ≠ .lane → x.opx.getLsbD 0 = true →
      s.progress u = none → s.releaseBegin u x.scope = some (s', w) →
      exec (.fence h x) s = .next (if w ≤ s'.timeAt u.core
        then s.afterWord ((s'.mapLanes u u.plive fun _ l => { l with ct := 0 }).acquire u x) (.fence h x) u [] h.sw
        else s'.setProgress u w)) ∧
    let op (s : State) (u : Bun) (t : Team) (j : Nat) (l : Lane) : EngOp :=
      let o := s.fresh.2.laneOp u j s.nextNum (.mcast (l.reg x.d.toNat).toNat ((l.pair x.a.toNat).setWidth 56)
        (l.reg x.b.toNat).toNat (x.opx.toNat % 32 + 1) (match t.queues[x.cq.toNat]? with | some y => y.mcasts | none => 0)
        t.index) (.queue x.cq.toNat) .sh (s.copyEvp u x.evp) x.lu (if x.ls then some (x.opx.toNat / 256) else none)
      { o with gang := t.gang }
    ∀ s u t j js, Ready s (.mcast h x) h u → u.plive = j :: js → s.team? u.team = some t →
      (let l := s.lane u j
       let n := x.opx.toNat % 32 + 1
       let d := (l.reg x.d.toNat).toNat
       let len := (l.reg x.b.toNat).toNat
       t.index < n ∧ (∃ g, s.gang? t.gang = some g ∧ n ≤ g.size) ∧ len % (128 * n) = 0 ∧ len ≠ 0 ∧ len ≤ 2 ^ 24 ∧
       d + len ≤ t.shared ∧ d % 128 = 0 ∧ l.pair x.a.toNat % 128 = 0 ∧ (l.pair x.a.toNat).toNat < 2 ^ 56) →
      s.queueRoom u.team x.cq.toNat 1 = true → t.local_.full (op s u t j (s.lane u j)).dstLines = false →
      exec (.mcast h x) s = .next (s.afterWord
        (((s.fresh.2.raiseLines u.team .sh (op s u t j (s.lane u j)).dstLines).addOp (op s u t j (s.lane u j))).updQueue u.team
          x.cq.toNat fun y => { y with mcasts := y.mcasts + 1 }) (.mcast h x) u [] h.sw)

/-- From any state that is ready with a live lane in P, and operands of the lowest such lane that pass the checks:
`bclose` closes the queue's batch, with its stamp; `waitb` closes a non-empty open batch (held where 16 are
outstanding, of which it would be the 17th) or finds the last close, is held while more than K batches are
outstanding, then raises CT and goes on, or delivers the oldest batch fault as a reported trap; `qfence` orders the
named queues; the status of a queue goes to D at the run's end; `chain` and `decod` issue one operation, whose
eviction priority is one higher for a predicted-last group; `dtab` of a present, well-formed table loads it. (R164,
R235, R293, R295, R297, R298, R300, R301, R302, R304, R305, R311) -/
def Obligations.QueueWordsComplete : Prop :=
  ∀ (h : Hdr) (x : Eng),
    let n := x.cq.toNat
    ActsOnce (.bclose h x) h (fun _ _ t _ => x.opx.toNat % 4 = 0 ∧ (t.queue n).outstanding < 16) (fun s u _ _ _ => (s.raiseLines u.team .sh []).closeBatch u.team n none) ∧
    ActsOnce (.bclose h x) h (fun _ _ t l => let a := (l.reg x.a.toNat).toNat
        x.opx.toNat % 4 = 1 ∧ a % 8 = 0 ∧ a + 8 ≤ t.shared ∧ (t.queue n).outstanding < 16 ∧
        t.local_.full (linesOf a 8) = false)
      (fun s u _ _ l => let a := (l.reg x.a.toNat).toNat
        (s.raiseLines u.team .sh (linesOf a 8)).closeBatch u.team n (some
          { kind := 1, addr := a, scope := x.scope, tid := l.tid, group := u.group, pc := u.pc, wait := none })) ∧
    ActsOnce (.bclose h x) h (fun s _ t l => let a := (l.reg x.a.toNat).toNat
        x.opx.toNat % 4 = 2 ∧ a % 8 = 0 ∧ s.granted t l.tid .sc a 8 = true ∧ (t.queue n).outstanding < 16 ∧
        (s.localOf t .sc).full (linesOf a 8) = false)
      (fun s u _ _ l => let a := (l.reg x.a.toNat).toNat
        (s.raiseLines u.team .sc (linesOf a 8)).closeBatch u.team n (some
          { kind := 2, addr := a, scope := x.scope, tid := l.tid, group := u.group, pc := u.pc, wait := none })) ∧
    ActsOnce (.bclose h x) h (fun _ _ t l => let a := l.pair x.a.toNat
        x.opx.toNat % 4 = 3 ∧ a % 8 = 0 ∧ a.toNat < 2 ^ 56 ∧ (t.queue n).outstanding < 16)
      (fun s u _ _ l => (s.raiseLines u.team .sh []).closeBatch u.team n (some
          { kind := 3, addr := (l.pair x.a.toNat).toNat, scope := x.scope, tid := l.tid, group := u.group, pc := u.pc,
            wait := none })) ∧
    let waits (s : State) (u : Bun) (from_ : State) (found : Nat) : Prop := ∀ t, from_.team? u.team = some t →
      let q := t.queue n
      let raised := from_.mapLanes u u.plive fun _ l => { l with ct := if l.ct < q.time then q.time else l.ct }
      (x.opx.toNat % 16 < q.outstanding → exec (.waitb h x) s = .next from_) ∧
      (q.outstanding ≤ x.opx.toNat % 16 → q.toDeliver found = none →
        exec (.waitb h x) s = .next (s.afterWord raised (.waitb h x) u [] h.sw)) ∧
      (∀ b f, q.outstanding ≤ x.opx.toNat % 16 → q.toDeliver found = some (b, f) →
        exec (.waitb h x) s = .next ((raised.updQueue u.team n fun q => q.delivered b.seq).trapLanes u
          (trapAll u.plive (reportedTrap n b f))))
    (∀ s u t j js, Ready s (.waitb h x) h u → u.plive = j :: js → s.team? u.team = some t →
      (∀ w, s.progress u = some w → waits s u s w.toNat) ∧
      (s.progress u = none → (t.queue n).open_.count = 0 →
        waits s u (s.setProgress u (BitVec.ofNat 64 (t.queue n).seq)) (t.queue n).seq) ∧
      (s.progress u = none → (t.queue n).open_.count ≠ 0 → (t.queue n).outstanding < 16 →
        waits s u ((s.closeBatch u.team n none).setProgress u (BitVec.ofNat 64 ((t.queue n).seq + 1))) ((t.queue n).seq + 1)) ∧
      (s.progress u = none → (t.queue n).open_.count ≠ 0 → 16 ≤ (t.queue n).outstanding → exec (.waitb h x) s = .next s)) ∧
    ActsOnce (.qfence h x) h (fun _ _ _ _ => True) (fun s u t _ _ =>
      let m : BitVec 8 := x.opx.setWidth 8
      let ops := ((List.range 8).filter m.getLsbD).flatMap fun k => (t.queue k).open_.ops ++ (t.queue k).closed.flatMap (·.ops)
      s.updTeam u.team fun t => { t with fences := (t.fences.filter fun f => f.2.any s.opPending) ++ [(m, ops)] }) ∧
    ActsOnce (.qstatCq h x) h (fun _ _ _ _ => True) (fun s u t _ _ => s.fresh.2.mapLanes u u.act fun _ l =>
      l.addResult (resultOf s.nextNum u.pc { writes := [(x.d.toNat, (t.queue n).stat)], flags := 0 })) ∧
    ActsOnce (.chain h x) h (fun s u _ l => l.pair x.a.toNat % 64 = 0 ∧ (l.pair x.a.toNat).toNat < 2 ^ 56 ∧
        s.queueRoom u.team n 1 = true)
      (fun s u _ j l => s.fresh.2.addOp (s.fresh.2.laneOp u j s.nextNum (.chain ((l.pair x.a.toNat).setWidth 56) 0 x.scope)
        (.queue n) (spaceOf (x.opx.getLsbD 0)) (s.copyEvp u 0) false none)) ∧
    (∀ s s' u t j js bs bad c, Ready s (.dtab h x) h u → u.plive = j :: js → s.team? u.team = some t →
      let a := ((s.lane u j).reg x.a.toNat).toNat
      a % 256 = 0 → a + 256 ≤ t.shared → s.linesPresent u.team ((linesOf a 256).map fun k => (Space.sh, k)) = true →
      (s.noteRead u .sh [a, a + 128]).unitRead u.team .sh a 256 = (s', bs, bad) → codeOf bs = some c →
      exec (.dtab h x) s = .next (s.afterWord (s'.updTeam u.team fun t =>
        { t with tables := t.tables.set (x.opx.toNat % 4) (some c) }) (.dtab h x) u [] h.sw)) ∧
    (∀ s u t j js code, Ready s (.decod h x) h u → u.plive = j :: js → s.team? u.team = some t →
      t.tables.getD (x.opx.toNat % 4) none = some code →
      let l := s.lane u j
      let spc := spaceOf (x.opx.getLsbD 2)
      let d := (l.reg x.d.toNat).toNat
      let out := (l.reg x.b.toNat).toNat
      let src := (l.reg (x.b.toNat + 1)).toNat
      let o := s.fresh.2.laneOp u j s.nextNum (.decode d ((l.pair x.a.toNat).setWidth 56) out src code) (.queue n) spc (s.copyEvp u 0) false none
      1 ≤ out ∧ out ≤ 2 ^ 24 → 1 ≤ src ∧ src ≤ 2 ^ 24 → d % 16 = 0 → s.granted t l.tid spc d out = true →
      (l.pair x.a.toNat).toNat < 2 ^ 56 → s.queueRoom u.team n 1 = true → (s.localOf t spc).full o.dstLines = false →
      exec (.decod h x) s = .next (s.afterWord ((s.fresh.2.raiseLines u.team spc o.dstLines).addOp o) (.decod h x) u [] h.sw))

/-- From any state that is ready: `sgo` starts one stream program for each live lane of P or clears the lane's
predicate; `qpop` of a queue that is the team's takes the next place in it for the lanes of P; `qstat` gives the
queue's status at the run's end; `apush` and `aseg`, which only a stream program may execute, trap 0x01 in every live
lane of P, and do nothing where P has none. (Log entry 43 gives the model's readings of Serge, `apush` and `aseg`
among them.) (R297, R306, R309, R310, R311) -/
def Obligations.StreamWordsComplete : Prop :=
  ∀ (h : Hdr) (x : Eng),
    Acts (.sgo h x) h (fun _ _ => True) (fun s u => u.plive.foldl (fun s j => s.startSerge u x j) s) ∧
    (∀ s u y, Ready s (.qpop h x) h u → u.act ≠ [] → s.streamOf u x.sq.toNat = some y →
      exec (.qpop h x) s = .next (s.afterWord (((s.fresh.2.mapLanes u u.act fun _ l => l.addResult
        { num := s.nextNum, pc := u.pc, need := .pop x.sq.toNat (y.first + y.taken), writes := [(x.d.toNat, 0)], flags := 0,
          trap := none, back := false }).setStream { y with taken := y.taken + 1 }).pops u.core x.sq.toNat)
        (.qpop h x) u [] h.sw)) ∧
    Acts (.qstat h x) h (fun _ u => u.plive ≠ []) (fun s u => s.fresh.2.mapLanes u u.act fun _ l =>
      l.addResult (resultOf s.nextNum u.pc
        { writes := [(x.d.toNat, match s.streamOf u x.sq.toNat with | some y => y.stat | none => 0)], flags := 0 })) ∧
    Traps (.apush h x) h (fun _ _ => True) (fun _ u => trapAll u.plive (trapAt 0x01 u.pc)) ∧
    Traps (.aseg h x) h (fun _ _ => True) (fun _ u => trapAll u.plive (trapAt 0x01 u.pc)) ∧
    Acts (.apush h x) h (fun _ u => u.plive = []) (fun s _ => s) ∧ Acts (.aseg h x) h (fun _ u => u.plive = []) (fun s _ => s)

/-- From any state that is ready whose operands pass the checks of their description (slot, span, window, message),
where the units have credits and no line of a slot is full: `ray`, `filt`, `hgrid` and `bank` issue one command for
each live lane of P; `trhold` and `trswap` issue theirs, and one whose treelet entry is bad, held by another team
(`trswap`: not held by its own), or whose stack holds 64, ends with its status; `trstat` gives the treelet's status at
the run's end, or its trap condition where the entry is bad. A swap whose write may go on is made, one that a lease
holds waits in the buffer of its stack (R273). (The treelet index is the low 16 bits of vB: the model's reading, log
entry 45. INFO1 of the condition 0x1A of `trstat`, which has no slot, is 0 by the model's choice, log entry 44.)
(R273, R312, R313, R317, R322, R328, R329, R330, R335, R338, R340, R351) -/
def Obligations.UnitWordsIssue : Prop :=
  ∀ (h : Hdr) (x : Unt) (s : State) (u : Bun) (t : Team), s.team? u.team = some t →
    let s1 := (s.desc u.ctx).1
    let spans := descSpans (s.desc u.ctx).2
    let slot (l : Lane) : Nat := (l.reg x.d.toNat).toNat
    let pb (l : Lane) : W64 := l.pair x.b.toNat
    let pa (l : Lane) : W64 := l.pair x.a.toNat
    let fits (size align : Nat) : Prop := ∀ j ∈ u.plive, slot (s1.lane u j) % align = 0 ∧ slot (s1.lane u j) + size ≤ t.shared
    let seen (pair : Lane → W64) (ok : Nat → Bool) : Prop := ∀ j ∈ u.plive, ∃ ia,
      spanXlate spans (pair (s1.lane u j)).toNat permRead = some ia ∧ ok ia = true
    let free (size : Nat) : Prop := t.local_.full (slotLines (u.plive.map fun j => (slot (s1.lane u j), size))) = false
    let commands (i : Instr) (size : Nat) (make : Nat → State → Nat → CmdMould → State) : Prop :=
      exec i s = .next (s.afterWord ((u.plive.map fun j => (j, slot (s1.lane u j), size)).foldl (fun (s' : State) (j, a, n) =>
        make j s'.fresh.2 s'.fresh.1 (s'.fresh.2.mould u j s'.fresh.1 s1.nextNum a n (spanImages spans)))
        (s1.fresh.2.raiseLines u.team .sh (slotLines (u.plive.map fun j => (slot (s1.lane u j), size))))) i u [] h.sw)
    let sampler (hash : Bool) (n : Nat) (j : Nat) (s' : State) (_ : Nat) (c : CmdMould) : State :=
      let ia := pairIA spans (pb (s'.lane u j))
      { s' with gauze := s'.gauze ++
          [{ cmd := c, hash := hash, stack := ia / 2 ^ 44 % 8, desc := ia, coords := (s'.lane u j).run x.a.toNat n }] }
    u.plive ≠ [] →
    (Ready s (.ray h x) h u → fits (if x.mode = 2 then 512 else 32) (if x.mode = 2 then 512 else 32) → seen pb sceneIA →
      (∀ j ∈ u.plive, ((s1.lane u j).reg (x.a.toNat + 8)).toNat < 16 ∧
        fieldN ((s1.lane u j).reg (x.a.toNat + 9)).toNat 15 8 = 0 ∧ ((s1.lane u j).reg (x.a.toNat + 10)).toNat < 2 ^ 16) →
      s1.rayLoad u.core + u.plive.length ≤ 2048 → free (if x.mode = 2 then 512 else 32) →
      commands (.ray h x) (if x.mode = 2 then 512 else 32) fun j s' _ c =>
        s'.sendRay c x.mode.toNat (pairIA spans (pb (s'.lane u j))) ((s'.lane u j).run x.a.toNat 11)) ∧
    (Ready s (.filt h x) h u → fits 8 8 → seen pb (localIA 64) → s1.gauzeLoad u.core + u.plive.length ≤ 4096 → free 8 →
      commands (.filt h x) 8 (sampler false 4)) ∧
    (Ready s (.hgrid h x) h u → fits 256 16 → seen pb (localIA 64) → s1.gauzeLoad u.core + u.plive.length ≤ 4096 → free 256 →
      commands (.hgrid h x) 256 (sampler true 3)) ∧
    (∀ j js r s2, u.plive = j :: js → Ready s (.trhold h x) h u →
      slot (s1.lane u j) % 8 = 0 → slot (s1.lane u j) + 8 ≤ t.shared →
      (∃ ia, spanXlate spans (pa (s1.lane u j)).toNat permRead = some ia ∧ sceneIA ia = true) →
      s1.treeLoad u.core < 16 → t.local_.full [slot (s1.lane u j) / 128] = false →
      let scene := pairIA spans (pa (s1.lane u j))
      let i := ((s1.lane u j).reg x.b.toNat).toNat % 2 ^ 16
      let c := s1.fresh.2.mould u j s1.nextNum s1.nextNum (slot (s1.lane u j)) 8 (spanImages spans)
      (s1.fresh.2.raiseLines u.team .sh [slot (s1.lane u j) / 128]).treeEntry c scene i = (s2, r) →
      exec (.trhold h x) s = .next (s.afterWord (match r with
        | .error (fail, version) => s2.treeFail c version fail
        | .ok e => match s2.holderOf scene i with
          | some holder => if holder = u.team
              then (s2.updHold scene i holder fun h => { h with granted := true }).treeDone c scene i e.version 0x00
              else s2.treeDone c scene i e.version 0x01
          | none =>
            if 64 ≤ s2.holdCount (treeStack i) then s2.treeDone c scene i e.version 0x02
            else
              let hold : Hold :=
                { scene := scene, treelet := i, team := u.team, draining := true, granted := false, cmd := c.num }
              let s3 := s2.updStack (treeStack i) fun k => { k with holds := hold :: k.holds.filter fun h => !h.on scene i }
              { s3 with tcmds := s3.tcmds ++ [{ cmd := c, treelet := i, scene := scene, swap := none }] }) (.trhold h x) u [] h.sw)) ∧
    (∀ j js r s2 w data sel, u.plive = j :: js → Ready s (.trswap h x) h u →
      slot (s1.lane u j) % 8 = 0 → slot (s1.lane u j) + 8 ≤ t.shared →
      (∃ ia, spanXlate spans (pa (s1.lane u j)).toNat permRead = some ia ∧ sceneIA ia = true) →
      s1.linesPresent u.team [(Space.sh, slot (s1.lane u j) / 128)] = true →
      s1.treeLoad u.core < 16 → t.local_.full [slot (s1.lane u j) / 128] = false →
      let scene := pairIA spans (pa (s1.lane u j))
      let i := ((s1.lane u j).reg x.b.toNat).toNat % 2 ^ 16
      let c := s1.fresh.2.mould u j s1.nextNum s1.nextNum (slot (s1.lane u j)) 8 (spanImages spans)
      ((s1.fresh.2.raiseLines u.team .sh [slot (s1.lane u j) / 128]).noteRead u .sh [c.slot]).unitRead u.team .sh c.slot 8 =
        (w, data, sel) →
      State.treeEntry { w with tcmds := w.tcmds.filter fun y => y.cmd.num != c.num } c scene i = (s2, r) →
      let next (t : State) : Prop := exec (.trswap h x) s = .next (s.afterWord t (.trswap h x) u [] h.sw)
      (∀ fail version, r = .error (fail, version) → next (s2.treeFail c version fail)) ∧
      ∀ e, r = .ok e →
        (s2.holderOf scene i ≠ some u.team → next (s2.treeDone c scene i e.version 0x03)) ∧
        (s2.holderOf scene i = some u.team → sel = none → swapWordOk scene i (ofBytes data) = false →
          next (s2.treeFail c e.version { code := 0x1A, sel := 0 })) ∧
        (∀ s3 spa, s2.holderOf scene i = some u.team → sel = none → swapWordOk scene i (ofBytes data) = true →
          s2.unitSpot c.images (treeStack i) (entryAddr scene i) 16 true = (s3, some spa) →
          (∀ time, s3.unitNow (treeStack i) spa = some time → next (s3.swapTree c scene i spa (ofBytes data) e time)) ∧
          (s3.unitNow (treeStack i) spa = none →
            let claimed := s3.unitClaim (treeStack i) (entryAddr scene i) c.num c.ctx (.unit spa)
            next { claimed with tcmds := claimed.tcmds ++
              [{ cmd := c, treelet := i, scene := scene, swap := some (ofBytes data) }] }))) ∧
    (∀ j js r s2, u.plive = j :: js → Ready s (.trstat h x) h u →
      (∃ ia, spanXlate spans (pa (s1.lane u j)).toNat permRead = some ia ∧ sceneIA ia = true) →
      let i := ((s1.lane u j).reg x.b.toNat).toNat % 2 ^ 16
      let scene := pairIA spans (pa (s1.lane u j))
      s1.treeEntry (s1.mould u j 0 0 0 0 (spanImages spans)) scene i = (s2, r) →
      let result (y : Result) : Prop := exec (.trstat h x) s = .next (s.afterWord
        (s2.fresh.2.mapLanes u u.act fun _ l => l.addResult y) (.trstat h x) u [] h.sw)
      (∀ e, r = .ok e → result
        (resultOf s2.nextNum u.pc { writes := [(x.d.toNat, s2.treeStat u.team scene i e.version)], flags := 0 })) ∧
      ∀ fail version, r = .error (fail, version) → result
        { num := s2.nextNum, pc := u.pc, need := .formed, writes := [], flags := 0, back := false,
          trap := some (trapAt fail.code u.pc fail.sel
            (if fail.code = 0x1A then 0 else BitVec.ofNat 64 (entryAddr scene i))) }) ∧
    (∀ blocks s2, Ready s (.bank h x) h u →
      let block (l : Lane) : Nat := (l.reg x.a.toNat).toNat
      let bl (j : Nat) : BankBlock := (lookupN blocks j).getD { bytes := [] }
      let size (j : Nat) : Nat := 128 * (1 + min (bl j).nout 4)
      let ia (a : W64) : Nat := (spanXlate spans a.toNat permRead).getD 0
      (∀ j ∈ u.plive, block (s1.lane u j) % 128 = 0 ∧ block (s1.lane u j) + 384 ≤ t.shared) →
      s1.linesPresent u.team ((slotLines (u.plive.map fun j => (block (s1.lane u j), 384))).map fun n => (Space.sh, n)) = true →
      (s1.noteRead u .sh ((u.plive.map fun j => block (s1.lane u j)).flatMap fun a => [a, a + 128, a + 256])).readBlocks u block
        u.plive [] [] = (s2, blocks, []) →
      (∀ j ∈ u.plive, slot (s2.lane u j) % 128 = 0 ∧ s2.granted t (s2.lane u j).tid .sh (slot (s2.lane u j)) (size j) = true ∧
        (spanXlate spans (bl j).prog.toNat permRead).isSome = true ∧ (spanXlate spans (bl j).data.toNat permRead).isSome = true ∧
        (bl j).ok (ia (bl j).prog) (ia (bl j).data) = true) →
      let make (j : Nat) (c : CmdMould) : CalicoCmd := (bl j).command c (ia (bl j).prog) (ia (bl j).data)
      s2.calicoRoom (u.plive.map fun j => (make j (s2.mould u j 0 0 0 0 [])).unit) = true →
      t.local_.full (slotLines (u.plive.map fun j => (slot (s2.lane u j), size j))) = false →
      exec (.bank h x) s = .next (s.afterWord ((u.plive.map fun j => (j, slot (s2.lane u j), size j)).foldl
        (fun (s' : State) (j, a, n) => { s'.fresh.2 with calico := s'.fresh.2.calico ++
          [make j (s'.fresh.2.mould u j s'.fresh.1 s2.nextNum a n (spanImages spans))] })
        (s2.fresh.2.raiseLines u.team .sh (slotLines (u.plive.map fun j => (slot (s2.lane u j), size j)))))
        (.bank h x) u [] h.sw))

/-- From any state that is ready, with the operands of the lowest live lane of P valid: `csave` suspends the context
and orders its save, `crest` resumes it, `tlbinv` drops the translations of the range in every stack and goes on once
nothing uses them any more, `replay` retries what waits for residency, `xinj` arms or disarms an injection, `elog`
gives the log register at the run's end, `elog.clr` clears the masked bits, `halt` stops the part with its code; `rfe`
of lanes that are in a handler returns them and ends the run. (That `rfe` returns its lanes before the commit of the
run, that `replay` retries all that is suspended, and the moment at which `halt` stops the part are the readings of
the log entries 17, 33 and 50; what counts as still using a translation is the model's choice, log entry 67.) (R355,
R361, R371, R372, R373, R374, R375, R376, R377, R378, R391, R392) -/
def Obligations.SystemWordsComplete : Prop :=
  ∀ (h : Hdr) (x : Sys),
    ActsOnce (.csave h x) h (fun _ _ _ l => (l.reg x.b.toNat).toNat < 2 ^ 16 ∧ l.pair x.a.toNat % 8 = 0 ∧
        (l.pair x.a.toNat).toNat < 2 ^ 56)
      (fun s u _ _ l =>
        let c := (l.reg x.b.toNat).toNat
        let a := l.pair x.a.toNat
        let s1 := { s with priv := { s.priv with
          suspended := if s.suspendedCtx c then s.priv.suspended else c :: s.priv.suspended,
          saves := if a = 0 then s.priv.saves
            else s.priv.saves ++ [{ ctx := c, stamp := a, stampCtx := u.ctx, core := u.core, count := 0 }] } }
        if s.suspendedCtx c then s1 else s1.saveContext c) ∧
    ActsOnce (.crest h x) h (fun _ _ _ _ => True) (fun s _ _ _ l => { s with priv := { s.priv with
      suspended := s.priv.suspended.filter (· != (l.reg x.b.toNat).toNat % 2 ^ 16) } }) ∧
    (∀ s u t j js, Ready s (.tlbinv h x) h u → u.plive = j :: js → s.team? u.team = some t →
      let l := s.lane u j
      let p := if x.sub.toNat = 0 then 2 ^ 16 else 2 ^ 21
      let a := (l.pair x.a.toNat).toNat
      let n := (l.reg x.b.toNat).toNat
      a % p = 0 → a < 2 ^ 48 → 1 ≤ n → n ≤ 65536 → a + n * p ≤ 2 ^ 48 →
      let dropped := if (s.progress u).isSome = true then s
        else (List.range 8).foldl (fun s k => s.updStack k fun y => y.tlbInv a (a + n * p)) s
      (dropped.inUse a (a + n * p) = false →
        exec (.tlbinv h x) s = .next (s.afterWord dropped (.tlbinv h x) u [] h.sw)) ∧
      (dropped.inUse a (a + n * p) = true → exec (.tlbinv h x) s = .next (dropped.setProgress u 0))) ∧
    ActsOnce (.replay h x) h (fun _ _ _ _ => True) (fun s _ _ _ _ => { s.replayAll with subject := s.subject }.settle) ∧
    (∀ s u t j js bits, Ready s (.xinj h x) h u → u.plive = j :: js → s.team? u.team = some t →
      let sel := (s.lane u j).reg x.a.toNat
      let c := (s.lane u j).reg x.b.toNat
      let kind := sel.toNat / 2 ^ 28
      let unit := sel.toNat / 2 ^ 16 % 4096
      let others : List Inject := s.mem.injects.filter fun j => !(j.kind == kind && j.unit == unit)
      let armed : List Inject := if c.getLsbD 31 then { kind := kind, unit := unit, bits := bits } :: others else others
      selectorOk sel = true → injectBits c = some bits →
      exec (.xinj h x) s = .next (s.afterWord { s with mem := { s.mem with injects := armed } } (.xinj h x) u [] h.sw)) ∧
    ActsOnce (.elog h x) h (fun _ _ _ l => selectorOk (l.reg x.a.toNat) = true) (fun s u _ _ l =>
      let v := s.errLog (l.reg x.a.toNat).toNat
      s.fresh.2.mapLanes u u.act fun _ l => l.addResult
        (resultOf s.nextNum u.pc { writes := [(x.d.toNat, lo32 v), (x.d.toNat + 1, hi32 v)], flags := 0 })) ∧
    ActsOnce (.elogClr h x) h (fun _ _ _ l => selectorOk (l.reg x.a.toNat) = true) (fun s _ _ _ l =>
      let sel := (l.reg x.a.toNat).toNat
      s.setErrLog sel (s.errLog sel &&& ~~~(l.pair x.b.toNat &&& 0xC000000000000000))) ∧
    (∀ s u, Ready s (.halt h x) h u → exec (.halt h x) s = .next (s.afterWord (match u.plive with
      | j :: _ => s.stopPart (((s.lane u j).reg x.a.toNat).setWidth 8)
      | [] => s) (.halt h x) u [] true)) ∧
    (∀ s u, Ready s (.rfe h x) h u → (∀ j ∈ u.plive, (s.lane u j).hnd = true) →
      exec (.rfe h x) s = .next (s.afterWord (s.returnLanes u.team u.group u.pc u.plive) (.rfe h x) u u.plive true))

/-- A lane that is not in a handler, with a handler named by its context's TVEC and 160 usable bytes below its spill
pointer, takes a trap so: the frame is written at the spill pointer less 160, the pointer moves there, the loop stack
is emptied, HND is set, and PC and priority are those of TVEC; its registers, predicates, flags, trap enables and
results stay as they were. A lane in a handler that meets a trap kills its team with CAUSE 2; one without a handler,
with CAUSE 1; one whose frame does not fit its usable stack, with CAUSE 3. A team already being killed or over keeps
its first cause. Nothing is written to the lane's stack and the lane is not changed. (That a lane in a handler comes
before a missing handler is the model's reading, log entry 18.) (R224, R353, R356) -/
def Obligations.TrapIsTakenOrKills : Prop :=
  (
  ∀ (s : State) (team g slot : Nat) (tr : TrapInfo) (fpc npc : VAddr) (resume : W64) (runend : Bool) (tm : Team) (l : Lane),
    s.team? team = some tm → s.lane? team g slot = some l → l.hnd = false →
    let d := s.desc (s.ctxOf tm)
    let tvec := descTvec d.2
    ptrAddr tvec ≠ 0 → tm.spillOk l.tid ((l.spill.toNat : Int) - 160) 160 = true →
    let t := s.takeTrap team g slot tr fpc npc resume runend
    t = (d.1.stackWrite tm l.tid (l.spill.toNat - 160) (frameBytes l tr fpc npc resume runend)).updLane team g slot (fun l =>
      { l with spill := l.spill - 160, loops := [], hnd := true, pc := ptrAddr tvec, prio := ptrPrio tvec }) ∧
    ∃ m, t.lane? team g slot = some
      { l with spill := l.spill - 160, loops := [], hnd := true, pc := ptrAddr tvec, prio := ptrPrio tvec, monitor := m }) ∧
  (
  ∀ (s : State) (team g slot : Nat) (tr : TrapInfo) (fpc npc : VAddr) (resume : W64) (runend : Bool) (tm : Team) (l : Lane),
    s.team? team = some tm → s.lane? team g slot = some l →
    let d := s.desc (s.ctxOf tm)
    let t := s.takeTrap team g slot tr fpc npc resume runend
    let killed (cause : Nat) : Prop := t.lane? team g slot = some l ∧ t.mem = d.1.mem ∧ ∃ x, t.team? team = some x ∧
      x.local_ = tm.local_ ∧
      x.dying = if tm.ended = true ∨ tm.dying.isSome = true then tm.dying else some (cause, tr.code, tr.opc)
    (l.hnd = true → killed 2) ∧ (l.hnd = false → ptrAddr (descTvec d.2) = 0 → killed 1) ∧
    (l.hnd = false → ptrAddr (descTvec d.2) ≠ 0 → tm.spillOk l.tid ((l.spill.toNat : Int) - 160) 160 = false → killed 3))

/-- From any state that is ready with a live lane in P, `trap k` takes the software trap 0x08 with its k in each live
lane of P, and ends the run; with no lane in P it is a plain run end. A precise trap resumes at its word, except the
software trap, which resumes at the next. (R133, R354) -/
def Obligations.TrapWordTraps : Prop :=
  (∀ (h : Hdr) (x : Ctl), Traps (.trap h x) h (fun _ _ => True) fun _ u =>
    trapAll u.act { trapAt 0x08 u.pc with k := x.ofl }) ∧
  (∀ (h : Hdr) (x : Ctl) (s : State) (u : Bun), Ready s (.trap h x) h u → u.act = [] →
    exec (.trap h x) s = .next (s.afterWord s (.trap h x) u [] true)) ∧
  (∀ (s : State) (team g slot : Nat) (tr : TrapInfo) (fpc : VAddr) (l : Lane), s.lane? team g slot = some l →
    s.takePrecise team g slot tr fpc = s.takeTrap team g slot tr fpc (fpc + 8)
      (l.prio ++ (if tr.code = 0x08 then fpc + 8 else fpc)) false)

/-- The 160 bytes of a trap frame hold, little-endian: the code at byte 0, the predicates at bytes 4 to 6, FPC at
0x08, OPC at 0x10, NPC at 0x18, RESUME at 0x20, INFO0 at 0x28, INFO1 at 0x30 and the loop depth at 0x38; RPT, MULTI
and RUNEND are bits 8 to 10 and K bits 16 to 28 of the first word. (R354) -/
def Obligations.FrameHoldsTheTrap : Prop :=
  ∀ (l : Lane) (tr : TrapInfo) (fpc npc : VAddr) (resume : W64) (runend : Bool), l.loops.length ≤ 4 →
    let f := frameBytes l tr fpc npc resume runend
    let w (i : Nat) : W64 := BitVec.ofNat 64 (ofBytes ((f.drop (8 * i)).take 8))
    f.length = 160 ∧ (w 0).extractLsb' 0 8 = tr.code ∧ (w 0).getLsbD 8 = tr.rpt ∧ (w 0).getLsbD 9 = tr.multi ∧
    (w 0).getLsbD 10 = runend ∧ (w 0).extractLsb' 11 5 = 0 ∧ (w 0).extractLsb' 16 13 = tr.k ∧ (w 0).extractLsb' 29 3 = 0 ∧
    (w 0).extractLsb' 32 24 = l.preds ∧ (w 0).extractLsb' 56 8 = 0 ∧ w 1 = fpc.setWidth 64 ∧ w 2 = tr.opc.setWidth 64 ∧
    w 3 = npc.setWidth 64 ∧ w 4 = resume ∧ w 5 = tr.info0 ∧ w 6 = tr.info1 ∧ w 7 = BitVec.ofNat 64 l.loops.length ∧
    ∀ i < 4, w (8 + 3 * i) = (match l.loops[i]? with | some e => e.start.setWidth 64 | none => 0) ∧
      w (9 + 3 * i) = (match l.loops[i]? with | some e => e.stop.setWidth 64 | none => 0) ∧
      w (10 + 3 * i) = (match l.loops[i]? with | some e => e.count.setWidth 64 | none => 0)

/-- The frame that taking a trap writes, read back by `rfe` in the lane that the trap left, gives the lane as it was
before the trap but for its PC and priority, which are those of RESUME: predicates, loop stack (whose starts are
addresses of words, multiples of 8), spill pointer and HND are restored. So an `rfe` that leaves the frame alone
resumes the lane. (R353, R354, R355) -/
def Obligations.ReturnUndoesTrap : Prop :=
  ∀ (l : Lane) (tr : TrapInfo) (fpc npc handler : VAddr) (hprio : Byte) (resume : W64) (runend : Bool),
    l.loops.length ≤ 4 → (∀ e ∈ l.loops, e.start.toNat % 8 = 0) → l.hnd = false →
    frameLane { l with spill := l.spill - 160, loops := [], hnd := true, pc := handler, prio := hprio }
      (frameBytes l tr fpc npc resume runend) = some { l with pc := ptrAddr resume, prio := ptrPrio resume }

/-- Where the team's launch is not privileged, each privileged word that the team's encoding checks accept, with a
live lane in P, raises the privileged-instruction trap 0x02 at the word in the lanes of P and has no effect of its
own: the class C words but `rfe`, and `rdsr` and `wrsr` of the special registers 0x40 and above. A word that decodes
to no instruction raises the illegal-instruction trap 0x01 in every live lane of the bundle, and its helper lanes
become empty; so does a word that names a register, a convergence register or a tile that the team does not have,
before any other check and whatever its guard holds. (R17, R23, R26, R77, R148, R193, R371) -/
def Obligations.RefusedWordsTrap : Prop :=
  (
  ∀ (i : Instr) (h : Hdr) (s : State) (u : Bun) (t : Team), hdrOf i = some h →
    ((∃ x, i = .csave h x) ∨ (∃ x, i = .crest h x) ∨ (∃ x, i = .tlbinv h x) ∨ (∃ x, i = .replay h x) ∨ (∃ x, i = .xinj h x) ∨
      (∃ x, i = .elog h x) ∨ (∃ x, i = .elogClr h x) ∨ (∃ x, i = .halt h x) ∨
      (∃ x, i = .rdsr h x ∧ 0x40 ≤ x.a.toNat) ∨ (∃ x, i = .wrsr h x ∧ 0x40 ≤ x.d.toNat)) →
    s.subject = .bundle (BundleOf u) → s.bun? h (BundleOf u) = some u → s.team? u.team = some t →
    t.accepts i = true → u.priv = false → u.plive ≠ [] →
    exec i s = .next (s.trapLanes u (trapAll u.act (trapAt 0x02 u.pc)))) ∧
  (
  (∀ (w : W64) (s : State) (u : Bun), s.subject = .bundle (BundleOf u) → s.bun? plainHdr (BundleOf u) = some u →
    exec (.illegalInstruction w) s = .next (s.trapLanes u (trapAll u.slots (trapAt 0x01 u.pc)))) ∧
  (∀ (i : Instr) (s : State) (u : Bun) (t : Team), isEvent i = false → (∀ w, i ≠ .illegalInstruction w) →
    s.subject = .bundle (BundleOf u) → s.bun? ((hdrOf i).getD plainHdr) (BundleOf u) = some u → u.live ≠ [] → s.team? u.team = some t → t.accepts i = false →
    exec i s = .next (s.trapLanes u (trapAll u.slots (trapAt 0x01 u.pc)))))

/-- The word that would be the 4,097th of a run, or the 33rd variable-latency word of it, raises the run overflow 0x05
in the live lanes of P (in every live lane when P has none) before any effect; a branch, call, return, loop, trap or
`rfe` at the end address of a lane's innermost loop raises the loop fault 0x06 in that lane, whether or not its guard
passes. (That a word with no lane in P traps every live lane, and that 0x05 comes before 0x06, are the readings of log
entry 16.) (R73, R128) -/
def Obligations.RunLimitsTrap : Prop :=
  ∀ (i : Instr) (h : Hdr) (s : State) (u : Bun) (t : Team) (g : Group) (e : Entry), hdrOf i = some h →
    s.subject = .bundle (BundleOf u) → s.bun? h (BundleOf u) = some u → u.live ≠ [] → s.team? u.team = some t →
    t.groups[u.group]? = some g → g.entryAt u.slot = some e → t.accepts i = true →
    (isPrivileged i = false ∨ u.priv = true ∨ u.act = []) →
    (4096 ≤ e.words ∨ (isVarlat i = true ∧ 32 ≤ e.vars) →
      exec i s = .next (s.trapLanes u (trapAll (if u.plive = [] then u.slots else u.act) (trapAt 0x05 u.pc)))) ∧
    (e.words < 4096 → e.vars < 32 → noLoopEnd i = true →
      (∃ j ∈ u.live, ∃ top, (s.lane u j).loops.head? = some top ∧ top.stop = u.pc) →
      exec i s = .next (s.trapLanes u (trapAll (u.slots.filter fun j => match (s.lane u j).loops with
        | top :: _ => top.stop == u.pc
        | [] => false) (trapAt 0x06 u.pc))))

/-- A local access (`ld`, `st`, `gath`, `scat`, `atom`, `atomc`, `pchk`, `mon`) with an address in some live lane that
lies outside the space's grant raises, in each lane of P with such an address, the access violation 0x11 (0x07 for the
lane's stack) with the first such address, an exact sum of base and offset, as INFO1; where every address is granted
but one is misaligned, 0x11 in the lanes with such an address. A `mon` of main memory does so with its virtual
address: misaligned, or outside the readable spans. (That the conditions are checked in order over all lanes, so that
only lanes failing the first one trap, and that INFO1 is the first bad element of a gather, are the readings of log
entry 38.) (R222, R224, R238, R239, R242, R247, R351) -/
def Obligations.BadAddressesTrap : Prop :=
  (∀ (i : Instr) (h : Hdr) (x : Loc) (s : State) (u : Bun) (t : Team) (n : Nat) (addrs : Lane → List Int),
    s.team? u.team = some t → Ready s i h u →
    ((i = .ld h x ∨ i = .st h x ∨ i = .atom h x ∨ i = .atomc h x ∨ i = .pchk h x) ∧ n = widthBytes x.width ∧
        (addrs = fun l => [l.locAddr x false])) ∨
      ((i = .gath h x ∧ (x.split = true → s.splitTraps u x = []) ∨ i = .scat h x) ∧ n = widthBytes x.width ∧
        (addrs = fun l => l.elemAddrs x)) ∨
      (i = .mon h x ∧ x.space ≠ .mm ∧ n = 8 ∧ (addrs = fun l => [l.locAddr x false])) →
    let first (bad : Lane → Int → Bool) : List (Nat × Int) := u.act.filterMap fun j =>
      ((addrs (s.lane u j)).find? (bad (s.lane u j))).map fun a => (j, a)
    let out := first fun l a => !s.granted t l.tid x.space a n
    let odd := first fun _ a => a % (n : Int) != 0
    let trap (code : Byte) (p : Nat × Int) : Nat × TrapInfo := (p.1, trapAt code u.pc 0 (BitVec.ofInt 64 p.2))
    ((∃ p ∈ out, p.1 ∈ u.live) →
      exec i s = .next (s.trapLanes u (out.map (trap (if x.space = .sp then 0x07 else 0x11))))) ∧
    (out = [] → (∃ p ∈ odd, p.1 ∈ u.live) → exec i s = .next (s.trapLanes u (odd.map (trap 0x11))))) ∧
  (∀ (h : Hdr) (x : Loc) (s : State) (u : Bun), Ready s (.mon h x) h u → x.space = .mm →
    let s1 := (s.desc u.ctx).1
    let spans := descSpans (s.desc u.ctx).2
    let first (bad : Int → Bool) : List (Nat × TrapInfo) := (u.act.filter fun j => bad ((s1.lane u j).monVa x)).map fun j =>
      (j, trapAt 0x11 u.pc 0 (BitVec.ofInt 64 ((s1.lane u j).monVa x)))
    let odd := first fun a => a % 8 != 0
    let out := first fun a => decide (a < 0) || (spanXlate spans a.toNat permRead).isNone
    ((∃ p ∈ odd, p.1 ∈ u.live) → exec (.mon h x) s = .next (s1.trapLanes u odd)) ∧
    (odd = [] → (∃ p ∈ out, p.1 ∈ u.live) → exec (.mon h x) s = .next (s1.trapLanes u out)))

/-- The events of runs and waits have their effect: a returned result is marked in the lanes of its run; an entry all
of whose results have returned commits them and goes on; a sleep, a monitor wait or its deadline that is due makes its
entry ready; a spin demotion ends 65,536 clocks after it began, a yield window at its clock; a regrouping entry is
released 2,048 clocks after it opened. (R71, R132, R165, R166, R182, R248) -/
def Obligations.WaitsEnd : Prop :=
  ∀ (s : State) (b : BundleId),
    (∀ n num e, s.subject = .result b n → s.resultNum b n = some num → s.entryOf b = some e →
      exec .variableLatencyResultReturn s = .next ((s.updGroup b.team b.group fun g => g.updSlots (slotsOf e.mask) fun _ l =>
        l.updResult num fun r => if r.need = .formed then { r with back := true } else r).commitEntry b)) ∧
    (∀ g e, s.subject = .bundle b → s.group? b.team b.group = some g → s.entryOf b = some e → e.wake = some .results →
      s.isAway b.team = false →
      (∀ i ∈ slotsOf e.mask, (g.lane i).allBack = true) →
      exec .runEndCommit s = .next (s.resumeRun b.team b.group b.slot)) ∧
    (s.subject = .bundle b → exec .sleepWake s = .next ((s.updEntryOf b fun e => match e.wake with
      | some (.sleep d) => if d ≤ s.teamTime b.team then { e with wake := none } else e
      | _ => e).settle)) ∧
    (∀ g e d, s.subject = .bundle b → s.group? b.team b.group = some g → s.entryOf b = some e → e.wake = some (.mwait d) →
      (∃ i ∈ slotsOf e.mask, g.isLive i = true ∧ (((s.lane? b.team b.group i).getD emptyLane).monitor = none ∨
        ∃ m, ((s.lane? b.team b.group i).getD emptyLane).monitor = some m ∧ m.fired = true)) →
      exec .mwaitWake s = .next (s.wakeMwait b e)) ∧
    (∀ e d, s.subject = .bundle b → s.entryOf b = some e → e.wake = some (.mwait (some d)) → d ≤ s.teamTime b.team →
      exec .mwaitDeadline s = .next (s.wakeMwait b e)) ∧
    (s.subject = .bundle b → exec .spinDemotionExpiry s = .next (s.updEntryOf b fun e => match e.spin.since with
      | some c => if c + 65536 ≤ s.time.clock then { e with spin := noSpin } else e
      | none => e)) ∧
    (∀ team g, s.subject = .unit2 team g → exec .yieldWindowExpiry s = .next (s.updGroup team g fun x =>
      if x.yieldEnd ≤ s.time.clock then { x with yieldEnd := 0 } else x)) ∧
    (∀ core i r, s.subject = .unit2 core i → (s.regroup.filter fun r => r.core == core)[i]? = some r →
      r.since + 2048 ≤ s.time.clock → exec .regroupTimeout s = .next (s.releaseRegroup r).settle)

/-- While the host may write (R409): a write of LQ_TAIL sets TAIL and wakes a queue that waits for VALID; LQ_CFG sets
EN, PRIV and LOG2 under the EN rules; LQ_ERR clears the CODE bits written 1, and with SKIP and CODE thereby cleared
drops the failed record; FBACK frees the slots it names; FBSTAT and STKSTAT clear DROP and MALF written 1; CTXINV
drops one descriptor, CTXBASE all; FELTTAIL wakes Felt. (That clearing EN forgets a record that waits is the reading
of log entry 22.) (R153, R156, R379, R381, R394, R396, R409) -/
def Obligations.RegisterWritesAct : Prop :=
  ∀ (s : State) (q : Nat) (v : W64), s.hostMay = true → s.subject = .write q v →
    let w := lo32 v
    exec .lqTailWrite s = .next (s.updLq q fun x =>
      { x with tail := w, wait := match x.wait with | .valid _ => .none | y => y }) ∧
    exec .lqCfgWrite s = .next (s.updLq q fun x =>
      if x.en then { x with en := w.getLsbD 6, wait := if w.getLsbD 6 then x.wait else x.wait.forget }
      else { x with en := w.getLsbD 6, priv := w.getLsbD 5,
                    log2 := if 4 ≤ w.toNat % 32 ∧ w.toNat % 32 ≤ 16 then w.toNat % 32 else x.log2 }) ∧
    (bit v 8 = true → exec .lqErrSkip s = .next (
      let s1 := s.updLq q fun x => { x with code := (s.lq q).code &&& ~~~(w.setWidth 8) }
      if (s.lq q).code ≠ 0 ∧ (s.lq q).code &&& ~~~(w.setWidth 8) = 0 then s1.dropRecord q else s1)) ∧
    (bit v 8 = false → exec .lqErrResume s = .next (
      s.updLq q fun x => { x with code := (s.lq q).code &&& ~~~(w.setWidth 8) })) ∧
    exec .fbackWrite s = .next (((List.range 8).filter fun i => w.getLsbD i).foldl (fun s i => s.freeSlot i) s) ∧
    exec .fbstatWrite s = .next (if w.getLsbD 31 then { s with coll := { s.coll with drop := false } } else s) ∧
    exec .ctxinvWrite s = .next { s with priv := { s.priv with descs := dropN s.priv.descs (w.toNat % 2 ^ 16) } } ∧
    exec .ctxbaseWrite s = .next { s with priv := { s.priv with
      ctxbase := putHalf s.priv.ctxbase (q == 1) w &&& 0xFFFFFFFFFFFF0000, descs := [] } } ∧
    exec .stkstatWrite s = .next (if w.getLsbD 31 then s.updStack q fun x => { x with malf := false } else s) ∧
    exec .felttailWrite s = .next { s with felt := { s.felt with tail := w, stopped := false } }

/-- A write of the host window with the host's present incarnation has the effect of the register it falls on, and
what that brings about happens, and one with another incarnation is discarded; while the host may write: a write of
HEAD starts a channel's walk, HPUBLEN a publication, TBSET sets the time base, OUTEN enables or disables an output,
POSESEQ commits the pose; a read of ILDROP clears it; a publication that is under way publishes its range once its
lines are written. (R408, R409, R411, R412, R418, R421, R425, R438) -/
def Obligations.HostWindowActs : Prop :=
  ∀ s : State,
    (∀ off width v inc, s.subject = .window off width v inc → s.heartLost 64 = false →
      ((s.agent 64).inc = inc → exec .registerWrite s = .next (s.hcwWrite off width v).settle) ∧
      ((s.agent 64).inc ≠ inc → exec .registerWrite s = .next (s.discard 64 inc 0xFF).settle)) ∧
    (exec .ildropRead s = .next { s with ilog := { s.ilog with drop := 0 } }) ∧
    (s.hpub.busy = true → s.hostReady = true → exec .hostPublication s = .next s.publishRange) ∧
    ∀ n v, s.hostMay = true → s.subject = .write n v →
      exec .hostCopyHeadWrite s = .next (s.startWalk n v) ∧ exec .hpublenWrite s = .next (s.startPub (lo32 v)) ∧
      exec .tbset s = .next (s.setTime v).settle ∧ exec .outputEnable s = .next (s.writeOutEn n (lo32 v)) ∧
      exec .poseseqWrite s = .next (s.updOutput n Output.commit)

/-- The events of launches have their effect where their conditions hold: a queue that consumes takes its record at
HEAD, again after a wait for VALID and after a wait for dependences; a gang placement that fits and is next starts the
gang's teams; a starved gang reserves a cluster; offered tasks form a team of one group and one ready entry, whose
lane t has `$tid` t, the argument of its task as `$param`, and the PC and priority of the entry; a team over whose
operations are done is freed with its gang; a launch with no gang left to place and none running writes back and, a
margin later, counts its completion. (That a task team takes its tasks from the head of the cluster's queue and drops
them there is the model's choice, log entry 26: R191 says only up to 32 consecutive entries.) (R155, R157, R158, R159,
R160, R161, R190, R191) -/
def Obligations.LaunchesProceed : Prop :=
  ∀ s : State,
    (∀ q, s.subject = .unit q → s.consumes q = true →
      ((s.lq q).wait = .none → exec .launchRecordConsume s = .next (s.consume q)) ∧
      (∀ w, (s.lq q).wait = .valid w → w ≤ s.time.now → exec .validRetry s = .next (s.consume q)) ∧
      (∀ w r, (s.lq q).wait = .deps w r → exec .dependenceReread s = .next (s.admitRecord q r))) ∧
    (∀ n p l slots, s.subject = .place n p → s.launch? n = some l → s.hasGang l = true → s.running = true →
      s.isNext l = true → s.placeOk l p = true → s.gangSlots l.ctx l.slotSizes = some slots →
      exec .gangPlacement s = .next (
        let gang : Gang :=
          { id := s.nextNum, launch := l.id, index := l.placed, size := l.gangSize, cluster := clusterOf (p.cores.getD 0 0),
            base := p.gb, scratch := l.scratch, local_ := emptyLocal, task := false, laneGangs := [], savedWhole := false,
            frame := slots.getD l.gangSize 0, frameLen := gangFrameSize l.scratch }
        let s1 := { s.fresh.2 with gangs := s.gangs ++ [gang] }.updLaunch l.id fun x =>
          { x with placed := x.placed + 1, live := x.live + 1, reserve := none,
                   waiting := if x.placed + 1 < x.grid then some s.time.now else none }
        (p.cores.zipIdx.foldl (fun (t : State) (c, i) => t.startOn l s.nextNum i c (slots.getD i 0)) s1).settle)) ∧
    (∀ n c l since, s.subject = .unit2 n c → s.launch? n = some l → l.waiting = some since → s.hasGang l = true →
      l.reserve = none → c < 16 → starveTicks ≤ s.time.now - since → s.fitsSomewhere l = false → s.keptFrom n c = false →
      s.fitsEmptied l c = true →
      exec .placementStarvation s = .next (s.updLaunch n fun x => { x with reserve := some c })) ∧
    (∀ c core count k ks l slots, s.subject = .unit3 c core count →
      (sameTasks (s.tasks.getD c [])).take (min count 32) = k :: ks → s.launch? k.launch = some l → clusterOf core = c →
      s.suspendedCtx l.ctx = false → s.running = true → s.isNext l = true →
      let n := (k :: ks).length
      let size := frameSize n l.nregs 0 l.spillUnits 0 0
      s.taskFits l n core = true → s.gangSlots l.ctx [size] = some slots →
      ∃ (t : Team) (g : Group) (e : Entry), t.size = n ∧ t.nregs = l.nregs ∧ t.resident = true ∧ t.core = core ∧ t.index = 0 ∧
        t.shared = 0 ∧ t.ntiles = 0 ∧ t.ncvs = 0 ∧ t.groups = [g] ∧ g.entries = [e] ∧ e.isReady = true ∧
        (∀ i task, (k :: ks)[i]? = some task → e.mask.getLsbD i = true ∧ (g.lane i).kind = .live ∧ (g.lane i).tid = i ∧
          (g.lane i).param = task.arg ∧ (g.lane i).pc = ptrAddr k.entry ∧ (g.lane i).prio = ptrPrio k.entry) ∧
        (∀ i, n ≤ i → (g.lane i).kind ≠ .live) ∧
        let gang : Gang := { id := s.nextNum, launch := l.id, index := k.gang, size := 1, cluster := c, base := 0, scratch := 0,
                             local_ := emptyLocal, task := true, laneGangs := (k :: ks).map (·.gang), savedWhole := false,
                             frame := 0, frameLen := 0 }
        exec .taskTeamForm s = .next (State.settle (
          { s with nextNum := s.nextNum + 2, tasks := s.tasks.set c ((s.tasks.getD c []).drop n), teams := s.teams ++ [t],
                   gangs := s.gangs ++ [gang] }.updLaunch l.id
            fun x => { x with teams := x.teams ++ [s.nextNum + 1] }))) ∧
    (∀ id t g, s.subject = .unit id → s.team? id = some t → t.ended = true → s.operationsDone t = true →
      let s1 := s.logLost t
      s1.gang? t.gang = some g →
      exec .teamResourcesFree s = .next (State.settle (State.gangOver
        ((List.range 8).foldl (fun (s : State) k => s.updStack k fun x => { x with holds := x.holds.filter fun h => h.team != id })
          { s1 with teams := s1.teams.filter fun x => x.id != id, streams := s1.streams.filter fun x => x.team != id,
                    serges := s1.serges.filter fun z => z.team != id }) g t.size))) ∧
    (∀ n l, s.subject = .unit n → s.launch? n = some l → s.running = true → l.grid ≤ l.placed → l.live = 0 → l.tasks = 0 →
      (l.end_ = .running → l.done = 0 → exec .launchCompletion s = .next (s.dropLaunch n)) ∧
      (l.end_ = .running → l.done ≠ 0 → exec .launchCompletion s = .next (
        let s1 := s.systemWriteBack (l.teams.flatMap fun t => (List.range 32).map fun g => (t, g))
        s1.updLaunch n fun x => { x with end_ := .releasing (s1.time.now + BitVec.ofNat 64 (s1.margin .system)) })) ∧
      (∀ w, l.end_ = .releasing w → w ≤ s.time.now → exec .launchCompletion s = .next (s.countDone l)))

/-- The events of the engines have their effect where their conditions hold: the probe pass of an operation that may
start gives its pieces, its fault or its suspension; the data pass moves its pieces, or those of one line; a slice is
delivered; a far atomic in its order is performed; a chained copy takes its next record; a decode writes its output; a
stamp is written once its release is over; a write held at a stack, a unit's too, is performed at its tick; a line
that is present lets its accesses go on; a lease that has run out expires. (R227, R251, R255, R256, R258, R273, R274,
R299, R302, R303, R305, R329) -/
def Obligations.EngineOperationsProceed : Prop :=
  ∀ s : State,
    (∀ num o, s.subject = .unit num → s.op? num = some o → o.phase = .issued → s.mayStart o = true →
      (match o.kind with | .far .. | .chain .. => false | _ => true) = true →
      (∀ t ps, s.probe o = (t, .ok ps) →
        exec .copyProbePass s = .next (t.updOp num fun o => { o with phase := .probed ps ps })) ∧
      (∀ t c i a, s.probe o = (t, .fault c i a) → (match o.kind with | .mcast .. => false | _ => true) = true →
        exec .copyProbePass s = .next (t.failOp o c i a).settle) ∧
      (∀ t w, s.probe o = (t, .suspend w) →
        exec .copyProbePass s = .next (t.suspendOp o w (if o.kind.isOut then permWrite else permRead)).settle)) ∧
    (∀ num, s.subject = .unit num → exec .copyDataPass s = .next (s.moveData num fun _ _ => true)) ∧
    (∀ num line, s.subject = .unit2 num line → exec .copyDataPass s =
      .next (s.moveData num fun o p => (o.kind.localBase + p.off) / 128 == line)) ∧
    (∀ num o data sent dst va len n nth slice q, s.subject = .unit num → s.op? num = some o → o.phase = .slice data sent →
      o.kind = .mcast dst va len n nth slice → o.owner = .queue q →
      exec .mcastSliceDeliver s = .next (
        let r := s.sendSlices o q dst len n nth slice data o.gang (List.range n) sent
        let s1 := r.1.updOp num fun o => { o with phase := .slice data r.2 }
        (if (match s1.op? num with | some o => o.complete && decide (n ≤ r.2.length) | none => false)
          then { s1 with ops := s1.ops.filter fun o => o.num != num } else s1).settle)) ∧
    (∀ num o va wide op cas b c ret, s.subject = .unit num → s.op? num = some o → o.kind = .far va wide op cas b c ret →
      o.phase = .issued → s.mayStart o = true → s.inOrder o = true → ret = none ∨ s.isAway o.team = false →
      s.farBefore o va.toNat (if wide then 8 else 4) = false →
      exec .farAtomicPerform s = .next (s.farPerform o va wide op cas b c ret)) ∧
    (∀ num o p ord scope, s.subject = .unit num → s.op? num = some o → o.kind = .chain p ord scope → s.mayStart o = true →
      s.inOrder o = true →
      (o.phase = .issued → p = 0 → exec .chainRecord s = .next (s.endOp o o.time none).settle) ∧
      (o.phase = .issued → p ≠ 0 → exec .chainRecord s = .next (s.chainRead o p scope)) ∧
      (∀ w, o.phase = .record1 w → exec .chainRecord s = .next (s.chainCopy o p scope w)) ∧
      (∀ w ls, o.phase = .record w ls → exec .chainRecord s = .next (s.recordRelease num scope w ls)) ∧
      (∀ at_ w, o.phase = .releasing at_ w → at_ ≤ s.opTime o →
        exec .chainRecord s = .next (s.chainFinish o p ord scope at_ w))) ∧
    (∀ num o todo ps dst va out src code, s.subject = .unit num → s.op? num = some o → o.phase = .probed todo ps →
      o.kind = .decode dst va out src code → s.inOrder o = true → o.badFault = none →
      let r := s.readBad o todo [] []
      let bits := streamBits (r.2.2.1.zipIdx.map fun (b, i) =>
        (b, r.2.2.2.any fun a => decide (a < i + 1) && decide ((i : Int) < a + 4)))
      r.2.1.badFault = none → out ≤ (decodeBits code out bits).length →
      exec .decodeRun s = .next ((r.1.land r.2.1.team r.2.1.sp dst (decodeOutput (decodeBits code out bits) out)
        (linesOf dst out)).endOp r.2.1 (State.opTime (r.1.land r.2.1.team r.2.1.sp dst
          (decodeOutput (decodeBits code out bits) out) (linesOf dst out)) r.2.1) none).settle) ∧
    (∀ team n t b x w, s.subject = .unit2 team n → s.team? team = some t →
      (t.queue n).closed.find? (fun b => b.complete && b.stamp.isSome) = some b → b.stamp = some x → x.wait = none →
      b.stampAt = some w → exec .stampWrite s = .next (
        let s1 := s.updQueue team n fun q => q.updBatch b.seq fun b => { b with stampAt := some w }
        if s1.timeAt t.core < w then s1 else (s1.putStamp t n b x).settle)) ∧
    (∀ k i h, s.subject = .unit2 k i → (s.stack k).heldWrites[i]? = some h → h.at_ ≤ s.time.now → i < 1024 →
      (∀ e ∈ (s.stack k).heldWrites.take i, e.grain ≠ h.grain) →
      exec .pendingWritePerform s = .next (s.performHeld k i h)) ∧
    (∀ team n, s.subject = .line (.shared team n) → exec .linePresent s = .next (s.drain team .sh).settle ∧
      exec .leaseExpiry s = .next (s.updLocal team .sh fun m => m.setLine ((m.line n).expire (s.teamTime team)))) ∧
    (∀ gang n, s.subject = .line (.scratch gang n) →
      (∀ t, s.teams.find? (fun t => t.gang == gang) = some t → exec .linePresent s = .next (s.drain t.id .sc).settle) ∧
      exec .leaseExpiry s = .next (s.updGang gang fun g =>
        { g with local_ := g.local_.setLine ((g.local_.line n).expire (s.dieTime (g.cluster / 4))) }))

/-- The events of the matrix unit: an operation of a tile that is ready is finished, and what then may run runs: a
multiplication whose outlier entries are present, a load whose image is present, a store; the entries that a `qnt`
appended are written to the list, and the joins that waited are formed. (R196, R202, R203, R207, R214, R217) -/
def Obligations.MatrixOperationsPerform : Prop :=
  ∀ (s : State) (team n : Nat), s.subject = .unit2 team n →
    (∀ o, s.readyTile team n (fun t a => match a with | .mul m => s.entriesHere t m | _ => false) = some o →
      exec .matrixOperationPerform s = .next ((s.finishTile team o).runTiles team).settle) ∧
    (∀ o, s.readyTile team n (fun t a => match a with
        | .load x => t.local_.present (s.timeAt t.core) x 8192
        | _ => false) = some o →
      exec .tldPerform s = .next ((s.finishTile team o).runTiles team).settle) ∧
    (∀ o, s.readyTile team n (fun _ a => match a with | .store _ => true | _ => false) = some o →
      exec .tstPerform s = .next ((s.finishTile team o).runTiles team).settle) ∧
    (∀ t a, s.team? team = some t → t.appends.find? (fun a => a.od == n) = some a →
      exec .qntAppendWrite s = .next ((((s.land team .sh a.addr a.data (linesOf a.addr a.data.length)).updTeam team fun t =>
        { t with appends := t.appends.filter fun b => b.num != a.num }).formJoins team).settle))

/-- The events of the units have their effect where their conditions hold: a stream program that waits for nothing
executes its next word or pushes its next unit; a unit in flight arrives with its bytes; rays at a treelet that may be
picked are traversed; a ray that has an end, or that a second has passed since its issue, ends; a drained treelet
completes its hold, and one whose entry has become bad ends it; a filter and a hash-grid command give their results; a
Calico program is checked, takes its column, and executes its bundle, and ends once its writes are performed. (That
one batch takes every queued ray of the treelet is the reading of log entry 45; that a program whose write is held for
leases waits for it is the model's reading, log entry 47.) (R307, R308, R310, R323, R326, R328, R335, R338, R341,
R344, R346, R348) -/
def Obligations.UnitEventsProceed : Prop :=
  ∀ s : State,
    (∀ c n z t, s.subject = .unit2 c n → s.serges.find? (fun z => z.cluster == c && z.unit == n) = some z →
      s.team? z.team = some t → z.stopped = false → z.wait = none →
      exec .sergeWord s = .next (if z.units ≠ 0 then s.pushUnits z 64 else s.sergeStep z t)) ∧
    (∀ core q i x r t bs, s.subject = .unit3 core q i → s.stream? core q = some x → x.items[i]? = some (.flight r) →
      r.wait = none → core < 512 → s.sergeReadUnit core r r.va 128 = (t, .data bs) →
      exec .sergeUnitArrive s = .next (((t.updStream core q fun x => { x with items := x.items.set i (.unit bs) }).pops
        core q).settle)) ∧
    (∀ k scene i, s.subject = .unit3 k scene i → s.mayPick k scene i = true → exec .rayTraverseBatch s =
      .next ((((s.raysAt scene i).foldl (fun s r => s.traverse r i) s).unspillAll).settle)) ∧
    (∀ num r, s.subject = .unit num → s.rays.find? (fun r => r.cmd.num == num) = some r →
      (s.rayLate r = false → r.fate = some 0 → exec .rayTraverseBatch s = .next (s.endRay r r.result 0 0).settle) ∧
      (∀ c, s.rayLate r = false → r.fate = some c → c ≠ 0 → exec .rayTraverseBatch s = .next (s.endRay r (r.errResult c false) c 0).settle) ∧
      (1000000000 ≤ (s.time.now - r.issued).toNat →
        exec .rayTraverseBatch s = .next (s.endRay r (r.errResult 0x1A false) 0x1A 0).settle ∧
        exec .rayTimeout s = .next ((s.endRay r (r.errResult 0x1A false) 0x1A 0).unspillAll).settle)) ∧
    (∀ num x t e, s.subject = .unit num → s.tcmds.find? (fun x => x.cmd.num == num && x.swap.isNone) = some x →
      State.treeEntry { s with tcmds := s.tcmds.filter fun y => y.cmd.num != num } x.cmd x.scene x.treelet = (t, .ok e) →
      exec .trholdDrained s = .next (((t.updOwnHold x fun h =>
        { h with draining := false, granted := true }).treeDone x.cmd x.scene x.treelet e.version 0x00).settle)) ∧
    (∀ num x t err v, s.subject = .unit num → s.tcmds.find? (fun x => x.cmd.num == num && x.swap.isNone) = some x →
      State.treeEntry { s with tcmds := s.tcmds.filter fun y => y.cmd.num != num } x.cmd x.scene x.treelet =
        (t, .error (err, v)) →
      let mine (h : Hold) : Bool := h.on x.scene x.treelet && h.cmd == x.cmd.num
      exec .trholdDrained s = .next ((((t.updOwnHold x fun h =>
        { h with draining := false }).updStack (treeStack x.treelet) fun y =>
        { y with holds := y.holds.filter fun h => !mine h || h.granted }).treeFail x.cmd v err).settle)) ∧
    (∀ num g, s.subject = .unit num →
      (s.gauze.find? (fun y => y.cmd.num == num && !y.hash) = some g →
        exec .filtResult s = .next ((s.filter g).1.endGauze g (s.filter g).2)) ∧
      (s.gauze.find? (fun y => y.cmd.num == num && y.hash) = some g →
        exec .hgridResult s = .next ((s.hashGrid g).1.endGauze g (s.hashGrid g).2))) ∧
    (∀ n c, s.subject = .unit n → s.calicoOn n = some c →
      (∀ t d, c.started = false →
        (s.progCorrects c).1.unitBytes 2 c.cmd.ctx c.cmd.images c.stack c.prog (8 * (c.nb + 1)) = (t, some d) → d.bad = [] →
        let code := (List.range (c.nb + 1)).map fun i => BitVec.ofNat 64 (ofBytes ((d.data.drop (8 * i)).take 8))
        code.all bundleOk = true → exec .calicoProgramCheck s =
          .next (t.putCalico { c with ce := c.ce || (s.progCorrects c).2, started := true, code := code })) ∧
      (c.started = true → s.bankHeld c = true → exec .calicoBundle s = .next s) ∧
      (∀ stop last, c.started = true → s.bankHeld c = false → c.outcome = some (stop, last) →
        exec .calicoBundle s = .next (s.endCalico c stop last)) ∧
      (∀ t r, c.started = true → s.bankHeld c = false → c.outcome = none → s.runBundle c = (t, r) →
        let ends (c' : CalicoCmd) (stop : Option Byte) : Prop :=
          (t.bankHeld c' = false → exec .calicoBundle s = .next (t.endCalico c' stop c.at_)) ∧
          (t.bankHeld c' = true → exec .calicoBundle s = .next (t.putCalico { c' with outcome := some (stop, c.at_) }))
        (∀ c', r = .ok c' → c.at_ ≠ c.nb → exec .calicoBundle s = .next (t.putCalico { c' with at_ := c.at_ + 1 })) ∧
        (∀ c', r = .ok c' → c.at_ = c.nb → ends c' none) ∧
        (∀ c', r = .ended c' → ends c' none) ∧
        (∀ e c', r = .bad e c' → ends c' (some e)) ∧
        (r = .stall → exec .calicoBundle s = .next s)) ∧
      (∀ a t c' ws, c.outcome = none →
        c.stream.findSome? (fun x => match x with | .pending a => some a | .here _ => none) = some a → s.readColumn c a = (t, some (c', ws)) → exec .calicoColumnArrive s =
          .next (t.putCalico { c' with stream := arriveColumn ws c'.stream })))

/-- The events of the residency blocks: a replayable period of 100,000 ticks orders its team saved; a team at rest
whose frame and gang can be written is saved and its stamp counted; a context with nothing left to save gets its
stamp; a saved team or gang is restored at its place; the collector forwards its oldest fault; a Felt record that may
run gives its result. A stamp that meets a fault is dropped (the model's choice, log entry 32). (R362, R363, R364,
R368, R369, R373, R382, R393, R396, R398, R399) -/
def Obligations.ResidencyEventsProceed : Prop :=
  ∀ s : State,
    (∀ id t since, s.subject = .unit id → s.team? id = some t → t.replaySince = some since → s.running = true →
      t.resident = true → t.ended = false → t.saving = 0 → s.isReserved t.core = false →
      (∃ g gi, (g, gi) ∈ t.groups.zipIdx ∧ s.replayable id gi g = true) →
      100000 ≤ (s.timeAt t.core - since).toNat ∨ s.heldUp t = true →
      exec .replayableSaveTimeout s = .next (s.orderSave t 1).settle) ∧
    (∀ id t t1 t2 s3 s4, s.subject = .unit id → s.team? id = some t → s.running = true → s.atRest t = true →
      let s0 := if t.saving = 1 then s.orderSave t 1 else s
      let s1 := (s0.regroup.filter fun r => r.team == id).foldl State.releaseRegroup s0
      let s2 := (List.range 8).foldl (fun s n => s.advanceQueue id n) (s1.updTeam id Team.closeOpen)
      s2.team? id = some t1 → s2.writeFrame t1 = (s3, some t2) → s3.saveGang t1 = (s4, true) →
      exec .teamSave s = .next (
        let s5 := (s4.disarmTeam t1).parkSerge t1
        let s6 := s5.updTeam id fun t =>
          { t with tiles := t2.tiles, imaged := t2.imaged, marked := t.marked || t2.marked, saving := 0, replaySince := none,
                   place := .saved t2.saving (s5.timeAt t.core),
                   groups := t.groups.map fun g =>
                     { g with holds := [], entries := g.entries.map fun e => { e with issuing := e.issuing && e.inRun } } }
        (s6.countSave (s6.ctxOf t1)).settle)) ∧
    (∀ c o, s.subject = .unit c → s.priv.saves.find? (fun o => o.ctx == c) = some o → s.stillSaving c = false →
      let who : PartWho := { src := 5, ctx := o.stampCtx, core := o.core, part := false, raises := true }
      let drop (t : State) : State := { t with priv := { t.priv with saves := t.priv.saves.erase o } }
      let w := s.partWrite (.va o.stampCtx o.stamp.toNat)
        (bytesOf 8 (o.count % 2 ^ 24 * 2 ^ 40 + s.time.now.toNat % 2 ^ 40)) who
      (∀ t ls, w = (t, .ok ls) → exec .csaveStamp s = .next (drop (t.partRelease ls))) ∧
      (∀ t, w = (t, .fault) → exec .csaveStamp s = .next (drop t))) ∧
    (∀ n p, s.subject = .place n p →
      (∀ g, s.gang? n = some g → g.savedWhole = true → exec .teamRestore s = .next (s.restoreGang g p)) ∧
      (∀ t g, s.gang? n = none → s.team? n = some t → s.gang? t.gang = some g →
        exec .teamRestore s = .next (s.restoreAlone t g (p.cores.getD 0 512)))) ∧
    (∀ m rest, s.fillsOver.coll.queue = m :: rest → exec .faultCollectorForward s =
      .next (State.collect { s.fillsOver with coll := { s.fillsOver.coll with queue := rest } } m)) ∧
    (∀ i j, s.subject = .unit i →
      let t := s.feltTakeAll 16
      j.waits = false → t.feltMayRun j = true →
      let runs (op : Nat) (e : Instr) (run : State → FeltJob → State × Byte) : Prop :=
        t.felt.jobs.find? (fun j => j.index == BitVec.ofNat 32 i && j.event == op) = some j →
          (j.result = none → exec e s = .next ((run t j).1.feltFinish j (run t j).2)) ∧
          ∀ r, j.result = some r → exec e s = .next (t.feltFinish j r)
      runs 1 .feltIn State.feltRunIn ∧ runs 2 .feltOut State.feltRunOut ∧ runs 3 .feltCkpt State.feltRunCkpt ∧
        runs 4 .feltRestore State.feltRunRestore)

/-- While the part runs: a peer's or the host's request of the agent's present incarnation, where it is not dead and
is admitted (a far atomic as a write), is performed, one that is not admitted ends with 0x11 at the requester, and one
of another incarnation is discarded; a flit for another device goes on by its route; a heartbeat of the present
incarnation makes its agent alive, unless the agent's declaration is due, which then comes first; an agent unheard for
1.5 ms is slow and for 3 ms dead, which is announced; DEAD buries the agent; JOIN of a newer incarnation buries the
older and makes it alive; STALE of this part's own incarnation ends its traffic at once in status-only mode with 0x21,
a link that has failed to retrain for 1 ms stops the part with 0x20; a heartbeat is sent in each new millisecond while
the bound is at most 1,000 ns; a time exchange takes its bound, UNSYNC and slew. (The limit of 10 ticks to the slew of
one exchange is the reading of log entry 14.) (R407, R410, R413, R414, R415, R416, R417, R423, R424, R425, R426) -/
def Obligations.FabricEventsAct : Prop :=
  ∀ s : State, s.power.state = 2 →
    (∀ r, s.subject = .peer r → r.dst.toNat ≠ s.fabric.dev → exec .damaskRequest s = .next { s with fabric := { s.fabric with
      sent := (if s.fabric.routes.getD r.dst.toNat 0 = 0 then .fault r.dev.toNat 0x11
        else .forward r.dst.toNat r.dev.toNat r.ia.toNat (s.fabric.routes.getD r.dst.toNat 0)) :: s.fabric.sent } }) ∧
    (∀ r, s.subject = .peer r → r.dst.toNat = s.fabric.dev → s.heartLost r.dev.toNat = false →
      let admitted := s.fabric.admits r.dev.toNat r.ia.toNat (accessLen r.acc)
        (match r.acc with | .atomic .. => permWrite | a => accessPerm a)
      ((s.agent r.dev.toNat).inc ≠ r.inc → exec .damaskRequest s = .next (s.discard r.dev.toNat r.inc r.port)) ∧
      ((s.agent r.dev.toNat).inc = r.inc → (s.agent r.dev.toNat).state ≠ 3 →
        (admitted = true → exec .damaskRequest s =
          .next (s.outside r.dev.toNat (BitVec.ofNat 12 (0x900 + r.dev.toNat)) r.ia.toNat r.acc)) ∧
        (admitted = false → exec .damaskRequest s = .next { s with fabric := { s.fabric with
          sent := .fault r.dev.toNat 0x11 :: s.fabric.sent } }))) ∧
    (∀ r, s.subject = .host r → s.heartLost 64 = false →
      ((s.agent 64).inc ≠ r.inc → exec .hostDeviceMemoryAccess s = .next (s.discard 64 r.inc 0xFF)) ∧
      ((s.agent 64).inc = r.inc → (s.agent 64).state ≠ 3 →
        exec .hostDeviceMemoryAccess s = .next (s.outside 64 0x800 r.ia.toNat r.acc))) ∧
    (∀ d i, s.subject = .unit2 d i →
      exec .dead s = .next (s.bury d (BitVec.ofNat 8 i)) ∧
      ((s.agent d).inc = BitVec.ofNat 8 i → (s.agent d).state ≠ 3 → s.heartLost d = false →
        exec .heartbeatReceive s = .next (s.updAgent d fun a => { a with state := 1, beat := s.time.now })) ∧
      (s.heartLost d = true → ((s.declare d).agent d).state = 3 →
        exec .heartbeatReceive s = .next (s.declare d)) ∧
      (d < 64 → (s.agent d).inc.toNat < i % 256 →
        exec .joinNotice s = .next (
          let t := s.bury d (BitVec.ofNat 8 i - 1)
          if (t.agent d).inc = BitVec.ofNat 8 i ∧ (t.agent d).state = 3
          then t.welcome d else t)) ∧
      (d = s.fabric.dev → BitVec.ofNat 8 i = s.fabric.inc → exec .stale s = .next (s.enterStatus 0x21).settle)) ∧
    (∀ d, s.subject = .unit d →
      ((s.agent d).state = 1 → 1500000 ≤ (s.time.now - (s.agent d).beat).toNat →
        exec .heartbeatSlow s = .next (s.updAgent d fun a => { a with state := 2 })) ∧
      ((s.agent d).state = 1 ∨ (s.agent d).state = 2 → 3000000 ≤ (s.time.now - (s.agent d).beat).toNat →
        exec .heartbeatDead s = .next (State.bury
          { s with fabric := { s.fabric with sent := .dead d (s.agent d).inc :: s.fabric.sent } } d (s.agent d).inc)) ∧
      (d < 6 → exec .linkError s =
        .next { s with fabric := { s.fabric with retrain := setN s.fabric.retrain d s.time.now } }) ∧
      (∀ w, lookupN s.fabric.retrain d = some w → 1000000 ≤ (s.time.now - w).toNat →
        exec .linkRetrainFail s = .next (s.stopPart 0x20).settle)) ∧
    (s.time.bound ≤ 1000 → s.fabric.lastBeat.toNat / 1000000 < s.time.now.toNat / 1000000 →
      exec .heartbeatSend s = .next { s with fabric := { s.fabric with lastBeat := s.time.now } }) ∧
    (∀ x, s.subject = .sync x → s.time.cfg.getLsbD 7 = true → s.time.master = false →
      exec .timeSyncExchange s = .next { s with time := { s.time with
        bound := min x.bound 0xFFFF, unsync := decide (20 < x.bound), met := true, slew := max (-10) (min 10 x.slew) } })

/-- A present word that is due is read and the next frame chosen; a scan that is due takes its picture and advances
the deadline by the period; power on leaves the reset state with memory cleared; a cold and a warm start begin, one
event a step, with what the start finds outside the part, and one that failed is tried again; throttling lowers the
clock by 100 MHz down to 800, recovery restores 1,600; the thermal shutdown stops the part with 0x30. (That one event
is one step of a start is the model's choice, log entry 50; that power on leaves this state, with nothing of an
earlier life held, and memory cleared at once, which R432 does at its step 3, is the model's choice, log entries 7 and
8.) (R370, R417, R420, R421, R422, R432, R435, R437, R439) -/
def Obligations.DisplayAndPowerEventsAct : Prop :=
  ∀ s : State,
    (∀ o, s.subject = .unit o →
      (s.presentDue o = true → exec .presentWordRead s = .next (
        let t := s.choose o
        (if t.time.unsync then t.present o 5 else t).updOutput o fun x => { x with chosen := true })) ∧
      (s.scanDue o = true → exec .frameScanStart s = .next (
        let r := s.picture o (s.output o).next
        ((List.range r.2.2).foldl (fun (t : State) _ => t.present o 2) r.1).updOutput o fun x =>
          { x with scan := x.next, picture := r.2.1, chosen := false, deadline := x.deadline + x.period.setWidth 64 }))) ∧
    (let r := State.reset
     exec .powerOn s = .next { r with mem := s.mem.zeroed, nextNum := s.nextNum, freeCtr := s.freeCtr,
                                      subject := s.subject, agenda := s.agenda }) ∧
    (∀ b, s.subject = .boot b →
      exec .coldStart s = .next (s.startAs false b) ∧ exec .warmStart s = .next (s.startAs true b) ∧
      (s.power.state = 1 → s.power.attempts ≠ 0 → exec .autoRestart s = .next (s.startStep b))) ∧
    exec .thermalThrottle s = .next { s with power := { s.power with mhz := max 800 (s.power.mhz - 100) } } ∧
    exec .thermalRecover s = .next { s with power := { s.power with mhz := 1600 } } ∧
    (s.power.state ≠ 3 → exec .thermalShutdown s = .next (s.stopPart 0x30).settle)

/-- Each class 0 and 1 word of fixed latency, where it goes on within its run, changes in the live lanes of P only its
destination registers, the carry predicate where its row names one or the predicate `cmp` writes, flags that it adds,
and the PC (with a loop that ends at it); in other lanes only the PC; nothing else of the part: no byte of any memory,
no special register, no other lane, group or team. (R15, R23, R28, R70, R90, R91, R92, R95, R97) -/
def Obligations.ArithmeticWordsKeepTheRest : Prop :=
  (∀ h x, Instr.wf (.add h x) = true → Frame (.add h x) h (LaneKept (destRegs (.add h x)) [])) ∧
  (∀ h x, Instr.wf (.sub h x) = true → Frame (.sub h x) h (LaneKept (destRegs (.sub h x)) [])) ∧
  (∀ h x, Instr.wf (.mul h x) = true → Frame (.mul h x) h (LaneKept (destRegs (.mul h x)) [])) ∧
  (∀ h x, Instr.wf (.mulh h x) = true → Frame (.mulh h x) h (LaneKept (destRegs (.mulh h x)) [])) ∧
  (∀ h x, Instr.wf (.mad h x) = true → Frame (.mad h x) h (LaneKept (destRegs (.mad h x)) [])) ∧
  (∀ h x, Instr.wf (.madw h x) = true → Frame (.madw h x) h (LaneKept (destRegs (.madw h x)) [])) ∧
  (∀ h x, Instr.wf (.min_ h x) = true → Frame (.min_ h x) h (LaneKept (destRegs (.min_ h x)) [])) ∧
  (∀ h x, Instr.wf (.max_ h x) = true → Frame (.max_ h x) h (LaneKept (destRegs (.max_ h x)) [])) ∧
  (∀ h x, Instr.wf (.abs h x) = true → Frame (.abs h x) h (LaneKept (destRegs (.abs h x)) [])) ∧
  (∀ h x, Instr.wf (.neg h x) = true → Frame (.neg h x) h (LaneKept (destRegs (.neg h x)) [])) ∧
  (∀ h x, Instr.wf (.clamp h x) = true → Frame (.clamp h x) h (LaneKept (destRegs (.clamp h x)) [])) ∧
  (∀ h x, Instr.wf (.lea h x) = true → Frame (.lea h x) h (LaneKept (destRegs (.lea h x)) [])) ∧
  (∀ h x, Instr.wf (.sel h x) = true → Frame (.sel h x) h (LaneKept (destRegs (.sel h x)) [])) ∧
  (∀ h d k, Instr.wf (.movi h d k) = true → Frame (.movi h d k) h (LaneKept (destRegs (.movi h d k)) [])) ∧
  (∀ h d k, Instr.wf (.movh h d k) = true → Frame (.movh h d k) h (LaneKept (destRegs (.movh h d k)) [])) ∧
  (∀ h x, Instr.wf (.dp4 h x) = true → Frame (.dp4 h x) h (LaneKept (destRegs (.dp4 h x)) [])) ∧
  (∀ h x, Instr.wf (.addc h x) = true → Frame (.addc h x) h (LaneKept (destRegs (.addc h x)) [x.c.toNat])) ∧
  (∀ h x, Instr.wf (.subb h x) = true → Frame (.subb h x) h (LaneKept (destRegs (.subb h x)) [x.c.toNat])) ∧
  (∀ h x, Instr.wf (.adds h x) = true → Frame (.adds h x) h (LaneKept (destRegs (.adds h x)) [x.c.toNat])) ∧
  (∀ h x, Instr.wf (.subs h x) = true → Frame (.subs h x) h (LaneKept (destRegs (.subs h x)) [x.c.toNat])) ∧
  (∀ h x, Instr.wf (.cmp h x) = true → Frame (.cmp h x) h (LaneKept (destRegs (.cmp h x)) [x.d.toNat])) ∧
  (∀ h x, Instr.wf (.and_ h x) = true → Frame (.and_ h x) h (LaneKept (destRegs (.and_ h x)) [])) ∧
  (∀ h x, Instr.wf (.or_ h x) = true → Frame (.or_ h x) h (LaneKept (destRegs (.or_ h x)) [])) ∧
  (∀ h x, Instr.wf (.xor_ h x) = true → Frame (.xor_ h x) h (LaneKept (destRegs (.xor_ h x)) [])) ∧
  (∀ h x, Instr.wf (.andn h x) = true → Frame (.andn h x) h (LaneKept (destRegs (.andn h x)) [])) ∧
  (∀ h x, Instr.wf (.not_ h x) = true → Frame (.not_ h x) h (LaneKept (destRegs (.not_ h x)) [])) ∧
  (∀ h x, Instr.wf (.shl h x) = true → Frame (.shl h x) h (LaneKept (destRegs (.shl h x)) [])) ∧
  (∀ h x, Instr.wf (.shr h x) = true → Frame (.shr h x) h (LaneKept (destRegs (.shr h x)) [])) ∧
  (∀ h x, Instr.wf (.sar h x) = true → Frame (.sar h x) h (LaneKept (destRegs (.sar h x)) [])) ∧
  (∀ h x, Instr.wf (.rotl h x) = true → Frame (.rotl h x) h (LaneKept (destRegs (.rotl h x)) [])) ∧
  (∀ h x, Instr.wf (.bfx h x) = true → Frame (.bfx h x) h (LaneKept (destRegs (.bfx h x)) [])) ∧
  (∀ h x, Instr.wf (.bfi h x) = true → Frame (.bfi h x) h (LaneKept (destRegs (.bfi h x)) [])) ∧
  (∀ h x, Instr.wf (.popc h x) = true → Frame (.popc h x) h (LaneKept (destRegs (.popc h x)) [])) ∧
  (∀ h x, Instr.wf (.clz h x) = true → Frame (.clz h x) h (LaneKept (destRegs (.clz h x)) [])) ∧
  (∀ h x, Instr.wf (.ctz h x) = true → Frame (.ctz h x) h (LaneKept (destRegs (.ctz h x)) [])) ∧
  (∀ h x, Instr.wf (.brev h x) = true → Frame (.brev h x) h (LaneKept (destRegs (.brev h x)) [])) ∧
  (∀ h x, Instr.wf (.prmt h x) = true → Frame (.prmt h x) h (LaneKept (destRegs (.prmt h x)) [])) ∧
  (∀ h x, Instr.wf (.lop3 h x) = true → Frame (.lop3 h x) h (LaneKept (destRegs (.lop3 h x)) []))

/-- Each fixed-latency word of classes 2 to 4 on lanes alone (a class 2 word on a view, where the elements are not of
4 bits; `cvt`, where no lane of P takes the trap for consumed poison), where it goes on within its run, changes in the
live lanes of P only its destination registers or predicates, flags that it adds, and the PC (with a loop that ends at
it); in other lanes only the PC; nothing else of the part: no byte of any memory, no special register, no other lane,
group or team. Each variable-latency arithmetic word, where it goes on within its run, changes in the live lanes of P
no register, predicate or flag: it adds one result, whose registers are its destinations; in other lanes only the PC
changes, and nothing else of the part. (R15, R23, R28, R29, R69, R70, R94, R102, R108, R114) -/
def Obligations.FloatAndMoveWordsKeepTheRest : Prop :=
  (
  (∀ h x, Instr.wf (.fadd h x) = true → FrameWhere (.fadd h x) h (fun s u => badFloatView (s.viewsOf u) x = false) (LaneKept (destRegs (.fadd h x)) [])) ∧
  (∀ h x, Instr.wf (.fsub h x) = true → FrameWhere (.fsub h x) h (fun s u => badFloatView (s.viewsOf u) x = false) (LaneKept (destRegs (.fsub h x)) [])) ∧
  (∀ h x, Instr.wf (.fmul h x) = true → FrameWhere (.fmul h x) h (fun s u => badFloatView (s.viewsOf u) x = false) (LaneKept (destRegs (.fmul h x)) [])) ∧
  (∀ h x, Instr.wf (.ffma h x) = true → FrameWhere (.ffma h x) h (fun s u => badFloatView (s.viewsOf u) x = false) (LaneKept (destRegs (.ffma h x)) [])) ∧
  (∀ h x, Instr.wf (.fmin h x) = true → FrameWhere (.fmin h x) h (fun s u => badFloatView (s.viewsOf u) x = false) (LaneKept (destRegs (.fmin h x)) [])) ∧
  (∀ h x, Instr.wf (.fmax h x) = true → FrameWhere (.fmax h x) h (fun s u => badFloatView (s.viewsOf u) x = false) (LaneKept (destRegs (.fmax h x)) [])) ∧
  (∀ h x, Instr.wf (.fmed3 h x) = true → FrameWhere (.fmed3 h x) h (fun s u => badFloatView (s.viewsOf u) x = false) (LaneKept (destRegs (.fmed3 h x)) [])) ∧
  (∀ h x, Instr.wf (.cvt h x) = true → FrameWhere (.cvt h x) h (fun s u => ∀ j ∈ u.act, (s.lane u j).cvtPoison x = false) (LaneKept (destRegs (.cvt h x)) [])) ∧
  (∀ h x, Instr.wf (.fclass h x) = true → Frame (.fclass h x) h (LaneKept (destRegs (.fclass h x)) [])) ∧
  (∀ h x, Instr.wf (.hfma2 h x) = true → Frame (.hfma2 h x) h (LaneKept (destRegs (.hfma2 h x)) [])) ∧
  (∀ h x, Instr.wf (.hadd2 h x) = true → Frame (.hadd2 h x) h (LaneKept (destRegs (.hadd2 h x)) [])) ∧
  (∀ h x, Instr.wf (.hmul2 h x) = true → Frame (.hmul2 h x) h (LaneKept (destRegs (.hmul2 h x)) [])) ∧
  (∀ h x, Instr.wf (.hdot2 h x) = true → Frame (.hdot2 h x) h (LaneKept (destRegs (.hdot2 h x)) [])) ∧
  (∀ h x, Instr.wf (.dadd h x) = true → Frame (.dadd h x) h (LaneKept (destRegs (.dadd h x)) [])) ∧
  (∀ h x, Instr.wf (.dmul h x) = true → Frame (.dmul h x) h (LaneKept (destRegs (.dmul h x)) [])) ∧
  (∀ h x, Instr.wf (.dfma h x) = true → Frame (.dfma h x) h (LaneKept (destRegs (.dfma h x)) [])) ∧
  (∀ h x, Instr.wf (.frnd h x) = true → Frame (.frnd h x) h (LaneKept (destRegs (.frnd h x)) [])) ∧
  (∀ h x, Instr.wf (.packH h x) = true → Frame (.packH h x) h (LaneKept (destRegs (.packH h x)) [])) ∧
  (∀ h x, Instr.wf (.packW h x) = true → Frame (.packW h x) h (LaneKept (destRegs (.packW h x)) [])) ∧
  (∀ h x, Instr.wf (.unpk h x) = true → Frame (.unpk h x) h (LaneKept (destRegs (.unpk h x)) [])) ∧
  (∀ h x, Instr.wf (.mov h x) = true → Frame (.mov h x) h (LaneKept (destRegs (.mov h x)) [])) ∧
  (∀ h x, Instr.wf (.movImm h x) = true → Frame (.movImm h x) h (LaneKept (destRegs (.movImm h x)) [])) ∧
  (∀ h x, Instr.wf (.pget h x) = true → Frame (.pget h x) h (LaneKept (destRegs (.pget h x)) [])) ∧
  (∀ h x, Instr.wf (.pgetAll h x) = true → Frame (.pgetAll h x) h (LaneKept (destRegs (.pgetAll h x)) [])) ∧
  (∀ h x, Instr.wf (.nop h x) = true → Frame (.nop h x) h (LaneKept (destRegs (.nop h x)) [])) ∧
  (∀ h x, Instr.wf (.dqnt h x) = true → Frame (.dqnt h x) h (LaneKept (destRegs (.dqnt h x)) [])) ∧
  (∀ h x, Instr.wf (.fcmp h x) = true → Frame (.fcmp h x) h (LaneKept (destRegs (.fcmp h x)) [x.d.toNat])) ∧
  (∀ h x, Instr.wf (.dcmp h x) = true → Frame (.dcmp h x) h (LaneKept (destRegs (.dcmp h x)) [x.d.toNat])) ∧
  (∀ h x, Instr.wf (.pset h x) = true → Frame (.pset h x) h (LaneKept (destRegs (.pset h x)) [x.d.toNat])) ∧
  (∀ h x, Instr.wf (.pand h x) = true → Frame (.pand h x) h (LaneKept (destRegs (.pand h x)) [x.d.toNat])) ∧
  (∀ h x, Instr.wf (.por h x) = true → Frame (.por h x) h (LaneKept (destRegs (.por h x)) [x.d.toNat])) ∧
  (∀ h x, Instr.wf (.pxor h x) = true → Frame (.pxor h x) h (LaneKept (destRegs (.pxor h x)) [x.d.toNat])) ∧
  (∀ h x, Instr.wf (.pnot h x) = true → Frame (.pnot h x) h (LaneKept (destRegs (.pnot h x)) [x.d.toNat])) ∧
  (∀ h x, Instr.wf (.hlpIs h x) = true → Frame (.hlpIs h x) h (LaneKept (destRegs (.hlpIs h x)) [x.d.toNat])) ∧
  (∀ h x, Instr.wf (.psetAll h x) = true → Frame (.psetAll h x) h (LaneKept (destRegs (.psetAll h x)) (List.range 24)))) ∧
  (
  (∀ h x, Instr.wf (.div_ h x) = true → Frame (.div_ h x) h (LaneKeptLate (destRegs (.div_ h x)))) ∧
  (∀ h x, Instr.wf (.rem_ h x) = true → Frame (.rem_ h x) h (LaneKeptLate (destRegs (.rem_ h x)))) ∧
  (∀ h x, Instr.wf (.frcp h x) = true → Frame (.frcp h x) h (LaneKeptLate (destRegs (.frcp h x)))) ∧
  (∀ h x, Instr.wf (.frsq h x) = true → Frame (.frsq h x) h (LaneKeptLate (destRegs (.frsq h x)))) ∧
  (∀ h x, Instr.wf (.fsqrt h x) = true → Frame (.fsqrt h x) h (LaneKeptLate (destRegs (.fsqrt h x)))) ∧
  (∀ h x, Instr.wf (.fdiv h x) = true → Frame (.fdiv h x) h (LaneKeptLate (destRegs (.fdiv h x)))) ∧
  (∀ h x, Instr.wf (.fex2 h x) = true → Frame (.fex2 h x) h (LaneKeptLate (destRegs (.fex2 h x)))) ∧
  (∀ h x, Instr.wf (.flg2 h x) = true → Frame (.flg2 h x) h (LaneKeptLate (destRegs (.flg2 h x)))) ∧
  (∀ h x, Instr.wf (.fsin h x) = true → Frame (.fsin h x) h (LaneKeptLate (destRegs (.fsin h x)))) ∧
  (∀ h x, Instr.wf (.fcos h x) = true → Frame (.fcos h x) h (LaneKeptLate (destRegs (.fcos h x)))))

/-- A lane at its run's end takes its results in program order, each written over the present values of its
destinations with its flags merged, up to the first that carries a trap condition; that one and the later ones are
discarded and the condition is delivered; with none, an error of an `atomc` that waits is delivered after them. No
result is left. (FPC of the delivered trap at the word of the result, and the moment of a late error of `atomc`, are
the readings of the log entries 15 and 19.) (R29, R71, R74, R440) -/
def Obligations.ResultsCommitInOrder : Prop :=
  (∀ (l : Lane) (before : List Result) (r : Result) (after : List Result) (tr : TrapInfo),
    l.results = before ++ r :: after → (∀ y ∈ before, y.trap = none) → r.trap = some tr →
    l.runEnd = ({ before.foldl (fun m y => { m.setRegs y.writes with fpstat := m.fpstat ||| y.flags }) l with results := [] },
      some { tr with fpc := some r.pc })) ∧
  (∀ l : Lane, (∀ y ∈ l.results, y.trap = none) →
    l.runEnd = ({ l.results.foldl (fun m y => { m.setRegs y.writes with fpstat := m.fpstat ||| y.flags }) l with
      results := [], late := none }, l.late))

/-- After a word at the end of the innermost loop: with more than one pass left the lane goes to the loop's start with
the count lowered; otherwise the entry is removed and the next is compared; with no loop that ends there the PC
advances by 8 and the loops stay. Nothing else of the lane changes. (R127) -/
def Obligations.LoopsRunTheirCount : Prop :=
  (∀ (l : Lane) (x : VAddr) (e : LoopEntry) (es : List LoopEntry), l.loops = e :: es → e.stop = x →
    (e.count - 1 ≠ 0 → l.advance x = { l with loops := { e with count := e.count - 1 } :: es, pc := e.start }) ∧
    (e.count - 1 = 0 → l.advance x = Lane.advance { l with loops := es } x)) ∧
  (∀ (l : Lane) (x : VAddr), (∀ e es, l.loops = e :: es → e.stop ≠ x) → l.advance x = { l with pc := x + 8 }) ∧
  (∀ (l : Lane) (x : VAddr), l.advance x = { l with pc := (l.advance x).pc, loops := (l.advance x).loops })

/-- A `st`, `scat`, `atom` or `atomc` that goes on within its run, at granted and aligned addresses on present lines,
with nothing held at the port, no codeword in error or armed to be, and local memory in its canonical form: after `st`
and `scat` (whole or split) each byte of team memory or scratchpad is what stood there, overwritten by the stores of
the live lanes of P in ascending lane and element order, where lane j stores at its base register plus the signed
offset; after a `st` to the stack, by the words of each lane's own stack; after an atomic every byte outside the words
of the live lanes of P is what it was, and one lane's word holds the new value. Every other local memory and all of
main memory is as it was, and every other team where the space is not the scratchpad. (R224, R238, R240, R241, R242,
R244, R245) -/
def Obligations.StoresTouchTheirBytesAlone : Prop :=
  ∀ (h : Hdr) (x : Loc) (s t : State) (u : Bun) (tm : Team), s.team? u.team = some tm → GoesOn s h u →
    let n := widthBytes x.width
    let spc := x.space
    let local_ : Prop := spc = .sh ∨ spc = .sc
    let at_ (j : Nat) : Nat := ((s.lane u j).locAddr x false).toNat
    let one (l : Lane) : List Int := [l.locAddr x false]
    let own (j : Nat) : Nat × List Byte := (at_ j, (s.lane u j).storeBytes x.b.toNat x.width)
    let runs (i : Instr) (addrs : Lane → List Int) : Prop := Ready s i h u ∧ Accessible s u spc n u.act addrs ∧
      PortFree s tm spc ∧ exec i s = .next t ∧
      (spc = .sp ∨ s.linesPresent u.team (u.plive.flatMap fun j => (addrs (s.lane u j)).flatMap fun a =>
        (linesOf a.toNat n).map fun k => (spc, k)) = true)
    let leaves (ws : List (Nat × List Byte)) : Prop :=
      (∀ a, LocalByte t u.team spc a = byteAfter ws a (LocalByte s u.team spc a)) ∧ OnlySpace s t tm spc
    let atomic (i : Instr) : Prop := local_ → runs i one → OnlySpace s t tm spc ∧
      (∀ a, (∀ j ∈ u.plive, ¬(at_ j ≤ a ∧ a < at_ j + n)) → LocalByte t u.team spc a = LocalByte s u.team spc a) ∧
      ∀ j, u.plive = [j] →
        let old := ofBytes ((List.range n).map fun i => LocalByte s u.team spc (at_ j + i))
        let b := ((s.lane u j).wordOrPair x.width x.b.toNat).toNat % 2 ^ (8 * n)
        let c := ((s.lane u j).wordOrPair x.width x.d.toNat).toNat % 2 ^ (8 * n)
        (List.range n).map (fun i => LocalByte t u.team spc (at_ j + i)) = bytesOf n (localAtomic x.aux (8 * n) old b c)
    (local_ → runs (.st h x) one → leaves (u.plive.map own)) ∧
    (spc = .sp → runs (.st h x) one → leaves (u.plive.flatMap fun j =>
      (stackChunks (at_ j) (own j).2.length (own j).2).map fun c => (tm.spillAddr (s.lane u j).tid c.1, c.2))) ∧
    (local_ → runs (.scat h x) (fun l => l.elemAddrs x) → leaves (u.plive.flatMap fun j =>
      ((s.lane u j).scatterElems x).map fun e => (e.1.addr, e.2))) ∧
    atomic (.atom h x) ∧ atomic (.atomc h x)

/-- `rdsr` and the words of class 6 that give each lane a value, where they go on within their run, change in the live
lanes of P only their destination registers or predicate, flags that they add, and the PC (with a loop that ends at
it), in other lanes only the PC, and nothing else of the part; `wrsr` of a lane's own register changes that register
alone; `wrsr` of a privileged register (SKIP of LQ_ERR and the slots of `$fback` apart, which write memory) changes no
memory, gang, other team, and no live lane of the bundle but its PC; `vwset` changes one view register of the team;
`cvset` one convergence register; `hlp.on` and `hlp.off` change no live lane but its PC. (R15, R20, R28, R117, R118,
R152, R173, R174, R175, R176, R180, R184) -/
def Obligations.SystemAndCrossLaneWordsKeepTheRest : Prop :=
  ∀ (h : Hdr) (x : Arith),
    let moved (a b : Lane) : Prop := b = { a with pc := b.pc, loops := b.loops }
    let word (i : Instr) (ps : List Nat) : Prop := i.wf = true → Frame i h (LaneKept (destRegs i) ps)
    let after (i : Instr) (can : State → Bun → Prop) (kept : State → State → Bun → Prop) : Prop := ∀ (s t : State) (u : Bun),
      Ready s i h u → can s u → GoesOn s h u → exec i s = .next t → (∀ j ∈ u.live, moved (s.lane u j) (t.lane u j)) ∧ kept s t u
    let teamOnly (s t : State) (u : Bun) (f : Team → Team → Prop) : Prop := t = { s with teams := t.teams } ∧
      (∀ id, id ≠ u.team → t.team? id = s.team? id) ∧
      ∀ a, s.team? u.team = some a → ∃ b, t.team? u.team = some b ∧ f a b
    word (.rdsr h x) [] ∧ word (.shfl h x) [] ∧ word (.qswap h x) [] ∧ word (.vote h x) [x.d.toNat] ∧
    word (.voteBallot h x) [] ∧ word (.match_ h x) [] ∧ word (.compact h x) [] ∧ word (.qdd h x) [] ∧
    (Instr.wf (.redux h x) = true → FrameWhere (.redux h x) h (fun _ u => u.plive ≠ []) (LaneKept (destRegs (.redux h x)) [])) ∧
    Frame (.hlpOn h x) h moved ∧ Frame (.hlpOff h x) h moved ∧
    FrameWhere (.wrsr h x) h (fun _ _ => x.d.toNat < 0x40) (fun a b => b = { a with
      pc := b.pc, loops := b.loops, fpstat := if x.d = 0x18 then a.reg x.a.toNat &&& 0x7F else a.fpstat,
      trapen := if x.d = 0x19 then a.reg x.a.toNat &&& 0x3 else a.trapen,
      spill := if x.d = 0x1A then a.reg x.a.toNat &&& 0x3FFF0 else a.spill }) ∧
    after (.wrsr h x) (fun s u => 0x40 ≤ x.d.toNat ∧
        (x.d = 0x46 → ∀ j ∈ u.plive, ((s.lane u j).reg x.a.toNat).getLsbD 8 = false) ∧
        (x.d = 0x5D → ∀ j ∈ u.plive, ((s.lane u j).reg x.a.toNat).setWidth 8 = (0 : Byte)))
      (fun s t u => t = { s with teams := t.teams, lqs := t.lqs, priv := t.priv, coll := t.coll, felt := t.felt, mem := t.mem } ∧
        t.mem = { s.mem with stackList := t.mem.stackList } ∧ (∀ id, id ≠ u.team → t.team? id = s.team? id) ∧
        ∃ gs, t.team? u.team = (s.team? u.team).map fun y => { y with groups := gs }) ∧
    after (.vwset h x) (fun s u => ∀ j ∈ u.act, viewReserved ((s.lane u j).viewValue x) = false) (fun s t u =>
      teamOnly s t u fun a b => b = { a with groups := b.groups, views := b.views } ∧
        ∀ k, k ≠ x.d.toNat → b.views[k]? = a.views[k]?) ∧
    after (.cvset h x) (fun s u => ∀ y, s.team? u.team = some y → (y.cv x.c.toNat).sgn = 0) (fun s t u =>
      teamOnly s t u fun a b => b = { a with groups := b.groups, cvs := b.cvs } ∧
        ∀ k, k ≠ x.c.toNat → b.cvs[k]? = a.cvs[k]?)

/-- A word that turns the lanes of P by itself leaves with S = 1 exactly what it leaves with S = 0, with the run then
ended at the word. With S = 0 the run goes on where every live lane of the bundle stands at the next word and no loop
of theirs ended at this one, or all of them stand at one PC and one priority (a transfer or a loop end that sends them
the same way), and ends otherwise; its entry counts one more word and keeps what it waits for. (R68, R73, R127) -/
def Obligations.SwitchEndsTheRun : Prop :=
  ∀ (s s0 : State) (i : Instr) (u : Bun) (moved : List Nat) (before : Group), s.group? u.team u.group = some before →
    let one := s0.afterWord s i u moved true
    ∃ t : State, one = t.endRun u.team u.group u.slot u.pc .plain ∧
      (∀ g, t.group? u.team u.group = some g →
        let here (j : Nat) : Prop := j ∈ u.live ∧ g.isLive j = true
        let loopEnds (j : Nat) : Prop := j ∉ moved ∧ ∃ e ∈ (before.lane j).loops.head?, e.stop = u.pc
        let onward : Prop := isBranch i = false ∧ ∀ j, here j → (g.lane j).pc = u.pc + 8 ∧ ¬loopEnds j
        let together : Prop := ∀ j k, here j → here k → (g.lane j).pc = (g.lane k).pc ∧ (g.lane j).prio = (g.lane k).prio
        (onward ∨ together → s0.afterWord s i u moved false = t) ∧
        (¬onward → ¬together → s0.afterWord s i u moved false = one)) ∧
      ∀ g1 e, t.group? u.team u.group = some g1 → before.entryAt u.slot = some e →
        e.mask.getLsbD u.slot = true → ∃ e1 ∈ g1.entries, e1.mask = e.mask ∧ e1.words = e.words + 1 ∧ e1.wake = e.wake

/-- From every state, reachable or not, whose memories are in their canonical form (device, DRAM, host and peer
memory, the checkpoints, and the local memory of every team and gang: addresses strictly rising, no byte listed that
an unlisted address reads as), every step that answers a next state answers one whose memories are. So two states with
the same bytes hold the same data, and a byte reads as it was last written. (R3, R5, R230, R399) -/
def Obligations.MemoriesStayCanonical : Prop := ∀ s t : State, Canonical s → Steps s t → Canonical t

/-- In the state when power is applied every memory is in its canonical form: nothing is listed anywhere, and there is
no team or gang. (That a byte of device memory which nothing has written reads 0 is the reading of log entry 8.) (R9,
R432) -/
def Obligations.ResetMemoriesAreCanonical : Prop := Canonical State.reset
end

