-- ==== Sys2Proof/Laws/Exec.lean ====
section
/-! SUPPORT. The meaning that each instruction dispatches to: rewriting with these is how a proof opens `exec`, which is too
wide for the simplifier to unfold quickly. -/
namespace Sys2Proof.Machine

@[simp] theorem exec_add (h : Hdr) (x : Arith) (s : State) :
    exec (.add h x) s = execAdd h x s := by delta exec; rfl
@[simp] theorem exec_sub (h : Hdr) (x : Arith) (s : State) :
    exec (.sub h x) s = execSub h x s := by delta exec; rfl
@[simp] theorem exec_addc (h : Hdr) (x : Arith) (s : State) :
    exec (.addc h x) s = execAddc h x s := by delta exec; rfl
@[simp] theorem exec_subb (h : Hdr) (x : Arith) (s : State) :
    exec (.subb h x) s = execSubb h x s := by delta exec; rfl
@[simp] theorem exec_mul (h : Hdr) (x : Arith) (s : State) :
    exec (.mul h x) s = execMul h x s := by delta exec; rfl
@[simp] theorem exec_mulh (h : Hdr) (x : Arith) (s : State) :
    exec (.mulh h x) s = execMulh h x s := by delta exec; rfl
@[simp] theorem exec_mad (h : Hdr) (x : Arith) (s : State) :
    exec (.mad h x) s = execMad h x s := by delta exec; rfl
@[simp] theorem exec_madw (h : Hdr) (x : Arith) (s : State) :
    exec (.madw h x) s = execMadw h x s := by delta exec; rfl
@[simp] theorem exec_div_ (h : Hdr) (x : Arith) (s : State) :
    exec (.div_ h x) s = execDiv h x s := by delta exec; rfl
@[simp] theorem exec_rem_ (h : Hdr) (x : Arith) (s : State) :
    exec (.rem_ h x) s = execRem h x s := by delta exec; rfl
@[simp] theorem exec_min_ (h : Hdr) (x : Arith) (s : State) :
    exec (.min_ h x) s = execMin h x s := by delta exec; rfl
@[simp] theorem exec_max_ (h : Hdr) (x : Arith) (s : State) :
    exec (.max_ h x) s = execMax h x s := by delta exec; rfl
@[simp] theorem exec_abs (h : Hdr) (x : Arith) (s : State) :
    exec (.abs h x) s = execAbs h x s := by delta exec; rfl
@[simp] theorem exec_neg (h : Hdr) (x : Arith) (s : State) :
    exec (.neg h x) s = execNeg h x s := by delta exec; rfl
@[simp] theorem exec_adds (h : Hdr) (x : Arith) (s : State) :
    exec (.adds h x) s = execAdds h x s := by delta exec; rfl
@[simp] theorem exec_subs (h : Hdr) (x : Arith) (s : State) :
    exec (.subs h x) s = execSubs h x s := by delta exec; rfl
@[simp] theorem exec_clamp (h : Hdr) (x : Arith) (s : State) :
    exec (.clamp h x) s = execClamp h x s := by delta exec; rfl
@[simp] theorem exec_lea (h : Hdr) (x : Arith) (s : State) :
    exec (.lea h x) s = execLea h x s := by delta exec; rfl
@[simp] theorem exec_cmp (h : Hdr) (x : Arith) (s : State) :
    exec (.cmp h x) s = execCmp h x s := by delta exec; rfl
@[simp] theorem exec_sel (h : Hdr) (x : Arith) (s : State) :
    exec (.sel h x) s = execSel h x s := by delta exec; rfl
@[simp] theorem exec_movi (h : Hdr) (d : Field8) (k : BitVec 22) (s : State) :
    exec (.movi h d k) s = execMovi h d k s := by delta exec; rfl
@[simp] theorem exec_movh (h : Hdr) (d : Field8) (k : BitVec 22) (s : State) :
    exec (.movh h d k) s = execMovh h d k s := by delta exec; rfl
@[simp] theorem exec_dp4 (h : Hdr) (x : Arith) (s : State) :
    exec (.dp4 h x) s = execDp4 h x s := by delta exec; rfl
@[simp] theorem exec_and_ (h : Hdr) (x : Arith) (s : State) :
    exec (.and_ h x) s = execAnd h x s := by delta exec; rfl
@[simp] theorem exec_or_ (h : Hdr) (x : Arith) (s : State) :
    exec (.or_ h x) s = execOr h x s := by delta exec; rfl
@[simp] theorem exec_xor_ (h : Hdr) (x : Arith) (s : State) :
    exec (.xor_ h x) s = execXor h x s := by delta exec; rfl
@[simp] theorem exec_andn (h : Hdr) (x : Arith) (s : State) :
    exec (.andn h x) s = execAndn h x s := by delta exec; rfl
@[simp] theorem exec_not_ (h : Hdr) (x : Arith) (s : State) :
    exec (.not_ h x) s = execNot h x s := by delta exec; rfl
@[simp] theorem exec_shl (h : Hdr) (x : Arith) (s : State) :
    exec (.shl h x) s = execShl h x s := by delta exec; rfl
@[simp] theorem exec_shr (h : Hdr) (x : Arith) (s : State) :
    exec (.shr h x) s = execShr h x s := by delta exec; rfl
@[simp] theorem exec_sar (h : Hdr) (x : Arith) (s : State) :
    exec (.sar h x) s = execSar h x s := by delta exec; rfl
@[simp] theorem exec_rotl (h : Hdr) (x : Arith) (s : State) :
    exec (.rotl h x) s = execRotl h x s := by delta exec; rfl
@[simp] theorem exec_bfx (h : Hdr) (x : Arith) (s : State) :
    exec (.bfx h x) s = execBfx h x s := by delta exec; rfl
@[simp] theorem exec_bfi (h : Hdr) (x : Arith) (s : State) :
    exec (.bfi h x) s = execBfi h x s := by delta exec; rfl
@[simp] theorem exec_popc (h : Hdr) (x : Arith) (s : State) :
    exec (.popc h x) s = execPopc h x s := by delta exec; rfl
@[simp] theorem exec_clz (h : Hdr) (x : Arith) (s : State) :
    exec (.clz h x) s = execClz h x s := by delta exec; rfl
@[simp] theorem exec_ctz (h : Hdr) (x : Arith) (s : State) :
    exec (.ctz h x) s = execCtz h x s := by delta exec; rfl
@[simp] theorem exec_brev (h : Hdr) (x : Arith) (s : State) :
    exec (.brev h x) s = execBrev h x s := by delta exec; rfl
@[simp] theorem exec_prmt (h : Hdr) (x : Arith) (s : State) :
    exec (.prmt h x) s = execPrmt h x s := by delta exec; rfl
@[simp] theorem exec_lop3 (h : Hdr) (x : Arith) (s : State) :
    exec (.lop3 h x) s = execLop3 h x s := by delta exec; rfl
@[simp] theorem exec_fadd (h : Hdr) (x : Arith) (s : State) :
    exec (.fadd h x) s = execFadd h x s := by delta exec; rfl
@[simp] theorem exec_fsub (h : Hdr) (x : Arith) (s : State) :
    exec (.fsub h x) s = execFsub h x s := by delta exec; rfl
@[simp] theorem exec_fmul (h : Hdr) (x : Arith) (s : State) :
    exec (.fmul h x) s = execFmul h x s := by delta exec; rfl
@[simp] theorem exec_ffma (h : Hdr) (x : Arith) (s : State) :
    exec (.ffma h x) s = execFfma h x s := by delta exec; rfl
@[simp] theorem exec_fmin (h : Hdr) (x : Arith) (s : State) :
    exec (.fmin h x) s = execFmin h x s := by delta exec; rfl
@[simp] theorem exec_fmax (h : Hdr) (x : Arith) (s : State) :
    exec (.fmax h x) s = execFmax h x s := by delta exec; rfl
@[simp] theorem exec_fcmp (h : Hdr) (x : Arith) (s : State) :
    exec (.fcmp h x) s = execFcmp h x s := by delta exec; rfl
@[simp] theorem exec_fclass (h : Hdr) (x : Arith) (s : State) :
    exec (.fclass h x) s = execFclass h x s := by delta exec; rfl
@[simp] theorem exec_hfma2 (h : Hdr) (x : Arith) (s : State) :
    exec (.hfma2 h x) s = execHfma2 h x s := by delta exec; rfl
@[simp] theorem exec_hadd2 (h : Hdr) (x : Arith) (s : State) :
    exec (.hadd2 h x) s = execHadd2 h x s := by delta exec; rfl
@[simp] theorem exec_hmul2 (h : Hdr) (x : Arith) (s : State) :
    exec (.hmul2 h x) s = execHmul2 h x s := by delta exec; rfl
@[simp] theorem exec_hdot2 (h : Hdr) (x : Arith) (s : State) :
    exec (.hdot2 h x) s = execHdot2 h x s := by delta exec; rfl
@[simp] theorem exec_fmed3 (h : Hdr) (x : Arith) (s : State) :
    exec (.fmed3 h x) s = execFmed3 h x s := by delta exec; rfl
@[simp] theorem exec_frcp (h : Hdr) (x : Arith) (s : State) :
    exec (.frcp h x) s = execFrcp h x s := by delta exec; rfl
@[simp] theorem exec_frsq (h : Hdr) (x : Arith) (s : State) :
    exec (.frsq h x) s = execFrsq h x s := by delta exec; rfl
@[simp] theorem exec_fsqrt (h : Hdr) (x : Arith) (s : State) :
    exec (.fsqrt h x) s = execFsqrt h x s := by delta exec; rfl
@[simp] theorem exec_fdiv (h : Hdr) (x : Arith) (s : State) :
    exec (.fdiv h x) s = execFdiv h x s := by delta exec; rfl
@[simp] theorem exec_fex2 (h : Hdr) (x : Arith) (s : State) :
    exec (.fex2 h x) s = execFex2 h x s := by delta exec; rfl
@[simp] theorem exec_flg2 (h : Hdr) (x : Arith) (s : State) :
    exec (.flg2 h x) s = execFlg2 h x s := by delta exec; rfl
@[simp] theorem exec_fsin (h : Hdr) (x : Arith) (s : State) :
    exec (.fsin h x) s = execFsin h x s := by delta exec; rfl
@[simp] theorem exec_fcos (h : Hdr) (x : Arith) (s : State) :
    exec (.fcos h x) s = execFcos h x s := by delta exec; rfl
@[simp] theorem exec_dadd (h : Hdr) (x : Arith) (s : State) :
    exec (.dadd h x) s = execDadd h x s := by delta exec; rfl
@[simp] theorem exec_dmul (h : Hdr) (x : Arith) (s : State) :
    exec (.dmul h x) s = execDmul h x s := by delta exec; rfl
@[simp] theorem exec_dfma (h : Hdr) (x : Arith) (s : State) :
    exec (.dfma h x) s = execDfma h x s := by delta exec; rfl
@[simp] theorem exec_dcmp (h : Hdr) (x : Arith) (s : State) :
    exec (.dcmp h x) s = execDcmp h x s := by delta exec; rfl
@[simp] theorem exec_cvt (h : Hdr) (x : Arith) (s : State) :
    exec (.cvt h x) s = execCvt h x s := by delta exec; rfl
@[simp] theorem exec_frnd (h : Hdr) (x : Arith) (s : State) :
    exec (.frnd h x) s = execFrnd h x s := by delta exec; rfl
@[simp] theorem exec_packH (h : Hdr) (x : Arith) (s : State) :
    exec (.packH h x) s = execPackH h x s := by delta exec; rfl
@[simp] theorem exec_packW (h : Hdr) (x : Arith) (s : State) :
    exec (.packW h x) s = execPackW h x s := by delta exec; rfl
@[simp] theorem exec_unpk (h : Hdr) (x : Arith) (s : State) :
    exec (.unpk h x) s = execUnpk h x s := by delta exec; rfl
@[simp] theorem exec_mov (h : Hdr) (x : Arith) (s : State) :
    exec (.mov h x) s = execMov h x s := by delta exec; rfl
@[simp] theorem exec_movImm (h : Hdr) (x : Arith) (s : State) :
    exec (.movImm h x) s = execMovImm h x s := by delta exec; rfl
@[simp] theorem exec_pset (h : Hdr) (x : Arith) (s : State) :
    exec (.pset h x) s = execPset h x s := by delta exec; rfl
@[simp] theorem exec_psetAll (h : Hdr) (x : Arith) (s : State) :
    exec (.psetAll h x) s = execPsetAll h x s := by delta exec; rfl
@[simp] theorem exec_pget (h : Hdr) (x : Arith) (s : State) :
    exec (.pget h x) s = execPget h x s := by delta exec; rfl
@[simp] theorem exec_pgetAll (h : Hdr) (x : Arith) (s : State) :
    exec (.pgetAll h x) s = execPgetAll h x s := by delta exec; rfl
@[simp] theorem exec_pand (h : Hdr) (x : Arith) (s : State) :
    exec (.pand h x) s = execPand h x s := by delta exec; rfl
@[simp] theorem exec_por (h : Hdr) (x : Arith) (s : State) :
    exec (.por h x) s = execPor h x s := by delta exec; rfl
@[simp] theorem exec_pxor (h : Hdr) (x : Arith) (s : State) :
    exec (.pxor h x) s = execPxor h x s := by delta exec; rfl
@[simp] theorem exec_pnot (h : Hdr) (x : Arith) (s : State) :
    exec (.pnot h x) s = execPnot h x s := by delta exec; rfl
@[simp] theorem exec_rdsr (h : Hdr) (x : Arith) (s : State) :
    exec (.rdsr h x) s = execRdsr h x s := by delta exec; rfl
@[simp] theorem exec_wrsr (h : Hdr) (x : Arith) (s : State) :
    exec (.wrsr h x) s = execWrsr h x s := by delta exec; rfl
@[simp] theorem exec_vwset (h : Hdr) (x : Arith) (s : State) :
    exec (.vwset h x) s = execVwset h x s := by delta exec; rfl
@[simp] theorem exec_nop (h : Hdr) (x : Arith) (s : State) :
    exec (.nop h x) s = execNop h x s := by delta exec; rfl
@[simp] theorem exec_bra (h : Hdr) (x : Ctl) (s : State) :
    exec (.bra h x) s = execBra h x s := by delta exec; rfl
@[simp] theorem exec_brx (h : Hdr) (x : Ctl) (s : State) :
    exec (.brx h x) s = execBrx h x s := by delta exec; rfl
@[simp] theorem exec_call (h : Hdr) (x : Ctl) (s : State) :
    exec (.call h x) s = execCall h x s := by delta exec; rfl
@[simp] theorem exec_callx (h : Hdr) (x : Ctl) (s : State) :
    exec (.callx h x) s = execCallx h x s := by delta exec; rfl
@[simp] theorem exec_ret (h : Hdr) (x : Ctl) (s : State) :
    exec (.ret h x) s = execRet h x s := by delta exec; rfl
@[simp] theorem exec_loop (h : Hdr) (x : Ctl) (s : State) :
    exec (.loop h x) s = execLoop h x s := by delta exec; rfl
@[simp] theorem exec_loopImm (h : Hdr) (x : Ctl) (s : State) :
    exec (.loopImm h x) s = execLoopImm h x s := by delta exec; rfl
@[simp] theorem exec_loopPop (h : Hdr) (x : Ctl) (s : State) :
    exec (.loopPop h x) s = execLoopPop h x s := by delta exec; rfl
@[simp] theorem exec_exit (h : Hdr) (x : Ctl) (s : State) :
    exec (.exit h x) s = execExit h x s := by delta exec; rfl
@[simp] theorem exec_yield (h : Hdr) (x : Ctl) (s : State) :
    exec (.yield h x) s = execYield h x s := by delta exec; rfl
@[simp] theorem exec_sleep (h : Hdr) (x : Ctl) (s : State) :
    exec (.sleep h x) s = execSleep h x s := by delta exec; rfl
@[simp] theorem exec_sleepUntil (h : Hdr) (x : Ctl) (s : State) :
    exec (.sleepUntil h x) s = execSleepUntil h x s := by delta exec; rfl
@[simp] theorem exec_trap (h : Hdr) (x : Ctl) (s : State) :
    exec (.trap h x) s = execTrap h x s := by delta exec; rfl
@[simp] theorem exec_prio (h : Hdr) (x : Ctl) (s : State) :
    exec (.prio h x) s = execPrio h x s := by delta exec; rfl
@[simp] theorem exec_qswap (h : Hdr) (x : Arith) (s : State) :
    exec (.qswap h x) s = execQswap h x s := by delta exec; rfl
@[simp] theorem exec_qdd (h : Hdr) (x : Arith) (s : State) :
    exec (.qdd h x) s = execQdd h x s := by delta exec; rfl
@[simp] theorem exec_hlpOff (h : Hdr) (x : Arith) (s : State) :
    exec (.hlpOff h x) s = execHlpOff h x s := by delta exec; rfl
@[simp] theorem exec_hlpOn (h : Hdr) (x : Arith) (s : State) :
    exec (.hlpOn h x) s = execHlpOn h x s := by delta exec; rfl
@[simp] theorem exec_hlpIs (h : Hdr) (x : Arith) (s : State) :
    exec (.hlpIs h x) s = execHlpIs h x s := by delta exec; rfl
@[simp] theorem exec_shfl (h : Hdr) (x : Arith) (s : State) :
    exec (.shfl h x) s = execShfl h x s := by delta exec; rfl
@[simp] theorem exec_vote (h : Hdr) (x : Arith) (s : State) :
    exec (.vote h x) s = execVote h x s := by delta exec; rfl
@[simp] theorem exec_voteBallot (h : Hdr) (x : Arith) (s : State) :
    exec (.voteBallot h x) s = execVoteBallot h x s := by delta exec; rfl
@[simp] theorem exec_match_ (h : Hdr) (x : Arith) (s : State) :
    exec (.match_ h x) s = execMatch h x s := by delta exec; rfl
@[simp] theorem exec_compact (h : Hdr) (x : Arith) (s : State) :
    exec (.compact h x) s = execCompact h x s := by delta exec; rfl
@[simp] theorem exec_reform (h : Hdr) (x : Arith) (s : State) :
    exec (.reform h x) s = execReform h x s := by delta exec; rfl
@[simp] theorem exec_sign (h : Hdr) (x : Arith) (s : State) :
    exec (.sign h x) s = execSign h x s := by delta exec; rfl
@[simp] theorem exec_join_ (h : Hdr) (x : Arith) (s : State) :
    exec (.join_ h x) s = execJoin h x s := by delta exec; rfl
@[simp] theorem exec_cvset (h : Hdr) (x : Arith) (s : State) :
    exec (.cvset h x) s = execCvset h x s := by delta exec; rfl
@[simp] theorem exec_bar (h : Hdr) (x : Arith) (s : State) :
    exec (.bar h x) s = execBar h x s := by delta exec; rfl
@[simp] theorem exec_gbar (h : Hdr) (x : Arith) (s : State) :
    exec (.gbar h x) s = execGbar h x s := by delta exec; rfl
@[simp] theorem exec_spawn (h : Hdr) (x : Arith) (s : State) :
    exec (.spawn h x) s = execSpawn h x s := by delta exec; rfl
@[simp] theorem exec_launch (h : Hdr) (x : Arith) (s : State) :
    exec (.launch h x) s = execLaunch h x s := by delta exec; rfl
@[simp] theorem exec_redux (h : Hdr) (x : Arith) (s : State) :
    exec (.redux h x) s = execRedux h x s := by delta exec; rfl
@[simp] theorem exec_mma (h : Hdr) (x : Mat) (s : State) :
    exec (.mma h x) s = execMma h x s := by delta exec; rfl
@[simp] theorem exec_mmaq (h : Hdr) (x : Mat) (s : State) :
    exec (.mmaq h x) s = execMmaq h x s := by delta exec; rfl
@[simp] theorem exec_tzero (h : Hdr) (x : Mat) (s : State) :
    exec (.tzero h x) s = execTzero h x s := by delta exec; rfl
@[simp] theorem exec_tfill (h : Hdr) (x : Mat) (s : State) :
    exec (.tfill h x) s = execTfill h x s := by delta exec; rfl
@[simp] theorem exec_tmov (h : Hdr) (x : Mat) (s : State) :
    exec (.tmov h x) s = execTmov h x s := by delta exec; rfl
@[simp] theorem exec_tld (h : Hdr) (x : Mat) (s : State) :
    exec (.tld h x) s = execTld h x s := by delta exec; rfl
@[simp] theorem exec_tst (h : Hdr) (x : Mat) (s : State) :
    exec (.tst h x) s = execTst h x s := by delta exec; rfl
@[simp] theorem exec_tstat (h : Hdr) (x : Mat) (s : State) :
    exec (.tstat h x) s = execTstat h x s := by delta exec; rfl
@[simp] theorem exec_qnt (h : Hdr) (x : Mat) (s : State) :
    exec (.qnt h x) s = execQnt h x s := by delta exec; rfl
@[simp] theorem exec_olset (h : Hdr) (x : Mat) (s : State) :
    exec (.olset h x) s = execOlset h x s := by delta exec; rfl
@[simp] theorem exec_olcnt (h : Hdr) (x : Mat) (s : State) :
    exec (.olcnt h x) s = execOlcnt h x s := by delta exec; rfl
@[simp] theorem exec_dqnt (h : Hdr) (x : Mat) (s : State) :
    exec (.dqnt h x) s = execDqnt h x s := by delta exec; rfl
@[simp] theorem exec_ld (h : Hdr) (x : Loc) (s : State) :
    exec (.ld h x) s = execLd h x s := by delta exec; rfl
@[simp] theorem exec_st (h : Hdr) (x : Loc) (s : State) :
    exec (.st h x) s = execSt h x s := by delta exec; rfl
@[simp] theorem exec_gath (h : Hdr) (x : Loc) (s : State) :
    exec (.gath h x) s = execGath h x s := by delta exec; rfl
@[simp] theorem exec_scat (h : Hdr) (x : Loc) (s : State) :
    exec (.scat h x) s = execScat h x s := by delta exec; rfl
@[simp] theorem exec_atom (h : Hdr) (x : Loc) (s : State) :
    exec (.atom h x) s = execAtom h x s := by delta exec; rfl
@[simp] theorem exec_atomc (h : Hdr) (x : Loc) (s : State) :
    exec (.atomc h x) s = execAtomc h x s := by delta exec; rfl
@[simp] theorem exec_pchk (h : Hdr) (x : Loc) (s : State) :
    exec (.pchk h x) s = execPchk h x s := by delta exec; rfl
@[simp] theorem exec_mon (h : Hdr) (x : Loc) (s : State) :
    exec (.mon h x) s = execMon h x s := by delta exec; rfl
@[simp] theorem exec_mwait (h : Hdr) (x : Loc) (s : State) :
    exec (.mwait h x) s = execMwait h x s := by delta exec; rfl
@[simp] theorem exec_mwaitTimeout (h : Hdr) (x : Loc) (s : State) :
    exec (.mwaitTimeout h x) s = execMwaitTimeout h x s := by delta exec; rfl
@[simp] theorem exec_cpyin (h : Hdr) (x : Main) (s : State) :
    exec (.cpyin h x) s = execCpyin h x s := by delta exec; rfl
@[simp] theorem exec_cpyout (h : Hdr) (x : Main) (s : State) :
    exec (.cpyout h x) s = execCpyout h x s := by delta exec; rfl
@[simp] theorem exec_cpyg (h : Hdr) (x : Main) (s : State) :
    exec (.cpyg h x) s = execCpyg h x s := by delta exec; rfl
@[simp] theorem exec_cpys (h : Hdr) (x : Main) (s : State) :
    exec (.cpys h x) s = execCpys h x s := by delta exec; rfl
@[simp] theorem exec_fatom (h : Hdr) (x : Main) (s : State) :
    exec (.fatom h x) s = execFatom h x s := by delta exec; rfl
@[simp] theorem exec_fatomNr (h : Hdr) (x : Main) (s : State) :
    exec (.fatomNr h x) s = execFatomNr h x s := by delta exec; rfl
@[simp] theorem exec_fcas (h : Hdr) (x : Main) (s : State) :
    exec (.fcas h x) s = execFcas h x s := by delta exec; rfl
@[simp] theorem exec_fence (h : Hdr) (x : Main) (s : State) :
    exec (.fence h x) s = execFence h x s := by delta exec; rfl
@[simp] theorem exec_publ (h : Hdr) (x : Main) (s : State) :
    exec (.publ h x) s = execPubl h x s := by delta exec; rfl
@[simp] theorem exec_mhint (h : Hdr) (x : Main) (s : State) :
    exec (.mhint h x) s = execMhint h x s := by delta exec; rfl
@[simp] theorem exec_mcast (h : Hdr) (x : Main) (s : State) :
    exec (.mcast h x) s = execMcast h x s := by delta exec; rfl
@[simp] theorem exec_bclose (h : Hdr) (x : Eng) (s : State) :
    exec (.bclose h x) s = execBclose h x s := by delta exec; rfl
@[simp] theorem exec_waitb (h : Hdr) (x : Eng) (s : State) :
    exec (.waitb h x) s = execWaitb h x s := by delta exec; rfl
@[simp] theorem exec_qfence (h : Hdr) (x : Eng) (s : State) :
    exec (.qfence h x) s = execQfence h x s := by delta exec; rfl
@[simp] theorem exec_chain (h : Hdr) (x : Eng) (s : State) :
    exec (.chain h x) s = execChain h x s := by delta exec; rfl
@[simp] theorem exec_decod (h : Hdr) (x : Eng) (s : State) :
    exec (.decod h x) s = execDecod h x s := by delta exec; rfl
@[simp] theorem exec_dtab (h : Hdr) (x : Eng) (s : State) :
    exec (.dtab h x) s = execDtab h x s := by delta exec; rfl
@[simp] theorem exec_sgo (h : Hdr) (x : Eng) (s : State) :
    exec (.sgo h x) s = execSgo h x s := by delta exec; rfl
@[simp] theorem exec_qpop (h : Hdr) (x : Eng) (s : State) :
    exec (.qpop h x) s = execQpop h x s := by delta exec; rfl
@[simp] theorem exec_qstat (h : Hdr) (x : Eng) (s : State) :
    exec (.qstat h x) s = execQstat h x s := by delta exec; rfl
@[simp] theorem exec_qstatCq (h : Hdr) (x : Eng) (s : State) :
    exec (.qstatCq h x) s = execQstatCq h x s := by delta exec; rfl
@[simp] theorem exec_apush (h : Hdr) (x : Eng) (s : State) :
    exec (.apush h x) s = execApush h x s := by delta exec; rfl
@[simp] theorem exec_aseg (h : Hdr) (x : Eng) (s : State) :
    exec (.aseg h x) s = execAseg h x s := by delta exec; rfl
@[simp] theorem exec_ray (h : Hdr) (x : Unt) (s : State) :
    exec (.ray h x) s = execRay h x s := by delta exec; rfl
@[simp] theorem exec_trhold (h : Hdr) (x : Unt) (s : State) :
    exec (.trhold h x) s = execTrhold h x s := by delta exec; rfl
@[simp] theorem exec_trswap (h : Hdr) (x : Unt) (s : State) :
    exec (.trswap h x) s = execTrswap h x s := by delta exec; rfl
@[simp] theorem exec_trstat (h : Hdr) (x : Unt) (s : State) :
    exec (.trstat h x) s = execTrstat h x s := by delta exec; rfl
@[simp] theorem exec_filt (h : Hdr) (x : Unt) (s : State) :
    exec (.filt h x) s = execFilt h x s := by delta exec; rfl
@[simp] theorem exec_hgrid (h : Hdr) (x : Unt) (s : State) :
    exec (.hgrid h x) s = execHgrid h x s := by delta exec; rfl
@[simp] theorem exec_bank (h : Hdr) (x : Unt) (s : State) :
    exec (.bank h x) s = execBank h x s := by delta exec; rfl
@[simp] theorem exec_rfe (h : Hdr) (x : Sys) (s : State) :
    exec (.rfe h x) s = execRfe h x s := by delta exec; rfl
@[simp] theorem exec_csave (h : Hdr) (x : Sys) (s : State) :
    exec (.csave h x) s = execCsave h x s := by delta exec; rfl
@[simp] theorem exec_crest (h : Hdr) (x : Sys) (s : State) :
    exec (.crest h x) s = execCrest h x s := by delta exec; rfl
@[simp] theorem exec_tlbinv (h : Hdr) (x : Sys) (s : State) :
    exec (.tlbinv h x) s = execTlbinv h x s := by delta exec; rfl
@[simp] theorem exec_replay (h : Hdr) (x : Sys) (s : State) :
    exec (.replay h x) s = execReplay h x s := by delta exec; rfl
@[simp] theorem exec_xinj (h : Hdr) (x : Sys) (s : State) :
    exec (.xinj h x) s = execXinj h x s := by delta exec; rfl
@[simp] theorem exec_elog (h : Hdr) (x : Sys) (s : State) :
    exec (.elog h x) s = execElog h x s := by delta exec; rfl
@[simp] theorem exec_elogClr (h : Hdr) (x : Sys) (s : State) :
    exec (.elogClr h x) s = execElogClr h x s := by delta exec; rfl
@[simp] theorem exec_halt (h : Hdr) (x : Sys) (s : State) :
    exec (.halt h x) s = execHalt h x s := by delta exec; rfl
@[simp] theorem exec_pairAdd (sw : Bool) (x : SlotArgs) (y : PairSlot) (s : State) :
    exec (.pairAdd sw x y) s = execPairAdd sw x y s := by delta exec; rfl
@[simp] theorem exec_pairSub (sw : Bool) (x : SlotArgs) (y : PairSlot) (s : State) :
    exec (.pairSub sw x y) s = execPairSub sw x y s := by delta exec; rfl
@[simp] theorem exec_pairMinI32 (sw : Bool) (x : SlotArgs) (y : PairSlot) (s : State) :
    exec (.pairMinI32 sw x y) s = execPairMinI32 sw x y s := by delta exec; rfl
@[simp] theorem exec_pairMaxI32 (sw : Bool) (x : SlotArgs) (y : PairSlot) (s : State) :
    exec (.pairMaxI32 sw x y) s = execPairMaxI32 sw x y s := by delta exec; rfl
@[simp] theorem exec_pairMinN32 (sw : Bool) (x : SlotArgs) (y : PairSlot) (s : State) :
    exec (.pairMinN32 sw x y) s = execPairMinN32 sw x y s := by delta exec; rfl
@[simp] theorem exec_pairMaxN32 (sw : Bool) (x : SlotArgs) (y : PairSlot) (s : State) :
    exec (.pairMaxN32 sw x y) s = execPairMaxN32 sw x y s := by delta exec; rfl
@[simp] theorem exec_pairAnd (sw : Bool) (x : SlotArgs) (y : PairSlot) (s : State) :
    exec (.pairAnd sw x y) s = execPairAnd sw x y s := by delta exec; rfl
@[simp] theorem exec_pairOr (sw : Bool) (x : SlotArgs) (y : PairSlot) (s : State) :
    exec (.pairOr sw x y) s = execPairOr sw x y s := by delta exec; rfl
@[simp] theorem exec_pairXor (sw : Bool) (x : SlotArgs) (y : PairSlot) (s : State) :
    exec (.pairXor sw x y) s = execPairXor sw x y s := by delta exec; rfl
@[simp] theorem exec_pairShl (sw : Bool) (x : SlotArgs) (y : PairSlot) (s : State) :
    exec (.pairShl sw x y) s = execPairShl sw x y s := by delta exec; rfl
@[simp] theorem exec_pairShr (sw : Bool) (x : SlotArgs) (y : PairSlot) (s : State) :
    exec (.pairShr sw x y) s = execPairShr sw x y s := by delta exec; rfl
@[simp] theorem exec_pairSar (sw : Bool) (x : SlotArgs) (y : PairSlot) (s : State) :
    exec (.pairSar sw x y) s = execPairSar sw x y s := by delta exec; rfl
@[simp] theorem exec_pairMov (sw : Bool) (x : SlotArgs) (y : PairSlot) (s : State) :
    exec (.pairMov sw x y) s = execPairMov sw x y s := by delta exec; rfl
@[simp] theorem exec_pairMovi (sw : Bool) (x : SlotArgs) (y : PairSlot) (s : State) :
    exec (.pairMovi sw x y) s = execPairMovi sw x y s := by delta exec; rfl
@[simp] theorem exec_pairFadd (sw : Bool) (x : SlotArgs) (y : PairSlot) (s : State) :
    exec (.pairFadd sw x y) s = execPairFadd sw x y s := by delta exec; rfl
@[simp] theorem exec_pairFsub (sw : Bool) (x : SlotArgs) (y : PairSlot) (s : State) :
    exec (.pairFsub sw x y) s = execPairFsub sw x y s := by delta exec; rfl
@[simp] theorem exec_pairFmul (sw : Bool) (x : SlotArgs) (y : PairSlot) (s : State) :
    exec (.pairFmul sw x y) s = execPairFmul sw x y s := by delta exec; rfl
@[simp] theorem exec_pairFmin (sw : Bool) (x : SlotArgs) (y : PairSlot) (s : State) :
    exec (.pairFmin sw x y) s = execPairFmin sw x y s := by delta exec; rfl
@[simp] theorem exec_pairFmax (sw : Bool) (x : SlotArgs) (y : PairSlot) (s : State) :
    exec (.pairFmax sw x y) s = execPairFmax sw x y s := by delta exec; rfl
@[simp] theorem exec_pairHadd2 (sw : Bool) (x : SlotArgs) (y : PairSlot) (s : State) :
    exec (.pairHadd2 sw x y) s = execPairHadd2 sw x y s := by delta exec; rfl
@[simp] theorem exec_pairHmul2 (sw : Bool) (x : SlotArgs) (y : PairSlot) (s : State) :
    exec (.pairHmul2 sw x y) s = execPairHmul2 sw x y s := by delta exec; rfl
@[simp] theorem exec_pairAddi (sw : Bool) (x : SlotArgs) (y : PairSlot) (s : State) :
    exec (.pairAddi sw x y) s = execPairAddi sw x y s := by delta exec; rfl
@[simp] theorem exec_illegalInstruction (w : W64) (s : State) :
    exec (.illegalInstruction w) s = execIllegalInstruction w s := by delta exec; rfl
@[simp] theorem exec_runEndCommit (s : State) :
    exec .runEndCommit s = execRunEndCommit s := by delta exec; rfl
@[simp] theorem exec_spinDemotionExpiry (s : State) :
    exec .spinDemotionExpiry s = execSpinDemotionExpiry s := by delta exec; rfl
@[simp] theorem exec_yieldWindowExpiry (s : State) :
    exec .yieldWindowExpiry s = execYieldWindowExpiry s := by delta exec; rfl
@[simp] theorem exec_sleepWake (s : State) :
    exec .sleepWake s = execSleepWake s := by delta exec; rfl
@[simp] theorem exec_mwaitWake (s : State) :
    exec .mwaitWake s = execMwaitWake s := by delta exec; rfl
@[simp] theorem exec_mwaitDeadline (s : State) :
    exec .mwaitDeadline s = execMwaitDeadline s := by delta exec; rfl
@[simp] theorem exec_regroupTimeout (s : State) :
    exec .regroupTimeout s = execRegroupTimeout s := by delta exec; rfl
@[simp] theorem exec_lqTailWrite (s : State) :
    exec .lqTailWrite s = execLqTailWrite s := by delta exec; rfl
@[simp] theorem exec_lqCfgWrite (s : State) :
    exec .lqCfgWrite s = execLqCfgWrite s := by delta exec; rfl
@[simp] theorem exec_lqErrSkip (s : State) :
    exec .lqErrSkip s = execLqErrSkip s := by delta exec; rfl
@[simp] theorem exec_lqErrResume (s : State) :
    exec .lqErrResume s = execLqErrResume s := by delta exec; rfl
@[simp] theorem exec_launchRecordConsume (s : State) :
    exec .launchRecordConsume s = execLaunchRecordConsume s := by delta exec; rfl
@[simp] theorem exec_validRetry (s : State) :
    exec .validRetry s = execValidRetry s := by delta exec; rfl
@[simp] theorem exec_dependenceReread (s : State) :
    exec .dependenceReread s = execDependenceReread s := by delta exec; rfl
@[simp] theorem exec_gangPlacement (s : State) :
    exec .gangPlacement s = execGangPlacement s := by delta exec; rfl
@[simp] theorem exec_placementStarvation (s : State) :
    exec .placementStarvation s = execPlacementStarvation s := by delta exec; rfl
@[simp] theorem exec_teamResourcesFree (s : State) :
    exec .teamResourcesFree s = execTeamResourcesFree s := by delta exec; rfl
@[simp] theorem exec_launchCompletion (s : State) :
    exec .launchCompletion s = execLaunchCompletion s := by delta exec; rfl
@[simp] theorem exec_taskTeamForm (s : State) :
    exec .taskTeamForm s = execTaskTeamForm s := by delta exec; rfl
@[simp] theorem exec_linePresent (s : State) :
    exec .linePresent s = execLinePresent s := by delta exec; rfl
@[simp] theorem exec_copyProbePass (s : State) :
    exec .copyProbePass s = execCopyProbePass s := by delta exec; rfl
@[simp] theorem exec_copyDataPass (s : State) :
    exec .copyDataPass s = execCopyDataPass s := by delta exec; rfl
@[simp] theorem exec_stampWrite (s : State) :
    exec .stampWrite s = execStampWrite s := by delta exec; rfl
@[simp] theorem exec_chainRecord (s : State) :
    exec .chainRecord s = execChainRecord s := by delta exec; rfl
@[simp] theorem exec_decodeRun (s : State) :
    exec .decodeRun s = execDecodeRun s := by delta exec; rfl
@[simp] theorem exec_mcastSliceDeliver (s : State) :
    exec .mcastSliceDeliver s = execMcastSliceDeliver s := by delta exec; rfl
@[simp] theorem exec_farAtomicPerform (s : State) :
    exec .farAtomicPerform s = execFarAtomicPerform s := by delta exec; rfl
@[simp] theorem exec_pendingWritePerform (s : State) :
    exec .pendingWritePerform s = execPendingWritePerform s := by delta exec; rfl
@[simp] theorem exec_leaseExpiry (s : State) :
    exec .leaseExpiry s = execLeaseExpiry s := by delta exec; rfl
@[simp] theorem exec_matrixOperationPerform (s : State) :
    exec .matrixOperationPerform s = execMatrixOperationPerform s := by delta exec; rfl
@[simp] theorem exec_qntAppendWrite (s : State) :
    exec .qntAppendWrite s = execQntAppendWrite s := by delta exec; rfl
@[simp] theorem exec_tldPerform (s : State) :
    exec .tldPerform s = execTldPerform s := by delta exec; rfl
@[simp] theorem exec_tstPerform (s : State) :
    exec .tstPerform s = execTstPerform s := by delta exec; rfl
@[simp] theorem exec_sergeWord (s : State) :
    exec .sergeWord s = execSergeWord s := by delta exec; rfl
@[simp] theorem exec_sergeUnitArrive (s : State) :
    exec .sergeUnitArrive s = execSergeUnitArrive s := by delta exec; rfl
@[simp] theorem exec_rayTraverseBatch (s : State) :
    exec .rayTraverseBatch s = execRayTraverseBatch s := by delta exec; rfl
@[simp] theorem exec_rayTimeout (s : State) :
    exec .rayTimeout s = execRayTimeout s := by delta exec; rfl
@[simp] theorem exec_trholdDrained (s : State) :
    exec .trholdDrained s = execTrholdDrained s := by delta exec; rfl
@[simp] theorem exec_filtResult (s : State) :
    exec .filtResult s = execFiltResult s := by delta exec; rfl
@[simp] theorem exec_hgridResult (s : State) :
    exec .hgridResult s = execHgridResult s := by delta exec; rfl
@[simp] theorem exec_calicoProgramCheck (s : State) :
    exec .calicoProgramCheck s = execCalicoProgramCheck s := by delta exec; rfl
@[simp] theorem exec_calicoBundle (s : State) :
    exec .calicoBundle s = execCalicoBundle s := by delta exec; rfl
@[simp] theorem exec_calicoColumnArrive (s : State) :
    exec .calicoColumnArrive s = execCalicoColumnArrive s := by delta exec; rfl
@[simp] theorem exec_replayableSaveTimeout (s : State) :
    exec .replayableSaveTimeout s = execReplayableSaveTimeout s := by delta exec; rfl
@[simp] theorem exec_teamSave (s : State) :
    exec .teamSave s = execTeamSave s := by delta exec; rfl
@[simp] theorem exec_csaveStamp (s : State) :
    exec .csaveStamp s = execCsaveStamp s := by delta exec; rfl
@[simp] theorem exec_teamRestore (s : State) :
    exec .teamRestore s = execTeamRestore s := by delta exec; rfl
@[simp] theorem exec_faultCollectorForward (s : State) :
    exec .faultCollectorForward s = execFaultCollectorForward s := by delta exec; rfl
@[simp] theorem exec_fbackWrite (s : State) :
    exec .fbackWrite s = execFbackWrite s := by delta exec; rfl
@[simp] theorem exec_fbstatWrite (s : State) :
    exec .fbstatWrite s = execFbstatWrite s := by delta exec; rfl
@[simp] theorem exec_ctxinvWrite (s : State) :
    exec .ctxinvWrite s = execCtxinvWrite s := by delta exec; rfl
@[simp] theorem exec_ctxbaseWrite (s : State) :
    exec .ctxbaseWrite s = execCtxbaseWrite s := by delta exec; rfl
@[simp] theorem exec_stkstatWrite (s : State) :
    exec .stkstatWrite s = execStkstatWrite s := by delta exec; rfl
@[simp] theorem exec_felttailWrite (s : State) :
    exec .felttailWrite s = execFelttailWrite s := by delta exec; rfl
@[simp] theorem exec_feltIn (s : State) :
    exec .feltIn s = execFeltIn s := by delta exec; rfl
@[simp] theorem exec_feltOut (s : State) :
    exec .feltOut s = execFeltOut s := by delta exec; rfl
@[simp] theorem exec_feltCkpt (s : State) :
    exec .feltCkpt s = execFeltCkpt s := by delta exec; rfl
@[simp] theorem exec_feltRestore (s : State) :
    exec .feltRestore s = execFeltRestore s := by delta exec; rfl
@[simp] theorem exec_registerWrite (s : State) :
    exec .registerWrite s = execRegisterWrite s := by delta exec; rfl
@[simp] theorem exec_hostCopyHeadWrite (s : State) :
    exec .hostCopyHeadWrite s = execHostCopyHeadWrite s := by delta exec; rfl
@[simp] theorem exec_hpublenWrite (s : State) :
    exec .hpublenWrite s = execHpublenWrite s := by delta exec; rfl
@[simp] theorem exec_hostPublication (s : State) :
    exec .hostPublication s = execHostPublication s := by delta exec; rfl
@[simp] theorem exec_tbset (s : State) :
    exec .tbset s = execTbset s := by delta exec; rfl
@[simp] theorem exec_timeSyncExchange (s : State) :
    exec .timeSyncExchange s = execTimeSyncExchange s := by delta exec; rfl
@[simp] theorem exec_damaskRequest (s : State) :
    exec .damaskRequest s = execDamaskRequest s := by delta exec; rfl
@[simp] theorem exec_stale (s : State) :
    exec .stale s = execStale s := by delta exec; rfl
@[simp] theorem exec_heartbeatSend (s : State) :
    exec .heartbeatSend s = execHeartbeatSend s := by delta exec; rfl
@[simp] theorem exec_heartbeatSlow (s : State) :
    exec .heartbeatSlow s = execHeartbeatSlow s := by delta exec; rfl
@[simp] theorem exec_heartbeatDead (s : State) :
    exec .heartbeatDead s = execHeartbeatDead s := by delta exec; rfl
@[simp] theorem exec_dead (s : State) :
    exec .dead s = execDead s := by delta exec; rfl
@[simp] theorem exec_joinNotice (s : State) :
    exec .joinNotice s = execJoinNotice s := by delta exec; rfl
@[simp] theorem exec_linkRetrainFail (s : State) :
    exec .linkRetrainFail s = execLinkRetrainFail s := by delta exec; rfl
@[simp] theorem exec_ildropRead (s : State) :
    exec .ildropRead s = execIldropRead s := by delta exec; rfl
@[simp] theorem exec_outputEnable (s : State) :
    exec .outputEnable s = execOutputEnable s := by delta exec; rfl
@[simp] theorem exec_poseseqWrite (s : State) :
    exec .poseseqWrite s = execPoseseqWrite s := by delta exec; rfl
@[simp] theorem exec_presentWordRead (s : State) :
    exec .presentWordRead s = execPresentWordRead s := by delta exec; rfl
@[simp] theorem exec_frameScanStart (s : State) :
    exec .frameScanStart s = execFrameScanStart s := by delta exec; rfl
@[simp] theorem exec_powerOn (s : State) :
    exec .powerOn s = execPowerOn s := by delta exec; rfl
@[simp] theorem exec_coldStart (s : State) :
    exec .coldStart s = execColdStart s := by delta exec; rfl
@[simp] theorem exec_warmStart (s : State) :
    exec .warmStart s = execWarmStart s := by delta exec; rfl
@[simp] theorem exec_autoRestart (s : State) :
    exec .autoRestart s = execAutoRestart s := by delta exec; rfl
@[simp] theorem exec_thermalThrottle (s : State) :
    exec .thermalThrottle s = execThermalThrottle s := by delta exec; rfl
@[simp] theorem exec_thermalRecover (s : State) :
    exec .thermalRecover s = execThermalRecover s := by delta exec; rfl
@[simp] theorem exec_thermalShutdown (s : State) :
    exec .thermalShutdown s = execThermalShutdown s := by delta exec; rfl
@[simp] theorem exec_variableLatencyResultReturn (s : State) :
    exec .variableLatencyResultReturn s = execVariableLatencyResultReturn s := by delta exec; rfl
@[simp] theorem exec_hostDeviceMemoryAccess (s : State) :
    exec .hostDeviceMemoryAccess s = execHostDeviceMemoryAccess s := by delta exec; rfl
@[simp] theorem exec_heartbeatReceive (s : State) :
    exec .heartbeatReceive s = execHeartbeatReceive s := by delta exec; rfl
@[simp] theorem exec_linkError (s : State) :
    exec .linkError s = execLinkError s := by delta exec; rfl

end Sys2Proof.Machine
end

