-- ==== Sys2Proof/Laws/Fields.lean ====
section
/-! SUPPORT. Operand records come back from the X field they are laid out in (R58-R64, R297, R312, R371). -/

namespace Sys2Proof
open Machine

theorem extract_skip {m n k w : Nat} (x : BitVec m) (y : BitVec n) (h : n ≤ k) :
    (x ++ y).extractLsb' k w = x.extractLsb' (k - n) w := by
  ext i hi
  have : ¬ (k + i < n) := by omega
  have e : k + i - n = k - n + i := by omega
  simp only [BitVec.getElem_extractLsb', BitVec.getLsbD_append, this, if_false, e]

theorem extract_in {m n k w : Nat} (x : BitVec m) (y : BitVec n) (h : k + w ≤ n) :
    (x ++ y).extractLsb' k w = y.extractLsb' k w := by
  ext i hi
  have : k + i < n := by omega
  simp only [BitVec.getElem_extractLsb', BitVec.getLsbD_append, this, if_true]

theorem extract_top {m n k : Nat} (x : BitVec m) (y : BitVec n) (h : k = n) : (x ++ y).extractLsb' k m = x := by
  rw [extract_skip x y (by omega), h, Nat.sub_self]; exact BitVec.extractLsb'_eq_self

theorem bit_skip {m n k : Nat} (x : BitVec m) (y : BitVec n) (h : n ≤ k) : (x ++ y).getLsbD k = x.getLsbD (k - n) := by
  have : ¬ (k < n) := by omega
  simp only [BitVec.getLsbD_append, this, if_false]

theorem bit_top {n k : Nat} (b : Bool) (y : BitVec n) (h : k = n) : (BitVec.ofBool b ++ y).getLsbD k = b := by
  rw [bit_skip _ y (by omega), h, Nat.sub_self]; cases b <;> rfl

theorem bit_low {m n k : Nat} (x : BitVec m) (y : BitVec n) (h : k < n) : (x ++ y).getLsbD k = y.getLsbD k := by
  simp only [BitVec.getLsbD_append, h, if_true]

theorem Arith.ofWord_x (s gn gp cls idx) (o : Arith) :
    Arith.ofWord ⟨s, gn, gp, cls, idx, o.d, o.a, o.b, o.x⟩ = o := by
  obtain ⟨d, a, b, i, ra, rb, ty, rm, fs, sub, c⟩ := o
  have h1 : ∀ t, tyOfCode (tyCode t) = t := by intro t; cases t <;> rfl
  have h2 : ∀ t, rmOfCode (rmCode t) = t := by intro t; cases t <;> rfl
  simp (disch := decide) only [Arith.ofWord, Arith.x, bit_top, bit_low, extract_top, extract_in, BitVec.extractLsb'_eq_self, h1, h2]

theorem Ctl.ofWord_x (s gn gp cls idx) (o : Ctl) :
    Ctl.ofWord ⟨s, gn, gp, cls, idx, o.d, o.a, o.b, o.x⟩ = o := by
  simp (disch := decide) only [Ctl.ofWord, Ctl.x, bit_top, bit_low, extract_top, extract_in, BitVec.extractLsb'_eq_self]

theorem Mat.ofWord_x (s gn gp cls idx) (o : Mat) :
    Mat.ofWord ⟨s, gn, gp, cls, idx, o.d, o.a, o.b, o.x⟩ = some o := by
  obtain ⟨d, a, b, fmt, gs, oe, od, bs, opn, cls, cv⟩ := o
  have h1 : ∀ t, fmtOfCode (fmtCode t) = some t := by intro t; cases t <;> rfl
  have h2 : ∀ t, gsOfCode (gsCode t) = some t := by intro t; cases t <;> rfl
  simp (disch := decide) only [Mat.ofWord, Mat.x, bit_top, bit_low, extract_top, extract_in, BitVec.extractLsb'_eq_self, h1, h2]
  rfl

theorem Loc.ofWord_x (s gn gp cls idx) (o : Loc) :
    Loc.ofWord ⟨s, gn, gp, cls, idx, o.d, o.a, o.b, o.x⟩ = some o := by
  have h1 : ∀ t, spaceOfCode (spaceCode t) = some t := by intro t; cases t <;> rfl
  have h2 : ∀ t, widthOfCode (widthCode t) = some t := by intro t; cases t <;> rfl
  simp (disch := decide) only [Loc.ofWord, Loc.x, bit_top, bit_low, extract_top, extract_in, BitVec.extractLsb'_eq_self, h1, h2]
  rfl

theorem Main.ofWord_x (s gn gp cls idx) (o : Main) :
    Main.ofWord ⟨s, gn, gp, cls, idx, o.d, o.a, o.b, o.x⟩ = some o := by
  have h1 : ∀ t, scopeOfCode (scopeCode t) = some t := by intro t; cases t <;> rfl
  simp (disch := decide) only [Main.ofWord, Main.x, bit_top, bit_low, extract_top, extract_in, BitVec.extractLsb'_eq_self, h1]
  rfl

theorem Eng.ofWord_x (s gn gp cls idx) (o : Eng) :
    Eng.ofWord ⟨s, gn, gp, cls, idx, o.d, o.a, o.b, o.x⟩ = some o := by
  have h1 : ∀ t, scopeOfCode (scopeCode t) = some t := by intro t; cases t <;> rfl
  simp (disch := decide) only [Eng.ofWord, Eng.x, bit_top, bit_low, extract_top, extract_in, BitVec.extractLsb'_eq_self, h1]
  rfl

theorem Unt.ofWord_x (s gn gp cls idx) (o : Unt) :
    Unt.ofWord ⟨s, gn, gp, cls, idx, o.d, o.a, o.b, o.x⟩ = o := by
  simp (disch := decide) only [Unt.ofWord, Unt.x, bit_top, bit_low, extract_top, extract_in, BitVec.extractLsb'_eq_self]

theorem Sys.ofWord_x (s gn gp cls idx) (o : Sys) :
    Sys.ofWord ⟨s, gn, gp, cls, idx, o.d, o.a, o.b, o.x⟩ = o := by
  simp (disch := decide) only [Sys.ofWord, Sys.x, bit_top, bit_low, extract_top, extract_in, BitVec.extractLsb'_eq_self]
end Sys2Proof
end

