-- ==== Sys2Proof/Laws/State.lean ====
section
/-! SUPPORT. What each update of the state leaves as it was: one lemma for each field and update, so that no proof unfolds a
record update. -/
namespace Sys2Proof.Machine

-- updTeam
@[simp] theorem updTeam_time (s : State) (id : Nat) (f : Team → Team) : (s.updTeam id f).time = s.time := rfl
@[simp] theorem updTeam_gangs (s : State) (id : Nat) (f : Team → Team) : (s.updTeam id f).gangs = s.gangs := rfl
@[simp] theorem updTeam_launches (s : State) (id : Nat) (f : Team → Team) : (s.updTeam id f).launches = s.launches := rfl
@[simp] theorem updTeam_lqs (s : State) (id : Nat) (f : Team → Team) : (s.updTeam id f).lqs = s.lqs := rfl
@[simp] theorem updTeam_tasks (s : State) (id : Nat) (f : Team → Team) : (s.updTeam id f).tasks = s.tasks := rfl
@[simp] theorem updTeam_regroup (s : State) (id : Nat) (f : Team → Team) : (s.updTeam id f).regroup = s.regroup := rfl
@[simp] theorem updTeam_mem (s : State) (id : Nat) (f : Team → Team) : (s.updTeam id f).mem = s.mem := rfl
@[simp] theorem updTeam_ops (s : State) (id : Nat) (f : Team → Team) : (s.updTeam id f).ops = s.ops := rfl
@[simp] theorem updTeam_streams (s : State) (id : Nat) (f : Team → Team) : (s.updTeam id f).streams = s.streams := rfl
@[simp] theorem updTeam_serges (s : State) (id : Nat) (f : Team → Team) : (s.updTeam id f).serges = s.serges := rfl
@[simp] theorem updTeam_rays (s : State) (id : Nat) (f : Team → Team) : (s.updTeam id f).rays = s.rays := rfl
@[simp] theorem updTeam_tcmds (s : State) (id : Nat) (f : Team → Team) : (s.updTeam id f).tcmds = s.tcmds := rfl
@[simp] theorem updTeam_gauze (s : State) (id : Nat) (f : Team → Team) : (s.updTeam id f).gauze = s.gauze := rfl
@[simp] theorem updTeam_calico (s : State) (id : Nat) (f : Team → Team) : (s.updTeam id f).calico = s.calico := rfl
@[simp] theorem updTeam_coll (s : State) (id : Nat) (f : Team → Team) : (s.updTeam id f).coll = s.coll := rfl
@[simp] theorem updTeam_felt (s : State) (id : Nat) (f : Team → Team) : (s.updTeam id f).felt = s.felt := rfl
@[simp] theorem updTeam_priv (s : State) (id : Nat) (f : Team → Team) : (s.updTeam id f).priv = s.priv := rfl
@[simp] theorem updTeam_chans (s : State) (id : Nat) (f : Team → Team) : (s.updTeam id f).chans = s.chans := rfl
@[simp] theorem updTeam_hpub (s : State) (id : Nat) (f : Team → Team) : (s.updTeam id f).hpub = s.hpub := rfl
@[simp] theorem updTeam_ilog (s : State) (id : Nat) (f : Team → Team) : (s.updTeam id f).ilog = s.ilog := rfl
@[simp] theorem updTeam_outputs (s : State) (id : Nat) (f : Team → Team) : (s.updTeam id f).outputs = s.outputs := rfl
@[simp] theorem updTeam_fabric (s : State) (id : Nat) (f : Team → Team) : (s.updTeam id f).fabric = s.fabric := rfl
@[simp] theorem updTeam_power (s : State) (id : Nat) (f : Team → Team) : (s.updTeam id f).power = s.power := rfl
@[simp] theorem updTeam_nextNum (s : State) (id : Nat) (f : Team → Team) : (s.updTeam id f).nextNum = s.nextNum := rfl
@[simp] theorem updTeam_freeCtr (s : State) (id : Nat) (f : Team → Team) : (s.updTeam id f).freeCtr = s.freeCtr := rfl
@[simp] theorem updTeam_subject (s : State) (id : Nat) (f : Team → Team) : (s.updTeam id f).subject = s.subject := rfl
@[simp] theorem updTeam_agenda (s : State) (id : Nat) (f : Team → Team) : (s.updTeam id f).agenda = s.agenda := rfl

-- updGroup
@[simp] theorem updGroup_time (s : State) (team g : Nat) (f : Group → Group) : (s.updGroup team g f).time = s.time := rfl
@[simp] theorem updGroup_gangs (s : State) (team g : Nat) (f : Group → Group) : (s.updGroup team g f).gangs = s.gangs := rfl
@[simp] theorem updGroup_launches (s : State) (team g : Nat) (f : Group → Group) : (s.updGroup team g f).launches = s.launches := rfl
@[simp] theorem updGroup_lqs (s : State) (team g : Nat) (f : Group → Group) : (s.updGroup team g f).lqs = s.lqs := rfl
@[simp] theorem updGroup_tasks (s : State) (team g : Nat) (f : Group → Group) : (s.updGroup team g f).tasks = s.tasks := rfl
@[simp] theorem updGroup_regroup (s : State) (team g : Nat) (f : Group → Group) : (s.updGroup team g f).regroup = s.regroup := rfl
@[simp] theorem updGroup_mem (s : State) (team g : Nat) (f : Group → Group) : (s.updGroup team g f).mem = s.mem := rfl
@[simp] theorem updGroup_ops (s : State) (team g : Nat) (f : Group → Group) : (s.updGroup team g f).ops = s.ops := rfl
@[simp] theorem updGroup_streams (s : State) (team g : Nat) (f : Group → Group) : (s.updGroup team g f).streams = s.streams := rfl
@[simp] theorem updGroup_serges (s : State) (team g : Nat) (f : Group → Group) : (s.updGroup team g f).serges = s.serges := rfl
@[simp] theorem updGroup_rays (s : State) (team g : Nat) (f : Group → Group) : (s.updGroup team g f).rays = s.rays := rfl
@[simp] theorem updGroup_tcmds (s : State) (team g : Nat) (f : Group → Group) : (s.updGroup team g f).tcmds = s.tcmds := rfl
@[simp] theorem updGroup_gauze (s : State) (team g : Nat) (f : Group → Group) : (s.updGroup team g f).gauze = s.gauze := rfl
@[simp] theorem updGroup_calico (s : State) (team g : Nat) (f : Group → Group) : (s.updGroup team g f).calico = s.calico := rfl
@[simp] theorem updGroup_coll (s : State) (team g : Nat) (f : Group → Group) : (s.updGroup team g f).coll = s.coll := rfl
@[simp] theorem updGroup_felt (s : State) (team g : Nat) (f : Group → Group) : (s.updGroup team g f).felt = s.felt := rfl
@[simp] theorem updGroup_priv (s : State) (team g : Nat) (f : Group → Group) : (s.updGroup team g f).priv = s.priv := rfl
@[simp] theorem updGroup_chans (s : State) (team g : Nat) (f : Group → Group) : (s.updGroup team g f).chans = s.chans := rfl
@[simp] theorem updGroup_hpub (s : State) (team g : Nat) (f : Group → Group) : (s.updGroup team g f).hpub = s.hpub := rfl
@[simp] theorem updGroup_ilog (s : State) (team g : Nat) (f : Group → Group) : (s.updGroup team g f).ilog = s.ilog := rfl
@[simp] theorem updGroup_outputs (s : State) (team g : Nat) (f : Group → Group) : (s.updGroup team g f).outputs = s.outputs := rfl
@[simp] theorem updGroup_fabric (s : State) (team g : Nat) (f : Group → Group) : (s.updGroup team g f).fabric = s.fabric := rfl
@[simp] theorem updGroup_power (s : State) (team g : Nat) (f : Group → Group) : (s.updGroup team g f).power = s.power := rfl
@[simp] theorem updGroup_nextNum (s : State) (team g : Nat) (f : Group → Group) : (s.updGroup team g f).nextNum = s.nextNum := rfl
@[simp] theorem updGroup_freeCtr (s : State) (team g : Nat) (f : Group → Group) : (s.updGroup team g f).freeCtr = s.freeCtr := rfl
@[simp] theorem updGroup_subject (s : State) (team g : Nat) (f : Group → Group) : (s.updGroup team g f).subject = s.subject := rfl
@[simp] theorem updGroup_agenda (s : State) (team g : Nat) (f : Group → Group) : (s.updGroup team g f).agenda = s.agenda := rfl

-- updLane
@[simp] theorem updLane_time (s : State) (team g slot : Nat) (f : Lane → Lane) : (s.updLane team g slot f).time = s.time := rfl
@[simp] theorem updLane_gangs (s : State) (team g slot : Nat) (f : Lane → Lane) : (s.updLane team g slot f).gangs = s.gangs := rfl
@[simp] theorem updLane_launches (s : State) (team g slot : Nat) (f : Lane → Lane) : (s.updLane team g slot f).launches = s.launches := rfl
@[simp] theorem updLane_lqs (s : State) (team g slot : Nat) (f : Lane → Lane) : (s.updLane team g slot f).lqs = s.lqs := rfl
@[simp] theorem updLane_tasks (s : State) (team g slot : Nat) (f : Lane → Lane) : (s.updLane team g slot f).tasks = s.tasks := rfl
@[simp] theorem updLane_regroup (s : State) (team g slot : Nat) (f : Lane → Lane) : (s.updLane team g slot f).regroup = s.regroup := rfl
@[simp] theorem updLane_mem (s : State) (team g slot : Nat) (f : Lane → Lane) : (s.updLane team g slot f).mem = s.mem := rfl
@[simp] theorem updLane_ops (s : State) (team g slot : Nat) (f : Lane → Lane) : (s.updLane team g slot f).ops = s.ops := rfl
@[simp] theorem updLane_streams (s : State) (team g slot : Nat) (f : Lane → Lane) : (s.updLane team g slot f).streams = s.streams := rfl
@[simp] theorem updLane_serges (s : State) (team g slot : Nat) (f : Lane → Lane) : (s.updLane team g slot f).serges = s.serges := rfl
@[simp] theorem updLane_rays (s : State) (team g slot : Nat) (f : Lane → Lane) : (s.updLane team g slot f).rays = s.rays := rfl
@[simp] theorem updLane_tcmds (s : State) (team g slot : Nat) (f : Lane → Lane) : (s.updLane team g slot f).tcmds = s.tcmds := rfl
@[simp] theorem updLane_gauze (s : State) (team g slot : Nat) (f : Lane → Lane) : (s.updLane team g slot f).gauze = s.gauze := rfl
@[simp] theorem updLane_calico (s : State) (team g slot : Nat) (f : Lane → Lane) : (s.updLane team g slot f).calico = s.calico := rfl
@[simp] theorem updLane_coll (s : State) (team g slot : Nat) (f : Lane → Lane) : (s.updLane team g slot f).coll = s.coll := rfl
@[simp] theorem updLane_felt (s : State) (team g slot : Nat) (f : Lane → Lane) : (s.updLane team g slot f).felt = s.felt := rfl
@[simp] theorem updLane_priv (s : State) (team g slot : Nat) (f : Lane → Lane) : (s.updLane team g slot f).priv = s.priv := rfl
@[simp] theorem updLane_chans (s : State) (team g slot : Nat) (f : Lane → Lane) : (s.updLane team g slot f).chans = s.chans := rfl
@[simp] theorem updLane_hpub (s : State) (team g slot : Nat) (f : Lane → Lane) : (s.updLane team g slot f).hpub = s.hpub := rfl
@[simp] theorem updLane_ilog (s : State) (team g slot : Nat) (f : Lane → Lane) : (s.updLane team g slot f).ilog = s.ilog := rfl
@[simp] theorem updLane_outputs (s : State) (team g slot : Nat) (f : Lane → Lane) : (s.updLane team g slot f).outputs = s.outputs := rfl
@[simp] theorem updLane_fabric (s : State) (team g slot : Nat) (f : Lane → Lane) : (s.updLane team g slot f).fabric = s.fabric := rfl
@[simp] theorem updLane_power (s : State) (team g slot : Nat) (f : Lane → Lane) : (s.updLane team g slot f).power = s.power := rfl
@[simp] theorem updLane_nextNum (s : State) (team g slot : Nat) (f : Lane → Lane) : (s.updLane team g slot f).nextNum = s.nextNum := rfl
@[simp] theorem updLane_freeCtr (s : State) (team g slot : Nat) (f : Lane → Lane) : (s.updLane team g slot f).freeCtr = s.freeCtr := rfl
@[simp] theorem updLane_subject (s : State) (team g slot : Nat) (f : Lane → Lane) : (s.updLane team g slot f).subject = s.subject := rfl
@[simp] theorem updLane_agenda (s : State) (team g slot : Nat) (f : Lane → Lane) : (s.updLane team g slot f).agenda = s.agenda := rfl

-- mapLanes
@[simp] theorem mapLanes_time (s : State) (u : Bun) (ss : List Nat) (f : Nat → Lane → Lane) : (s.mapLanes u ss f).time = s.time := rfl
@[simp] theorem mapLanes_gangs (s : State) (u : Bun) (ss : List Nat) (f : Nat → Lane → Lane) : (s.mapLanes u ss f).gangs = s.gangs := rfl
@[simp] theorem mapLanes_launches (s : State) (u : Bun) (ss : List Nat) (f : Nat → Lane → Lane) : (s.mapLanes u ss f).launches = s.launches := rfl
@[simp] theorem mapLanes_lqs (s : State) (u : Bun) (ss : List Nat) (f : Nat → Lane → Lane) : (s.mapLanes u ss f).lqs = s.lqs := rfl
@[simp] theorem mapLanes_tasks (s : State) (u : Bun) (ss : List Nat) (f : Nat → Lane → Lane) : (s.mapLanes u ss f).tasks = s.tasks := rfl
@[simp] theorem mapLanes_regroup (s : State) (u : Bun) (ss : List Nat) (f : Nat → Lane → Lane) : (s.mapLanes u ss f).regroup = s.regroup := rfl
@[simp] theorem mapLanes_mem (s : State) (u : Bun) (ss : List Nat) (f : Nat → Lane → Lane) : (s.mapLanes u ss f).mem = s.mem := rfl
@[simp] theorem mapLanes_ops (s : State) (u : Bun) (ss : List Nat) (f : Nat → Lane → Lane) : (s.mapLanes u ss f).ops = s.ops := rfl
@[simp] theorem mapLanes_streams (s : State) (u : Bun) (ss : List Nat) (f : Nat → Lane → Lane) : (s.mapLanes u ss f).streams = s.streams := rfl
@[simp] theorem mapLanes_serges (s : State) (u : Bun) (ss : List Nat) (f : Nat → Lane → Lane) : (s.mapLanes u ss f).serges = s.serges := rfl
@[simp] theorem mapLanes_rays (s : State) (u : Bun) (ss : List Nat) (f : Nat → Lane → Lane) : (s.mapLanes u ss f).rays = s.rays := rfl
@[simp] theorem mapLanes_tcmds (s : State) (u : Bun) (ss : List Nat) (f : Nat → Lane → Lane) : (s.mapLanes u ss f).tcmds = s.tcmds := rfl
@[simp] theorem mapLanes_gauze (s : State) (u : Bun) (ss : List Nat) (f : Nat → Lane → Lane) : (s.mapLanes u ss f).gauze = s.gauze := rfl
@[simp] theorem mapLanes_calico (s : State) (u : Bun) (ss : List Nat) (f : Nat → Lane → Lane) : (s.mapLanes u ss f).calico = s.calico := rfl
@[simp] theorem mapLanes_coll (s : State) (u : Bun) (ss : List Nat) (f : Nat → Lane → Lane) : (s.mapLanes u ss f).coll = s.coll := rfl
@[simp] theorem mapLanes_felt (s : State) (u : Bun) (ss : List Nat) (f : Nat → Lane → Lane) : (s.mapLanes u ss f).felt = s.felt := rfl
@[simp] theorem mapLanes_priv (s : State) (u : Bun) (ss : List Nat) (f : Nat → Lane → Lane) : (s.mapLanes u ss f).priv = s.priv := rfl
@[simp] theorem mapLanes_chans (s : State) (u : Bun) (ss : List Nat) (f : Nat → Lane → Lane) : (s.mapLanes u ss f).chans = s.chans := rfl
@[simp] theorem mapLanes_hpub (s : State) (u : Bun) (ss : List Nat) (f : Nat → Lane → Lane) : (s.mapLanes u ss f).hpub = s.hpub := rfl
@[simp] theorem mapLanes_ilog (s : State) (u : Bun) (ss : List Nat) (f : Nat → Lane → Lane) : (s.mapLanes u ss f).ilog = s.ilog := rfl
@[simp] theorem mapLanes_outputs (s : State) (u : Bun) (ss : List Nat) (f : Nat → Lane → Lane) : (s.mapLanes u ss f).outputs = s.outputs := rfl
@[simp] theorem mapLanes_fabric (s : State) (u : Bun) (ss : List Nat) (f : Nat → Lane → Lane) : (s.mapLanes u ss f).fabric = s.fabric := rfl
@[simp] theorem mapLanes_power (s : State) (u : Bun) (ss : List Nat) (f : Nat → Lane → Lane) : (s.mapLanes u ss f).power = s.power := rfl
@[simp] theorem mapLanes_nextNum (s : State) (u : Bun) (ss : List Nat) (f : Nat → Lane → Lane) : (s.mapLanes u ss f).nextNum = s.nextNum := rfl
@[simp] theorem mapLanes_freeCtr (s : State) (u : Bun) (ss : List Nat) (f : Nat → Lane → Lane) : (s.mapLanes u ss f).freeCtr = s.freeCtr := rfl
@[simp] theorem mapLanes_subject (s : State) (u : Bun) (ss : List Nat) (f : Nat → Lane → Lane) : (s.mapLanes u ss f).subject = s.subject := rfl
@[simp] theorem mapLanes_agenda (s : State) (u : Bun) (ss : List Nat) (f : Nat → Lane → Lane) : (s.mapLanes u ss f).agenda = s.agenda := rfl

-- updTid
@[simp] theorem updTid_time (s : State) (team tid : Nat) (f : Lane → Lane) : (s.updTid team tid f).time = s.time := rfl
@[simp] theorem updTid_gangs (s : State) (team tid : Nat) (f : Lane → Lane) : (s.updTid team tid f).gangs = s.gangs := rfl
@[simp] theorem updTid_launches (s : State) (team tid : Nat) (f : Lane → Lane) : (s.updTid team tid f).launches = s.launches := rfl
@[simp] theorem updTid_lqs (s : State) (team tid : Nat) (f : Lane → Lane) : (s.updTid team tid f).lqs = s.lqs := rfl
@[simp] theorem updTid_tasks (s : State) (team tid : Nat) (f : Lane → Lane) : (s.updTid team tid f).tasks = s.tasks := rfl
@[simp] theorem updTid_mem (s : State) (team tid : Nat) (f : Lane → Lane) : (s.updTid team tid f).mem = s.mem := rfl
@[simp] theorem updTid_ops (s : State) (team tid : Nat) (f : Lane → Lane) : (s.updTid team tid f).ops = s.ops := rfl
@[simp] theorem updTid_streams (s : State) (team tid : Nat) (f : Lane → Lane) : (s.updTid team tid f).streams = s.streams := rfl
@[simp] theorem updTid_serges (s : State) (team tid : Nat) (f : Lane → Lane) : (s.updTid team tid f).serges = s.serges := rfl
@[simp] theorem updTid_rays (s : State) (team tid : Nat) (f : Lane → Lane) : (s.updTid team tid f).rays = s.rays := rfl
@[simp] theorem updTid_tcmds (s : State) (team tid : Nat) (f : Lane → Lane) : (s.updTid team tid f).tcmds = s.tcmds := rfl
@[simp] theorem updTid_gauze (s : State) (team tid : Nat) (f : Lane → Lane) : (s.updTid team tid f).gauze = s.gauze := rfl
@[simp] theorem updTid_calico (s : State) (team tid : Nat) (f : Lane → Lane) : (s.updTid team tid f).calico = s.calico := rfl
@[simp] theorem updTid_coll (s : State) (team tid : Nat) (f : Lane → Lane) : (s.updTid team tid f).coll = s.coll := rfl
@[simp] theorem updTid_felt (s : State) (team tid : Nat) (f : Lane → Lane) : (s.updTid team tid f).felt = s.felt := rfl
@[simp] theorem updTid_priv (s : State) (team tid : Nat) (f : Lane → Lane) : (s.updTid team tid f).priv = s.priv := rfl
@[simp] theorem updTid_chans (s : State) (team tid : Nat) (f : Lane → Lane) : (s.updTid team tid f).chans = s.chans := rfl
@[simp] theorem updTid_hpub (s : State) (team tid : Nat) (f : Lane → Lane) : (s.updTid team tid f).hpub = s.hpub := rfl
@[simp] theorem updTid_ilog (s : State) (team tid : Nat) (f : Lane → Lane) : (s.updTid team tid f).ilog = s.ilog := rfl
@[simp] theorem updTid_outputs (s : State) (team tid : Nat) (f : Lane → Lane) : (s.updTid team tid f).outputs = s.outputs := rfl
@[simp] theorem updTid_fabric (s : State) (team tid : Nat) (f : Lane → Lane) : (s.updTid team tid f).fabric = s.fabric := rfl
@[simp] theorem updTid_power (s : State) (team tid : Nat) (f : Lane → Lane) : (s.updTid team tid f).power = s.power := rfl
@[simp] theorem updTid_nextNum (s : State) (team tid : Nat) (f : Lane → Lane) : (s.updTid team tid f).nextNum = s.nextNum := rfl
@[simp] theorem updTid_freeCtr (s : State) (team tid : Nat) (f : Lane → Lane) : (s.updTid team tid f).freeCtr = s.freeCtr := rfl
@[simp] theorem updTid_subject (s : State) (team tid : Nat) (f : Lane → Lane) : (s.updTid team tid f).subject = s.subject := rfl
@[simp] theorem updTid_agenda (s : State) (team tid : Nat) (f : Lane → Lane) : (s.updTid team tid f).agenda = s.agenda := rfl

-- updQueue
@[simp] theorem updQueue_time (s : State) (team n : Nat) (f : CopyQueue → CopyQueue) : (s.updQueue team n f).time = s.time := rfl
@[simp] theorem updQueue_gangs (s : State) (team n : Nat) (f : CopyQueue → CopyQueue) : (s.updQueue team n f).gangs = s.gangs := rfl
@[simp] theorem updQueue_launches (s : State) (team n : Nat) (f : CopyQueue → CopyQueue) : (s.updQueue team n f).launches = s.launches := rfl
@[simp] theorem updQueue_lqs (s : State) (team n : Nat) (f : CopyQueue → CopyQueue) : (s.updQueue team n f).lqs = s.lqs := rfl
@[simp] theorem updQueue_tasks (s : State) (team n : Nat) (f : CopyQueue → CopyQueue) : (s.updQueue team n f).tasks = s.tasks := rfl
@[simp] theorem updQueue_regroup (s : State) (team n : Nat) (f : CopyQueue → CopyQueue) : (s.updQueue team n f).regroup = s.regroup := rfl
@[simp] theorem updQueue_mem (s : State) (team n : Nat) (f : CopyQueue → CopyQueue) : (s.updQueue team n f).mem = s.mem := rfl
@[simp] theorem updQueue_ops (s : State) (team n : Nat) (f : CopyQueue → CopyQueue) : (s.updQueue team n f).ops = s.ops := rfl
@[simp] theorem updQueue_streams (s : State) (team n : Nat) (f : CopyQueue → CopyQueue) : (s.updQueue team n f).streams = s.streams := rfl
@[simp] theorem updQueue_serges (s : State) (team n : Nat) (f : CopyQueue → CopyQueue) : (s.updQueue team n f).serges = s.serges := rfl
@[simp] theorem updQueue_rays (s : State) (team n : Nat) (f : CopyQueue → CopyQueue) : (s.updQueue team n f).rays = s.rays := rfl
@[simp] theorem updQueue_tcmds (s : State) (team n : Nat) (f : CopyQueue → CopyQueue) : (s.updQueue team n f).tcmds = s.tcmds := rfl
@[simp] theorem updQueue_gauze (s : State) (team n : Nat) (f : CopyQueue → CopyQueue) : (s.updQueue team n f).gauze = s.gauze := rfl
@[simp] theorem updQueue_calico (s : State) (team n : Nat) (f : CopyQueue → CopyQueue) : (s.updQueue team n f).calico = s.calico := rfl
@[simp] theorem updQueue_coll (s : State) (team n : Nat) (f : CopyQueue → CopyQueue) : (s.updQueue team n f).coll = s.coll := rfl
@[simp] theorem updQueue_felt (s : State) (team n : Nat) (f : CopyQueue → CopyQueue) : (s.updQueue team n f).felt = s.felt := rfl
@[simp] theorem updQueue_priv (s : State) (team n : Nat) (f : CopyQueue → CopyQueue) : (s.updQueue team n f).priv = s.priv := rfl
@[simp] theorem updQueue_chans (s : State) (team n : Nat) (f : CopyQueue → CopyQueue) : (s.updQueue team n f).chans = s.chans := rfl
@[simp] theorem updQueue_hpub (s : State) (team n : Nat) (f : CopyQueue → CopyQueue) : (s.updQueue team n f).hpub = s.hpub := rfl
@[simp] theorem updQueue_ilog (s : State) (team n : Nat) (f : CopyQueue → CopyQueue) : (s.updQueue team n f).ilog = s.ilog := rfl
@[simp] theorem updQueue_outputs (s : State) (team n : Nat) (f : CopyQueue → CopyQueue) : (s.updQueue team n f).outputs = s.outputs := rfl
@[simp] theorem updQueue_fabric (s : State) (team n : Nat) (f : CopyQueue → CopyQueue) : (s.updQueue team n f).fabric = s.fabric := rfl
@[simp] theorem updQueue_power (s : State) (team n : Nat) (f : CopyQueue → CopyQueue) : (s.updQueue team n f).power = s.power := rfl
@[simp] theorem updQueue_nextNum (s : State) (team n : Nat) (f : CopyQueue → CopyQueue) : (s.updQueue team n f).nextNum = s.nextNum := rfl
@[simp] theorem updQueue_freeCtr (s : State) (team n : Nat) (f : CopyQueue → CopyQueue) : (s.updQueue team n f).freeCtr = s.freeCtr := rfl
@[simp] theorem updQueue_subject (s : State) (team n : Nat) (f : CopyQueue → CopyQueue) : (s.updQueue team n f).subject = s.subject := rfl
@[simp] theorem updQueue_agenda (s : State) (team n : Nat) (f : CopyQueue → CopyQueue) : (s.updQueue team n f).agenda = s.agenda := rfl

-- updGang
@[simp] theorem updGang_time (s : State) (id : Nat) (f : Gang → Gang) : (s.updGang id f).time = s.time := rfl
@[simp] theorem updGang_teams (s : State) (id : Nat) (f : Gang → Gang) : (s.updGang id f).teams = s.teams := rfl
@[simp] theorem updGang_launches (s : State) (id : Nat) (f : Gang → Gang) : (s.updGang id f).launches = s.launches := rfl
@[simp] theorem updGang_lqs (s : State) (id : Nat) (f : Gang → Gang) : (s.updGang id f).lqs = s.lqs := rfl
@[simp] theorem updGang_tasks (s : State) (id : Nat) (f : Gang → Gang) : (s.updGang id f).tasks = s.tasks := rfl
@[simp] theorem updGang_regroup (s : State) (id : Nat) (f : Gang → Gang) : (s.updGang id f).regroup = s.regroup := rfl
@[simp] theorem updGang_mem (s : State) (id : Nat) (f : Gang → Gang) : (s.updGang id f).mem = s.mem := rfl
@[simp] theorem updGang_ops (s : State) (id : Nat) (f : Gang → Gang) : (s.updGang id f).ops = s.ops := rfl
@[simp] theorem updGang_streams (s : State) (id : Nat) (f : Gang → Gang) : (s.updGang id f).streams = s.streams := rfl
@[simp] theorem updGang_serges (s : State) (id : Nat) (f : Gang → Gang) : (s.updGang id f).serges = s.serges := rfl
@[simp] theorem updGang_rays (s : State) (id : Nat) (f : Gang → Gang) : (s.updGang id f).rays = s.rays := rfl
@[simp] theorem updGang_tcmds (s : State) (id : Nat) (f : Gang → Gang) : (s.updGang id f).tcmds = s.tcmds := rfl
@[simp] theorem updGang_gauze (s : State) (id : Nat) (f : Gang → Gang) : (s.updGang id f).gauze = s.gauze := rfl
@[simp] theorem updGang_calico (s : State) (id : Nat) (f : Gang → Gang) : (s.updGang id f).calico = s.calico := rfl
@[simp] theorem updGang_coll (s : State) (id : Nat) (f : Gang → Gang) : (s.updGang id f).coll = s.coll := rfl
@[simp] theorem updGang_felt (s : State) (id : Nat) (f : Gang → Gang) : (s.updGang id f).felt = s.felt := rfl
@[simp] theorem updGang_priv (s : State) (id : Nat) (f : Gang → Gang) : (s.updGang id f).priv = s.priv := rfl
@[simp] theorem updGang_chans (s : State) (id : Nat) (f : Gang → Gang) : (s.updGang id f).chans = s.chans := rfl
@[simp] theorem updGang_hpub (s : State) (id : Nat) (f : Gang → Gang) : (s.updGang id f).hpub = s.hpub := rfl
@[simp] theorem updGang_ilog (s : State) (id : Nat) (f : Gang → Gang) : (s.updGang id f).ilog = s.ilog := rfl
@[simp] theorem updGang_outputs (s : State) (id : Nat) (f : Gang → Gang) : (s.updGang id f).outputs = s.outputs := rfl
@[simp] theorem updGang_fabric (s : State) (id : Nat) (f : Gang → Gang) : (s.updGang id f).fabric = s.fabric := rfl
@[simp] theorem updGang_power (s : State) (id : Nat) (f : Gang → Gang) : (s.updGang id f).power = s.power := rfl
@[simp] theorem updGang_nextNum (s : State) (id : Nat) (f : Gang → Gang) : (s.updGang id f).nextNum = s.nextNum := rfl
@[simp] theorem updGang_freeCtr (s : State) (id : Nat) (f : Gang → Gang) : (s.updGang id f).freeCtr = s.freeCtr := rfl
@[simp] theorem updGang_subject (s : State) (id : Nat) (f : Gang → Gang) : (s.updGang id f).subject = s.subject := rfl
@[simp] theorem updGang_agenda (s : State) (id : Nat) (f : Gang → Gang) : (s.updGang id f).agenda = s.agenda := rfl

-- updLaunch
@[simp] theorem updLaunch_time (s : State) (id : Nat) (f : Launch → Launch) : (s.updLaunch id f).time = s.time := rfl
@[simp] theorem updLaunch_teams (s : State) (id : Nat) (f : Launch → Launch) : (s.updLaunch id f).teams = s.teams := rfl
@[simp] theorem updLaunch_gangs (s : State) (id : Nat) (f : Launch → Launch) : (s.updLaunch id f).gangs = s.gangs := rfl
@[simp] theorem updLaunch_lqs (s : State) (id : Nat) (f : Launch → Launch) : (s.updLaunch id f).lqs = s.lqs := rfl
@[simp] theorem updLaunch_tasks (s : State) (id : Nat) (f : Launch → Launch) : (s.updLaunch id f).tasks = s.tasks := rfl
@[simp] theorem updLaunch_regroup (s : State) (id : Nat) (f : Launch → Launch) : (s.updLaunch id f).regroup = s.regroup := rfl
@[simp] theorem updLaunch_mem (s : State) (id : Nat) (f : Launch → Launch) : (s.updLaunch id f).mem = s.mem := rfl
@[simp] theorem updLaunch_ops (s : State) (id : Nat) (f : Launch → Launch) : (s.updLaunch id f).ops = s.ops := rfl
@[simp] theorem updLaunch_streams (s : State) (id : Nat) (f : Launch → Launch) : (s.updLaunch id f).streams = s.streams := rfl
@[simp] theorem updLaunch_serges (s : State) (id : Nat) (f : Launch → Launch) : (s.updLaunch id f).serges = s.serges := rfl
@[simp] theorem updLaunch_rays (s : State) (id : Nat) (f : Launch → Launch) : (s.updLaunch id f).rays = s.rays := rfl
@[simp] theorem updLaunch_tcmds (s : State) (id : Nat) (f : Launch → Launch) : (s.updLaunch id f).tcmds = s.tcmds := rfl
@[simp] theorem updLaunch_gauze (s : State) (id : Nat) (f : Launch → Launch) : (s.updLaunch id f).gauze = s.gauze := rfl
@[simp] theorem updLaunch_calico (s : State) (id : Nat) (f : Launch → Launch) : (s.updLaunch id f).calico = s.calico := rfl
@[simp] theorem updLaunch_coll (s : State) (id : Nat) (f : Launch → Launch) : (s.updLaunch id f).coll = s.coll := rfl
@[simp] theorem updLaunch_felt (s : State) (id : Nat) (f : Launch → Launch) : (s.updLaunch id f).felt = s.felt := rfl
@[simp] theorem updLaunch_priv (s : State) (id : Nat) (f : Launch → Launch) : (s.updLaunch id f).priv = s.priv := rfl
@[simp] theorem updLaunch_chans (s : State) (id : Nat) (f : Launch → Launch) : (s.updLaunch id f).chans = s.chans := rfl
@[simp] theorem updLaunch_hpub (s : State) (id : Nat) (f : Launch → Launch) : (s.updLaunch id f).hpub = s.hpub := rfl
@[simp] theorem updLaunch_ilog (s : State) (id : Nat) (f : Launch → Launch) : (s.updLaunch id f).ilog = s.ilog := rfl
@[simp] theorem updLaunch_outputs (s : State) (id : Nat) (f : Launch → Launch) : (s.updLaunch id f).outputs = s.outputs := rfl
@[simp] theorem updLaunch_fabric (s : State) (id : Nat) (f : Launch → Launch) : (s.updLaunch id f).fabric = s.fabric := rfl
@[simp] theorem updLaunch_power (s : State) (id : Nat) (f : Launch → Launch) : (s.updLaunch id f).power = s.power := rfl
@[simp] theorem updLaunch_nextNum (s : State) (id : Nat) (f : Launch → Launch) : (s.updLaunch id f).nextNum = s.nextNum := rfl
@[simp] theorem updLaunch_freeCtr (s : State) (id : Nat) (f : Launch → Launch) : (s.updLaunch id f).freeCtr = s.freeCtr := rfl
@[simp] theorem updLaunch_subject (s : State) (id : Nat) (f : Launch → Launch) : (s.updLaunch id f).subject = s.subject := rfl
@[simp] theorem updLaunch_agenda (s : State) (id : Nat) (f : Launch → Launch) : (s.updLaunch id f).agenda = s.agenda := rfl

-- updOp
@[simp] theorem updOp_time (s : State) (num : Nat) (f : EngOp → EngOp) : (s.updOp num f).time = s.time := rfl
@[simp] theorem updOp_teams (s : State) (num : Nat) (f : EngOp → EngOp) : (s.updOp num f).teams = s.teams := rfl
@[simp] theorem updOp_gangs (s : State) (num : Nat) (f : EngOp → EngOp) : (s.updOp num f).gangs = s.gangs := rfl
@[simp] theorem updOp_launches (s : State) (num : Nat) (f : EngOp → EngOp) : (s.updOp num f).launches = s.launches := rfl
@[simp] theorem updOp_lqs (s : State) (num : Nat) (f : EngOp → EngOp) : (s.updOp num f).lqs = s.lqs := rfl
@[simp] theorem updOp_tasks (s : State) (num : Nat) (f : EngOp → EngOp) : (s.updOp num f).tasks = s.tasks := rfl
@[simp] theorem updOp_regroup (s : State) (num : Nat) (f : EngOp → EngOp) : (s.updOp num f).regroup = s.regroup := rfl
@[simp] theorem updOp_mem (s : State) (num : Nat) (f : EngOp → EngOp) : (s.updOp num f).mem = s.mem := rfl
@[simp] theorem updOp_streams (s : State) (num : Nat) (f : EngOp → EngOp) : (s.updOp num f).streams = s.streams := rfl
@[simp] theorem updOp_serges (s : State) (num : Nat) (f : EngOp → EngOp) : (s.updOp num f).serges = s.serges := rfl
@[simp] theorem updOp_rays (s : State) (num : Nat) (f : EngOp → EngOp) : (s.updOp num f).rays = s.rays := rfl
@[simp] theorem updOp_tcmds (s : State) (num : Nat) (f : EngOp → EngOp) : (s.updOp num f).tcmds = s.tcmds := rfl
@[simp] theorem updOp_gauze (s : State) (num : Nat) (f : EngOp → EngOp) : (s.updOp num f).gauze = s.gauze := rfl
@[simp] theorem updOp_calico (s : State) (num : Nat) (f : EngOp → EngOp) : (s.updOp num f).calico = s.calico := rfl
@[simp] theorem updOp_coll (s : State) (num : Nat) (f : EngOp → EngOp) : (s.updOp num f).coll = s.coll := rfl
@[simp] theorem updOp_felt (s : State) (num : Nat) (f : EngOp → EngOp) : (s.updOp num f).felt = s.felt := rfl
@[simp] theorem updOp_priv (s : State) (num : Nat) (f : EngOp → EngOp) : (s.updOp num f).priv = s.priv := rfl
@[simp] theorem updOp_chans (s : State) (num : Nat) (f : EngOp → EngOp) : (s.updOp num f).chans = s.chans := rfl
@[simp] theorem updOp_hpub (s : State) (num : Nat) (f : EngOp → EngOp) : (s.updOp num f).hpub = s.hpub := rfl
@[simp] theorem updOp_ilog (s : State) (num : Nat) (f : EngOp → EngOp) : (s.updOp num f).ilog = s.ilog := rfl
@[simp] theorem updOp_outputs (s : State) (num : Nat) (f : EngOp → EngOp) : (s.updOp num f).outputs = s.outputs := rfl
@[simp] theorem updOp_fabric (s : State) (num : Nat) (f : EngOp → EngOp) : (s.updOp num f).fabric = s.fabric := rfl
@[simp] theorem updOp_power (s : State) (num : Nat) (f : EngOp → EngOp) : (s.updOp num f).power = s.power := rfl
@[simp] theorem updOp_nextNum (s : State) (num : Nat) (f : EngOp → EngOp) : (s.updOp num f).nextNum = s.nextNum := rfl
@[simp] theorem updOp_freeCtr (s : State) (num : Nat) (f : EngOp → EngOp) : (s.updOp num f).freeCtr = s.freeCtr := rfl
@[simp] theorem updOp_subject (s : State) (num : Nat) (f : EngOp → EngOp) : (s.updOp num f).subject = s.subject := rfl
@[simp] theorem updOp_agenda (s : State) (num : Nat) (f : EngOp → EngOp) : (s.updOp num f).agenda = s.agenda := rfl

-- updLq
@[simp] theorem updLq_time (s : State) (q : Nat) (f : LaunchQueue → LaunchQueue) : (s.updLq q f).time = s.time := rfl
@[simp] theorem updLq_teams (s : State) (q : Nat) (f : LaunchQueue → LaunchQueue) : (s.updLq q f).teams = s.teams := rfl
@[simp] theorem updLq_gangs (s : State) (q : Nat) (f : LaunchQueue → LaunchQueue) : (s.updLq q f).gangs = s.gangs := rfl
@[simp] theorem updLq_launches (s : State) (q : Nat) (f : LaunchQueue → LaunchQueue) : (s.updLq q f).launches = s.launches := rfl
@[simp] theorem updLq_tasks (s : State) (q : Nat) (f : LaunchQueue → LaunchQueue) : (s.updLq q f).tasks = s.tasks := rfl
@[simp] theorem updLq_regroup (s : State) (q : Nat) (f : LaunchQueue → LaunchQueue) : (s.updLq q f).regroup = s.regroup := rfl
@[simp] theorem updLq_mem (s : State) (q : Nat) (f : LaunchQueue → LaunchQueue) : (s.updLq q f).mem = s.mem := rfl
@[simp] theorem updLq_ops (s : State) (q : Nat) (f : LaunchQueue → LaunchQueue) : (s.updLq q f).ops = s.ops := rfl
@[simp] theorem updLq_streams (s : State) (q : Nat) (f : LaunchQueue → LaunchQueue) : (s.updLq q f).streams = s.streams := rfl
@[simp] theorem updLq_serges (s : State) (q : Nat) (f : LaunchQueue → LaunchQueue) : (s.updLq q f).serges = s.serges := rfl
@[simp] theorem updLq_rays (s : State) (q : Nat) (f : LaunchQueue → LaunchQueue) : (s.updLq q f).rays = s.rays := rfl
@[simp] theorem updLq_tcmds (s : State) (q : Nat) (f : LaunchQueue → LaunchQueue) : (s.updLq q f).tcmds = s.tcmds := rfl
@[simp] theorem updLq_gauze (s : State) (q : Nat) (f : LaunchQueue → LaunchQueue) : (s.updLq q f).gauze = s.gauze := rfl
@[simp] theorem updLq_calico (s : State) (q : Nat) (f : LaunchQueue → LaunchQueue) : (s.updLq q f).calico = s.calico := rfl
@[simp] theorem updLq_coll (s : State) (q : Nat) (f : LaunchQueue → LaunchQueue) : (s.updLq q f).coll = s.coll := rfl
@[simp] theorem updLq_felt (s : State) (q : Nat) (f : LaunchQueue → LaunchQueue) : (s.updLq q f).felt = s.felt := rfl
@[simp] theorem updLq_priv (s : State) (q : Nat) (f : LaunchQueue → LaunchQueue) : (s.updLq q f).priv = s.priv := rfl
@[simp] theorem updLq_chans (s : State) (q : Nat) (f : LaunchQueue → LaunchQueue) : (s.updLq q f).chans = s.chans := rfl
@[simp] theorem updLq_hpub (s : State) (q : Nat) (f : LaunchQueue → LaunchQueue) : (s.updLq q f).hpub = s.hpub := rfl
@[simp] theorem updLq_ilog (s : State) (q : Nat) (f : LaunchQueue → LaunchQueue) : (s.updLq q f).ilog = s.ilog := rfl
@[simp] theorem updLq_outputs (s : State) (q : Nat) (f : LaunchQueue → LaunchQueue) : (s.updLq q f).outputs = s.outputs := rfl
@[simp] theorem updLq_fabric (s : State) (q : Nat) (f : LaunchQueue → LaunchQueue) : (s.updLq q f).fabric = s.fabric := rfl
@[simp] theorem updLq_power (s : State) (q : Nat) (f : LaunchQueue → LaunchQueue) : (s.updLq q f).power = s.power := rfl
@[simp] theorem updLq_nextNum (s : State) (q : Nat) (f : LaunchQueue → LaunchQueue) : (s.updLq q f).nextNum = s.nextNum := rfl
@[simp] theorem updLq_freeCtr (s : State) (q : Nat) (f : LaunchQueue → LaunchQueue) : (s.updLq q f).freeCtr = s.freeCtr := rfl
@[simp] theorem updLq_subject (s : State) (q : Nat) (f : LaunchQueue → LaunchQueue) : (s.updLq q f).subject = s.subject := rfl
@[simp] theorem updLq_agenda (s : State) (q : Nat) (f : LaunchQueue → LaunchQueue) : (s.updLq q f).agenda = s.agenda := rfl

-- updStream
@[simp] theorem updStream_time (s : State) (core q : Nat) (f : StreamQueue → StreamQueue) : (s.updStream core q f).time = s.time := rfl
@[simp] theorem updStream_teams (s : State) (core q : Nat) (f : StreamQueue → StreamQueue) : (s.updStream core q f).teams = s.teams := rfl
@[simp] theorem updStream_gangs (s : State) (core q : Nat) (f : StreamQueue → StreamQueue) : (s.updStream core q f).gangs = s.gangs := rfl
@[simp] theorem updStream_launches (s : State) (core q : Nat) (f : StreamQueue → StreamQueue) : (s.updStream core q f).launches = s.launches := rfl
@[simp] theorem updStream_lqs (s : State) (core q : Nat) (f : StreamQueue → StreamQueue) : (s.updStream core q f).lqs = s.lqs := rfl
@[simp] theorem updStream_tasks (s : State) (core q : Nat) (f : StreamQueue → StreamQueue) : (s.updStream core q f).tasks = s.tasks := rfl
@[simp] theorem updStream_regroup (s : State) (core q : Nat) (f : StreamQueue → StreamQueue) : (s.updStream core q f).regroup = s.regroup := rfl
@[simp] theorem updStream_mem (s : State) (core q : Nat) (f : StreamQueue → StreamQueue) : (s.updStream core q f).mem = s.mem := rfl
@[simp] theorem updStream_ops (s : State) (core q : Nat) (f : StreamQueue → StreamQueue) : (s.updStream core q f).ops = s.ops := rfl
@[simp] theorem updStream_serges (s : State) (core q : Nat) (f : StreamQueue → StreamQueue) : (s.updStream core q f).serges = s.serges := rfl
@[simp] theorem updStream_rays (s : State) (core q : Nat) (f : StreamQueue → StreamQueue) : (s.updStream core q f).rays = s.rays := rfl
@[simp] theorem updStream_tcmds (s : State) (core q : Nat) (f : StreamQueue → StreamQueue) : (s.updStream core q f).tcmds = s.tcmds := rfl
@[simp] theorem updStream_gauze (s : State) (core q : Nat) (f : StreamQueue → StreamQueue) : (s.updStream core q f).gauze = s.gauze := rfl
@[simp] theorem updStream_calico (s : State) (core q : Nat) (f : StreamQueue → StreamQueue) : (s.updStream core q f).calico = s.calico := rfl
@[simp] theorem updStream_coll (s : State) (core q : Nat) (f : StreamQueue → StreamQueue) : (s.updStream core q f).coll = s.coll := rfl
@[simp] theorem updStream_felt (s : State) (core q : Nat) (f : StreamQueue → StreamQueue) : (s.updStream core q f).felt = s.felt := rfl
@[simp] theorem updStream_priv (s : State) (core q : Nat) (f : StreamQueue → StreamQueue) : (s.updStream core q f).priv = s.priv := rfl
@[simp] theorem updStream_chans (s : State) (core q : Nat) (f : StreamQueue → StreamQueue) : (s.updStream core q f).chans = s.chans := rfl
@[simp] theorem updStream_hpub (s : State) (core q : Nat) (f : StreamQueue → StreamQueue) : (s.updStream core q f).hpub = s.hpub := rfl
@[simp] theorem updStream_ilog (s : State) (core q : Nat) (f : StreamQueue → StreamQueue) : (s.updStream core q f).ilog = s.ilog := rfl
@[simp] theorem updStream_outputs (s : State) (core q : Nat) (f : StreamQueue → StreamQueue) : (s.updStream core q f).outputs = s.outputs := rfl
@[simp] theorem updStream_fabric (s : State) (core q : Nat) (f : StreamQueue → StreamQueue) : (s.updStream core q f).fabric = s.fabric := rfl
@[simp] theorem updStream_power (s : State) (core q : Nat) (f : StreamQueue → StreamQueue) : (s.updStream core q f).power = s.power := rfl
@[simp] theorem updStream_nextNum (s : State) (core q : Nat) (f : StreamQueue → StreamQueue) : (s.updStream core q f).nextNum = s.nextNum := rfl
@[simp] theorem updStream_freeCtr (s : State) (core q : Nat) (f : StreamQueue → StreamQueue) : (s.updStream core q f).freeCtr = s.freeCtr := rfl
@[simp] theorem updStream_subject (s : State) (core q : Nat) (f : StreamQueue → StreamQueue) : (s.updStream core q f).subject = s.subject := rfl
@[simp] theorem updStream_agenda (s : State) (core q : Nat) (f : StreamQueue → StreamQueue) : (s.updStream core q f).agenda = s.agenda := rfl

-- updSerge
@[simp] theorem updSerge_time (s : State) (cluster unit : Nat) (f : Serge → Serge) : (s.updSerge cluster unit f).time = s.time := rfl
@[simp] theorem updSerge_teams (s : State) (cluster unit : Nat) (f : Serge → Serge) : (s.updSerge cluster unit f).teams = s.teams := rfl
@[simp] theorem updSerge_gangs (s : State) (cluster unit : Nat) (f : Serge → Serge) : (s.updSerge cluster unit f).gangs = s.gangs := rfl
@[simp] theorem updSerge_launches (s : State) (cluster unit : Nat) (f : Serge → Serge) : (s.updSerge cluster unit f).launches = s.launches := rfl
@[simp] theorem updSerge_lqs (s : State) (cluster unit : Nat) (f : Serge → Serge) : (s.updSerge cluster unit f).lqs = s.lqs := rfl
@[simp] theorem updSerge_tasks (s : State) (cluster unit : Nat) (f : Serge → Serge) : (s.updSerge cluster unit f).tasks = s.tasks := rfl
@[simp] theorem updSerge_regroup (s : State) (cluster unit : Nat) (f : Serge → Serge) : (s.updSerge cluster unit f).regroup = s.regroup := rfl
@[simp] theorem updSerge_mem (s : State) (cluster unit : Nat) (f : Serge → Serge) : (s.updSerge cluster unit f).mem = s.mem := rfl
@[simp] theorem updSerge_ops (s : State) (cluster unit : Nat) (f : Serge → Serge) : (s.updSerge cluster unit f).ops = s.ops := rfl
@[simp] theorem updSerge_streams (s : State) (cluster unit : Nat) (f : Serge → Serge) : (s.updSerge cluster unit f).streams = s.streams := rfl
@[simp] theorem updSerge_rays (s : State) (cluster unit : Nat) (f : Serge → Serge) : (s.updSerge cluster unit f).rays = s.rays := rfl
@[simp] theorem updSerge_tcmds (s : State) (cluster unit : Nat) (f : Serge → Serge) : (s.updSerge cluster unit f).tcmds = s.tcmds := rfl
@[simp] theorem updSerge_gauze (s : State) (cluster unit : Nat) (f : Serge → Serge) : (s.updSerge cluster unit f).gauze = s.gauze := rfl
@[simp] theorem updSerge_calico (s : State) (cluster unit : Nat) (f : Serge → Serge) : (s.updSerge cluster unit f).calico = s.calico := rfl
@[simp] theorem updSerge_coll (s : State) (cluster unit : Nat) (f : Serge → Serge) : (s.updSerge cluster unit f).coll = s.coll := rfl
@[simp] theorem updSerge_felt (s : State) (cluster unit : Nat) (f : Serge → Serge) : (s.updSerge cluster unit f).felt = s.felt := rfl
@[simp] theorem updSerge_priv (s : State) (cluster unit : Nat) (f : Serge → Serge) : (s.updSerge cluster unit f).priv = s.priv := rfl
@[simp] theorem updSerge_chans (s : State) (cluster unit : Nat) (f : Serge → Serge) : (s.updSerge cluster unit f).chans = s.chans := rfl
@[simp] theorem updSerge_hpub (s : State) (cluster unit : Nat) (f : Serge → Serge) : (s.updSerge cluster unit f).hpub = s.hpub := rfl
@[simp] theorem updSerge_ilog (s : State) (cluster unit : Nat) (f : Serge → Serge) : (s.updSerge cluster unit f).ilog = s.ilog := rfl
@[simp] theorem updSerge_outputs (s : State) (cluster unit : Nat) (f : Serge → Serge) : (s.updSerge cluster unit f).outputs = s.outputs := rfl
@[simp] theorem updSerge_fabric (s : State) (cluster unit : Nat) (f : Serge → Serge) : (s.updSerge cluster unit f).fabric = s.fabric := rfl
@[simp] theorem updSerge_power (s : State) (cluster unit : Nat) (f : Serge → Serge) : (s.updSerge cluster unit f).power = s.power := rfl
@[simp] theorem updSerge_nextNum (s : State) (cluster unit : Nat) (f : Serge → Serge) : (s.updSerge cluster unit f).nextNum = s.nextNum := rfl
@[simp] theorem updSerge_freeCtr (s : State) (cluster unit : Nat) (f : Serge → Serge) : (s.updSerge cluster unit f).freeCtr = s.freeCtr := rfl
@[simp] theorem updSerge_subject (s : State) (cluster unit : Nat) (f : Serge → Serge) : (s.updSerge cluster unit f).subject = s.subject := rfl
@[simp] theorem updSerge_agenda (s : State) (cluster unit : Nat) (f : Serge → Serge) : (s.updSerge cluster unit f).agenda = s.agenda := rfl

-- putCalico
@[simp] theorem putCalico_time (s : State) (c : CalicoCmd) : (s.putCalico c).time = s.time := rfl
@[simp] theorem putCalico_teams (s : State) (c : CalicoCmd) : (s.putCalico c).teams = s.teams := rfl
@[simp] theorem putCalico_gangs (s : State) (c : CalicoCmd) : (s.putCalico c).gangs = s.gangs := rfl
@[simp] theorem putCalico_launches (s : State) (c : CalicoCmd) : (s.putCalico c).launches = s.launches := rfl
@[simp] theorem putCalico_lqs (s : State) (c : CalicoCmd) : (s.putCalico c).lqs = s.lqs := rfl
@[simp] theorem putCalico_tasks (s : State) (c : CalicoCmd) : (s.putCalico c).tasks = s.tasks := rfl
@[simp] theorem putCalico_regroup (s : State) (c : CalicoCmd) : (s.putCalico c).regroup = s.regroup := rfl
@[simp] theorem putCalico_mem (s : State) (c : CalicoCmd) : (s.putCalico c).mem = s.mem := rfl
@[simp] theorem putCalico_ops (s : State) (c : CalicoCmd) : (s.putCalico c).ops = s.ops := rfl
@[simp] theorem putCalico_streams (s : State) (c : CalicoCmd) : (s.putCalico c).streams = s.streams := rfl
@[simp] theorem putCalico_serges (s : State) (c : CalicoCmd) : (s.putCalico c).serges = s.serges := rfl
@[simp] theorem putCalico_rays (s : State) (c : CalicoCmd) : (s.putCalico c).rays = s.rays := rfl
@[simp] theorem putCalico_tcmds (s : State) (c : CalicoCmd) : (s.putCalico c).tcmds = s.tcmds := rfl
@[simp] theorem putCalico_gauze (s : State) (c : CalicoCmd) : (s.putCalico c).gauze = s.gauze := rfl
@[simp] theorem putCalico_coll (s : State) (c : CalicoCmd) : (s.putCalico c).coll = s.coll := rfl
@[simp] theorem putCalico_felt (s : State) (c : CalicoCmd) : (s.putCalico c).felt = s.felt := rfl
@[simp] theorem putCalico_priv (s : State) (c : CalicoCmd) : (s.putCalico c).priv = s.priv := rfl
@[simp] theorem putCalico_chans (s : State) (c : CalicoCmd) : (s.putCalico c).chans = s.chans := rfl
@[simp] theorem putCalico_hpub (s : State) (c : CalicoCmd) : (s.putCalico c).hpub = s.hpub := rfl
@[simp] theorem putCalico_ilog (s : State) (c : CalicoCmd) : (s.putCalico c).ilog = s.ilog := rfl
@[simp] theorem putCalico_outputs (s : State) (c : CalicoCmd) : (s.putCalico c).outputs = s.outputs := rfl
@[simp] theorem putCalico_fabric (s : State) (c : CalicoCmd) : (s.putCalico c).fabric = s.fabric := rfl
@[simp] theorem putCalico_power (s : State) (c : CalicoCmd) : (s.putCalico c).power = s.power := rfl
@[simp] theorem putCalico_nextNum (s : State) (c : CalicoCmd) : (s.putCalico c).nextNum = s.nextNum := rfl
@[simp] theorem putCalico_freeCtr (s : State) (c : CalicoCmd) : (s.putCalico c).freeCtr = s.freeCtr := rfl
@[simp] theorem putCalico_subject (s : State) (c : CalicoCmd) : (s.putCalico c).subject = s.subject := rfl
@[simp] theorem putCalico_agenda (s : State) (c : CalicoCmd) : (s.putCalico c).agenda = s.agenda := rfl

-- updOutput
@[simp] theorem updOutput_time (s : State) (o : Nat) (f : Output → Output) : (s.updOutput o f).time = s.time := rfl
@[simp] theorem updOutput_teams (s : State) (o : Nat) (f : Output → Output) : (s.updOutput o f).teams = s.teams := rfl
@[simp] theorem updOutput_gangs (s : State) (o : Nat) (f : Output → Output) : (s.updOutput o f).gangs = s.gangs := rfl
@[simp] theorem updOutput_launches (s : State) (o : Nat) (f : Output → Output) : (s.updOutput o f).launches = s.launches := rfl
@[simp] theorem updOutput_lqs (s : State) (o : Nat) (f : Output → Output) : (s.updOutput o f).lqs = s.lqs := rfl
@[simp] theorem updOutput_tasks (s : State) (o : Nat) (f : Output → Output) : (s.updOutput o f).tasks = s.tasks := rfl
@[simp] theorem updOutput_regroup (s : State) (o : Nat) (f : Output → Output) : (s.updOutput o f).regroup = s.regroup := rfl
@[simp] theorem updOutput_mem (s : State) (o : Nat) (f : Output → Output) : (s.updOutput o f).mem = s.mem := rfl
@[simp] theorem updOutput_ops (s : State) (o : Nat) (f : Output → Output) : (s.updOutput o f).ops = s.ops := rfl
@[simp] theorem updOutput_streams (s : State) (o : Nat) (f : Output → Output) : (s.updOutput o f).streams = s.streams := rfl
@[simp] theorem updOutput_serges (s : State) (o : Nat) (f : Output → Output) : (s.updOutput o f).serges = s.serges := rfl
@[simp] theorem updOutput_rays (s : State) (o : Nat) (f : Output → Output) : (s.updOutput o f).rays = s.rays := rfl
@[simp] theorem updOutput_tcmds (s : State) (o : Nat) (f : Output → Output) : (s.updOutput o f).tcmds = s.tcmds := rfl
@[simp] theorem updOutput_gauze (s : State) (o : Nat) (f : Output → Output) : (s.updOutput o f).gauze = s.gauze := rfl
@[simp] theorem updOutput_calico (s : State) (o : Nat) (f : Output → Output) : (s.updOutput o f).calico = s.calico := rfl
@[simp] theorem updOutput_coll (s : State) (o : Nat) (f : Output → Output) : (s.updOutput o f).coll = s.coll := rfl
@[simp] theorem updOutput_felt (s : State) (o : Nat) (f : Output → Output) : (s.updOutput o f).felt = s.felt := rfl
@[simp] theorem updOutput_priv (s : State) (o : Nat) (f : Output → Output) : (s.updOutput o f).priv = s.priv := rfl
@[simp] theorem updOutput_chans (s : State) (o : Nat) (f : Output → Output) : (s.updOutput o f).chans = s.chans := rfl
@[simp] theorem updOutput_hpub (s : State) (o : Nat) (f : Output → Output) : (s.updOutput o f).hpub = s.hpub := rfl
@[simp] theorem updOutput_ilog (s : State) (o : Nat) (f : Output → Output) : (s.updOutput o f).ilog = s.ilog := rfl
@[simp] theorem updOutput_fabric (s : State) (o : Nat) (f : Output → Output) : (s.updOutput o f).fabric = s.fabric := rfl
@[simp] theorem updOutput_power (s : State) (o : Nat) (f : Output → Output) : (s.updOutput o f).power = s.power := rfl
@[simp] theorem updOutput_nextNum (s : State) (o : Nat) (f : Output → Output) : (s.updOutput o f).nextNum = s.nextNum := rfl
@[simp] theorem updOutput_freeCtr (s : State) (o : Nat) (f : Output → Output) : (s.updOutput o f).freeCtr = s.freeCtr := rfl
@[simp] theorem updOutput_subject (s : State) (o : Nat) (f : Output → Output) : (s.updOutput o f).subject = s.subject := rfl
@[simp] theorem updOutput_agenda (s : State) (o : Nat) (f : Output → Output) : (s.updOutput o f).agenda = s.agenda := rfl

-- updAgent
@[simp] theorem updAgent_time (s : State) (d : Nat) (f : Agent → Agent) : (s.updAgent d f).time = s.time := rfl
@[simp] theorem updAgent_teams (s : State) (d : Nat) (f : Agent → Agent) : (s.updAgent d f).teams = s.teams := rfl
@[simp] theorem updAgent_gangs (s : State) (d : Nat) (f : Agent → Agent) : (s.updAgent d f).gangs = s.gangs := rfl
@[simp] theorem updAgent_launches (s : State) (d : Nat) (f : Agent → Agent) : (s.updAgent d f).launches = s.launches := rfl
@[simp] theorem updAgent_lqs (s : State) (d : Nat) (f : Agent → Agent) : (s.updAgent d f).lqs = s.lqs := rfl
@[simp] theorem updAgent_tasks (s : State) (d : Nat) (f : Agent → Agent) : (s.updAgent d f).tasks = s.tasks := rfl
@[simp] theorem updAgent_regroup (s : State) (d : Nat) (f : Agent → Agent) : (s.updAgent d f).regroup = s.regroup := rfl
@[simp] theorem updAgent_mem (s : State) (d : Nat) (f : Agent → Agent) : (s.updAgent d f).mem = s.mem := rfl
@[simp] theorem updAgent_ops (s : State) (d : Nat) (f : Agent → Agent) : (s.updAgent d f).ops = s.ops := rfl
@[simp] theorem updAgent_streams (s : State) (d : Nat) (f : Agent → Agent) : (s.updAgent d f).streams = s.streams := rfl
@[simp] theorem updAgent_serges (s : State) (d : Nat) (f : Agent → Agent) : (s.updAgent d f).serges = s.serges := rfl
@[simp] theorem updAgent_rays (s : State) (d : Nat) (f : Agent → Agent) : (s.updAgent d f).rays = s.rays := rfl
@[simp] theorem updAgent_tcmds (s : State) (d : Nat) (f : Agent → Agent) : (s.updAgent d f).tcmds = s.tcmds := rfl
@[simp] theorem updAgent_gauze (s : State) (d : Nat) (f : Agent → Agent) : (s.updAgent d f).gauze = s.gauze := rfl
@[simp] theorem updAgent_calico (s : State) (d : Nat) (f : Agent → Agent) : (s.updAgent d f).calico = s.calico := rfl
@[simp] theorem updAgent_coll (s : State) (d : Nat) (f : Agent → Agent) : (s.updAgent d f).coll = s.coll := rfl
@[simp] theorem updAgent_felt (s : State) (d : Nat) (f : Agent → Agent) : (s.updAgent d f).felt = s.felt := rfl
@[simp] theorem updAgent_priv (s : State) (d : Nat) (f : Agent → Agent) : (s.updAgent d f).priv = s.priv := rfl
@[simp] theorem updAgent_chans (s : State) (d : Nat) (f : Agent → Agent) : (s.updAgent d f).chans = s.chans := rfl
@[simp] theorem updAgent_hpub (s : State) (d : Nat) (f : Agent → Agent) : (s.updAgent d f).hpub = s.hpub := rfl
@[simp] theorem updAgent_ilog (s : State) (d : Nat) (f : Agent → Agent) : (s.updAgent d f).ilog = s.ilog := rfl
@[simp] theorem updAgent_outputs (s : State) (d : Nat) (f : Agent → Agent) : (s.updAgent d f).outputs = s.outputs := rfl
@[simp] theorem updAgent_power (s : State) (d : Nat) (f : Agent → Agent) : (s.updAgent d f).power = s.power := rfl
@[simp] theorem updAgent_nextNum (s : State) (d : Nat) (f : Agent → Agent) : (s.updAgent d f).nextNum = s.nextNum := rfl
@[simp] theorem updAgent_freeCtr (s : State) (d : Nat) (f : Agent → Agent) : (s.updAgent d f).freeCtr = s.freeCtr := rfl
@[simp] theorem updAgent_subject (s : State) (d : Nat) (f : Agent → Agent) : (s.updAgent d f).subject = s.subject := rfl
@[simp] theorem updAgent_agenda (s : State) (d : Nat) (f : Agent → Agent) : (s.updAgent d f).agenda = s.agenda := rfl

-- updStack
@[simp] theorem updStack_time (s : State) (k : Nat) (f : Stack → Stack) : (s.updStack k f).time = s.time := rfl
@[simp] theorem updStack_teams (s : State) (k : Nat) (f : Stack → Stack) : (s.updStack k f).teams = s.teams := rfl
@[simp] theorem updStack_gangs (s : State) (k : Nat) (f : Stack → Stack) : (s.updStack k f).gangs = s.gangs := rfl
@[simp] theorem updStack_launches (s : State) (k : Nat) (f : Stack → Stack) : (s.updStack k f).launches = s.launches := rfl
@[simp] theorem updStack_lqs (s : State) (k : Nat) (f : Stack → Stack) : (s.updStack k f).lqs = s.lqs := rfl
@[simp] theorem updStack_tasks (s : State) (k : Nat) (f : Stack → Stack) : (s.updStack k f).tasks = s.tasks := rfl
@[simp] theorem updStack_regroup (s : State) (k : Nat) (f : Stack → Stack) : (s.updStack k f).regroup = s.regroup := rfl
@[simp] theorem updStack_ops (s : State) (k : Nat) (f : Stack → Stack) : (s.updStack k f).ops = s.ops := rfl
@[simp] theorem updStack_streams (s : State) (k : Nat) (f : Stack → Stack) : (s.updStack k f).streams = s.streams := rfl
@[simp] theorem updStack_serges (s : State) (k : Nat) (f : Stack → Stack) : (s.updStack k f).serges = s.serges := rfl
@[simp] theorem updStack_rays (s : State) (k : Nat) (f : Stack → Stack) : (s.updStack k f).rays = s.rays := rfl
@[simp] theorem updStack_tcmds (s : State) (k : Nat) (f : Stack → Stack) : (s.updStack k f).tcmds = s.tcmds := rfl
@[simp] theorem updStack_gauze (s : State) (k : Nat) (f : Stack → Stack) : (s.updStack k f).gauze = s.gauze := rfl
@[simp] theorem updStack_calico (s : State) (k : Nat) (f : Stack → Stack) : (s.updStack k f).calico = s.calico := rfl
@[simp] theorem updStack_coll (s : State) (k : Nat) (f : Stack → Stack) : (s.updStack k f).coll = s.coll := rfl
@[simp] theorem updStack_felt (s : State) (k : Nat) (f : Stack → Stack) : (s.updStack k f).felt = s.felt := rfl
@[simp] theorem updStack_priv (s : State) (k : Nat) (f : Stack → Stack) : (s.updStack k f).priv = s.priv := rfl
@[simp] theorem updStack_chans (s : State) (k : Nat) (f : Stack → Stack) : (s.updStack k f).chans = s.chans := rfl
@[simp] theorem updStack_hpub (s : State) (k : Nat) (f : Stack → Stack) : (s.updStack k f).hpub = s.hpub := rfl
@[simp] theorem updStack_ilog (s : State) (k : Nat) (f : Stack → Stack) : (s.updStack k f).ilog = s.ilog := rfl
@[simp] theorem updStack_outputs (s : State) (k : Nat) (f : Stack → Stack) : (s.updStack k f).outputs = s.outputs := rfl
@[simp] theorem updStack_fabric (s : State) (k : Nat) (f : Stack → Stack) : (s.updStack k f).fabric = s.fabric := rfl
@[simp] theorem updStack_power (s : State) (k : Nat) (f : Stack → Stack) : (s.updStack k f).power = s.power := rfl
@[simp] theorem updStack_nextNum (s : State) (k : Nat) (f : Stack → Stack) : (s.updStack k f).nextNum = s.nextNum := rfl
@[simp] theorem updStack_freeCtr (s : State) (k : Nat) (f : Stack → Stack) : (s.updStack k f).freeCtr = s.freeCtr := rfl
@[simp] theorem updStack_subject (s : State) (k : Nat) (f : Stack → Stack) : (s.updStack k f).subject = s.subject := rfl
@[simp] theorem updStack_agenda (s : State) (k : Nat) (f : Stack → Stack) : (s.updStack k f).agenda = s.agenda := rfl

-- setErrLog
@[simp] theorem setErrLog_time (s : State) (sel : Nat) (v : W64) : (s.setErrLog sel v).time = s.time := rfl
@[simp] theorem setErrLog_teams (s : State) (sel : Nat) (v : W64) : (s.setErrLog sel v).teams = s.teams := rfl
@[simp] theorem setErrLog_gangs (s : State) (sel : Nat) (v : W64) : (s.setErrLog sel v).gangs = s.gangs := rfl
@[simp] theorem setErrLog_launches (s : State) (sel : Nat) (v : W64) : (s.setErrLog sel v).launches = s.launches := rfl
@[simp] theorem setErrLog_lqs (s : State) (sel : Nat) (v : W64) : (s.setErrLog sel v).lqs = s.lqs := rfl
@[simp] theorem setErrLog_tasks (s : State) (sel : Nat) (v : W64) : (s.setErrLog sel v).tasks = s.tasks := rfl
@[simp] theorem setErrLog_regroup (s : State) (sel : Nat) (v : W64) : (s.setErrLog sel v).regroup = s.regroup := rfl
@[simp] theorem setErrLog_ops (s : State) (sel : Nat) (v : W64) : (s.setErrLog sel v).ops = s.ops := rfl
@[simp] theorem setErrLog_streams (s : State) (sel : Nat) (v : W64) : (s.setErrLog sel v).streams = s.streams := rfl
@[simp] theorem setErrLog_serges (s : State) (sel : Nat) (v : W64) : (s.setErrLog sel v).serges = s.serges := rfl
@[simp] theorem setErrLog_rays (s : State) (sel : Nat) (v : W64) : (s.setErrLog sel v).rays = s.rays := rfl
@[simp] theorem setErrLog_tcmds (s : State) (sel : Nat) (v : W64) : (s.setErrLog sel v).tcmds = s.tcmds := rfl
@[simp] theorem setErrLog_gauze (s : State) (sel : Nat) (v : W64) : (s.setErrLog sel v).gauze = s.gauze := rfl
@[simp] theorem setErrLog_calico (s : State) (sel : Nat) (v : W64) : (s.setErrLog sel v).calico = s.calico := rfl
@[simp] theorem setErrLog_coll (s : State) (sel : Nat) (v : W64) : (s.setErrLog sel v).coll = s.coll := rfl
@[simp] theorem setErrLog_felt (s : State) (sel : Nat) (v : W64) : (s.setErrLog sel v).felt = s.felt := rfl
@[simp] theorem setErrLog_priv (s : State) (sel : Nat) (v : W64) : (s.setErrLog sel v).priv = s.priv := rfl
@[simp] theorem setErrLog_chans (s : State) (sel : Nat) (v : W64) : (s.setErrLog sel v).chans = s.chans := rfl
@[simp] theorem setErrLog_hpub (s : State) (sel : Nat) (v : W64) : (s.setErrLog sel v).hpub = s.hpub := rfl
@[simp] theorem setErrLog_ilog (s : State) (sel : Nat) (v : W64) : (s.setErrLog sel v).ilog = s.ilog := rfl
@[simp] theorem setErrLog_outputs (s : State) (sel : Nat) (v : W64) : (s.setErrLog sel v).outputs = s.outputs := rfl
@[simp] theorem setErrLog_fabric (s : State) (sel : Nat) (v : W64) : (s.setErrLog sel v).fabric = s.fabric := rfl
@[simp] theorem setErrLog_power (s : State) (sel : Nat) (v : W64) : (s.setErrLog sel v).power = s.power := rfl
@[simp] theorem setErrLog_nextNum (s : State) (sel : Nat) (v : W64) : (s.setErrLog sel v).nextNum = s.nextNum := rfl
@[simp] theorem setErrLog_freeCtr (s : State) (sel : Nat) (v : W64) : (s.setErrLog sel v).freeCtr = s.freeCtr := rfl
@[simp] theorem setErrLog_subject (s : State) (sel : Nat) (v : W64) : (s.setErrLog sel v).subject = s.subject := rfl
@[simp] theorem setErrLog_agenda (s : State) (sel : Nat) (v : W64) : (s.setErrLog sel v).agenda = s.agenda := rfl

-- setFlips
@[simp] theorem setFlips_time (s : State) (kind unit addr : Nat) (bits : List Nat) : (s.setFlips kind unit addr bits).time = s.time := rfl
@[simp] theorem setFlips_teams (s : State) (kind unit addr : Nat) (bits : List Nat) : (s.setFlips kind unit addr bits).teams = s.teams := rfl
@[simp] theorem setFlips_gangs (s : State) (kind unit addr : Nat) (bits : List Nat) : (s.setFlips kind unit addr bits).gangs = s.gangs := rfl
@[simp] theorem setFlips_launches (s : State) (kind unit addr : Nat) (bits : List Nat) : (s.setFlips kind unit addr bits).launches = s.launches := rfl
@[simp] theorem setFlips_lqs (s : State) (kind unit addr : Nat) (bits : List Nat) : (s.setFlips kind unit addr bits).lqs = s.lqs := rfl
@[simp] theorem setFlips_tasks (s : State) (kind unit addr : Nat) (bits : List Nat) : (s.setFlips kind unit addr bits).tasks = s.tasks := rfl
@[simp] theorem setFlips_regroup (s : State) (kind unit addr : Nat) (bits : List Nat) : (s.setFlips kind unit addr bits).regroup = s.regroup := rfl
@[simp] theorem setFlips_ops (s : State) (kind unit addr : Nat) (bits : List Nat) : (s.setFlips kind unit addr bits).ops = s.ops := rfl
@[simp] theorem setFlips_streams (s : State) (kind unit addr : Nat) (bits : List Nat) : (s.setFlips kind unit addr bits).streams = s.streams := rfl
@[simp] theorem setFlips_serges (s : State) (kind unit addr : Nat) (bits : List Nat) : (s.setFlips kind unit addr bits).serges = s.serges := rfl
@[simp] theorem setFlips_rays (s : State) (kind unit addr : Nat) (bits : List Nat) : (s.setFlips kind unit addr bits).rays = s.rays := rfl
@[simp] theorem setFlips_tcmds (s : State) (kind unit addr : Nat) (bits : List Nat) : (s.setFlips kind unit addr bits).tcmds = s.tcmds := rfl
@[simp] theorem setFlips_gauze (s : State) (kind unit addr : Nat) (bits : List Nat) : (s.setFlips kind unit addr bits).gauze = s.gauze := rfl
@[simp] theorem setFlips_calico (s : State) (kind unit addr : Nat) (bits : List Nat) : (s.setFlips kind unit addr bits).calico = s.calico := rfl
@[simp] theorem setFlips_coll (s : State) (kind unit addr : Nat) (bits : List Nat) : (s.setFlips kind unit addr bits).coll = s.coll := rfl
@[simp] theorem setFlips_felt (s : State) (kind unit addr : Nat) (bits : List Nat) : (s.setFlips kind unit addr bits).felt = s.felt := rfl
@[simp] theorem setFlips_priv (s : State) (kind unit addr : Nat) (bits : List Nat) : (s.setFlips kind unit addr bits).priv = s.priv := rfl
@[simp] theorem setFlips_chans (s : State) (kind unit addr : Nat) (bits : List Nat) : (s.setFlips kind unit addr bits).chans = s.chans := rfl
@[simp] theorem setFlips_hpub (s : State) (kind unit addr : Nat) (bits : List Nat) : (s.setFlips kind unit addr bits).hpub = s.hpub := rfl
@[simp] theorem setFlips_ilog (s : State) (kind unit addr : Nat) (bits : List Nat) : (s.setFlips kind unit addr bits).ilog = s.ilog := rfl
@[simp] theorem setFlips_outputs (s : State) (kind unit addr : Nat) (bits : List Nat) : (s.setFlips kind unit addr bits).outputs = s.outputs := rfl
@[simp] theorem setFlips_fabric (s : State) (kind unit addr : Nat) (bits : List Nat) : (s.setFlips kind unit addr bits).fabric = s.fabric := rfl
@[simp] theorem setFlips_power (s : State) (kind unit addr : Nat) (bits : List Nat) : (s.setFlips kind unit addr bits).power = s.power := rfl
@[simp] theorem setFlips_nextNum (s : State) (kind unit addr : Nat) (bits : List Nat) : (s.setFlips kind unit addr bits).nextNum = s.nextNum := rfl
@[simp] theorem setFlips_freeCtr (s : State) (kind unit addr : Nat) (bits : List Nat) : (s.setFlips kind unit addr bits).freeCtr = s.freeCtr := rfl
@[simp] theorem setFlips_subject (s : State) (kind unit addr : Nat) (bits : List Nat) : (s.setFlips kind unit addr bits).subject = s.subject := rfl
@[simp] theorem setFlips_agenda (s : State) (kind unit addr : Nat) (bits : List Nat) : (s.setFlips kind unit addr bits).agenda = s.agenda := rfl

-- fresh numbers and free values
@[simp] theorem fresh_time (s : State) : s.fresh.2.time = s.time := rfl
@[simp] theorem fresh_teams (s : State) : s.fresh.2.teams = s.teams := rfl
@[simp] theorem fresh_gangs (s : State) : s.fresh.2.gangs = s.gangs := rfl
@[simp] theorem fresh_launches (s : State) : s.fresh.2.launches = s.launches := rfl
@[simp] theorem fresh_lqs (s : State) : s.fresh.2.lqs = s.lqs := rfl
@[simp] theorem fresh_tasks (s : State) : s.fresh.2.tasks = s.tasks := rfl
@[simp] theorem fresh_regroup (s : State) : s.fresh.2.regroup = s.regroup := rfl
@[simp] theorem fresh_mem (s : State) : s.fresh.2.mem = s.mem := rfl
@[simp] theorem fresh_ops (s : State) : s.fresh.2.ops = s.ops := rfl
@[simp] theorem fresh_streams (s : State) : s.fresh.2.streams = s.streams := rfl
@[simp] theorem fresh_serges (s : State) : s.fresh.2.serges = s.serges := rfl
@[simp] theorem fresh_rays (s : State) : s.fresh.2.rays = s.rays := rfl
@[simp] theorem fresh_tcmds (s : State) : s.fresh.2.tcmds = s.tcmds := rfl
@[simp] theorem fresh_gauze (s : State) : s.fresh.2.gauze = s.gauze := rfl
@[simp] theorem fresh_calico (s : State) : s.fresh.2.calico = s.calico := rfl
@[simp] theorem fresh_coll (s : State) : s.fresh.2.coll = s.coll := rfl
@[simp] theorem fresh_felt (s : State) : s.fresh.2.felt = s.felt := rfl
@[simp] theorem fresh_priv (s : State) : s.fresh.2.priv = s.priv := rfl
@[simp] theorem fresh_chans (s : State) : s.fresh.2.chans = s.chans := rfl
@[simp] theorem fresh_hpub (s : State) : s.fresh.2.hpub = s.hpub := rfl
@[simp] theorem fresh_ilog (s : State) : s.fresh.2.ilog = s.ilog := rfl
@[simp] theorem fresh_outputs (s : State) : s.fresh.2.outputs = s.outputs := rfl
@[simp] theorem fresh_fabric (s : State) : s.fresh.2.fabric = s.fabric := rfl
@[simp] theorem fresh_power (s : State) : s.fresh.2.power = s.power := rfl
@[simp] theorem fresh_freeCtr (s : State) : s.fresh.2.freeCtr = s.freeCtr := rfl
@[simp] theorem fresh_subject (s : State) : s.fresh.2.subject = s.subject := rfl
@[simp] theorem fresh_agenda (s : State) : s.fresh.2.agenda = s.agenda := rfl
@[simp] theorem fresh_num (s : State) : s.fresh.1 = s.nextNum := rfl
@[simp] theorem fresh_nextNum (s : State) : s.fresh.2.nextNum = s.nextNum + 1 := rfl
@[simp] theorem freeBytes_time (s : State) (n : Nat) : (s.freeBytes n).2.time = s.time := rfl
@[simp] theorem freeBytes_teams (s : State) (n : Nat) : (s.freeBytes n).2.teams = s.teams := rfl
@[simp] theorem freeBytes_gangs (s : State) (n : Nat) : (s.freeBytes n).2.gangs = s.gangs := rfl
@[simp] theorem freeBytes_launches (s : State) (n : Nat) : (s.freeBytes n).2.launches = s.launches := rfl
@[simp] theorem freeBytes_lqs (s : State) (n : Nat) : (s.freeBytes n).2.lqs = s.lqs := rfl
@[simp] theorem freeBytes_tasks (s : State) (n : Nat) : (s.freeBytes n).2.tasks = s.tasks := rfl
@[simp] theorem freeBytes_regroup (s : State) (n : Nat) : (s.freeBytes n).2.regroup = s.regroup := rfl
@[simp] theorem freeBytes_mem (s : State) (n : Nat) : (s.freeBytes n).2.mem = s.mem := rfl
@[simp] theorem freeBytes_ops (s : State) (n : Nat) : (s.freeBytes n).2.ops = s.ops := rfl
@[simp] theorem freeBytes_streams (s : State) (n : Nat) : (s.freeBytes n).2.streams = s.streams := rfl
@[simp] theorem freeBytes_serges (s : State) (n : Nat) : (s.freeBytes n).2.serges = s.serges := rfl
@[simp] theorem freeBytes_rays (s : State) (n : Nat) : (s.freeBytes n).2.rays = s.rays := rfl
@[simp] theorem freeBytes_tcmds (s : State) (n : Nat) : (s.freeBytes n).2.tcmds = s.tcmds := rfl
@[simp] theorem freeBytes_gauze (s : State) (n : Nat) : (s.freeBytes n).2.gauze = s.gauze := rfl
@[simp] theorem freeBytes_calico (s : State) (n : Nat) : (s.freeBytes n).2.calico = s.calico := rfl
@[simp] theorem freeBytes_coll (s : State) (n : Nat) : (s.freeBytes n).2.coll = s.coll := rfl
@[simp] theorem freeBytes_felt (s : State) (n : Nat) : (s.freeBytes n).2.felt = s.felt := rfl
@[simp] theorem freeBytes_priv (s : State) (n : Nat) : (s.freeBytes n).2.priv = s.priv := rfl
@[simp] theorem freeBytes_chans (s : State) (n : Nat) : (s.freeBytes n).2.chans = s.chans := rfl
@[simp] theorem freeBytes_hpub (s : State) (n : Nat) : (s.freeBytes n).2.hpub = s.hpub := rfl
@[simp] theorem freeBytes_ilog (s : State) (n : Nat) : (s.freeBytes n).2.ilog = s.ilog := rfl
@[simp] theorem freeBytes_outputs (s : State) (n : Nat) : (s.freeBytes n).2.outputs = s.outputs := rfl
@[simp] theorem freeBytes_fabric (s : State) (n : Nat) : (s.freeBytes n).2.fabric = s.fabric := rfl
@[simp] theorem freeBytes_power (s : State) (n : Nat) : (s.freeBytes n).2.power = s.power := rfl
@[simp] theorem freeBytes_nextNum (s : State) (n : Nat) : (s.freeBytes n).2.nextNum = s.nextNum := rfl
@[simp] theorem freeBytes_subject (s : State) (n : Nat) : (s.freeBytes n).2.subject = s.subject := rfl
@[simp] theorem freeBytes_agenda (s : State) (n : Nat) : (s.freeBytes n).2.agenda = s.agenda := rfl
@[simp] theorem freeBytes_freeCtr (s : State) (n : Nat) : (s.freeBytes n).2.freeCtr = s.freeCtr + n := rfl
@[simp] theorem freeBytes_length (s : State) (n : Nat) : (s.freeBytes n).1.length = n := by simp [State.freeBytes]

-- memories under an update of a stack or of what is kept beside the data

@[simp] theorem updStack_mem_home (s : State) (k : Nat) (f : Stack → Stack) : (s.updStack k f).mem.home = s.mem.home := rfl
@[simp] theorem updStack_mem_dram (s : State) (k : Nat) (f : Stack → Stack) : (s.updStack k f).mem.dram = s.mem.dram := rfl
@[simp] theorem updStack_mem_host (s : State) (k : Nat) (f : Stack → Stack) : (s.updStack k f).mem.host = s.mem.host := rfl
@[simp] theorem updStack_mem_hostErr (s : State) (k : Nat) (f : Stack → Stack) : (s.updStack k f).mem.hostErr = s.mem.hostErr := rfl
@[simp] theorem updStack_mem_ckpts (s : State) (k : Nat) (f : Stack → Stack) : (s.updStack k f).mem.ckpts = s.mem.ckpts := rfl
@[simp] theorem updStack_mem_peer (s : State) (k : Nat) (f : Stack → Stack) : (s.updStack k f).mem.peer = s.mem.peer := rfl
@[simp] theorem updStack_mem_flips (s : State) (k : Nat) (f : Stack → Stack) : (s.updStack k f).mem.flips = s.mem.flips := rfl
@[simp] theorem updStack_mem_injects (s : State) (k : Nat) (f : Stack → Stack) : (s.updStack k f).mem.injects = s.mem.injects := rfl
@[simp] theorem updStack_mem_errLogs (s : State) (k : Nat) (f : Stack → Stack) : (s.updStack k f).mem.errLogs = s.mem.errLogs := rfl
@[simp] theorem setErrLog_mem_home (s : State) (sel : Nat) (v : W64) : (s.setErrLog sel v).mem.home = s.mem.home := rfl
@[simp] theorem setErrLog_mem_dram (s : State) (sel : Nat) (v : W64) : (s.setErrLog sel v).mem.dram = s.mem.dram := rfl
@[simp] theorem setErrLog_mem_host (s : State) (sel : Nat) (v : W64) : (s.setErrLog sel v).mem.host = s.mem.host := rfl
@[simp] theorem setErrLog_mem_hostErr (s : State) (sel : Nat) (v : W64) : (s.setErrLog sel v).mem.hostErr = s.mem.hostErr := rfl
@[simp] theorem setErrLog_mem_ckpts (s : State) (sel : Nat) (v : W64) : (s.setErrLog sel v).mem.ckpts = s.mem.ckpts := rfl
@[simp] theorem setErrLog_mem_peer (s : State) (sel : Nat) (v : W64) : (s.setErrLog sel v).mem.peer = s.mem.peer := rfl
@[simp] theorem setErrLog_mem_stackList (s : State) (sel : Nat) (v : W64) : (s.setErrLog sel v).mem.stackList = s.mem.stackList := rfl
@[simp] theorem setErrLog_mem_flips (s : State) (sel : Nat) (v : W64) : (s.setErrLog sel v).mem.flips = s.mem.flips := rfl
@[simp] theorem setErrLog_mem_injects (s : State) (sel : Nat) (v : W64) : (s.setErrLog sel v).mem.injects = s.mem.injects := rfl
@[simp] theorem setFlips_mem_home (s : State) (kind unit addr : Nat) (bits : List Nat) :
    (s.setFlips kind unit addr bits).mem.home = s.mem.home := rfl
@[simp] theorem setFlips_mem_dram (s : State) (kind unit addr : Nat) (bits : List Nat) :
    (s.setFlips kind unit addr bits).mem.dram = s.mem.dram := rfl
@[simp] theorem setFlips_mem_host (s : State) (kind unit addr : Nat) (bits : List Nat) :
    (s.setFlips kind unit addr bits).mem.host = s.mem.host := rfl
@[simp] theorem setFlips_mem_hostErr (s : State) (kind unit addr : Nat) (bits : List Nat) :
    (s.setFlips kind unit addr bits).mem.hostErr = s.mem.hostErr := rfl
@[simp] theorem setFlips_mem_ckpts (s : State) (kind unit addr : Nat) (bits : List Nat) :
    (s.setFlips kind unit addr bits).mem.ckpts = s.mem.ckpts := rfl
@[simp] theorem setFlips_mem_peer (s : State) (kind unit addr : Nat) (bits : List Nat) :
    (s.setFlips kind unit addr bits).mem.peer = s.mem.peer := rfl
@[simp] theorem setFlips_mem_stackList (s : State) (kind unit addr : Nat) (bits : List Nat) :
    (s.setFlips kind unit addr bits).mem.stackList = s.mem.stackList := rfl
@[simp] theorem setFlips_mem_injects (s : State) (kind unit addr : Nat) (bits : List Nat) :
    (s.setFlips kind unit addr bits).mem.injects = s.mem.injects := rfl
@[simp] theorem setFlips_mem_errLogs (s : State) (kind unit addr : Nat) (bits : List Nat) :
    (s.setFlips kind unit addr bits).mem.errLogs = s.mem.errLogs := rfl

end Sys2Proof.Machine
end

