-- ==== Sys2Proof/Laws/Words.lean ====
section
/-! SUPPORT. What issuing a word does, said once for each way a word can act: the lemmas that every claim about a word
cites instead of unfolding `State.runWord`. -/
namespace Sys2Proof.Machine

/-- With nothing wrong in a register file, no register read fails. -/
theorem regTraps_of_not_armed (s : State) (u : Bun) (i : Instr) (h : s.regArmed = false) : s.regTraps u i = (s, []) := by
  simp [State.regTraps, h]

/-- With nothing wrong in a register file, writing registers leaves the error state alone. -/
theorem wroteRegs_of_not_armed (s : State) (team g slot : Nat) (regs : List (Nat × Nat)) (h : s.regArmed = false) :
    s.wroteRegs team g slot regs = s := by
  simp [State.wroteRegs, h]

theorem foldl_wroteRegs (js : List Nat) (s : State) (team g : Nat) (f : Nat → List (Nat × Nat)) (h : s.regArmed = false) :
    js.foldl (fun s j => s.wroteRegs team g j (f j)) s = s := by
  induction js with
  | nil => rfl
  | cons j js ih => simp [List.foldl_cons, wroteRegs_of_not_armed s team g j (f j) h, ih]

/-- A write of no register leaves the error state alone. -/
theorem wroteRegs_nil (s : State) (team g slot : Nat) : s.wroteRegs team g slot [] = s := by
  unfold State.wroteRegs
  split
  · rfl
  · split <;> rfl

theorem foldl_wroteRegs_nil (js : List Nat) (s : State) (team g : Nat) (f : Nat → List (Nat × Nat)) (h : ∀ j, f j = []) :
    js.foldl (fun s j => s.wroteRegs team g j (f j)) s = s := by
  induction js with
  | nil => rfl
  | cons j js ih => simp [List.foldl_cons, h j, wroteRegs_nil, ih]

/-- One trial of a word's meaning (R141). -/
theorem tryBody_succ (i : Instr) (sw : Bool) (body : Bun → State → Effect) (n : Nat) (u : Bun) (s : State) :
    State.tryBody i sw body (n + 1) u s = match body u s with
      | .trap s4 ts =>
        if ts.any fun p => u.live.contains p.1 then s4.trapLanes u ts
        else
          let gone := ts.map (·.1)
          State.tryBody i sw body n (u.without gone) (s4.emptySlots u gone)
      | x => s.applyEffect i sw u x := rfl

/-- A ready word's own meaning decides: its traps, if it raises any, come first. -/
theorem runWord_ready {s : State} {i : Instr} {h : Hdr} {u : Bun} (hr : Ready s i h u) (body : Bun → State → Effect) :
    s.runWord i h body = .next (match body u s with
      | .trap s4 ts =>
        if ts.any fun p => u.live.contains p.1 then s4.trapLanes u ts
        else
          let gone := ts.map (·.1)
          State.tryBody i h.sw body 31 (u.without gone) (s4.emptySlots u gone)
      | x => s.applyEffect i h.sw u x) := by
  obtain ⟨h1, h2, h3, h4⟩ := hr
  simp only [State.runWord, h1, h2, State.issueWord, h3, List.any_nil, List.map_nil, List.isEmpty_nil,
    regTraps_of_not_armed s u i h4, if_true, Bool.false_eq_true, if_false]
  rw [tryBody_succ]

/-- A ready word that has its effect. -/
theorem runWord_done {s t : State} {i : Instr} {h : Hdr} {u : Bun} {moved : List Nat} {body : Bun → State → Effect}
    (hr : Ready s i h u) (hb : body u s = .done t moved) (ht : t.regArmed = false) :
    s.runWord i h body = .next (s.afterWord t i u moved h.sw) := by
  rw [runWord_ready hr, hb]
  simp only [State.applyEffect]
  rw [foldl_wroteRegs _ _ _ _ _ ht]

/-- A ready word that has its effect and ends its run. -/
theorem runWord_doneEnd {s t : State} {i : Instr} {h : Hdr} {u : Bun} {moved : List Nat} {body : Bun → State → Effect}
    (hr : Ready s i h u) (hb : body u s = .doneEnd t moved) :
    s.runWord i h body = .next (s.afterWord t i u moved true) := by
  rw [runWord_ready hr, hb]; rfl

/-- The registers that a word's commit writes at its issue: none of a word of variable latency. -/
def registersWritten (i : Instr) (l : Lane) : List (Nat × Nat) :=
  if isVarlat i then [] else ((l.uses i).filter fun r => !r.read).map fun r => (r.first, r.count)

/-- A ready word that has its effect and names no register to write, whatever it does to the error state. -/
theorem runWord_done_noRegs {s t : State} {i : Instr} {h : Hdr} {u : Bun} {moved : List Nat} {body : Bun → State → Effect}
    (hr : Ready s i h u) (hb : body u s = .done t moved) (hd : ∀ l, registersWritten i l = []) :
    s.runWord i h body = .next (s.afterWord t i u moved h.sw) := by
  rw [runWord_ready hr, hb]
  simp only [State.applyEffect]
  rw [foldl_wroteRegs_nil]
  exact fun j => hd (s.lane u j)

/-- A ready word that acts after its run's commit. -/
theorem runWord_finish {s t : State} {i : Instr} {h : Hdr} {u : Bun} {e : Ending} {body : Bun → State → Effect}
    (hr : Ready s i h u) (hb : body u s = .finish t e) :
    s.runWord i h body = .next (s.afterLast t i u e) := by
  rw [runWord_ready hr, hb]; rfl

/-- A ready word that parks its bundle. -/
theorem runWord_park {s t : State} {i : Instr} {h : Hdr} {u : Bun} {w : Wake} {body : Bun → State → Effect}
    (hr : Ready s i h u) (hb : body u s = .park t w) :
    s.runWord i h body = .next (t.parkWord u w) := by
  rw [runWord_ready hr, hb]; rfl

/-- A ready word that is held at issue. -/
theorem runWord_hold {s t : State} {i : Instr} {h : Hdr} {u : Bun} {body : Bun → State → Effect}
    (hr : Ready s i h u) (hb : body u s = .hold t) :
    s.runWord i h body = .next t := by
  rw [runWord_ready hr, hb]; rfl

/-- A ready word that raises a trap in a live lane. -/
theorem runWord_trap {s t : State} {i : Instr} {h : Hdr} {u : Bun} {ts : List (Nat × TrapInfo)}
    {body : Bun → State → Effect} (hr : Ready s i h u) (hb : body u s = .trap t ts)
    (hl : ts.any (fun p => u.live.contains p.1) = true) :
    s.runWord i h body = .next (t.trapLanes u ts) := by
  rw [runWord_ready hr, hb]; simp only [hl, if_true]

/-- A word that any of the traps of R73, R77 or R128 stops in a live lane. -/
theorem runWord_stopped {s : State} {i : Instr} {h : Hdr} {u : Bun} {body : Bun → State → Effect}
    (h1 : s.subject = .bundle (BundleOf u)) (h2 : s.bun? h (BundleOf u) = some u)
    (h3 : ((s.wordTraps i u).any fun p => u.live.contains p.1) = true) :
    s.runWord i h body = .next (s.trapLanes u (s.wordTraps i u)) := by
  simp only [State.runWord, h1, h2, State.issueWord, h3, if_true]

-- changes of lanes leave the error state alone

@[simp] theorem regArmed_mapLanes (s : State) (u : Bun) (ss : List Nat) (f : Nat → Lane → Lane) :
    (s.mapLanes u ss f).regArmed = s.regArmed := rfl

@[simp] theorem regArmed_updTeam (s : State) (id : Nat) (f : Team → Team) : (s.updTeam id f).regArmed = s.regArmed := rfl

@[simp] theorem regArmed_updGroup (s : State) (team g : Nat) (f : Group → Group) :
    (s.updGroup team g f).regArmed = s.regArmed := rfl

@[simp] theorem regArmed_fresh (s : State) : s.fresh.2.regArmed = s.regArmed := rfl

-- the three shapes of lane words

/-- What `perLane` answers for a ready word. -/
theorem perLane_ready {s : State} {i : Instr} {h : Hdr} {u : Bun} (hr : Ready s i h u) (f : List W32 → Lane → Lane) :
    s.perLane i h f = .next (EachLane s i h u f) :=
  runWord_done hr rfl hr.2.2.2

/-- What `perLaneLate` answers for a ready word. -/
theorem perLaneLate_ready {s : State} {i : Instr} {h : Hdr} {u : Bun} (hr : Ready s i h u) (f : Lane → Outs) :
    s.perLaneLate i h f = .next (EachLaneLate s i h u f) :=
  runWord_done hr rfl hr.2.2.2

/-- What `perLaneFloat` answers for a ready word whose view is not of width 4. -/
theorem perLaneFloat_ready {s : State} {i : Instr} {h : Hdr} {u : Bun} {x : Arith} (hr : Ready s i h u)
    (hv : badFloatView (s.viewsOf u) x = false) (op : Fmt → W64 → W64 → W64 → FRes) :
    s.perLaneFloat i h x op = .next (EachLane s i h u fun vs l => l.floatOp vs x op) := by
  refine runWord_done (t := s.mapLanes u u.act fun _ l => l.floatOp (s.viewsOf u) x op) (moved := []) hr ?_ hr.2.2.2
  simp [hv]

end Sys2Proof.Machine
end

