-- ==== Sys2Proof/Laws/Frames.lean ====
section
/-! SUPPORT. What a word that turns each lane of P by itself leaves as it was: one lemma about `EachLane` and
`EachLaneLate` that every frame cites. -/
namespace Sys2Proof.Machine

-- lists

theorem getElem?_modifyAt {α : Type} (l : List α) (n m : Nat) (f : α → α) :
    (modifyAt l n f)[m]? = if n = m then (l[m]?).map f else l[m]? := by
  induction l generalizing n m with
  | nil => simp [modifyAt]
  | cons x xs ih =>
    cases n <;> cases m <;> simp [modifyAt, ih]

theorem modifyAt_modifyAt {α : Type} (l : List α) (n : Nat) (f g : α → α) :
    modifyAt (modifyAt l n f) n g = modifyAt l n fun x => g (f x) := by
  induction l generalizing n with
  | nil => rfl
  | cons x xs ih => cases n <;> simp [modifyAt, ih]

-- teams and groups

theorem team?_updTeam (s : State) (id id' : Nat) (f : Team → Team) (hf : ∀ t, (f t).id = t.id) :
    (s.updTeam id f).team? id' = (s.team? id').map fun t => if id' = id then f t else t := by
  simp only [State.team?, State.updTeam]
  induction s.teams with
  | nil => rfl
  | cons t ts ih =>
    by_cases ht : t.id = id <;> by_cases ht' : t.id = id' <;>
      simp_all

theorem updGroup_updGroup (s : State) (team g : Nat) (f f' : Group → Group) :
    (s.updGroup team g f).updGroup team g f' = s.updGroup team g fun x => f' (f x) := by
  simp only [State.updGroup, State.updTeam, List.map_map]
  congr 1
  apply List.map_congr_left
  intro t _
  by_cases ht : t.id = team <;> simp [ht, modifyAt_modifyAt]

theorem team?_updGroup (s : State) (team g id : Nat) (f : Group → Group) :
    (s.updGroup team g f).team? id =
      (s.team? id).map fun t => if id = team then { t with groups := modifyAt t.groups g f } else t :=
  team?_updTeam s team id _ fun _ => rfl

theorem group?_updGroup (s : State) (team g id n : Nat) (f : Group → Group) :
    (s.updGroup team g f).group? id n =
      if id = team ∧ g = n then (s.group? id n).map f else s.group? id n := by
  simp only [State.group?, team?_updGroup]
  cases s.team? id with
  | none => simp
  | some t =>
    by_cases h : id = team
    · simp only [h, Option.map_some, if_true, Option.bind_some, getElem?_modifyAt, true_and]
    · simp [h]

-- lanes of a group

theorem lane_of_group? {s : State} {u : Bun} {g : Group} (h : s.group? u.team u.group = some g) (j : Nat) :
    s.lane u j = g.lane j := by
  simp [State.lane, State.lane?, h, Group.lane, List.getD_eq_getElem?_getD]

theorem lane_updSlots (g : Group) (ss : List Nat) (f : Nat → Lane → Lane) (j : Nat) :
    (g.updSlots ss f).lane j = if j < g.lanes.length ∧ j ∈ ss then f j (g.lane j) else g.lane j := by
  simp only [Group.lane, Group.updSlots, List.getD_eq_getElem?_getD, List.getElem?_map, List.getElem?_zipIdx]
  by_cases hj : j < g.lanes.length
  · simp only [List.getElem?_eq_getElem hj, Option.map_some, Option.getD_some, hj, true_and, List.contains_iff_mem,
      Nat.zero_add]
  · simp [hj]

theorem lane_follow (g : Group) (j : Nat) (h : (g.lane j).kind ≠ .helper) :
    (Group.lane { g with lanes := g.follow } j) = g.lane j := by
  have h' := h
  simp only [Group.lane, Group.follow, List.getD_eq_getElem?_getD, List.getElem?_map, List.getElem?_zipIdx] at h ⊢
  by_cases hj : j < g.lanes.length
  · simp only [List.getElem?_eq_getElem hj, Option.map_some, Option.getD_some, Nat.zero_add] at h ⊢
    rw [if_neg h]
  · simp [List.getElem?_eq_none (Nat.le_of_not_lt hj)]

theorem lane_lt_of_live {g : Group} {j : Nat} (h : (g.lane j).kind = .live) : j < g.lanes.length := by
  rcases Nat.lt_or_ge j g.lanes.length with hj | hj
  · exact hj
  · simp [Group.lane, List.getD_eq_getElem?_getD, List.getElem?_eq_none hj, emptyLane] at h

-- what the bundle of a ready word is

/-- The lists of a bundle that `bun?` names. -/
structure BunOf (g : Group) (h : Hdr) (u : Bun) : Prop where
  live_slots : ∀ j ∈ u.live, j ∈ u.slots
  act_slots : ∀ j ∈ u.act, j ∈ u.slots
  live_kind : ∀ j, j ∈ u.live ↔ j ∈ u.slots ∧ (g.lane j).kind = .live
  plive : ∀ j, j ∈ u.plive ↔ j ∈ u.live ∧ j ∈ u.act

theorem bun?_spec {s : State} {h : Hdr} {u : Bun} (hb : s.bun? h (BundleOf u) = some u) :
    ∃ g, s.group? u.team u.group = some g ∧ BunOf g h u := by
  unfold State.bun? at hb
  simp only [BundleOf] at hb
  split at hb
  · cases hb
  next t ht =>
    split at hb
    · cases hb
    next g hg =>
      split at hb
      · cases hb
      next e he =>
        split at hb
        · refine ⟨g, by simp [State.group?, ht, hg], ?_⟩
          injection hb with hb
          rw [← hb]
          constructor
          · intro j hj; exact (List.mem_filter.mp hj).1
          · intro j hj; exact (List.mem_filter.mp hj).1
          · intro j; exact ⟨fun hj => ⟨(List.mem_filter.mp hj).1, by simpa [Group.isLive] using (List.mem_filter.mp hj).2⟩,
              fun ⟨a, b⟩ => List.mem_filter.mpr ⟨a, by simpa [Group.isLive] using b⟩⟩
          · intro j; simp only [List.mem_filter]; exact ⟨fun ⟨a, b⟩ => ⟨a, a.1, b⟩, fun ⟨a, _, b⟩ => ⟨a, b⟩⟩
        · cases hb

-- advancing

theorem loopEnd_not (x : VAddr) (ls : List LoopEntry) (h : ∀ e ∈ ls.head?, e.stop ≠ x) : loopEnd x ls = (ls, none) := by
  cases ls with
  | nil => rfl
  | cons e es => simp [loopEnd, h e (by simp)]

theorem advance_pc_not (l : Lane) (x : VAddr) (h : ∀ e ∈ l.loops.head?, e.stop ≠ x) : l.advance x = { l with pc := x + 8 } := by
  simp [Lane.advance, loopEnd_not x l.loops h]

theorem advance_eq (l : Lane) (x : VAddr) : ∃ p ls, l.advance x = { l with pc := p, loops := ls } := by
  unfold Lane.advance
  split <;> exact ⟨_, _, rfl⟩

/-- Advancing looks at nothing but the loops. -/
theorem advance_congr (l m : Lane) (x : VAddr) (h : l.loops = m.loops) :
    (l.advance x).pc = (m.advance x).pc ∧ (l.advance x).loops = (m.advance x).loops := by
  unfold Lane.advance
  rw [h]
  split <;> simp

/-- A change of a lane that `advance` after it does not see. -/
structure Quiet (f : Lane → Lane) : Prop where
  kind : ∀ l, (f l).kind = l.kind
  loops : ∀ l, (f l).loops = l.loops
  prio : ∀ l, (f l).prio = l.prio

/-- The lanes of a ready bundle's group after a word that goes on within its run, by the change `f` of each lane of P. -/
theorem goesOn_afterWord {s : State} {i : Instr} {h : Hdr} {u : Bun} {f : Nat → Lane → Lane} {s0 : State}
    (hb : s.bun? h (BundleOf u) = some u) (hg : GoesOn s h u) (hf : ∀ j, Quiet (f j))
    (hi : isBranch i = false) :
    let t := s0.afterWord (s.mapLanes u u.act f) i u [] h.sw
    OnlyOwnLanes s t u ∧
      (∀ j ∈ u.plive, ∃ p ls, t.lane u j = { f j (s.lane u j) with pc := p, loops := ls }) ∧
      ∀ j ∈ u.live, j ∉ u.plive → ∃ p ls, t.lane u j = { s.lane u j with pc := p, loops := ls } := by
  obtain ⟨g, hgr, bo⟩ := bun?_spec hb
  obtain ⟨hsw, hloops⟩ := hg
  -- the group after the word
  have key : ∃ F : Group → Group, s0.afterWord (s.mapLanes u u.act f) i u [] h.sw = s.updGroup u.team u.group F ∧
      ∀ j, (g.lane j).kind = .live →
        (F g).lane j = if j ∈ u.slots then (if j ∈ u.act then f j (g.lane j) else g.lane j).advance u.pc else g.lane j := by
    let F : Group → Group := fun x => Group.afterWord ((s0.group? u.team u.group).getD
      { lanes := [], entries := [], hw := 0, age := 0, issued := false, yieldEnd := 0, holds := [], holder := 0 }) (x.updSlots u.act f) i u [] s.time.clock
    have lanes : ∀ j, (g.lane j).kind = .live →
        (F g).lane j = if j ∈ u.slots then (if j ∈ u.act then f j (g.lane j) else g.lane j).advance u.pc else g.lane j := by
      intro j hj
      have hlt := lane_lt_of_live hj
      let G : Group := (g.updSlots u.act f).updSlots (u.slots.filter fun j => !([] : List Nat).contains j) fun _ l => l.advance u.pc
      have hG : G.lane j = if j ∈ u.slots then (if j ∈ u.act then f j (g.lane j) else g.lane j).advance u.pc else g.lane j := by
        simp only [G, lane_updSlots]
        have hs : (u.slots.filter fun j => !([] : List Nat).contains j) = u.slots := by simp
        rw [hs]
        have hl : (g.updSlots u.act f).lanes.length = g.lanes.length := by simp [Group.updSlots]
        rw [hl]
        simp only [hlt, true_and]
        by_cases h1 : j ∈ u.slots
        · simp [h1]
        · have h2 : j ∉ u.act := fun h => h1 (bo.act_slots j h)
          simp [h1, h2]
      have hk : (G.lane j).kind ≠ .helper := by
        rw [hG]
        split
        · obtain ⟨p, ls, e⟩ := advance_eq (if j ∈ u.act then f j (g.lane j) else g.lane j) u.pc
          rw [e]
          split <;> simp [(hf j).kind, hj]
        · simp [hj]
      rw [← hG, ← lane_follow G j hk]
      rfl
    refine ⟨F, ?_, lanes⟩
    have e1 : (s.mapLanes u u.act f).updGroup u.team u.group (fun x => Group.afterWord ((s0.group? u.team u.group).getD
        { lanes := [], entries := [], hw := 0, age := 0, issued := false, yieldEnd := 0, holds := [], holder := 0 }) x i u [] s.time.clock) =
        s.updGroup u.team u.group F := updGroup_updGroup s u.team u.group _ _
    have e2 : (s.updGroup u.team u.group F).group? u.team u.group = some (F g) := by
      simp [group?_updGroup, hgr]
    simp only [State.afterWord]
    have e3 : (s.mapLanes u u.act f).time.clock = s.time.clock := rfl
    have eb : (s.mapLanes u u.act f).group? u.team u.group = some (g.updSlots u.act f) := by
      have : s.mapLanes u u.act f = s.updGroup u.team u.group fun x => x.updSlots u.act f := rfl
      rw [this]
      simp [group?_updGroup, hgr]
    have bl : ∀ j, ((g.updSlots u.act f).lane j).loops = (s.lane u j).loops := by
      intro j
      rw [lane_of_group? hgr, lane_updSlots]
      split <;> simp [(hf j).loops]
    rw [e3, e1, e2, eb]
    simp only [hsw, Bool.false_or, Option.getD_some, bl]
    have live_lane : ∀ j ∈ u.live, (F g).lane j = (if j ∈ u.act then f j (g.lane j) else g.lane j).advance u.pc := by
      intro j hj
      obtain ⟨h1, h2⟩ := (bo.live_kind j).mp hj
      rw [lanes j h2, if_pos h1]
    have pcs : ∀ j ∈ u.live, ((F g).lane j).pc = ((s.lane u j).advance u.pc).pc ∧ ((F g).lane j).prio = (s.lane u j).prio := by
      intro j hj
      rw [live_lane j hj, lane_of_group? hgr]
      have hl : (if j ∈ u.act then f j (g.lane j) else g.lane j).loops = (g.lane j).loops := by
        split <;> simp [(hf j).loops]
      refine ⟨(advance_congr _ _ _ hl).1, ?_⟩
      obtain ⟨p, ls, e⟩ := advance_eq (if j ∈ u.act then f j (g.lane j) else g.lane j) u.pc
      rw [e]
      split <;> simp [(hf j).prio]
    have nodiv : ((isBranch i || u.live.any fun j => (F g).isLive j && (((F g).lane j).pc != u.pc + 8 ||
        (!([] : List Nat).contains j && (s.lane u j).loops.head?.any fun e => e.stop == u.pc))) &&
        (F g).diverged u.live) = false := by
      rw [hi, Bool.false_or]
      rcases hloops with hl | hl
      · have : (u.live.any fun j => (F g).isLive j && (((F g).lane j).pc != u.pc + 8 ||
            (!([] : List Nat).contains j && (s.lane u j).loops.head?.any fun e => e.stop == u.pc))) = false := by
          rw [List.any_eq_false]
          intro j hj
          have h1 : ((F g).lane j).pc = u.pc + 8 := by rw [(pcs j hj).1, advance_pc_not _ _ (hl j hj)]
          have h2 : ((s.lane u j).loops.head?.any fun e => e.stop == u.pc) = false := by
            cases hh : (s.lane u j).loops.head? with
            | none => rfl
            | some e => simpa using hl j hj e (by simp [hh])
          simp [h1, h2]
        rw [this, Bool.false_and]
      · have : (F g).diverged u.live = false := by
          unfold Group.diverged
          split
          · rfl
          next k ks hk =>
            have hmem : ∀ j ∈ k :: ks, j ∈ u.live := fun j hj => (List.mem_filter.mp (hk ▸ hj)).1
            simp only [List.any_eq_false, Bool.or_eq_true, bne_iff_ne, ne_eq, not_or, Decidable.not_not]
            intro j hj
            have hj' := hmem j (List.mem_cons_of_mem _ hj)
            have hk' := hmem k List.mem_cons_self
            have := hl j hj' k hk'
            exact ⟨by rw [(pcs j hj').1, (pcs k hk').1, this.1], by rw [(pcs j hj').2, (pcs k hk').2, this.2]⟩
        rw [this, Bool.and_false]
    rw [nodiv]
    rfl
  obtain ⟨F, e, lanes⟩ := key
  intro t
  have et : t = s.updGroup u.team u.group F := e
  have lane_t : ∀ j, t.lane u j = (F g).lane j := by
    intro j
    have : t.group? u.team u.group = some (F g) := by rw [et]; simp [group?_updGroup, hgr]
    exact lane_of_group? this j
  have lane_s : ∀ j, s.lane u j = g.lane j := lane_of_group? hgr
  refine ⟨⟨by rw [et]; rfl, ?_, ?_, ?_, ?_⟩, ?_, ?_⟩
  · intro id hid
    rw [et, team?_updGroup]
    simp [hid]
  · rw [et, team?_updGroup]
    cases hs : s.team? u.team with
    | none => exact ⟨[], rfl⟩
    | some x => exact ⟨modifyAt x.groups u.group F, by simp⟩
  · intro g' hg'
    rw [et, group?_updGroup]
    simp [Ne.symm hg']
  · intro j hj hk
    rw [lane_s] at hk
    rw [lane_t, lane_s, lanes j hk, if_neg hj]
  · intro j hj
    obtain ⟨h1, h2⟩ := (bo.plive j).mp hj
    obtain ⟨h3, h4⟩ := (bo.live_kind j).mp h1
    rw [lane_t, lane_s, lanes j h4, if_pos h3, if_pos h2]
    exact advance_eq _ _
  · intro j hj hn
    obtain ⟨h3, h4⟩ := (bo.live_kind j).mp hj
    have h2 : j ∉ u.act := fun h => hn ((bo.plive j).mpr ⟨hj, h⟩)
    rw [lane_t, lane_s, lanes j h4, if_pos h3, if_neg h2]
    exact advance_eq _ _

/-- The frame of a word that turns each lane of P by itself. -/
theorem frameWhere_turns {i : Instr} {h : Hdr} {can : State → Bun → Prop} {f : List W32 → Lane → Lane}
    {kept : Lane → Lane → Prop} (hx : ∀ s u, Ready s i h u → can s u → exec i s = .next (EachLane s i h u f))
    (hi : isBranch i = false) (hf : ∀ vs, Quiet (f vs)) (hk : ∀ vs l p ls, kept l { f vs l with pc := p, loops := ls }) :
    FrameWhere i h can kept := by
  intro s t u hr hc hg he
  rw [hx s u hr hc] at he
  injection he with he
  subst he
  obtain ⟨h1, h2, h3⟩ := goesOn_afterWord (f := fun _ l => f (s.viewsOf u) l) (s0 := s) hr.2.1 hg (fun _ => hf _) hi
  refine ⟨h1, fun j hj => ?_, fun j hj hn => ?_⟩
  · obtain ⟨p, ls, e⟩ := h2 j hj
    exact e ▸ hk _ _ _ _
  · obtain ⟨p, ls, e⟩ := h3 j hj hn
    simp only [EachLane]
    rw [e]

theorem frame_turns {i : Instr} {h : Hdr} {f : List W32 → Lane → Lane} {kept : Lane → Lane → Prop}
    (hx : TurnsLanes i h f) (hi : isBranch i = false) (hf : ∀ vs, Quiet (f vs))
    (hk : ∀ vs l p ls, kept l { f vs l with pc := p, loops := ls }) : Frame i h kept :=
  frameWhere_turns (fun s u hr _ => hx s u hr) hi hf hk

/-- The frame of a word of variable latency whose value each lane of P forms by itself. -/
theorem frame_gives {i : Instr} {h : Hdr} {f : Lane → Outs} {rs : List Nat} (hx : GivesResults i h f)
    (hi : isBranch i = false) (hk : ∀ l, ∀ w ∈ (f l).writes, w.1 ∈ rs) : Frame i h (LaneKeptLate rs) := by
  intro s t u hr _ hg he
  rw [hx s u hr] at he
  injection he with he
  subst he
  obtain ⟨h1, h2, h3⟩ := goesOn_afterWord (s := s.fresh.2) (s0 := s) (i := i)
    (f := fun _ l => l.addResult (resultOf s.fresh.1 u.pc (f l))) (h := h) (u := u) hr.2.1 hg
    (fun _ => ⟨fun _ => rfl, fun _ => rfl, fun _ => rfl⟩) hi
  refine ⟨⟨?_, h1.2.1, h1.2.2.1, h1.2.2.2.1, h1.2.2.2.2⟩, fun j hj => ?_, fun j hj hn => ?_⟩
  · exact h1.1
  · obtain ⟨p, ls, e⟩ := h2 j hj
    have e' : (EachLaneLate s i h u f).lane u j =
        { (s.lane u j).addResult (resultOf s.fresh.1 u.pc (f (s.lane u j))) with pc := p, loops := ls } := e
    rw [e']
    exact ⟨_, rfl, hk _⟩
  · obtain ⟨p, ls, e⟩ := h3 j hj hn
    have e' : (EachLaneLate s i h u f).lane u j = { s.lane u j with pc := p, loops := ls } := e
    rw [e']

end Sys2Proof.Machine
end

