-- ==== Sys2Proof/Laws/Memory.lean ====
section
/-! SUPPORT. The laws of the byte stores: a byte reads as it was last written, a write leaves every other byte alone, and
every operation keeps the canonical form. -/
namespace Sys2Proof.Machine

-- reading what was written

theorem Mem.get_nil (a : Nat) : Mem.get [] a = 0 := rfl

/-- A list whose first address is above `a` reads as 0 there. -/
theorem Mem.get_below {m : Mem} {a : Nat} (h : Mem.wf m = true) (hb : ∀ p ∈ List.head? m, a < p.1) : Mem.get m a = 0 := by
  induction m with
  | nil => rfl
  | cons p m ih =>
    obtain ⟨k, v⟩ := p
    have hk : a < k := hb (k, v) rfl
    simp only [Mem.wf, Bool.and_eq_true] at h
    have hm : Mem.get m a = 0 := by
      refine ih h.2 fun q hq => ?_
      cases m with
      | nil => simp at hq
      | cons r m =>
        obtain ⟨b, w⟩ := r
        simp only [List.head?_cons, Option.mem_def, Option.some.injEq] at hq
        subst hq
        have := of_decide_eq_true h.1.2
        exact Nat.lt_trans hk this
    simp [Mem.get, Nat.ne_of_gt hk, hm]

/-- The first address of a list that a byte was written to. -/
theorem Mem.head_set (m : Mem) (a : Nat) (b : Byte) (lo : Nat) (hl : lo < a) (hm : ∀ p ∈ List.head? m, lo < p.1)
    (hw : Mem.wf m = true) : ∀ p ∈ (List.head? (Mem.set m a b)), lo < p.1 := by
  cases m with
  | nil =>
    intro p hp
    simp only [Mem.set] at hp
    split at hp
    · simp at hp
    · simp at hp; subst hp; exact hl
  | cons q m =>
    obtain ⟨k, v⟩ := q
    have hk : lo < k := hm (k, v) rfl
    intro p hp
    simp only [Mem.set] at hp
    repeat' split at hp
    · simp at hp; subst hp; exact hk
    · simp at hp; subst hp; exact hl
    · cases m with
      | nil => simp at hp
      | cons r m =>
        simp only [Mem.wf, Bool.and_eq_true] at hw
        simp at hp; subst hp
        exact Nat.lt_trans hk (of_decide_eq_true hw.1.2)
    · simp at hp; subst hp; exact hl
    · simp at hp; subst hp; exact hk

/-- Canonical lists in terms of their head and tail. -/
theorem Mem.wf_cons {a : Nat} {v : Byte} {m : Mem} :
    Mem.wf ((a, v) :: m) = true ↔ v ≠ 0 ∧ (∀ p ∈ List.head? m, a < p.1) ∧ Mem.wf m = true := by
  cases m with
  | nil => simp [Mem.wf]
  | cons p m => simp [Mem.wf, and_assoc]

/-- A written byte leaves the list canonical. -/
theorem Mem.wf_set {m : Mem} (a : Nat) (b : Byte) (h : Mem.wf m = true) : Mem.wf (Mem.set m a b) = true := by
  induction m with
  | nil => simp only [Mem.set]; split <;> simp_all [Mem.wf]
  | cons p m ih =>
    obtain ⟨k, v⟩ := p
    have h' := Mem.wf_cons.mp h
    simp only [Mem.set]
    repeat' split
    · exact h
    · exact Mem.wf_cons.mpr ⟨‹_›, by simpa using ‹a < k›, h⟩
    · exact h'.2.2
    · rename_i _ hk _
      exact Mem.wf_cons.mpr ⟨‹_›, hk ▸ h'.2.1, h'.2.2⟩
    · exact Mem.wf_cons.mpr ⟨h'.1, Mem.head_set m a b k (by omega) h'.2.1 h'.2.2, ih h'.2.2⟩

/-- A byte reads as it was written; every other byte reads as before. -/
theorem Mem.get_set {m : Mem} (a c : Nat) (b : Byte) (h : Mem.wf m = true) :
    Mem.get (Mem.set m a b) c = if c = a then b else Mem.get m c := by
  induction m with
  | nil => simp only [Mem.set]; repeat' split
           all_goals simp_all [Mem.get]
           all_goals intro; omega
  | cons p m ih =>
    obtain ⟨k, v⟩ := p
    have h' := Mem.wf_cons.mp h
    simp only [Mem.set]
    by_cases h1 : a < k
    · rw [if_pos h1]
      have hz : Mem.get ((k, v) :: m) a = 0 := Mem.get_below h (by simpa using h1)
      by_cases hb : b = 0
      · rw [if_pos hb]; split
        · subst_vars; exact hz
        · rfl
      · rw [if_neg hb]
        by_cases hc : c = a
        · subst hc; simp [Mem.get]
        · simp [Mem.get, hc, Ne.symm hc]
    · rw [if_neg h1]
      by_cases h2 : a = k
      · rw [if_pos h2]; subst h2
        have hz : Mem.get m a = 0 := Mem.get_below h'.2.2 h'.2.1
        by_cases hb : b = 0
        · rw [if_pos hb]
          by_cases hc : c = a
          · subst hc; simp [hz, hb]
          · simp [Mem.get, hc, Ne.symm hc]
        · rw [if_neg hb]
          by_cases hc : c = a
          · subst hc; simp [Mem.get]
          · simp [Mem.get, hc, Ne.symm hc]
      · rw [if_neg h2]
        simp only [Mem.get, ih h'.2.2]
        by_cases hk : k = c
        · subst hk; simp [Ne.symm h2]
        · simp [hk]

/-- Written bytes leave the list canonical. -/
theorem Mem.wf_write {m : Mem} (a : Nat) (bs : List Byte) (h : Mem.wf m = true) : Mem.wf (Mem.write m a bs) = true := by
  induction bs generalizing m a with
  | nil => exact h
  | cons b bs ih => exact ih (a + 1) (Mem.wf_set a b h)

/-- A byte among written bytes reads as it was written; every other byte reads as before. -/
theorem Mem.get_write {m : Mem} (a c : Nat) (bs : List Byte) (h : Mem.wf m = true) :
    Mem.get (Mem.write m a bs) c = if a ≤ c ∧ c < a + bs.length then bs.getD (c - a) 0 else Mem.get m c := by
  induction bs generalizing m a with
  | nil => simp only [Mem.write, List.length_nil, Nat.add_zero]; rw [if_neg (by omega)]
  | cons b bs ih =>
    simp only [Mem.write, ih (a + 1) (Mem.wf_set a b h), Mem.get_set a c b h, List.length_cons]
    by_cases hc : c = a
    · subst hc; rw [if_neg (by omega), if_pos rfl, if_pos (by omega)]; simp
    · by_cases h1 : a + 1 ≤ c ∧ c < a + 1 + bs.length
      · rw [if_pos h1, if_pos (by omega)]
        have : c - a = (c - (a + 1)) + 1 := by omega
        rw [this]; rfl
      · rw [if_neg h1, if_neg hc, if_neg (by omega)]

theorem Mem.wf_flipBit {m : Mem} (a b : Nat) (h : Mem.wf m = true) : Mem.wf (Mem.flipBit m a b) = true := Mem.wf_set _ _ h

-- memories outside the part

theorem FarMem.wf_cons {a : Nat} {v : Byte} {m : FarMem} :
    FarMem.wf ((a, v) :: m) = true ↔ (∀ p ∈ List.head? m, a < p.1) ∧ FarMem.wf m = true := by
  cases m with
  | nil => simp [FarMem.wf]
  | cons p m => simp [FarMem.wf]

theorem FarMem.head_set (m : FarMem) (a : Nat) (b : Byte) (lo : Nat) (hl : lo < a) (hm : ∀ p ∈ List.head? m, lo < p.1) :
    ∀ p ∈ List.head? (FarMem.set m a b), lo < p.1 := by
  cases m with
  | nil => simpa [FarMem.set] using hl
  | cons q m =>
    have hk : lo < q.1 := hm q rfl
    simp only [FarMem.set]
    repeat' split
    all_goals simp_all

theorem FarMem.wf_set {m : FarMem} (a : Nat) (b : Byte) (h : FarMem.wf m = true) : FarMem.wf (FarMem.set m a b) = true := by
  induction m with
  | nil => rfl
  | cons p m ih =>
    obtain ⟨k, v⟩ := p
    have h' := FarMem.wf_cons.mp h
    simp only [FarMem.set]
    repeat' split
    · exact FarMem.wf_cons.mpr ⟨by simpa using ‹a < k›, h⟩
    · rename_i hk
      exact FarMem.wf_cons.mpr ⟨hk ▸ h'.1, h'.2⟩
    · exact FarMem.wf_cons.mpr ⟨FarMem.head_set m a b k (by omega) h'.1, ih h'.2⟩

theorem FarMem.wf_write {m : FarMem} (a : Nat) (bs : List Byte) (h : FarMem.wf m = true) :
    FarMem.wf (FarMem.write m a bs) = true := by
  induction bs generalizing m a with
  | nil => exact h
  | cons b bs ih => exact ih (a + 1) (FarMem.wf_set a b h)

-- the memories of the part

theorem Memory.wf_iff {m : Memory} : m.wf = true ↔ m.home.wf = true ∧ m.dram.wf = true ∧ FarMem.wf m.host = true ∧
    FarMem.wf m.peer = true ∧ ∀ c ∈ m.ckpts, Mem.wf c.2 = true := by
  simp [Memory.wf, and_assoc]

/-- The memories at reset list nothing. -/
theorem reset_memory_wf : State.reset.mem.wf = true := by decide

theorem started_wf {m : Memory} (h : m.wf = true) : m.started.wf = true := by
  simp only [Memory.wf_iff] at *
  exact ⟨h.2.1, h.2.1, h.2.2.1, h.2.2.2.1, h.2.2.2.2⟩

theorem zeroed_wf {m : Memory} (h : m.wf = true) : m.zeroed.wf = true := by
  simp only [Memory.wf_iff] at *
  exact ⟨rfl, rfl, h.2.2.1, h.2.2.2.1, h.2.2.2.2⟩

/-- A change of the home bytes that keeps them canonical. -/
theorem withHome_wf {m : Memory} {x : Mem} (h : m.wf = true) (hx : x.wf = true) : Memory.wf { m with home := x } = true := by
  simp only [Memory.wf_iff] at *
  exact ⟨hx, h.2⟩

/-- A change of the DRAM bytes that keeps them canonical. -/
theorem withDram_wf {m : Memory} {x : Mem} (h : m.wf = true) (hx : x.wf = true) : Memory.wf { m with dram := x } = true := by
  simp only [Memory.wf_iff] at *
  exact ⟨h.1, hx, h.2.2⟩

/-- A write of host memory. -/
theorem withHost_wf {m : Memory} (a : Nat) (bs : List Byte) (h : m.wf = true) :
    Memory.wf { m with host := FarMem.write m.host a bs } = true := by
  simp only [Memory.wf_iff] at *
  exact ⟨h.1, h.2.1, FarMem.wf_write a bs h.2.2.1, h.2.2.2⟩

/-- A write of a peer's memory. -/
theorem withPeer_wf {m : Memory} (a : Nat) (bs : List Byte) (h : m.wf = true) :
    Memory.wf { m with peer := FarMem.write m.peer a bs } = true := by
  simp only [Memory.wf_iff] at *
  exact ⟨h.1, h.2.1, h.2.2.1, FarMem.wf_write a bs h.2.2.2.1, h.2.2.2.2⟩

/-- Poison words keep the form. -/
theorem putPoison_wf {s : State} (k line : Nat) (words : List Nat) (h : s.mem.wf = true) :
    (s.putPoison k line words).mem.wf = true := by
  refine withHome_wf h ?_
  have h0 := (Memory.wf_iff.mp h).1
  generalize s.mem.home = m at h0
  induction words generalizing m with
  | nil => exact h0
  | cons w ws ih => exact ih _ (Mem.wf_write _ _ h0)

/-- Stored flips are no bytes. -/
theorem setFlips_wf {s : State} (kind unit addr : Nat) (bits : List Nat) (h : s.mem.wf = true) :
    (s.setFlips kind unit addr bits).mem.wf = true := h

theorem updStack_wf {s : State} (k : Nat) (f : Stack → Stack) (h : s.mem.wf = true) : (s.updStack k f).mem.wf = true := h

/-- A kept check value is no byte. -/
@[simp] theorem keepCheck_wf (s : State) (k line : Nat) : (s.keepCheck k line).mem.wf = s.mem.wf := by
  unfold State.keepCheck
  dsimp only
  split <;> rfl

/-- A flip of a stored bit keeps the form. -/
theorem flipData_wf {s : State} (kind unit addr d : Nat) (h : s.mem.wf = true) :
    (s.flipData kind unit addr d).mem.wf = true := by
  have h0 := Memory.wf_iff.mp h
  unfold State.flipData
  dsimp only
  split
  · exact h
  · exact h
  · exact h
  · exact h
  · generalize (List.filter _ _) = hits
    clear h0
    induction hits generalizing s with
    | nil => exact h
    | cons c cs ih =>
      have h1 : (s.keepCheck unit c.line).mem.wf = true := (keepCheck_wf s unit c.line).trans h
      exact ih (withHome_wf h1 (Mem.wf_flipBit _ _ (Memory.wf_iff.mp h1).1))
  · have flip {x : State} (hx : x.mem.wf = true) (c : Bool) (a b a' b' : Nat) :
        Memory.wf { x.mem with dram := x.mem.dram.flipBit a b,
                               home := if c then x.mem.home else x.mem.home.flipBit a' b' } = true := by
      have h2 := Memory.wf_iff.mp hx
      refine Memory.wf_iff.mpr ⟨?_, Mem.wf_flipBit _ _ h2.2.1, h2.2.2⟩
      dsimp only
      split
      · exact h2.1
      · exact Mem.wf_flipBit _ _ h2.1
    by_cases hd : (s.stack (unit / 256)).dirty ((addr + d / 8) / 128) = true
    · simp only [hd, if_true]
      exact flip h _ _ _ _ _
    · simp only [hd]
      exact flip ((keepCheck_wf s _ _).trans h) _ _ _ _ _
  · exact h

/-- The placement of one word keeps the form. -/
theorem placeWord_wf {s : State} (w : Nat) (h : s.mem.wf = true) : (s.placeWord w).mem.wf = true :=
  withHome_wf h (Mem.wf_write _ _ (Memory.wf_iff.mp h).1)

end Sys2Proof.Machine
end

