-- ==== Sys2Proof/Laws/Ops.lean ====
section
/-! SUPPORT. What each shared operation of the words can do, said once: which answers `runWord` and `onceWord` give, a
transfer of control, taking a trap and returning from one, the checks before an access or a copy. -/
namespace Sys2Proof.Machine

-- bundles

/-- The bundle that an entry names exists for one word's header just when it does for another's. -/
theorem bun?_other {s : State} {h : Hdr} {b : BundleId} {u : Bun} (h' : Hdr) (e : s.bun? h b = some u) :
    ∃ u', s.bun? h' b = some u' := by
  unfold State.bun? at *
  repeat' split at e
  all_goals first | (simp at e; done) | skip
  simp_all

/-- A word issued by an entry that issues answers a next state. -/
theorem runWord_next {s : State} {i : Instr} {h : Hdr} {b : BundleId} {u : Bun} (h1 : s.subject = .bundle b)
    (h2 : s.bun? h b = some u) (body : Bun → State → Effect) :
    s.runWord i h body = .next (s.issueWord i h.sw u body) := by
  simp only [State.runWord, h1, h2]

/-- A word stops the model only where no entry issues it. -/
theorem runWord_cases (s : State) (i : Instr) (h : Hdr) (body : Bun → State → Effect) :
    (∃ t, s.runWord i h body = .next t) ∨ s.runWord i h body = .fault .noBundle := by
  unfold State.runWord
  split
  · split
    · exact .inl ⟨_, rfl⟩
    · exact .inr rfl
  · exact .inr rfl

-- words that act once

/-- A word that acts once, where its meaning has its effect. -/
theorem onceWord_done {s t : State} {i : Instr} {h : Hdr} {u : Bun} {tm : Team} {j : Nat} {js : List Nat}
    {f : Bun → Team → Nat → Lane → State → Effect} (hr : Ready s i h u) (hp : u.plive = j :: js)
    (ht : s.team? u.team = some tm) (hf : f u tm j (s.lane u j) s = .done t []) (ha : t.regArmed = false) :
    s.onceWord i h f = .next (s.afterWord t i u [] h.sw) := by
  unfold State.onceWord
  exact runWord_done hr (by simp only [hp, ht, hf]) ha

/-- The same, where the word names no register to write. -/
theorem onceWord_done_noRegs {s t : State} {i : Instr} {h : Hdr} {u : Bun} {tm : Team} {j : Nat} {js : List Nat}
    {f : Bun → Team → Nat → Lane → State → Effect} (hr : Ready s i h u) (hp : u.plive = j :: js)
    (ht : s.team? u.team = some tm) (hf : f u tm j (s.lane u j) s = .done t []) (hd : ∀ l, registersWritten i l = []) :
    s.onceWord i h f = .next (s.afterWord t i u [] h.sw) := by
  unfold State.onceWord
  exact runWord_done_noRegs hr (by simp only [hp, ht, hf]) hd

/-- A word that acts once, held at issue. -/
theorem onceWord_hold {s t : State} {i : Instr} {h : Hdr} {u : Bun} {tm : Team} {j : Nat} {js : List Nat}
    {f : Bun → Team → Nat → Lane → State → Effect} (hr : Ready s i h u) (hp : u.plive = j :: js)
    (ht : s.team? u.team = some tm) (hf : f u tm j (s.lane u j) s = .hold t) : s.onceWord i h f = .next t := by
  unfold State.onceWord
  exact runWord_hold hr (by simp only [hp, ht, hf])

/-- With no live lane in P a word that acts once only goes on. -/
theorem onceWord_idle {s : State} {i : Instr} {h : Hdr} {u : Bun} {f : Bun → Team → Nat → Lane → State → Effect}
    (hr : Ready s i h u) (hp : u.plive = []) : s.onceWord i h f = .next (s.afterWord s i u [] h.sw) := by
  unfold State.onceWord
  exact runWord_done hr (by simp only [hp]) hr.2.2.2

-- transfers of control

/-- Lanes that all take one direction dissent from none (R124). -/
theorem dissent_eq_zero {s : State} {u : Bun} {d : Lane → Dest}
    (h : ∀ j ∈ u.live, ∀ k ∈ u.live, (if j ∈ u.act then some (d (s.lane u j)) else none) =
      (if k ∈ u.act then some (d (s.lane u k)) else none)) : dissent (s.directions u d) = 0 := by
  unfold dissent State.directions
  cases hl : u.live with
  | nil => rfl
  | cons a as =>
    simp only [List.map_cons]
    have : ((as.map fun i => (i, if u.act.contains i then some (d (s.lane u i)) else none)).filter
        fun p => p.2 != (if u.act.contains a then some (d (s.lane u a)) else none)) = [] := by
      rw [List.filter_eq_nil_iff]
      intro p hp
      rw [List.mem_map] at hp
      obtain ⟨i, hi, rfl⟩ := hp
      have := h i (by simp [hl, hi]) a (by simp [hl])
      simp only [List.contains_iff_mem, this]
      simp
    rw [this]; rfl

/-- A transfer that no lane dissents from sends the lanes of P on. -/
theorem transfer_ready {s : State} {i : Instr} {h : Hdr} {u : Bun} {uni : Bool} {d : VAddr → Lane → Dest}
    {link : Option Nat} (hr : Ready s i h u)
    (ho : uni = false ∨ ∀ j ∈ u.live, ∀ k ∈ u.live, (if j ∈ u.act then some (d u.pc (s.lane u j)) else none) =
      (if k ∈ u.act then some (d u.pc (s.lane u k)) else none)) :
    s.transfer i h uni d link = .next (s.afterWord (s.mapLanes u u.act fun _ l =>
      let t := d u.pc l
      let l := match link with
        | some r => l.setPair r (codePtr l.prio (u.pc + 8))
        | none => l
      { l with pc := t.1, prio := t.2 }) i u u.act h.sw) := by
  unfold State.transfer
  refine runWord_done (moved := u.act) hr ?_ hr.2.2.2
  have : (uni && dissent (s.directions u (d u.pc)) != 0) = false := by
    rcases ho with ho | ho
    · simp [ho]
    · simp [dissent_eq_zero ho]
  simp only [this]; rfl

-- taking a trap

/-- What taking a trap can do (R353): nothing where the lane does not exist; the team is killed; or the handler is
entered. -/
theorem takeTrap_cases (s : State) (team g slot : Nat) (tr : TrapInfo) (fpc npc : VAddr) (resume : W64) (runend : Bool) :
    let t := s.takeTrap team g slot tr fpc npc resume runend
    t = s ∨ ∃ tm l, s.team? team = some tm ∧ s.lane? team g slot = some l ∧
      let d := s.desc (s.ctxOf tm)
      (l.hnd = true ∧ t = d.1.kill team 2 tr.code tr.opc) ∨
      (l.hnd = false ∧ ptrAddr (descTvec d.2) = 0 ∧ t = d.1.kill team 1 tr.code tr.opc) ∨
      (l.hnd = false ∧ ptrAddr (descTvec d.2) ≠ 0 ∧ tm.spillOk l.tid ((l.spill.toNat : Int) - 160) 160 = false ∧
        t = d.1.kill team 3 tr.code tr.opc) ∨
      (l.hnd = false ∧ ptrAddr (descTvec d.2) ≠ 0 ∧ tm.spillOk l.tid ((l.spill.toNat : Int) - 160) 160 = true ∧
        t = (d.1.stackWrite tm l.tid ((l.spill.toNat : Int) - 160).toNat (frameBytes l tr fpc npc resume runend)).updLane
          team g slot fun l => { l with spill := l.spill - 160, loops := [], hnd := true, pc := ptrAddr (descTvec d.2),
                                        prio := ptrPrio (descTvec d.2) }) := by
  dsimp only
  unfold State.takeTrap
  cases ht : s.team? team with
  | none => exact .inl rfl
  | some tm =>
    cases hl : s.lane? team g slot with
    | none => exact .inl rfl
    | some l =>
      refine .inr ⟨tm, l, rfl, rfl, ?_⟩
      dsimp only
      by_cases h1 : l.hnd = true
      · exact .inl ⟨h1, by rw [if_pos h1]⟩
      · rw [if_neg h1]
        have h1 : l.hnd = false := by simpa using h1
        by_cases h2 : ptrAddr (descTvec (s.desc (s.ctxOf tm)).2) = 0
        · exact .inr (.inl ⟨h1, h2, by rw [if_pos h2]⟩)
        · rw [if_neg h2]
          by_cases h3 : tm.spillOk l.tid ((l.spill.toNat : Int) - 160) 160 = true
          · exact .inr (.inr (.inr ⟨h1, h2, h3, by simp [h3]⟩))
          · have h3 : tm.spillOk l.tid ((l.spill.toNat : Int) - 160) 160 = false := by simpa using h3
            exact .inr (.inr (.inl ⟨h1, h2, h3, by simp [h3]⟩))

/-- What returning from a handler can do in one lane (R355): the frame's lane, or nothing and the team is to be killed. -/
theorem returnLane_cases (s : State) (team g slot : Nat) :
    (s.returnLane team g slot).2 = false ∨ ∃ tm l l', s.team? team = some tm ∧ s.lane? team g slot = some l ∧
      tm.spillOk l.tid l.spill.toNat 160 = true ∧
      frameLane l (s.stackRead tm l.tid l.spill.toNat 160).2.1 = some l' ∧
      s.returnLane team g slot = ((s.stackRead tm l.tid l.spill.toNat 160).1.updLane team g slot fun _ => l', true) := by
  unfold State.returnLane
  split
  · rename_i tm l ht hl
    by_cases h1 : tm.spillOk l.tid l.spill.toNat 160 = true
    · simp only [h1, Bool.not_true, Bool.false_eq_true, if_false]
      split
      · exact .inl rfl
      · split
        · rename_i h3
          exact .inr ⟨tm, l, _, ht, hl, h1, h3, rfl⟩
        · exact .inl rfl
    · simp [h1]
  · exact .inl rfl

-- checks before an access

/-- With no failed check an access goes on. -/
theorem checked_nil (s : State) (k : Unit → Effect) : s.checked [] k = k () := rfl

/-- Granted and aligned addresses fail no check (R239). -/
theorem badAddrs_eq_nil {s : State} {u : Bun} {spc : Space} {n : Nat} {slots : List Nat} {addrs : Lane → List Int}
    (h : Accessible s u spc n slots addrs) : s.badAddrs u spc n slots addrs = [] := by
  unfold State.badAddrs
  cases ht : s.team? u.team with
  | none => rfl
  | some t =>
    have h1 : ∀ j ∈ slots, (addrs (s.lane u j)).find? (fun a => !s.granted t (s.lane u j).tid spc a n) = none := by
      intro j hj; rw [List.find?_eq_none]; intro a ha; simp [(h t ht j hj a ha).1]
    have h2 : ∀ j ∈ slots, (addrs (s.lane u j)).find? (fun a => a % (n : Int) != 0) = none := by
      intro j hj; rw [List.find?_eq_none]; intro a ha; simp [(h t ht j hj a ha).2]
    dsimp only
    split
    · exact List.filterMap_eq_nil_iff.mpr fun j hj => by rw [h2 j hj]
    · exact List.filterMap_eq_nil_iff.mpr fun j hj => by rw [h1 j hj]

/-- A copy whose checks pass in every lane is issued lane by lane where its queue has room (R250, R295). -/
theorem eachLane_issue {s : State} {u : Bun} {n : Nat} {info0 : W64} {checks : List Check} {one : State → Nat → Option State}
    (hp : s.progress u = none) (hc : s.failing u u.act checks = []) (hq : s.queueRoom u.team n u.plive.length = true) :
    s.eachLane u (some n) info0 checks one = s.issueEach u one u.plive := by
  simp [State.eachLane, State.issueRoom, hp, hc, hq]

/-- Lane by lane issue that no full line stops. -/
theorem issueEach_done {u : Bun} {one : State → Nat → Option State} {js : List Nat} {s t : State}
    (h : js.foldlM one s = some t) : s.issueEach u one js = .done t [] := by
  induction js generalizing s with
  | nil => simp at h; simp [State.issueEach, h]
  | cons j js ih =>
    simp only [List.foldlM_cons] at h
    cases h1 : one s j with
    | none => simp [h1] at h
    | some s1 =>
      simp only [h1, Option.bind_eq_bind, Option.bind_some] at h
      simp [State.issueEach, h1, ih h]

end Sys2Proof.Machine
end

