-- ==== Sys2Proof/Laws/PerInstr.lean ====
section
/-! SUPPORT. One law for every instruction: the fields its encoder writes name it again (R54, R57, R66). Which bits of a word
the fields stand at is another matter; here the decoder's choice of instruction is checked against the encoder's. -/
namespace Sys2Proof

/-- Header, opcode and D, A, B, X that the encoder writes for a full-form instruction; `none` for the other words and for
events. -/
def wordFields (i : Instr) : Option (Hdr × (BitVec 4 × BitVec 6) × (Field8 × Field8 × Field8 × BitVec 22)) :=
  match i with
  | .movi h d k => some (h, (0, 0x15), (d, 0, 0, k))
  | .movh h d k => some (h, (0, 0x16), (d, 0, 0, k))
  | _ =>
    match Machine.hdrOf i, opcodeOf i, operandsOf i with
    | some h, some op, some o => some (h, op, o.fields)
    | _, _, _ => none

/-- The full-form word with these fields, before it is packed. -/
def fullWord (h : Hdr) (op : BitVec 4 × BitVec 6) (f : Field8 × Field8 × Field8 × BitVec 22) : FullWord :=
  { s := h.sw, gn := h.gn, gp := h.gp, cls := op.1, idx := op.2, d := f.1, a := f.2.1, b := f.2.2.1, x := f.2.2.2 }

/-- A well-formed instruction is the candidate that its own fields name, and a pair word is the pair word of its own slots. -/
def Laws.Fields.Statement (i : Instr) : Prop :=
  (∀ h op f, wordFields i = some (h, op, f) → i.wf = true → candFull (fullWord h op f) = .ok i)
  ∧ (∀ x y, Machine.pairSlots i = some (x, y) → pairInstr (pairSwitch i) x y = i)

theorem Laws.fieldsFull {i : Instr} {h op f} (hw : wordFields i = some (h, op, f)) (hp : Machine.pairSlots i = none)
    (hc : i.wf = true → candFull (fullWord h op f) = .ok i) : Laws.Fields.Statement i := by
  refine ⟨fun h' op' f' e => ?_, fun x y e => by rw [hp] at e; cases e⟩
  rw [hw] at e; cases e; exact hc

theorem candFull_integer {h : Hdr} {n : BitVec 6} {o : Arith} {i : Instr} (e : candInteger n.toNat h o o.x = some i) :
    candFull (fullWord h (0, n) (Operands.fields (.arith o))) = .ok i := by
  have r := Arith.ofWord_x h.sw h.gn h.gp 0 n o
  simp only [candFull, fullWord, Operands.fields, r, e]; rfl

theorem candFull_bits {h : Hdr} {n : BitVec 6} {o : Arith} {i : Instr} (e : candBits n.toNat h o = some i) :
    candFull (fullWord h (1, n) (Operands.fields (.arith o))) = .ok i := by
  have r := Arith.ofWord_x h.sw h.gn h.gp 1 n o
  simp only [candFull, fullWord, Operands.fields, r, e]; rfl

theorem candFull_float {h : Hdr} {n : BitVec 6} {o : Arith} {i : Instr} (e : candFloat n.toNat h o = some i) :
    candFull (fullWord h (2, n) (Operands.fields (.arith o))) = .ok i := by
  have r := Arith.ofWord_x h.sw h.gn h.gp 2 n o
  simp only [candFull, fullWord, Operands.fields, r, e]; rfl

theorem candFull_fp64 {h : Hdr} {n : BitVec 6} {o : Arith} {i : Instr} (e : candFp64 n.toNat h o = some i) :
    candFull (fullWord h (3, n) (Operands.fields (.arith o))) = .ok i := by
  have r := Arith.ofWord_x h.sw h.gn h.gp 3 n o
  simp only [candFull, fullWord, Operands.fields, r, e]; rfl

theorem candFull_move {h : Hdr} {n : BitVec 6} {o : Arith} {i : Instr} (e : candMove n.toNat h o = some i) :
    candFull (fullWord h (4, n) (Operands.fields (.arith o))) = .ok i := by
  have r := Arith.ofWord_x h.sw h.gn h.gp 4 n o
  simp only [candFull, fullWord, Operands.fields, r, e]; rfl

theorem candFull_control {h : Hdr} {n : BitVec 6} {o : Ctl} {i : Instr} (e : candControl n.toNat h o = some i) :
    candFull (fullWord h (5, n) (Operands.fields (.ctl o))) = .ok i := by
  have r := Ctl.ofWord_x h.sw h.gn h.gp 5 n o
  simp only [candFull, fullWord, Operands.fields, r, e]; rfl

theorem candFull_parallel {h : Hdr} {n : BitVec 6} {o : Arith} {i : Instr} (e : candParallel n.toNat h o = some i) :
    candFull (fullWord h (6, n) (Operands.fields (.arith o))) = .ok i := by
  have r := Arith.ofWord_x h.sw h.gn h.gp 6 n o
  simp only [candFull, fullWord, Operands.fields, r, e]; rfl

theorem candFull_matrix {h : Hdr} {n : BitVec 6} {o : Mat} {i : Instr} (e : candMatrix n.toNat h o = some i) :
    candFull (fullWord h (7, n) (Operands.fields (.mat o))) = .ok i := by
  have r := Mat.ofWord_x h.sw h.gn h.gp 7 n o
  simp only [candFull, fullWord, Operands.fields, r, e]; rfl

theorem candFull_local {h : Hdr} {n : BitVec 6} {o : Loc} {i : Instr} (e : candLocal n.toNat h o = some i) :
    candFull (fullWord h (8, n) (Operands.fields (.loc o))) = .ok i := by
  have r := Loc.ofWord_x h.sw h.gn h.gp 8 n o
  simp only [candFull, fullWord, Operands.fields, r, e]; rfl

theorem candFull_main {h : Hdr} {n : BitVec 6} {o : Main} {i : Instr} (e : candMain n.toNat h o = some i) :
    candFull (fullWord h (9, n) (Operands.fields (.main o))) = .ok i := by
  have r := Main.ofWord_x h.sw h.gn h.gp 9 n o
  simp only [candFull, fullWord, Operands.fields, r, e]; rfl

theorem candFull_engine {h : Hdr} {n : BitVec 6} {o : Eng} {i : Instr} (e : candEngine n.toNat h o = some i) :
    candFull (fullWord h (10, n) (Operands.fields (.eng o))) = .ok i := by
  have r := Eng.ofWord_x h.sw h.gn h.gp 10 n o
  simp only [candFull, fullWord, Operands.fields, r, e]; rfl

theorem candFull_unit {h : Hdr} {n : BitVec 6} {o : Unt} {i : Instr} (e : candUnit n.toNat h o = some i) :
    candFull (fullWord h (11, n) (Operands.fields (.unt o))) = .ok i := by
  have r := Unt.ofWord_x h.sw h.gn h.gp 11 n o
  simp only [candFull, fullWord, Operands.fields, r, e]; rfl

theorem candFull_system {h : Hdr} {n : BitVec 6} {o : Sys} {i : Instr} (e : candSystem n.toNat h o = some i) :
    candFull (fullWord h (12, n) (Operands.fields (.sys o))) = .ok i := by
  have r := Sys.ofWord_x h.sw h.gn h.gp 12 n o
  simp only [candFull, fullWord, Operands.fields, r, e]; rfl

theorem Laws.fieldsPair {i : Instr} {x y : PairSlot} (hw : wordFields i = none) (hp : Machine.pairSlots i = some (x, y))
    (hc : pairInstr (pairSwitch i) x y = i) : Laws.Fields.Statement i := by
  refine ⟨fun h op f e => (by rw [hw] at e; cases e), fun x' y' e => ?_⟩
  rw [hp] at e; cases e; exact hc

theorem Laws.fieldsOther {i : Instr} (hw : wordFields i = none) (hp : Machine.pairSlots i = none) : Laws.Fields.Statement i :=
  ⟨fun h op f e => (by rw [hw] at e; cases e), fun x y e => (by rw [hp] at e; cases e)⟩

/-! What `wf` says of the forms that share an index. -/

theorem Instr.wf_parts {i : Instr} (w : i.wf = true) :
    (∀ r x, Machine.arithRow i = some (r, x) → Machine.rowOk r x = true) ∧ Machine.ctlOk i = true ∧ Machine.locOk i = true
      ∧ Machine.mainOk i = true ∧ Machine.engOk i = true ∧ Machine.sysOk i = true := by
  simp only [Instr.wf, Machine.formOk, Bool.and_eq_true] at w
  obtain ⟨⟨⟨⟨⟨⟨⟨⟨⟨⟨hh, hr⟩, hc⟩, _⟩, hl⟩, hm⟩, he⟩, _⟩, hs⟩, _⟩, _⟩ := w
  refine ⟨fun r x e => ?_, hc, hl, hm, he, hs⟩
  rw [e] at hr
  simp only [Bool.and_eq_true] at hr
  exact hr.1

/-- A row without the view TYPE bounds the sub-operation field itself. -/
theorem Instr.wf_sub {i : Instr} {r : Machine.Row} {x : Arith} (w : i.wf = true) (e : Machine.arithRow i = some (r, x))
    (hv : r.tys.contains .vw = false) : r.subLo ≤ x.sub.toNat ∧ x.sub.toNat ≤ r.subHi := by
  have h := (Instr.wf_parts w).1 r x e
  simp only [Machine.rowOk, Bool.and_eq_true, decide_eq_true_eq] at h
  obtain ⟨⟨⟨⟨⟨⟨⟨⟨⟨ht, _⟩, _⟩, _⟩, hlo, hhi⟩, _⟩, _⟩, _⟩, _⟩, _⟩ := h
  have : Machine.subOp x = x.sub.toNat := by
    unfold Machine.subOp
    split
    · rename_i hx; rw [hx] at ht; rw [hv] at ht; cases ht
    · rfl
  rw [← this]; exact ⟨hlo, hhi⟩

/-- The immediate bit of a row that fixes it. -/
theorem Instr.wf_imm {i : Instr} {r : Machine.Row} {x : Arith} (w : i.wf = true) (e : Machine.arithRow i = some (r, x)) :
    (r.imm = .no → x.i = false) ∧ (r.imm = .must → x.i = true) := by
  have h := (Instr.wf_parts w).1 r x e
  simp only [Machine.rowOk, Bool.and_eq_true] at h
  obtain ⟨⟨⟨⟨⟨⟨⟨⟨⟨_, hi⟩, _⟩, _⟩, _⟩, _⟩, _⟩, _⟩, _⟩, _⟩ := h
  constructor <;> intro he <;> rw [he] at hi <;> simpa using hi

theorem subIs {k : Nat} {v : BitVec 4} (lo : k ≤ v.toNat) (hi : v.toNat ≤ k) : (v == BitVec.ofNat 4 k) = true := by
  have : v = BitVec.ofNat 4 k := by
    apply BitVec.eq_of_toNat_eq
    have := v.isLt
    rw [BitVec.toNat_ofNat, Nat.mod_eq_of_lt (by omega)]; omega
  rw [this]; exact beq_self_eq_true _

theorem subNot {v c : BitVec 4} {n : Nat} (hi : v.toNat ≤ n) (hn : n < c.toNat) : ¬ (v == c) = true := by
  intro e; rw [eq_of_beq e] at hi; omega

theorem subIsnt {v c : BitVec 4} {n : Nat} (lo : n ≤ v.toNat) (hn : c.toNat < n) : ¬ (v == c) = true := by
  intro e; rw [eq_of_beq e] at lo; omega

theorem bit5 {v c : BitVec 12} (e : v &&& 0xFE0 = c) : v.getLsbD 5 = c.getLsbD 5 := by
  rw [← e]; simp

namespace Laws.Fields

theorem add (h : Hdr) (x : Arith) : Statement (.add h x) :=
  fieldsFull (h := h) (op := (0x0, 0x01)) (f := Operands.fields (.arith x)) (by delta wordFields; rfl)
    (by delta Machine.pairSlots; rfl) fun _ =>
    candFull_integer rfl
theorem sub (h : Hdr) (x : Arith) : Statement (.sub h x) :=
  fieldsFull (h := h) (op := (0x0, 0x02)) (f := Operands.fields (.arith x)) (by delta wordFields; rfl)
    (by delta Machine.pairSlots; rfl) fun _ =>
    candFull_integer rfl
theorem addc (h : Hdr) (x : Arith) : Statement (.addc h x) :=
  fieldsFull (h := h) (op := (0x0, 0x03)) (f := Operands.fields (.arith x)) (by delta wordFields; rfl)
    (by delta Machine.pairSlots; rfl) fun _ =>
    candFull_integer rfl
theorem subb (h : Hdr) (x : Arith) : Statement (.subb h x) :=
  fieldsFull (h := h) (op := (0x0, 0x04)) (f := Operands.fields (.arith x)) (by delta wordFields; rfl)
    (by delta Machine.pairSlots; rfl) fun _ =>
    candFull_integer rfl
theorem mul (h : Hdr) (x : Arith) : Statement (.mul h x) :=
  fieldsFull (h := h) (op := (0x0, 0x05)) (f := Operands.fields (.arith x)) (by delta wordFields; rfl)
    (by delta Machine.pairSlots; rfl) fun _ =>
    candFull_integer rfl
theorem mulh (h : Hdr) (x : Arith) : Statement (.mulh h x) :=
  fieldsFull (h := h) (op := (0x0, 0x06)) (f := Operands.fields (.arith x)) (by delta wordFields; rfl)
    (by delta Machine.pairSlots; rfl) fun _ =>
    candFull_integer rfl
theorem mad (h : Hdr) (x : Arith) : Statement (.mad h x) :=
  fieldsFull (h := h) (op := (0x0, 0x07)) (f := Operands.fields (.arith x)) (by delta wordFields; rfl)
    (by delta Machine.pairSlots; rfl) fun _ =>
    candFull_integer rfl
theorem madw (h : Hdr) (x : Arith) : Statement (.madw h x) :=
  fieldsFull (h := h) (op := (0x0, 0x08)) (f := Operands.fields (.arith x)) (by delta wordFields; rfl)
    (by delta Machine.pairSlots; rfl) fun _ =>
    candFull_integer rfl
theorem div_ (h : Hdr) (x : Arith) : Statement (.div_ h x) :=
  fieldsFull (h := h) (op := (0x0, 0x09)) (f := Operands.fields (.arith x)) (by delta wordFields; rfl)
    (by delta Machine.pairSlots; rfl) fun _ =>
    candFull_integer rfl
theorem rem_ (h : Hdr) (x : Arith) : Statement (.rem_ h x) :=
  fieldsFull (h := h) (op := (0x0, 0x0A)) (f := Operands.fields (.arith x)) (by delta wordFields; rfl)
    (by delta Machine.pairSlots; rfl) fun _ =>
    candFull_integer rfl
theorem min_ (h : Hdr) (x : Arith) : Statement (.min_ h x) :=
  fieldsFull (h := h) (op := (0x0, 0x0B)) (f := Operands.fields (.arith x)) (by delta wordFields; rfl)
    (by delta Machine.pairSlots; rfl) fun _ =>
    candFull_integer rfl
theorem max_ (h : Hdr) (x : Arith) : Statement (.max_ h x) :=
  fieldsFull (h := h) (op := (0x0, 0x0C)) (f := Operands.fields (.arith x)) (by delta wordFields; rfl)
    (by delta Machine.pairSlots; rfl) fun _ =>
    candFull_integer rfl
theorem abs (h : Hdr) (x : Arith) : Statement (.abs h x) :=
  fieldsFull (h := h) (op := (0x0, 0x0D)) (f := Operands.fields (.arith x)) (by delta wordFields; rfl)
    (by delta Machine.pairSlots; rfl) fun _ =>
    candFull_integer rfl
theorem neg (h : Hdr) (x : Arith) : Statement (.neg h x) :=
  fieldsFull (h := h) (op := (0x0, 0x0E)) (f := Operands.fields (.arith x)) (by delta wordFields; rfl)
    (by delta Machine.pairSlots; rfl) fun _ =>
    candFull_integer rfl
theorem adds (h : Hdr) (x : Arith) : Statement (.adds h x) :=
  fieldsFull (h := h) (op := (0x0, 0x0F)) (f := Operands.fields (.arith x)) (by delta wordFields; rfl)
    (by delta Machine.pairSlots; rfl) fun _ =>
    candFull_integer rfl
theorem subs (h : Hdr) (x : Arith) : Statement (.subs h x) :=
  fieldsFull (h := h) (op := (0x0, 0x10)) (f := Operands.fields (.arith x)) (by delta wordFields; rfl)
    (by delta Machine.pairSlots; rfl) fun _ =>
    candFull_integer rfl
theorem clamp (h : Hdr) (x : Arith) : Statement (.clamp h x) :=
  fieldsFull (h := h) (op := (0x0, 0x11)) (f := Operands.fields (.arith x)) (by delta wordFields; rfl)
    (by delta Machine.pairSlots; rfl) fun _ =>
    candFull_integer rfl
theorem lea (h : Hdr) (x : Arith) : Statement (.lea h x) :=
  fieldsFull (h := h) (op := (0x0, 0x12)) (f := Operands.fields (.arith x)) (by delta wordFields; rfl)
    (by delta Machine.pairSlots; rfl) fun _ =>
    candFull_integer rfl
theorem cmp (h : Hdr) (x : Arith) : Statement (.cmp h x) :=
  fieldsFull (h := h) (op := (0x0, 0x13)) (f := Operands.fields (.arith x)) (by delta wordFields; rfl)
    (by delta Machine.pairSlots; rfl) fun _ =>
    candFull_integer rfl
theorem sel (h : Hdr) (x : Arith) : Statement (.sel h x) :=
  fieldsFull (h := h) (op := (0x0, 0x14)) (f := Operands.fields (.arith x)) (by delta wordFields; rfl)
    (by delta Machine.pairSlots; rfl) fun _ =>
    candFull_integer rfl
theorem movi (h : Hdr) (d : Field8) (k : BitVec 22) : Statement (.movi h d k) :=
  fieldsFull (h := h) (op := (0, 0x15)) (f := (d, 0, 0, k)) (by delta wordFields; rfl)
    (by delta Machine.pairSlots; rfl) fun _ => rfl
theorem movh (h : Hdr) (d : Field8) (k : BitVec 22) : Statement (.movh h d k) :=
  fieldsFull (h := h) (op := (0, 0x16)) (f := (d, 0, 0, k)) (by delta wordFields; rfl)
    (by delta Machine.pairSlots; rfl) fun _ => rfl
theorem dp4 (h : Hdr) (x : Arith) : Statement (.dp4 h x) :=
  fieldsFull (h := h) (op := (0x0, 0x17)) (f := Operands.fields (.arith x)) (by delta wordFields; rfl)
    (by delta Machine.pairSlots; rfl) fun _ =>
    candFull_integer rfl
theorem and_ (h : Hdr) (x : Arith) : Statement (.and_ h x) :=
  fieldsFull (h := h) (op := (0x1, 0x00)) (f := Operands.fields (.arith x)) (by delta wordFields; rfl)
    (by delta Machine.pairSlots; rfl) fun _ =>
    candFull_bits rfl
theorem or_ (h : Hdr) (x : Arith) : Statement (.or_ h x) :=
  fieldsFull (h := h) (op := (0x1, 0x01)) (f := Operands.fields (.arith x)) (by delta wordFields; rfl)
    (by delta Machine.pairSlots; rfl) fun _ =>
    candFull_bits rfl
theorem xor_ (h : Hdr) (x : Arith) : Statement (.xor_ h x) :=
  fieldsFull (h := h) (op := (0x1, 0x02)) (f := Operands.fields (.arith x)) (by delta wordFields; rfl)
    (by delta Machine.pairSlots; rfl) fun _ =>
    candFull_bits rfl
theorem andn (h : Hdr) (x : Arith) : Statement (.andn h x) :=
  fieldsFull (h := h) (op := (0x1, 0x03)) (f := Operands.fields (.arith x)) (by delta wordFields; rfl)
    (by delta Machine.pairSlots; rfl) fun _ =>
    candFull_bits rfl
theorem not_ (h : Hdr) (x : Arith) : Statement (.not_ h x) :=
  fieldsFull (h := h) (op := (0x1, 0x04)) (f := Operands.fields (.arith x)) (by delta wordFields; rfl)
    (by delta Machine.pairSlots; rfl) fun _ =>
    candFull_bits rfl
theorem shl (h : Hdr) (x : Arith) : Statement (.shl h x) :=
  fieldsFull (h := h) (op := (0x1, 0x05)) (f := Operands.fields (.arith x)) (by delta wordFields; rfl)
    (by delta Machine.pairSlots; rfl) fun _ =>
    candFull_bits rfl
theorem shr (h : Hdr) (x : Arith) : Statement (.shr h x) :=
  fieldsFull (h := h) (op := (0x1, 0x06)) (f := Operands.fields (.arith x)) (by delta wordFields; rfl)
    (by delta Machine.pairSlots; rfl) fun _ =>
    candFull_bits rfl
theorem sar (h : Hdr) (x : Arith) : Statement (.sar h x) :=
  fieldsFull (h := h) (op := (0x1, 0x07)) (f := Operands.fields (.arith x)) (by delta wordFields; rfl)
    (by delta Machine.pairSlots; rfl) fun _ =>
    candFull_bits rfl
theorem rotl (h : Hdr) (x : Arith) : Statement (.rotl h x) :=
  fieldsFull (h := h) (op := (0x1, 0x08)) (f := Operands.fields (.arith x)) (by delta wordFields; rfl)
    (by delta Machine.pairSlots; rfl) fun _ =>
    candFull_bits rfl
theorem bfx (h : Hdr) (x : Arith) : Statement (.bfx h x) :=
  fieldsFull (h := h) (op := (0x1, 0x09)) (f := Operands.fields (.arith x)) (by delta wordFields; rfl)
    (by delta Machine.pairSlots; rfl) fun _ =>
    candFull_bits rfl
theorem bfi (h : Hdr) (x : Arith) : Statement (.bfi h x) :=
  fieldsFull (h := h) (op := (0x1, 0x0A)) (f := Operands.fields (.arith x)) (by delta wordFields; rfl)
    (by delta Machine.pairSlots; rfl) fun _ =>
    candFull_bits rfl
theorem popc (h : Hdr) (x : Arith) : Statement (.popc h x) :=
  fieldsFull (h := h) (op := (0x1, 0x0B)) (f := Operands.fields (.arith x)) (by delta wordFields; rfl)
    (by delta Machine.pairSlots; rfl) fun _ =>
    candFull_bits rfl
theorem clz (h : Hdr) (x : Arith) : Statement (.clz h x) :=
  fieldsFull (h := h) (op := (0x1, 0x0C)) (f := Operands.fields (.arith x)) (by delta wordFields; rfl)
    (by delta Machine.pairSlots; rfl) fun _ =>
    candFull_bits rfl
theorem ctz (h : Hdr) (x : Arith) : Statement (.ctz h x) :=
  fieldsFull (h := h) (op := (0x1, 0x0D)) (f := Operands.fields (.arith x)) (by delta wordFields; rfl)
    (by delta Machine.pairSlots; rfl) fun _ =>
    candFull_bits rfl
theorem brev (h : Hdr) (x : Arith) : Statement (.brev h x) :=
  fieldsFull (h := h) (op := (0x1, 0x0E)) (f := Operands.fields (.arith x)) (by delta wordFields; rfl)
    (by delta Machine.pairSlots; rfl) fun _ =>
    candFull_bits rfl
theorem prmt (h : Hdr) (x : Arith) : Statement (.prmt h x) :=
  fieldsFull (h := h) (op := (0x1, 0x0F)) (f := Operands.fields (.arith x)) (by delta wordFields; rfl)
    (by delta Machine.pairSlots; rfl) fun _ =>
    candFull_bits rfl
theorem lop3 (h : Hdr) (x : Arith) : Statement (.lop3 h x) :=
  fieldsFull (h := h) (op := (0x1, 0x10)) (f := Operands.fields (.arith x)) (by delta wordFields; rfl)
    (by delta Machine.pairSlots; rfl) fun _ =>
    candFull_bits rfl
theorem fadd (h : Hdr) (x : Arith) : Statement (.fadd h x) :=
  fieldsFull (h := h) (op := (0x2, 0x00)) (f := Operands.fields (.arith x)) (by delta wordFields; rfl)
    (by delta Machine.pairSlots; rfl) fun _ =>
    candFull_float rfl
theorem fsub (h : Hdr) (x : Arith) : Statement (.fsub h x) :=
  fieldsFull (h := h) (op := (0x2, 0x01)) (f := Operands.fields (.arith x)) (by delta wordFields; rfl)
    (by delta Machine.pairSlots; rfl) fun _ =>
    candFull_float rfl
theorem fmul (h : Hdr) (x : Arith) : Statement (.fmul h x) :=
  fieldsFull (h := h) (op := (0x2, 0x02)) (f := Operands.fields (.arith x)) (by delta wordFields; rfl)
    (by delta Machine.pairSlots; rfl) fun _ =>
    candFull_float rfl
theorem ffma (h : Hdr) (x : Arith) : Statement (.ffma h x) :=
  fieldsFull (h := h) (op := (0x2, 0x03)) (f := Operands.fields (.arith x)) (by delta wordFields; rfl)
    (by delta Machine.pairSlots; rfl) fun _ =>
    candFull_float rfl
theorem fmin (h : Hdr) (x : Arith) : Statement (.fmin h x) :=
  fieldsFull (h := h) (op := (0x2, 0x04)) (f := Operands.fields (.arith x)) (by delta wordFields; rfl)
    (by delta Machine.pairSlots; rfl) fun _ =>
    candFull_float rfl
theorem fmax (h : Hdr) (x : Arith) : Statement (.fmax h x) :=
  fieldsFull (h := h) (op := (0x2, 0x05)) (f := Operands.fields (.arith x)) (by delta wordFields; rfl)
    (by delta Machine.pairSlots; rfl) fun _ =>
    candFull_float rfl
theorem fcmp (h : Hdr) (x : Arith) : Statement (.fcmp h x) :=
  fieldsFull (h := h) (op := (0x2, 0x06)) (f := Operands.fields (.arith x)) (by delta wordFields; rfl)
    (by delta Machine.pairSlots; rfl) fun _ =>
    candFull_float rfl
theorem fclass (h : Hdr) (x : Arith) : Statement (.fclass h x) :=
  fieldsFull (h := h) (op := (0x2, 0x07)) (f := Operands.fields (.arith x)) (by delta wordFields; rfl)
    (by delta Machine.pairSlots; rfl) fun _ =>
    candFull_float rfl
theorem hfma2 (h : Hdr) (x : Arith) : Statement (.hfma2 h x) :=
  fieldsFull (h := h) (op := (0x2, 0x08)) (f := Operands.fields (.arith x)) (by delta wordFields; rfl)
    (by delta Machine.pairSlots; rfl) fun _ =>
    candFull_float rfl
theorem hadd2 (h : Hdr) (x : Arith) : Statement (.hadd2 h x) :=
  fieldsFull (h := h) (op := (0x2, 0x09)) (f := Operands.fields (.arith x)) (by delta wordFields; rfl)
    (by delta Machine.pairSlots; rfl) fun _ =>
    candFull_float rfl
theorem hmul2 (h : Hdr) (x : Arith) : Statement (.hmul2 h x) :=
  fieldsFull (h := h) (op := (0x2, 0x0A)) (f := Operands.fields (.arith x)) (by delta wordFields; rfl)
    (by delta Machine.pairSlots; rfl) fun _ =>
    candFull_float rfl
theorem hdot2 (h : Hdr) (x : Arith) : Statement (.hdot2 h x) :=
  fieldsFull (h := h) (op := (0x2, 0x0B)) (f := Operands.fields (.arith x)) (by delta wordFields; rfl)
    (by delta Machine.pairSlots; rfl) fun _ =>
    candFull_float rfl
theorem fmed3 (h : Hdr) (x : Arith) : Statement (.fmed3 h x) :=
  fieldsFull (h := h) (op := (0x2, 0x0C)) (f := Operands.fields (.arith x)) (by delta wordFields; rfl)
    (by delta Machine.pairSlots; rfl) fun _ =>
    candFull_float rfl
theorem frcp (h : Hdr) (x : Arith) : Statement (.frcp h x) :=
  fieldsFull (h := h) (op := (0x3, 0x00)) (f := Operands.fields (.arith x)) (by delta wordFields; rfl)
    (by delta Machine.pairSlots; rfl) fun _ =>
    candFull_fp64 rfl
theorem frsq (h : Hdr) (x : Arith) : Statement (.frsq h x) :=
  fieldsFull (h := h) (op := (0x3, 0x01)) (f := Operands.fields (.arith x)) (by delta wordFields; rfl)
    (by delta Machine.pairSlots; rfl) fun _ =>
    candFull_fp64 rfl
theorem fsqrt (h : Hdr) (x : Arith) : Statement (.fsqrt h x) :=
  fieldsFull (h := h) (op := (0x3, 0x02)) (f := Operands.fields (.arith x)) (by delta wordFields; rfl)
    (by delta Machine.pairSlots; rfl) fun _ =>
    candFull_fp64 rfl
theorem fdiv (h : Hdr) (x : Arith) : Statement (.fdiv h x) :=
  fieldsFull (h := h) (op := (0x3, 0x03)) (f := Operands.fields (.arith x)) (by delta wordFields; rfl)
    (by delta Machine.pairSlots; rfl) fun _ =>
    candFull_fp64 rfl
theorem fex2 (h : Hdr) (x : Arith) : Statement (.fex2 h x) :=
  fieldsFull (h := h) (op := (0x3, 0x04)) (f := Operands.fields (.arith x)) (by delta wordFields; rfl)
    (by delta Machine.pairSlots; rfl) fun _ =>
    candFull_fp64 rfl
theorem flg2 (h : Hdr) (x : Arith) : Statement (.flg2 h x) :=
  fieldsFull (h := h) (op := (0x3, 0x05)) (f := Operands.fields (.arith x)) (by delta wordFields; rfl)
    (by delta Machine.pairSlots; rfl) fun _ =>
    candFull_fp64 rfl
theorem fsin (h : Hdr) (x : Arith) : Statement (.fsin h x) :=
  fieldsFull (h := h) (op := (0x3, 0x06)) (f := Operands.fields (.arith x)) (by delta wordFields; rfl)
    (by delta Machine.pairSlots; rfl) fun _ =>
    candFull_fp64 rfl
theorem fcos (h : Hdr) (x : Arith) : Statement (.fcos h x) :=
  fieldsFull (h := h) (op := (0x3, 0x07)) (f := Operands.fields (.arith x)) (by delta wordFields; rfl)
    (by delta Machine.pairSlots; rfl) fun _ =>
    candFull_fp64 rfl
theorem dadd (h : Hdr) (x : Arith) : Statement (.dadd h x) :=
  fieldsFull (h := h) (op := (0x3, 0x08)) (f := Operands.fields (.arith x)) (by delta wordFields; rfl)
    (by delta Machine.pairSlots; rfl) fun _ =>
    candFull_fp64 rfl
theorem dmul (h : Hdr) (x : Arith) : Statement (.dmul h x) :=
  fieldsFull (h := h) (op := (0x3, 0x09)) (f := Operands.fields (.arith x)) (by delta wordFields; rfl)
    (by delta Machine.pairSlots; rfl) fun _ =>
    candFull_fp64 rfl
theorem dfma (h : Hdr) (x : Arith) : Statement (.dfma h x) :=
  fieldsFull (h := h) (op := (0x3, 0x0A)) (f := Operands.fields (.arith x)) (by delta wordFields; rfl)
    (by delta Machine.pairSlots; rfl) fun _ =>
    candFull_fp64 rfl
theorem dcmp (h : Hdr) (x : Arith) : Statement (.dcmp h x) :=
  fieldsFull (h := h) (op := (0x3, 0x0B)) (f := Operands.fields (.arith x)) (by delta wordFields; rfl)
    (by delta Machine.pairSlots; rfl) fun _ =>
    candFull_fp64 rfl
theorem cvt (h : Hdr) (x : Arith) : Statement (.cvt h x) :=
  fieldsFull (h := h) (op := (0x3, 0x0C)) (f := Operands.fields (.arith x)) (by delta wordFields; rfl)
    (by delta Machine.pairSlots; rfl) fun _ =>
    candFull_fp64 rfl
theorem frnd (h : Hdr) (x : Arith) : Statement (.frnd h x) :=
  fieldsFull (h := h) (op := (0x3, 0x0D)) (f := Operands.fields (.arith x)) (by delta wordFields; rfl)
    (by delta Machine.pairSlots; rfl) fun _ =>
    candFull_fp64 rfl
theorem packH (h : Hdr) (x : Arith) : Statement (.packH h x) :=
  fieldsFull (h := h) (op := (0x3, 0x0E)) (f := Operands.fields (.arith x)) (by delta wordFields; rfl)
    (by delta Machine.pairSlots; rfl) fun w =>
    candFull_fp64 (by
      obtain ⟨_, q'⟩ := Instr.wf_sub w (by delta Machine.arithRow; rfl) rfl
      exact congrArg some (if_neg (subNot q' (by decide))))
theorem packW (h : Hdr) (x : Arith) : Statement (.packW h x) :=
  fieldsFull (h := h) (op := (0x3, 0x0E)) (f := Operands.fields (.arith x)) (by delta wordFields; rfl)
    (by delta Machine.pairSlots; rfl) fun w =>
    candFull_fp64 (by
      obtain ⟨q, q'⟩ := Instr.wf_sub w (by delta Machine.arithRow; rfl) rfl
      exact congrArg some (if_pos (subIs (k := 1) q q')))
theorem unpk (h : Hdr) (x : Arith) : Statement (.unpk h x) :=
  fieldsFull (h := h) (op := (0x3, 0x0F)) (f := Operands.fields (.arith x)) (by delta wordFields; rfl)
    (by delta Machine.pairSlots; rfl) fun _ =>
    candFull_fp64 rfl
theorem mov (h : Hdr) (x : Arith) : Statement (.mov h x) :=
  fieldsFull (h := h) (op := (0x4, 0x00)) (f := Operands.fields (.arith x)) (by delta wordFields; rfl)
    (by delta Machine.pairSlots; rfl) fun w =>
    candFull_move (by
      have q := (Instr.wf_imm w (by delta Machine.arithRow; rfl)).1 rfl
      exact congrArg some (if_neg (by rw [q]; exact Bool.noConfusion)))
theorem movImm (h : Hdr) (x : Arith) : Statement (.movImm h x) :=
  fieldsFull (h := h) (op := (0x4, 0x00)) (f := Operands.fields (.arith x)) (by delta wordFields; rfl)
    (by delta Machine.pairSlots; rfl) fun w =>
    candFull_move (by
      have q := (Instr.wf_imm w (by delta Machine.arithRow; rfl)).2 rfl
      exact congrArg some (if_pos q))
theorem pset (h : Hdr) (x : Arith) : Statement (.pset h x) :=
  fieldsFull (h := h) (op := (0x4, 0x01)) (f := Operands.fields (.arith x)) (by delta wordFields; rfl)
    (by delta Machine.pairSlots; rfl) fun w =>
    candFull_move (by
      obtain ⟨_, q'⟩ := Instr.wf_sub w (by delta Machine.arithRow; rfl) rfl
      exact congrArg some (if_neg (subNot q' (by decide))))
theorem psetAll (h : Hdr) (x : Arith) : Statement (.psetAll h x) :=
  fieldsFull (h := h) (op := (0x4, 0x01)) (f := Operands.fields (.arith x)) (by delta wordFields; rfl)
    (by delta Machine.pairSlots; rfl) fun w =>
    candFull_move (by
      obtain ⟨q, q'⟩ := Instr.wf_sub w (by delta Machine.arithRow; rfl) rfl
      exact congrArg some (if_pos (subIs (k := 1) q q')))
theorem pget (h : Hdr) (x : Arith) : Statement (.pget h x) :=
  fieldsFull (h := h) (op := (0x4, 0x02)) (f := Operands.fields (.arith x)) (by delta wordFields; rfl)
    (by delta Machine.pairSlots; rfl) fun w =>
    candFull_move (by
      obtain ⟨_, q'⟩ := Instr.wf_sub w (by delta Machine.arithRow; rfl) rfl
      exact congrArg some (if_neg (subNot q' (by decide))))
theorem pgetAll (h : Hdr) (x : Arith) : Statement (.pgetAll h x) :=
  fieldsFull (h := h) (op := (0x4, 0x02)) (f := Operands.fields (.arith x)) (by delta wordFields; rfl)
    (by delta Machine.pairSlots; rfl) fun w =>
    candFull_move (by
      obtain ⟨q, q'⟩ := Instr.wf_sub w (by delta Machine.arithRow; rfl) rfl
      exact congrArg some (if_pos (subIs (k := 1) q q')))
theorem pand (h : Hdr) (x : Arith) : Statement (.pand h x) :=
  fieldsFull (h := h) (op := (0x4, 0x03)) (f := Operands.fields (.arith x)) (by delta wordFields; rfl)
    (by delta Machine.pairSlots; rfl) fun _ =>
    candFull_move rfl
theorem por (h : Hdr) (x : Arith) : Statement (.por h x) :=
  fieldsFull (h := h) (op := (0x4, 0x04)) (f := Operands.fields (.arith x)) (by delta wordFields; rfl)
    (by delta Machine.pairSlots; rfl) fun _ =>
    candFull_move rfl
theorem pxor (h : Hdr) (x : Arith) : Statement (.pxor h x) :=
  fieldsFull (h := h) (op := (0x4, 0x05)) (f := Operands.fields (.arith x)) (by delta wordFields; rfl)
    (by delta Machine.pairSlots; rfl) fun _ =>
    candFull_move rfl
theorem pnot (h : Hdr) (x : Arith) : Statement (.pnot h x) :=
  fieldsFull (h := h) (op := (0x4, 0x06)) (f := Operands.fields (.arith x)) (by delta wordFields; rfl)
    (by delta Machine.pairSlots; rfl) fun _ =>
    candFull_move rfl
theorem rdsr (h : Hdr) (x : Arith) : Statement (.rdsr h x) :=
  fieldsFull (h := h) (op := (0x4, 0x07)) (f := Operands.fields (.arith x)) (by delta wordFields; rfl)
    (by delta Machine.pairSlots; rfl) fun _ =>
    candFull_move rfl
theorem wrsr (h : Hdr) (x : Arith) : Statement (.wrsr h x) :=
  fieldsFull (h := h) (op := (0x4, 0x08)) (f := Operands.fields (.arith x)) (by delta wordFields; rfl)
    (by delta Machine.pairSlots; rfl) fun _ =>
    candFull_move rfl
theorem vwset (h : Hdr) (x : Arith) : Statement (.vwset h x) :=
  fieldsFull (h := h) (op := (0x4, 0x09)) (f := Operands.fields (.arith x)) (by delta wordFields; rfl)
    (by delta Machine.pairSlots; rfl) fun _ =>
    candFull_move rfl
theorem nop (h : Hdr) (x : Arith) : Statement (.nop h x) :=
  fieldsFull (h := h) (op := (0x4, 0x0A)) (f := Operands.fields (.arith x)) (by delta wordFields; rfl)
    (by delta Machine.pairSlots; rfl) fun _ =>
    candFull_move rfl
theorem bra (h : Hdr) (x : Ctl) : Statement (.bra h x) :=
  fieldsFull (h := h) (op := (0x5, 0x00)) (f := Operands.fields (.ctl x)) (by delta wordFields; rfl)
    (by delta Machine.pairSlots; rfl) fun _ =>
    candFull_control rfl
theorem brx (h : Hdr) (x : Ctl) : Statement (.brx h x) :=
  fieldsFull (h := h) (op := (0x5, 0x01)) (f := Operands.fields (.ctl x)) (by delta wordFields; rfl)
    (by delta Machine.pairSlots; rfl) fun _ =>
    candFull_control rfl
theorem call (h : Hdr) (x : Ctl) : Statement (.call h x) :=
  fieldsFull (h := h) (op := (0x5, 0x02)) (f := Operands.fields (.ctl x)) (by delta wordFields; rfl)
    (by delta Machine.pairSlots; rfl) fun _ =>
    candFull_control rfl
theorem callx (h : Hdr) (x : Ctl) : Statement (.callx h x) :=
  fieldsFull (h := h) (op := (0x5, 0x03)) (f := Operands.fields (.ctl x)) (by delta wordFields; rfl)
    (by delta Machine.pairSlots; rfl) fun _ =>
    candFull_control rfl
theorem ret (h : Hdr) (x : Ctl) : Statement (.ret h x) :=
  fieldsFull (h := h) (op := (0x5, 0x04)) (f := Operands.fields (.ctl x)) (by delta wordFields; rfl)
    (by delta Machine.pairSlots; rfl) fun _ =>
    candFull_control rfl
theorem loop (h : Hdr) (x : Ctl) : Statement (.loop h x) :=
  fieldsFull (h := h) (op := (0x5, 0x05)) (f := Operands.fields (.ctl x)) (by delta wordFields; rfl)
    (by delta Machine.pairSlots; rfl) fun w =>
    candFull_control (by
      have q : (x.d == 0 && x.b == 0 && !x.u && x.bp == 0 && x.ofl != 0) = true := (Instr.wf_parts w).2.1
      simp only [Bool.and_eq_true] at q
      exact congrArg some ((if_pos q.1.1.1.2).trans (if_neg (by simpa using q.1.1.2))))
theorem loopImm (h : Hdr) (x : Ctl) : Statement (.loopImm h x) :=
  fieldsFull (h := h) (op := (0x5, 0x05)) (f := Operands.fields (.ctl x)) (by delta wordFields; rfl)
    (by delta Machine.pairSlots; rfl) fun w =>
    candFull_control (by
      have q : (x.b == 0 && x.u && x.bp == 0 && x.ofl != 0) = true := (Instr.wf_parts w).2.1
      simp only [Bool.and_eq_true] at q
      exact congrArg some ((if_pos q.1.1.1).trans (if_pos q.1.1.2)))
theorem loopPop (h : Hdr) (x : Ctl) : Statement (.loopPop h x) :=
  fieldsFull (h := h) (op := (0x5, 0x05)) (f := Operands.fields (.ctl x)) (by delta wordFields; rfl)
    (by delta Machine.pairSlots; rfl) fun w =>
    candFull_control (by
      have q : (x.d == 0 && x.a == 0 && x.b == 1 && !x.u && x.bp == 0 && x.ofl == 0) = true := (Instr.wf_parts w).2.1
      simp only [Bool.and_eq_true, beq_iff_eq] at q
      exact congrArg some (if_neg (by rw [q.1.1.1.2]; decide)))
theorem exit (h : Hdr) (x : Ctl) : Statement (.exit h x) :=
  fieldsFull (h := h) (op := (0x5, 0x06)) (f := Operands.fields (.ctl x)) (by delta wordFields; rfl)
    (by delta Machine.pairSlots; rfl) fun _ =>
    candFull_control rfl
theorem yield (h : Hdr) (x : Ctl) : Statement (.yield h x) :=
  fieldsFull (h := h) (op := (0x5, 0x07)) (f := Operands.fields (.ctl x)) (by delta wordFields; rfl)
    (by delta Machine.pairSlots; rfl) fun _ =>
    candFull_control rfl
theorem sleep (h : Hdr) (x : Ctl) : Statement (.sleep h x) :=
  fieldsFull (h := h) (op := (0x5, 0x08)) (f := Operands.fields (.ctl x)) (by delta wordFields; rfl)
    (by delta Machine.pairSlots; rfl) fun w =>
    candFull_control (by
      have q : (x.d == 0 && x.b == 0 && !x.u && x.bp == 0 && x.ofl == 0) = true := (Instr.wf_parts w).2.1
      simp only [Bool.and_eq_true, beq_iff_eq] at q
      exact congrArg some (if_neg (by rw [q.2]; decide)))
theorem sleepUntil (h : Hdr) (x : Ctl) : Statement (.sleepUntil h x) :=
  fieldsFull (h := h) (op := (0x5, 0x08)) (f := Operands.fields (.ctl x)) (by delta wordFields; rfl)
    (by delta Machine.pairSlots; rfl) fun w =>
    candFull_control (by
      have q : (x.d == 0 && x.b == 0 && !x.u && x.bp == 0 && x.ofl == 1) = true := (Instr.wf_parts w).2.1
      simp only [Bool.and_eq_true] at q
      exact congrArg some (if_pos q.2))
theorem trap (h : Hdr) (x : Ctl) : Statement (.trap h x) :=
  fieldsFull (h := h) (op := (0x5, 0x09)) (f := Operands.fields (.ctl x)) (by delta wordFields; rfl)
    (by delta Machine.pairSlots; rfl) fun _ =>
    candFull_control rfl
theorem prio (h : Hdr) (x : Ctl) : Statement (.prio h x) :=
  fieldsFull (h := h) (op := (0x5, 0x0A)) (f := Operands.fields (.ctl x)) (by delta wordFields; rfl)
    (by delta Machine.pairSlots; rfl) fun _ =>
    candFull_control rfl
theorem qswap (h : Hdr) (x : Arith) : Statement (.qswap h x) :=
  fieldsFull (h := h) (op := (0x6, 0x00)) (f := Operands.fields (.arith x)) (by delta wordFields; rfl)
    (by delta Machine.pairSlots; rfl) fun _ =>
    candFull_parallel rfl
theorem qdd (h : Hdr) (x : Arith) : Statement (.qdd h x) :=
  fieldsFull (h := h) (op := (0x6, 0x01)) (f := Operands.fields (.arith x)) (by delta wordFields; rfl)
    (by delta Machine.pairSlots; rfl) fun _ =>
    candFull_parallel rfl
theorem hlpOff (h : Hdr) (x : Arith) : Statement (.hlpOff h x) :=
  fieldsFull (h := h) (op := (0x6, 0x02)) (f := Operands.fields (.arith x)) (by delta wordFields; rfl)
    (by delta Machine.pairSlots; rfl) fun w =>
    candFull_parallel (by
      obtain ⟨q, q'⟩ := Instr.wf_sub w (by delta Machine.arithRow; rfl) rfl
      exact congrArg some (if_pos (subIs (k := 0) q q')))
theorem hlpOn (h : Hdr) (x : Arith) : Statement (.hlpOn h x) :=
  fieldsFull (h := h) (op := (0x6, 0x02)) (f := Operands.fields (.arith x)) (by delta wordFields; rfl)
    (by delta Machine.pairSlots; rfl) fun w =>
    candFull_parallel (by
      obtain ⟨q, q'⟩ := Instr.wf_sub w (by delta Machine.arithRow; rfl) rfl
      exact congrArg some ((if_neg (subIsnt q (by decide))).trans (if_pos (subIs (k := 1) q q'))))
theorem hlpIs (h : Hdr) (x : Arith) : Statement (.hlpIs h x) :=
  fieldsFull (h := h) (op := (0x6, 0x02)) (f := Operands.fields (.arith x)) (by delta wordFields; rfl)
    (by delta Machine.pairSlots; rfl) fun w =>
    candFull_parallel (by
      obtain ⟨q, _⟩ := Instr.wf_sub w (by delta Machine.arithRow; rfl) rfl
      exact congrArg some ((if_neg (subIsnt q (by decide))).trans (if_neg (subIsnt q (by decide)))))
theorem shfl (h : Hdr) (x : Arith) : Statement (.shfl h x) :=
  fieldsFull (h := h) (op := (0x6, 0x03)) (f := Operands.fields (.arith x)) (by delta wordFields; rfl)
    (by delta Machine.pairSlots; rfl) fun _ =>
    candFull_parallel rfl
theorem vote (h : Hdr) (x : Arith) : Statement (.vote h x) :=
  fieldsFull (h := h) (op := (0x6, 0x04)) (f := Operands.fields (.arith x)) (by delta wordFields; rfl)
    (by delta Machine.pairSlots; rfl) fun w =>
    candFull_parallel (by
      obtain ⟨_, q'⟩ := Instr.wf_sub w (by delta Machine.arithRow; rfl) rfl
      exact congrArg some (if_neg (subNot q' (by decide))))
theorem voteBallot (h : Hdr) (x : Arith) : Statement (.voteBallot h x) :=
  fieldsFull (h := h) (op := (0x6, 0x04)) (f := Operands.fields (.arith x)) (by delta wordFields; rfl)
    (by delta Machine.pairSlots; rfl) fun w =>
    candFull_parallel (by
      obtain ⟨q, q'⟩ := Instr.wf_sub w (by delta Machine.arithRow; rfl) rfl
      exact congrArg some (if_pos (subIs (k := 3) q q')))
theorem match_ (h : Hdr) (x : Arith) : Statement (.match_ h x) :=
  fieldsFull (h := h) (op := (0x6, 0x05)) (f := Operands.fields (.arith x)) (by delta wordFields; rfl)
    (by delta Machine.pairSlots; rfl) fun _ =>
    candFull_parallel rfl
theorem compact (h : Hdr) (x : Arith) : Statement (.compact h x) :=
  fieldsFull (h := h) (op := (0x6, 0x06)) (f := Operands.fields (.arith x)) (by delta wordFields; rfl)
    (by delta Machine.pairSlots; rfl) fun _ =>
    candFull_parallel rfl
theorem reform (h : Hdr) (x : Arith) : Statement (.reform h x) :=
  fieldsFull (h := h) (op := (0x6, 0x07)) (f := Operands.fields (.arith x)) (by delta wordFields; rfl)
    (by delta Machine.pairSlots; rfl) fun _ =>
    candFull_parallel rfl
theorem sign (h : Hdr) (x : Arith) : Statement (.sign h x) :=
  fieldsFull (h := h) (op := (0x6, 0x08)) (f := Operands.fields (.arith x)) (by delta wordFields; rfl)
    (by delta Machine.pairSlots; rfl) fun _ =>
    candFull_parallel rfl
theorem join_ (h : Hdr) (x : Arith) : Statement (.join_ h x) :=
  fieldsFull (h := h) (op := (0x6, 0x09)) (f := Operands.fields (.arith x)) (by delta wordFields; rfl)
    (by delta Machine.pairSlots; rfl) fun _ =>
    candFull_parallel rfl
theorem cvset (h : Hdr) (x : Arith) : Statement (.cvset h x) :=
  fieldsFull (h := h) (op := (0x6, 0x0A)) (f := Operands.fields (.arith x)) (by delta wordFields; rfl)
    (by delta Machine.pairSlots; rfl) fun _ =>
    candFull_parallel rfl
theorem bar (h : Hdr) (x : Arith) : Statement (.bar h x) :=
  fieldsFull (h := h) (op := (0x6, 0x0B)) (f := Operands.fields (.arith x)) (by delta wordFields; rfl)
    (by delta Machine.pairSlots; rfl) fun _ =>
    candFull_parallel rfl
theorem gbar (h : Hdr) (x : Arith) : Statement (.gbar h x) :=
  fieldsFull (h := h) (op := (0x6, 0x0C)) (f := Operands.fields (.arith x)) (by delta wordFields; rfl)
    (by delta Machine.pairSlots; rfl) fun _ =>
    candFull_parallel rfl
theorem spawn (h : Hdr) (x : Arith) : Statement (.spawn h x) :=
  fieldsFull (h := h) (op := (0x6, 0x0D)) (f := Operands.fields (.arith x)) (by delta wordFields; rfl)
    (by delta Machine.pairSlots; rfl) fun _ =>
    candFull_parallel rfl
theorem launch (h : Hdr) (x : Arith) : Statement (.launch h x) :=
  fieldsFull (h := h) (op := (0x6, 0x0E)) (f := Operands.fields (.arith x)) (by delta wordFields; rfl)
    (by delta Machine.pairSlots; rfl) fun _ =>
    candFull_parallel rfl
theorem redux (h : Hdr) (x : Arith) : Statement (.redux h x) :=
  fieldsFull (h := h) (op := (0x6, 0x0F)) (f := Operands.fields (.arith x)) (by delta wordFields; rfl)
    (by delta Machine.pairSlots; rfl) fun _ =>
    candFull_parallel rfl
theorem mma (h : Hdr) (x : Mat) : Statement (.mma h x) :=
  fieldsFull (h := h) (op := (0x7, 0x00)) (f := Operands.fields (.mat x)) (by delta wordFields; rfl)
    (by delta Machine.pairSlots; rfl) fun _ =>
    candFull_matrix rfl
theorem mmaq (h : Hdr) (x : Mat) : Statement (.mmaq h x) :=
  fieldsFull (h := h) (op := (0x7, 0x01)) (f := Operands.fields (.mat x)) (by delta wordFields; rfl)
    (by delta Machine.pairSlots; rfl) fun _ =>
    candFull_matrix rfl
theorem tzero (h : Hdr) (x : Mat) : Statement (.tzero h x) :=
  fieldsFull (h := h) (op := (0x7, 0x02)) (f := Operands.fields (.mat x)) (by delta wordFields; rfl)
    (by delta Machine.pairSlots; rfl) fun _ =>
    candFull_matrix rfl
theorem tfill (h : Hdr) (x : Mat) : Statement (.tfill h x) :=
  fieldsFull (h := h) (op := (0x7, 0x03)) (f := Operands.fields (.mat x)) (by delta wordFields; rfl)
    (by delta Machine.pairSlots; rfl) fun _ =>
    candFull_matrix rfl
theorem tmov (h : Hdr) (x : Mat) : Statement (.tmov h x) :=
  fieldsFull (h := h) (op := (0x7, 0x04)) (f := Operands.fields (.mat x)) (by delta wordFields; rfl)
    (by delta Machine.pairSlots; rfl) fun _ =>
    candFull_matrix rfl
theorem tld (h : Hdr) (x : Mat) : Statement (.tld h x) :=
  fieldsFull (h := h) (op := (0x7, 0x05)) (f := Operands.fields (.mat x)) (by delta wordFields; rfl)
    (by delta Machine.pairSlots; rfl) fun _ =>
    candFull_matrix rfl
theorem tst (h : Hdr) (x : Mat) : Statement (.tst h x) :=
  fieldsFull (h := h) (op := (0x7, 0x06)) (f := Operands.fields (.mat x)) (by delta wordFields; rfl)
    (by delta Machine.pairSlots; rfl) fun _ =>
    candFull_matrix rfl
theorem tstat (h : Hdr) (x : Mat) : Statement (.tstat h x) :=
  fieldsFull (h := h) (op := (0x7, 0x07)) (f := Operands.fields (.mat x)) (by delta wordFields; rfl)
    (by delta Machine.pairSlots; rfl) fun _ =>
    candFull_matrix rfl
theorem qnt (h : Hdr) (x : Mat) : Statement (.qnt h x) :=
  fieldsFull (h := h) (op := (0x7, 0x08)) (f := Operands.fields (.mat x)) (by delta wordFields; rfl)
    (by delta Machine.pairSlots; rfl) fun _ =>
    candFull_matrix rfl
theorem olset (h : Hdr) (x : Mat) : Statement (.olset h x) :=
  fieldsFull (h := h) (op := (0x7, 0x09)) (f := Operands.fields (.mat x)) (by delta wordFields; rfl)
    (by delta Machine.pairSlots; rfl) fun _ =>
    candFull_matrix rfl
theorem olcnt (h : Hdr) (x : Mat) : Statement (.olcnt h x) :=
  fieldsFull (h := h) (op := (0x7, 0x0A)) (f := Operands.fields (.mat x)) (by delta wordFields; rfl)
    (by delta Machine.pairSlots; rfl) fun _ =>
    candFull_matrix rfl
theorem dqnt (h : Hdr) (x : Mat) : Statement (.dqnt h x) :=
  fieldsFull (h := h) (op := (0x7, 0x0B)) (f := Operands.fields (.mat x)) (by delta wordFields; rfl)
    (by delta Machine.pairSlots; rfl) fun _ =>
    candFull_matrix rfl
theorem ld (h : Hdr) (x : Loc) : Statement (.ld h x) :=
  fieldsFull (h := h) (op := (0x8, 0x00)) (f := Operands.fields (.loc x)) (by delta wordFields; rfl)
    (by delta Machine.pairSlots; rfl) fun _ =>
    candFull_local rfl
theorem st (h : Hdr) (x : Loc) : Statement (.st h x) :=
  fieldsFull (h := h) (op := (0x8, 0x01)) (f := Operands.fields (.loc x)) (by delta wordFields; rfl)
    (by delta Machine.pairSlots; rfl) fun _ =>
    candFull_local rfl
theorem gath (h : Hdr) (x : Loc) : Statement (.gath h x) :=
  fieldsFull (h := h) (op := (0x8, 0x02)) (f := Operands.fields (.loc x)) (by delta wordFields; rfl)
    (by delta Machine.pairSlots; rfl) fun _ =>
    candFull_local rfl
theorem scat (h : Hdr) (x : Loc) : Statement (.scat h x) :=
  fieldsFull (h := h) (op := (0x8, 0x03)) (f := Operands.fields (.loc x)) (by delta wordFields; rfl)
    (by delta Machine.pairSlots; rfl) fun _ =>
    candFull_local rfl
theorem atom (h : Hdr) (x : Loc) : Statement (.atom h x) :=
  fieldsFull (h := h) (op := (0x8, 0x04)) (f := Operands.fields (.loc x)) (by delta wordFields; rfl)
    (by delta Machine.pairSlots; rfl) fun _ =>
    candFull_local rfl
theorem atomc (h : Hdr) (x : Loc) : Statement (.atomc h x) :=
  fieldsFull (h := h) (op := (0x8, 0x05)) (f := Operands.fields (.loc x)) (by delta wordFields; rfl)
    (by delta Machine.pairSlots; rfl) fun _ =>
    candFull_local rfl
theorem pchk (h : Hdr) (x : Loc) : Statement (.pchk h x) :=
  fieldsFull (h := h) (op := (0x8, 0x06)) (f := Operands.fields (.loc x)) (by delta wordFields; rfl)
    (by delta Machine.pairSlots; rfl) fun _ =>
    candFull_local rfl
theorem mon (h : Hdr) (x : Loc) : Statement (.mon h x) :=
  fieldsFull (h := h) (op := (0x8, 0x07)) (f := Operands.fields (.loc x)) (by delta wordFields; rfl)
    (by delta Machine.pairSlots; rfl) fun _ =>
    candFull_local rfl
theorem mwait (h : Hdr) (x : Loc) : Statement (.mwait h x) :=
  fieldsFull (h := h) (op := (0x8, 0x08)) (f := Operands.fields (.loc x)) (by delta wordFields; rfl)
    (by delta Machine.pairSlots; rfl) fun w =>
    candFull_local (by
      have q : (x.d == 0 && x.a == 0 && x.b == 0 && x.space == .sh && x.width == .b8 && !x.split && x.aux == 0 && x.off == 0) = true := (Instr.wf_parts w).2.2.1
      simp only [Bool.and_eq_true, beq_iff_eq] at q
      exact congrArg some (if_neg (by rw [q.1.2]; decide)))
theorem mwaitTimeout (h : Hdr) (x : Loc) : Statement (.mwaitTimeout h x) :=
  fieldsFull (h := h) (op := (0x8, 0x08)) (f := Operands.fields (.loc x)) (by delta wordFields; rfl)
    (by delta Machine.pairSlots; rfl) fun w =>
    candFull_local (by
      have q : (x.d == 0 && x.b == 0 && x.space == .sh && x.width == .b8 && !x.split && x.aux == 1 && x.off == 0) = true := (Instr.wf_parts w).2.2.1
      simp only [Bool.and_eq_true] at q
      exact congrArg some (if_pos q.1.2))
theorem cpyin (h : Hdr) (x : Main) : Statement (.cpyin h x) :=
  fieldsFull (h := h) (op := (0x9, 0x00)) (f := Operands.fields (.main x)) (by delta wordFields; rfl)
    (by delta Machine.pairSlots; rfl) fun _ =>
    candFull_main rfl
theorem cpyout (h : Hdr) (x : Main) : Statement (.cpyout h x) :=
  fieldsFull (h := h) (op := (0x9, 0x01)) (f := Operands.fields (.main x)) (by delta wordFields; rfl)
    (by delta Machine.pairSlots; rfl) fun _ =>
    candFull_main rfl
theorem cpyg (h : Hdr) (x : Main) : Statement (.cpyg h x) :=
  fieldsFull (h := h) (op := (0x9, 0x02)) (f := Operands.fields (.main x)) (by delta wordFields; rfl)
    (by delta Machine.pairSlots; rfl) fun _ =>
    candFull_main rfl
theorem cpys (h : Hdr) (x : Main) : Statement (.cpys h x) :=
  fieldsFull (h := h) (op := (0x9, 0x03)) (f := Operands.fields (.main x)) (by delta wordFields; rfl)
    (by delta Machine.pairSlots; rfl) fun _ =>
    candFull_main rfl
theorem fatom (h : Hdr) (x : Main) : Statement (.fatom h x) :=
  fieldsFull (h := h) (op := (0x9, 0x04)) (f := Operands.fields (.main x)) (by delta wordFields; rfl)
    (by delta Machine.pairSlots; rfl) fun w =>
    candFull_main (by
      have q : (x.scope == .lane && !x.ls && x.cq == 0 && x.opx &&& 0xFE0 == 0 && (x.opx &&& 0xF).toNat ≤ 10 && !(x.opx &&& 0xF == 9 && Machine.w64 x)) = true := (Instr.wf_parts w).2.2.2.1
      simp only [Bool.and_eq_true, beq_iff_eq] at q
      exact congrArg some (if_neg (by rw [bit5 q.1.1.2]; decide)))
theorem fatomNr (h : Hdr) (x : Main) : Statement (.fatomNr h x) :=
  fieldsFull (h := h) (op := (0x9, 0x04)) (f := Operands.fields (.main x)) (by delta wordFields; rfl)
    (by delta Machine.pairSlots; rfl) fun w =>
    candFull_main (by
      have q : (x.d == 0 && x.scope == .lane && !x.ls && x.opx &&& 0xFE0 == 0x020 && (x.opx &&& 0xF).toNat ≤ 10 && !(x.opx &&& 0xF == 9 && Machine.w64 x)) = true := (Instr.wf_parts w).2.2.2.1
      simp only [Bool.and_eq_true, beq_iff_eq] at q
      exact congrArg some (if_pos (by rw [bit5 q.1.1.2]; decide)))
theorem fcas (h : Hdr) (x : Main) : Statement (.fcas h x) :=
  fieldsFull (h := h) (op := (0x9, 0x05)) (f := Operands.fields (.main x)) (by delta wordFields; rfl)
    (by delta Machine.pairSlots; rfl) fun _ =>
    candFull_main rfl
theorem fence (h : Hdr) (x : Main) : Statement (.fence h x) :=
  fieldsFull (h := h) (op := (0x9, 0x06)) (f := Operands.fields (.main x)) (by delta wordFields; rfl)
    (by delta Machine.pairSlots; rfl) fun _ =>
    candFull_main rfl
theorem publ (h : Hdr) (x : Main) : Statement (.publ h x) :=
  fieldsFull (h := h) (op := (0x9, 0x07)) (f := Operands.fields (.main x)) (by delta wordFields; rfl)
    (by delta Machine.pairSlots; rfl) fun _ =>
    candFull_main rfl
theorem mhint (h : Hdr) (x : Main) : Statement (.mhint h x) :=
  fieldsFull (h := h) (op := (0x9, 0x08)) (f := Operands.fields (.main x)) (by delta wordFields; rfl)
    (by delta Machine.pairSlots; rfl) fun _ =>
    candFull_main rfl
theorem mcast (h : Hdr) (x : Main) : Statement (.mcast h x) :=
  fieldsFull (h := h) (op := (0x9, 0x09)) (f := Operands.fields (.main x)) (by delta wordFields; rfl)
    (by delta Machine.pairSlots; rfl) fun _ =>
    candFull_main rfl
theorem bclose (h : Hdr) (x : Eng) : Statement (.bclose h x) :=
  fieldsFull (h := h) (op := (0xA, 0x00)) (f := Operands.fields (.eng x)) (by delta wordFields; rfl)
    (by delta Machine.pairSlots; rfl) fun _ =>
    candFull_engine rfl
theorem waitb (h : Hdr) (x : Eng) : Statement (.waitb h x) :=
  fieldsFull (h := h) (op := (0xA, 0x01)) (f := Operands.fields (.eng x)) (by delta wordFields; rfl)
    (by delta Machine.pairSlots; rfl) fun _ =>
    candFull_engine rfl
theorem qfence (h : Hdr) (x : Eng) : Statement (.qfence h x) :=
  fieldsFull (h := h) (op := (0xA, 0x02)) (f := Operands.fields (.eng x)) (by delta wordFields; rfl)
    (by delta Machine.pairSlots; rfl) fun _ =>
    candFull_engine rfl
theorem chain (h : Hdr) (x : Eng) : Statement (.chain h x) :=
  fieldsFull (h := h) (op := (0xA, 0x03)) (f := Operands.fields (.eng x)) (by delta wordFields; rfl)
    (by delta Machine.pairSlots; rfl) fun _ =>
    candFull_engine rfl
theorem decod (h : Hdr) (x : Eng) : Statement (.decod h x) :=
  fieldsFull (h := h) (op := (0xA, 0x04)) (f := Operands.fields (.eng x)) (by delta wordFields; rfl)
    (by delta Machine.pairSlots; rfl) fun _ =>
    candFull_engine rfl
theorem dtab (h : Hdr) (x : Eng) : Statement (.dtab h x) :=
  fieldsFull (h := h) (op := (0xA, 0x05)) (f := Operands.fields (.eng x)) (by delta wordFields; rfl)
    (by delta Machine.pairSlots; rfl) fun _ =>
    candFull_engine rfl
theorem sgo (h : Hdr) (x : Eng) : Statement (.sgo h x) :=
  fieldsFull (h := h) (op := (0xA, 0x06)) (f := Operands.fields (.eng x)) (by delta wordFields; rfl)
    (by delta Machine.pairSlots; rfl) fun _ =>
    candFull_engine rfl
theorem qpop (h : Hdr) (x : Eng) : Statement (.qpop h x) :=
  fieldsFull (h := h) (op := (0xA, 0x07)) (f := Operands.fields (.eng x)) (by delta wordFields; rfl)
    (by delta Machine.pairSlots; rfl) fun _ =>
    candFull_engine rfl
theorem qstat (h : Hdr) (x : Eng) : Statement (.qstat h x) :=
  fieldsFull (h := h) (op := (0xA, 0x08)) (f := Operands.fields (.eng x)) (by delta wordFields; rfl)
    (by delta Machine.pairSlots; rfl) fun w =>
    candFull_engine (by
      have q : (x.a == 0 && x.b == 0 && x.scope == .lane && x.cq == 0 && x.opx == 0) = true := (Instr.wf_parts w).2.2.2.2.1
      simp only [Bool.and_eq_true, beq_iff_eq] at q
      exact congrArg some (if_neg (by rw [q.2]; decide)))
theorem qstatCq (h : Hdr) (x : Eng) : Statement (.qstatCq h x) :=
  fieldsFull (h := h) (op := (0xA, 0x08)) (f := Operands.fields (.eng x)) (by delta wordFields; rfl)
    (by delta Machine.pairSlots; rfl) fun w =>
    candFull_engine (by
      have q : (x.a == 0 && x.b == 0 && x.scope == .lane && x.sq == 0 && x.opx == 1) = true := (Instr.wf_parts w).2.2.2.2.1
      simp only [Bool.and_eq_true] at q
      exact congrArg some (if_pos q.2))
theorem apush (h : Hdr) (x : Eng) : Statement (.apush h x) :=
  fieldsFull (h := h) (op := (0xA, 0x09)) (f := Operands.fields (.eng x)) (by delta wordFields; rfl)
    (by delta Machine.pairSlots; rfl) fun _ =>
    candFull_engine rfl
theorem aseg (h : Hdr) (x : Eng) : Statement (.aseg h x) :=
  fieldsFull (h := h) (op := (0xA, 0x0A)) (f := Operands.fields (.eng x)) (by delta wordFields; rfl)
    (by delta Machine.pairSlots; rfl) fun _ =>
    candFull_engine rfl
theorem ray (h : Hdr) (x : Unt) : Statement (.ray h x) :=
  fieldsFull (h := h) (op := (0xB, 0x00)) (f := Operands.fields (.unt x)) (by delta wordFields; rfl)
    (by delta Machine.pairSlots; rfl) fun _ =>
    candFull_unit rfl
theorem trhold (h : Hdr) (x : Unt) : Statement (.trhold h x) :=
  fieldsFull (h := h) (op := (0xB, 0x01)) (f := Operands.fields (.unt x)) (by delta wordFields; rfl)
    (by delta Machine.pairSlots; rfl) fun _ =>
    candFull_unit rfl
theorem trswap (h : Hdr) (x : Unt) : Statement (.trswap h x) :=
  fieldsFull (h := h) (op := (0xB, 0x02)) (f := Operands.fields (.unt x)) (by delta wordFields; rfl)
    (by delta Machine.pairSlots; rfl) fun _ =>
    candFull_unit rfl
theorem trstat (h : Hdr) (x : Unt) : Statement (.trstat h x) :=
  fieldsFull (h := h) (op := (0xB, 0x03)) (f := Operands.fields (.unt x)) (by delta wordFields; rfl)
    (by delta Machine.pairSlots; rfl) fun _ =>
    candFull_unit rfl
theorem filt (h : Hdr) (x : Unt) : Statement (.filt h x) :=
  fieldsFull (h := h) (op := (0xB, 0x04)) (f := Operands.fields (.unt x)) (by delta wordFields; rfl)
    (by delta Machine.pairSlots; rfl) fun _ =>
    candFull_unit rfl
theorem hgrid (h : Hdr) (x : Unt) : Statement (.hgrid h x) :=
  fieldsFull (h := h) (op := (0xB, 0x05)) (f := Operands.fields (.unt x)) (by delta wordFields; rfl)
    (by delta Machine.pairSlots; rfl) fun _ =>
    candFull_unit rfl
theorem bank (h : Hdr) (x : Unt) : Statement (.bank h x) :=
  fieldsFull (h := h) (op := (0xB, 0x06)) (f := Operands.fields (.unt x)) (by delta wordFields; rfl)
    (by delta Machine.pairSlots; rfl) fun _ =>
    candFull_unit rfl
theorem rfe (h : Hdr) (x : Sys) : Statement (.rfe h x) :=
  fieldsFull (h := h) (op := (0xC, 0x00)) (f := Operands.fields (.sys x)) (by delta wordFields; rfl)
    (by delta Machine.pairSlots; rfl) fun _ =>
    candFull_system rfl
theorem csave (h : Hdr) (x : Sys) : Statement (.csave h x) :=
  fieldsFull (h := h) (op := (0xC, 0x01)) (f := Operands.fields (.sys x)) (by delta wordFields; rfl)
    (by delta Machine.pairSlots; rfl) fun _ =>
    candFull_system rfl
theorem crest (h : Hdr) (x : Sys) : Statement (.crest h x) :=
  fieldsFull (h := h) (op := (0xC, 0x02)) (f := Operands.fields (.sys x)) (by delta wordFields; rfl)
    (by delta Machine.pairSlots; rfl) fun _ =>
    candFull_system rfl
theorem tlbinv (h : Hdr) (x : Sys) : Statement (.tlbinv h x) :=
  fieldsFull (h := h) (op := (0xC, 0x03)) (f := Operands.fields (.sys x)) (by delta wordFields; rfl)
    (by delta Machine.pairSlots; rfl) fun _ =>
    candFull_system rfl
theorem replay (h : Hdr) (x : Sys) : Statement (.replay h x) :=
  fieldsFull (h := h) (op := (0xC, 0x04)) (f := Operands.fields (.sys x)) (by delta wordFields; rfl)
    (by delta Machine.pairSlots; rfl) fun _ =>
    candFull_system rfl
theorem xinj (h : Hdr) (x : Sys) : Statement (.xinj h x) :=
  fieldsFull (h := h) (op := (0xC, 0x05)) (f := Operands.fields (.sys x)) (by delta wordFields; rfl)
    (by delta Machine.pairSlots; rfl) fun _ =>
    candFull_system rfl
theorem elog (h : Hdr) (x : Sys) : Statement (.elog h x) :=
  fieldsFull (h := h) (op := (0xC, 0x06)) (f := Operands.fields (.sys x)) (by delta wordFields; rfl)
    (by delta Machine.pairSlots; rfl) fun w =>
    candFull_system (by
      have q : (x.b == 0 && x.sub == 0) = true := (Instr.wf_parts w).2.2.2.2.2
      simp only [Bool.and_eq_true, beq_iff_eq] at q
      exact congrArg some (if_neg (by rw [q.2]; decide)))
theorem elogClr (h : Hdr) (x : Sys) : Statement (.elogClr h x) :=
  fieldsFull (h := h) (op := (0xC, 0x06)) (f := Operands.fields (.sys x)) (by delta wordFields; rfl)
    (by delta Machine.pairSlots; rfl) fun w =>
    candFull_system (by
      have q : (x.d == 0 && x.sub == 1) = true := (Instr.wf_parts w).2.2.2.2.2
      simp only [Bool.and_eq_true] at q
      exact congrArg some (if_pos q.2))
theorem halt (h : Hdr) (x : Sys) : Statement (.halt h x) :=
  fieldsFull (h := h) (op := (0xC, 0x07)) (f := Operands.fields (.sys x)) (by delta wordFields; rfl)
    (by delta Machine.pairSlots; rfl) fun _ =>
    candFull_system rfl
theorem pairAdd (sw : Bool) (x : SlotArgs) (y : PairSlot) : Statement (.pairAdd sw x y) :=
  fieldsPair (x := ⟨.add, x⟩) (y := y) (by delta wordFields; rfl) (by delta Machine.pairSlots; rfl)
    (by delta pairSwitch; rfl)
theorem pairSub (sw : Bool) (x : SlotArgs) (y : PairSlot) : Statement (.pairSub sw x y) :=
  fieldsPair (x := ⟨.sub, x⟩) (y := y) (by delta wordFields; rfl) (by delta Machine.pairSlots; rfl)
    (by delta pairSwitch; rfl)
theorem pairMinI32 (sw : Bool) (x : SlotArgs) (y : PairSlot) : Statement (.pairMinI32 sw x y) :=
  fieldsPair (x := ⟨.minI32, x⟩) (y := y) (by delta wordFields; rfl) (by delta Machine.pairSlots; rfl)
    (by delta pairSwitch; rfl)
theorem pairMaxI32 (sw : Bool) (x : SlotArgs) (y : PairSlot) : Statement (.pairMaxI32 sw x y) :=
  fieldsPair (x := ⟨.maxI32, x⟩) (y := y) (by delta wordFields; rfl) (by delta Machine.pairSlots; rfl)
    (by delta pairSwitch; rfl)
theorem pairMinN32 (sw : Bool) (x : SlotArgs) (y : PairSlot) : Statement (.pairMinN32 sw x y) :=
  fieldsPair (x := ⟨.minN32, x⟩) (y := y) (by delta wordFields; rfl) (by delta Machine.pairSlots; rfl)
    (by delta pairSwitch; rfl)
theorem pairMaxN32 (sw : Bool) (x : SlotArgs) (y : PairSlot) : Statement (.pairMaxN32 sw x y) :=
  fieldsPair (x := ⟨.maxN32, x⟩) (y := y) (by delta wordFields; rfl) (by delta Machine.pairSlots; rfl)
    (by delta pairSwitch; rfl)
theorem pairAnd (sw : Bool) (x : SlotArgs) (y : PairSlot) : Statement (.pairAnd sw x y) :=
  fieldsPair (x := ⟨.and_, x⟩) (y := y) (by delta wordFields; rfl) (by delta Machine.pairSlots; rfl)
    (by delta pairSwitch; rfl)
theorem pairOr (sw : Bool) (x : SlotArgs) (y : PairSlot) : Statement (.pairOr sw x y) :=
  fieldsPair (x := ⟨.or_, x⟩) (y := y) (by delta wordFields; rfl) (by delta Machine.pairSlots; rfl)
    (by delta pairSwitch; rfl)
theorem pairXor (sw : Bool) (x : SlotArgs) (y : PairSlot) : Statement (.pairXor sw x y) :=
  fieldsPair (x := ⟨.xor_, x⟩) (y := y) (by delta wordFields; rfl) (by delta Machine.pairSlots; rfl)
    (by delta pairSwitch; rfl)
theorem pairShl (sw : Bool) (x : SlotArgs) (y : PairSlot) : Statement (.pairShl sw x y) :=
  fieldsPair (x := ⟨.shl, x⟩) (y := y) (by delta wordFields; rfl) (by delta Machine.pairSlots; rfl)
    (by delta pairSwitch; rfl)
theorem pairShr (sw : Bool) (x : SlotArgs) (y : PairSlot) : Statement (.pairShr sw x y) :=
  fieldsPair (x := ⟨.shr, x⟩) (y := y) (by delta wordFields; rfl) (by delta Machine.pairSlots; rfl)
    (by delta pairSwitch; rfl)
theorem pairSar (sw : Bool) (x : SlotArgs) (y : PairSlot) : Statement (.pairSar sw x y) :=
  fieldsPair (x := ⟨.sar, x⟩) (y := y) (by delta wordFields; rfl) (by delta Machine.pairSlots; rfl)
    (by delta pairSwitch; rfl)
theorem pairMov (sw : Bool) (x : SlotArgs) (y : PairSlot) : Statement (.pairMov sw x y) :=
  fieldsPair (x := ⟨.mov, x⟩) (y := y) (by delta wordFields; rfl) (by delta Machine.pairSlots; rfl)
    (by delta pairSwitch; rfl)
theorem pairMovi (sw : Bool) (x : SlotArgs) (y : PairSlot) : Statement (.pairMovi sw x y) :=
  fieldsPair (x := ⟨.movi, x⟩) (y := y) (by delta wordFields; rfl) (by delta Machine.pairSlots; rfl)
    (by delta pairSwitch; rfl)
theorem pairFadd (sw : Bool) (x : SlotArgs) (y : PairSlot) : Statement (.pairFadd sw x y) :=
  fieldsPair (x := ⟨.fadd, x⟩) (y := y) (by delta wordFields; rfl) (by delta Machine.pairSlots; rfl)
    (by delta pairSwitch; rfl)
theorem pairFsub (sw : Bool) (x : SlotArgs) (y : PairSlot) : Statement (.pairFsub sw x y) :=
  fieldsPair (x := ⟨.fsub, x⟩) (y := y) (by delta wordFields; rfl) (by delta Machine.pairSlots; rfl)
    (by delta pairSwitch; rfl)
theorem pairFmul (sw : Bool) (x : SlotArgs) (y : PairSlot) : Statement (.pairFmul sw x y) :=
  fieldsPair (x := ⟨.fmul, x⟩) (y := y) (by delta wordFields; rfl) (by delta Machine.pairSlots; rfl)
    (by delta pairSwitch; rfl)
theorem pairFmin (sw : Bool) (x : SlotArgs) (y : PairSlot) : Statement (.pairFmin sw x y) :=
  fieldsPair (x := ⟨.fmin, x⟩) (y := y) (by delta wordFields; rfl) (by delta Machine.pairSlots; rfl)
    (by delta pairSwitch; rfl)
theorem pairFmax (sw : Bool) (x : SlotArgs) (y : PairSlot) : Statement (.pairFmax sw x y) :=
  fieldsPair (x := ⟨.fmax, x⟩) (y := y) (by delta wordFields; rfl) (by delta Machine.pairSlots; rfl)
    (by delta pairSwitch; rfl)
theorem pairHadd2 (sw : Bool) (x : SlotArgs) (y : PairSlot) : Statement (.pairHadd2 sw x y) :=
  fieldsPair (x := ⟨.hadd2, x⟩) (y := y) (by delta wordFields; rfl) (by delta Machine.pairSlots; rfl)
    (by delta pairSwitch; rfl)
theorem pairHmul2 (sw : Bool) (x : SlotArgs) (y : PairSlot) : Statement (.pairHmul2 sw x y) :=
  fieldsPair (x := ⟨.hmul2, x⟩) (y := y) (by delta wordFields; rfl) (by delta Machine.pairSlots; rfl)
    (by delta pairSwitch; rfl)
theorem pairAddi (sw : Bool) (x : SlotArgs) (y : PairSlot) : Statement (.pairAddi sw x y) :=
  fieldsPair (x := ⟨.addi, x⟩) (y := y) (by delta wordFields; rfl) (by delta Machine.pairSlots; rfl)
    (by delta pairSwitch; rfl)
theorem illegalInstruction (w : W64) : Statement (.illegalInstruction w) :=
  fieldsOther (by delta wordFields; rfl) (by delta Machine.pairSlots; rfl)
theorem runEndCommit : Statement .runEndCommit :=
  fieldsOther (by delta wordFields; rfl) (by delta Machine.pairSlots; rfl)
theorem spinDemotionExpiry : Statement .spinDemotionExpiry :=
  fieldsOther (by delta wordFields; rfl) (by delta Machine.pairSlots; rfl)
theorem yieldWindowExpiry : Statement .yieldWindowExpiry :=
  fieldsOther (by delta wordFields; rfl) (by delta Machine.pairSlots; rfl)
theorem sleepWake : Statement .sleepWake :=
  fieldsOther (by delta wordFields; rfl) (by delta Machine.pairSlots; rfl)
theorem mwaitWake : Statement .mwaitWake :=
  fieldsOther (by delta wordFields; rfl) (by delta Machine.pairSlots; rfl)
theorem mwaitDeadline : Statement .mwaitDeadline :=
  fieldsOther (by delta wordFields; rfl) (by delta Machine.pairSlots; rfl)
theorem regroupTimeout : Statement .regroupTimeout :=
  fieldsOther (by delta wordFields; rfl) (by delta Machine.pairSlots; rfl)
theorem lqTailWrite : Statement .lqTailWrite :=
  fieldsOther (by delta wordFields; rfl) (by delta Machine.pairSlots; rfl)
theorem lqCfgWrite : Statement .lqCfgWrite :=
  fieldsOther (by delta wordFields; rfl) (by delta Machine.pairSlots; rfl)
theorem lqErrSkip : Statement .lqErrSkip :=
  fieldsOther (by delta wordFields; rfl) (by delta Machine.pairSlots; rfl)
theorem lqErrResume : Statement .lqErrResume :=
  fieldsOther (by delta wordFields; rfl) (by delta Machine.pairSlots; rfl)
theorem launchRecordConsume : Statement .launchRecordConsume :=
  fieldsOther (by delta wordFields; rfl) (by delta Machine.pairSlots; rfl)
theorem validRetry : Statement .validRetry :=
  fieldsOther (by delta wordFields; rfl) (by delta Machine.pairSlots; rfl)
theorem dependenceReread : Statement .dependenceReread :=
  fieldsOther (by delta wordFields; rfl) (by delta Machine.pairSlots; rfl)
theorem gangPlacement : Statement .gangPlacement :=
  fieldsOther (by delta wordFields; rfl) (by delta Machine.pairSlots; rfl)
theorem placementStarvation : Statement .placementStarvation :=
  fieldsOther (by delta wordFields; rfl) (by delta Machine.pairSlots; rfl)
theorem teamResourcesFree : Statement .teamResourcesFree :=
  fieldsOther (by delta wordFields; rfl) (by delta Machine.pairSlots; rfl)
theorem launchCompletion : Statement .launchCompletion :=
  fieldsOther (by delta wordFields; rfl) (by delta Machine.pairSlots; rfl)
theorem taskTeamForm : Statement .taskTeamForm :=
  fieldsOther (by delta wordFields; rfl) (by delta Machine.pairSlots; rfl)
theorem linePresent : Statement .linePresent :=
  fieldsOther (by delta wordFields; rfl) (by delta Machine.pairSlots; rfl)
theorem copyProbePass : Statement .copyProbePass :=
  fieldsOther (by delta wordFields; rfl) (by delta Machine.pairSlots; rfl)
theorem copyDataPass : Statement .copyDataPass :=
  fieldsOther (by delta wordFields; rfl) (by delta Machine.pairSlots; rfl)
theorem stampWrite : Statement .stampWrite :=
  fieldsOther (by delta wordFields; rfl) (by delta Machine.pairSlots; rfl)
theorem chainRecord : Statement .chainRecord :=
  fieldsOther (by delta wordFields; rfl) (by delta Machine.pairSlots; rfl)
theorem decodeRun : Statement .decodeRun :=
  fieldsOther (by delta wordFields; rfl) (by delta Machine.pairSlots; rfl)
theorem mcastSliceDeliver : Statement .mcastSliceDeliver :=
  fieldsOther (by delta wordFields; rfl) (by delta Machine.pairSlots; rfl)
theorem farAtomicPerform : Statement .farAtomicPerform :=
  fieldsOther (by delta wordFields; rfl) (by delta Machine.pairSlots; rfl)
theorem pendingWritePerform : Statement .pendingWritePerform :=
  fieldsOther (by delta wordFields; rfl) (by delta Machine.pairSlots; rfl)
theorem leaseExpiry : Statement .leaseExpiry :=
  fieldsOther (by delta wordFields; rfl) (by delta Machine.pairSlots; rfl)
theorem matrixOperationPerform : Statement .matrixOperationPerform :=
  fieldsOther (by delta wordFields; rfl) (by delta Machine.pairSlots; rfl)
theorem qntAppendWrite : Statement .qntAppendWrite :=
  fieldsOther (by delta wordFields; rfl) (by delta Machine.pairSlots; rfl)
theorem tldPerform : Statement .tldPerform :=
  fieldsOther (by delta wordFields; rfl) (by delta Machine.pairSlots; rfl)
theorem tstPerform : Statement .tstPerform :=
  fieldsOther (by delta wordFields; rfl) (by delta Machine.pairSlots; rfl)
theorem sergeWord : Statement .sergeWord :=
  fieldsOther (by delta wordFields; rfl) (by delta Machine.pairSlots; rfl)
theorem sergeUnitArrive : Statement .sergeUnitArrive :=
  fieldsOther (by delta wordFields; rfl) (by delta Machine.pairSlots; rfl)
theorem rayTraverseBatch : Statement .rayTraverseBatch :=
  fieldsOther (by delta wordFields; rfl) (by delta Machine.pairSlots; rfl)
theorem rayTimeout : Statement .rayTimeout :=
  fieldsOther (by delta wordFields; rfl) (by delta Machine.pairSlots; rfl)
theorem trholdDrained : Statement .trholdDrained :=
  fieldsOther (by delta wordFields; rfl) (by delta Machine.pairSlots; rfl)
theorem filtResult : Statement .filtResult :=
  fieldsOther (by delta wordFields; rfl) (by delta Machine.pairSlots; rfl)
theorem hgridResult : Statement .hgridResult :=
  fieldsOther (by delta wordFields; rfl) (by delta Machine.pairSlots; rfl)
theorem calicoProgramCheck : Statement .calicoProgramCheck :=
  fieldsOther (by delta wordFields; rfl) (by delta Machine.pairSlots; rfl)
theorem calicoBundle : Statement .calicoBundle :=
  fieldsOther (by delta wordFields; rfl) (by delta Machine.pairSlots; rfl)
theorem calicoColumnArrive : Statement .calicoColumnArrive :=
  fieldsOther (by delta wordFields; rfl) (by delta Machine.pairSlots; rfl)
theorem replayableSaveTimeout : Statement .replayableSaveTimeout :=
  fieldsOther (by delta wordFields; rfl) (by delta Machine.pairSlots; rfl)
theorem teamSave : Statement .teamSave :=
  fieldsOther (by delta wordFields; rfl) (by delta Machine.pairSlots; rfl)
theorem csaveStamp : Statement .csaveStamp :=
  fieldsOther (by delta wordFields; rfl) (by delta Machine.pairSlots; rfl)
theorem teamRestore : Statement .teamRestore :=
  fieldsOther (by delta wordFields; rfl) (by delta Machine.pairSlots; rfl)
theorem faultCollectorForward : Statement .faultCollectorForward :=
  fieldsOther (by delta wordFields; rfl) (by delta Machine.pairSlots; rfl)
theorem fbackWrite : Statement .fbackWrite :=
  fieldsOther (by delta wordFields; rfl) (by delta Machine.pairSlots; rfl)
theorem fbstatWrite : Statement .fbstatWrite :=
  fieldsOther (by delta wordFields; rfl) (by delta Machine.pairSlots; rfl)
theorem ctxinvWrite : Statement .ctxinvWrite :=
  fieldsOther (by delta wordFields; rfl) (by delta Machine.pairSlots; rfl)
theorem ctxbaseWrite : Statement .ctxbaseWrite :=
  fieldsOther (by delta wordFields; rfl) (by delta Machine.pairSlots; rfl)
theorem stkstatWrite : Statement .stkstatWrite :=
  fieldsOther (by delta wordFields; rfl) (by delta Machine.pairSlots; rfl)
theorem felttailWrite : Statement .felttailWrite :=
  fieldsOther (by delta wordFields; rfl) (by delta Machine.pairSlots; rfl)
theorem feltIn : Statement .feltIn :=
  fieldsOther (by delta wordFields; rfl) (by delta Machine.pairSlots; rfl)
theorem feltOut : Statement .feltOut :=
  fieldsOther (by delta wordFields; rfl) (by delta Machine.pairSlots; rfl)
theorem feltCkpt : Statement .feltCkpt :=
  fieldsOther (by delta wordFields; rfl) (by delta Machine.pairSlots; rfl)
theorem feltRestore : Statement .feltRestore :=
  fieldsOther (by delta wordFields; rfl) (by delta Machine.pairSlots; rfl)
theorem registerWrite : Statement .registerWrite :=
  fieldsOther (by delta wordFields; rfl) (by delta Machine.pairSlots; rfl)
theorem hostCopyHeadWrite : Statement .hostCopyHeadWrite :=
  fieldsOther (by delta wordFields; rfl) (by delta Machine.pairSlots; rfl)
theorem hpublenWrite : Statement .hpublenWrite :=
  fieldsOther (by delta wordFields; rfl) (by delta Machine.pairSlots; rfl)
theorem hostPublication : Statement .hostPublication :=
  fieldsOther (by delta wordFields; rfl) (by delta Machine.pairSlots; rfl)
theorem tbset : Statement .tbset :=
  fieldsOther (by delta wordFields; rfl) (by delta Machine.pairSlots; rfl)
theorem timeSyncExchange : Statement .timeSyncExchange :=
  fieldsOther (by delta wordFields; rfl) (by delta Machine.pairSlots; rfl)
theorem damaskRequest : Statement .damaskRequest :=
  fieldsOther (by delta wordFields; rfl) (by delta Machine.pairSlots; rfl)
theorem stale : Statement .stale :=
  fieldsOther (by delta wordFields; rfl) (by delta Machine.pairSlots; rfl)
theorem heartbeatSend : Statement .heartbeatSend :=
  fieldsOther (by delta wordFields; rfl) (by delta Machine.pairSlots; rfl)
theorem heartbeatSlow : Statement .heartbeatSlow :=
  fieldsOther (by delta wordFields; rfl) (by delta Machine.pairSlots; rfl)
theorem heartbeatDead : Statement .heartbeatDead :=
  fieldsOther (by delta wordFields; rfl) (by delta Machine.pairSlots; rfl)
theorem dead : Statement .dead :=
  fieldsOther (by delta wordFields; rfl) (by delta Machine.pairSlots; rfl)
theorem joinNotice : Statement .joinNotice :=
  fieldsOther (by delta wordFields; rfl) (by delta Machine.pairSlots; rfl)
theorem linkRetrainFail : Statement .linkRetrainFail :=
  fieldsOther (by delta wordFields; rfl) (by delta Machine.pairSlots; rfl)
theorem ildropRead : Statement .ildropRead :=
  fieldsOther (by delta wordFields; rfl) (by delta Machine.pairSlots; rfl)
theorem outputEnable : Statement .outputEnable :=
  fieldsOther (by delta wordFields; rfl) (by delta Machine.pairSlots; rfl)
theorem poseseqWrite : Statement .poseseqWrite :=
  fieldsOther (by delta wordFields; rfl) (by delta Machine.pairSlots; rfl)
theorem presentWordRead : Statement .presentWordRead :=
  fieldsOther (by delta wordFields; rfl) (by delta Machine.pairSlots; rfl)
theorem frameScanStart : Statement .frameScanStart :=
  fieldsOther (by delta wordFields; rfl) (by delta Machine.pairSlots; rfl)
theorem powerOn : Statement .powerOn :=
  fieldsOther (by delta wordFields; rfl) (by delta Machine.pairSlots; rfl)
theorem coldStart : Statement .coldStart :=
  fieldsOther (by delta wordFields; rfl) (by delta Machine.pairSlots; rfl)
theorem warmStart : Statement .warmStart :=
  fieldsOther (by delta wordFields; rfl) (by delta Machine.pairSlots; rfl)
theorem autoRestart : Statement .autoRestart :=
  fieldsOther (by delta wordFields; rfl) (by delta Machine.pairSlots; rfl)
theorem thermalThrottle : Statement .thermalThrottle :=
  fieldsOther (by delta wordFields; rfl) (by delta Machine.pairSlots; rfl)
theorem thermalRecover : Statement .thermalRecover :=
  fieldsOther (by delta wordFields; rfl) (by delta Machine.pairSlots; rfl)
theorem thermalShutdown : Statement .thermalShutdown :=
  fieldsOther (by delta wordFields; rfl) (by delta Machine.pairSlots; rfl)
theorem variableLatencyResultReturn : Statement .variableLatencyResultReturn :=
  fieldsOther (by delta wordFields; rfl) (by delta Machine.pairSlots; rfl)
theorem hostDeviceMemoryAccess : Statement .hostDeviceMemoryAccess :=
  fieldsOther (by delta wordFields; rfl) (by delta Machine.pairSlots; rfl)
theorem heartbeatReceive : Statement .heartbeatReceive :=
  fieldsOther (by delta wordFields; rfl) (by delta Machine.pairSlots; rfl)
theorem linkError : Statement .linkError :=
  fieldsOther (by delta wordFields; rfl) (by delta Machine.pairSlots; rfl)

end Laws.Fields
end Sys2Proof
end

