-- ==== Sys2Proof/Tests/Slice0.lean ====
section
/-! SUPPORT. Tests: words the manual works out, terms that are refused, one-step results the manual gives, and a witness for
the hypotheses of each statement. -/
namespace Sys2Proof.Tests

open Sys2Proof Sys2Proof.Machine

set_option maxRecDepth 100000
set_option Elab.async false

-- operands and states

def h0 : Hdr := { sw := false, gn := false, gp := 31 }
def ar : Arith :=
  { d := 4, a := 8, b := 9, i := false, ra := false, rb := false, ty := .i32, rm := .rne, fs := false, sub := 0, c := 10 }
def ct : Ctl := { d := 4, a := 8, b := 9, u := false, bp := 0x40, ofl := 2 }
def ma : Mat :=
  { d := 2, a := 0, b := 32, fmt := .q4q8, gs := .g32, oe := false, od := 1, bs := 0, opn := false, cls := false, cv := 1 }
def lo : Loc := { d := 8, a := 4, b := 12, space := .sh, width := .b32, split := false, aux := 0, off := 0x010 }
def mn : Main := { d := 20, a := 6, b := 22, scope := .lane, evp := 0, lu := false, ls := false, cq := 3, opx := 0 }
def en : Eng := { d := 20, a := 6, b := 22, scope := .lane, sq := 0, cq := 2, opx := 0 }
def un : Unt := { d := 20, a := 6, b := 24, mode := 0 }
def sy : Sys := { d := 10, a := 8, b := 4, sub := 0 }
def sl : SlotArgs := { pg := .always, d := 4, b := 8, imm := 0 }
def sl1 : PairSlot := { op := .fmul, args := { pg := .p0, d := 5, b := 10, imm := 0 } }

/-- The bundle of the placed word. -/
def here : BundleId := { team := 2, group := 0, slot := 0 }

/-- The placed word's bundle about to execute the word `w` at 0x10000. -/
def base (w : Nat) : State := { State.reset.withFetchWord 64 w with subject := .bundle here }

/-- The same with a team of `n` lanes, 4 KiB of team memory and 4 KiB of scratchpad. -/
def team (n : Nat) : State :=
  let s := base 0
  { s with
    gangs := s.gangs.map fun g => { g with scratch := 4096 },
    teams := [startTeam
      { id := 2, gang := 1, index := 0, size := n, nregs := 256, shared := 4096, spillUnits := 320, ntiles := 16, ncvs := 16,
        hlp := false, place := .core 0 0 0 0 0, hws := [0], entry := BitVec.ofNat 64 wordVA, params := [0], now := 0,
        frame := 0, frameLen := 0 }] }

def emptyBun : Bun :=
  { team := 2, group := 0, slot := 0, core := 0, ctx := 0, priv := true, pc := 0, slots := [], live := [], act := [], plive := [] }

/-- The bundle as the word with the header `h` sees it. -/
def bun (s : State) (h : Hdr) : Bun := (s.bun? h here).getD emptyBun

/-- Register `n` of lane `j` set. -/
def put (j n v : Nat) (s : State) : State := s.updLane 2 0 j fun l => l.setReg n (BitVec.ofNat 32 v)

/-- The pair at `n` of lane `j` set. -/
def put2 (j n v : Nat) (s : State) : State := s.updLane 2 0 j fun l => l.setPair n (BitVec.ofNat 64 v)

def theTeam (s : State) : Team := (s.team? 2).getD (startTeam
  { id := 9, gang := 9, index := 0, size := 0, nregs := 0, shared := 0, spillUnits := 0, ntiles := 0, ncvs := 0, hlp := false,
    place := .core 0 0 0 0 0, hws := [], entry := 0, params := [], now := 0, frame := 0, frameLen := 0 })

/-- The word executed by the placed bundle, and then register `n` of its first lane. -/
def regAfter (i : Instr) (s : State) (n : Nat) : Option W32 :=
  match exec i s with
  | .next t => (t.lane? 2 0 0).map fun l => l.reg n
  | _ => none

/-- The state after the word. -/
def after (i : Instr) (s : State) : State :=
  match exec i s with
  | .next t => t
  | _ => s

/-- The lane part of a class 0-4 word, by the word itself: its first lane afterwards. -/
def laneAfter (i : Instr) (s : State) : Lane :=
  match exec i s with
  | .next t => (t.lane? 2 0 0).getD emptyLane
  | _ => emptyLane

-- every word form is ready in the placed state: its bundle issues, no trap of its own stands before it

def words0 : List Instr :=
  [.add h0 ar, .sub h0 ar, .addc h0 ar, .subb h0 ar, .mul h0 ar, .mulh h0 ar, .mad h0 ar, .madw h0 ar, .div_ h0 ar,
   .rem_ h0 ar, .min_ h0 ar, .max_ h0 ar, .abs h0 ar, .neg h0 ar, .adds h0 ar, .subs h0 ar, .clamp h0 ar, .lea h0 ar,
   .cmp h0 ar, .sel h0 ar, .movi h0 4 42, .movh h0 4 42, .dp4 h0 ar, .and_ h0 ar, .or_ h0 ar, .xor_ h0 ar, .andn h0 ar,
   .not_ h0 ar, .shl h0 ar, .shr h0 ar, .sar h0 ar, .rotl h0 ar, .bfx h0 ar, .bfi h0 ar, .popc h0 ar, .clz h0 ar,
   .ctz h0 ar, .brev h0 ar, .prmt h0 ar, .lop3 h0 ar, .fadd h0 ar, .fsub h0 ar, .fmul h0 ar, .ffma h0 ar, .fmin h0 ar,
   .fmax h0 ar, .fcmp h0 ar, .fclass h0 ar, .hfma2 h0 ar, .hadd2 h0 ar, .hmul2 h0 ar, .hdot2 h0 ar, .fmed3 h0 ar,
   .frcp h0 ar, .frsq h0 ar, .fsqrt h0 ar, .fdiv h0 ar, .fex2 h0 ar, .flg2 h0 ar, .fsin h0 ar]

def words1 : List Instr :=
  [.fcos h0 ar, .dadd h0 ar, .dmul h0 ar, .dfma h0 ar, .dcmp h0 ar, .cvt h0 ar, .frnd h0 ar, .packH h0 ar, .packW h0 ar,
   .unpk h0 ar, .mov h0 ar, .movImm h0 ar, .pset h0 ar, .psetAll h0 ar, .pget h0 ar, .pgetAll h0 ar, .pand h0 ar,
   .por h0 ar, .pxor h0 ar, .pnot h0 ar, .rdsr h0 ar, .wrsr h0 ar, .vwset h0 ar, .nop h0 ar, .bra h0 ct, .brx h0 ct,
   .call h0 ct, .callx h0 ct, .ret h0 ct, .loop h0 ct, .loopImm h0 ct, .loopPop h0 ct, .exit h0 ct, .yield h0 ct,
   .sleep h0 ct, .sleepUntil h0 ct, .trap h0 ct, .prio h0 ct, .qswap h0 ar, .qdd h0 ar, .hlpOff h0 ar, .hlpOn h0 ar,
   .hlpIs h0 ar, .shfl h0 ar, .vote h0 ar, .voteBallot h0 ar, .match_ h0 ar, .compact h0 ar, .reform h0 ar, .sign h0 ar,
   .join_ h0 ar, .cvset h0 ar, .bar h0 ar, .gbar h0 ar, .spawn h0 ar, .launch h0 ar, .redux h0 ar, .mma h0 ma, .mmaq h0 ma,
   .tzero h0 ma]

def words2 : List Instr :=
  [.tfill h0 ma, .tmov h0 ma, .tld h0 ma, .tst h0 ma, .tstat h0 ma, .qnt h0 ma, .olset h0 ma, .olcnt h0 ma, .dqnt h0 ma,
   .ld h0 lo, .st h0 lo, .gath h0 lo, .scat h0 lo, .atom h0 lo, .atomc h0 lo, .pchk h0 lo, .mon h0 lo, .mwait h0 lo,
   .mwaitTimeout h0 lo, .cpyin h0 mn, .cpyout h0 mn, .cpyg h0 mn, .cpys h0 mn, .fatom h0 mn, .fatomNr h0 mn, .fcas h0 mn,
   .fence h0 mn, .publ h0 mn, .mhint h0 mn, .mcast h0 mn, .bclose h0 en, .waitb h0 en, .qfence h0 en, .chain h0 en,
   .decod h0 en, .dtab h0 en, .sgo h0 en, .qpop h0 en, .qstat h0 en, .qstatCq h0 en, .apush h0 en, .aseg h0 en, .ray h0 un,
   .trhold h0 un, .trswap h0 un, .trstat h0 un, .filt h0 un, .hgrid h0 un, .bank h0 un, .rfe h0 sy, .csave h0 sy,
   .crest h0 sy, .tlbinv h0 sy, .replay h0 sy, .xinj h0 sy, .elog h0 sy, .elogClr h0 sy, .halt h0 sy]

def pairWords : List Instr :=
  [.pairAdd false sl sl1, .pairSub false sl sl1, .pairMinI32 false sl sl1, .pairMaxI32 false sl sl1,
   .pairMinN32 false sl sl1, .pairMaxN32 false sl sl1, .pairAnd false sl sl1, .pairOr false sl sl1, .pairXor false sl sl1,
   .pairShl false sl sl1, .pairShr false sl sl1, .pairSar false sl sl1, .pairMov false sl sl1, .pairMovi false sl sl1,
   .pairFadd false sl sl1, .pairFsub false sl sl1, .pairFmul false sl sl1, .pairFmin false sl sl1, .pairFmax false sl sl1,
   .pairHadd2 false sl sl1, .pairHmul2 false sl sl1, .pairAddi false sl sl1]
/-- Every word of the opcode table, full form and pair, has a state and a bundle that are ready for it. -/
theorem test_every_word_has_a_ready_state :
    (∀ i ∈ words0 ++ words1 ++ words2, Ready (base 0) i h0 (bun (base 0) h0)) ∧
    ∀ i ∈ pairWords, Ready (base 0) i plainHdr (bun (base 0) plainHdr) := by decide +kernel

-- well-formedness: a term that each check refuses (R55, R57, R59, R66, R67, R76, R77 and the tables of each class)

/-- GP 24 is reserved; GN must be 0 with GP 31. -/
theorem test_wf_guard : (Instr.add { h0 with gp := 24 } { ar with c := 0 }).wf = false ∧
    (Instr.add { h0 with gn := true } { ar with c := 0 }).wf = false ∧
    (Instr.add { h0 with gp := 23, gn := true } { ar with c := 0 }).wf = true := by decide +kernel

/-- `addc` takes unsigned types; RM must be 0 in an integer word; FS in a logic word; SUB of `cmp` is 0-5. -/
theorem test_wf_row : (Instr.addc h0 ar).wf = false ∧ (Instr.add h0 { ar with rm := .rz }).wf = false ∧
    (Instr.and_ h0 { ar with ty := .b32, fs := true, c := 0 }).wf = false ∧
    (Instr.cmp h0 { ar with sub := 6, c := 0 }).wf = false ∧ (Instr.cmp h0 { ar with sub := 5, c := 0 }).wf = true ∧
    (Instr.mad h0 { ar with i := true }).wf = false := by decide +kernel

/-- A field the row does not use must be 0; a predicate is 0-23; a 64-bit TYPE names aligned pairs. -/
theorem test_wf_fields : (Instr.add h0 ar).wf = false ∧ (Instr.add h0 { ar with c := 0 }).wf = true ∧
    (Instr.cmp h0 { ar with d := 24, c := 0 }).wf = false ∧ (Instr.add h0 { ar with ty := .i64, c := 0 }).wf = false ∧
    (Instr.add h0 { ar with ty := .i64, b := 10, c := 0 }).wf = true := by decide +kernel

/-- Single rules: no immediate for a view, no reuse bit in class 6, 16-bit `unpk` has two parts. -/
theorem test_wf_extra : (Instr.add h0 { ar with ty := .vw, i := true, b := 0, c := 0 }).wf = false ∧
    (Instr.shfl h0 { ar with ty := .b32, c := 0 }).wf = true ∧ (Instr.shfl h0 { ar with ty := .b32, ra := true, c := 0 }).wf = false ∧
    (Instr.unpk h0 { ar with ty := .n16, sub := 2, b := 0, c := 0 }).wf = false := by decide +kernel

/-- One refused term for each of the other classes (R121, R210, R237, R249, R297, R312, R371). -/
theorem test_wf_classes : (Instr.bra h0 ct).wf = false ∧ (Instr.bra h0 { ct with d := 0 }).wf = true ∧
    (Instr.mmaq h0 { ma with d := 16, od := 0 }).wf = false ∧ (Instr.mmaq h0 { ma with od := 0 }).wf = true ∧
    (Instr.ld h0 { lo with space := .mm, b := 0 }).wf = false ∧ (Instr.ld h0 { lo with b := 0 }).wf = true ∧
    (Instr.cpyin h0 { mn with opx := 0x100 }).wf = false ∧ (Instr.cpyin h0 { mn with ls := true, opx := 0xA01 }).wf = true ∧
    (Instr.cpyin h0 { mn with ls := true, opx := 0xB01 }).wf = false ∧
    (Instr.waitb h0 { en with d := 0, a := 0, b := 0, opx := 16 }).wf = false ∧
    (Instr.waitb h0 { en with d := 0, a := 0, b := 0, opx := 15 }).wf = true ∧
    (Instr.ray h0 { un with mode := 3 }).wf = false ∧ (Instr.ray h0 { un with mode := 2 }).wf = true ∧
    (Instr.tlbinv h0 { sy with d := 0, sub := 2 }).wf = false ∧ (Instr.tlbinv h0 { sy with d := 0, sub := 1 }).wf = true := by
  decide +kernel

/-- The pair rule: one destination, or one bank, in both slots is refused; an unused field of a slot is 0 (R66, R67). -/
theorem test_wf_pair : (Instr.pairAdd false sl sl1).wf = true ∧
    (Instr.pairAdd false sl { sl1 with args := { sl1.args with d := 4 } }).wf = false ∧
    (Instr.pairAdd false sl { sl1 with args := { sl1.args with b := 12 } }).wf = false ∧
    (Instr.pairAdd false { sl with imm := 1 } sl1).wf = false := by decide +kernel

-- decoding: words laid out field by field from the tables, and words the manual works out

/-- S Q GN GP CLASS INDEX D A B, then X as R58 lays it out: `add.i32 v4, v8, v9` (R54, R57, R58). -/
theorem test_decode_add : decode (0b0#1 ++ 0b0#1 ++ 0b0#1 ++ 0b11111#5 ++ 0b0000#4 ++ 0b000001#6 ++ 0x04#8 ++ 0x08#8 ++ 0x09#8 ++
    0b0000010000000000000000#22) = .add h0 { ar with c := 0 } := by decide +kernel

/-- `movi v2, 42 ^`, X the immediate (R60). -/
theorem test_decode_movi : decode 0x9F0540800000002A = .movi { h0 with sw := true } 2 42 := by decide +kernel

/-- `lop3` takes its table from TYPE and SUB: 0x96 is a ^ b ^ c (R101). -/
theorem test_decode_lop3 : decode 0x1F14004080C48604 =
    .lop3 h0 { ar with d := 1, a := 2, b := 3, ty := .bf16, sub := 6, c := 4 } := by decide +kernel

/-- `ffma.f32.rz v4, v8, v9, v10 ^` (R58). -/
theorem test_decode_ffma : decode 0x9F20C1020245200A =
    .ffma { h0 with sw := true } { ar with ty := .f32, rm := .rz } := by decide +kernel

/-- `cvt.f16.f32 v3, v7`: the source format stands in SUB (R111). -/
theorem test_decode_cvt : decode 0x1F3300C1C0040A00 =
    .cvt h0 { ar with d := 3, a := 7, b := 0, ty := .f16, sub := 0xA, c := 0 } := by decide +kernel

/-- Class 4 with I = 0 and 1: `mov` and its immediate form share an index (R114). -/
theorem test_decode_mov : decode (0b0#1 ++ 0b0#1 ++ 0b1#1 ++ 0b00010#5 ++ 0b0100#4 ++ 0b000000#6 ++ 0x03#8 ++ 0x07#8 ++ 0x00#8 ++
      0b0001111000000000000000#22) =
      .mov { sw := false, gn := true, gp := 2 } { ar with d := 3, a := 7, b := 0, ty := .b32, c := 0 } ∧
    decode (0b0#1 ++ 0b0#1 ++ 0b0#1 ++ 0b11111#5 ++ 0b0100#4 ++ 0b000000#6 ++ 0x03#8 ++ 0x00#8 ++ 0x00#8 ++
      0b1001111000000000000101#22) = .movImm h0 { ar with d := 3, a := 0, b := 0, i := true, ty := .b32, c := 5 } := by
  decide +kernel

/-- `bra.u` five words back with priority 0x40; `loop v9` to two words on; `ret v10 ^` (R122, R126, R124). -/
theorem test_decode_control : decode 0x9F50003FFFE81FFB =
      .bra { h0 with sw := true } { d := 0, a := 0xFF, b := 0xFF, u := true, bp := 0x40, ofl := 0x1FFB } ∧
    decode 0x1F51400240000002 = .loop h0 { d := 0, a := 9, b := 0, u := false, bp := 0, ofl := 2 } ∧
    decode 0x9F51000280000000 = .ret { h0 with sw := true } { d := 0, a := 10, b := 0, u := false, bp := 0, ofl := 0 } := by
  decide +kernel

/-- `shfl.xor.b32 v6, v5, 1` (R174). -/
theorem test_decode_shfl : decode 0x1F60C18140278301 =
    .shfl h0 { ar with d := 6, a := 5, b := 0, i := true, ty := .b32, sub := 3, c := 1 } := by decide +kernel

/-- `qnt.q4q8.g32.bs0 v0, v64, 1, od1` and `mmaq.q4q8.g32.bs0 t2, v0, v32, cv1, od1 ^` (R210, R216). -/
theorem test_decode_matrix : decode 0x1F7200100054A000 =
      .qnt h0 { ma with d := 0, a := 64, b := 1, oe := true, cv := 0 } ∧
    decode 0x9F7040800814A020 = .mmaq { h0 with sw := true } { ma with oe := true } := by decide +kernel

/-- `gath.sc.b32.x2.split v8, [v4+32], v12, cv1` and `ld.sh.b64 v8, [v6+0] ^` (R237, R242). -/
theorem test_decode_local : decode 0x1F808201030A9021 =
      .gath h0 { lo with space := .sc, split := true, aux := 1, off := 0x021 } ∧
    decode 0x9F80020180030000 = .ld { h0 with sw := true } { lo with a := 6, b := 0, width := .b64, off := 0 } := by decide +kernel

/-- `cpyin.sc.lease.d4 [v20], [v6], v22, cq3`, `publ.team [v12], v21`, `fatom.exch.nr.w64 [v38], v36, cq1` (R249, R259). -/
theorem test_decode_main : decode 0x1F9005018580B401 = .cpyin h0 { mn with ls := true, opx := 0x401 } ∧
    decode 0x1F91C00305500000 = .publ h0 { mn with d := 0, a := 12, b := 21, scope := .team, cq := 0 } ∧
    decode 0x1F91000989001031 = .fatomNr h0 { mn with d := 0, a := 38, b := 36, cq := 1, opx := 0x031 } := by decide +kernel

/-- `bclose.mm.dev cq2, [v12]` and `waitb cq2, 1` (R297). -/
theorem test_decode_engine : decode 0x1FA0000300282003 = .bclose h0 { en with d := 0, a := 12, b := 0, scope := .device, opx := 3 } ∧
    decode 0x1FA0400000002001 = .waitb h0 { en with d := 0, a := 0, b := 0, opx := 1 } := by decide +kernel

/-- `bank [v6], [v4]` (R338). -/
theorem test_decode_unit : decode 0x1FB1818100000000 = .bank h0 { d := 6, a := 4, b := 0, mode := 0 } := by decide +kernel

/-- `elog v18, v16 ^`, `xinj v8, v9`, `rfe`, `replay` (R371). -/
theorem test_decode_system : decode 0x9FC1848400000000 = .elog { h0 with sw := true } { d := 18, a := 16, b := 0, sub := 0 } ∧
    decode 0x1FC1400202400000 = .xinj h0 { d := 0, a := 8, b := 9, sub := 0 } ∧
    decode 0x1FC0000000000000 = .rfe h0 { d := 0, a := 0, b := 0, sub := 0 } ∧
    decode 0x1FC1000000000000 = .replay h0 { d := 0, a := 0, b := 0, sub := 0 } := by decide +kernel

/-- `add.i32 v4, v8 || ?p0 fmul.f32 v5, v10 ^` (R66). -/
theorem test_decode_pair : decode 0xC001020020828500 = .pairAdd true sl sl1 := by decide +kernel

def refusal (w : W64) : Option DecodeError := match decode? w with | .ok _ => none | .error e => some e

/-- The all-zero and the all-ones word, a reserved bit set, an unassigned index, a reserved pair opcode: rejected by name. -/
theorem test_decode_rejects : refusal 0 ≠ none ∧ refusal (BitVec.allOnes 64) = some .reservedPairOpcode ∧
    refusal 0x1FC0000000000010 = some .reservedBitSet ∧ refusal 0x1F00000000000000 = some .unassignedOpcode ∧
    refusal 0x1F90000000380000 = some .reservedValue ∧ refusal 0x1800400000000000 = some .reservedGuard := by decide +kernel

/-- The host's numbering of bits is the word's own; the bytes lie least significant first (R7). -/
theorem test_decode_table_word : decodeTableWord 64 0x1FC0000000000000 = some (.rfe h0 { d := 0, a := 0, b := 0, sub := 0 }) ∧
    (bytesOfWord 0x1FC0000000000000).getLast? = some 0x1F := by decide +kernel

-- one-step results the manual works out

def ar0 : Arith := { ar with c := 0 }

/-- `add.i32.sat` of 0x7FFFFFFF and 1 stays and sets SA; `add.i8` wraps and sign-extends (R96). -/
theorem test_add_borderlines :
    (let l := laneAfter (.add h0 { ar0 with fs := true }) (put 0 9 1 (put 0 8 0x7FFFFFFF (base 0)));
      l.reg 4 = 0x7FFFFFFF ∧ l.fpstat = 0x40 ∧ l.pc = 0x10008) ∧
    (let l := laneAfter (.add h0 { ar0 with ty := .i8 }) (put 0 9 1 (put 0 8 0x7F (base 0)));
      l.reg 4 = 0xFFFFFF80 ∧ l.fpstat = 0) := by decide +kernel

/-- `sub.n32.sat` of 3 and 5 is 0 with SA; `adds.i32` into p4 reports the overflow without a flag (R96). -/
theorem test_sub_adds_borderlines :
    (let l := laneAfter (.sub h0 { ar0 with ty := .n32, fs := true }) (put 0 9 5 (put 0 8 3 (base 0)));
      l.reg 4 = 0 ∧ l.fpstat = 0x40) ∧
    (let l := laneAfter (.adds h0 { ar with c := 4 }) (put 0 9 1 (put 0 8 0x7FFFFFFF (base 0)));
      l.reg 4 = 0x80000000 ∧ l.pred 4 = true ∧ l.fpstat = 0) := by decide +kernel

/-- `mulh` signed and unsigned; `abs.sat` of the least value; `dp4` (R96). -/
theorem test_mulh_abs_dp4 :
    regAfter (.mulh h0 ar0) (put 0 9 0x80000000 (put 0 8 0x80000000 (base 0))) 4 = some 0x40000000 ∧
    regAfter (.mulh h0 { ar0 with ty := .n32 }) (put 0 9 0xFFFFFFFF (put 0 8 0xFFFFFFFF (base 0))) 4 = some 0xFFFFFFFE ∧
    regAfter (.abs h0 { ar0 with b := 0, fs := true }) (put 0 8 0x80000000 (base 0)) 4 = some 0x7FFFFFFF ∧
    regAfter (.dp4 h0 ar) (put 0 10 1000 (put 0 9 0x02030405 (put 0 8 0x80FF0102 (base 0)))) 4 = some 0x000002F3 := by
  decide +kernel

/-- Division: -7 by 2 and by 0, 7 by 0 unsigned, the least value by -1 (R94, R96). -/
theorem test_divide_borderlines : divide 32 true (-7) 2 = (-3, -1) ∧
    divide 32 true (-7) 0 = (-(2 ^ 31), -7) ∧ divide 32 false 7 0 = (0xFFFFFFFF, 7) ∧
    divide 32 true (-(2 ^ 31)) (-1) = (-(2 ^ 31), 0) := by decide +kernel

/-- A `div` alone in its run joins a result and writes no register yet (R69, R70). -/
theorem test_div_is_late :
    (let l := laneAfter (.div_ h0 ar0) (put 0 9 2 (put 0 8 7 (base 0)));
      l.reg 4 = 0 ∧ l.results.map (·.writes) = [[(4, 3)]]) := by decide +kernel

/-- The `bfx` and `prmt` examples (R99, R100). -/
theorem test_bfx_prmt : fieldExtract true 0x00000F00 0x00000408 = 0xFFFFFFFF ∧
    fieldExtract false 0x00000F00 0x00000408 = 0x0000000F ∧
    permute 0x44332211 0x88776655 0x14070400 = 0x00885511 ∧ permute 0x44332211 0x88776655 0x18070400 = 0x88885511 := by
  decide +kernel

/-- Truth table 0x96 is the three-way exclusive or (R101). -/
theorem test_lop3 : lut3 0x96 0x0F0F0F0F 0x33333333 0x55555555 = 0x69696969 := by decide +kernel

/-- Shifts by the width or more; a rotation uses the count modulo the width (R98). -/
theorem test_shifts :
    regAfter (.shl h0 { ar0 with ty := .b32 }) (put 0 9 32 (put 0 8 0xFFFFFFFF (base 0))) 4 = some 0 ∧
    regAfter (.sar h0 ar0) (put 0 9 40 (put 0 8 0x80000000 (base 0))) 4 = some 0xFFFFFFFF ∧
    regAfter (.rotl h0 { ar0 with ty := .b32 }) (put 0 9 36 (put 0 8 0x80000001 (base 0))) 4 = some 0x00000018 := by decide +kernel

/-- `movi` sign-extends; `movh` keeps the low ten bits (R60). -/
theorem test_wide_constants : regAfter (.movi h0 4 0x3FFFFF) (base 0) 4 = some 0xFFFFFFFF ∧
    regAfter (.movh h0 4 0x123456) (put 0 4 0x3FF (base 0)) 4 = some 0x48D15BFF := by decide +kernel

/-- `cvt.f16.f32` of 65,520 overflows to infinity with OF and NX (R111). -/
theorem test_cvt_overflow :
    (let l := laneAfter (.cvt h0 { ar with d := 3, a := 7, b := 0, ty := .f16, sub := 0xA, c := 0 }) (put 0 7 0x477FF000 (base 0));
      l.reg 3 = 0x00007C00 ∧ l.fpstat = 0x14) := by decide +kernel

/-- A guard that fails leaves the lane's registers and goes on (R23). -/
theorem test_guard_false :
    (let l := laneAfter (.add { sw := false, gn := false, gp := 0 } ar0) (put 0 9 1 (base 0)); l.reg 4 = 0 ∧ l.pc = 0x10008) := by
  decide +kernel

/-- A pair word reads before it writes and its slots have their own guards: p0 is 0, so slot 1 does nothing (R66). -/
theorem test_pair :
    (let l := laneAfter (.pairAdd false sl sl1) (put 0 5 7 (put 0 8 3 (put 0 4 2 (base 0)))); l.reg 4 = 5 ∧ l.reg 5 = 7) := by
  decide +kernel

/-- The call of the manual's example leaves {priority, 0x10008} and goes two words on with priority 8 (R123). -/
theorem test_call :
    (let l := laneAfter (.call h0 { d := 10, a := 0, b := 0, u := false, bp := 8, ofl := 2 }) (base 0);
      l.pc = 0x10010 ∧ l.prio = 8 ∧ l.pair 10 = 0x10008) := by decide +kernel

/-- A loop of one word runs its count: at the end word with count 2 the lane goes back, with count 1 it goes on (R127). -/
theorem test_loop_end :
    (let l : Lane := { emptyLane with loops := [{ start := 0x100, stop := 0x108, count := 2 }] };
      (l.advance 0x108).pc = 0x100 ∧ ((l.advance 0x108).advance 0x108).pc = 0x110 ∧
      ((l.advance 0x108).advance 0x108).loops = []) := by decide +kernel

/-- `loop` with count 0 skips to the word after the end (R126). -/
theorem test_loop_zero :
    (laneAfter (.loop h0 { d := 0, a := 9, b := 0, u := false, bp := 0, ofl := 2 }) (base 0)).pc = 0x10018 := by decide +kernel

/-- The canonical code of the decode example, and its output; the stream ends after ten symbols (R304, R305). -/
theorem test_decode_example :
    (let table := (List.range 256).map fun i => (if i = 0 then 1 else if i = 1 then 2 else if i = 127 ∨ i = 255 then 3 else 0 : Byte);
     let bits := streamBits [(0x2F, false), (0x90, false)];
     (codeOf table).map (fun c => (decodeOutput (decodeBits c 8 bits) 8, (decodeBits c 11 bits).length)) =
       some ([0x00, 0x00, 0x01, 0xFF, 0x7F, 0x00, 0x01, 0x00], 10)) := by decide +kernel

/-- CRC-32C of the nine digits (R427). -/
theorem test_crc : crc32c [0x31, 0x32, 0x33, 0x34, 0x35, 0x36, 0x37, 0x38, 0x39] = 0xE3069283 := by decide +kernel

/-- The spill store of the manual: team address 0x4614, and 0x47D0 lies outside (R224; the team's S is 0x4000, SPILL 64). -/
theorem test_spill_place :
    (let t := { theTeam (team 64) with shared := 0x4000, spillUnits := 64 };
      t.spillAddr 37 0x47F0 = 0x4614 ∧ t.spillAddr 37 0x47F4 = 0x4694 ∧ t.spillOk 37 0x47F0 16 = true ∧
      t.spillOk 37 0x47D0 16 = false) := by decide +kernel

/-- A stamp is {SEQ, the low 40 bits of the completion time} (R299). -/
theorem test_stamp : ({ emptyBatch with seq := 1, time := 0x26C } : Batch).stampValue = 0x000001000000026C := by decide +kernel

/-- A store to team memory that the port performs at once: its bytes lie there least significant first (R7, R241). -/
theorem test_store :
    (List.range 5).map (fun i => LocalByte (after (.st h0 { lo with d := 0 })
      (put 0 12 0x11223344 (put 0 4 0x40 (team 1)))) 2 .sh (0x50 + i)) = [0x44, 0x33, 0x22, 0x11, 0] := by decide +kernel

/-- A store outside the grant raises 0x11; with no handler for it the team is killed with CAUSE 1 (R239, R356). -/
theorem test_store_outside :
    (theTeam (after (.st h0 { lo with d := 0 }) (put 0 4 0x2000 (team 1)))).dying.map (fun p => (p.1, p.2.1)) = some (1, 0x11) := by decide +kernel

/-- An illegal word in a context whose TVEC names a handler takes trap 0x01 there: 160 bytes below `$spill`, HND set (R353). -/
theorem test_trap_entry :
    (let s := team 1;
     let s := { s with priv := { s.priv with descs := setN s.priv.descs 0 (wordDesc.set 24 0x0500000000020000) } };
     let l := laneAfter (.illegalInstruction 0) s;
     l.pc = 0x20000 ∧ l.prio = 5 ∧ l.hnd = true ∧ l.spill = ((theTeam s).spillTop 0 - 160 : Nat)) := by decide +kernel

-- witnesses: states and operands that meet the hypotheses of each statement

def placed : Move := { ticks := 0, clocks := 0, act := .issue here }

/-- DecodeOfEncode: well-formed words at the ends of their fields' ranges. -/
theorem test_witness_DecodeOfEncode :
    (let i : Instr := .add { sw := true, gn := true, gp := 23 } { ar0 with d := 255, a := 255, b := 255, fs := true };
      i.wf = true ∧ encode i = some 0xB7007FFFFFC11000) ∧
    (let i : Instr := .pairMovi true { sl with b := 0, imm := 127 } sl1; i.wf = true ∧ (encode i).isSome = true) := by
  decide +kernel

/-- No row of the opcode table has the class 0xD (R57). -/
theorem no_row_of_class_D (i : Instr) : (opcodeOf i).all (fun op => op.1 != 0xD) = true := by
  cases i <;> rfl

/-- The class stands at [55:52] (R54). -/
theorem class_of_packFull (h : Hdr) (op f) : (packFull h op f).extractLsb' 52 4 = op.1 := by
  simp (disch := decide) only [packFull, FullWord.pack, extract_in, extract_top]

/-- A pair word has Q = 1 (R54, R66). -/
theorem form_of_packPair (sw : Bool) (x y : PairSlot) : (packPair sw x y).getLsbD 62 = true := by
  simp (disch := decide) only [packPair, bit_low, bit_skip]
  rfl

/-- EveryWordDecodesOnce: a word that no instruction encodes to. -/
theorem test_witness_no_encoding (i : Instr) (hi : ∀ v, i ≠ .illegalInstruction v) :
    encode i ≠ some 0x1FD0000000000000 := by
  intro e
  have full : ∀ h op f, packFull h op f = 0x1FD0000000000000 → op.1 = 0xD := fun h op f e => by
    rw [← class_of_packFull h op f, e]; rfl
  have pair : ∀ sw x y, packPair sw x y ≠ 0x1FD0000000000000 := fun sw x y e => by
    have := form_of_packPair sw x y
    rw [e] at this; cases this
  unfold encode at e
  split at e
  · exact absurd (full _ _ _ (Option.some.inj e)) (by decide)
  · exact absurd (full _ _ _ (Option.some.inj e)) (by decide)
  · exact hi _ rfl
  · split at e
    · exact pair _ _ _ (Option.some.inj e)
    · split at e
      · next op _ _ ho _ =>
        have := no_row_of_class_D i
        simp [ho, full _ _ _ (Option.some.inj e)] at this
      · cases e

/-- EveryWordDecodesOnce: a word at each end of each range; the first INDEX that each class leaves free, and 0 in class 0. -/
theorem test_witness_IllegalWordsDecode :
    (∀ w ∈ [0x1800000000000000, 0x1E00000000000000], ∀ v : W64, v = BitVec.ofNat 64 w →
      v.getLsbD 62 = false ∧ 24 ≤ (v.extractLsb' 56 5).toNat ∧ (v.extractLsb' 56 5).toNat ≤ 30) ∧
    (let v : W64 := 0x3F00000000000000; v.getLsbD 62 = false ∧ v.extractLsb' 56 5 = 31 ∧ v.getLsbD 61 = true) ∧
    (∀ w ∈ [0x1FD0000000000000, 0x1FF0000000000000], ∀ v : W64, v = BitVec.ofNat 64 w →
      v.getLsbD 62 = false ∧ 0xD ≤ (v.extractLsb' 52 4).toNat) ∧
    (∀ p ∈ [0x17, 0x10, 0x0C, 0x0F, 0x0A, 0x0A, 0x0F, 0x0B, 0x08, 0x09, 0x0A, 0x06, 0x07].zipIdx,
      let v : W64 := BitVec.ofNat 64 (0x1F * 2 ^ 56 + p.2 * 2 ^ 52 + (p.1 + 1) * 2 ^ 46);
      v.getLsbD 62 = false ∧ (v.extractLsb' 52 4).toNat = p.2 ∧ p.1 < (v.extractLsb' 46 6).toNat ∧ refusal v.toNat ≠ none) ∧
    (let v : W64 := 0x1F00000000000000; (v.extractLsb' 52 4).toNat = 0 ∧ (v.extractLsb' 46 6).toNat = 0) := by
  refine ⟨?_, by decide +kernel, ?_, by decide +kernel, by decide +kernel⟩ <;>
    (intro w hw v hv; subst hv; revert w; decide +kernel)

/-- StepRunsWord: the placed bundle is the next move, and its fetch gives the placed word. -/
theorem test_witness_StepRunsWord :
    (let s := base 0x1FC0000000000000;
     let s0 := { s with agenda := [] };
      s.agenda = [placed] ∧ s0.bun? plainHdr here = some (bun s0 plainHdr) ∧
      (s0.fetch (bun s0 plainHdr)).2 = .word 0x1FC0000000000000) ∧
    (let s := base 0x1FC0000000000000;
     let u := bun s plainHdr;
     let r := s.xlate u.ctx u.pc.toNat permFetch;
      r.2.2 = wordIA ∧ (match r.2.1 with | .ok (.dev 0 0x10000) _ => true | _ => false) = true ∧
      (r.1.stack 0).fetchable (0x10000 / 128) u = true ∧
      ((r.1.icacheRead u r.2.2).lineErrors 0 (0x10000 / 128) u.ctx (wordIA / 128 * 128) false true).2 = { words := [], sel := none }) := by
  decide +kernel

/-- StepRunsWord, as a run: the very next step executes the placed `movi v2, 42`. -/
theorem test_step_runs_placed_word :
    (match step (State.reset.withFetchWord 64 0x1F0540800000002A) with
      | .next t => (t.lane? 2 0 0).map fun l => (l.reg 2, l.pc)
      | _ => none) = some (42, 0x10008) := by decide +kernel

/-- StepTakesOtherMoves: an entry that is not there, a page without a span, a page that is not resident, an event now and one
after time has passed. -/
theorem test_witness_StepTakesOtherMoves :
    ({ base 0 with agenda := [] }.bun? plainHdr { here with team := 9 } = none) ∧
    (let s := { base 0 with agenda := [] };
     let s := { s with priv := { s.priv with descs := setN s.priv.descs 0 (List.replicate 27 0 ++ [BitVec.ofNat 64 (2 ^ 63)]) } };
      s.bun? plainHdr here = some (bun s plainHdr) ∧
      (match (s.fetch (bun s plainHdr)).2 with | .trap _ => true | _ => false) = true) ∧
    (let s := ({ base 0 with agenda := [] }).updStack 0 fun x =>
       { x with tlb := [{ page := wordIA / 2 ^ 16, big := false, leaf := BitVec.ofNat 64 (2 ^ 63 + 2 ^ 62 + 2 ^ 51) }] };
      s.bun? plainHdr here = some (bun s plainHdr) ∧
      (match (s.fetch (bun s plainHdr)).2 with | .park _ => true | _ => false) = true) ∧
    isEvent .powerOn = true ∧ isEvent .runEndCommit = true ∧
    (let m : Move := { ticks := 3, clocks := 0, act := .event .heartbeatReceive (.unit2 5 1) };
     let x : Move := { ticks := 0, clocks := 0, act := .event .dead (.unit2 5 1) };
      m.act.sender = some 5 ∧ x.act.declares = some 5 ∧ takeDeclaration 4 [x] = none ∧ Act.sender .wait = none) := by
  decide +kernel

/-- NarrowsIntegers: exact results at and one past each end of i8's range. -/
theorem test_witness_NarrowsIntegers :
    (∀ v ∈ [(127, 0, 0x7F, false), (127, 1, 0x7F, true), (-128, 0, 0xFFFFFF80, false), (-128, -1, 0xFFFFFF80, true)],
      let x := { ar0 with ty := .i8, fs := true };
      let l := laneAfter (.add h0 x) (put 0 9 (BitVec.ofInt 32 v.2.1).toNat (put 0 8 (BitVec.ofInt 32 v.1).toNat (base 0)));
      x.ty ≠ .vw ∧ l.reg 4 = BitVec.ofNat 32 v.2.2.1 ∧ (l.fpstat == 0x40) = v.2.2.2) := by decide +kernel

/-- CarriesAndDivisions: a sum that just reaches 2^32, and a difference of 0 and -1. -/
theorem test_witness_CarryChains :
    (let x := { ar with ty := .n32, c := 1 };
     let s := (put 0 9 1 (put 0 8 0xFFFFFFFF (base 0)));
      x.i = false ∧ (laneAfter (.addc h0 x) s).reg 4 = 0 ∧ (laneAfter (.addc h0 x) s).pred 1 = true ∧
      (laneAfter (.subb h0 x) s).pred 1 = false ∧ (laneAfter (.subb h0 x) (put 0 8 0 s)).pred 1 = true) ∧
    (let x := { ar with ty := .n64, b := 12, c := 1 };
     let s := (put2 0 12 1 (put2 0 8 (2 ^ 64 - 1) (base 0)));
      (laneAfter (.addc h0 x) s).pair 4 = 0 ∧ (laneAfter (.addc h0 x) s).pred 1 = true) := by decide +kernel

/-- CarriesAndDivisions: operands in range for each clause. -/
theorem test_witness_DividesTowardsZero :
    (∀ p ∈ [((-7 : Int), (2 : Int)), (-7, 0), (7, 0), (-(2 ^ 31), -1), (2 ^ 31 - 1, -(2 ^ 31))],
      intFits 32 true p.1 = true ∧ intFits 32 true p.2 = true) ∧
    intFits 32 false (2 ^ 32 - 1) = true ∧ intFits 32 false 0 = true := by decide +kernel

/-- ShiftsByCount: each type of each word is ready. -/
theorem test_witness_ShiftsByCount :
    (∀ x ∈ [{ ar0 with ty := .b32 }, { ar0 with ty := .n64 }, { ar0 with ty := .b32, i := true, b := 0, c := 31 }],
      ∀ i ∈ [Instr.shl h0 x, .shr h0 x, .rotl h0 x], Ready (base 0) i h0 (bun (base 0) h0)) ∧
    ∀ x ∈ [{ ar0 with ty := .i32 }, { ar0 with ty := .i64 }], Ready (base 0) (.sar h0 x) h0 (bun (base 0) h0) := by
  decide +kernel

/-- WideConstants: a register that the lane has. -/
theorem test_witness_WideConstants : (255 : Field8).toNat < (laneAfter (.nop h0 ar0) (base 0)).regs.length := by decide +kernel

/-- PoisonComesFirst: in each format one operand is poison beside a signalling NaN or a number. -/
theorem test_witness_PoisonComesFirst :
    ∀ t ∈ [Ty.f16, .bf16, .f32, .f64, .e4m3, .e5m2], tyFloat t = true ∧ (fmtOf t).decode (fmtOf t).poison = .poison := by
  decide +kernel

/-- PairWordsComplete: two slots with different destinations, both below the register count, one guard passing and one
failing. -/
theorem test_witness_PairReadsBeforeWrites :
    (let l := laneAfter (.nop h0 ar0) (base 0);
      sl.d ≠ sl1.args.d ∧ sl.d.toNat < l.regs.length ∧ sl1.args.d.toNat < l.regs.length ∧
      l.slotGuard sl.pg = true ∧ l.slotGuard sl1.args.pg = false) := by decide +kernel

/-- FloatWordsComplete: no view is of 4-bit elements, and a lane that converts a number converts no poison. -/
theorem test_witness_FloatWordsComplete :
    (∀ t ∈ [Ty.f16, .bf16, .f32, .vw], let x := { ar0 with ty := t };
      Ready (base 0) (.fadd h0 x) h0 (bun (base 0) h0) ∧ badFloatView ((base 0).viewsOf (bun (base 0) h0)) x = false) ∧
    (let x := { ar0 with ty := .i32, sub := 0xA }; let s := base 0;
      Ready s (.cvt h0 x) h0 (bun s h0) ∧ ∀ j ∈ (bun s h0).act, (s.lane (bun s h0) j).cvtPoison x = false) := by decide +kernel

/-- SpecialRegisterWordsComplete: each register `wrsr` treats of its own, the lowest and a high privileged one, and a view
value that is accepted. -/
theorem test_witness_SpecialRegisterWordsComplete :
    (∀ d ∈ [0x18, 0x19, 0x1A, 0x40, 0x44], let x := { ar0 with d := BitVec.ofNat 8 d, ty := .i8, b := 0 };
      Ready (base 0) (.wrsr h0 x) h0 (bun (base 0) h0)) ∧
    (∀ a ∈ [0x00, 0x18, 0x40], let x := { ar0 with a := BitVec.ofNat 8 a, ty := .i8, b := 0 };
      Ready (base 0) (.rdsr h0 x) h0 (bun (base 0) h0)) ∧
    (let x := { ar0 with d := 1, ty := .i8, b := 0 }; let s := put 0 8 0x11 (base 0);
      Ready s (.vwset h0 x) h0 (bun s h0) ∧
      ∀ j ∈ (bun s h0).plive, viewReserved ((s.lane (bun s h0) j).viewValue x) = false) := by decide +kernel

/-- TransfersComplete: U = 0, and U = 1 in a bundle of two lanes that all branch. -/
theorem test_witness_TransfersComplete :
    (let s := team 2; let u := bun s h0; u.live = [0, 1] ∧
      ∀ i ∈ [Instr.bra h0 ct, .call h0 ct, .brx h0 ct, .ret h0 ct, .callx h0 ct, .bra h0 { ct with u := true }],
        Ready s i h0 u) ∧
    (let s := team 2; let u := bun s h0;
      ∀ j ∈ u.live, ∀ k ∈ u.live, (if j ∈ u.act then some ((s.lane u j).pair 8) else none) =
        (if k ∈ u.act then some ((s.lane u k).pair 8) else none)) := by decide +kernel

def hp : Hdr := { sw := false, gn := false, gp := 1 }

/-- Lanes of which the first alone has p1 set. -/
def parted (n : Nat) : State := (team n).updLane 2 0 0 fun l => l.setPred 1 true

/-- DissentTraps: two lanes, of which p1 sends one away, and one lane alone. -/
theorem test_witness_DissentTraps :
    (let s := parted 2; let u := bun s hp; let x := { ct with u := true };
      (∀ i ∈ [Instr.bra hp x, .call hp x, .brx hp x, .callx hp x, .ret hp x], Ready s i hp u) ∧ u.live = [0, 1] ∧ u.act = [0]) ∧
    (let s := base 0; let x := { ct with u := true }; let u := bun s h0;
      (∀ i ∈ [Instr.bra h0 x, .call h0 x, .brx h0 x, .callx h0 x, .ret h0 x], Ready s i h0 u) ∧ u.live = [0]) := by decide +kernel

/-- DissentTraps, R351: the mask of the lanes that go another way than the lowest stands in INFO0 of the frame (R354), at
byte 0x28; here lane 1 stays while lane 0 branches. -/
theorem test_dissent_mask_in_info0 :
    (trapAt 0x03 0x10000 ((maskOf [1]).setWidth 64)).info0 = 2 ∧ (trapAt 0x03 0x10000 ((maskOf [1]).setWidth 64)).info1 = 0 := by
  decide +kernel

def loopOf (n : Nat) : LoopEntry := { start := 0x10000, stop := 0x20000, count := BitVec.ofNat 32 n }

/-- LoopWordsComplete: three loops held leave room for one more; one held can be popped; four held, and none, fault. -/
theorem test_witness_LoopWordsComplete :
    (let s := (base 0).updLane 2 0 0 fun l => { l with loops := [loopOf 1, loopOf 2, loopOf 3] }; let u := bun s h0;
      (∀ i ∈ [Instr.loop h0 ct, .loopImm h0 ct, .loopPop h0 ct, .prio h0 ct], Ready s i h0 u) ∧
      (∀ j ∈ u.act, (s.lane u j).loops.length < 4) ∧ ∀ j ∈ u.act, (s.lane u j).loops ≠ []) ∧
    (let s := (base 0).updLane 2 0 0 fun l => { l with loops := [loopOf 1, loopOf 2, loopOf 3, loopOf 4] }; let u := bun s h0;
      (∀ i ∈ [Instr.loop h0 ct, .loopImm h0 ct], Ready s i h0 u) ∧
      ∃ j ∈ u.act.filter fun j => 4 ≤ (s.lane u j).loops.length, j ∈ u.live) ∧
    (let s := base 0; let u := bun s h0;
      Ready s (.loopPop h0 ct) h0 u ∧ ∃ j ∈ u.act.filter fun j => (s.lane u j).loops.isEmpty, j ∈ u.live) := by decide +kernel

/-- CrossLaneWordsComplete: a live lane of P. -/
theorem test_witness_CrossLaneWordsComplete :
    (let s := team 5; let u := bun s h0; Ready s (.redux h0 ar0) h0 u ∧ u.plive = [0, 1, 2, 3, 4]) := by decide +kernel

/-- TeamWordsComplete: lanes that may all sign, a register with no signature, and a launch record in team memory. -/
theorem test_witness_TeamWordsComplete :
    (let s := (team 2).updTeam 2 fun t => { t with cvs := t.cvs.set 10 { ConvReg.empty with decl := tidSet [0, 1] } };
     let u := bun s h0;
      Ready s (.sign h0 ar) h0 u ∧ s.cvTraps u.team u.group ar.c.toNat u.pc u.plive = []) ∧
    (let s := team 2; let u := bun s h0;
      Ready s (.cvset h0 ar) h0 u ∧ s.team? u.team = some (theTeam s) ∧ u.plive ≠ [] ∧ ((theTeam s).cv ar.c.toNat).sgn = 0) ∧
    (let s := put 0 8 3968 (base 0 |> fun _ => team 1); let u := bun s h0;
      Ready s (.launch h0 ar) h0 u ∧ ((s.lqs.getD ar.sub.toNat LaunchQueue.reset).priv = false ∨ u.priv = true) ∧
      (∀ i ∈ u.plive, ((s.lane u i).reg ar.a.toNat).toNat % 128 = 0 ∧ ((s.lane u i).reg ar.a.toNat).toNat + 128 ≤ (theTeam s).shared) ∧
      s.linesPresent u.team (u.plive.map fun i => (Space.sh, ((s.lane u i).reg ar.a.toNat).toNat / 128)) = true) ∧
    (let s := team 2; Ready s (.hlpOn h0 ar) h0 (bun s h0) ∧ s.team? 2 = some (theTeam s)) := by decide +kernel

/-- A team of two lanes whose convergence register 1 declares both. -/
def armed : State := (team 2).updTeam 2 fun t => { t with cvs := t.cvs.set 1 { ConvReg.empty with decl := tidSet [0, 1] } }

/-- MatrixWordsComplete: lanes that may sign, a descriptor where one is named, an image at 0, a tile with nothing open. -/
theorem test_witness_MatrixWordsComplete :
    (let s := armed; let u := bun s h0; let t := theTeam s;
      Ready s (.mma h0 { ma with fmt := .f16 }) h0 u ∧ Ready s (.mmaq h0 ma) h0 u ∧ s.team? u.team = some t ∧ u.plive ≠ [] ∧
      (∀ j ∈ u.plive, (t.cv ma.cv.toNat).decl.getLsbD (s.lane u j).tid = true ∧
        (t.cv ma.cv.toNat).sgn.getLsbD (s.lane u j).tid = false) ∧
      (t.cv ma.cv.toNat).anchor = none ∧ (t.cv ma.cv.toNat).group = none) ∧
    (let s := (team 2).updTeam 2 fun t => { t with shared := 8192, ods := [none, bindOd 0x40000 1, none, none] };
     let u := bun s h0; let t := theTeam s;
      (∀ i ∈ [Instr.tzero h0 ma, .tfill h0 ma, .tld h0 ma, .tst h0 ma, .tmov h0 ma, .tstat h0 ma, .olcnt h0 ma, .qnt h0 ma,
        .olset h0 { ma with a := 4 }], Ready s i h0 u) ∧
      u.act ≠ [] ∧ u.plive = [0, 1] ∧ s.team? u.team = some t ∧ s.imageAddr u ma % 128 = 0 ∧
      s.imageAddr u ma + 8192 ≤ t.shared ∧ s.tileWaits u ma.d.toNat = [] ∧ (t.tile ma.d.toNat).fault = none ∧
      t.local_.full (linesOf (s.imageAddr u ma) 8192) = false ∧ (t.od ma.od.toNat).isSome = true ∧ ma.oe = false ∧
      t.odJoin ma.od.toNat = [] ∧ (t.od ma.od.toNat).bind (·.fault) = none) := by decide +kernel

/-- MatrixWordsComplete, `olset`: a descriptor whose list ends where team memory ends. -/
theorem test_witness_olset :
    (let l := laneAfter (.nop h0 ar0) (put 0 5 512 (put 0 4 0x8000000 (team 1)));
      (bindOd (l.reg 4) (l.reg 5)).map (fun o => (o.base + 8 * o.cap ≤ 4096 : Bool)) = some true) := by decide +kernel

/-- LocalWordsComplete: the last word of team memory and of the scratchpad, and a word of the stack. -/
theorem test_witness_LocalWordsComplete :
    (∀ p ∈ [(Space.sh, 4076), (.sc, 4076), (.sp, 9196)],
      let x := { lo with space := p.1 };
      let s := put 1 4 p.2 (put 0 4 p.2 (team 2)); let u := bun s h0; let t := theTeam s;
      (∀ i ∈ [Instr.ld h0 x, .st h0 x, .gath h0 x, .scat h0 x, .atom h0 x, .atomc h0 x, .pchk h0 x], Ready s i h0 u) ∧
      s.team? u.team = some t ∧ u.plive = [0, 1] ∧
      ∀ j ∈ u.plive, ∀ a ∈ (s.lane u j).elemAddrs x ++ [(s.lane u j).locAddr x false],
        s.granted t (s.lane u j).tid x.space a 4 = true ∧ a % 4 = 0) ∧
    (let x := { lo with split := true, aux := 1, off := 0x021 };
     let s := armed; let u := bun s h0;
      Ready s (.gath h0 x) h0 u ∧ s.splitTraps u x = []) ∧
    (let x := { lo with width := .b64 }; let s := put 0 4 0x40 (team 1); let u := bun s h0;
      x.space ≠ .mm ∧ Ready s (.mon h0 x) h0 u ∧ s.granted (theTeam s) 0 .sh 0x50 8 = true) := by decide +kernel

/-- The operands of a copy in lane 0: local offset 0x100, main address 0x10000, length or list `n` (and `m` elements). -/
def copying (n m : Nat) : State := put 0 23 m (put 0 22 n (put2 0 6 0x10000 (put 0 20 0x100 (team 1))))

/-- CopyWordsIssue: a copy of 256 bytes and an empty one, a list of 4 elements, an aligned far atomic. -/
theorem test_witness_CopyWordsIssue :
    (∀ n ∈ [0, 256], let s := copying n 0; let u := bun s h0; let t := theTeam s;
      s.team? u.team = some t ∧ s.progress u = none ∧ Ready s (.cpyin h0 mn) h0 u ∧ Ready s (.cpyout h0 mn) h0 u ∧
      s.queueRoom u.team 3 u.plive.length = true ∧
      (n = 0 ∨ s.granted t 0 (spaceOf (mn.opx.getLsbD 0)) 0x100 (n : Nat) = true) ∧
      (u.plive.foldlM (fun (s : State) j => let l := s.lane u j;
        s.issueCopy u mn j (.copyIn (l.reg 20).toNat ((l.pair 6).setWidth 56) (l.reg 22).toNat) (n == 0)) s).isSome = true) ∧
    (let s := copying 0x200 4; let u := bun s h0; let t := theTeam s;
      Ready s (.cpyg h0 mn) h0 u ∧ Ready s (.cpys h0 mn) h0 u ∧ s.granted t 0 .sh 0x100 64 = true ∧
      s.granted t 0 .sh 0x200 16 = true ∧
      (u.plive.foldlM (fun (s : State) j => s.issueCopy u mn j (.gatherIn 0x100 0x10000 0x200 4 16) false) s).isSome = true) ∧
    (let s := copying 0 0; let u := bun s h0;
      (∀ i ∈ [Instr.fatom h0 mn, .fatomNr h0 mn, .fcas h0 mn], Ready s i h0 u) ∧ s.progress u = none ∧
      (s.lane u 0).pair 6 % 8 = 0 ∧ ((s.lane u 0).pair 6).toNat < 2 ^ 56) := by decide +kernel

/-- FenceWordsComplete: an acquiring fence, a release that is over and one that begins, a hint, and an `mcast` of one team. -/
theorem test_witness_FenceWordsComplete :
    (let x := { mn with d := 0, a := 0, b := 0, cq := 0, scope := .device, opx := 3 };
     let s := (team 1).setProgress (bun (team 1) h0) 0; let u := bun s h0;
      Ready s (.fence h0 { x with opx := 2 }) h0 u ∧ x.opx.getLsbD 0 = true ∧ ({ x with opx := 2 }).opx.getLsbD 0 = false ∧
      Ready s (.fence h0 x) h0 u ∧ u.plive ≠ [] ∧ x.scope ≠ .lane ∧ s.progress u = some 0 ∧ (0 : W64) ≤ s.timeAt u.core ∧
      Ready s (.publ h0 { x with a := 12, b := 21 }) h0 u ∧ (0 : W64) ≤ (s.desc u.ctx).1.timeAt u.core ∧
      Ready s (.mhint h0 { x with opx := 1 }) h0 u) ∧
    (let x := { mn with d := 0, a := 0, b := 0, cq := 0, scope := .device, opx := 3 };
     let s := team 1; let u := bun s h0;
      Ready s (.fence h0 x) h0 u ∧ s.progress u = none ∧ (s.releaseBegin u x.scope).isSome = true) ∧
    (let s := put 0 22 128 (put2 0 6 0x10000 (put 0 20 0 (team 1))); let u := bun s h0; let t := theTeam s;
      Ready s (.mcast h0 mn) h0 u ∧ u.plive = [0] ∧ s.team? u.team = some t ∧ t.index < 1 ∧
      (s.gang? t.gang).map (fun g => (1 ≤ g.size : Bool)) = some true ∧ 128 ≤ t.shared ∧
      s.queueRoom u.team mn.cq.toNat 1 = true ∧ t.local_.full [0] = false) := by decide +kernel

/-- QueueWordsComplete: each way to close a batch. -/
theorem test_witness_EngineWordsComplete_bclose :
    (∀ k ∈ [0, 1, 2, 3],
      let x := { en with opx := BitVec.ofNat 12 k };
      let s := put2 0 6 (if k = 3 then 0x10000 else 4088) (team 1); let u := bun s h0; let t := theTeam s;
      Ready s (.bclose h0 x) h0 u ∧ u.plive = [0] ∧ s.team? u.team = some t ∧ x.opx.toNat % 4 = k ∧
      ((s.lane u 0).reg 6).toNat % 8 = 0 ∧ (k = 3 ∨ ((s.lane u 0).reg 6).toNat + 8 ≤ t.shared) ∧
      (k ≠ 2 ∨ s.granted t 0 .sc 4088 8 = true) ∧ (t.queue 2).outstanding < 16 ∧ t.local_.full (linesOf 4088 8) = false) := by decide +kernel

/-- QueueWordsComplete: a wait whose close is made, one that needs none, one that makes its close (and is then held, goes on,
or finds a fault), and one that finds 16 batches outstanding. -/
theorem test_witness_EngineWordsComplete_waitb :
    (let s := team 1; let u := bun s h0; let t := theTeam s; let w := s.setProgress u 0;
      Ready w (.waitb h0 en) h0 u ∧ w.progress u = some 0 ∧ ((theTeam w).queue 2).outstanding ≤ 0 ∧
      ((theTeam w).queue 2).toDeliver 0 = none ∧
      Ready s (.waitb h0 en) h0 u ∧ s.progress u = none ∧ (t.queue 2).open_.count = 0 ∧
      (t.queue 2).toDeliver (t.queue 2).seq = none) ∧
    (let f : BatchFault := { code := 0x11, addr := 0x40, pc := 0x10000, info0 := 0, op := 9 };
     let o : Batch := { emptyBatch with count := 1, ops := [9] };
     let old : Batch := { emptyBatch with seq := 0, complete := true, fault := some f };
     let s := (team 1).updQueue 2 2 fun q => { q with open_ := o };
     let s' := (team 1).updQueue 2 2 fun q => { q with open_ := o, closed := [old] };
     let closed (s : State) : CopyQueue :=
       (theTeam ((s.closeBatch 2 2 none).setProgress (bun s h0) (BitVec.ofNat 64 (((theTeam s).queue 2).seq + 1)))).queue 2;
      Ready s (.waitb h0 en) h0 (bun s h0) ∧ Ready s' (.waitb h0 en) h0 (bun s' h0) ∧ s.progress (bun s h0) = none ∧
      ((theTeam s).queue 2).open_.count ≠ 0 ∧ ((theTeam s).queue 2).outstanding < 16 ∧ (closed s).outstanding = 1 ∧
      (closed s).toDeliver 1 = none ∧ (closed s').outstanding = 1 ∧ ((closed s').toDeliver 1).map (·.2) = some f) ∧
    (let s := (team 1).updQueue 2 2 fun q =>
       let old := (List.range 16).map fun i => { emptyBatch with seq := i + 1, ops := [i] };
       { q with open_ := { emptyBatch with count := 1 }, closed := old };
     let u := bun s h0;
      Ready s (.waitb h0 en) h0 u ∧ s.progress u = none ∧ ((theTeam s).queue 2).open_.count ≠ 0 ∧
      16 ≤ ((theTeam s).queue 2).outstanding) := by decide +kernel

/-- QueueWordsComplete: a chained copy, a decode with a table, and a present table to load. -/
theorem test_witness_EngineWordsComplete :
    (let s := put2 0 6 0x10000 (team 1); let u := bun s h0;
      Ready s (.chain h0 { en with d := 0, b := 0 }) h0 u ∧ (s.lane u 0).pair 6 % 64 = 0 ∧ s.queueRoom u.team 2 1 = true) ∧
    (let c := codeOf ((List.range 256).map fun i => if i < 2 then 1 else 0);
     let s := put2 0 22 0x400000010 (put2 0 6 0x10000 (put 0 20 0x100 ((team 1).updTeam 2 fun t =>
       { t with tables := [c, none, none, none] })));
     let u := bun s h0; let t := theTeam s;
      Ready s (.decod h0 en) h0 u ∧ (t.tables.getD (en.opx.toNat % 4) none).isSome = true ∧
      ((s.lane u 0).reg 22).toNat = 16 ∧ ((s.lane u 0).reg 23).toNat = 4 ∧
      s.granted t 0 (spaceOf (en.opx.getLsbD 2)) 0x100 16 = true ∧ s.queueRoom u.team 2 1 = true ∧
      t.local_.full (linesOf 0x100 16) = false) ∧
    (let s := put 0 6 0x100 ((team 1).updTeam 2 fun t =>
       { t with local_ := { t.local_ with bytes := Mem.write t.local_.bytes 0x100 [1, 1] } });
     let u := bun s h0;
      Ready s (.dtab h0 en) h0 u ∧ s.linesPresent u.team ((linesOf 0x100 256).map fun k => (Space.sh, k)) = true ∧
      (codeOf ((s.noteRead u .sh [0x100, 0x180]).unitRead u.team .sh 0x100 256).2.1).isSome = true) := by decide +kernel

def streamOf2 : StreamQueue :=
  { core := 0, q := 0, team := 2, items := [], first := 0, taken := 0, bad := false, done := false, running := true, code := 0 }

/-- StreamWordsComplete: a queue of the team, and the words that no lane may execute. -/
theorem test_witness_stream_words :
    (let s := { team 1 with streams := [streamOf2] }; let u := bun s h0;
      Ready s (.qpop h0 en) h0 u ∧ u.act ≠ [] ∧ (s.streamOf u en.sq.toNat).isSome = true) ∧
    (let s := team 1; let u := bun s h0; let x := { en with d := 0 };
      Ready s (.apush h0 x) h0 u ∧ Ready s (.aseg h0 x) h0 u ∧ ((trapAll u.live (trapAt 0x01 u.pc)).any fun p => u.live.contains p.1) = true)
    := by decide +kernel

/-- Context 0 maps a second page for data: VA 0x20000, in stack 0 at SPA 0x20000, where `bytes` lie. -/
def mapped (n : Nat) (bytes : List Byte) : State :=
  let leaf := BitVec.ofNat 64 (2 ^ 63 + 2 ^ 62 + 2 ^ 53 + 2 ^ 52 + 2 ^ 50 + 0x20000)
  let s := (team n).updStack 0 fun x => { x with tlb := { page := wordIA / 2 ^ 16 + 1, big := false, leaf := leaf } :: x.tlb }
  let d := [BitVec.ofNat 64 0x10000, BitVec.ofNat 64 0x2000F, BitVec.ofNat 64 wordIA] ++ wordDesc.drop 3
  let a := devKey 0 0x20000
  { s with
    priv := { s.priv with descs := setN s.priv.descs 0 d },
    mem := { s.mem with home := s.mem.home.write a bytes, dram := s.mem.dram.write a bytes } }

/-- A treelet entry: valid, one line, version 0. -/
def entryBytes : List Byte := bytesOf 8 (2 ^ 63) ++ bytesOf 8 0

def dataIA : Nat := wordIA + 0x10000

/-- UnitWordsIssue: `ray` in its three modes, `filt`, `hgrid`: slots at the end of team memory, scene and table in the window. -/
theorem test_witness_UnitWordsIssue :
    (∀ m ∈ [0, 1, 2],
      let x := { un with mode := BitVec.ofNat 2 m }; let size := if m = 2 then 512 else 32;
      let s := put2 0 24 0x20000 (put 0 20 (4096 - size) (mapped 1 [])); let u := bun s h0;
      let s1 := (s.desc u.ctx).1; let spans := descSpans (s.desc u.ctx).2;
      s.team? u.team = some (theTeam s) ∧ u.plive = [0] ∧ Ready s (.ray h0 x) h0 u ∧
      ((s1.lane u 0).reg 20).toNat % size = 0 ∧ ((s1.lane u 0).reg 20).toNat + size = (theTeam s).shared ∧
      spanXlate spans ((s1.lane u 0).pair 24).toNat permRead = some dataIA ∧ sceneIA dataIA = true ∧
      ((s1.lane u 0).reg 14).toNat < 16 ∧ ((s1.lane u 0).reg 16).toNat < 2 ^ 16 ∧ s1.rayLoad u.core + 1 ≤ 2048 ∧
      (theTeam s).local_.full (slotLines [(4096 - size, size)]) = false) ∧
    (let s := put2 0 24 0x20000 (put 0 20 0x100 (mapped 1 [])); let u := bun s h0;
      Ready s (.filt h0 un) h0 u ∧ Ready s (.hgrid h0 un) h0 u ∧ localIA 64 dataIA = true ∧
      ((s.desc u.ctx).1.gauzeLoad u.core + 1 ≤ 4096)) := by decide +kernel

/-- UnitWordsIssue, treelets: a valid entry that no team holds, and one that the team holds with a good swap word. -/
theorem test_witness_treelet_words :
    (let s := put2 0 6 0x20000 (put 0 20 0x100 (mapped 1 entryBytes)); let u := bun s h0;
     let s1 := (s.desc u.ctx).1; let spans := descSpans (s.desc u.ctx).2;
     let c := s1.fresh.2.mould u 0 s1.nextNum s1.nextNum 0x100 8 (spanImages spans);
     let r := (s1.fresh.2.raiseLines u.team .sh [2]).treeEntry c dataIA 0;
      Ready s (.trhold h0 un) h0 u ∧ Ready s (.trstat h0 un) h0 u ∧
      spanXlate spans ((s1.lane u 0).pair 6).toNat permRead = some dataIA ∧ s1.treeLoad u.core < 16 ∧
      (match r.2 with | .ok _ => true | .error _ => false) = true ∧ r.1.holderOf dataIA 0 = none ∧ r.1.holdCount (treeStack 0) < 64) ∧
    (let s := put2 0 6 0x20000 (put 0 20 0x100 (mapped 1 entryBytes));
     let s := (s.updStack 0 fun k => { k with holds := [{ scene := dataIA, treelet := 0, team := 2, draining := false, granted := true, cmd := 1 }] }).updTeam 2 fun t =>
       { t with local_ := { t.local_ with bytes := Mem.write t.local_.bytes 0x100 (bytesOf 8 (2 ^ 63 + 2 ^ 7)) } };
     let u := bun s h0;
     let s1 := (s.desc u.ctx).1; let spans := descSpans (s.desc u.ctx).2;
     let c := s1.fresh.2.mould u 0 s1.nextNum s1.nextNum 0x100 8 (spanImages spans);
     let r := ((s1.fresh.2.raiseLines u.team .sh [2]).noteRead u .sh [0x100]).unitRead u.team .sh 0x100 8;
     let q := State.treeEntry { r.1 with tcmds := r.1.tcmds.filter fun y => y.cmd.num != c.num } c dataIA 0;
     let p := q.1.unitSpot c.images (treeStack 0) (entryAddr dataIA 0) 16 true;
      Ready s (.trswap h0 un) h0 u ∧ s1.linesPresent u.team [(Space.sh, 2)] = true ∧ r.2.2 = none ∧
      (match q.2 with | .ok _ => true | .error _ => false) = true ∧ q.1.holderOf dataIA 0 = some 2 ∧
      swapWordOk dataIA 0 (ofBytes r.2.1) = true ∧ p.2 = some 0x20000 ∧ (p.1.unitNow 0 0x20000).isSome = true ∧
      ((p.1.grantLease 0 (0x20000 / 512) 10).1.unitNow 0 0x20000).isNone = true) := by
  decide +kernel

/-- UnitWordsIssue, `bank`: a block in team memory with program and data in the mapped page. -/
theorem test_witness_bank :
    (let x : Unt := { d := 6, a := 4, b := 0, mode := 0 };
     let block0 := bytesOf 8 0x20000 ++ bytesOf 8 0x100 ++ bytesOf 8 0x20000;
     let s := (put 0 6 0x800 (put 0 4 0x200 (mapped 1 []))).updTeam 2 fun t =>
       { t with local_ := { t.local_ with bytes := Mem.write t.local_.bytes 0x200 block0 } };
     let u := bun s h0;
     let s1 := (s.desc u.ctx).1;
     let block (l : Lane) : Nat := (l.reg 4).toNat;
     let r := (s1.noteRead u .sh [0x200, 0x280, 0x300]).readBlocks u block u.plive [] [];
     let b := (lookupN r.2.1 0).getD { bytes := [] };
      Ready s (.bank h0 x) h0 u ∧ u.plive = [0] ∧ block (s1.lane u 0) = 0x200 ∧
      s1.linesPresent u.team ((slotLines [(0x200, 384)]).map fun n => (Space.sh, n)) = true ∧ r.2.2 = [] ∧ b.nout = 1 ∧
      b.prog = 0x20000 ∧ b.ok dataIA dataIA = true ∧ r.1.granted (theTeam s) 0 .sh 0x800 256 = true) := by decide +kernel

/-- SystemWordsComplete: operands at the ends of their ranges, a valid and an armed injection, a lane in a handler. -/
theorem test_witness_SystemWordsComplete :
    (let s := put 0 4 0xFFFF (put2 0 8 (2 ^ 56 - 8) (base 0)); let u := bun s h0;
      (∀ i ∈ [Instr.csave h0 sy, .crest h0 sy, .replay h0 sy, .halt h0 sy], Ready s i h0 u) ∧ u.plive = [0] ∧
      s.team? u.team = some (theTeam s) ∧ ((s.lane u 0).reg 4).toNat < 2 ^ 16 ∧ (s.lane u 0).pair 8 % 8 = 0 ∧
      ((s.lane u 0).pair 8).toNat < 2 ^ 56) ∧
    (∀ k ∈ [0, 1], let p := if k = 0 then 2 ^ 16 else 2 ^ 21; let x := { sy with sub := BitVec.ofNat 4 k };
     let s := put 0 4 65536 (put2 0 8 (2 ^ 48 - 65536 * p) (base 0)); let u := bun s h0; let l := s.lane u 0;
     let hw : HeldWrite :=
       { at_ := 9, act := .write 0 [1] false, who := { writer := 0, log := none }, op := none, ctx := 0, ia := 2 ^ 48 - 1, evp := 0 };
     let hold (s : State) : State := s.updStack 0 fun x => { x with heldWrites := [hw] };
     let drop (s : State) : State := (List.range 8).foldl (fun s k => s.updStack k fun y => y.tlbInv (2 ^ 48 - 65536 * p) (2 ^ 48)) s;
      Ready s (.tlbinv h0 x) h0 u ∧ (l.pair 8).toNat % p = 0 ∧ (l.reg 4).toNat ≤ 65536 ∧
      (l.pair 8).toNat + (l.reg 4).toNat * p ≤ 2 ^ 48 ∧ s.progress u = none ∧
      (drop s).inUse (2 ^ 48 - 65536 * p) (2 ^ 48) = false ∧ Ready (hold s) (.tlbinv h0 x) h0 u ∧
      (drop (hold s)).inUse (2 ^ 48 - 65536 * p) (2 ^ 48) = true) ∧
    (let s := put 0 4 0xC0000003 (put 0 8 0x10000000 (base 0)); let u := bun s h0; let l := s.lane u 0;
      (∀ i ∈ [Instr.xinj h0 sy, .elog h0 sy, .elogClr h0 sy], Ready s i h0 u) ∧ selectorOk (l.reg 8) = true ∧
      injectBits (l.reg 4) = some [3]) ∧
    (let s := (base 0).updLane 2 0 0 fun l => { l with hnd := true }; let u := bun s h0;
      Ready s (.rfe h0 sy) h0 u ∧ ∀ j ∈ u.plive, (s.lane u j).hnd = true) := by decide +kernel

/-- Context 0 with a handler at 0x20000, priority 5. -/
def handled (n : Nat) : State :=
  let s := team n
  { s with priv := { s.priv with descs := setN s.priv.descs 0 (wordDesc.set 24 0x0500000000020000) } }

/-- The placed launch without its privilege. -/
def user (s : State) : State := { s with launches := s.launches.map fun l => { l with priv := false } }

/-- The placed entry changed. -/
def entry (f : Entry → Entry) (s : State) : State := s.updGroup 2 0 fun g => g.updEntry 0 f

def laneOf (s : State) : Lane := (s.lane? 2 0 0).getD emptyLane

/-- TrapIsTakenOrKills: a lane out of any handler, with the whole frame at the top of its stack. -/
theorem test_witness_TrapIsTaken :
    (let s := handled 1; let tm := theTeam s; let l := laneOf s;
      s.team? 2 = some tm ∧ s.lane? 2 0 0 = some l ∧ l.hnd = false ∧ ptrAddr (descTvec (s.desc (s.ctxOf tm)).2) ≠ 0 ∧
      tm.spillOk l.tid ((l.spill.toNat : Int) - 160) 160 = true) := by decide +kernel

/-- TrapWordTraps: a live lane in P, and none. -/
theorem test_witness_TrapWordTraps :
    (let s := base 0; let u := bun s h0;
      Ready s (.trap h0 ct) h0 u ∧
      ((trapAll u.act { trapAt 0x08 u.pc with k := ct.ofl }).any fun p => u.live.contains p.1) = true ∧ s.lane? 2 0 0 = some (laneOf s)) ∧
    (let s := base 0; let u := bun s hp; Ready s (.trap hp ct) hp u ∧ u.act = []) := by decide +kernel

/-- TrapIsTakenOrKills: a lane in a handler; no handler; a spill pointer one frame too low. -/
theorem test_witness_TeamThatCannotTrapIsKilled :
    (let s := (handled 1).updLane 2 0 0 fun l => { l with hnd := true }; s.team? 2 = some (theTeam s) ∧ (laneOf s).hnd = true) ∧
    (let s := team 1; let tm := theTeam s; (laneOf s).hnd = false ∧ ptrAddr (descTvec (s.desc (s.ctxOf tm)).2) = 0) ∧
    (let s := (handled 1).updLane 2 0 0 fun l => { l with spill := l.spill - 16 }; let tm := theTeam s; let l := laneOf s;
      l.hnd = false ∧ ptrAddr (descTvec (s.desc (s.ctxOf tm)).2) ≠ 0 ∧
      tm.spillOk l.tid ((l.spill.toNat : Int) - 160) 160 = false) := by decide +kernel

/-- FrameHoldsTheTrap and ReturnUndoesTrap: a lane with four loops, in no handler. -/
theorem test_witness_ReturnUndoesTrap :
    (let l := { laneOf (team 1) with loops := [loopOf 1, loopOf 2, loopOf 3, loopOf 4] }; l.loops.length ≤ 4 ∧
      (∀ e ∈ l.loops, e.start.toNat % 8 = 0) ∧ l.hnd = false) := by
  decide +kernel

/-- RefusedWordsTrap: each privileged word in a launch without the privilege. -/
theorem test_witness_PrivilegedWordsTrap :
    (let s := user (base 0); let u := bun s h0; let t := theTeam s;
      s.subject = .bundle (BundleOf u) ∧ s.bun? h0 (BundleOf u) = some u ∧ s.team? u.team = some t ∧ u.priv = false ∧
      u.plive ≠ [] ∧
      ∀ i ∈ [Instr.csave h0 sy, .crest h0 sy, .tlbinv h0 sy, .replay h0 sy, .xinj h0 sy, .elog h0 sy, .elogClr h0 sy,
        .halt h0 sy, .rdsr h0 { ar0 with a := 0x40 }, .wrsr h0 { ar0 with d := 0x40 }],
        hdrOf i = some h0 ∧ t.accepts i = true) := by decide +kernel

/-- RefusedWordsTrap: a word that names register 32 of a team of 32 registers, whatever its guard holds. -/
theorem test_witness_IllegalWordTraps :
    (let s := (base 0).updTeam 2 fun t => { t with nregs := 32 }; let u := bun s hp; let t := theTeam s;
     let i : Instr := .add hp { ar0 with d := 32 };
      isEvent i = false ∧ s.subject = .bundle (BundleOf u) ∧ s.bun? ((hdrOf i).getD plainHdr) (BundleOf u) = some u ∧
      u.live ≠ [] ∧ s.team? u.team = some t ∧ t.accepts i = false ∧ t.accepts (.add hp { ar0 with d := 31 }) = true) ∧
    (let s := base 0; s.subject = .bundle (BundleOf (bun s plainHdr)) ∧
      s.bun? plainHdr (BundleOf (bun s plainHdr)) = some (bun s plainHdr)) := by decide +kernel

/-- RunLimitsTrap: 4,096 words executed, or 32 of variable latency; a branch at the end of a loop. -/
theorem test_witness_RunLimitsTrap :
    (∀ p ∈ [(4096, 0), (4095, 32), (4095, 31)],
      let s := entry (fun e => { e with words := p.1, vars := p.2 }) (base 0); let u := bun s h0;
      let s := if p.2 = 31 then s.updLane 2 0 0 fun l => { l with loops := [{ loopOf 1 with stop := 0x10000 }] } else s;
      let i : Instr := if p.2 = 31 then .bra h0 ct else .div_ h0 ar0;
      hdrOf i = some h0 ∧ s.subject = .bundle (BundleOf u) ∧ s.bun? h0 (BundleOf u) = some u ∧ u.live ≠ [] ∧
      s.team? u.team = some (theTeam s) ∧ (theTeam s).accepts i = true ∧ isPrivileged i = false ∧
      (((theTeam s).groups[u.group]?).bind fun g => g.entryAt u.slot).map (fun e => (e.words, e.vars)) = some p ∧
      (p.2 = 31 → noLoopEnd i = true ∧ (∃ j ∈ u.live, (s.lane u j).loops.head?.map (·.stop) = some u.pc)) ∧
      (p.2 = 32 → isVarlat i = true)) := by decide +kernel

/-- BadAddressesTrap: a word that ends one byte past the grant, and a misaligned one within it. -/
theorem test_witness_BadAddressesTrap :
    (let s := put 0 4 4080 (team 1); let u := bun s h0; Ready s (.st h0 lo) h0 u ∧
      u.plive.filter (fun j => !s.granted (theTeam s) 0 lo.space ((s.lane u j).locAddr lo false) 4) = [0]) ∧
    (let s := put 0 4 4075 (team 1); let u := bun s h0; Ready s (.st h0 lo) h0 u ∧
      u.plive.filter (fun j => !s.granted (theTeam s) 0 lo.space ((s.lane u j).locAddr lo false) 4) = [] ∧
      u.plive.filter (fun j => (s.lane u j).locAddr lo false % 4 != 0) = [0]) ∧
    (let s := put 0 4 4080 (team 1); let u := bun s h0;
      (∀ i ∈ [Instr.ld h0 lo, .gath h0 lo, .scat h0 lo, .atom h0 lo, .atomc h0 lo, .pchk h0 lo, .mon h0 lo], Ready s i h0 u) ∧
      (∀ a ∈ (s.lane u 0).elemAddrs lo, s.granted (theTeam s) 0 .sh a 4 = false ∨ a < 4096) ∧
      s.granted (theTeam s) 0 .sh ((s.lane u 0).locAddr lo false) 8 = false) ∧
    (∀ a ∈ [0x20004, 0x40000000], let x := { lo with space := .mm, off := 0 }; let s := put2 0 4 a (team 1); let u := bun s h0;
      Ready s (.mon h0 x) h0 u ∧ ((s.lane u 0).monVa x % 8 ≠ 0 ∨
        (spanXlate (descSpans (s.desc u.ctx).2) ((s.lane u 0).monVa x).toNat permRead).isNone = true)) := by decide +kernel

/-- The frame statements: words that go on within their run, in a bundle of which a part is guarded out. -/
theorem test_witness_frames :
    (let s := parted 3; let u := bun s hp;
      u.plive = [0] ∧ u.live = [0, 1, 2] ∧ hp.sw = false ∧ (∀ j ∈ u.live, ∀ e ∈ (s.lane u j).loops.head?, e.stop ≠ u.pc) ∧
      ∀ i ∈ [Instr.add hp ar0, .madw hp { ar with a := 6, b := 7 }, .cmp hp { ar0 with d := 3 }, .fadd hp { ar0 with ty := .f32 },
        .div_ hp ar0], Ready s i hp u ∧ i.wf = true) ∧
    (let s := (team 2).updGroup 2 0 fun g => { g with lanes := g.lanes.map fun l => { l with loops := [{ loopOf 2 with stop := 0x10000 }] } };
     let u := bun s h0; Ready s (.add h0 ar0) h0 u ∧ ∀ j ∈ u.live, ∀ k ∈ u.live,
      ((s.lane u j).advance u.pc).pc = ((s.lane u k).advance u.pc).pc ∧ (s.lane u j).prio = (s.lane u k).prio) := by
  decide +kernel

def resultTo (n : Nat) (t : Option TrapInfo) : Result :=
  { num := n, pc := 0x10000, need := .formed, writes := [(4, BitVec.ofNat 32 n)], flags := 1, trap := t, back := true }

/-- ResultsCommitInOrder: of two results to one register the later stays; a trap between them is delivered and drops the rest. -/
theorem test_witness_ResultsCommitInOrder :
    (let l := { laneOf (team 1) with results := [resultTo 1 none, resultTo 2 none] };
      (∀ y ∈ l.results, y.trap = none) ∧ l.runEnd.1.reg 4 = 2 ∧ l.runEnd.2 = none) ∧
    (let l := { laneOf (team 1) with results := [resultTo 1 none, resultTo 2 (some (trapAt 0x11 0x10000)), resultTo 3 none] };
      l.runEnd.1.reg 4 = 1 ∧ l.runEnd.2 = some { trapAt 0x11 0x10000 with fpc := some 0x10000 } ∧ l.runEnd.1.results = []) := by decide +kernel

/-- LoopsRunTheirCount: counts 2, 1 and 0 (which wraps), and a loop that ends elsewhere. -/
theorem test_witness_LoopsRunTheirCount :
    (∀ n ∈ [2, 0], (loopOf n).count - 1 ≠ 0) ∧ (loopOf 1).count - 1 = 0 ∧ (loopOf 1).stop = 0x20000 ∧
    (loopOf 1).stop ≠ 0x10000 := by decide +kernel

/-- Whether a word that uses the addresses `as` meets what StoresTouchTheirBytesAlone asks, in a space. -/
def storesFree (s : State) (spc : Space) (i : Instr) (as : Lane → List Int) : Bool :=
  let u := bun s h0
  let tm := theTeam s
  decide (Ready s i h0 u) && s.team? u.team == some tm && decide ((s.localOf tm spc).held = []) &&
  (s.localOf tm spc).bytes.wf && decide (s.mem.flips = []) && decide (s.mem.injects = []) && !h0.sw &&
  u.live.all (fun j => (s.lane u j).loops.all fun e => e.stop != u.pc) &&
  u.act.all (fun j => (as (s.lane u j)).all fun a => s.granted tm (s.lane u j).tid spc a 4 && a % 4 == 0) &&
  (spc == .sp || s.linesPresent u.team (u.plive.flatMap fun j => (as (s.lane u j)).flatMap fun a =>
    (linesOf a.toNat 4).map fun k => (spc, k))) && (match exec i s with | .next _ => true | _ => false)

/-- StoresTouchTheirBytesAlone: two lanes that store to one word and to neighbouring ones, in team memory, the scratchpad and
their stacks; scatters whole and split, and atomics. -/
theorem test_witness_StoresTouchTheirBytesAlone :
    (∀ p ∈ [(Space.sh, 0x40), (.sh, 0x44), (.sc, 0x40)],
      let x := { lo with space := p.1 }; let y := { x with split := true };
      let s := put 1 4 p.2 (put 0 4 0x40 (team 2));
      storesFree s p.1 (.st h0 x) (fun l => [l.locAddr x false]) = true ∧
      storesFree s p.1 (.scat h0 x) (fun l => l.elemAddrs x) = true ∧
      storesFree s p.1 (.scat h0 y) (fun l => l.elemAddrs y) = true ∧
      storesFree s p.1 (.atom h0 x) (fun l => [l.locAddr x false]) = true ∧
      storesFree s p.1 (.atomc h0 x) (fun l => [l.locAddr x false]) = true) ∧
    (let x := { lo with space := .sp }; let s := put 1 4 9196 (put 0 4 9196 (team 2));
      storesFree s .sp (.st h0 x) (fun l => [l.locAddr x false]) = true) := by decide +kernel

/-- StoresTouchTheirBytesAlone: of two lanes that store to one word the later in ascending lane order stands (R240). -/
theorem test_later_lane_stands :
    (let s := put 1 10 22 (put 0 10 11 (put 1 4 0x40 (put 0 4 0x40 (team 2)))); let a := ((laneOf s).locAddr lo false).toNat;
      LocalByte (after (.st h0 { lo with b := 10 }) s) 2 .sh a = 22) := by decide +kernel

/-- SystemAndCrossLaneWordsKeepTheRest: each word is ready, in a bundle that goes on within its run. -/
theorem test_witness_SystemAndCrossLaneWordsKeepTheRest :
    (let s := parted 3; let u := bun s hp; let y := { ar0 with ty := .b32, b := 0 }; let p := { ar0 with ty := .i8, b := 0, d := 3, a := 2 };
      u.plive = [0] ∧ hp.sw = false ∧ (∀ j ∈ u.live, ∀ e ∈ (s.lane u j).loops.head?, e.stop ≠ u.pc) ∧
      (∀ i ∈ [Instr.rdsr hp { p with d := 4, a := 0x10 }, .shfl hp { y with b := 9, sub := 3 }, .qswap hp y, .vote hp p,
          .voteBallot hp { p with sub := 3 }, .match_ hp y, .compact hp p, .qdd hp { ar0 with ty := .f32, b := 0 }, .redux hp { ar0 with b := 0 }],
        Ready s i hp u ∧ i.wf = true) ∧
      destRegs (.rdsr hp { p with d := 4, a := 0x10 }) = [4, 5] ∧ destRegs (.rdsr hp { p with d := 4, a := 0 }) = [4] ∧
      (∀ i ∈ [Instr.hlpOn hp ar0, .hlpOff hp ar0], Ready s i hp u) ∧
      (∀ d ∈ [0x18, 0x19, 0x1A, 0x40, 0x71], Ready s (.wrsr hp { p with d := BitVec.ofNat 8 d, a := 8 }) hp u) ∧
      (let x := { p with d := 1, a := 8 }; Ready s (.vwset hp x) hp u ∧ ∀ j ∈ u.act, viewReserved ((s.lane u j).viewValue x) = false) ∧
      Ready s (.cvset hp ar) hp u ∧ ((theTeam s).cv ar.c.toNat).sgn = 0) := by decide +kernel

/-- SwitchEndsTheRun: a group whose entry holds the bundle's slot; lanes that go on, that loop back together, and that part. -/
theorem test_witness_SwitchEndsTheRun :
    (let s := team 2; let u := bun s h0;
      (s.group? u.team u.group).isSome = true ∧ isBranch (.add h0 ar0) = false ∧
      ((s.group? u.team u.group).bind fun g => g.entryAt u.slot).map (fun e => e.mask.getLsbD u.slot) = some true) ∧
    (let back := { loopOf 2 with stop := 0x10000 };
     let s := (team 2).updGroup 2 0 fun g => { g with lanes := g.lanes.map fun l => { l with loops := [back] } };
     let u := bun s h0; u.live = [0, 1] ∧ ((s.lane u 0).advance u.pc).pc = ((s.lane u 1).advance u.pc).pc ∧
      ((s.lane u 0).advance u.pc).pc ≠ u.pc + 8) ∧
    (let s := (team 2).updLane 2 0 0 fun l => { l with loops := [{ loopOf 2 with stop := 0x10008 }] }; let u := bun s h0;
      ((s.lane u 0).advance 0x10008).pc ≠ ((s.lane u 1).advance 0x10008).pc) ∧
    (let last := { loopOf 1 with stop := 0x10000 };
     let s := (team 2).updGroup 2 0 fun g => { g with lanes := g.lanes.zipIdx.map fun (l, j) =>
       { l with loops := [last], prio := BitVec.ofNat 8 j } };
     let u := bun s h0; let g := s.group? 2 0;
      (∀ j ∈ [0, 1], (g.map fun g => (g.lane j).loops.head?.map (·.stop)) = some (some u.pc)) ∧
      ((s.lane u 0).advance u.pc).pc = u.pc + 8 ∧ ((s.lane u 1).advance u.pc).pc = u.pc + 8 ∧
      (s.lane u 0).prio ≠ (s.lane u 1).prio) := by
  decide +kernel

/-- MemoriesStayCanonical: the placed state, whose memories list the placed word, steps from one canonical state to the next. -/
theorem test_witness_MemoriesStayCanonical :
    (let s := base 0x1F0540800000002A; s.mem.wf = true ∧ (∀ t ∈ s.teams, t.local_.bytes.wf = true) ∧
      (∀ g ∈ s.gangs, g.local_.bytes.wf = true) ∧ s.mem.home ≠ [] ∧
      (match step s with | .next t => t.mem.wf | _ => false) = true) := by decide +kernel

def sub (x : Subject) (s : State) : State := { s with subject := x }

/-- WaitsEnd: an entry that waits for each thing, and the state in which it comes. -/
theorem test_witness_WaitsEnd :
    (let l := { laneOf (team 1) with results := [{ resultTo 7 none with back := false }] };
     let s := sub (.result here 0) ((entry (fun e => { e with wake := some .results }) (team 1)).updLane 2 0 0 fun _ => l);
      s.resultNum here 0 = some 7 ∧ (s.entryOf here).isSome = true) ∧
    (let s := (entry (fun e => { e with wake := some .results }) (team 1)).updLane 2 0 0 fun l => { l with results := [resultTo 7 none] };
      s.subject = .bundle here ∧ (s.group? 2 0).isSome = true ∧ s.isAway 2 = false ∧
      (s.entryOf here).map (fun e => (e.wake, slotsOf e.mask)) = some (some .results, [0]) ∧
      (((s.group? 2 0).map fun g => (g.lane 0).allBack) = some true)) ∧
    (let s := entry (fun e => { e with wake := some (.sleep 0) }) (team 1);
      s.subject = .bundle here ∧ (0 : W64) ≤ s.teamTime 2 ∧ (s.entryOf here).map (·.wake) = some (some (.sleep 0))) ∧
    (let s := entry (fun e => { e with wake := some (.mwait (some 0)) }) (team 1);
      (s.entryOf here).map (·.wake) = some (some (.mwait (some 0))) ∧ ((s.lane? 2 0 0).getD emptyLane).monitor = none ∧
      (s.group? 2 0).map (fun g => g.isLive 0) = some true ∧ (0 : W64) ≤ s.teamTime 2) ∧
    (let s := { team 1 with time := { (team 1).time with clock := 65536 } };
     let s := entry (fun e => { e with spin := { e.spin with since := some 0 } }) s;
      (s.entryOf here).map (·.spin.since) = some (some 0) ∧ 0 + 65536 ≤ s.time.clock) ∧
    (let s := { team 1 with time := { (team 1).time with clock := 2048 }, subject := .unit2 0 0,
                            regroup := [{ core := 0, team := 2, pc := 0x3000, prio := 2, since := 0, lanes := [] }] };
      (s.regroup.filter fun r => r.core == 0)[0]?.map (·.since) = some 0 ∧ 0 + 2048 ≤ s.time.clock) := by decide +kernel

/-- RegisterWritesAct: the host may write, and both kinds of LQ_ERR write. -/
theorem test_witness_RegisterWritesAct :
    (let s := sub (.write 3 0x100) (base 0); s.hostMay = true ∧ s.subject = .write 3 0x100 ∧ bit (0x100 : W64) 8 = true) ∧
    (let s := sub (.write 15 0xFF) (base 0); s.hostMay = true ∧ bit (0xFF : W64) 8 = false) := by decide +kernel

/-- HostWindowActs: the host may write, and a publication is under way. -/
theorem test_witness_HostWindowActs :
    (let s := { base 0 with hpub := { (base 0).hpub with busy := true } }; s.hpub.busy = true ∧ s.hostReady = true ∧ s.hostMay = true ∧
      s.heartLost 64 = false ∧ (s.agent 64).inc ≠ (s.agent 64).inc + 1) := by decide +kernel

/-- The placed launch with one more gang to place, and a save area of 64 MiB in its context. -/
def launching : State :=
  let s := base 0
  let d := (wordDesc.set 26 0x0000000000100000).set 27 (BitVec.ofNat 64 (2 ^ 63 + 1024))
  let s := { s with priv := { s.priv with descs := setN s.priv.descs 0 d } }
  { s with launches := s.launches.map fun l => { l with grid := 2, waiting := some 0, done := 8 } }

def noLaunch : Launch :=
  { id := 9, queue := 0, ctx := 0, priv := false, pin := none, entry := 0, param := 0, grid := 0, gangSize := 1, teamSize := 1,
    scratch := 0, spillUnits := 0, shared := 0, cv := 0, tiles := 0, nregs := 0, done := 0, hlp := false, base := 0, teams := [],
    placed := 0, live := 0, tasks := 0, waiting := none, reserve := none, end_ := .running }

def firstLaunch (s : State) : Launch := (s.launch? 0).getD noLaunch

/-- LaunchesProceed: a queue that consumes in each of its three waits. -/
theorem test_witness_LaunchesProceed_queue :
    (∀ w ∈ [QueueWait.none, .valid 0, .deps 0 []],
      let q := { LaunchQueue.reset with en := true, tail := 1, wait := w };
      let s := sub (.unit 0) { base 0 with lqs := (base 0).lqs.set 0 q };
      s.consumes 0 = true ∧ (s.lq 0).wait = w ∧ (0 : W64) ≤ s.time.now) := by decide +kernel

/-- LaunchesProceed: a place for the next gang on core 1. -/
theorem test_witness_LaunchesProceed_place :
    (let p : Placement := { cores := [1], gb := 0 }; let s := sub (.place 0 p) launching; let l := firstLaunch s;
      s.launch? 0 = some l ∧ s.hasGang l = true ∧ s.running = true ∧ s.isNext l = true ∧ s.placeOk l p = true ∧
      (s.gangSlots l.ctx l.slotSizes).isSome = true) := by decide +kernel

/-- LaunchesProceed: a gang that has waited a millisecond and fits nowhere, since its save area is too small now. -/
theorem test_witness_LaunchesProceed_starve :
    (let s := { base 0 with time := { (base 0).time with now := starveTicks }, subject := .unit2 0 3 };
     let s := { s with launches := s.launches.map fun l => { l with grid := 2, waiting := some 0 } }; let l := firstLaunch s;
      s.launch? 0 = some l ∧ l.waiting = some 0 ∧ s.hasGang l = true ∧ l.reserve = none ∧ starveTicks ≤ s.time.now - 0 ∧
      s.fitsSomewhere l = false ∧ s.keptFrom 0 3 = false ∧ s.fitsEmptied l 3 = true) := by decide +kernel

/-- LaunchesProceed: two equal tasks on core 5. -/
theorem test_witness_LaunchesProceed_tasks :
    (let k : Task := { entry := 0x10000, arg := 1, launch := 0, gang := 1, priv := true };
     let l := { firstLaunch launching with placed := 2, nregs := 32, spillUnits := 32 };
     let s := sub (.unit3 0 5 2) { launching with tasks := [[k, { k with arg := 2 }, { k with entry := 8 }]], launches := [l] };
      (sameTasks (s.tasks.getD 0 [])).take (min 2 32) = [k, { k with arg := 2 }] ∧ s.launch? k.launch = some l ∧ clusterOf 5 = 0 ∧
      s.suspendedCtx l.ctx = false ∧ s.running = true ∧ s.isNext l = true ∧ s.taskFits l 2 5 = true ∧
      (s.gangSlots l.ctx [frameSize 2 l.nregs 0 l.spillUnits 0 0]).isSome = true) := by decide +kernel

/-- LaunchesProceed: a team that is over, and a launch that has ended in each of its states. -/
theorem test_witness_LaunchesProceed_end :
    (let s := sub (.unit 2) ((base 0).updTeam 2 fun t => { t with ended := true }); let t := theTeam s;
      s.team? 2 = some t ∧ t.ended = true ∧ s.operationsDone t = true ∧ ((s.logLost t).gang? t.gang).isSome = true) ∧
    (∀ e ∈ [LaunchEnd.running, .releasing 0], ∀ d ∈ [0, 8],
      let w := BitVec.ofNat 64 d;
      let s := sub (.unit 0) { base 0 with launches := [{ firstLaunch (base 0) with live := 0, end_ := e, done := w }] };
      let l := firstLaunch s;
      s.launch? 0 = some l ∧ s.running = true ∧ l.grid ≤ l.placed ∧ l.live = 0 ∧ l.tasks = 0 ∧ l.end_ = e ∧ l.done = w) := by
  decide +kernel

/-- A copy in of 256 bytes from the mapped page, issued and closed into its batch. -/
def copied : State := after (.cpyin h0 mn) (put 0 22 256 (put2 0 6 0x20000 (put 0 20 0x100 (mapped 1 [1, 2, 3]))))

def firstOp (s : State) : EngOp := s.ops.headD
  { num := 999, kind := .refetch 0, owner := .lane, team := 2, group := 0, tid := 0, pc := 0, core := 0, ctx := 0, acq := 0,
    sp := .sh, evp := 0, lu := false, lease := none, phase := .done, wait := none, after := [], left := 0, time := 0 }

/-- EngineOperationsProceed: an issued copy whose probe pass gives its pieces; the same without its page, and with the page not
resident. -/
theorem test_witness_EngineOperationsProceed_probe :
    (let s := copied; let o := firstOp s;
      s.op? o.num = some o ∧ o.phase = .issued ∧ s.mayStart o = true ∧
      (match o.kind with | .far .. | .chain .. => false | _ => true) = true ∧
      (match (s.probe o).2 with | .ok _ => true | _ => false) = true) ∧
    (let s := { copied with priv := { copied.priv with descs := setN copied.priv.descs 0 wordDesc } };
      (match (s.probe (firstOp s)).2 with | .fault .. => true | _ => false) = true) ∧
    (let leaf := BitVec.ofNat 64 (2 ^ 63 + 2 ^ 62 + 2 ^ 53);
     let s := copied.updStack 0 fun x => { x with tlb := [{ page := wordIA / 2 ^ 16 + 1, big := false, leaf := leaf }] };
      (match (s.probe (firstOp s)).2 with | .suspend _ => true | _ => false) = true) := by decide +kernel

/-- EngineOperationsProceed: a slice to deliver, a far atomic in its order, a chained copy in each of its phases. -/
theorem test_witness_EngineOperationsProceed_other :
    (let o := { firstOp copied with num := 50, kind := .mcast 0 0x20000 128 1 0 0, phase := .slice none [] };
     let s := sub (.unit 50) { copied with ops := [o] };
      s.op? 50 = some o ∧ o.owner = .queue 3 ∧ (s.team? o.team).isSome = true) ∧
    (let s := after (.fatom h0 mn) (put2 0 6 0x20000 (mapped 1 [])); let o := firstOp s;
      s.op? o.num = some o ∧ (match o.kind with | .far _ false _ false _ _ _ => true | _ => false) = true ∧ o.phase = .issued ∧
      s.mayStart o = true ∧ s.inOrder o = true ∧ s.farBefore o 0x20000 4 = false) ∧
    (∀ p ∈ [OpPhase.issued, .record [] [], .releasing 0 []], ∀ a ∈ [0, 0x20000],
      let o := { firstOp copied with num := 50, kind := .chain (BitVec.ofNat 56 a) 0 .device, phase := p };
      let s := { copied with ops := [o] };
      s.op? 50 = some o ∧ s.mayStart o = true ∧ s.inOrder o = true ∧ (0 : W64) ≤ s.opTime o) := by decide +kernel

/-- EngineOperationsProceed: a decode whose source lies in one piece and whose code gives enough symbols. -/
theorem test_witness_EngineOperationsProceed_decode :
    (let code := (codeOf ((List.range 256).map fun i => if i < 2 then 1 else 0)).getD [];
     let s := { copied with ops := [] };
     let o := { firstOp copied with num := 50, kind := .decode 0x100 0x20000 16 2 code };
     let todo := match (s.probe o).2 with | .ok ps => ps | _ => [];
     let o := { o with phase := .probed todo todo };
     let r := s.readBad o todo [] [];
     let bits := streamBits (r.2.2.1.map fun b => (b, false));
      todo ≠ [] ∧ s.inOrder o = true ∧ o.badFault = none ∧ r.2.1.badFault = none ∧ r.2.2.2 = [] ∧
      16 ≤ (decodeBits code 16 bits).length) := by decide +kernel

/-- EngineOperationsProceed: a complete batch with a stamp whose release is over; a write held to a tick that has come. -/
theorem test_witness_EngineOperationsProceed_stamp :
    (let x : Stamp := { kind := 1, addr := 0x40, scope := .team, tid := 0, group := 0, pc := 0x10000, wait := none };
     let b := { emptyBatch with seq := 1, complete := true, stamp := some x, stampAt := some 0 };
     let s := sub (.unit2 2 3) ((team 1).updQueue 2 3 fun q => { q with closed := [b] }); let t := theTeam s;
      s.team? 2 = some t ∧ (t.queue 3).closed.find? (fun b => b.complete && b.stamp.isSome) = some b ∧ b.stamp = some x ∧
      x.wait = none ∧ b.stampAt = some 0) ∧
    (let h : HeldWrite := { at_ := 0, act := .write 0x20000 [1] false, who := { writer := 0, log := none }, op := none, ctx := 0, ia := dataIA, evp := 0 };
     let s := sub (.unit2 0 0) ((team 1).updStack 0 fun x => { x with heldWrites := [h] });
      (s.stack 0).heldWrites[0]? = some h ∧ h.at_ ≤ s.time.now) := by decide +kernel

/-- MatrixOperationsPerform: a multiplication, a load and a store that are ready, and entries to append. -/
theorem test_witness_MatrixOperationsPerform :
    (let s := after (.mma h0 { ma with fmt := .f16 }) armed;
      (s.readyTile 2 2 (fun t a => match a with | .mul m => s.entriesHere t m | _ => false)).isSome = true) ∧
    (let s := (team 2).updTeam 2 fun t => { t with shared := 8192 };
     let l := after (.tld h0 ma) s; let w := after (.tst h0 ma) s;
      (l.readyTile 2 2 (fun t a => match a with
        | .load x => t.local_.present (l.timeAt t.core) x 8192
        | _ => false)).isSome = true ∧
      (w.readyTile 2 2 (fun _ a => match a with | .store _ => true | _ => false)).isSome = true) ∧
    (let a : Append := { num := 5, od := 1, addr := 0x40, data := [0, 0, 0, 0, 0, 0, 0, 0x80] };
     let s := sub (.unit2 2 1) ((team 1).updTeam 2 fun t => { t with appends := [a] });
      s.team? 2 = some (theTeam s) ∧ (theTeam s).appends.find? (fun a => a.od == 1) = some a) := by decide +kernel

/-- A ray issued on the scene of the mapped page; its message enables nothing, so it misses at once. -/
def rayed : State := after (.ray h0 un) (put2 0 24 0x20000 (put 0 20 0x100 (mapped 1 entryBytes)))

/-- The same ray still to be traversed. -/
def rayWaiting : State := { rayed with rays := rayed.rays.map fun r => { r with fate := none } }

/-- A command block whose program and data lie in the mapped page; its one bundle is bundle 0 of the manual's example (R347). -/
def banked : State :=
  let block := bytesOf 8 0x20000 ++ bytesOf 8 0x100 ++ bytesOf 8 0x20000
  let s := (put 0 6 0x800 (put 0 4 0x200 (mapped 1 (bytesOf 8 0x47F0000043F00000)))).updTeam 2 fun t =>
    { t with local_ := { t.local_ with bytes := Mem.write t.local_.bytes 0x200 block } }
  after (.bank h0 { d := 6, a := 4, b := 0, mode := 0 }) s

def sampled (i : Instr) : State := after i (put2 0 24 0x20000 (put 0 20 0x100 (mapped 1 [])))

/-- UnitEventsProceed: rays that may be picked, one that has an end, one a second old; a hold, a sampler command of each kind. -/
theorem test_witness_UnitEventsProceed :
    (rayed.rays.map (fun r => (r.cmd.num, r.fate)) = [(4, some 0)]) ∧ rayWaiting.mayPick 0 dataIA 0 = true ∧
    (let s := { rayWaiting with time := { rayWaiting.time with now := 1000000000 } };
      s.rays.all (fun r => (1000000000 ≤ (s.time.now - r.issued).toNat : Bool)) = true ∧ s.rays.length = 1) ∧
    (let s := after (.trhold h0 un) (put2 0 6 0x20000 (put 0 20 0x100 (mapped 1 entryBytes)));
      (s.tcmds.map fun x => match (State.treeEntry { s with tcmds := [] } x.cmd x.scene x.treelet).2 with
        | .ok _ => true
        | .error _ => false) = [true]) ∧
    (let s := { after (.trhold h0 un) (put2 0 6 0x20000 (put 0 20 0x100 (mapped 1 entryBytes))) with mem := (mapped 1 []).mem };
      (s.tcmds.map fun x => match (State.treeEntry { s with tcmds := [] } x.cmd x.scene x.treelet).2 with
        | .ok _ => false
        | .error _ => true) = [true]) ∧
    (sampled (.filt h0 un)).gauze.map (·.hash) = [false] ∧ (sampled (.hgrid h0 un)).gauze.map (·.hash) = [true] := by
  decide +kernel

/-- UnitEventsProceed: a Calico command before its check, with a bundle to run, and with a column to come. -/
theorem test_witness_UnitEventsProceed_calico :
    (match banked.calicoOn 0 with
      | some c => !c.started && (match (banked.unitBytes 2 c.cmd.ctx c.cmd.images c.stack c.prog (8 * (c.nb + 1))).2 with
          | some d => d.bad.isEmpty && bundleOk (BitVec.ofNat 64 (ofBytes (d.data.take 8)))
          | none => false)
      | none => false) = true ∧
    (match banked.calicoOn 0 with
      | some c => match (banked.runBundle { c with started := true, code := [0x47F0000043F00000] }).2 with | .ok _ => true | _ => false
      | none => false) = true ∧
    (match banked.calicoOn 0 with
      | some c =>
        let hw : HeldWrite :=
          { at_ := 9, act := .bank 0 [1], who := { writer := 0xA00, log := none }, op := some c.cmd.num, ctx := 0, ia := 0, evp := 0 }
        !banked.bankHeld c && c.outcome.isNone && (banked.updStack c.stack fun x => { x with heldWrites := [hw] }).bankHeld c
      | none => false) = true ∧
    (match banked.calicoOn 0 with
      | some c => (banked.readColumn { c with stream := [.pending dataIA] } dataIA).2.isSome
      | none => false) = true := by decide +kernel

/-- UnitEventsProceed: a stream program that waits for nothing, and a unit in flight that arrives. -/
theorem test_witness_UnitEventsProceed_stream :
    (let s := after (.sgo h0 { en with d := 1 }) (put2 0 22 5 (put2 0 6 0x10000 (mapped 1 [])));
      (s.serges.find? (fun z => z.cluster == 0 && z.unit == 0)).map (fun z => (z.team, z.stopped, z.wait.isNone)) =
        some (2, false, true) ∧ (s.team? 2).isSome = true ∧
      (match s.serges with
        | z :: _ => match (s.sergeReadUnit 0 { va := 0x20000, ctx := 0, spans := z.spans, acq := 0, wait := none } 0x20000 128).2 with
          | .data _ => true
          | _ => false
        | [] => false) = true) := by decide +kernel

/-- A team with nothing but its lane, at rest and ordered saved, with a frame in the mapped page. -/
def resting : State :=
  (mapped 1 []).updTeam 2 fun t =>
    let g := t.groups.map fun g => { g with entries := [Entry.ready 1], lanes := [] }
    let u := { t with nregs := 0, ncvs := 0, ntiles := 0, shared := 0, spillUnits := 0, saving := 1, cvs := [], tiles := [] }
    { u with frame := 0x20000, frameLen := 0x400, groups := g }

/-- ResidencyEventsProceed: the team at rest, whose frame can be written. -/
theorem test_witness_ResidencyEventsProceed_save :
    resting.running = true ∧ resting.atRest (theTeam resting) = true ∧ (resting.writeFrame (theTeam resting)).2.isSome = true ∧
    (resting.saveGang (theTeam resting)).2 = true := by decide +kernel

def saveOrder : SaveOrder := { ctx := 7, stamp := 0x20000, stampCtx := 0, core := 0, count := 3 }

/-- ResidencyEventsProceed: a period that has run out, a stamp due (and one whose page is not mapped), a gang and a team to
restore. -/
theorem test_witness_ResidencyEventsProceed :
    (let s0 := { team 1 with time := { (team 1).time with now := 100000 } };
     let s1 := entry (fun e => { e with wake := some (.fetch 0 0) }) s0;
     let s := s1.updTeam 2 (fun t => { t with replaySince := some 0 });
     let t := theTeam s;
      s.team? 2 = some t ∧ t.replaySince = some 0 ∧ s.running = true ∧ t.resident = true ∧ t.ended = false ∧ t.saving = 0 ∧
      s.isReserved t.core = false ∧ (t.groups.zipIdx.any fun p => s.replayable 2 p.2 p.1) = true ∧
      100000 ≤ (s.timeAt t.core - 0).toNat) ∧
    (∀ p ∈ [mapped 1 [], team 1], let s := { p with priv := { p.priv with saves := [saveOrder] } };
      s.priv.saves.find? (fun o => o.ctx == 7) = some saveOrder ∧ s.stillSaving 7 = false) ∧
    (let who : PartWho := { src := 5, ctx := 0, core := 0, part := false, raises := true };
      (match ((mapped 1 []).partWrite (.va 0 0x20000) (bytesOf 8 0) who).2 with | .ok _ => true | _ => false) = true ∧
      (match ((team 1).partWrite (.va 0 0x20000) (bytesOf 8 0) who).2 with | .fault => true | _ => false) = true) ∧
    (let gs : List Gang := (base 0).gangs.map fun g => { g with savedWhole := true };
     let s := { base 0 with gangs := gs };
      (s.gang? 1).map (·.savedWhole) = some true) ∧
    (base 0).gang? 2 = none ∧ ((base 0).team? 2).isSome = true := by decide +kernel

def jobOf (op : Nat) : FeltJob :=
  { index := 9, w0 := BitVec.ofNat 64 (op * 2 ^ 56), w1 := 0, w2 := 0, w3 := BitVec.ofNat 64 (2 ^ 63), result := none, rel := none, waits := false }

/-- ResidencyEventsProceed: a fault in the collector's queue; a Felt record of each operation that may run. -/
theorem test_witness_ResidencyEventsProceed_felt :
    (let m : FaultMsg := { stack := 0, page := 1, big := false, kind := 4, ctx := 0, core := 0, part := false, drop := false };
     let s := { base 0 with coll := { (base 0).coll with queue := [m] } }; s.fillsOver.coll.queue = m :: []) ∧
    (∀ op ∈ [1, 2, 3, 4], let s := sub (.unit 9) { base 0 with felt := { (base 0).felt with jobs := [jobOf op] } };
     let t := s.feltTakeAll 16;
      (jobOf op).waits = false ∧ t.feltMayRun (jobOf op) = true ∧
      t.felt.jobs.find? (fun j => j.index == BitVec.ofNat 32 9 && j.event == op) = some (jobOf op)) := by decide +kernel

/-- FabricEventsAct: a request of a live agent that is admitted, one of an old incarnation, agents of each state and age, a
link out for a millisecond, a heartbeat and an exchange that are due. -/
theorem test_witness_FabricEventsAct :
    (let a : List Agent := (List.range 65).map fun _ => { inc := 3, state := 1, beat := 0 };
     let f := { (base 0).fabric with agents := a, admitBase := List.replicate 64 7 };
     let g := { f with admitLimit := List.replicate 64 (BitVec.ofNat 64 (2 ^ 40)), retrain := [(2, 0)] };
     let s := { base 0 with fabric := g };
      s.power.state = 2 ∧ (s.agent 5).inc = 3 ∧ (s.agent 5).inc ≠ 2 ∧ (s.agent 5).state ≠ 3 ∧
      s.fabric.admits 5 0x20000 8 permRead = true ∧ (s.agent 64).inc = 3 ∧ (s.agent 64).state = 1 ∧
      (∀ d ∈ [0, 5, 64], s.heartLost d = false) ∧ (1 : Nat) ≠ s.fabric.dev ∧
      (s.agent 5).inc.toNat < 4 % 256 ∧ s.fabric.dev = 0 ∧ s.fabric.inc = BitVec.ofNat 8 0) ∧
    (∀ n ∈ [1500000, 3000000],
      let ag : List Agent := List.replicate 65 { inc := 3, state := 1, beat := 0 };
      let f := { (base 0).fabric with agents := ag, retrain := [(2, 0)] };
      let ti := { (base 0).time with now := BitVec.ofNat 64 n, bound := 1000, cfg := 0x80 };
      let s := { base 0 with time := ti, fabric := f };
      (n = 3000000 → s.heartLost 5 = true ∧ ((s.declare 5).agent 5).state = 3) ∧
      (s.agent 5).state = 1 ∧ n ≤ (s.time.now - (s.agent 5).beat).toNat ∧ lookupN s.fabric.retrain 2 = some 0 ∧
      1000000 ≤ (s.time.now - 0).toNat ∧ s.time.bound ≤ 1000 ∧
      s.fabric.lastBeat.toNat / 1000000 < s.time.now.toNat / 1000000 ∧ s.time.cfg.getLsbD 7 = true ∧ s.time.master = false) := by
  decide +kernel

/-- DisplayAndPowerEventsAct: a present word and a scan that are due, a start that failed, a part that is not stopped. -/
theorem test_witness_DisplayAndPowerEventsAct :
    (let o := { Output.reset with en := true, period := 1000, deadline := 100, margin := 50 };
     let s := { base 0 with outputs := [o], time := { (base 0).time with now := 60 } };
     let t := { s with outputs := [{ o with chosen := true }], time := { s.time with now := 100 } };
      s.presentDue 0 = true ∧ t.scanDue 0 = true) ∧
    (let s := { State.reset with power := { State.reset.power with attempts := 1 } };
      s.power.state = 1 ∧ s.power.attempts ≠ 0 ∧ s.power.state ≠ 3) := by decide +kernel

end Sys2Proof.Tests
end

section
/-! SUPPORT. Poison through the floating operations (R37, R39): an operand that is poison is read as poison under `.ftz`
as well, and the first rule of R39 then decides the result of each operation. -/
namespace Sys2Proof.Machine

variable {f : Fmt} {ftz : Bool} {w a b c : W64}

/-- Every format has an exponent field, so that E all ones is not E all zeros. -/
theorem fmtOf_eb_pos (t : Ty) : 0 < (fmtOf t).eb := by
  cases t <;> decide

/-- With E not all ones the encoding is a finite value of its sign (R36). -/
theorem Fmt.decode_eq_fin_of_expOf_ne_eMax (hne : f.expOf w ≠ f.eMax) :
    ∃ m e, f.decode w = .fin (f.signOf w) m e := by
  have hsmall : ¬ (f.expOf w = f.eMax ∧ f.fracOf w = 2 ^ f.fb - 1) := fun hx => hne hx.1
  by_cases hz : f.expOf w = 0
  · refine ⟨f.fracOf w, 1 - (f.bias : Int) - f.fb, ?_⟩
    simp only [Fmt.decode, if_neg hsmall, if_neg hne, if_pos hz, ite_self]
  · refine ⟨2 ^ f.fb + f.fracOf w, (f.expOf w : Int) - f.bias - f.fb, ?_⟩
    simp only [Fmt.decode, if_neg hsmall, if_neg hne, if_neg hz, ite_self]

/-- A poison encoding has E all ones (R37). -/
theorem Fmt.expOf_eq_eMax_of_poison (h : f.decode w = .poison) : f.expOf w = f.eMax := by
  refine Decidable.byContradiction fun hne => ?_
  obtain ⟨m, e, hd⟩ := Fmt.decode_eq_fin_of_expOf_ne_eMax hne
  rw [hd] at h
  exact FVal.noConfusion h

/-- Poison is no subnormal: `.ftz` flushes only E all zeros (R43). -/
theorem Fmt.isSubnormal_of_poison (hf : 0 < f.eb) (h : f.decode w = .poison) : f.isSubnormal w = false := by
  have hmax : 0 < f.eMax := Nat.sub_pos_of_lt (Nat.one_lt_two_pow (Nat.ne_of_gt hf))
  have hexp : (f.expOf w == 0) = false := by
    rw [Fmt.expOf_eq_eMax_of_poison h]
    exact beq_false_of_ne (Nat.ne_of_gt hmax)
  rw [Fmt.isSubnormal, hexp, Bool.false_and]

theorem Fmt.read_of_poison (hf : 0 < f.eb) (h : f.decode w = .poison) : f.read ftz w = .poison := by
  rw [Fmt.read, Fmt.isSubnormal_of_poison hf h, Bool.and_false, if_neg Bool.false_ne_true, h]

/-- Subtraction changes the sign of its second operand, which keeps poison. -/
@[simp] theorem FVal.negate_poison : FVal.poison.negate = .poison := rfl

/-- Rule 1 of R39, before the rules for NaNs. -/
theorem nanRules_of_poison {xs : List FVal} (h : .poison ∈ xs) (k : FRes) : nanRules f xs k = fres f.poison := by
  have hany : xs.any (· == .poison) = true := List.any_eq_true.mpr ⟨.poison, h, beq_self_eq_true _⟩
  rw [nanRules, if_pos hany]

theorem poison_mem_pair {x y : FVal} (h : x = .poison ∨ y = .poison) : .poison ∈ [x, y] :=
  h.elim (fun hx => hx ▸ .head _) fun hy => hy ▸ .tail _ (.head _)

section Operations

variable (rm : Rm)

theorem addVals_of_poison {x y : FVal} (h : x = .poison ∨ y = .poison) :
    addVals f rm ftz x y = fres f.poison :=
  nanRules_of_poison (poison_mem_pair h) _

theorem mulVals_of_poison {x y : FVal} (h : x = .poison ∨ y = .poison) :
    mulVals f rm ftz x y = fres f.poison :=
  nanRules_of_poison (poison_mem_pair h) _

theorem fmaVals_of_poison {x y z : FVal} (h : x = .poison ∨ y = .poison ∨ z = .poison) :
    fmaVals f rm ftz x y z = fres f.poison :=
  nanRules_of_poison (h.elim (fun hx => hx ▸ .head _) fun hyz => .tail _ (poison_mem_pair hyz)) _

theorem addF_of_poison (hf : 0 < f.eb) (h : f.decode a = .poison ∨ f.decode b = .poison) :
    addF f rm ftz a b = fres f.poison :=
  addVals_of_poison rm (h.imp (Fmt.read_of_poison hf) (Fmt.read_of_poison hf))

theorem subF_of_poison (hf : 0 < f.eb) (h : f.decode a = .poison ∨ f.decode b = .poison) :
    subF f rm ftz a b = fres f.poison :=
  addVals_of_poison rm
    (h.imp (Fmt.read_of_poison hf) fun hb => by rw [Fmt.read_of_poison hf hb, FVal.negate_poison])

theorem mulF_of_poison (hf : 0 < f.eb) (h : f.decode a = .poison ∨ f.decode b = .poison) :
    mulF f rm ftz a b = fres f.poison :=
  mulVals_of_poison rm (h.imp (Fmt.read_of_poison hf) (Fmt.read_of_poison hf))

theorem fmaF_of_poison (hf : 0 < f.eb)
    (h : f.decode a = .poison ∨ f.decode b = .poison ∨ f.decode c = .poison) :
    fmaF f rm ftz a b c = fres f.poison :=
  fmaVals_of_poison rm
    (h.imp (Fmt.read_of_poison hf) (Or.imp (Fmt.read_of_poison hf) (Fmt.read_of_poison hf)))

end Operations

end Sys2Proof.Machine

namespace Sys2Proof

open Sys2Proof.Machine

/-- Settles O13: `.ftz` leaves a poison operand poison, and the first rule of R39 decides each operation. -/
theorem poisonComesFirst : Obligations.PoisonComesFirst := by
  intro t rm ftz a b c _ f p
  have hf : 0 < f.eb := fmtOf_eb_pos t
  constructor
  · intro h
    rw [addF_of_poison rm hf h, subF_of_poison rm hf h, mulF_of_poison rm hf h]
    exact ⟨rfl, rfl, rfl, rfl, rfl, rfl⟩
  · intro h
    rw [fmaF_of_poison rm hf h]
    exact ⟨rfl, rfl⟩

end Sys2Proof
end

section
/-! SUPPORT. Words that act in each lane of P by itself (R84): what `perLane` means is said once, and the fixed-latency
words of classes 0, 1 and 4 are such words. -/
namespace Sys2Proof.Machine

/-- A word whose meaning is `perLane` turns each lane of P. -/
theorem turnsLanes_of_perLane {i : Instr} {h : Hdr} {f : List W32 → Lane → Lane}
    (he : ∀ s, exec i s = s.perLane i h f) : TurnsLanes i h f :=
  fun s _ hr => (he s).trans (perLane_ready hr f)

end Sys2Proof.Machine

namespace Sys2Proof

open Sys2Proof.Machine

/-- Settles O15: each row of class 0 with a fixed latency is a `perLane` word with its row's operation. -/
theorem integerWordsComplete : Obligations.IntegerWordsComplete :=
  ⟨fun h x => turnsLanes_of_perLane (exec_add h x),
   fun h x => turnsLanes_of_perLane (exec_sub h x),
   fun h x => turnsLanes_of_perLane (exec_addc h x),
   fun h x => turnsLanes_of_perLane (exec_subb h x),
   fun h x => turnsLanes_of_perLane (exec_mul h x),
   fun h x => turnsLanes_of_perLane (exec_mulh h x),
   fun h x => turnsLanes_of_perLane (exec_mad h x),
   fun h x => turnsLanes_of_perLane (exec_madw h x),
   fun h x => turnsLanes_of_perLane (exec_min_ h x),
   fun h x => turnsLanes_of_perLane (exec_max_ h x),
   fun h x => turnsLanes_of_perLane (exec_abs h x),
   fun h x => turnsLanes_of_perLane (exec_neg h x),
   fun h x => turnsLanes_of_perLane (exec_adds h x),
   fun h x => turnsLanes_of_perLane (exec_subs h x),
   fun h x => turnsLanes_of_perLane (exec_clamp h x),
   fun h x => turnsLanes_of_perLane (exec_lea h x),
   fun h x => turnsLanes_of_perLane (exec_cmp h x),
   fun h x => turnsLanes_of_perLane (exec_sel h x),
   fun h d k => turnsLanes_of_perLane (exec_movi h d k),
   fun h d k => turnsLanes_of_perLane (exec_movh h d k),
   fun h x => turnsLanes_of_perLane (exec_dp4 h x)⟩

/-- Settles O16: each row of class 1 is a `perLane` word with its row's operation. -/
theorem bitWordsComplete : Obligations.BitWordsComplete :=
  ⟨fun h x => turnsLanes_of_perLane (exec_and_ h x),
   fun h x => turnsLanes_of_perLane (exec_or_ h x),
   fun h x => turnsLanes_of_perLane (exec_xor_ h x),
   fun h x => turnsLanes_of_perLane (exec_andn h x),
   fun h x => turnsLanes_of_perLane (exec_not_ h x),
   fun h x => turnsLanes_of_perLane (exec_shl h x),
   fun h x => turnsLanes_of_perLane (exec_shr h x),
   fun h x => turnsLanes_of_perLane (exec_sar h x),
   fun h x => turnsLanes_of_perLane (exec_rotl h x),
   fun h x => turnsLanes_of_perLane (exec_bfx h x),
   fun h x => turnsLanes_of_perLane (exec_bfi h x),
   fun h x => turnsLanes_of_perLane (exec_popc h x),
   fun h x => turnsLanes_of_perLane (exec_clz h x),
   fun h x => turnsLanes_of_perLane (exec_ctz h x),
   fun h x => turnsLanes_of_perLane (exec_brev h x),
   fun h x => turnsLanes_of_perLane (exec_prmt h x),
   fun h x => turnsLanes_of_perLane (exec_lop3 h x)⟩

/-- Settles O19: each of these rows is a `perLane` word with its row's operation. -/
theorem moveWordsComplete : Obligations.MoveWordsComplete :=
  ⟨fun h x => turnsLanes_of_perLane (exec_mov h x),
   fun h x => turnsLanes_of_perLane (exec_movImm h x),
   fun h x => turnsLanes_of_perLane (exec_pset h x),
   fun h x => turnsLanes_of_perLane (exec_psetAll h x),
   fun h x => turnsLanes_of_perLane (exec_pget h x),
   fun h x => turnsLanes_of_perLane (exec_pgetAll h x),
   fun h x => turnsLanes_of_perLane (exec_pand h x),
   fun h x => turnsLanes_of_perLane (exec_por h x),
   fun h x => turnsLanes_of_perLane (exec_pxor h x),
   fun h x => turnsLanes_of_perLane (exec_pnot h x),
   fun h x => turnsLanes_of_perLane (exec_nop h x),
   fun h x => turnsLanes_of_perLane (exec_hlpIs h x),
   fun h x => turnsLanes_of_perLane (exec_dqnt h x)⟩

/-- Settles O10: the shift of each row cuts off at the width of TYPE, whatever the count. -/
theorem shiftsByCount : Obligations.ShiftsByCount :=
  fun h x s u =>
    ⟨fun _ =>
      ⟨turnsLanes_of_perLane (exec_shl h x) s u,
       turnsLanes_of_perLane (exec_shr h x) s u,
       turnsLanes_of_perLane (exec_rotl h x) s u⟩,
     fun _ => turnsLanes_of_perLane (exec_sar h x) s u⟩

end Sys2Proof
end

section
/-! SUPPORT. The truth table of `lop3` (R101). -/
namespace Sys2Proof.Machine

/-- Each of the eight terms of `lut3` covers one combination of the operands' bits, so that one term alone decides. -/
theorem getLsbD_lut3 (lut : Byte) (a b c : W32) {i : Nat} (hi : i < 32) :
    (lut3 lut a b c).getLsbD i =
      lut.getLsbD ((b.getLsbD i).toNat * 4 + (c.getLsbD i).toNat * 2 + (a.getLsbD i).toNat) := by
  have spread (x : Bool) : (if x then BitVec.allOnes 32 else 0).getLsbD i = x := by
    cases x with
    | false => exact BitVec.getLsbD_zero
    | true => exact (BitVec.getLsbD_allOnes).trans (decide_eq_true hi)
  simp only [lut3, BitVec.getLsbD_or, BitVec.getLsbD_and, BitVec.getLsbD_not, spread, hi]
  cases b.getLsbD i <;> cases c.getLsbD i <;> cases a.getLsbD i <;> simp

end Sys2Proof.Machine

namespace Sys2Proof

open Sys2Proof.Machine

/-- Settles O11: the eight terms of `lut3` are told apart by the operands' bits at the position. -/
theorem truthTableBits : Obligations.TruthTableBits :=
  ⟨fun lut a b c _ hi => getLsbD_lut3 lut a b c hi, fun _ => rfl,
   fun h x => turnsLanes_of_perLane (exec_lop3 h x)⟩

end Sys2Proof
end

section
/-! SUPPORT. Writing a result under R84 and narrowing it under R86. -/
namespace Sys2Proof.Machine

@[simp] theorem setRegs_fpstat (l : Lane) (ws : List (Nat × W32)) : (l.setRegs ws).fpstat = l.fpstat := by
  induction ws generalizing l with
  | nil => rfl
  | cons w ws ih => exact ih _

@[simp] theorem dst_fpstat (l : Lane) (t : Ty) (r : Nat) (v : W64) : (l.dst t r v).fpstat = l.fpstat :=
  setRegs_fpstat l _

@[simp] theorem raise_zero (l : Lane) : l.raise 0 = l := by
  have h : l.fpstat ||| 0 = l.fpstat := BitVec.or_zero
  rw [Lane.raise, h]

/-- Writing a result changes no flag (R28, R84). -/
theorem raise_dst (l : Lane) (t : Ty) (r : Nat) (v : W64) (fl : W32) :
    (l.dst t r v).raise fl = { l.dst t r v with fpstat := l.fpstat ||| fl } := by
  rw [Lane.raise, dst_fpstat]

section Narrowing

variable {w : Nat} {g : Bool} {v : Int}

theorem narrow_wrap : narrow w g false v = (BitVec.ofInt 64 v, 0) := rfl

theorem narrow_sat_of_fits (hlo : intMin w g ≤ v) (hhi : v ≤ intMax w g) :
    narrow w g true v = (BitVec.ofInt 64 v, 0) := by
  rw [narrow, if_pos rfl, if_neg (Int.not_lt.mpr hlo), if_neg (Int.not_lt.mpr hhi)]

theorem narrow_sat_of_below (h : v < intMin w g) : narrow w g true v = (BitVec.ofInt 64 (intMin w g), flagSA) := by
  rw [narrow, if_pos rfl, if_pos h]

/-- The range of a type is not empty. -/
theorem intMin_le_intMax : intMin w g ≤ intMax w g := by
  have h1 : (0 : Int) < 2 ^ (w - 1) := Int.pow_pos (by decide)
  have h2 : (0 : Int) < 2 ^ w := Int.pow_pos (by decide)
  cases g with
  | false => simp only [intMin, intMax, Bool.false_eq_true, if_false]; omega
  | true => simp only [intMin, intMax, if_true]; omega

theorem narrow_sat_of_above (h : intMax w g < v) : narrow w g true v = (BitVec.ofInt 64 (intMax w g), flagSA) := by
  have hlo : ¬ v < intMin w g := Int.not_lt.mpr (Int.le_trans intMin_le_intMax (Int.le_of_lt h))
  rw [narrow, if_pos rfl, if_neg hlo, if_pos h]

end Narrowing

/-- An integer word on a TYPE without a view writes its narrowed result and merges the flags of the narrowing (R86). -/
theorem intOp_of_ne_vw {l : Lane} {vs : List W32} {x : Arith} {op : Int → Int → Int → Int} (hx : x.ty ≠ .vw) :
    l.intOp vs x op =
      let r := narrow (tyBits x.ty) (tySigned x.ty) x.fs
        (op (intOf x.ty (l.src x.ty x.a.toNat)) (intOf x.ty (l.srcB x)) (intOf x.ty (l.src x.ty x.c.toNat)))
      (l.dst x.ty x.d.toNat r.1).raise r.2 := by
  unfold Lane.intOp
  split
  · exact absurd ‹_› hx
  · rfl

end Sys2Proof.Machine

namespace Sys2Proof

open Sys2Proof.Machine

/-- Settles O8: the four ways a result narrows, wrapped, in range, below it and above it. -/
theorem narrowsIntegers : Obligations.NarrowsIntegers := by
  intro l vs x op hx w lo hi v
  rw [intOp_of_ne_vw hx]
  refine ⟨fun hs => ?_, fun hs hlo hhi => ?_, fun hs hlt => ?_, fun hs hgt => ?_⟩
  · rw [hs, narrow_wrap]
    exact raise_zero _
  · rw [hs, narrow_sat_of_fits hlo hhi]
    exact raise_zero _
  · rw [hs, narrow_sat_of_below hlt]
    exact raise_dst ..
  · rw [hs, narrow_sat_of_above hgt]
    exact raise_dst ..

end Sys2Proof
end

section
/-! SUPPORT. Carry chains (R91): operands and results of the types n32 and n64, and the exact sums. -/
namespace Sys2Proof.Machine

variable {l : Lane} {x : Arith}

@[simp] theorem src_n64 (l : Lane) (r : Nat) : l.src .n64 r = l.pair r := rfl

@[simp] theorem dst_n64 (l : Lane) (r : Nat) (v : W64) : l.dst .n64 r v = l.setPair r v := rfl

@[simp] theorem toNat_src_n32 (l : Lane) (r : Nat) : (l.src .n32 r).toNat = (l.reg r).toNat := by
  have hlt := (l.reg r).isLt
  simp only [Lane.src, tyWide, tyBits, Bool.false_eq_true, if_false, BitVec.toNat_ofNat]
  omega

@[simp] theorem dst_n32 (l : Lane) (r : Nat) (v : W64) : l.dst .n32 r v = l.setReg r (v.setWidth 32) := by
  have : widen .n32 v = v.setWidth 32 := by
    apply BitVec.eq_of_toNat_eq
    simp only [widen, tySigned, zextTo, tyBits, Bool.false_eq_true, if_false, BitVec.ofInt_natCast, BitVec.toNat_ofNat,
      BitVec.toNat_setWidth, Nat.mod_mod]
  rw [← this]
  rfl

theorem srcB_of_not_i (hi : x.i = false) : l.srcB x = l.src x.ty x.b.toNat := by
  rw [Lane.srcB, hi, if_neg Bool.false_ne_true]

/-- The low half of a wrapped integer is the integer wrapped at half the width. -/
theorem setWidth_ofInt64 (t : Int) : (BitVec.ofInt 64 t).setWidth 32 = BitVec.ofInt 32 t := by
  apply BitVec.eq_of_toNat_eq
  simp only [BitVec.toNat_setWidth, BitVec.toNat_ofInt]
  omega

/-- The difference is negative just where the minuend is less than what is taken away. -/
theorem borrowOut_sub (a b c : Nat) : borrowOut (a - b - c : Int) = decide (a < b + c) := by
  simp only [borrowOut, decide_eq_decide]
  omega

theorem addCarry_n32 (hi : x.i = false) (ht : x.ty = .n32) :
    let t := (l.reg x.a.toNat).toNat + (l.reg x.b.toNat).toNat + l.carry x
    l.addCarry x = (l.setReg x.d.toNat (BitVec.ofNat 32 t)).setPred x.c.toNat (decide (2 ^ 32 ≤ t)) := by
  simp only [Lane.addCarry, srcB_of_not_i hi, ht, toNat_src_n32, dst_n32, carryOut, tyBits,
    BitVec.setWidth_ofNat_of_le (show 32 ≤ 64 by decide)]

theorem addCarry_n64 (hi : x.i = false) (ht : x.ty = .n64) :
    let t := (l.pair x.a.toNat).toNat + (l.pair x.b.toNat).toNat + l.carry x
    l.addCarry x = (l.setPair x.d.toNat (BitVec.ofNat 64 t)).setPred x.c.toNat (decide (2 ^ 64 ≤ t)) := by
  simp only [Lane.addCarry, srcB_of_not_i hi, ht, src_n64, dst_n64, carryOut, tyBits]

theorem subBorrow_n32 (hi : x.i = false) (ht : x.ty = .n32) :
    let a := (l.reg x.a.toNat).toNat
    let b := (l.reg x.b.toNat).toNat
    l.subBorrow x = (l.setReg x.d.toNat (BitVec.ofInt 32 (a - b - l.carry x))).setPred x.c.toNat
      (decide (a < b + l.carry x)) := by
  simp only [Lane.subBorrow, srcB_of_not_i hi, ht, toNat_src_n32, dst_n32, setWidth_ofInt64, borrowOut_sub]

theorem subBorrow_n64 (hi : x.i = false) (ht : x.ty = .n64) :
    let a := (l.pair x.a.toNat).toNat
    let b := (l.pair x.b.toNat).toNat
    l.subBorrow x = (l.setPair x.d.toNat (BitVec.ofInt 64 (a - b - l.carry x))).setPred x.c.toNat
      (decide (a < b + l.carry x)) := by
  simp only [Lane.subBorrow, srcB_of_not_i hi, ht, src_n64, dst_n64, borrowOut_sub]

end Sys2Proof.Machine
end

section
/-! SUPPORT. Division (R94): truncation, the two corners of the signed and the unsigned types, and the range of the
quotient. -/
namespace Sys2Proof.Machine

theorem intFits_signed {w : Nat} {v : Int} : intFits w true v = true ↔ -2 ^ (w - 1) ≤ v ∧ v < 2 ^ (w - 1) := by
  simp only [intFits, intMin, intMax, if_true, Bool.and_eq_true, decide_eq_true_eq]
  omega

theorem intFits_unsigned {w : Nat} {v : Int} : intFits w false v = true ↔ 0 ≤ v ∧ v < 2 ^ w := by
  simp only [intFits, intMin, intMax, Bool.false_eq_true, if_false, Bool.and_eq_true, decide_eq_true_eq]
  omega

/-- Of a range from -m up to m - 1, only -m divided by -1 gives a quotient outside. -/
theorem tdiv_mem_range {m a b : Int} (hm : 0 < m) (hlo : -m ≤ a) (hhi : a < m) (hc : ¬ (a = -m ∧ b = -1)) :
    -m ≤ a.tdiv b ∧ a.tdiv b < m := by
  have habs : (a.tdiv b).natAbs = a.natAbs / b.natAbs := Int.natAbs_tdiv a b
  obtain rfl | rfl | rfl | hb : b = 0 ∨ b = 1 ∨ b = -1 ∨ 2 ≤ b.natAbs := by omega
  · rw [Int.tdiv_zero]
    omega
  · rw [Int.tdiv_one]
    exact ⟨hlo, hhi⟩
  · rw [Int.tdiv_neg, Int.tdiv_one]
    omega
  · have hlt : a.natAbs / b.natAbs < m.natAbs := by
      apply Nat.div_lt_of_lt_mul
      calc a.natAbs ≤ m.natAbs := by omega
        _ < 2 * m.natAbs := by omega
        _ ≤ b.natAbs * m.natAbs := Nat.mul_le_mul_right _ hb
    omega

/-- The quotient of two values of a type is in its range, but for the least value divided by -1. -/
theorem intFits_tdiv {w : Nat} {g : Bool} {a b : Int} (ha : intFits w g a = true) (hb : intFits w g b = true)
    (hc : ¬ (g = true ∧ a = -(2 ^ (w - 1)) ∧ b = -1)) : intFits w g (a.tdiv b) = true := by
  cases g with
  | true =>
    rw [intFits_signed] at ha ⊢
    exact tdiv_mem_range (Int.pow_pos (by decide)) ha.1 ha.2 fun h => hc ⟨rfl, h⟩
  | false =>
    rw [intFits_unsigned] at ha hb ⊢
    have hle : (a.tdiv b).natAbs ≤ a.natAbs := Int.natAbs_tdiv_le_natAbs a b
    have hnn : 0 ≤ a.tdiv b := Int.tdiv_nonneg ha.1 hb.1
    omega

/-- The remainder of a truncated division does not lie above 0 where the dividend does not. -/
theorem tmod_nonpos {a : Int} (b : Int) (ha : a ≤ 0) : a.tmod b ≤ 0 := by
  have h : 0 ≤ (-a).tmod b := Int.tmod_nonneg b (Int.neg_nonneg_of_nonpos ha)
  rw [Int.neg_tmod] at h
  exact Int.nonpos_of_neg_nonneg h

theorem divide_zero (w : Nat) (g : Bool) (a : Int) : divide w g a 0 =
    (if g = false then 2 ^ w - 1 else if 0 ≤ a then 2 ^ (w - 1) - 1 else -(2 ^ (w - 1)), a) := by
  rw [divide, if_pos rfl]
  cases g <;> rfl

theorem divide_least_neg_one (w : Nat) : divide w true (-(2 ^ (w - 1))) (-1) = (-(2 ^ (w - 1)), 0) := by
  rw [divide, if_neg (by decide), if_pos ⟨rfl, rfl, rfl⟩]

theorem divide_eq_tdiv_tmod {w : Nat} {g : Bool} {a b : Int} (hb : b ≠ 0)
    (hc : ¬ (g = true ∧ a = -(2 ^ (w - 1)) ∧ b = -1)) : divide w g a b = (a.tdiv b, a.tmod b) := by
  rw [divide, if_neg hb, if_neg hc]

end Sys2Proof.Machine

namespace Sys2Proof

open Sys2Proof.Machine

/-- Settles O9: the exact sum and difference decide the carry, and away from its two corners the division is the
truncated one of the integers. -/
theorem carriesAndDivisions : Obligations.CarriesAndDivisions := by
  constructor
  · intro l x hi c
    exact ⟨fun ht => ⟨addCarry_n32 hi ht, subBorrow_n32 hi ht⟩, fun ht => ⟨addCarry_n64 hi ht, subBorrow_n64 hi ht⟩⟩
  · intro w g a b _ ha hb
    refine ⟨fun hb0 hc => ?_, ?_, ?_⟩
    · rw [divide_eq_tdiv_tmod hb0 hc]
      have hlt : (a.tmod b).natAbs < b.natAbs := by
        rw [Int.natAbs_tmod]
        exact Nat.mod_lt _ (Int.natAbs_pos.mpr hb0)
      exact ⟨(Int.tdiv_mul_add_tmod a b).symm, hlt, Int.tmod_nonneg b, tmod_nonpos b, intFits_tdiv ha hb hc⟩
    · rintro rfl
      rw [divide_zero]
      exact ⟨rfl, rfl⟩
    · rintro rfl rfl rfl
      exact divide_least_neg_one w

end Sys2Proof
end

section
/-! SUPPORT. Transfers of control under U (R122-R124): the direction of a lane, the dissent mask, and the trap it
raises. -/
namespace Sys2Proof.Machine

/-- The lanes of a bundle are bits of its entry's mask of 32 (R142). -/
theorem lt_32_of_mem_live {s : State} {h : Hdr} {b : BundleId} {u : Bun} (hb : s.bun? h b = some u) {j : Nat}
    (hj : j ∈ u.live) : j < 32 := by
  unfold State.bun? at hb
  split at hb
  · cases hb
  · split at hb
    · cases hb
    · split at hb
      · cases hb
      · split at hb
        · obtain rfl := Option.some.inj hb
          have hs := (List.mem_filter.mp (List.mem_filter.mp hj).1).1
          exact List.mem_range.mp (List.mem_filter.mp hs).1
        · cases hb

theorem getLsbD_foldl_twoPow (ss : List Nat) (m : BitVec 32) {i : Nat} (hi : i < 32) :
    (ss.foldl (fun m i => m ||| BitVec.twoPow 32 i) m).getLsbD i = (m.getLsbD i || ss.contains i) := by
  induction ss generalizing m with
  | nil => simp
  | cons j ss ih =>
    have hbit : (BitVec.twoPow 32 j).getLsbD i = (i == j) := by
      rw [BitVec.getLsbD_twoPow, Bool.beq_eq_decide_eq]
      by_cases hij : j = i
      · simp [hij, hi]
      · simp [hij, Ne.symm hij]
    rw [List.foldl_cons, ih, BitVec.getLsbD_or, hbit, List.contains_cons, Bool.or_assoc]

theorem getLsbD_maskOf (ss : List Nat) {i : Nat} (hi : i < 32) : (maskOf ss).getLsbD i = ss.contains i := by
  rw [maskOf, getLsbD_foldl_twoPow ss 0 hi]
  simp

theorem maskOf_ne_zero {ss : List Nat} {j : Nat} (hj : j ∈ ss) (hlt : j < 32) : maskOf ss ≠ 0 := by
  intro h0
  have hbit := getLsbD_maskOf ss hlt
  rw [h0, List.contains_iff_mem.mpr hj] at hbit
  simp at hbit

/-- The direction that a transfer gives a lane: none where its guard fails (R124). -/
def State.direction (s : State) (u : Bun) (d : Lane → Dest) (j : Nat) : Option Dest :=
  if j ∈ u.act then some (d (s.lane u j)) else none

/-- Those of `ks` whose direction differs from that of `k` (R124). -/
def State.dissenters (s : State) (u : Bun) (d : Lane → Dest) (k : Nat) (ks : List Nat) : List Nat :=
  ks.filter fun j => s.direction u d j != s.direction u d k

theorem directions_eq_map (s : State) (u : Bun) (d : Lane → Dest) :
    s.directions u d = u.live.map fun j => (j, s.direction u d j) := by
  simp only [State.directions, State.direction, List.contains_iff_mem]

section Dissent

variable {s : State} {u : Bun} {d : Lane → Dest} {k : Nat} {ks : List Nat}

/-- The dissent mask names the lanes that go another way than the lowest. -/
theorem dissent_directions (hl : u.live = k :: ks) :
    dissent (s.directions u d) = maskOf (s.dissenters u d k ks) := by
  rw [directions_eq_map, hl, List.map_cons, dissent, List.filter_map, List.map_map]
  exact congrArg maskOf (List.map_id _)

/-- A lane that dissents or the lowest lane, from which it does, is in P. -/
theorem exists_act_live_of_dissenter {j : Nat} (hl : u.live = k :: ks) (hj : j ∈ s.dissenters u d k ks) :
    ∃ i ∈ u.act, i ∈ u.live := by
  obtain ⟨hjk, hne⟩ := List.mem_filter.mp hj
  by_cases hk : k ∈ u.act
  · exact ⟨k, hk, hl ▸ .head _⟩
  · by_cases hja : j ∈ u.act
    · exact ⟨j, hja, hl ▸ .tail _ hjk⟩
    · simp [State.direction, hk, hja] at hne

end Dissent

/-- A ready word that raises one trap in listed lanes, of which one is live. -/
theorem runWord_trapAll {s t : State} {i : Instr} {h : Hdr} {u : Bun} {js : List Nat} {tr : TrapInfo}
    {body : Bun → State → Effect} (hr : Ready s i h u) (hb : body u s = .trap t (trapAll js tr))
    (hj : ∃ j ∈ js, j ∈ u.live) : s.runWord i h body = .next (t.trapLanes u (trapAll js tr)) := by
  refine runWord_trap hr hb ?_
  obtain ⟨j, hjs, hlive⟩ := hj
  exact List.any_eq_true.mpr ⟨(j, tr), List.mem_map_of_mem hjs, List.contains_iff_mem.mpr hlive⟩

/-- A transfer with U set from which a lane dissents raises the uniformity violation (R124). -/
theorem transfer_of_dissent {s : State} {i : Instr} {h : Hdr} {u : Bun} {uni : Bool} {d : VAddr → Lane → Dest}
    {link : Option Nat} {k : Nat} {ks : List Nat} (hr : Ready s i h u) (hl : u.live = k :: ks) (hu : uni = true)
    (ho : s.dissenters u (d u.pc) k ks ≠ []) :
    s.transfer i h uni d link = .next (s.trapLanes u
      (trapAll u.act (trapAt 0x03 u.pc ((maskOf (s.dissenters u (d u.pc) k ks)).setWidth 64)))) := by
  obtain ⟨j, hj⟩ := List.exists_mem_of_ne_nil _ ho
  have hlive : j ∈ u.live := hl ▸ .tail _ (List.mem_filter.mp hj).1
  have hmask : maskOf (s.dissenters u (d u.pc) k ks) ≠ 0 := maskOf_ne_zero hj (lt_32_of_mem_live hr.2.1 hlive)
  unfold State.transfer
  refine runWord_trapAll hr ?_ (exists_act_live_of_dissenter hl hj)
  simp only [dissent_directions hl, hu, Bool.true_and, bne_iff_ne, ne_eq, hmask, not_false_eq_true, if_true]

/-- What a transfer does in a lane of P (R122, R123). -/
def transferLane (u : Bun) (d : VAddr → Lane → Dest) (link : Option Nat) (l : Lane) : Lane :=
  let t := d u.pc l
  let l := match link with
    | some r => l.setPair r (codePtr l.prio (u.pc + 8))
    | none => l
  { l with pc := t.1, prio := t.2 }

/-- A transfer in a bundle of one live lane, which agrees with itself (R124). -/
theorem transfer_of_alone {s : State} {i : Instr} {h : Hdr} {u : Bun} {uni : Bool} {d : VAddr → Lane → Dest}
    {link : Option Nat} {k : Nat} (hr : Ready s i h u) (hl : u.live = [k]) :
    s.transfer i h uni d link =
      .next (s.afterWord (s.mapLanes u u.act fun _ => transferLane u d link) i u u.act h.sw) := by
  refine transfer_ready hr (.inr fun j hj m hm => ?_)
  rw [hl, List.mem_singleton] at hj hm
  rw [hj, hm]

/-- What a word that is a transfer does where lanes dissent from the lowest under U, and in a bundle of one live lane. -/
theorem exec_of_transfer {s : State} {i : Instr} {h : Hdr} {u : Bun} {uni : Bool} {d : VAddr → Lane → Dest}
    {link : Option Nat} {k : Nat} {ks : List Nat} (hl : u.live = k :: ks) (he : exec i s = s.transfer i h uni d link)
    (hr : Ready s i h u) :
    (uni = true → s.dissenters u (d u.pc) k ks ≠ [] → exec i s = .next (s.trapLanes u
      (trapAll u.act (trapAt 0x03 u.pc ((maskOf (s.dissenters u (d u.pc) k ks)).setWidth 64))))) ∧
    (ks = [] →
      exec i s = .next (s.afterWord (s.mapLanes u u.act fun _ => transferLane u d link) i u u.act h.sw)) :=
  ⟨fun hu ho => he.trans (transfer_of_dissent hr hl hu ho), fun hk => he.trans (transfer_of_alone hr (hk ▸ hl))⟩

end Sys2Proof.Machine

namespace Sys2Proof

open Sys2Proof.Machine

/-- Settles O21: each of the five words is a `transfer` to its target, with its link. -/
theorem transfersComplete : Obligations.TransfersComplete :=
  fun h x s _ =>
    ⟨fun hr ho => (exec_bra h x s).trans (transfer_ready hr ho),
     fun hr ho => (exec_call h x s).trans (transfer_ready hr ho),
     fun hr ho => (exec_brx h x s).trans (transfer_ready hr ho),
     fun hr ho => (exec_ret h x s).trans (transfer_ready hr ho),
     fun hr ho => (exec_callx h x s).trans (transfer_ready hr ho)⟩

/-- Settles O22: a lane that dissents sets its bit of the mask, and it or the lowest lane is in P and takes the trap. -/
theorem dissentTraps : Obligations.DissentTraps :=
  fun h x s _ _ _ hl =>
    ⟨exec_of_transfer hl (exec_bra h x s),
     exec_of_transfer hl (exec_call h x s),
     exec_of_transfer hl (exec_brx h x s),
     exec_of_transfer hl (exec_callx h x s),
     exec_of_transfer hl (exec_ret h x s)⟩

end Sys2Proof
end

section
/-! SUPPORT. The loop words (R126, R129), which fault in the lanes of P whose loop stack is full or empty, and the
evaluation of a loop end (R127). -/
namespace Sys2Proof.Machine

section LoopWords

variable {s : State} {i : Instr} {h : Hdr} {x : Ctl} {u : Bun} {count : Lane → W32}

/-- With room in every lane of P the push form of `loop` has its effect in each of them. -/
theorem pushLoops_of_room (hr : Ready s i h u) (hroom : ∀ j ∈ u.act, (s.lane u j).loops.length < 4) :
    s.pushLoops i h x count =
      .next (s.afterWord (s.mapLanes u u.act fun _ l => l.pushLoop u.pc x.ofl (count l)) i u u.act h.sw) := by
  have hfull : (u.act.filter fun j => 4 ≤ (s.lane u j).loops.length) = [] :=
    List.filter_eq_nil_iff.mpr fun j hj => by simpa using hroom j hj
  unfold State.pushLoops
  refine runWord_done (moved := u.act) hr ?_ (t := s.mapLanes u u.act _) hr.2.2.2
  simp only [hfull, List.isEmpty_nil, if_true]

/-- At depth 4 the push form of `loop` faults, whatever the count. -/
theorem pushLoops_of_full (hr : Ready s i h u)
    (hfull : ∃ j ∈ u.act.filter fun j => 4 ≤ (s.lane u j).loops.length, j ∈ u.live) :
    s.pushLoops i h x count = .next (s.trapLanes u
      (trapAll (u.act.filter fun j => 4 ≤ (s.lane u j).loops.length) (trapAt 0x06 u.pc))) := by
  refine runWord_trapAll hr (if_neg fun hnil => ?_) hfull
  obtain ⟨j, hj, -⟩ := hfull
  exact List.ne_nil_of_mem hj (List.isEmpty_iff.mp hnil)

theorem execLoopPop_of_loops (hr : Ready s (.loopPop h x) h u) (hloops : ∀ j ∈ u.act, (s.lane u j).loops ≠ []) :
    execLoopPop h x s = .next (s.afterWord
      (s.mapLanes u u.act fun _ l => { l with loops := l.loops.tail, pc := u.pc + 8 }) (.loopPop h x) u u.act h.sw) := by
  have hnone : (u.act.filter fun j => (s.lane u j).loops.isEmpty) = [] :=
    List.filter_eq_nil_iff.mpr fun j hj => by simpa using hloops j hj
  unfold execLoopPop
  refine runWord_done (moved := u.act) hr ?_ (t := s.mapLanes u u.act _) hr.2.2.2
  simp only [hnone, List.isEmpty_nil, if_true]

theorem execLoopPop_of_none (hr : Ready s (.loopPop h x) h u)
    (hnone : ∃ j ∈ u.act.filter fun j => (s.lane u j).loops.isEmpty, j ∈ u.live) :
    execLoopPop h x s = .next (s.trapLanes u
      (trapAll (u.act.filter fun j => (s.lane u j).loops.isEmpty) (trapAt 0x06 u.pc))) := by
  refine runWord_trapAll hr (if_neg fun hnil => ?_) hnone
  obtain ⟨j, hj, -⟩ := hnone
  exact List.ne_nil_of_mem hj (List.isEmpty_iff.mp hnil)

end LoopWords

section LoopEnds

variable {l : Lane} {x : VAddr} {e : LoopEntry} {es : List LoopEntry}

/-- A loop that ends at the word and has passes left takes the lane back to its start. -/
theorem advance_of_passes_left (hl : l.loops = e :: es) (he : e.stop = x) (hc : e.count - 1 ≠ 0) :
    l.advance x = { l with loops := { e with count := e.count - 1 } :: es, pc := e.start } := by
  rw [Lane.advance, hl, loopEnd, if_pos he, if_neg hc]

/-- A loop in its last pass gives way to the entry below it. -/
theorem advance_of_last_pass (hl : l.loops = e :: es) (he : e.stop = x) (hc : e.count - 1 = 0) :
    l.advance x = Lane.advance { l with loops := es } x := by
  rw [Lane.advance, hl, loopEnd, if_pos he, if_pos hc]
  rfl

end LoopEnds

end Sys2Proof.Machine

namespace Sys2Proof

open Sys2Proof.Machine

/-- Settles O23: `loop` and `loop.pop` act where no lane of P fails their check of the depth, and fault where one does. -/
theorem loopWordsComplete : Obligations.LoopWordsComplete :=
  fun h x s _ =>
    ⟨fun hr hroom => (exec_loop h x s).trans (pushLoops_of_room hr hroom),
     fun hr hroom => (exec_loopImm h x s).trans (pushLoops_of_room hr hroom),
     fun hr hloops => (exec_loopPop h x s).trans (execLoopPop_of_loops hr hloops),
     fun s _ hr _ => (exec_prio h x s).trans (runWord_done hr rfl hr.2.2.2),
     fun hr hfull => (exec_loop h x s).trans (pushLoops_of_full hr hfull),
     fun hr hfull => (exec_loopImm h x s).trans (pushLoops_of_full hr hfull),
     fun hr hnone => (exec_loopPop h x s).trans (execLoopPop_of_none hr hnone)⟩

/-- Settles O55: the evaluation of a loop end goes down the stack until an entry has passes left or ends elsewhere. -/
theorem loopsRunTheirCount : Obligations.LoopsRunTheirCount := by
  refine ⟨fun l x e es hl he => ⟨advance_of_passes_left hl he, advance_of_last_pass hl he⟩, fun l x hne => ?_,
    fun l x => ?_⟩
  · refine advance_pc_not l x fun e he => ?_
    obtain ⟨es, hl⟩ := List.head?_eq_some_iff.mp he
    exact hne e es hl
  · obtain ⟨p, ls, hadv⟩ := advance_eq l x
    rw [hadv]

end Sys2Proof
end

section
/-! SUPPORT. `trap` (R133) and where a precise trap resumes (R354). -/
namespace Sys2Proof.Machine

variable {s : State} {h : Hdr} {x : Ctl} {u : Bun}

theorem execTrap_of_act (hr : Ready s (.trap h x) h u)
    (hlive : ((trapAll u.act { trapAt 0x08 u.pc with k := x.ofl }).any fun p => u.live.contains p.1) = true) :
    execTrap h x s = .next (s.trapLanes u (trapAll u.act { trapAt 0x08 u.pc with k := x.ofl })) := by
  refine runWord_trap hr (if_neg fun hnil => ?_) hlive
  rw [List.isEmpty_iff.mp hnil] at hlive
  exact Bool.false_ne_true hlive

theorem execTrap_of_act_nil (hr : Ready s (.trap h x) h u) (ha : u.act = []) :
    execTrap h x s = .next (s.afterWord s (.trap h x) u [] true) :=
  runWord_doneEnd hr (if_pos (List.isEmpty_iff.mpr ha))

/-- A precise trap is taken with the lane's own priority in RESUME, and the PC of its word or, after the software trap,
of the next. -/
theorem takePrecise_eq_takeTrap {team g slot : Nat} {l : Lane} (tr : TrapInfo) (fpc : VAddr)
    (hl : s.lane? team g slot = some l) :
    s.takePrecise team g slot tr fpc = s.takeTrap team g slot tr fpc (fpc + 8)
      (codePtr l.prio (if tr.code = 0x08 then fpc + 8 else fpc)) false := by
  rw [State.takePrecise, hl]
  rfl

end Sys2Proof.Machine

namespace Sys2Proof

open Sys2Proof.Machine

/-- Settles O36: the two branches of `trap`, and the RESUME that `takePrecise` writes. -/
theorem trapWordTraps : Obligations.TrapWordTraps :=
  ⟨fun h x s _ hr _ hlive => (exec_trap h x s).trans (execTrap_of_act hr hlive),
   fun h x s _ hr ha => (exec_trap h x s).trans (execTrap_of_act_nil hr ha),
   fun _ _ _ _ tr fpc _ hl => takePrecise_eq_takeTrap tr fpc hl⟩

end Sys2Proof
end

section
/-! SUPPORT. Writes of the registers from the host (R409): each event has the effect of its register's write while the
host may write. -/
namespace Sys2Proof.Machine

variable {s : State} {q : Nat} {v : W64}

/-- What a write of a register from the host answers: its effect by register or half and value, while the host may write
(R409). -/
def State.onWrite (s : State) (f : Nat → W64 → Answer) : Answer :=
  if !s.hostMay then .next s else
  match s.subject with
  | .write q v => f q v
  | _ => .next s

theorem onWrite_of_write {f : Nat → W64 → Answer} (hm : s.hostMay = true) (hs : s.subject = .write q v) :
    s.onWrite f = f q v := by
  rw [State.onWrite, hm, hs]
  rfl

/-- SKIP lies in the half of the value that the register keeps (R156). -/
theorem getLsbD_lo32_of_lt {n : Nat} (hn : n < 32) : (lo32 v).getLsbD n = bit v n := by
  simp [lo32, bit, hn]

/-- With SKIP, clearing the last set bits of CODE drops the failed record (R156). -/
theorem writeLqErr_of_skip (h : bit v 8 = true) : s.writeLqErr q (lo32 v) =
    let s1 := s.updLq q fun x => { x with code := (s.lq q).code &&& ~~~((lo32 v).setWidth 8) }
    if (s.lq q).code ≠ 0 ∧ (s.lq q).code &&& ~~~((lo32 v).setWidth 8) = 0 then s1.dropRecord q else s1 := by
  simp only [State.writeLqErr, getLsbD_lo32_of_lt (show 8 < 32 by decide), h, and_true]

/-- Without SKIP no record is dropped (R156). -/
theorem writeLqErr_of_no_skip (h : bit v 8 = false) : s.writeLqErr q (lo32 v) =
    s.updLq q fun x => { x with code := (s.lq q).code &&& ~~~((lo32 v).setWidth 8) } := by
  simp only [State.writeLqErr, getLsbD_lo32_of_lt (show 8 < 32 by decide), h, Bool.false_eq_true, and_false, if_false]

theorem execLqErrSkip_eq (h : bit v 8 = true) (hm : s.hostMay = true) (hs : s.subject = .write q v) :
    execLqErrSkip s = .next (s.writeLqErr q (lo32 v)) :=
  (onWrite_of_write hm hs).trans (if_pos h)

theorem execLqErrResume_eq (h : bit v 8 = false) (hm : s.hostMay = true) (hs : s.subject = .write q v) :
    execLqErrResume s = .next (s.writeLqErr q (lo32 v)) :=
  (onWrite_of_write hm hs).trans (if_neg (Bool.eq_false_iff.mp h))

end Sys2Proof.Machine

namespace Sys2Proof

open Sys2Proof.Machine

/-- Settles O43: each event is a write from the host, with the effect of its register's write. -/
theorem registerWritesAct : Obligations.RegisterWritesAct :=
  fun s _ _ hm hs =>
    ⟨(exec_lqTailWrite s).trans (onWrite_of_write hm hs),
     (exec_lqCfgWrite s).trans (onWrite_of_write hm hs),
     fun h => (exec_lqErrSkip s).trans ((execLqErrSkip_eq h hm hs).trans (congrArg _ (writeLqErr_of_skip h))),
     fun h => (exec_lqErrResume s).trans ((execLqErrResume_eq h hm hs).trans (congrArg _ (writeLqErr_of_no_skip h))),
     (exec_fbackWrite s).trans (onWrite_of_write hm hs),
     (exec_fbstatWrite s).trans (onWrite_of_write hm hs),
     (exec_ctxinvWrite s).trans (onWrite_of_write hm hs),
     (exec_ctxbaseWrite s).trans (onWrite_of_write hm hs),
     (exec_stkstatWrite s).trans (onWrite_of_write hm hs),
     (exec_felttailWrite s).trans (onWrite_of_write hm hs)⟩

end Sys2Proof
end

section
/-! SUPPORT. The events of launches (R155-R161, R190, R191) where their conditions hold, and the lanes of a team as it
starts (R14, R138, R142). -/
namespace Sys2Proof.Machine

-- a team of one group as it starts

section OneGroup

variable {gi size hw i : Nat} {hlp : Bool} {mk : SlotKind → Nat → Lane}

theorem lane_startGroup (hi : i < 32) : (startGroup gi size hlp hw mk).lane i =
    if 32 * gi + i < size then mk .live (32 * gi + i)
    else if hlp ∧ 32 * gi + i / 4 * 4 < size then mk .helper (32 * gi + i)
    else emptyLane := by
  simp [Group.lane, startGroup, hi]

/-- A `$tid` below the size of the team is a live lane (R138). -/
theorem lane_startGroup_of_lt (hi : i < 32) (h : 32 * gi + i < size) :
    (startGroup gi size hlp hw mk).lane i = mk .live (32 * gi + i) := by
  rw [lane_startGroup hi, if_pos h]

/-- No other slot holds a live lane (R138, R141). -/
theorem lane_startGroup_kind_ne_live (hk : ∀ tid, (mk .helper tid).kind = .helper) (h : size ≤ 32 * gi + i) :
    ((startGroup gi size hlp hw mk).lane i).kind ≠ .live := by
  by_cases hi : i < 32
  · rw [lane_startGroup hi, if_neg (Nat.not_lt.mpr h)]
    split
    · rw [hk]
      decide
    · decide
  · have hnone : (startGroup gi size hlp hw mk).lane i = emptyLane := by
      simp [Group.lane, startGroup, Nat.le_of_not_lt hi]
    rw [hnone]
    decide

/-- A group starts with one entry, which is ready and holds the slots that are not empty (R142). -/
theorem startGroup_entries (gi size hw : Nat) (hlp : Bool) (mk : SlotKind → Nat → Lane) :
    ∃ e : Entry, (startGroup gi size hlp hw mk).entries = [e] ∧ e.isReady = true ∧
      ∀ i < 32, e.mask.getLsbD i = (((startGroup gi size hlp hw mk).lane i).kind != .empty) := by
  refine ⟨_, rfl, rfl, fun i hi => ?_⟩
  refine (getLsbD_maskOf _ hi).trans ?_
  rw [lane_startGroup hi, Bool.eq_iff_iff, List.contains_iff_mem, List.mem_filter]
  exact and_iff_right (List.mem_range.mpr hi)

end OneGroup

/-- Up to 32 lanes start as one group (R138). -/
theorem startTeam_groups_of_le_32 (x : TeamSeed) (h0 : 0 < x.size) (h32 : x.size ≤ 32) :
    ∃ spill : Nat → W32, (startTeam x).groups = [startGroup 0 x.size x.hlp (x.hws.getD 0 0) fun k tid =>
      startLane k tid x.entry (x.params.getD tid (x.params.getD 0 0)) x.nregs (spill (tid / 32)) x.now] := by
  have hone : (x.size + 31) / 32 = 1 := by omega
  refine ⟨fun home => BitVec.ofNat 32 (Team.spillTop { startTeam x with groups := [] } home), ?_⟩
  simp only [startTeam, hone]
  rfl

/-- A team of up to 32 lanes starts as one group of one ready entry; lane `i` has `$tid` `i`, its own `$param` and the
entry's PC and priority (R14, R138, R142). -/
theorem startTeam_one_group (x : TeamSeed) (h0 : 0 < x.size) (h32 : x.size ≤ 32) :
    ∃ (g : Group) (e : Entry), (startTeam x).groups = [g] ∧ g.entries = [e] ∧ e.isReady = true ∧
      (∀ i < x.size, e.mask.getLsbD i = true ∧ (g.lane i).kind = .live ∧ (g.lane i).tid = i ∧
        (g.lane i).param = x.params.getD i (x.params.getD 0 0) ∧ (g.lane i).pc = ptrAddr x.entry ∧
        (g.lane i).prio = ptrPrio x.entry) ∧
      ∀ i, x.size ≤ i → (g.lane i).kind ≠ .live := by
  obtain ⟨spill, hg⟩ := startTeam_groups_of_le_32 x h0 h32
  obtain ⟨e, hes, hready, hmask⟩ := startGroup_entries 0 x.size (x.hws.getD 0 0) x.hlp fun k tid =>
    startLane k tid x.entry (x.params.getD tid (x.params.getD 0 0)) x.nregs (spill (tid / 32)) x.now
  refine ⟨_, e, hg, hes, hready, fun i hi => ?_, fun i hi => ?_⟩
  · have hi32 : i < 32 := Nat.lt_of_lt_of_le hi h32
    rw [hmask i hi32, lane_startGroup_of_lt hi32 (by omega), Nat.mul_zero, Nat.zero_add]
    exact ⟨rfl, rfl, rfl, rfl, rfl, rfl⟩
  · exact lane_startGroup_kind_ne_live (fun _ => rfl) (by omega)

-- events of launch queues

section Events

variable {s : State} {q n : Nat} {l : Launch}

theorem execLaunchRecordConsume_eq (hs : s.subject = .unit q) (hc : s.consumes q = true) (hw : (s.lq q).wait = .none) :
    execLaunchRecordConsume s = .next (s.consume q) := by
  simp [execLaunchRecordConsume, hs, hc, hw]

theorem execValidRetry_eq {w : W64} (hs : s.subject = .unit q) (hc : s.consumes q = true)
    (hw : (s.lq q).wait = .valid w) (ht : w ≤ s.time.now) : execValidRetry s = .next (s.consume q) := by
  simp [execValidRetry, hs, hc, hw, ht]

theorem execDependenceReread_eq {w : W64} {r : List W64} (hs : s.subject = .unit q) (hc : s.consumes q = true)
    (hw : (s.lq q).wait = .deps w r) : execDependenceReread s = .next (s.admitRecord q r) := by
  simp [execDependenceReread, hs, hc, hw]

-- placement

/-- What a placement that may happen leaves (R160, R161). -/
def State.placeGang (s : State) (l : Launch) (p : Placement) (slots : List Nat) : State :=
  let gang : Gang :=
    { id := s.nextNum, launch := l.id, index := l.placed, size := l.gangSize, cluster := clusterOf (p.cores.getD 0 0),
      base := p.gb, scratch := l.scratch, local_ := emptyLocal, task := false, laneGangs := [], savedWhole := false,
      frame := slots.getD l.gangSize 0, frameLen := gangFrameSize l.scratch }
  let s1 := { s.fresh.2 with gangs := s.gangs ++ [gang] }.updLaunch l.id fun x =>
    { x with placed := x.placed + 1, live := x.live + 1, reserve := none,
             waiting := if x.placed + 1 < x.grid then some s.time.now else none }
  (p.cores.zipIdx.foldl (fun (t : State) (c, i) => t.startOn l s.nextNum i c (slots.getD i 0)) s1).settle

theorem execGangPlacement_eq {p : Placement} {slots : List Nat} (hs : s.subject = .place n p)
    (hl : s.launch? n = some l) (hg : s.hasGang l = true) (hr : s.running = true) (hn : s.isNext l = true)
    (hp : s.placeOk l p = true) (hsl : s.gangSlots l.ctx l.slotSizes = some slots) :
    execGangPlacement s = .next (s.placeGang l p slots) := by
  simp only [execGangPlacement, hs, hl, hg, hr, hn, hp, hsl, Bool.not_true, Bool.or_self, Bool.false_eq_true, if_false]
  rfl

theorem execPlacementStarvation_eq {c : Nat} {since : W64} (hs : s.subject = .unit2 n c) (hl : s.launch? n = some l)
    (hw : l.waiting = some since) (hg : s.hasGang l = true) (hv : l.reserve = none) (hc : c < 16)
    (ht : starveTicks ≤ s.time.now - since) (hf : s.fitsSomewhere l = false) (hk : s.keptFrom n c = false)
    (he : s.fitsEmptied l c = true) :
    execPlacementStarvation s = .next (s.updLaunch n fun x => { x with reserve := some c }) := by
  have ht' : ¬ s.time.now - since < starveTicks := BitVec.not_lt.mpr ht
  simp [execPlacementStarvation, hs, hl, hw, hg, hv, Nat.not_le.mpr hc, ht', hf, hk, he]

-- task teams

/-- What tasks of a launch at the head of a cluster's queue start as a team with (R191). -/
def State.taskSeed (s : State) (l : Launch) (k : Task) (ks : List Task) (core : Nat) (slots : List Nat) : TeamSeed :=
  let n := (k :: ks).length
  { id := s.nextNum + 1, gang := s.nextNum, index := 0, size := n, nregs := l.nregs, shared := 0,
    spillUnits := l.spillUnits, ntiles := 0, ncvs := 0, hlp := l.hlp, place := s.placeOn core (l.taskNeeds n),
    hws := s.freeHw core, entry := k.entry, params := (k :: ks).map (·.arg), now := s.timeAt core,
    frame := slots.getD 0 0, frameLen := frameSize n l.nregs 0 l.spillUnits 0 0 }

/-- The `$param` of a task team's lane is the argument of its task (R191). -/
theorem param_taskSeed {k task : Task} {ks : List Task} {core i : Nat} {slots : List Nat}
    (hi : (k :: ks)[i]? = some task) :
    let ps := (s.taskSeed l k ks core slots).params
    ps.getD i (ps.getD 0 0) = task.arg := by
  simp only [State.taskSeed, List.getD_eq_getElem?_getD, List.getElem?_map, hi, Option.map_some, Option.getD_some]

/-- What forming a task team leaves (R191). -/
def State.formTaskTeam (s : State) (l : Launch) (k : Task) (ks : List Task) (c core : Nat) (slots : List Nat) : State :=
  let gang : Gang :=
    { id := s.nextNum, launch := l.id, index := k.gang, size := 1, cluster := c, base := 0, scratch := 0,
      local_ := emptyLocal, task := true, laneGangs := (k :: ks).map (·.gang), savedWhole := false, frame := 0,
      frameLen := 0 }
  State.settle ({ s with nextNum := s.nextNum + 2, tasks := s.tasks.set c ((s.tasks.getD c []).drop (k :: ks).length),
                         teams := s.teams ++ [startTeam (s.taskSeed l k ks core slots)],
                         gangs := s.gangs ++ [gang] }.updLaunch l.id
    fun x => { x with teams := x.teams ++ [s.nextNum + 1] })

theorem execTaskTeamForm_eq {c core count : Nat} {k : Task} {ks : List Task} {slots : List Nat}
    (hs : s.subject = .unit3 c core count) (hts : (sameTasks (s.tasks.getD c [])).take (min count 32) = k :: ks)
    (hl : s.launch? k.launch = some l) (hc : clusterOf core = c) (hx : s.suspendedCtx l.ctx = false)
    (hr : s.running = true) (hn : s.isNext l = true) (hf : s.taskFits l (k :: ks).length core = true)
    (hsl : s.gangSlots l.ctx [frameSize (k :: ks).length l.nregs 0 l.spillUnits 0 0] = some slots) :
    execTaskTeamForm s = .next (s.formTaskTeam l k ks c core slots) := by
  simp only [execTaskTeamForm, hs, hts, hl, hc, hx, hr, hn, hf, hsl, ne_eq, not_true, Bool.not_true, Bool.false_eq_true,
    or_self, if_false]
  rfl

-- the end of teams and launches

/-- What a stack keeps says nothing of the gangs. -/
theorem foldl_updStack_gangs (f : Nat → Stack → Stack) (ks : List Nat) (s : State) :
    (ks.foldl (fun s k => s.updStack k (f k)) s).gangs = s.gangs := by
  induction ks generalizing s with
  | nil => rfl
  | cons k ks ih => exact ih _

theorem execTeamResourcesFree_eq {id : Nat} {t : Team} {g : Gang} (hs : s.subject = .unit id) (ht : s.team? id = some t)
    (he : t.ended = true) (ho : s.operationsDone t = true) (hg : (s.logLost t).gang? t.gang = some g) :
    execTeamResourcesFree s = .next (State.settle (State.gangOver
      ((List.range 8).foldl (fun (s : State) k =>
          s.updStack k fun x => { x with holds := x.holds.filter fun h => h.team != id })
        { s.logLost t with teams := (s.logLost t).teams.filter fun x => x.id != id,
                           streams := (s.logLost t).streams.filter fun x => x.team != id,
                           serges := (s.logLost t).serges.filter fun z => z.team != id }) g t.size)) := by
  simp only [State.gang?] at hg
  simp only [execTeamResourcesFree, hs, ht, he, ho, Bool.not_true, Bool.or_self, Bool.false_eq_true, if_false,
    State.gang?, foldl_updStack_gangs, hg]

section Completion

variable (hs : s.subject = .unit n) (hl : s.launch? n = some l) (hr : s.running = true) (hp : l.grid ≤ l.placed)
  (hv : l.live = 0) (ht : l.tasks = 0)
include hs hl hr hp hv ht

theorem execLaunchCompletion_of_no_counter (he : l.end_ = .running) (hd : l.done = 0) :
    execLaunchCompletion s = .next (s.dropLaunch n) := by
  simp [execLaunchCompletion, hs, hl, hr, Nat.not_lt.mpr hp, hv, ht, he, hd]

theorem execLaunchCompletion_of_running (he : l.end_ = .running) (hd : l.done ≠ 0) :
    execLaunchCompletion s = .next (
      let s1 := s.systemWriteBack (l.teams.flatMap fun t => (List.range 32).map fun g => (t, g))
      s1.updLaunch n fun x => { x with end_ := .releasing (s1.time.now + BitVec.ofNat 64 (s1.margin .system)) }) := by
  simp only [execLaunchCompletion, hs, hl, hr, Nat.not_lt.mpr hp, hv, ht, he, if_neg hd, ne_eq, not_true, Bool.not_true,
    Bool.false_eq_true, or_self, if_false]

theorem execLaunchCompletion_of_released {w : W64} (he : l.end_ = .releasing w) (hw : w ≤ s.time.now) :
    execLaunchCompletion s = .next (s.countDone l) := by
  simp [execLaunchCompletion, hs, hl, hr, Nat.not_lt.mpr hp, hv, ht, he, BitVec.not_lt.mpr hw]

end Completion

end Events

end Sys2Proof.Machine

namespace Sys2Proof

open Sys2Proof.Machine

/-- Settles O45: each event passes its checks, and a task team is one group at its start. -/
theorem launchesProceed : Obligations.LaunchesProceed := by
  intro s
  refine ⟨fun q hs hc => ⟨fun hw => ?_, fun w hw ht => ?_, fun w r hw => ?_⟩,
    fun n p l slots hs hl hg hr hn hp hsl => ?_, fun n c l since hs hl hw hg hv hc ht hf hk he => ?_,
    fun c core count k ks l slots hs hts hl hc hx hr hn => ?_, fun id t g hs ht he ho => ?_,
    fun n l hs hl hr hp hv ht => ⟨fun he hd => ?_, fun he hd => ?_, fun w he hw => ?_⟩⟩
  · exact (exec_launchRecordConsume s).trans (execLaunchRecordConsume_eq hs hc hw)
  · exact (exec_validRetry s).trans (execValidRetry_eq hs hc hw ht)
  · exact (exec_dependenceReread s).trans (execDependenceReread_eq hs hc hw)
  · exact (exec_gangPlacement s).trans (execGangPlacement_eq hs hl hg hr hn hp hsl)
  · exact (exec_placementStarvation s).trans (execPlacementStarvation_eq hs hl hw hg hv hc ht hf hk he)
  · intro n size hf hsl
    have h32 : (k :: ks).length ≤ 32 := by
      rw [← hts, List.length_take]
      omega
    obtain ⟨g, e, hgs, hes, hready, hlanes, hrest⟩ :=
      startTeam_one_group (s.taskSeed l k ks core slots) (Nat.succ_pos _) h32
    refine ⟨_, g, e, rfl, rfl, rfl, rfl, rfl, rfl, rfl, rfl, hgs, hes, hready, fun i task hi => ?_, hrest,
      (exec_taskTeamForm s).trans (execTaskTeamForm_eq hs hts hl hc hx hr hn hf hsl)⟩
    obtain ⟨hm, hk, htid, hparam, hpc, hprio⟩ := hlanes i (List.getElem?_eq_some_iff.mp hi).1
    exact ⟨hm, hk, htid, hparam.trans (param_taskSeed hi), hpc, hprio⟩
  · intro s1 hg
    exact (exec_teamResourcesFree s).trans (execTeamResourcesFree_eq hs ht he ho hg)
  · exact (exec_launchCompletion s).trans (execLaunchCompletion_of_no_counter hs hl hr hp hv ht he hd)
  · exact (exec_launchCompletion s).trans (execLaunchCompletion_of_running hs hl hr hp hv ht he hd)
  · exact (exec_launchCompletion s).trans (execLaunchCompletion_of_released hs hl hr hp hv ht he hw)

end Sys2Proof
end

section
/-! SUPPORT. Class A words on copy queues and decode tables (R297-R305, R311): each acts once, with the operands of the
lowest live lane of P. -/
namespace Sys2Proof.Machine

-- addresses

/-- Team memory is granted up to its size (R221). -/
theorem granted_sh_iff (s : State) (t : Team) (tid a n : Nat) :
    s.granted t tid .sh (a : Int) n = true ↔ a + n ≤ t.shared := by
  simp only [State.granted, Bool.and_eq_true, decide_eq_true_eq]
  omega

theorem toNat_setWidth64 (a : W32) : (a.setWidth 64).toNat = a.toNat :=
  BitVec.toNat_setWidth_of_le (by decide)

theorem setWidth64_umod_eight {a : W32} (h : a.toNat % 8 = 0) : a.setWidth 64 % 8 = 0 :=
  BitVec.eq_of_toNat_eq (by rw [BitVec.toNat_umod, toNat_setWidth64]; exact h)

-- the words

variable {i : Instr} {h : Hdr} {x : Eng} {s : State} {u : Bun} {t : Team} {j : Nat} {js : List Nat}

/-- `bclose` names its stamp's address to read, and no register to write (R298). -/
theorem registersWritten_bclose (h : Hdr) (x : Eng) (l : Lane) : registersWritten (.bclose h x) l = [] := by
  have huses : regUses (.bclose h x) =
      (if stsOf x == 0 then [] else [useN x.a (if stsOf x == 3 then 2 else 1) true]) ++ [] ++ [] := rfl
  have hreads : ((regUses (.bclose h x)).filter fun r => !r.read) = [] := by
    rw [huses, List.append_nil, List.append_nil]
    split <;> rfl
  exact congrArg (List.map fun r : RegUse => (r.first, r.count)) hreads

/-- A word that acts once and names no register to write has the effect its meaning gives. -/
theorem actsOnce_of_onceWord {f : Bun → Team → Nat → Lane → State → Effect} {can : State → Bun → Team → Lane → Prop}
    {done : State → Bun → Team → Nat → Lane → State} (he : ∀ s, exec i s = s.onceWord i h f)
    (hd : ∀ l, registersWritten i l = [])
    (hf : ∀ s u t j, s.team? u.team = some t → can s u t (s.lane u j) →
      f u t j (s.lane u j) s = .done (done s u t j (s.lane u j)) []) : ActsOnce i h can done :=
  fun s u t j _ hr hp ht hc => (he s).trans (onceWord_done_noRegs hr hp ht (hf s u t j ht hc) hd)

-- closing a batch

section Close

theorem bclose_plain : ActsOnce (.bclose h x) h
    (fun _ _ t _ => x.opx.toNat % 4 = 0 ∧ (t.queue x.cq.toNat).outstanding < 16)
    (fun s u _ _ _ => (s.raiseLines u.team .sh []).closeBatch u.team x.cq.toNat none) := by
  refine actsOnce_of_onceWord (exec_bclose h x) (registersWritten_bclose h x) fun s u t j _ ⟨hsts, hout⟩ => ?_
  simp only [hsts, decide_eq_false (Nat.not_le.mpr hout)]
  rfl

theorem bclose_shared : ActsOnce (.bclose h x) h
    (fun _ _ t l => let a := (l.reg x.a.toNat).toNat
      x.opx.toNat % 4 = 1 ∧ a % 8 = 0 ∧ a + 8 ≤ t.shared ∧ (t.queue x.cq.toNat).outstanding < 16 ∧
      t.local_.full (linesOf a 8) = false)
    (fun s u _ _ l => let a := (l.reg x.a.toNat).toNat
      (s.raiseLines u.team .sh (linesOf a 8)).closeBatch u.team x.cq.toNat (some
        { kind := 1, addr := a, scope := x.scope, tid := l.tid, group := u.group, pc := u.pc, wait := none })) := by
  refine actsOnce_of_onceWord (exec_bclose h x) (registersWritten_bclose h x)
    fun s u t j _ ⟨hsts, ha, hg, hout, hfull⟩ => ?_
  have hfull' : (s.localOf t .sh).full (linesOf ((s.lane u j).reg x.a.toNat).toNat 8) = false := hfull
  simp only [hsts, setWidth64_umod_eight ha, toNat_setWidth64, (granted_sh_iff s t (s.lane u j).tid _ 8).mpr hg,
    Nat.not_le.mpr hout, hfull', Nat.reduceEqDiff, Nat.reduceBNe, bne_self_eq_false, Bool.not_true, if_true, if_false,
    decide_false, Bool.or_self, Bool.and_false, Bool.false_eq_true, or_false]

theorem bclose_scratch : ActsOnce (.bclose h x) h
    (fun s _ t l => let a := (l.reg x.a.toNat).toNat
      x.opx.toNat % 4 = 2 ∧ a % 8 = 0 ∧ s.granted t l.tid .sc a 8 = true ∧ (t.queue x.cq.toNat).outstanding < 16 ∧
      (s.localOf t .sc).full (linesOf a 8) = false)
    (fun s u _ _ l => let a := (l.reg x.a.toNat).toNat
      (s.raiseLines u.team .sc (linesOf a 8)).closeBatch u.team x.cq.toNat (some
        { kind := 2, addr := a, scope := x.scope, tid := l.tid, group := u.group, pc := u.pc, wait := none })) := by
  refine actsOnce_of_onceWord (exec_bclose h x) (registersWritten_bclose h x)
    fun s u t j _ ⟨hsts, ha, hg, hout, hfull⟩ => ?_
  simp only [hsts, setWidth64_umod_eight ha, toNat_setWidth64, hg, Nat.not_le.mpr hout, hfull, Nat.reduceEqDiff,
    Nat.reduceBNe, bne_self_eq_false, Bool.not_true, if_true, if_false, decide_false,
    Bool.or_self, Bool.and_false, Bool.false_eq_true, or_true]

theorem bclose_main : ActsOnce (.bclose h x) h
    (fun _ _ t l => let a := l.pair x.a.toNat
      x.opx.toNat % 4 = 3 ∧ a % 8 = 0 ∧ a.toNat < 2 ^ 56 ∧ (t.queue x.cq.toNat).outstanding < 16)
    (fun s u _ _ l => (s.raiseLines u.team .sh []).closeBatch u.team x.cq.toNat (some
      { kind := 3, addr := (l.pair x.a.toNat).toNat, scope := x.scope, tid := l.tid, group := u.group, pc := u.pc,
        wait := none })) := by
  refine actsOnce_of_onceWord (exec_bclose h x) (registersWritten_bclose h x)
    fun s u t j _ ⟨hsts, ha, hlt, hout⟩ => ?_
  have hnone : (s.localOf t .sh).full [] = false := rfl
  simp only [hsts, ha, Nat.not_le.mpr hlt, Nat.not_le.mpr hout, hnone, Nat.reduceEqDiff,
    Nat.reduceBNe, bne_self_eq_false, if_true, if_false, decide_false, Bool.or_self, Bool.and_false,
    Bool.false_eq_true, or_self]

end Close

-- waiting for batches

/-- A word that acts once and raises a trap in live lanes of P. -/
theorem onceWord_trap {f : Bun → Team → Nat → Lane → State → Effect} {s' : State} {tr : TrapInfo} (hr : Ready s i h u)
    (hp : u.plive = j :: js) (ht : s.team? u.team = some t)
    (hf : f u t j (s.lane u j) s = .trap s' (trapAll u.plive tr)) :
    s.onceWord i h f = .next (s'.trapLanes u (trapAll u.plive tr)) := by
  obtain ⟨g, -, hbun⟩ := bun?_spec hr.2.1
  have hj : j ∈ u.plive := hp ▸ List.mem_cons_self
  unfold State.onceWord
  refine runWord_trapAll hr ?_ ⟨j, hj, ((hbun.plive j).mp hj).1⟩
  rw [hp] at hf ⊢
  simp only [ht, hf]

section Wait

variable {s' : State} {t' : Team} {n left found : Nat}

/-- CT of the live lanes of P raised to the time of a queue (R300). -/
def State.raiseCt (s : State) (u : Bun) (q : CopyQueue) : State :=
  s.mapLanes u u.plive fun _ l => { l with ct := if l.ct < q.time then q.time else l.ct }

theorem waitBatches_of_lt (ht : s.team? u.team = some t) (hlt : left < (t.queue n).outstanding) :
    s.waitBatches u n left found = .hold s := by
  simp only [State.waitBatches, ht, hlt, if_true]

theorem waitBatches_of_no_fault (ht : s.team? u.team = some t) (hle : (t.queue n).outstanding ≤ left)
    (hf : (t.queue n).toDeliver found = none) :
    s.waitBatches u n left found = .done (s.raiseCt u (t.queue n)) [] := by
  simp only [State.waitBatches, ht, Nat.not_lt.mpr hle, if_false, hf]
  rfl

theorem waitBatches_of_fault {b : Batch} {f : BatchFault} (ht : s.team? u.team = some t)
    (hle : (t.queue n).outstanding ≤ left) (hf : (t.queue n).toDeliver found = some (b, f)) :
    s.waitBatches u n left found = .trap ((s.raiseCt u (t.queue n)).updQueue u.team n fun q => q.delivered b.seq)
      (trapAll u.plive (reportedTrap n b f)) := by
  simp only [State.waitBatches, ht, Nat.not_lt.mpr hle, if_false, hf]
  rfl

/-- A word that waits for batches, at close `found`, from the state `s'` that has the close (R300): it is held, has its
effect, or delivers a fault. -/
def Waits (i : Instr) (h : Hdr) (n left : Nat) (s : State) (u : Bun) (s' : State) (found : Nat) : Prop :=
  ∀ t, s'.team? u.team = some t →
    (left < (t.queue n).outstanding → exec i s = .next s') ∧
    ((t.queue n).outstanding ≤ left → (t.queue n).toDeliver found = none →
      exec i s = .next (s.afterWord (s'.raiseCt u (t.queue n)) i u [] h.sw)) ∧
    (∀ b e, (t.queue n).outstanding ≤ left → (t.queue n).toDeliver found = some (b, e) →
      exec i s = .next (((s'.raiseCt u (t.queue n)).updQueue u.team n fun q => q.delivered b.seq).trapLanes u
        (trapAll u.plive (reportedTrap n b e))))

theorem waits_of_onceWord {f : Bun → Team → Nat → Lane → State → Effect} (he : exec i s = s.onceWord i h f)
    (hr : Ready s i h u) (hp : u.plive = j :: js) (ht : s.team? u.team = some t) (hd : ∀ l, registersWritten i l = [])
    (hf : f u t j (s.lane u j) s = s'.waitBatches u n left found) : Waits i h n left s u s' found := by
  intro t' ht'
  rw [he]
  exact ⟨fun hlt => onceWord_hold hr hp ht (hf.trans (waitBatches_of_lt ht' hlt)),
    fun hle hn => onceWord_done_noRegs hr hp ht (hf.trans (waitBatches_of_no_fault ht' hle hn)) hd,
    fun _ _ hle hs => onceWord_trap hr hp ht (hf.trans (waitBatches_of_fault ht' hle hs))⟩

variable (hr : Ready s (.waitb h x) h u) (hp : u.plive = j :: js) (ht : s.team? u.team = some t)
include hr hp ht

/-- The close that `waitb` waits for has been found before. -/
theorem waitb_of_found {w : W64} (hw : s.progress u = some w) :
    Waits (.waitb h x) h x.cq.toNat (x.opx.toNat % 16) s u s w.toNat :=
  waits_of_onceWord (exec_waitb h x s) hr hp ht (fun _ => rfl) (by simp only [hw])

/-- With nothing in the open batch `waitb` finds the last close. -/
theorem waitb_of_empty (hw : s.progress u = none) (hc : (t.queue x.cq.toNat).open_.count = 0) :
    Waits (.waitb h x) h x.cq.toNat (x.opx.toNat % 16) s u
      (s.setProgress u (BitVec.ofNat 64 (t.queue x.cq.toNat).seq)) (t.queue x.cq.toNat).seq :=
  waits_of_onceWord (exec_waitb h x s) hr hp ht (fun _ => rfl) (by simp only [hw, hc, if_true])

theorem waitb_of_room (hw : s.progress u = none) (hc : (t.queue x.cq.toNat).open_.count ≠ 0)
    (hlt : (t.queue x.cq.toNat).outstanding < 16) :
    Waits (.waitb h x) h x.cq.toNat (x.opx.toNat % 16) s u
      ((s.closeBatch u.team x.cq.toNat none).setProgress u (BitVec.ofNat 64 ((t.queue x.cq.toNat).seq + 1)))
      ((t.queue x.cq.toNat).seq + 1) :=
  waits_of_onceWord (exec_waitb h x s) hr hp ht (fun _ => rfl)
    (by simp only [hw, hc, Nat.not_le.mpr hlt, if_false])

theorem waitb_of_no_room (hw : s.progress u = none) (hc : (t.queue x.cq.toNat).open_.count ≠ 0)
    (hle : 16 ≤ (t.queue x.cq.toNat).outstanding) : exec (.waitb h x) s = .next s :=
  (exec_waitb h x s).trans (onceWord_hold hr hp ht (by simp only [hw, hc, hle, if_false, if_true]))

end Wait

-- status, fences and decodes

theorem qfence_acts : ActsOnce (.qfence h x) h (fun _ _ _ _ => True) (fun s u t _ _ =>
    let m : BitVec 8 := x.opx.setWidth 8
    let ops := ((List.range 8).filter m.getLsbD).flatMap fun k =>
      (t.queue k).open_.ops ++ (t.queue k).closed.flatMap (·.ops)
    s.updTeam u.team fun t => { t with fences := (t.fences.filter fun f => f.2.any s.opPending) ++ [(m, ops)] }) :=
  actsOnce_of_onceWord (exec_qfence h x) (fun _ => rfl) fun _ _ _ _ _ _ => rfl

theorem qstatCq_acts : ActsOnce (.qstatCq h x) h (fun _ _ _ _ => True) (fun s u t _ _ =>
    s.fresh.2.mapLanes u u.act fun _ l =>
      l.addResult (resultOf s.nextNum u.pc { writes := [(x.d.toNat, (t.queue x.cq.toNat).stat)], flags := 0 })) := by
  intro s u t j js hr hp ht _
  refine (exec_qstatCq h x s).trans (runWord_done_noRegs hr ?_ fun _ => rfl)
  simp only [hp, ht, List.isEmpty_cons, Bool.false_eq_true, if_false]
  rfl

theorem chain_acts : ActsOnce (.chain h x) h
    (fun s u _ l => l.pair x.a.toNat % 64 = 0 ∧ (l.pair x.a.toNat).toNat < 2 ^ 56 ∧
      s.queueRoom u.team x.cq.toNat 1 = true)
    (fun s u _ j l => s.fresh.2.addOp (s.fresh.2.laneOp u j s.nextNum
      (.chain ((l.pair x.a.toNat).setWidth 56) 0 x.scope) (.queue x.cq.toNat) (spaceOf (x.opx.getLsbD 0))
      (s.copyEvp u 0) false none)) := by
  refine actsOnce_of_onceWord (exec_chain h x) (fun _ => rfl) fun s u t j _ ⟨ha, hlt, hroom⟩ => ?_
  simp only [ha, Nat.not_le.mpr hlt, hroom, bne_self_eq_false, decide_false, Bool.or_self, Bool.false_eq_true, if_false,
    Bool.not_true]
  rfl

/-- `dtab` of a table that is granted, present and well-formed (R304). -/
theorem execDtab_of_code {a : Nat} {s' : State} {bs : List Byte} {bad : Option Nat} {c : List CodeSym}
    (hr : Ready s (.dtab h x) h u) (hp : u.plive = j :: js) (ht : s.team? u.team = some t)
    (hreg : ((s.lane u j).reg x.a.toNat).toNat = a) (ha : a % 256 = 0) (hg : a + 256 ≤ t.shared)
    (hl : s.linesPresent u.team ((linesOf a 256).map fun k => (Space.sh, k)) = true)
    (hread : (s.noteRead u .sh [a, a + 128]).unitRead u.team .sh a 256 = (s', bs, bad)) (hc : codeOf bs = some c) :
    execDtab h x s = .next (s.afterWord (s'.updTeam u.team fun t =>
      { t with tables := t.tables.set (x.opx.toNat % 4) (some c) }) (.dtab h x) u [] h.sw) := by
  refine onceWord_done_noRegs hr hp ht ?_ fun _ => rfl
  simp only [hreg, ha, (granted_sh_iff s t (s.lane u j).tid a 256).mpr hg, hl, hread, hc, bne_self_eq_false,
    Bool.not_true, Bool.or_self, Bool.false_eq_true, if_false]

/-- The operation that `decod` issues (R305). -/
def State.decodeOp (s : State) (u : Bun) (j : Nat) (x : Eng) (code : List CodeSym) : EngOp :=
  let l := s.lane u j
  s.fresh.2.laneOp u j s.nextNum
    (.decode (l.reg x.d.toNat).toNat ((l.pair x.a.toNat).setWidth 56) (l.reg x.b.toNat).toNat
      (l.reg (x.b.toNat + 1)).toNat code)
    (.queue x.cq.toNat) (spaceOf (x.opx.getLsbD 2)) (s.copyEvp u 0) false none

/-- A length that `decod` takes (R305). -/
theorem decodeLength_ok {n : Nat} (h : 1 ≤ n ∧ n ≤ 2 ^ 24) : (decide (1 ≤ n) && decide (n ≤ 2 ^ 24)) = true := by
  rw [decide_eq_true h.1, decide_eq_true h.2, Bool.and_self]

/-- `decod` with a loaded table and operands that pass their checks, where its queue and lines have room (R305). -/
theorem execDecod_of_room {code : List CodeSym} (hr : Ready s (.decod h x) h u) (hp : u.plive = j :: js)
    (ht : s.team? u.team = some t) (hcode : t.tables.getD (x.opx.toNat % 4) none = some code)
    (hout : 1 ≤ ((s.lane u j).reg x.b.toNat).toNat ∧ ((s.lane u j).reg x.b.toNat).toNat ≤ 2 ^ 24)
    (hsrc : 1 ≤ ((s.lane u j).reg (x.b.toNat + 1)).toNat ∧ ((s.lane u j).reg (x.b.toNat + 1)).toNat ≤ 2 ^ 24)
    (hd : ((s.lane u j).reg x.d.toNat).toNat % 16 = 0)
    (hg : s.granted t (s.lane u j).tid (spaceOf (x.opx.getLsbD 2)) ((s.lane u j).reg x.d.toNat).toNat
      ((s.lane u j).reg x.b.toNat).toNat = true)
    (ha : ((s.lane u j).pair x.a.toNat).toNat < 2 ^ 56) (hroom : s.queueRoom u.team x.cq.toNat 1 = true)
    (hfull : (s.localOf t (spaceOf (x.opx.getLsbD 2))).full (s.decodeOp u j x code).dstLines = false) :
    execDecod h x s = .next (s.afterWord
      ((s.fresh.2.raiseLines u.team (spaceOf (x.opx.getLsbD 2)) (s.decodeOp u j x code).dstLines).addOp
        (s.decodeOp u j x code)) (.decod h x) u [] h.sw) := by
  refine onceWord_done_noRegs hr hp ht ?_ fun _ => rfl
  have hgo : ¬ ((!s.queueRoom u.team x.cq.toNat 1 ||
      (s.localOf t (spaceOf (x.opx.getLsbD 2))).full (s.decodeOp u j x code).dstLines) = true) := by
    rw [hroom, hfull]
    decide
  simp only [hcode, decodeLength_ok hout, decodeLength_ok hsrc, hd, hg, Nat.not_le.mpr ha, bne_self_eq_false,
    Bool.not_true, Bool.or_self, Bool.false_eq_true, if_false]
  exact if_neg hgo

end Sys2Proof.Machine

namespace Sys2Proof

open Sys2Proof.Machine

/-- Settles O31: each word passes its checks; `waitb` has a close or makes one, and then waits. -/
theorem queueWordsComplete : Obligations.QueueWordsComplete :=
  fun h x =>
    ⟨bclose_plain, bclose_shared, bclose_scratch, bclose_main,
     fun _ _ _ _ _ hr hp ht =>
      ⟨fun _ hw => waitb_of_found hr hp ht hw, fun hw hc => waitb_of_empty hr hp ht hw hc,
       fun hw hc hlt => waitb_of_room hr hp ht hw hc hlt, fun hw hc hle => waitb_of_no_room hr hp ht hw hc hle⟩,
     qfence_acts, qstatCq_acts, chain_acts,
     fun s _ _ _ _ _ _ _ _ hr hp ht ha hg hl hread hc =>
      (exec_dtab h x s).trans (execDtab_of_code hr hp ht rfl ha hg hl hread hc),
     fun s _ _ _ _ _ hr hp ht hcode hout hsrc hd hg ha hroom hfull =>
      (exec_decod h x s).trans (execDecod_of_room hr hp ht hcode hout hsrc hd hg ha hroom hfull)⟩

end Sys2Proof
end

section
/-! SUPPORT. `hlp.on` (R173): which slots it fills, and a state with two teams of one id, where they are the slots that
are empty in the first. -/
namespace Sys2Proof.Machine

-- where ids are unique

theorem modifyAt_congr {α : Type} {l : List α} {n : Nat} {a : α} {f f' : α → α} (hl : l[n]? = some a)
    (hf : f a = f' a) :
    modifyAt l n f = modifyAt l n f' := by
  induction l generalizing n with
  | nil => rfl
  | cons b l ih =>
    cases n with
    | zero =>
      obtain rfl : b = a := by simpa using hl
      simp only [modifyAt, hf]
    | succ n => simp only [modifyAt, ih (show l[n]? = some a by simpa using hl)]

/-- Where no other team has the id, a change of a group is what it does to that one group. -/
theorem updGroup_congr {s : State} {team gi : Nat} {t : Team} {g : Group} {f f' : Group → Group}
    (hsole : ∀ y ∈ s.teams, y.id = team → y = t) (hg : t.groups[gi]? = some g) (hf : f g = f' g) :
    s.updGroup team gi f = s.updGroup team gi f' := by
  have hteams : (s.teams.map fun y => if y.id = team then { y with groups := modifyAt y.groups gi f } else y) =
      s.teams.map fun y => if y.id = team then { y with groups := modifyAt y.groups gi f' } else y := by
    refine List.map_congr_left fun y hy => ?_
    by_cases hid : y.id = team
    · rw [if_pos hid, if_pos hid, hsole y hy hid, modifyAt_congr hg hf]
    · rw [if_neg hid, if_neg hid]
  rw [State.updGroup, State.updGroup, State.updTeam, State.updTeam, hteams]

-- what `hlp.on` does

/-- The lowest lane of P in the quad of a slot (R173). -/
def Bun.modelOf (u : Bun) (j : Nat) : Option Nat := u.act.find? fun k => k / 4 == j / 4

/-- The empty slots of a group in the quads of P (R173). -/
def Bun.openSlots (u : Bun) (g : Group) : List Nat :=
  (List.range 32).filter fun j => (g.lane j).kind == .empty && (u.modelOf j).isSome

/-- A group with helpers in some slots, which join the bundle's entry (R173). -/
def Group.joinHelpers (s : State) (u : Bun) (t : Team) (new : List Nat) (g : Group) : Group :=
  { g.updSlots new (fun j _ => helperFrom t u.group j (g.lane ((u.modelOf j).getD 0)) (s.timeAt u.core)) with
    entries := g.entries.map fun e => if e.mask.getLsbD u.slot then { e with mask := e.mask ||| maskOf new } else e }

variable {s : State} {h : Hdr} {x : Arith} {u : Bun} {t : Team}

/-- The slots that `hlp.on` fills are those empty in the group that `State.group?` finds. -/
theorem execHlpOn_ready {g : Group} (hr : Ready s (.hlpOn h x) h u) (ht : s.team? u.team = some t)
    (hg : s.group? u.team u.group = some g) :
    execHlpOn h x s = .next (s.afterWord
      (s.updGroup u.team u.group (Group.joinHelpers s u t (u.openSlots g))) (.hlpOn h x) u [] h.sw) := by
  refine runWord_done (moved := []) hr ?_ hr.2.2.2
  simp only [ht, hg]
  rw [foldl_wroteRegs _ _ _ _ _ (show (s.updGroup u.team u.group _).regArmed = false from hr.2.2.2)]
  rfl

/-- Where no other team has the bundle's team id, they are the empty slots of the group that is changed: the clause of
`hlp.on` in the statement refuted below. -/
theorem execHlpOn_of_sole_team (hr : Ready s (.hlpOn h x) h u) (ht : s.team? u.team = some t)
    (hsole : ∀ y ∈ s.teams, y.id = u.team → y = t) :
    execHlpOn h x s = .next (s.afterWord
      (s.updGroup u.team u.group fun g => Group.joinHelpers s u t (u.openSlots g) g) (.hlpOn h x) u [] h.sw) := by
  obtain ⟨g, hg, -⟩ := bun?_spec hr.2.1
  have hgs : t.groups[u.group]? = some g := by simpa only [State.group?, ht, Option.bind_some] using hg
  rw [execHlpOn_ready hr ht hg, updGroup_congr (f' := fun g => Group.joinHelpers s u t (u.openSlots g) g) hsole hgs rfl]

-- two teams of one id

/-- A team of one lane that is about to run a word, and after it a team of the same id with a live lane in slot 1
besides. -/
def twinTeams : State :=
  let s := State.reset.placeWord 0
  { s with subject := .bundle { team := 2, group := 0, slot := 0 },
           teams := s.teams ++ s.teams.map fun t => { t with groups := t.groups.map fun g =>
             { g with lanes := g.lanes.set 1 (g.lane 0) } } }

/-- The bundle of the first of the twin teams. -/
def twinBun : Bun :=
  { team := 2, group := 0, slot := 0, core := 0, ctx := 0, priv := true, pc := 0x10000, slots := [0], live := [0],
    act := [0], plive := [0] }

/-- An operand record of `hlp.on`. -/
def hlpOnArgs : Arith :=
  { d := 0, a := 0, b := 0, i := false, ra := false, rb := false, ty := .i8, rm := .rne, fs := false, sub := 1, c := 0 }

/-- What stands in slot 1 of the second team after a step. -/
def twinSlot : Answer → Option SlotKind
  | .next s => (s.teams[1]?.bind fun t => t.groups[0]?).map fun g => (g.lane 1).kind
  | _ => none

theorem ready_twinTeams : Ready twinTeams (.hlpOn plainHdr hlpOnArgs) plainHdr twinBun := by decide +kernel

theorem isSome_team?_twinTeams : (twinTeams.team? 2).isSome = true := by decide +kernel

/-- The first of the twin teams. -/
def twinTeam : Team := (twinTeams.team? 2).get isSome_team?_twinTeams

theorem team?_twinTeams : twinTeams.team? 2 = some twinTeam := (Option.some_get _).symm

/-- The model makes the second team's live lane a helper: the slot is empty in the first team. -/
theorem twinSlot_execHlpOn : twinSlot (execHlpOn plainHdr hlpOnArgs twinTeams) = some .helper := by decide +kernel

/-- Read in each team by itself, the second team's slot 1 is not empty, and its lane stays. -/
theorem twinSlot_joinHelpers : twinSlot (.next (twinTeams.afterWord
    (twinTeams.updGroup 2 0 fun g => Group.joinHelpers twinTeams twinBun twinTeam (twinBun.openSlots g) g)
    (.hlpOn plainHdr hlpOnArgs) twinBun [] false)) = some .live := by
  decide +kernel

end Sys2Proof.Machine

namespace Sys2Proof

open Sys2Proof.Machine

/-- Refutes O26: of a state in which two teams have one id, its clause of `hlp.on` says that the empty slots of each of
them become helpers, where the model fills in both the slots that are empty in the first. (Teams take their ids from
`State.fresh`, but the statement is about every state; where ids are unique, see `execHlpOn_of_sole_team`.) -/
theorem not_teamWordsComplete : ¬ Obligations.TeamWordsComplete := by
  intro hall
  obtain ⟨-, -, -, -, -, hlpOn⟩ := hall plainHdr hlpOnArgs
  have heq := hlpOn twinTeams twinBun twinTeam ready_twinTeams team?_twinTeams
  rw [exec_hlpOn] at heq
  have hslot : some SlotKind.helper = some SlotKind.live :=
    twinSlot_execHlpOn.symm.trans ((congrArg twinSlot heq).trans twinSlot_joinHelpers)
  cases hslot

end Sys2Proof
end

section
/-! SUPPORT. Words across the lanes of a bundle (R169-R180): where a lane's own value comes from, that a tree sum over
live lanes has a value, and a state with two teams of one id, whose lanes in one slot hold different values. -/
namespace Sys2Proof.Machine

/-- A word whose meaning is one change of lanes, in the lanes of P or the live ones of them, completes with it. -/
theorem acts_of_mapLanes {i : Instr} {h : Hdr} {can : State → Bun → Prop} {body : Bun → State → Effect}
    {ss : Bun → List Nat} {f : State → Bun → Nat → Lane → Lane} (he : ∀ s, exec i s = s.runWord i h body)
    (hb : ∀ s u, Ready s i h u → can s u → body u s = .done (s.mapLanes u (ss u) (f s u)) []) :
    Acts i h can fun s u => s.mapLanes u (ss u) (f s u) :=
  fun s u hr hc => (he s).trans (runWord_done hr (hb s u hr hc) hr.2.2.2)

-- values taken from other slots

variable {s : State} {i : Instr} {h : Hdr} {x : Arith} {u : Bun}

/-- The value that the lane in a slot of the bundle holds in A. -/
def State.held (s : State) (u : Bun) (x : Arith) (j : Nat) : W64 := (s.lane u j).src x.ty x.a.toNat

/-- The value of the slot that a lane names, where that slot is in the bundle, and else the value of its own slot (R171,
R174). -/
def State.taken (s : State) (u : Bun) (x : Arith) (j : Nat) : Option Nat → W64
  | some k => if k ∈ u.slots then s.held u x k else s.held u x j
  | none => s.held u x j

/-- What the model takes for a lane that holds what its slot does. -/
theorem given_bind_getD_held (j : Nat) (o : Option Nat) :
    (o.bind (s.given u x)).getD (s.held u x j) = s.taken u x j o := by
  cases o with
  | none => rfl
  | some k =>
    by_cases hk : k ∈ u.slots
    · simp only [Option.bind_some, State.given, State.taken, List.contains_iff_mem, hk, if_true, Option.getD_some]
      rfl
    · simp only [Option.bind_some, State.given, State.taken, List.contains_iff_mem, hk, if_false, Option.getD_none]

/-- Where no lane of the bundle gives a value, each lane keeps to the one it holds itself, in every team of the id. -/
theorem fromSlot_ready (hr : Ready s i h u) (source : Nat → Lane → Option Nat) :
    s.fromSlot i h x source = .next (s.afterWord (s.mapLanes u u.act fun j l =>
      l.dst x.ty x.d.toNat (((source j l).bind (s.given u x)).getD (l.src x.ty x.a.toNat))) i u [] h.sw) := by
  refine runWord_done (moved := []) hr ?_ hr.2.2.2
  refine congrArg (fun f => Effect.done (s.mapLanes u u.act f) []) (funext fun j => funext fun l => ?_)
  dsimp only
  cases (source j l).bind (s.given u x) <;> rfl

/-- No two teams have the id of the bundle's team. -/
def State.SoleTeam (s : State) (u : Bun) : Prop := ∀ y ∈ s.teams, y.id = u.team → s.team? u.team = some y

theorem updSlots_congr {g : Group} {ss : List Nat} {f f' : Nat → Lane → Lane}
    (hf : ∀ j, f j (g.lane j) = f' j (g.lane j)) : g.updSlots ss f = g.updSlots ss f' := by
  have hlanes : (g.lanes.zipIdx.map fun (l, j) => if ss.contains j then f j l else l) =
      g.lanes.zipIdx.map fun (l, j) => if ss.contains j then f' j l else l := by
    refine List.map_congr_left fun ⟨l, j⟩ hl => ?_
    have hj : g.lane j = l := by
      rw [Group.lane, List.getD_eq_getElem?_getD, List.mem_zipIdx_iff_getElem?.mp hl, Option.getD_some]
    simp only [← hj, hf j]
  rw [Group.updSlots, Group.updSlots, hlanes]

/-- Where no other team has the id of the bundle's team, a change of lanes is what it does to the bundle's own. -/
theorem mapLanes_congr_of_sole_team (hb : s.bun? h (BundleOf u) = some u) (hsole : s.SoleTeam u) (ss : List Nat)
    {f f' : Nat → Lane → Lane} (hf : ∀ j, f j (s.lane u j) = f' j (s.lane u j)) :
    s.mapLanes u ss f = s.mapLanes u ss f' := by
  obtain ⟨g, hg, -⟩ := bun?_spec hb
  obtain ⟨t, ht, hgt⟩ := Option.bind_eq_some_iff.mp hg
  have hone : ∀ y ∈ s.teams, y.id = u.team → y = t :=
    fun y hy hid => Option.some.inj ((hsole y hy hid).symm.trans ht)
  refine updGroup_congr hone hgt (updSlots_congr fun j => ?_)
  rw [← lane_of_group? hg j]
  exact hf j

/-- Where ids are unique, a lane's own value is that of its slot in the bundle's team. -/
theorem fromSlot_of_sole_team (hr : Ready s i h u) (hsole : s.SoleTeam u) (source : Nat → Lane → Option Nat) :
    s.fromSlot i h x source = .next (s.afterWord (s.mapLanes u u.act fun j l =>
      l.dst x.ty x.d.toNat (s.taken u x j (source j l))) i u [] h.sw) := by
  rw [fromSlot_ready hr, mapLanes_congr_of_sole_team hr.2.1 hsole]
  intro j
  rw [← given_bind_getD_held]
  rfl

/-- The clause of `shfl` in the statement refuted below, where ids are unique (R174). -/
theorem shfl_of_sole_team (h : Hdr) (x : Arith) : Acts (.shfl h x) h State.SoleTeam fun s u =>
    s.mapLanes u u.act fun j l => l.dst x.ty x.d.toNat (s.taken u x j (shflSource x j l)) :=
  fun s _ hr hsole => (exec_shfl h x s).trans (fromSlot_of_sole_team hr hsole _)

/-- The clause of `qswap` in the statement refuted below, where ids are unique (R171). -/
theorem qswap_of_sole_team (h : Hdr) (x : Arith) : Acts (.qswap h x) h State.SoleTeam fun s u =>
    s.mapLanes u u.act fun j l =>
      l.dst x.ty x.d.toNat (s.taken u x j (some (j / 4 * 4 + (j % 4 ^^^ (x.sub.toNat + 1))))) :=
  fun s _ hr hsole => (exec_qswap h x s).trans (fromSlot_of_sole_team hr hsole _)

-- the tree of `redux.fadd`

section Tree

variable (f : Fmt) (rm : Rm) (ftz : Bool)

theorem isSome_addNode (a b : Option W64) : (addNode f rm ftz a b).1.isSome = (a.isSome || b.isSome) := by
  cases a <;> cases b <;> rfl

/-- A level has a present node where the level below has one (R180). -/
theorem any_isSome_addLevel (l : List (Option W64)) : (addLevel f rm ftz l).1.any Option.isSome = l.any Option.isSome := by
  fun_induction addLevel f rm ftz l with
  | case1 a b rest n r ih =>
    simp only [List.any_cons, isSome_addNode, n, r, ih, Bool.or_assoc]
  | case2 l _ => rfl

/-- A level pairs the nodes of the level below (R180). -/
theorem length_addLevel (l : List (Option W64)) : (addLevel f rm ftz l).1.length = (l.length + 1) / 2 := by
  fun_induction addLevel f rm ftz l with
  | case1 a b rest n r ih =>
    simp only [List.length_cons, r, ih]
    omega
  | case2 l hl =>
    match l with
    | [] | [_] => simp
    | a :: b :: rest => exact (hl a b rest rfl).elim

theorem any_isSome_addTree (n : Nat) (l : List (Option W64)) :
    (addTree f rm ftz n l).1.any Option.isSome = l.any Option.isSome := by
  induction n generalizing l with
  | zero => rfl
  | succ n ih => rw [addTree, ih, any_isSome_addLevel]

theorem length_addTree (n : Nat) (l : List (Option W64)) (hn : l.length = 2 ^ n) :
    (addTree f rm ftz n l).1.length = 1 := by
  induction n generalizing l with
  | zero => exact hn
  | succ n ih =>
    refine ih _ ?_
    rw [length_addLevel, hn]
    omega

end Tree

/-- `redux` has a value to give where a lane takes part (R179, R180). -/
theorem isSome_reduxValue (x : Arith) {vals : List W64} {leaves : List (Option W64)} (hv : vals ≠ [])
    (hl : leaves.length = 32) (hp : leaves.any Option.isSome = true) : (reduxValue x vals leaves).isSome = true := by
  obtain ⟨v, vs, rfl⟩ := List.exists_cons_of_ne_nil hv
  have hroot : ∃ r, (addTree (fmtOf x.ty) x.rm x.fs 5 (leaves.map fun v => v.map ((fmtOf x.ty).flush x.fs))).1 = [some r] := by
    obtain ⟨node, hnode⟩ := List.length_eq_one_iff.mp (length_addTree (fmtOf x.ty) x.rm x.fs 5
      (leaves.map fun v => v.map ((fmtOf x.ty).flush x.fs)) ((List.length_map _).trans hl))
    have hany : ([node].any Option.isSome) = true := by
      rw [← hnode, any_isSome_addTree, List.any_map, ← hp]
      exact congrArg leaves.any (funext fun v => Option.isSome_map)
    obtain ⟨r, rfl⟩ := Option.isSome_iff_exists.mp (by simpa using hany)
    exact ⟨r, hnode⟩
  obtain ⟨r, hr⟩ := hroot
  unfold reduxValue
  split <;> simp [hr]

/-- The leaves of `redux.fadd` (R180). -/
def State.leaves (s : State) (u : Bun) (x : Arith) : List (Option W64) :=
  (List.range 32).map fun j => if u.plive.contains j then some (s.held u x j) else none

/-- A bundle's lanes stand in the 32 slots of its group. -/
theorem lt_of_mem_plive (hb : s.bun? h (BundleOf u) = some u) {j : Nat} (hj : j ∈ u.plive) : j < 32 := by
  simp only [State.bun?, BundleOf] at hb
  split at hb
  · cases hb
  split at hb
  · cases hb
  split at hb
  · cases hb
  split at hb
  · rw [← Option.some.inj hb] at hj
    simp only [List.mem_filter, slotsOf, List.mem_range] at hj
    omega
  · cases hb

/-- A live lane of P gives `redux` a value (R179). -/
theorem isSome_reduxValue_of_lane (hb : s.bun? h (BundleOf u) = some u) (x : Arith) (hp : u.plive ≠ []) :
    (reduxValue x (u.plive.map (s.held u x)) (s.leaves u x)).isSome = true := by
  refine isSome_reduxValue x (fun hn => hp (List.map_eq_nil_iff.mp hn)) ((List.length_map _).trans List.length_range) ?_
  obtain ⟨j, js, hj⟩ := List.exists_cons_of_ne_nil hp
  have hmem : j ∈ u.plive := hj ▸ List.mem_cons_self
  exact List.any_eq_true.mpr ⟨some (s.held u x j), List.mem_map.mpr
    ⟨j, List.mem_range.mpr (lt_of_mem_plive hb hmem), if_pos (List.contains_iff_mem.mpr hmem)⟩, rfl⟩

-- the words

/-- The words whose results are formed of the bundle's values alone, before any lane is changed: their clauses of the
statement refuted below hold of every state that is ready. -/
theorem commonWords_act (h : Hdr) (x : Arith) :
    Acts (.vote h x) h (fun _ _ => True) (fun s u => s.mapLanes u u.act fun _ l =>
      l.setPred x.d.toNat (match x.sub.toNat with
        | 0 => (s.predSlots u x).length == u.plive.length
        | 1 => (s.predSlots u x).length != 0
        | _ => (s.predSlots u x).length == 0 || (s.predSlots u x).length == u.plive.length)) ∧
    Acts (.voteBallot h x) h (fun _ _ => True) (fun s u => s.mapLanes u u.act fun _ l =>
      l.setReg x.d.toNat (maskOf (s.predSlots u x))) ∧
    Acts (.match_ h x) h (fun _ _ => True) (fun s u => s.mapLanes u u.plive fun j l =>
      l.setReg x.d.toNat (maskOf (u.plive.filter fun k => s.held u x k == s.held u x j))) ∧
    Acts (.compact h x) h (fun _ _ => True) (fun s u => s.mapLanes u u.plive fun j l =>
      l.setReg x.d.toNat (BitVec.ofNat 32 (if x.sub = 1 then (s.predSlots u x).length
        else if (s.predSlots u x).contains j then ((s.predSlots u x).filter (· < j)).length
        else (s.predSlots u x).length +
          ((u.plive.filter fun k => !(s.predSlots u x).contains k).filter (· < j)).length))) ∧
    Acts (.redux h x) h (fun _ u => u.plive ≠ []) (fun s u => s.mapLanes u u.act fun _ l =>
      match reduxValue x (u.plive.map (s.held u x)) (s.leaves u x) with
      | some v => l.put { writes := resultRegs x.ty x.d.toNat v.1, flags := v.2 }
      | none => l) ∧
    Acts (.qdd h x) h (fun _ _ => True) (fun s u => s.mapLanes u u.act fun j l =>
      let (p, q) := qddPlaces x.sub.toNat (j % 4)
      match s.given u x (j / 4 * 4 + p), s.given u x (j / 4 * 4 + q) with
      | some a, some b =>
        let r := subF (fmtOf x.ty) x.rm x.fs a b
        l.put { writes := resultRegs x.ty x.d.toNat r.val, flags := r.flags }
      | _, _ => l.put { writes := resultRegs x.ty x.d.toNat 0, flags := 0 }) := by
  refine ⟨acts_of_mapLanes (exec_vote h x) fun _ _ _ _ => rfl, acts_of_mapLanes (exec_voteBallot h x) fun _ _ _ _ => rfl,
    acts_of_mapLanes (exec_match_ h x) fun _ _ _ _ => rfl, acts_of_mapLanes (exec_compact h x) fun _ _ _ _ => rfl,
    ?_, acts_of_mapLanes (exec_qdd h x) fun s u _ _ => ?_⟩
  · refine acts_of_mapLanes (exec_redux h x) fun s u hr hp => ?_
    obtain ⟨v, hv⟩ := Option.isSome_iff_exists.mp (isSome_reduxValue_of_lane hr.2.1 x hp)
    have hheld : s.held u x = fun j => (s.lane u j).src x.ty x.a.toNat := rfl
    simp only [State.leaves, hheld] at hv ⊢
    simp only [hv]
  · refine congrArg (fun f => Effect.done (s.mapLanes u u.act f) []) (funext fun j => funext fun l => ?_)
    dsimp only
    cases s.given u x (j / 4 * 4 + (qddPlaces x.sub.toNat (j % 4)).1) <;>
      cases s.given u x (j / 4 * 4 + (qddPlaces x.sub.toNat (j % 4)).2) <;> rfl

-- two teams of one id

/-- A team of one lane that is about to run a word, and after it a team of the same id whose lane holds 1 in v5, where the
first team's holds 0. -/
def twinValues : State :=
  let s := State.reset.placeWord 0
  { s with subject := .bundle { team := 2, group := 0, slot := 0 },
           teams := s.teams ++ s.teams.map fun t => { t with groups := t.groups.map fun g =>
             { g with lanes := g.lanes.set 0 ((g.lane 0).setReg 5 1) } } }

/-- `qswap.x1.b32 v4, v5`. -/
def qswapArgs : Arith :=
  { d := 4, a := 5, b := 0, i := false, ra := false, rb := false, ty := .b32, rm := .rne, fs := false, sub := 0, c := 0 }

/-- What v4 of the second team's lane holds after a step. -/
def twinV4 : Answer → Option W32
  | .next s => (s.teams[1]?.bind fun t => t.groups[0]?).map fun g => (g.lane 0).reg 4
  | _ => none

theorem ready_twinValues : Ready twinValues (.qswap plainHdr qswapArgs) plainHdr twinBun := by decide +kernel

/-- The partner's slot is not in the bundle, and the model leaves the second team's lane its own value. -/
theorem twinV4_execQswap : twinV4 (execQswap plainHdr qswapArgs twinValues) = some 1 := by decide +kernel

/-- The statement gives it the value that the first team's lane holds. -/
theorem twinV4_taken : twinV4 (.next (twinValues.afterWord
    (twinValues.mapLanes twinBun twinBun.act fun j l =>
      l.dst qswapArgs.ty qswapArgs.d.toNat
        (twinValues.taken twinBun qswapArgs j (some (j / 4 * 4 + (j % 4 ^^^ (qswapArgs.sub.toNat + 1))))))
    (.qswap plainHdr qswapArgs) twinBun [] false)) = some 0 := by
  decide +kernel

end Sys2Proof.Machine

namespace Sys2Proof

open Sys2Proof.Machine

/-- Refutes O25: of a state in which two teams have one id, its clauses of `qswap` and `shfl` say that a lane whose source
is not in the bundle takes the value of its slot in the first team, where the model gives the lane of each team the value
it holds itself. (Teams take their ids from `State.fresh`, but the statement is about every state; where ids are unique,
see `qswap_of_sole_team` and `shfl_of_sole_team`, and for the other words `commonWords_act`.) -/
theorem not_crossLaneWordsComplete : ¬ Obligations.CrossLaneWordsComplete := by
  intro hall
  obtain ⟨-, qswap, -⟩ := hall plainHdr qswapArgs
  have heq := qswap twinValues twinBun ready_twinValues trivial
  rw [exec_qswap] at heq
  have hv4 : some (1 : W32) = some 0 := twinV4_execQswap.symm.trans ((congrArg twinV4 heq).trans twinV4_taken)
  cases hv4

end Sys2Proof
end

section
/-! SUPPORT. Words and events of the matrix unit (R196, R200, R212-R220). Of these words only `qnt` writes registers at
its issue, and it changes lanes alone, so that each word completes wherever its own checks pass. -/
namespace Sys2Proof.Machine

variable {s : State} {i : Instr} {h : Hdr} {u : Bun} {t : Team} {x : Mat}

/-- A word that names no register to write, or whose result comes later, has the effect its meaning gives. -/
theorem acts_of_runWord {can : State → Bun → Prop} {done : State → Bun → State} {body : Bun → State → Effect}
    (he : ∀ s, exec i s = s.runWord i h body) (hd : ∀ l, registersWritten i l = [])
    (hb : ∀ s u, Ready s i h u → can s u → body u s = .done (done s u) []) : Acts i h can done :=
  fun s u hr hc => (he s).trans (runWord_done_noRegs hr (hb s u hr hc) hd)

theorem team?_of_bun? (hb : s.bun? h (BundleOf u) = some u) : ∃ t, s.team? u.team = some t := by
  obtain ⟨g, hg, -⟩ := bun?_spec hb
  obtain ⟨t, ht, -⟩ := Option.bind_eq_some_iff.mp hg
  exact ⟨t, ht⟩

-- mma, mmaq

/-- The live lanes of P may all sign the epoch of a matrix word, and none has (R149, R200): the outlier descriptor that
it names is bound (R211), and no other group and no other address has signed. -/
structure MaySign (s : State) (u : Bun) (t : Team) (quant : Bool) (x : Mat) : Prop where
  od : quant = true → x.oe = true → (t.od x.od.toNat).isSome = true
  lanes : ∀ j ∈ u.plive, (t.cv x.cv.toNat).decl.getLsbD (s.lane u j).tid = true ∧
    (t.cv x.cv.toNat).sgn.getLsbD (s.lane u j).tid = false
  anchor : (t.cv x.cv.toNat).anchor = none ∨ (t.cv x.cv.toNat).anchor = some u.pc
  group : (t.cv x.cv.toNat).group = none ∨ (t.cv x.cv.toNat).group = some u.group

/-- The fragments of the live lanes of P captured, and their signatures (R200). -/
def State.captureAndSign (s : State) (u : Bun) (t : Team) (quant : Bool) (x : Mat) : State :=
  let caps := u.plive.map fun j => captureOf x j (s.lane u j)
  let op : MatOp := match (t.cv x.cv.toNat).op with
    | some m => { m with caps := caps ++ m.caps.filter fun c => !u.plive.contains c.slot }
    | none => { num := s.nextNum, pc := u.pc, quant := quant, word := x, caps := caps }
  let s1 := s.fresh.2.updTeam u.team fun t =>
    { t with cvs := t.cvs.set x.cv.toNat { t.cv x.cv.toNat with op := some op, group := some u.group } }
  let r := s1.signLanes u.team u.group x.cv.toNat u.pc u.plive
  if r.2.isEmpty then r.1 else r.1.settle

/-- A declared lane that has not signed may sign at the anchor. -/
theorem ConvReg.refuses_eq_false {c : ConvReg} {tid : Nat} {pc : VAddr} (hd : c.decl.getLsbD tid = true)
    (hs : c.sgn.getLsbD tid = false) (ha : c.anchor = none ∨ c.anchor = some pc) : c.refuses tid pc = false := by
  rcases ha with ha | ha <;> simp [ConvReg.refuses, hd, hs, ha]

section Signing

variable {quant : Bool} (hm : MaySign s u t quant x)
include hm

theorem MaySign.none_signed : (u.plive.filter fun j => (t.cv x.cv.toNat).sgn.getLsbD (s.lane u j).tid) = [] :=
  List.filter_eq_nil_iff.mpr fun j hj => by simp [(hm.lanes j hj).2]

theorem MaySign.all_unsigned :
    (u.plive.filter fun j => !(t.cv x.cv.toNat).sgn.getLsbD (s.lane u j).tid) = u.plive :=
  List.filter_eq_self.mpr fun j hj => by simp [(hm.lanes j hj).2]

theorem MaySign.none_refused : (u.plive.filter fun j => (t.cv x.cv.toNat).refuses (s.lane u j).tid u.pc) = [] :=
  List.filter_eq_nil_iff.mpr fun j hj => by
    simp [ConvReg.refuses_eq_false (hm.lanes j hj).1 (hm.lanes j hj).2 hm.anchor]

theorem MaySign.od_bound : (quant && x.oe && (t.od x.od.toNat).isNone) = false := by
  cases hq : quant
  · rfl
  · cases ho : x.oe
    · rfl
    · rw [Option.isNone_eq_false_iff.mpr (hm.od hq ho)]
      rfl

/-- No lane stays for an epoch, and none traps: all of them capture and sign. -/
theorem matrixWord_of_maySign (hr : Ready s i h u) (hd : ∀ l, registersWritten i l = [])
    (ht : s.team? u.team = some t) (hp : u.plive ≠ []) :
    s.matrixWord i h quant x = .next (s.afterWord (s.captureAndSign u t quant x) i u [] h.sw) := by
  have hne : u.plive.isEmpty = false := List.isEmpty_eq_false_iff.mpr hp
  refine runWord_done_noRegs hr ?_ hd
  rcases hm.group with hg | hg <;>
    simp only [ht, hm.none_signed, hm.all_unsigned, hm.od_bound, hg, bne_self_eq_false, Bool.false_or,
      hm.none_refused, hne, List.isEmpty_nil, Bool.not_true, Bool.false_eq_true, if_false, if_true] <;>
    rfl

end Signing

-- operations on a tile

theorem tzero_acts (h : Hdr) (x : Mat) : Acts (.tzero h x) h (fun _ u => u.act ≠ []) fun s u =>
    s.issueTile u x.d.toNat .zero :=
  acts_of_runWord (exec_tzero h x) (fun _ => rfl) fun _ _ _ ha => if_neg fun hnil => ha (List.isEmpty_iff.mp hnil)

theorem tfill_acts (h : Hdr) (x : Mat) : Acts (.tfill h x) h (fun _ u => u.plive ≠ []) fun s u =>
    s.issueTile u x.d.toNat (.fill x.b.toNat (u.plive.map fun j => (j, (s.lane u j).run x.a.toNat 32))) :=
  acts_of_runWord (exec_tfill h x) (fun _ => rfl) fun _ _ _ hp => if_neg fun hnil => hp (List.isEmpty_iff.mp hnil)

/-- A 128-byte aligned image that lies in team memory is not refused (R214). -/
theorem badImage_eq_false {a : Nat} (ha : a % 128 = 0) (hg : a + 8192 ≤ t.shared) : badImage t a = false := by
  simp [badImage, ha, hg]

/-- The image that a word names lies in the team's memory, and a live lane of P names it (R214). -/
def State.HasImage (s : State) (u : Bun) (x : Mat) : Prop :=
  u.plive ≠ [] ∧ ∀ t, s.team? u.team = some t → s.imageAddr u x % 128 = 0 ∧ s.imageAddr u x + 8192 ≤ t.shared

theorem tld_acts (h : Hdr) (x : Mat) : Acts (.tld h x) h (fun s u => s.HasImage u x) fun s u =>
    s.issueTile u x.d.toNat (.load (s.imageAddr u x)) := by
  refine acts_of_runWord (exec_tld h x) (fun _ => rfl) fun s u hr ⟨hp, himage⟩ => ?_
  obtain ⟨t, ht⟩ := team?_of_bun? hr.2.1
  obtain ⟨ha, hg⟩ := himage t ht
  simp only [ht, List.isEmpty_iff, hp, badImage_eq_false ha hg, Bool.false_eq_true, if_false]

theorem tst_acts (h : Hdr) (x : Mat) : Acts (.tst h x) h
    (fun s u => s.HasImage u x ∧ s.tileWaits u x.d.toNat = [] ∧ ∀ t, s.team? u.team = some t →
      (t.tile x.d.toNat).fault = none ∧ t.local_.full (linesOf (s.imageAddr u x) 8192) = false)
    fun s u => (s.raiseLines u.team .sh (linesOf (s.imageAddr u x) 8192)).issueTile u x.d.toNat
      (.store (s.imageAddr u x)) := by
  refine acts_of_runWord (exec_tst h x) (fun _ => rfl) fun s u hr ⟨⟨hp, himage⟩, hw, hfree⟩ => ?_
  obtain ⟨t, ht⟩ := team?_of_bun? hr.2.1
  obtain ⟨ha, hg⟩ := himage t ht
  obtain ⟨hf, hfull⟩ := hfree t ht
  simp only [ht, List.isEmpty_iff, hp, badImage_eq_false ha hg, hw, hf, hfull, List.isEmpty_nil, Bool.not_true,
    Bool.false_eq_true, if_false]

-- words that join a tile or a descriptor

/-- The result of a joining word, in each lane of P, with the joins that have nothing to wait for formed (R201). -/
def State.joined (s : State) (u : Bun) (need : Need) : State :=
  let r : Result :=
    { num := s.nextNum, pc := u.pc, need := need, writes := [], flags := 0, trap := none, back := false }
  (s.fresh.2.mapLanes u u.act fun _ l => l.addResult r).formJoins u.team

theorem joinWord_of_act (ha : u.act ≠ []) (need : Need) : s.joinWord u need = .done (s.joined u need) [] := by
  simp only [State.joinWord, List.isEmpty_iff, ha, if_false]
  rfl

theorem tmov_acts (h : Hdr) (x : Mat) : Acts (.tmov h x) h (fun _ u => u.act ≠ []) fun s u =>
    s.joined u (.tileHalf x.a.toNat x.b.toNat x.d.toNat (s.tileWaits u x.a.toNat)) :=
  acts_of_runWord (exec_tmov h x) (fun _ => rfl) fun _ _ _ ha => joinWord_of_act ha _

theorem tstat_acts (h : Hdr) (x : Mat) : Acts (.tstat h x) h (fun _ u => u.act ≠ []) fun s u =>
    s.joined u (.tileStat x.a.toNat x.d.toNat (s.tileWaits u x.a.toNat)) :=
  acts_of_runWord (exec_tstat h x) (fun _ => rfl) fun _ _ _ ha => joinWord_of_act ha _

/-- What a join of a descriptor by a bundle waits for (R219). -/
def State.odWaits (s : State) (u : Bun) (n : Nat) : List Nat :=
  match s.team? u.team with
  | some t => t.odJoin n
  | none => []

theorem odWaits_eq (ht : s.team? u.team = some t) (n : Nat) : s.odWaits u n = t.odJoin n := by
  rw [State.odWaits, ht]

theorem olcnt_acts (h : Hdr) (x : Mat) : Acts (.olcnt h x) h
    (fun s u => u.act ≠ [] ∧ ∀ t, s.team? u.team = some t → (t.od x.od.toNat).isSome = true)
    fun s u => s.joined u (.olist x.od.toNat x.d.toNat (s.odWaits u x.od.toNat)) := by
  refine acts_of_runWord (exec_olcnt h x) (fun _ => rfl) fun s u hr ⟨ha, hod⟩ => ?_
  obtain ⟨t, ht⟩ := team?_of_bun? hr.2.1
  simp only [ht, odWaits_eq ht, Option.isNone_eq_false_iff.mpr (hod t ht), Bool.and_false, Bool.false_eq_true, if_false]
  exact joinWord_of_act ha _

-- the quantiser

theorem qnt_acts (h : Hdr) (x : Mat) : Acts (.qnt h x) h (fun _ u => u.act ≠ [] ∧ x.oe = false) fun s u =>
    s.mapLanes u u.act fun j l => l.put (quantLane x j [] l) :=
  acts_of_mapLanes (exec_qnt h x) fun _ _ _ ⟨ha, ho⟩ => by
    simp only [List.isEmpty_iff, ha, ho, Bool.not_false, if_false, if_true]
    rfl

theorem olset_acts (h : Hdr) (x : Mat) : ActsOnce (.olset h x) h
    (fun _ _ t l => t.odJoin x.od.toNat = [] ∧ (t.od x.od.toNat).bind (·.fault) = none ∧
      ∃ o, bindOd (l.reg x.a.toNat) (l.reg (x.a.toNat + 1)) = some o ∧ o.base + 8 * o.cap ≤ t.shared)
    fun s u _ _ l => match bindOd (l.reg x.a.toNat) (l.reg (x.a.toNat + 1)) with
      | some o => s.updTeam u.team fun t => { t with ods := t.ods.set x.od.toNat (some o) }
      | none => s := by
  intro s u t j js hr hp ht ⟨hw, hf, o, ho, hg⟩
  refine (exec_olset h x s).trans (runWord_done_noRegs hr ?_ fun _ => rfl)
  simp only [ht, hp, hw, hf, ho, Nat.not_lt.mpr hg, List.isEmpty_nil, Bool.not_true, Bool.false_eq_true, if_false]

-- the events

/-- An event of the matrix unit, where the operation it looks for is ready (R196). -/
theorem tileEvent_of_ready {team n : Nat} {o : TileOp} {ok : State → Team → TileAct → Bool}
    (hs : s.subject = .unit2 team n) (ho : s.readyTile team n (ok s) = some o) :
    s.tileEvent ok = .next ((s.finishTile team o).runTiles team).settle := by
  simp only [State.tileEvent, hs, ho]

/-- The oldest entries appended to a descriptor are written to its list, and the joins that waited are formed (R217). -/
theorem execQntAppendWrite_of_append {team n : Nat} {a : Append} (hs : s.subject = .unit2 team n)
    (ht : s.team? team = some t) (ha : t.appends.find? (fun a => a.od == n) = some a) :
    execQntAppendWrite s = .next ((((s.land team .sh a.addr a.data (linesOf a.addr a.data.length)).updTeam team fun t =>
      { t with appends := t.appends.filter fun b => b.num != a.num }).formJoins team).settle) := by
  simp only [execQntAppendWrite, hs, ht, Option.bind_some, ha]

end Sys2Proof.Machine

namespace Sys2Proof

open Sys2Proof.Machine

/-- Settles O27: the matrix words sign where all their lanes may, and every other word passes its own checks. -/
theorem matrixWordsComplete : Obligations.MatrixWordsComplete :=
  fun h x =>
    ⟨fun s _ _ hr ht hp hod hl ha hg =>
      (exec_mma h x s).trans (matrixWord_of_maySign ⟨hod, hl, ha, hg⟩ hr (fun _ => rfl) ht hp),
     fun s _ _ hr ht hp hod hl ha hg =>
      (exec_mmaq h x s).trans (matrixWord_of_maySign ⟨hod, hl, ha, hg⟩ hr (fun _ => rfl) ht hp),
     tzero_acts h x, tfill_acts h x, tld_acts h x, tst_acts h x, tmov_acts h x, tstat_acts h x, olcnt_acts h x,
     qnt_acts h x, olset_acts h x⟩

/-- Settles O47: each event finds its operation at the head of the tile's order, or the oldest append. -/
theorem matrixOperationsPerform : Obligations.MatrixOperationsPerform :=
  fun s _ _ hs =>
    ⟨fun _ ho => (exec_matrixOperationPerform s).trans (tileEvent_of_ready hs ho),
     fun _ ho => (exec_tldPerform s).trans (tileEvent_of_ready hs ho),
     fun _ ho => (exec_tstPerform s).trans (tileEvent_of_ready hs ho),
     fun _ _ ht ha => (exec_qntAppendWrite s).trans (execQntAppendWrite_of_append hs ht ha)⟩

end Sys2Proof
end

section
/-! SUPPORT. Words on local memory (R237-R247): where their addresses are granted and aligned, no check of R239 stops
them. None of them writes a register at its issue: a loaded value is a result of variable latency (R69). -/
namespace Sys2Proof.Machine

/-- A word that does nothing but check the addresses of its lanes of P before its effect. -/
theorem acts_of_checked {i : Instr} {h : Hdr} {spc : Space} {n : Nat} {addrs : Lane → List Int}
    {done : State → Bun → State}
    (he : ∀ s, exec i s = s.runWord i h fun u s =>
      s.checked (s.badAddrs u spc n u.act addrs) fun _ => .done (done s u) [])
    (hd : ∀ l, registersWritten i l = []) :
    Acts i h (fun s u => Accessible s u spc n u.act addrs) done :=
  acts_of_runWord he hd fun s u _ hc => by rw [badAddrs_eq_nil hc, checked_nil]

variable (h : Hdr) (x : Loc)

/-- `gath`, whose split form also finds every live lane of P expected by its convergence register (R243). -/
theorem gath_acts : Acts (.gath h x) h
    (fun s u => (x.split = true → s.splitTraps u x = []) ∧
      Accessible s u x.space (widthBytes x.width) u.act fun l => l.elemAddrs x) fun s u =>
    let num := s.nextNum
    let s := s.fresh.2
    let s := s.noteRead u x.space (u.act.flatMap fun j => ((s.lane u j).elemAddrs x).map Int.toNat)
    let s := u.act.foldl (fun s j => s.gatherOne u x num j) s
    if x.split then s.updGroup u.team u.group fun g => g.updEntry u.slot fun e => { e with split := true } else s := by
  refine acts_of_runWord (exec_gath h x) (fun _ => rfl) fun s u _ ⟨hcv, hacc⟩ => ?_
  have hsplit : (if x.split then s.splitTraps u x else []) = [] := by
    cases hx : x.split
    · rfl
    · exact hcv hx
  simp only [hsplit, checked_nil, badAddrs_eq_nil hacc]
  rfl

/-- `scat` in its two forms: element by element, or whole at the port under the lowest live lane of P (R242). -/
theorem scat_acts : Acts (.scat h x) h
    (fun s u => Accessible s u x.space (widthBytes x.width) u.act fun l => l.elemAddrs x) fun s u =>
    if x.split then u.plive.foldl (fun s j => ((s.lane u j).scatterElems x).foldl (fun s (p, data) =>
      s.issueLocal (s.heldFor u j (.store p data))) s) s
    else match u.plive with
      | [] => s
      | j :: _ => s.issueLocal (s.heldFor u j (.scatter (u.plive.flatMap fun k => (s.lane u k).scatterElems x)
          (u.plive.map fun k => (s.lane u k).tid))) := by
  refine acts_of_runWord (exec_scat h x) (fun _ => rfl) fun s u _ hacc => ?_
  simp only [badAddrs_eq_nil hacc, checked_nil]
  cases x.split with
  | true => rfl
  | false => cases u.plive <;> rfl

/-- Aligned addresses in a readable span pass the checks of `mon` (R239). -/
theorem monTraps_eq_nil {s : State} {u : Bun} {spans : List SpanReg}
    (hok : ∀ j ∈ u.act, (s.lane u j).monVa x % 8 = 0 ∧ 0 ≤ (s.lane u j).monVa x ∧
      spanXlate spans ((s.lane u j).monVa x).toNat permRead ≠ none) : s.monTraps u x spans = [] := by
  have passes (bad : Int → Bool) (hb : ∀ j ∈ u.act, bad ((s.lane u j).monVa x) = false) :
      (u.act.filterMap fun j => if bad ((s.lane u j).monVa x)
        then some (j, trapAt 0x11 u.pc 0 (BitVec.ofInt 64 ((s.lane u j).monVa x))) else none) = [] :=
    List.filterMap_eq_nil_iff.mpr fun j hj => if_neg (Bool.eq_false_iff.mp (hb j hj))
  have haligned := passes (fun a => a % 8 != 0) fun j hj => by simp [(hok j hj).1]
  have hreached := passes (fun a => decide (a < 0) || (spanXlate spans a.toNat permRead).isNone) fun j hj => by
    obtain ⟨-, hpos, hspan⟩ := hok j hj
    simp [Int.not_lt.mpr hpos, Option.isSome_iff_ne_none.mpr hspan]
  simp only [State.monTraps, haligned, hreached, List.isEmpty_nil, Bool.not_true, Bool.false_eq_true, if_false]

/-- `mon` of a word of local memory (R247). -/
theorem mon_local_acts : Acts (.mon h x) h (fun s u => x.space ≠ .mm ∧
      Accessible s u x.space 8 u.act fun l => [l.locAddr x false]) fun s u =>
    u.plive.foldl (fun s j => s.arm u j (.word x.space ((s.lane u j).locAddr x false).toNat)) s := by
  refine acts_of_runWord (exec_mon h x) (fun _ => rfl) fun s u _ ⟨hspc, hacc⟩ => ?_
  simp only [hspc, if_false, badAddrs_eq_nil hacc, checked_nil]

/-- `mon` of a line of main memory, by the descriptor of the bundle's context (R247). -/
theorem mon_main_acts : Acts (.mon h x) h (fun s u => x.space = .mm ∧ ∀ j ∈ u.act,
      let a := ((s.desc u.ctx).1.lane u j).monVa x
      a % 8 = 0 ∧ 0 ≤ a ∧ spanXlate (descSpans (s.desc u.ctx).2) a.toNat permRead ≠ none) fun s u =>
    u.plive.foldl (fun t j => t.armMain u x (descSpans (s.desc u.ctx).2) j) (s.desc u.ctx).1 := by
  refine acts_of_runWord (exec_mon h x) (fun _ => rfl) fun s u _ ⟨hspc, hok⟩ => ?_
  simp only [hspc, if_true, monTraps_eq_nil x hok, checked_nil]

end Sys2Proof.Machine

namespace Sys2Proof

open Sys2Proof.Machine

/-- Settles O28: granted and aligned addresses pass the checks of R239, and each word then has its effect. -/
theorem localWordsComplete : Obligations.LocalWordsComplete :=
  fun h x =>
    ⟨acts_of_checked (exec_ld h x) fun _ => rfl,
     acts_of_checked (exec_st h x) fun _ => rfl,
     gath_acts h x, scat_acts h x,
     acts_of_checked (exec_atom h x) fun _ => rfl,
     acts_of_checked (exec_atomc h x) fun _ => rfl,
     acts_of_checked (exec_pchk h x) fun _ => rfl,
     mon_local_acts h x, mon_main_acts h x⟩

end Sys2Proof
end

section
/-! SUPPORT. Copies and far atomics (R250-R258): where the operands of every lane of P pass the checks, each live lane
issues its operation in turn. -/
namespace Sys2Proof.Machine

variable {s t : State} {i : Instr} {h : Hdr} {x : Main} {u : Bun} {tm : Team}

-- checks and issue

/-- Checks that pass in every listed lane leave no lane that fails. -/
theorem failing_eq_nil {slots : List Nat} {checks : List Check}
    (hok : ∀ j ∈ slots, ∀ c ∈ checks, c (s.lane u j) = none) : s.failing u slots checks = [] := by
  induction checks with
  | nil => rfl
  | cons c cs ih =>
    have hnone : (slots.filterMap fun j => (c (s.lane u j)).map fun a => (j, a)) = [] :=
      List.filterMap_eq_nil_iff.mpr fun j hj => by
        rw [hok j hj c List.mem_cons_self, Option.map_none]
    rw [State.failing, hnone]
    exact ih fun j hj c hc => hok j hj c (List.mem_cons_of_mem _ hc)

theorem failIf_of_false {b : Bool} (a : Option W64) (hb : b = false) : failIf b a = none := by
  rw [failIf, hb, if_neg Bool.false_ne_true]

/-- A word that joins no queue waits for no room. -/
theorem eachLane_issue_no_queue {info0 : W64} {checks : List Check} {one : State → Nat → Option State}
    (hp : s.progress u = none) (hc : s.failing u u.act checks = []) :
    s.eachLane u none info0 checks one = s.issueEach u one u.plive := by
  simp only [State.eachLane, hp, hc, State.issueRoom, Option.all_none, if_true]

/-- A word that no line stops issues in every lane. -/
theorem issueEach_some (s : State) (u : Bun) (f : State → Nat → State) (js : List Nat) :
    s.issueEach u (fun s j => some (f s j)) js = .done (js.foldl f s) [] :=
  issueEach_done List.foldlM_pure

-- copies

/-- A lane's operands of a contiguous copy pass its checks (R250, R253). -/
def State.CopyOk (s : State) (t : Team) (x : Main) (l : Lane) : Prop :=
  let main := l.pair x.a.toNat
  let loc := (l.reg x.d.toNat).toNat
  let len := (l.reg x.b.toNat).toNat
  len % 16 = 0 ∧ len ≤ 2 ^ 24 ∧ main % 16 = 0 ∧ loc % 16 = 0 ∧
    (len = 0 ∨ s.granted t l.tid (spaceOf (x.opx.getLsbD 0)) loc len = true) ∧ main.toNat < 2 ^ 56

/-- Bytes of an element of a copy by index list (R254). -/
def elemBytes (x : Main) : Nat := 16 * 2 ^ (x.opx.toNat / 2 % 8)

/-- A lane's operands of a copy by index list pass its checks (R250, R254). -/
def State.ListOk (s : State) (t : Team) (x : Main) (l : Lane) : Prop :=
  let main := l.pair x.a.toNat
  let loc := (l.reg x.d.toNat).toNat
  let list := (l.reg x.b.toNat).toNat
  let count := (l.reg (x.b.toNat + 1)).toNat
  let spc := spaceOf (x.opx.getLsbD 0)
  1 ≤ count ∧ count ≤ 65536 ∧ main % 16 = 0 ∧ loc % 16 = 0 ∧ list % 4 = 0 ∧
    s.granted t l.tid spc loc (elemBytes x * count) = true ∧ s.granted t l.tid spc list (4 * count) = true ∧
    main.toNat < 2 ^ 56

section Copies

variable (hr : Ready s i h u) (hd : ∀ l, registersWritten i l = []) (ht : s.team? u.team = some tm)
  (hp : s.progress u = none) (hroom : s.queueRoom u.team x.cq.toNat u.plive.length = true)
include hr hd ht hp hroom

/-- A contiguous copy whose lanes all pass (R250, R253). -/
theorem copyWord_of_copyOk {mk : Lane → OpKind} (hok : ∀ j ∈ u.act, s.CopyOk tm x (s.lane u j))
    (hissue : u.plive.foldlM (fun s j =>
      s.issueCopy u x j (mk (s.lane u j)) (((s.lane u j).reg x.b.toNat).toNat == 0)) s = some t) :
    s.copyWord i h x (fun l => l.pair x.a.toNat) (fun l => (l.reg x.d.toNat).toNat) mk =
      .next (s.afterWord t i u [] h.sw) := by
  refine runWord_done_noRegs hr ?_ hd
  simp only [ht]
  rw [eachLane_issue hp (failing_eq_nil fun j hj => ?_) hroom, issueEach_done hissue]
  obtain ⟨hlen, hmax, hmain, hloc, hgrant, hva⟩ := hok j hj
  simp only [List.forall_mem_cons]
  refine ⟨failIf_of_false _ (Bool.or_eq_false_iff.mpr
      ⟨bne_eq_false_iff_eq.mpr hlen, decide_eq_false (Nat.not_lt.mpr hmax)⟩),
    failIf_of_false _ (bne_eq_false_iff_eq.mpr hmain), failIf_of_false _ (bne_eq_false_iff_eq.mpr hloc),
    failIf_of_false _ ?_, failIf_of_false _ (decide_eq_false (Nat.not_le.mpr hva)), List.forall_mem_nil _⟩
  rcases hgrant with hzero | hgrant
  · rw [hzero]
    rfl
  · rw [hgrant, Bool.not_true, Bool.and_false]

/-- A copy by index list whose lanes all pass (R250, R254). -/
theorem listWord_of_listOk {mk : Lane → Nat → OpKind} (hok : ∀ j ∈ u.act, s.ListOk tm x (s.lane u j))
    (hissue : u.plive.foldlM (fun s j => s.issueCopy u x j (mk (s.lane u j) (elemBytes x)) false) s = some t) :
    s.listWord i h x (fun l => l.pair x.a.toNat) (fun l => (l.reg x.d.toNat).toNat) mk =
      .next (s.afterWord t i u [] h.sw) := by
  refine runWord_done_noRegs hr ?_ hd
  simp only [ht]
  rw [eachLane_issue hp (failing_eq_nil fun j hj => ?_) hroom]
  · exact issueEach_done hissue
  obtain ⟨hpos, hmax, hmain, hloc, hlist, hgloc, hglist, hva⟩ := hok j hj
  simp only [List.forall_mem_cons]
  exact ⟨failIf_of_false _ (Bool.or_eq_false_iff.mpr
      ⟨beq_eq_false_iff_ne.mpr (Nat.ne_of_gt hpos), decide_eq_false (Nat.not_lt.mpr hmax)⟩),
    failIf_of_false _ (bne_eq_false_iff_eq.mpr hmain), failIf_of_false _ (bne_eq_false_iff_eq.mpr hloc),
    failIf_of_false _ (bne_eq_false_iff_eq.mpr hlist), failIf_of_false _ (congrArg not hgloc),
    failIf_of_false _ (congrArg not hglist), failIf_of_false _ (decide_eq_false (Nat.not_le.mpr hva)),
    List.forall_mem_nil _⟩

end Copies

-- far atomics

/-- A lane's address of a far atomic passes its check (R256). -/
def Lane.FarOk (l : Lane) (x : Main) : Prop :=
  l.pair x.a.toNat % (if x.opx.getLsbD 4 then 8 else 4) = 0 ∧ (l.pair x.a.toNat).toNat < 2 ^ 56

/-- The one check of a far atomic. -/
theorem failing_far_eq_nil (hok : ∀ j ∈ u.act, (s.lane u j).FarOk x) :
    s.failing u u.act [fun l => failIf (l.pair x.a.toNat % (if x.opx.getLsbD 4 then 8 else 4) != 0 ||
      decide (2 ^ 56 ≤ (l.pair x.a.toNat).toNat)) (some (l.pair x.a.toNat))] = [] := by
  refine failing_eq_nil fun j hj => List.forall_mem_singleton.mpr (failIf_of_false _ ?_)
  obtain ⟨hmod, hva⟩ := hok j hj
  exact Bool.or_eq_false_iff.mpr ⟨bne_eq_false_iff_eq.mpr hmod, decide_eq_false (Nat.not_le.mpr hva)⟩

section Far

variable {cas : Bool} (hr : Ready s i h u) (hd : ∀ l, registersWritten i l = []) (hp : s.progress u = none)
  (hok : ∀ j ∈ u.act, (s.lane u j).FarOk x)
include hr hd hp hok

/-- A far atomic that returns the old value: its result has the number that is fresh at the word (R256, R258). -/
theorem farWord_of_farOk : s.farWord i h x cas false = .next (s.afterWord
    (u.plive.foldl (fun s' j => s'.issueFar u x cas (some s.nextNum) j) s.fresh.2) i u [] h.sw) := by
  refine runWord_done_noRegs hr ?_ hd
  simp only [Bool.false_eq_true, if_false]
  rw [eachLane_issue_no_queue (s := s.fresh.2) hp (failing_far_eq_nil hok), issueEach_some]
  rfl

/-- A far atomic without a result is an operation of its queue (R257). -/
theorem farWord_nr_of_farOk (hroom : s.queueRoom u.team x.cq.toNat u.plive.length = true) :
    s.farWord i h x cas true = .next (s.afterWord
      (u.plive.foldl (fun s' j => s'.issueFar u x cas none j) s) i u [] h.sw) := by
  refine runWord_done_noRegs hr ?_ hd
  simp only [if_true]
  rw [eachLane_issue hp (failing_far_eq_nil hok) hroom, issueEach_some]

end Far

end Sys2Proof.Machine

namespace Sys2Proof

open Sys2Proof.Machine

/-- Settles O29: each of the seven words is a copy, a copy by list or a far atomic whose lanes all pass. -/
theorem copyWordsIssue : Obligations.CopyWordsIssue :=
  fun h x s _ _ _ ht hp =>
    ⟨fun hr ⟨hroom, hok⟩ hissue =>
      (exec_cpyin h x s).trans (copyWord_of_copyOk hr (fun _ => rfl) ht hp hroom hok hissue),
     fun hr ⟨hroom, hok⟩ hissue =>
      (exec_cpyout h x s).trans (copyWord_of_copyOk hr (fun _ => rfl) ht hp hroom hok hissue),
     fun hr ⟨hroom, hok⟩ hissue =>
      (exec_cpyg h x s).trans (listWord_of_listOk hr (fun _ => rfl) ht hp hroom hok hissue),
     fun hr ⟨hroom, hok⟩ hissue =>
      (exec_cpys h x s).trans (listWord_of_listOk hr (fun _ => rfl) ht hp hroom hok hissue),
     fun hr hok => (exec_fatom h x s).trans (farWord_of_farOk hr (fun _ => rfl) hp hok),
     fun hr hok hroom => (exec_fatomNr h x s).trans (farWord_nr_of_farOk hr (fun _ => rfl) hp hok hroom),
     fun hr hok => (exec_fcas h x s).trans (farWord_of_farOk hr (fun _ => rfl) hp hok)⟩

end Sys2Proof
end

section
/-! SUPPORT. Reads and writes at the homes of device memory, and the translation of addresses, leave the entries of
every group as they are: a write may flip data bits of a team (R376) and fires monitors of lanes (R247), and changes
nothing else of the teams. So a word that is held in the middle of its issue is found where it stood after such an access (R268). -/
namespace Sys2Proof.Machine

/-- The frontier entries of every group, team by team (R142). -/
def State.frontiers (s : State) : List (Nat × List (List Entry)) :=
  s.teams.map fun t => (t.id, t.groups.map (·.entries))

-- what the entries decide

/-- How far a word has come is kept in its entry. -/
theorem progress_eq_of_frontiers {s t : State} (he : t.frontiers = s.frontiers) (u : Bun) :
    t.progress u = s.progress u := by
  have hrel (s : State) : s.progress u = ((s.frontiers.find? fun p => p.1 == u.team).bind fun p => p.2[u.group]?).bind
      fun es => (es.find? fun e => e.mask.getLsbD u.slot).bind (·.release) := by
    simp only [State.progress, State.group?, State.team?, State.frontiers, List.find?_map, Function.comp_def,
      Option.bind_map, Option.bind_assoc, List.getElem?_map, Group.entryAt]
  rw [hrel, hrel, he]

-- folds

theorem frontiers_foldl {α : Type} {f : State → α → State} (hf : ∀ s a, (f s a).frontiers = s.frontiers) (l : List α)
    (s : State) : (l.foldl f s).frontiers = s.frontiers := by
  induction l generalizing s with
  | nil => rfl
  | cons a l ih => exact (ih _).trans (hf s a)

theorem frontiers_foldl_fst {α β : Type} {f : State × β → α → State × β}
    (hf : ∀ r a, (f r a).1.frontiers = r.1.frontiers) (l : List α) (r : State × β) :
    (l.foldl f r).1.frontiers = r.1.frontiers := by
  induction l generalizing r with
  | nil => rfl
  | cons a l ih => exact (ih _).trans (hf r a)

-- changes of teams

/-- A change of the teams that keeps ids and entries. -/
theorem frontiers_map {s : State} {f : Team → Team} (hf : ∀ t, (f t).id = t.id ∧
    (f t).groups.map (·.entries) = t.groups.map (·.entries)) :
    State.frontiers { s with teams := s.teams.map f } = s.frontiers := by
  simp only [State.frontiers, List.map_map]
  refine List.map_congr_left fun t _ => ?_
  simp only [Function.comp_def, (hf t).1, (hf t).2]

variable (s : State)

@[simp] theorem frontiers_with_mem (m : Memory) : State.frontiers { s with mem := m } = s.frontiers := rfl

@[simp] theorem frontiers_with_priv (p : Priv) : State.frontiers { s with priv := p } = s.frontiers := rfl

@[simp] theorem frontiers_with_ilog (x : IntegrityLog) : State.frontiers { s with ilog := x } = s.frontiers := rfl

@[simp] theorem updStack_frontiers (k : Nat) (f : Stack → Stack) : (s.updStack k f).frontiers = s.frontiers := rfl

@[simp] theorem setFlips_frontiers (kind unit addr : Nat) (bits : List Nat) :
    (s.setFlips kind unit addr bits).frontiers = s.frontiers := rfl

@[simp] theorem updTid_frontiers (team tid : Nat) (f : Lane → Lane) :
    (s.updTid team tid f).frontiers = s.frontiers := by
  refine frontiers_map (s := s) fun t => ?_
  by_cases ht : t.id = team <;> simp [ht]

theorem entries_modify (gs : List Group) (n : Nat) (f : List Lane → List Lane) :
    (gs.modify n fun g => { g with lanes := f g.lanes }).map (·.entries) = gs.map (·.entries) := by
  induction gs generalizing n with
  | nil => simp
  | cons g gs ih => cases n <;> simp [ih]

@[simp] theorem keepCheck_frontiers (k line : Nat) : (s.keepCheck k line).frontiers = s.frontiers := by
  unfold State.keepCheck
  dsimp only
  split <;> rfl

@[simp] theorem flipData_frontiers (kind unit addr d : Nat) :
    (s.flipData kind unit addr d).frontiers = s.frontiers := by
  unfold State.flipData
  dsimp only
  split
  · refine frontiers_map fun t => ?_
    split
    · exact ⟨rfl, entries_modify ..⟩
    · exact ⟨rfl, rfl⟩
  · refine frontiers_map fun t => ?_
    split <;> exact ⟨rfl, rfl⟩
  · rfl
  · refine frontiers_map fun t => ?_
    split <;> exact ⟨rfl, rfl⟩
  · exact frontiers_foldl (fun s c => by simp) _ _
  · split
    · rfl
    · exact keepCheck_frontiers s _ _
  · rfl

@[simp] theorem addFlips_frontiers (kind unit addr : Nat) (bits : List Nat) :
    (s.addFlips kind unit addr bits).frontiers = s.frontiers := by
  refine frontiers_foldl (fun s b => ?_) _ _
  by_cases hb : b < if kind = 6 then 256 else 64
  · rw [if_pos hb, flipData_frontiers]
  · rw [if_neg hb]

-- the arrays

@[simp] theorem sramCheck_frontiers (kind unit ctx addr : Nat) :
    (s.sramCheck kind unit ctx addr).1.frontiers = s.frontiers := by
  unfold State.sramCheck
  dsimp only
  split <;> rfl

@[simp] theorem sramWrite_frontiers (kind unit ctx addr n : Nat) (read : Bool) :
    (s.sramWrite kind unit ctx addr n read).frontiers = s.frontiers := by
  unfold State.sramWrite
  dsimp only
  generalize hc : List.foldl _ s (codewords addr n) = clean
  have hclean : clean.frontiers = s.frontiers := by
    rw [← hc]
    refine frontiers_foldl (fun s a => ?_) _ _
    cases read <;>
      simp only [apply_ite State.frontiers, setFlips_frontiers, sramCheck_frontiers, ite_self,
        if_true, Bool.false_eq_true, if_false]
  split
  · exact hclean
  · split
    · exact hclean
    · exact (addFlips_frontiers ..).trans hclean

@[simp] theorem dramCheck_frontiers (k ctx spa : Nat) : (s.dramCheck k ctx spa).1.frontiers = s.frontiers := by
  unfold State.dramCheck
  dsimp only
  split <;> rfl

@[simp] theorem putPoison_frontiers (k line : Nat) (words : List Nat) :
    (s.putPoison k line words).frontiers = s.frontiers := rfl

@[simp] theorem dropClean_frontiers (k line : Nat) : (s.dropClean k line).frontiers = s.frontiers := by
  unfold State.dropClean
  dsimp only
  split
  · rfl
  · rw [updStack_frontiers, frontiers_foldl fun s j => setFlips_frontiers s _ _ _ _, frontiers_with_mem]

@[simp] theorem directoryError_frontiers (k line ctx : Nat) :
    (s.directoryError k line ctx).1.frontiers = s.frontiers := by
  unfold State.directoryError
  dsimp only
  split
  · simp
  · split <;> simp

@[simp] theorem cacheErrors_frontiers (k line ctx : Nat) : (s.cacheErrors k line ctx).1.frontiers = s.frontiers := by
  refine (frontiers_foldl_fst (fun r j => ?_) _ _).trans (directoryError_frontiers ..)
  split
  · rfl
  · dsimp only
    split
    · simp
    · split <;> simp

@[simp] theorem dramErrors_frontiers (k line ctx : Nat) : (s.dramErrors k line ctx).1.frontiers = s.frontiers := by
  refine frontiers_foldl_fst (fun r j => ?_) _ _
  dsimp only
  split <;> simp

@[simp] theorem storeDram_frontiers (k line : Nat) : (s.storeDram k line).frontiers = s.frontiers := by
  refine frontiers_foldl (fun s j => ?_) _ _
  dsimp only
  split <;> rfl

@[simp] theorem writeBack_frontiers (k line : Nat) : (s.writeBack k line).frontiers = s.frontiers := by
  unfold State.writeBack
  split
  · rfl
  · dsimp only
    split <;> simp

@[simp] theorem vacate_frontiers (k line : Nat) : (s.vacate k line).frontiers = s.frontiers := by
  unfold State.vacate
  dsimp only
  rw [frontiers_foldl fun s j => setFlips_frontiers s _ _ _ _, updStack_frontiers, frontiers_foldl fun s c => by simp]

@[simp] theorem allocLine_frontiers (k line : Nat) : (s.allocLine k line).frontiers = s.frontiers := by
  unfold State.allocLine
  split
  · rfl
  · exact vacate_frontiers ..

@[simp] theorem fireMain_frontiers (k line : Nat) : (s.fireMain k line).frontiers = s.frontiers := by
  unfold State.fireMain
  dsimp only
  split
  · rfl
  · exact frontiers_foldl (fun s w => updTid_frontiers s _ _ _) _ _

@[simp] theorem dropUnitLine_frontiers (k line : Nat) : (s.dropUnitLine k line).frontiers = s.frontiers := rfl

-- homes

@[simp] theorem lineStore_frontiers (k spa : Nat) (data : List Byte) (who : Writer) (ia ctx : Nat) (evp : BitVec 2)
    (poison : Bool) (bad : List Nat) (at_ : Option W64) :
    (s.lineStore k spa data who ia ctx evp poison bad at_).frontiers = s.frontiers := by
  unfold State.lineStore
  dsimp only
  rw [fireMain_frontiers]
  split <;> simp

@[simp] theorem hostWrote_frontiers : s.hostWrote.frontiers = s.frontiers := rfl

@[simp] theorem recall_frontiers (k line : Nat) : (s.recall k line).frontiers = s.frontiers := by
  unfold State.recall
  split
  · rfl
  · dsimp only
    split <;> simp

@[simp] theorem hostPut_frontiers (a : Nat) (data : List Byte) : (s.hostPut a data).frontiers = s.frontiers := rfl

@[simp] theorem integrity_frontiers (agent kind line inc port : Nat) :
    (s.integrity agent kind line inc port).frontiers = s.frontiers := by
  unfold State.integrity
  dsimp only
  split <;> simp only [frontiers_with_ilog, hostPut_frontiers]

@[simp] theorem lineErrors_frontiers (k line ctx ia : Nat) (exits hops : Bool) :
    (s.lineErrors k line ctx ia exits hops).1.frontiers = s.frontiers := by
  unfold State.lineErrors
  simp only [apply_ite Prod.fst, apply_ite State.frontiers, updStack_frontiers, integrity_frontiers, recall_frontiers,
    cacheErrors_frontiers, dramErrors_frontiers, ite_self]

@[simp] theorem fill_frontiers (k line ctx : Nat) (evp : BitVec 2) :
    (s.fill k line ctx evp).frontiers = s.frontiers := by
  unfold State.fill
  dsimp only
  split <;> simp

@[simp] theorem devRead_frontiers (k spa n ctx ia : Nat) (exits : Bool) (evp : Option (BitVec 2)) (hops : Bool) :
    (s.devRead k spa n ctx ia exits evp hops).1.frontiers = s.frontiers := by
  refine frontiers_foldl_fst (fun r p => ?_) _ _
  dsimp only
  cases evp with
  | none => simp
  | some v =>
    dsimp only
    split <;> simp

-- translation

@[simp] theorem tableWord_frontiers (k spa : Nat) : (s.tableWord k spa).1.frontiers = s.frontiers := by
  simp [State.tableWord]

@[simp] theorem entryAt_frontiers (k level ia table : Nat) :
    (s.entryAt k level ia table).1.frontiers = s.frontiers := by
  unfold State.entryAt
  split
  · rfl
  · exact tableWord_frontiers ..

@[simp] theorem keepWalk_frontiers (k level ia : Nat) (e : W64) :
    (s.keepWalk k level ia e).frontiers = s.frontiers := rfl

@[simp] theorem walkFrom_frontiers (k ia fuel level table : Nat) :
    (s.walkFrom k ia fuel level table).1.frontiers = s.frontiers := by
  induction fuel generalizing s level table with
  | zero => rfl
  | succ fuel ih =>
    unfold State.walkFrom
    dsimp only
    split
    · simp
    · split
      · simp
      · split
        · simp
        · simp [ih]

@[simp] theorem codeFrames_frontiers (k : Nat) (e : W64) (big : Bool) :
    (s.codeFrames k e big).frontiers = s.frontiers := by
  unfold State.codeFrames
  dsimp only
  split <;> rfl

@[simp] theorem mapFrame_frontiers (k f page : Nat) : (s.mapFrame k f page).frontiers = s.frontiers := rfl

@[simp] theorem mapFrames_frontiers (k ia : Nat) (e : W64) (big : Bool) :
    (s.mapFrames k ia e big).frontiers = s.frontiers := by
  unfold State.mapFrames
  dsimp only
  split
  · exact frontiers_foldl (fun s p => mapFrame_frontiers s _ _ _) _ _
  · rfl

@[simp] theorem findLeaf_frontiers (k ia : Nat) : (s.findLeaf k ia).1.frontiers = s.frontiers := by
  have hwalk := walkFrom_frontiers s k ia 4 0 ((s.stack k).root.toNat % 2 ^ 36)
  unfold State.findLeaf
  split
  · rfl
  · split
    · next hw =>
      rw [hw] at hwalk
      dsimp only
      split <;> simpa using hwalk
    · next hw =>
      rw [hw] at hwalk
      exact hwalk
    · exact hwalk

@[simp] theorem dropNarrow_frontiers (k ia : Nat) (p : Perm) : (s.dropNarrow k ia p).frontiers = s.frontiers := by
  unfold State.dropNarrow
  split
  · split <;> rfl
  · rfl

@[simp] theorem xlateIA_frontiers (ia : Nat) (p : Perm) : (s.xlateIA ia p).1.frontiers = s.frontiers := by
  unfold State.xlateIA
  split
  · rfl
  · next k _ =>
    have hleaf := (findLeaf_frontiers (s.dropNarrow k ia p) k ia).trans (dropNarrow_frontiers ..)
    split
    · next hf =>
      rw [hf] at hleaf
      split
      · exact hleaf
      · split <;> exact hleaf
    · next hf =>
      rw [hf] at hleaf
      exact hleaf

/-- Looking up a context's descriptor leaves the entries as they are. -/
@[simp] theorem desc_frontiers (c : Nat) : (s.desc c).1.frontiers = s.frontiers := by
  unfold State.desc
  split
  · rfl
  · have hx := xlateIA_frontiers s (s.priv.ctxbase.toNat + 256 * c) permRead
    split
    · next hf =>
      rw [hf] at hx
      dsimp only
      split
      · dsimp only
        split <;> simpa using hx
      · exact hx
    · next hf =>
      rw [hf] at hx
      exact hx

end Sys2Proof.Machine
end

section
/-! SUPPORT. Fences, publications, hints and `mcast` (R255, R259-R261, R267, R268). -/
namespace Sys2Proof.Machine

variable {s s' : State} {h : Hdr} {x : Main} {u : Bun} {w : W64} {scope : Scope}

-- releases

/-- A release that is over lets its word go on (R268). -/
theorem releaseThen_of_over (hw : s.progress u = some w) (hle : w ≤ s.timeAt u.core) (k : State → Effect) :
    s.releaseThen u scope k = k s := by
  simp only [State.releaseThen, hw, hle, if_true]

/-- A release that begins, with its tick known (R268). -/
theorem releaseThen_of_begin (hw : s.progress u = none) (hb : s.releaseBegin u scope = some (s', w))
    (k : State → Effect) :
    s.releaseThen u scope k = if w ≤ s'.timeAt u.core then k s' else .hold (s'.setProgress u w) := by
  simp only [State.releaseThen, hw, hb]

-- fence

/-- A `fence` that does not release in any live lane, or only in the lane's own order, just acquires (R259). -/
theorem fence_acts_of_no_release (h : Hdr) (x : Main) : Acts (.fence h x) h
    (fun _ u => u.plive = [] ∨ x.scope = .lane ∨ x.opx.getLsbD 0 = false) fun s u => s.acquire u x :=
  acts_of_runWord (exec_fence h x) (fun _ => rfl) fun s u _ hc => if_pos (by
    rcases hc with hp | hs | hx
    · simp [hp]
    · simp [hs]
    · simp only [hx, Bool.not_false, Bool.or_true])

/-- A `fence` releases where a live lane of P has a release beyond its own order (R259). -/
theorem fence_releases (hp : u.plive ≠ []) (hs : x.scope ≠ .lane) (hx : x.opx.getLsbD 0 = true) :
    ¬ (u.plive.isEmpty || decide (x.scope = .lane) || !x.opx.getLsbD 0) = true := by
  rw [List.isEmpty_eq_false_iff.mpr hp, decide_eq_false hs, hx]
  decide

/-- A releasing `fence` whose release is over. -/
theorem fence_acts_of_over (h : Hdr) (x : Main) : Acts (.fence h x) h
    (fun s u => u.plive ≠ [] ∧ x.scope ≠ .lane ∧ x.opx.getLsbD 0 = true ∧
      ∃ w, s.progress u = some w ∧ w ≤ s.timeAt u.core)
    fun s u => (s.mapLanes u u.plive fun _ l => { l with ct := 0 }).acquire u x :=
  acts_of_runWord (exec_fence h x) (fun _ => rfl) fun _ _ _ ⟨hp, hs, hx, _, hw, hle⟩ =>
    (if_neg (fence_releases hp hs hx)).trans (releaseThen_of_over hw hle _)

/-- A `fence` whose release begins: it is held until the tick of the release, unless that has come (R268). -/
theorem execFence_of_begin (hr : Ready s (.fence h x) h u) (hp : u.plive ≠ []) (hs : x.scope ≠ .lane)
    (hx : x.opx.getLsbD 0 = true) (hw : s.progress u = none) (hb : s.releaseBegin u x.scope = some (s', w)) :
    execFence h x s = .next (if w ≤ s'.timeAt u.core
      then s.afterWord ((s'.mapLanes u u.plive fun _ l => { l with ct := 0 }).acquire u x) (.fence h x) u [] h.sw
      else s'.setProgress u w) := by
  split
  · next hle =>
    exact runWord_done_noRegs hr ((if_neg (fence_releases hp hs hx)).trans
      ((releaseThen_of_begin hw hb _).trans (if_pos hle))) fun _ => rfl
  · next hle =>
    exact runWord_hold hr ((if_neg (fence_releases hp hs hx)).trans
      ((releaseThen_of_begin hw hb _).trans (if_neg hle)))

-- publ

/-- A `publ` whose release is over: its operands passed their checks before the release began (R260, R268). -/
theorem publ_acts_of_over (h : Hdr) (x : Main) : Acts (.publ h x) h
    (fun s u => u.plive ≠ [] ∧ ∃ w, s.progress u = some w ∧ w ≤ (s.desc u.ctx).1.timeAt u.core)
    fun s u => u.plive.foldl (fun s' j =>
      (lineVas ((s'.lane u j).pair x.a.toNat).toNat ((s'.lane u j).reg x.b.toNat).toNat).foldl (fun s' a =>
        match codeXlate (descSpans (s.desc u.ctx).2) a with
        | some ia => s'.publishIA ia x.scope (placeOf x.scope u)
        | none => s') s') (s.desc u.ctx).1 := by
  refine acts_of_runWord (exec_publ h x) (fun _ => rfl) fun s u _ ⟨hp, w, hw, hle⟩ => ?_
  have hw' : (s.desc u.ctx).1.progress u = some w := (progress_eq_of_frontiers (desc_frontiers s _) u).trans hw
  simp only [hw', Option.isSome_some, if_true, List.isEmpty_nil, Bool.not_true, Bool.false_eq_true, if_false,
    List.isEmpty_eq_false_iff.mpr hp]
  exact releaseThen_of_over hw' hle _

-- mhint

/-- `mhint` in each live lane of P (R261). -/
theorem mhint_acts (h : Hdr) (x : Main) : Acts (.mhint h x) h (fun _ _ => True) fun s u =>
    u.plive.foldl (fun s' j =>
      let drops : Bool := x.opx.toNat % 4 == 2
      let a := ((s'.lane u j).pair x.a.toNat).toNat
      let n := ((s'.lane u j).reg x.b.toNat).toNat
      if 2 ^ 24 < n then s' else
      let whole (b : Nat) : Bool := decide (a ≤ b) && decide (b + 128 ≤ a + n)
      let t := ((lineVas a n).filter fun b => !drops || whole b).foldl
        (fun t b => t.hintLine x u.ctx (descSpans (s.desc u.ctx).2) b) s'
      if drops then
        t.mapLanes u [j] fun _ l => { l with ct := if l.ct < t.timeAt u.core then t.timeAt u.core else l.ct }
      else t) (s.desc u.ctx).1 := by
  refine acts_of_runWord (exec_mhint h x) (fun _ => rfl) fun s u _ _ => ?_
  refine congrArg (fun f => Effect.done (u.plive.foldl f (s.desc u.ctx).1) []) (funext fun t => funext fun j => ?_)
  cases hd : x.opx.toNat % 4 == 2 <;> simp only [bne, hd] <;> rfl

-- mcast

/-- The operation that `mcast` issues with the operands of a lane (R255). -/
def State.mcastOp (s : State) (u : Bun) (x : Main) (t : Team) (j : Nat) (l : Lane) : EngOp :=
  let o := s.fresh.2.laneOp u j s.nextNum (.mcast (l.reg x.d.toNat).toNat ((l.pair x.a.toNat).setWidth 56)
    (l.reg x.b.toNat).toNat (x.opx.toNat % 32 + 1) (match t.queues[x.cq.toNat]? with | some y => y.mcasts | none => 0)
    t.index) (.queue x.cq.toNat) .sh (s.copyEvp u x.evp) x.lu (if x.ls then some (x.opx.toNat / 256) else none)
  { o with gang := t.gang }

/-- A lane's operands of `mcast` pass its checks (R255). -/
def State.McastOk (s : State) (t : Team) (x : Main) (l : Lane) : Prop :=
  let n := x.opx.toNat % 32 + 1
  let d := (l.reg x.d.toNat).toNat
  let len := (l.reg x.b.toNat).toNat
  t.index < n ∧ (∃ g, s.gang? t.gang = some g ∧ n ≤ g.size) ∧ len % (128 * n) = 0 ∧ len ≠ 0 ∧ len ≤ 2 ^ 24 ∧
    d + len ≤ t.shared ∧ d % 128 = 0 ∧ l.pair x.a.toNat % 128 = 0 ∧ (l.pair x.a.toNat).toNat < 2 ^ 56

/-- `mcast` with operands that pass its checks, where its queue and lines have room (R255, R295). -/
theorem execMcast_of_room {t : Team} {j : Nat} {js : List Nat} (hr : Ready s (.mcast h x) h u) (hp : u.plive = j :: js)
    (ht : s.team? u.team = some t) (hok : s.McastOk t x (s.lane u j)) (hroom : s.queueRoom u.team x.cq.toNat 1 = true)
    (hfull : t.local_.full (s.mcastOp u x t j (s.lane u j)).dstLines = false) :
    execMcast h x s = .next (s.afterWord
      (((s.fresh.2.raiseLines u.team .sh (s.mcastOp u x t j (s.lane u j)).dstLines).addOp
        (s.mcastOp u x t j (s.lane u j))).updQueue u.team x.cq.toNat fun y => { y with mcasts := y.mcasts + 1 })
      (.mcast h x) u [] h.sw) := by
  obtain ⟨hidx, ⟨g, hg, hsize⟩, hmod, hne, hmax, hgrant, hd, ha, hva⟩ := hok
  refine runWord_done_noRegs hr ?_ fun _ => rfl
  simp only [hp, ht, hg, failIf, hmod, hd, ha, (granted_sh_iff s t (s.lane u j).tid _ _).mpr hgrant, hroom,
    decide_eq_false (Nat.not_le.mpr hidx), decide_eq_false (Nat.not_lt.mpr hsize),
    decide_eq_false (Nat.not_lt.mpr hmax), decide_eq_false (Nat.not_le.mpr hva), beq_eq_false_iff_ne.mpr hne,
    bne_self_eq_false, Bool.not_true, Bool.or_self, Bool.false_eq_true, if_false, List.findSome?_cons,
    List.findSome?_nil, id_eq]
  exact if_neg (Bool.eq_false_iff.mp hfull)

end Sys2Proof.Machine

namespace Sys2Proof

open Sys2Proof.Machine

/-- Settles O30: a release is over or begins, and the other words pass their checks. -/
theorem fenceWordsComplete : Obligations.FenceWordsComplete :=
  fun h x =>
    ⟨fence_acts_of_no_release h x, fence_acts_of_over h x, publ_acts_of_over h x, mhint_acts h x,
     fun s _ _ _ hr hp hs hx hw hb => (exec_fence h x s).trans (execFence_of_begin hr hp hs hx hw hb),
     fun s _ _ _ _ hr hp ht hok hroom hfull => (exec_mcast h x s).trans (execMcast_of_room hr hp ht hok hroom hfull)⟩

end Sys2Proof
end

section
/-! SUPPORT. Display outputs and power (R370, R420, R432-R439): each event's effect where its condition holds. -/
namespace Sys2Proof.Machine

variable {s : State} {o : Nat} {b : BootInput}

/-- A present word that is due is read, and the next frame chosen (R420). -/
theorem execPresentWordRead_of_due (hs : s.subject = .unit o) (hd : s.presentDue o = true) :
    execPresentWordRead s = .next (
      let t := s.choose o
      (if t.time.unsync then t.present o 5 else t).updOutput o fun x => { x with chosen := true }) := by
  simp only [execPresentWordRead, hs, hd, Bool.not_true, Bool.false_eq_true, if_false]

/-- A scan that is due takes its picture, and DEADLINE advances by PERIOD (R420). -/
theorem execFrameScanStart_of_due (hs : s.subject = .unit o) (hd : s.scanDue o = true) :
    execFrameScanStart s = .next (
      let r := s.picture o (s.output o).next
      ((List.range r.2.2).foldl (fun (t : State) _ => t.present o 2) r.1).updOutput o fun x =>
        { x with scan := x.next, picture := r.2.1, chosen := false, deadline := x.deadline + x.period.setWidth 64 }) := by
  simp only [execFrameScanStart, hs, hd, Bool.not_true, Bool.false_eq_true, if_false]

theorem execColdStart_of_boot (hs : s.subject = .boot b) : execColdStart s = .next (s.startAs false b) := by
  simp only [execColdStart, hs]

theorem execWarmStart_of_boot (hs : s.subject = .boot b) : execWarmStart s = .next (s.startAs true b) := by
  simp only [execWarmStart, hs]

/-- A start that has failed goes on with the step that it stands at (R435). -/
theorem execAutoRestart_of_failed (hs : s.subject = .boot b) (hp : s.power.state = 1) (ha : s.power.attempts ≠ 0) :
    execAutoRestart s = .next (s.startStep b) := by
  simp only [execAutoRestart, hs, if_pos (And.intro hp ha)]

/-- The thermal shutdown stops a part that is not in status-only mode (R439). -/
theorem execThermalShutdown_of_not_status (hp : s.power.state ≠ 3) :
    execThermalShutdown s = .next (s.stopPart 0x30).settle := by
  rw [execThermalShutdown, if_neg hp]

end Sys2Proof.Machine

namespace Sys2Proof

open Sys2Proof.Machine

/-- Settles O51: each event's effect, where its condition holds. -/
theorem displayAndPowerEventsAct : Obligations.DisplayAndPowerEventsAct :=
  fun s =>
    ⟨fun _ hs => ⟨fun hd => (exec_presentWordRead s).trans (execPresentWordRead_of_due hs hd),
       fun hd => (exec_frameScanStart s).trans (execFrameScanStart_of_due hs hd)⟩,
     exec_powerOn s,
     fun _ hs => ⟨(exec_coldStart s).trans (execColdStart_of_boot hs), (exec_warmStart s).trans (execWarmStart_of_boot hs),
       fun hp ha => (exec_autoRestart s).trans (execAutoRestart_of_failed hs hp ha)⟩,
     exec_thermalThrottle s, exec_thermalRecover s,
     fun hp => (exec_thermalShutdown s).trans (execThermalShutdown_of_not_status hp)⟩

end Sys2Proof
end

section
/-! SUPPORT. Transactions of the host and of peers (R408, R423-R425): what they find of their agent. -/
namespace Sys2Proof.Machine

variable {s : State} {d : Nat} {inc : Byte} {f : State → State}

/-- While no declaration is due, none is made. -/
theorem declareDue_of_not_lost (hl : s.heartLost d = false) : s.declareDue d = s := by
  rw [State.declareDue, hl, if_neg Bool.false_ne_true]

theorem declareDue_of_lost (hl : s.heartLost d = true) : s.declareDue d = s.declare d := by
  rw [State.declareDue, if_pos hl]

/-- A transaction of the host's present incarnation is taken (R425). -/
theorem hostTakes_of_present (hl : s.heartLost 64 = false) (hi : (s.agent 64).inc = inc) : s.hostTakes inc f = f s := by
  simp only [State.hostTakes, declareDue_of_not_lost hl]
  exact if_neg (not_not_intro hi)

/-- A transaction of another incarnation of the host is discarded (R425). -/
theorem hostTakes_of_other (hl : s.heartLost 64 = false) (hi : (s.agent 64).inc ≠ inc) :
    s.hostTakes inc f = s.discard 64 inc 0xFF := by
  simp only [State.hostTakes, declareDue_of_not_lost hl]
  exact if_pos hi

end Sys2Proof.Machine
end

section
/-! SUPPORT. The host control window (R408-R412, R418, R421): the effects of its writes. -/
namespace Sys2Proof.Machine

variable {s : State} {off width n : Nat} {v : W64} {inc : Byte}

theorem execRegisterWrite_of_window (hs : s.subject = .window off width v inc) :
    execRegisterWrite s = .next (s.hostTakes inc fun t => t.hcwWrite off width v).settle := by
  simp only [execRegisterWrite, hs]

/-- A publication under way publishes its range once the host's writes are complete (R412). -/
theorem execHostPublication_of_busy (hb : s.hpub.busy = true) (hr : s.hostReady = true) :
    execHostPublication s = .next s.publishRange := by
  rw [execHostPublication, if_pos ⟨hb, hr⟩]

theorem execHostCopyHeadWrite_of_write (hm : s.hostMay = true) (hs : s.subject = .write n v) :
    execHostCopyHeadWrite s = .next (s.startWalk n v) := by
  simp only [execHostCopyHeadWrite, hs, hm, if_true]

theorem execHpublenWrite_of_write (hm : s.hostMay = true) (hs : s.subject = .write n v) :
    execHpublenWrite s = .next (s.startPub (lo32 v)) := by
  simp only [execHpublenWrite, hs, hm, if_true]

theorem execTbset_of_write (hm : s.hostMay = true) (hs : s.subject = .write n v) :
    execTbset s = .next (s.setTime v).settle := by
  simp only [execTbset, hs, hm, if_true]

theorem execOutputEnable_of_write (hm : s.hostMay = true) (hs : s.subject = .write n v) :
    execOutputEnable s = .next (s.writeOutEn n (lo32 v)) := by
  simp only [execOutputEnable, hs, hm, if_true]

theorem execPoseseqWrite_of_write (hm : s.hostMay = true) (hs : s.subject = .write n v) :
    execPoseseqWrite s = .next (s.updOutput n Output.commit) := by
  simp only [execPoseseqWrite, hs, hm, if_true]

end Sys2Proof.Machine

namespace Sys2Proof

open Sys2Proof.Machine

/-- Settles O44: the window takes the host's present incarnation alone, and each register acts while the host may write. -/
theorem hostWindowActs : Obligations.HostWindowActs :=
  fun s =>
    ⟨fun _ _ _ _ hs hl =>
       have hw := (exec_registerWrite s).trans (execRegisterWrite_of_window hs)
       ⟨fun hi => hw.trans (by rw [hostTakes_of_present hl hi]), fun hi => hw.trans (by rw [hostTakes_of_other hl hi])⟩,
     exec_ildropRead s,
     fun hb hr => (exec_hostPublication s).trans (execHostPublication_of_busy hb hr),
     fun _ _ hm hs =>
       ⟨(exec_hostCopyHeadWrite s).trans (execHostCopyHeadWrite_of_write hm hs),
        (exec_hpublenWrite s).trans (execHpublenWrite_of_write hm hs),
        (exec_tbset s).trans (execTbset_of_write hm hs),
        (exec_outputEnable s).trans (execOutputEnable_of_write hm hs),
        (exec_poseseqWrite s).trans (execPoseseqWrite_of_write hm hs)⟩⟩

end Sys2Proof
end
section
/-! SUPPORT. The installation around the part (R407, R410, R413-R417, R423-R426): what arrives from outside, heartbeats,
notices, links and the time base, while the part runs. -/
namespace Sys2Proof.Machine

variable {s : State} {d i : Nat} {r : PeerRequest} {q : HostRequest}

-- requests of peers and of the host

/-- A request for another device goes on by its route, or ends with a fault where it has none (R413). -/
theorem execDamaskRequest_of_other_device (hp : s.power.state = 2) (hs : s.subject = .peer r)
    (hd : r.dst.toNat ≠ s.fabric.dev) : execDamaskRequest s = .next (s.forward r) := by
  simp only [execDamaskRequest, hs, hp, hd, ne_eq, not_true_eq_false, not_false_eq_true, if_false, if_true]

/-- A request for this part is the part's to answer (R414). -/
theorem execDamaskRequest_of_this_device (hp : s.power.state = 2) (hs : s.subject = .peer r)
    (hd : r.dst.toNat = s.fabric.dev) : execDamaskRequest s = .next (s.peerRequest r) := by
  simp only [execDamaskRequest, hs, hp, hd, ne_eq, not_true_eq_false, if_false]

theorem peerRequest_of_other_incarnation (hl : s.heartLost r.dev.toNat = false)
    (hi : (s.agent r.dev.toNat).inc ≠ r.inc) : s.peerRequest r = s.discard r.dev.toNat r.inc r.port := by
  simp only [State.peerRequest, declareDue_of_not_lost hl]
  exact if_pos hi

/-- What a request of a present and living peer comes to: where it is admitted it is performed, else it gets no answer
(R415). -/
theorem peerRequest_of_present (hl : s.heartLost r.dev.toNat = false) (hi : (s.agent r.dev.toNat).inc = r.inc)
    (ha : (s.agent r.dev.toNat).state ≠ 3) :
    s.peerRequest r =
      if s.fabric.admits r.dev.toNat r.ia.toNat (accessLen r.acc) (accessAdmit r.acc) then
        s.outside r.dev.toNat (BitVec.ofNat 12 (0x900 + r.dev.toNat)) r.ia.toNat r.acc
      else s.reply r.dev.toNat none := by
  simp only [State.peerRequest, declareDue_of_not_lost hl]
  refine (if_neg (not_not_intro hi)).trans ((if_neg ha).trans ?_)
  cases s.fabric.admits r.dev.toNat r.ia.toNat (accessLen r.acc) (accessAdmit r.acc) <;> rfl

/-- A peer without an answer gets the fault 0x11: the number 64, the host's, is no device's. -/
theorem reply_peer_none (s : State) (e : BitVec 6) : s.reply e.toNat none =
    { s with fabric := { s.fabric with sent := .fault e.toNat 0x11 :: s.fabric.sent } } :=
  if_neg (by omega)

/-- A request of the host that the part takes (R410, R425). -/
theorem execHostDeviceMemoryAccess_of_running (hp : s.power.state = 2) (hs : s.subject = .host q) :
    execHostDeviceMemoryAccess s = .next (s.hostTakes q.inc fun t =>
      if (t.agent 64).state = 3 then t else t.outside 64 0x800 q.ia.toNat q.acc) := by
  simp only [execHostDeviceMemoryAccess, hs, hp, ne_eq, not_true_eq_false, if_false]

-- heartbeats

theorem execHeartbeatReceive_of_living (hp : s.power.state = 2) (hs : s.subject = .unit2 d i)
    (hi : (s.agent d).inc = BitVec.ofNat 8 i) (ha : (s.agent d).state ≠ 3) (hl : s.heartLost d = false) :
    execHeartbeatReceive s = .next (s.updAgent d fun a => { a with state := 1, beat := s.time.now }) := by
  simp only [execHeartbeatReceive, hs, declareDue_of_not_lost hl]
  exact if_neg (by simp [hp, hi, ha])

/-- The heartbeat of an agent whose declaration is due finds it dead (R425). -/
theorem execHeartbeatReceive_of_lost (hs : s.subject = .unit2 d i) (hl : s.heartLost d = true)
    (ha : ((s.declare d).agent d).state = 3) : execHeartbeatReceive s = .next (s.declare d) := by
  simp only [execHeartbeatReceive, hs, declareDue_of_lost hl]
  exact if_pos (.inr (.inr ha))

theorem execHeartbeatSlow_of_late (hp : s.power.state = 2) (hs : s.subject = .unit d) (ha : (s.agent d).state = 1)
    (hw : 1500000 ≤ (s.time.now - (s.agent d).beat).toNat) :
    execHeartbeatSlow s = .next (s.updAgent d fun a => { a with state := 2 }) := by
  simp only [execHeartbeatSlow, hs]
  exact if_neg (by simp only [hp, ha]; omega)

/-- An agent is lost when the part runs, it is alive or slow, and its heartbeats have been away for 3 ms. -/
theorem heartLost_of_late (hp : s.power.state = 2) (ha : (s.agent d).state = 1 ∨ (s.agent d).state = 2)
    (hw : 3000000 ≤ (s.time.now - (s.agent d).beat).toNat) : s.heartLost d = true := by
  have hstate : ((s.agent d).state == 1 || (s.agent d).state == 2) = true := by
    rcases ha with ha | ha <;> rw [ha] <;> rfl
  simp only [State.heartLost, hp, hstate, decide_eq_true hw, beq_self_eq_true, Bool.and_self]

theorem execHeartbeatDead_of_lost (hs : s.subject = .unit d) (hl : s.heartLost d = true) :
    execHeartbeatDead s = .next (s.declare d) := by
  simp only [execHeartbeatDead, hs, declareDue_of_lost hl]

theorem execHeartbeatSend_of_new_millisecond (hp : s.power.state = 2) (hb : s.time.bound ≤ 1000)
    (hn : s.fabric.lastBeat.toNat / 1000000 < s.time.now.toNat / 1000000) :
    execHeartbeatSend s = .next { s with fabric := { s.fabric with lastBeat := s.time.now } } := by
  rw [execHeartbeatSend, if_pos ⟨hp, hb, hn⟩]

-- notices

theorem execDead_of_running (hp : s.power.state = 2) (hs : s.subject = .unit2 d i) :
    execDead s = .next (s.bury d (BitVec.ofNat 8 i)) := by
  simp only [execDead, hs, if_pos hp]

/-- The notice of a newer incarnation buries the older one first (R426). -/
theorem execJoinNotice_of_newer (hp : s.power.state = 2) (hs : s.subject = .unit2 d i) (hd : d < 64)
    (hi : (s.agent d).inc.toNat < i % 256) :
    execJoinNotice s = .next (
      let t := s.bury d (BitVec.ofNat 8 i - 1)
      if (t.agent d).inc = BitVec.ofNat 8 i ∧ (t.agent d).state = 3 then t.welcome d else t) := by
  have hgo : ¬ (s.power.state ≠ 2 ∨ 64 ≤ d) := by omega
  simp only [execJoinNotice, hs, if_neg hgo, if_pos hi]

theorem execStale_of_own (hp : s.power.state = 2) (hs : s.subject = .unit2 d i) (hd : d = s.fabric.dev)
    (hi : BitVec.ofNat 8 i = s.fabric.inc) : execStale s = .next (s.enterStatus 0x21).settle := by
  simp only [execStale, hs, if_pos (And.intro hp (And.intro hd hi))]

-- links and the time base

theorem execLinkError_of_link (hp : s.power.state = 2) (hs : s.subject = .unit d) (hd : d < 6) :
    execLinkError s = .next { s with fabric := { s.fabric with retrain := setN s.fabric.retrain d s.time.now } } := by
  simp only [execLinkError, hs, if_pos (And.intro hp hd)]

theorem execLinkRetrainFail_of_late {w : W64} (hp : s.power.state = 2) (hs : s.subject = .unit d)
    (hr : lookupN s.fabric.retrain d = some w) (hw : 1000000 ≤ (s.time.now - w).toNat) :
    execLinkRetrainFail s = .next (s.stopPart 0x20).settle := by
  simp only [execLinkRetrainFail, hs, hr, if_pos (And.intro hp hw)]

theorem execTimeSyncExchange_of_slave {x : SyncResult} (hp : s.power.state = 2) (hs : s.subject = .sync x)
    (hc : s.time.cfg.getLsbD 7 = true) (hm : s.time.master = false) :
    execTimeSyncExchange s = .next { s with time := { s.time with
      bound := min x.bound 0xFFFF, unsync := decide (20 < x.bound), met := true, slew := max (-10) (min 10 x.slew) } } := by
  simp only [execTimeSyncExchange, hs]
  exact if_neg (by simp [hp, hc, hm])

end Sys2Proof.Machine

namespace Sys2Proof

open Sys2Proof.Machine

/-- Settles O50: what arrives finds its agent present, gone or due to be declared, and each notice acts. -/
theorem fabricEventsAct : Obligations.FabricEventsAct :=
  fun s hp =>
    ⟨fun _ hs hd => (exec_damaskRequest s).trans (execDamaskRequest_of_other_device hp hs hd),
     fun r hs hd hl =>
       have hreq := (exec_damaskRequest s).trans (execDamaskRequest_of_this_device hp hs hd)
       ⟨fun hi => hreq.trans (by rw [peerRequest_of_other_incarnation hl hi]),
        fun hi ha =>
          ⟨fun hadm => hreq.trans (congrArg _ ((peerRequest_of_present hl hi ha).trans (if_pos hadm))),
           fun hadm => hreq.trans (congrArg _ ((peerRequest_of_present hl hi ha).trans
             ((if_neg (Bool.eq_false_iff.mp hadm)).trans (reply_peer_none s r.dev))))⟩⟩,
     fun _ hs hl =>
       have hreq := (exec_hostDeviceMemoryAccess s).trans (execHostDeviceMemoryAccess_of_running hp hs)
       ⟨fun hi => hreq.trans (by rw [hostTakes_of_other hl hi]),
        fun hi ha => hreq.trans (by rw [hostTakes_of_present hl hi, if_neg ha])⟩,
     fun _ _ hs =>
       ⟨(exec_dead s).trans (execDead_of_running hp hs),
        fun hi ha hl => (exec_heartbeatReceive s).trans (execHeartbeatReceive_of_living hp hs hi ha hl),
        fun hl ha => (exec_heartbeatReceive s).trans (execHeartbeatReceive_of_lost hs hl ha),
        fun hd hi => (exec_joinNotice s).trans (execJoinNotice_of_newer hp hs hd hi),
        fun hd hi => (exec_stale s).trans (execStale_of_own hp hs hd hi)⟩,
     fun _ hs =>
       ⟨fun ha hw => (exec_heartbeatSlow s).trans (execHeartbeatSlow_of_late hp hs ha hw),
        fun ha hw => (exec_heartbeatDead s).trans (execHeartbeatDead_of_lost hs (heartLost_of_late hp ha hw)),
        fun hd => (exec_linkError s).trans (execLinkError_of_link hp hs hd),
        fun _ hr hw => (exec_linkRetrainFail s).trans (execLinkRetrainFail_of_late hp hs hr hw)⟩,
     fun hb hn => (exec_heartbeatSend s).trans (execHeartbeatSend_of_new_millisecond hp hb hn),
     fun _ hs hc hm => (exec_timeSyncExchange s).trans (execTimeSyncExchange_of_slave hp hs hc hm)⟩

end Sys2Proof
end

section
/-! SUPPORT. Saves, restores, fault forwarding and Felt (R362-R399): each event's effect where it may happen. -/
namespace Sys2Proof.Machine

variable {s : State} {id n c i : Nat} {t : Team}

-- saves

/-- A replayable period that is over, or that holds others up, has its team saved (R362). -/
theorem execReplayableSaveTimeout_of_due {since : W64} (hs : s.subject = .unit id) (ht : s.team? id = some t)
    (hsince : t.replaySince = some since) (hrun : s.running = true) (hres : t.resident = true) (hend : t.ended = false)
    (hsav : t.saving = 0) (hcore : s.isReserved t.core = false)
    (hrep : ∃ g gi, (g, gi) ∈ t.groups.zipIdx ∧ s.replayable id gi g = true)
    (hdue : 100000 ≤ (s.timeAt t.core - since).toNat ∨ s.heldUp t = true) :
    execReplayableSaveTimeout s = .next (s.orderSave t 1).settle := by
  obtain ⟨g, gi, hmem, hg⟩ := hrep
  have hany : (t.groups.zipIdx.any fun x => s.replayable id x.2 x.1) = true := List.any_eq_true.mpr ⟨(g, gi), hmem, hg⟩
  have hdue' : (decide (100000 ≤ (s.timeAt t.core - since).toNat) || s.heldUp t) = true := by simpa using hdue
  simp only [execReplayableSaveTimeout, hs, ht, hsince, hrun, hres, hend, hsav, hcore, hany, hdue', Bool.not_true,
    bne_self_eq_false, Bool.or_self, Bool.false_eq_true, if_false]

/-- The state in which a team at rest is written: ordered saved with its gang where it must be, its regroups released, its
open batches closed and its queues taken on (R363, R364 steps 2 to 6). -/
def State.closedForSave (s : State) (t : Team) (id : Nat) : State :=
  let s0 := if t.saving = 1 then s.orderSave t 1 else s
  let s1 := (s0.regroup.filter fun r => r.team == id).foldl State.releaseRegroup s0
  (List.range 8).foldl (fun s n => s.advanceQueue id n) (s1.updTeam id Team.closeOpen)

/-- A team whose frame and gang are written leaves its core (R364): `t2` is the team with what its frame left in it. -/
def State.leaveSaved (s : State) (t t2 : Team) (id : Nat) : State :=
  let s5 := (s.disarmTeam t).parkSerge t
  let s6 := s5.updTeam id fun t =>
    { t with tiles := t2.tiles, imaged := t2.imaged, marked := t.marked || t2.marked, saving := 0, replaySince := none,
             place := .saved t2.saving (s5.timeAt t.core),
             groups := t.groups.map fun g =>
               { g with holds := [], entries := g.entries.map fun e => { e with issuing := e.issuing && e.inRun } } }
  s6.countSave (s6.ctxOf t)

/-- A team at rest whose frame and gang can be written is saved (R364). -/
theorem execTeamSave_of_written {t1 t2 : Team} {s3 s4 : State} (hs : s.subject = .unit id) (ht : s.team? id = some t)
    (hrun : s.running = true) (hrest : s.atRest t = true) (ht1 : (s.closedForSave t id).team? id = some t1)
    (hw : (s.closedForSave t id).writeFrame t1 = (s3, some t2)) (hg : s3.saveGang t1 = (s4, true)) :
    execTeamSave s = .next (s4.leaveSaved t1 t2 id).settle := by
  simp only [State.closedForSave] at ht1 hw
  simp only [execTeamSave, hs, ht, hrun, hrest, ht1, hw, hg, Bool.not_true, Bool.or_self, Bool.false_eq_true, if_false]
  rfl

/-- The write of an order's stamp: the saves that it counted and the time (R373). -/
def State.writeStamp (s : State) (o : SaveOrder) : State × PartRes (List (Nat × Nat)) :=
  s.partWrite (.va o.stampCtx o.stamp.toNat) (bytesOf 8 (o.count % 2 ^ 24 * 2 ^ 40 + s.time.now.toNat % 2 ^ 40))
    { src := 5, ctx := o.stampCtx, core := o.core, part := false, raises := true }

/-- An order is over with its stamp. -/
def State.dropSave (s : State) (o : SaveOrder) : State := { s with priv := { s.priv with saves := s.priv.saves.erase o } }

/-- An order with nothing left to save writes its stamp, and is dropped where the stamp meets a fault (R373). -/
theorem execCsaveStamp_of_saved {o : SaveOrder} (hs : s.subject = .unit c)
    (ho : s.priv.saves.find? (fun o => o.ctx == c) = some o) (hleft : s.stillSaving c = false) :
    (∀ t ls, s.writeStamp o = (t, .ok ls) → execCsaveStamp s = .next ((t.partRelease ls).dropSave o)) ∧
    (∀ t, s.writeStamp o = (t, .fault) → execCsaveStamp s = .next (t.dropSave o)) := by
  refine ⟨fun t ls hw => ?_, fun t hw => ?_⟩ <;>
  · simp only [State.writeStamp] at hw
    simp only [execCsaveStamp, hs, ho, hleft, hw, Bool.false_eq_true, if_false]
    rfl

-- restores

theorem execTeamRestore_of_whole_gang {p : Placement} {g : Gang} (hs : s.subject = .place n p) (hg : s.gang? n = some g)
    (hw : g.savedWhole = true) : execTeamRestore s = .next (s.restoreGang g p) := by
  simp only [execTeamRestore, hs, hg, hw, if_true]

theorem execTeamRestore_of_team {p : Placement} {g : Gang} (hs : s.subject = .place n p) (hn : s.gang? n = none)
    (ht : s.team? n = some t) (hg : s.gang? t.gang = some g) :
    execTeamRestore s = .next (s.restoreAlone t g (p.cores.getD 0 512)) := by
  simp only [execTeamRestore, hs, hn, ht, hg]

-- the fault collector

theorem execFaultCollectorForward_of_queue {m : FaultMsg} {rest : List FaultMsg} (hq : s.fillsOver.coll.queue = m :: rest) :
    execFaultCollectorForward s =
      .next (State.collect { s.fillsOver with coll := { s.fillsOver.coll with queue := rest } } m) := by
  simp only [execFaultCollectorForward, hq]

-- Felt

/-- A record that may run gives the result of its run, or the one that it holds (R398, R399). -/
theorem runs_of_feltMayRun {op : Nat} {e : Instr} {run : State → FeltJob → State × Byte} {j : FeltJob}
    (he : exec e s = s.feltEvent op run) (hs : s.subject = .unit i)
    (hw : j.waits = false) (hm : (s.feltTakeAll 16).feltMayRun j = true)
    (hj : (s.feltTakeAll 16).felt.jobs.find? (fun j => j.index == BitVec.ofNat 32 i && j.event == op) = some j) :
    (j.result = none → exec e s =
      .next ((run (s.feltTakeAll 16) j).1.feltFinish j (run (s.feltTakeAll 16) j).2)) ∧
    ∀ r, j.result = some r → exec e s = .next ((s.feltTakeAll 16).feltFinish j r) := by
  refine ⟨fun hr => he.trans ?_, fun r hr => he.trans ?_⟩ <;>
  simp only [State.feltEvent, hs, hj, hw, hm, hr, Bool.not_true, Bool.or_self, Bool.false_eq_true, if_false]

end Sys2Proof.Machine

namespace Sys2Proof

open Sys2Proof.Machine

/-- Settles O49: each event's effect, where it may happen. -/
theorem residencyEventsProceed : Obligations.ResidencyEventsProceed :=
  fun s =>
    ⟨fun _ _ _ hs ht hsince hrun hres hend hsav hcore hrep hdue => (exec_replayableSaveTimeout s).trans
       (execReplayableSaveTimeout_of_due hs ht hsince hrun hres hend hsav hcore hrep hdue),
     fun _ _ _ _ _ _ hs ht hrun hrest ht1 hw hg =>
       (exec_teamSave s).trans (execTeamSave_of_written hs ht hrun hrest ht1 hw hg),
     fun _ _ hs ho hleft =>
       have hstamp := execCsaveStamp_of_saved hs ho hleft
       ⟨fun t ls hw => (exec_csaveStamp s).trans (hstamp.1 t ls hw), fun t hw => (exec_csaveStamp s).trans (hstamp.2 t hw)⟩,
     fun _ _ hs => ⟨fun _ hg hw => (exec_teamRestore s).trans (execTeamRestore_of_whole_gang hs hg hw),
       fun _ _ hn ht hg => (exec_teamRestore s).trans (execTeamRestore_of_team hs hn ht hg)⟩,
     fun _ _ hq => (exec_faultCollectorForward s).trans (execFaultCollectorForward_of_queue hq),
     fun _ _ hs hw hm =>
       ⟨runs_of_feltMayRun (exec_feltIn s) hs hw hm, runs_of_feltMayRun (exec_feltOut s) hs hw hm,
        runs_of_feltMayRun (exec_feltCkpt s) hs hw hm, runs_of_feltMayRun (exec_feltRestore s) hs hw hm⟩⟩

end Sys2Proof
end

section
/-! SUPPORT. The units beneath the stacks (R307-R351): the effect of each of their events where its condition holds. -/
namespace Sys2Proof.Machine

variable {s t : State} {n num core q i k scene : Nat}

-- stream programs

/-- A stream program that waits for nothing pushes the units that had no room, or executes its next word (R307, R310). -/
theorem execSergeWord_of_ready {c : Nat} {z : Serge} {tm : Team} (hs : s.subject = .unit2 c n)
    (hz : s.serges.find? (fun z => z.cluster == c && z.unit == n) = some z) (ht : s.team? z.team = some tm)
    (hstop : z.stopped = false) (hw : z.wait = none) :
    execSergeWord s = .next (if z.units ≠ 0 then s.pushUnits z 64 else s.sergeStep z tm) := by
  simp only [execSergeWord, hs, hz, ht, hstop, hw, Option.isSome_none, Bool.or_self, Bool.false_eq_true, if_false]
  exact (apply_ite Host.Outcome.next _ _ _).symm

/-- A unit in flight arrives with the bytes that it read (R308). -/
theorem execSergeUnitArrive_of_data {x : StreamQueue} {r : UnitRead} {bs : List Byte} (hs : s.subject = .unit3 core q i)
    (hx : s.stream? core q = some x) (hi : x.items[i]? = some (.flight r)) (hw : r.wait = none) (hcore : core < 512)
    (hr : s.sergeReadUnit core r r.va 128 = (t, .data bs)) :
    execSergeUnitArrive s = .next (((t.updStream core q fun x => { x with items := x.items.set i (.unit bs) }).pops
      core q).settle) := by
  simp only [execSergeUnitArrive, hs, hx, hi, hw, hr, Option.bind_some, Option.isSome_none,
    decide_eq_false (Nat.not_le.mpr hcore), Bool.or_self, Bool.false_eq_true, if_false]

-- rays and treelets

/-- Every ray that stands at a treelet that may be picked is traversed (R326). -/
theorem execRayTraverseBatch_of_mayPick (hs : s.subject = .unit3 k scene i) (hp : s.mayPick k scene i = true) :
    execRayTraverseBatch s =
      .next ((((s.raysAt scene i).foldl (fun s r => s.traverse r i) s).unspillAll).settle) := by
  simp only [execRayTraverseBatch, hs, hp, Bool.not_true, Bool.false_eq_true, if_false]

section Ray

variable {r : Ray} {c : Byte} (hs : s.subject = .unit num) (hr : s.rays.find? (fun r => r.cmd.num == num) = some r)
include hs hr

theorem execRayTraverseBatch_of_hit (hl : s.rayLate r = false) (hf : r.fate = some 0) :
    execRayTraverseBatch s = .next (s.endRay r r.result 0 0).settle := by
  simp only [execRayTraverseBatch, hs, hr, hl, hf, Bool.false_eq_true, if_false]
  rfl

theorem execRayTraverseBatch_of_error (hl : s.rayLate r = false) (hf : r.fate = some c) (hc : c ≠ 0) :
    execRayTraverseBatch s = .next (s.endRay r (r.errResult c false) c 0).settle := by
  simp only [execRayTraverseBatch, hs, hr, hl, Bool.false_eq_true, if_false]
  split
  case h_1 h => exact absurd (hf.symm.trans h) (Option.some_ne_none c)
  case h_2 h => exact absurd (Option.some.inj (hf.symm.trans h)) hc
  case h_3 h => obtain rfl := Option.some.inj (hf.symm.trans h); rfl

theorem execRayTraverseBatch_of_late (hl : s.rayLate r = true) :
    execRayTraverseBatch s = .next (s.endRay r (r.errResult 0x1A false) 0x1A 0).settle := by
  simp only [execRayTraverseBatch, hs, hr, hl, if_true, State.endLateRay]

theorem execRayTimeout_of_late (hl : s.rayLate r = true) :
    execRayTimeout s = .next ((s.endRay r (r.errResult 0x1A false) 0x1A 0).unspillAll).settle := by
  simp only [execRayTimeout, hs, hr, hl, if_true, State.endLateRay]

end Ray

/-- What becomes of a drained `trhold` by the entry of its treelet (R328). -/
def TreeCmd.drained (x : TreeCmd) : State × Except (UnitErr × Nat) TreeEntry → State
  | (t, .error (e, v)) => ((t.failHold x).treeFail x.cmd v e).settle
  | (t, .ok e) =>
    ((t.updOwnHold x fun h => { h with draining := false, granted := true }).treeDone x.cmd x.scene x.treelet
      e.version 0x00).settle

section Treelet

variable {x : TreeCmd} (hs : s.subject = .unit num)
  (hx : s.tcmds.find? (fun x => x.cmd.num == num && x.swap.isNone) = some x)
include hs hx

/-- A drained command reads its treelet's entry (R328). The reading stands under a name of its own, so that the kernel
compares the two sides without evaluating it. -/
theorem execTrholdDrained_of_command :
    execTrholdDrained s = .next (x.drained
      (State.treeEntry { s with tcmds := s.tcmds.filter fun y => y.cmd.num != num } x.cmd x.scene x.treelet)) := by
  obtain ⟨reading, hreading⟩ : ∃ r, r = State.treeEntry := ⟨_, rfl⟩
  rw [execTrholdDrained, ← hreading]
  split
  case h_1 m hm =>
    obtain rfl : m = num := by simpa [hs] using hm.symm
    simp only [hx]
    obtain ⟨t, err | e⟩ := reading { s with tcmds := s.tcmds.filter fun y => y.cmd.num != m } x.cmd x.scene x.treelet <;>
      rfl
  case h_2 h => exact absurd hs (h num)

end Treelet

-- samplers

theorem execFiltResult_of_command {g : GauzeCmd} (hs : s.subject = .unit num)
    (hg : s.gauze.find? (fun y => y.cmd.num == num && !y.hash) = some g) :
    execFiltResult s = .next ((s.filter g).1.endGauze g (s.filter g).2) := by
  simp only [execFiltResult, hs, hg]

theorem execHgridResult_of_command {g : GauzeCmd} (hs : s.subject = .unit num)
    (hg : s.gauze.find? (fun y => y.cmd.num == num && y.hash) = some g) :
    execHgridResult s = .next ((s.hashGrid g).1.endGauze g (s.hashGrid g).2) := by
  simp only [execHgridResult, hs, hg]

-- Calico programs

theorem overCalico_of_performed {c : CalicoCmd} (stop : Option Byte) (last : Nat) (hb : s.bankHeld c = false) :
    s.overCalico c stop last = s.endCalico c stop last := by
  rw [State.overCalico, hb, if_neg Bool.false_ne_true]

theorem overCalico_of_held {c : CalicoCmd} (stop : Option Byte) (last : Nat) (hb : s.bankHeld c = true) :
    s.overCalico c stop last = s.putCalico { c with outcome := some (stop, last) } := by
  rw [State.overCalico, if_pos hb]

/-- The address of a column that is still to come. -/
def Column.pending? : Column → Option Nat
  | .pending a => some a
  | .here _ => none

section Calico

variable {c : CalicoCmd} (hs : s.subject = .unit n) (hc : s.calicoOn n = some c)
include hs hc

/-- A program that can be read and whose bundles are well-formed starts (R341). -/
theorem execCalicoProgramCheck_of_good {d : UnitData} (hstart : c.started = false)
    (hd : (s.progCorrects c).1.unitBytes 2 c.cmd.ctx c.cmd.images c.stack c.prog (8 * (c.nb + 1)) = (t, some d))
    (hbad : d.bad = [])
    (hok : ((List.range (c.nb + 1)).map fun i => BitVec.ofNat 64 (ofBytes ((d.data.drop (8 * i)).take 8))).all bundleOk
      = true) :
    execCalicoProgramCheck s = .next (t.putCalico { c with
      ce := c.ce || (s.progCorrects c).2, started := true
      code := (List.range (c.nb + 1)).map fun i => BitVec.ofNat 64 (ofBytes ((d.data.drop (8 * i)).take 8)) }) := by
  simp only [CalicoCmd.stack] at hd
  simp only [execCalicoProgramCheck, hs, hc, hstart, CalicoCmd.stack, hd, hbad, hok, List.isEmpty_nil, Bool.not_true,
    Bool.false_eq_true, if_false]

theorem execCalicoBundle_of_held (hb : s.bankHeld c = true) : execCalicoBundle s = .next s := by
  simp only [execCalicoBundle, hs, hc, hb, Bool.or_true, if_true]

section Running

variable (hstart : c.started = true) (hb : s.bankHeld c = false)
include hstart hb

/-- A program whose outcome waited for its writes ends with it (R344). -/
theorem execCalicoBundle_of_outcome {stop : Option Byte} {last : Nat} (ho : c.outcome = some (stop, last)) :
    execCalicoBundle s = .next (s.endCalico c stop last) := by
  simp only [execCalicoBundle, hs, hc, hstart, hb, ho, Bool.not_true, Bool.or_self, Bool.false_eq_true, if_false]

/-- What becomes of a program by the result of its next bundle (R343, R344). -/
theorem execCalicoBundle_of_run {r : BundleRes} (ho : c.outcome = none) (hr : s.runBundle c = (t, r)) :
    (∀ c', r = .ok c' → c.at_ ≠ c.nb → execCalicoBundle s = .next (t.putCalico { c' with at_ := c.at_ + 1 })) ∧
    (∀ c', r = .ok c' → c.at_ = c.nb → execCalicoBundle s = .next (t.overCalico c' none c.at_)) ∧
    (∀ c', r = .ended c' → execCalicoBundle s = .next (t.overCalico c' none c.at_)) ∧
    (∀ e c', r = .bad e c' → execCalicoBundle s = .next (t.overCalico c' (some e) c.at_)) ∧
    (r = .stall → execCalicoBundle s = .next s) := by
  simp only [execCalicoBundle, hs, hc, hstart, hb, ho, hr, Bool.not_true, Bool.or_self, Bool.false_eq_true, if_false]
  refine ⟨?_, ?_, ?_, ?_, ?_⟩
  · rintro c' rfl hne; exact if_neg hne
  · rintro c' rfl heq; exact if_pos heq
  · rintro c' rfl; rfl
  · rintro e c' rfl; rfl
  · rintro rfl; rfl

end Running

/-- The first column still to come takes its place in the stream (R343, R346). -/
theorem execCalicoColumnArrive_of_column {a : Nat} {c' : CalicoCmd} {ws : List W32} (ho : c.outcome = none)
    (ha : c.stream.findSome? Column.pending? = some a) (hr : s.readColumn c a = (t, some (c', ws))) :
    execCalicoColumnArrive s = .next (t.putCalico { c' with stream := arriveColumn ws c'.stream }) := by
  have hwait : execCalicoColumnArrive s =
      match c.stream.findSome? Column.pending? with
      | none => .next s
      | some a => match s.readColumn c a with
        | (s, none) => .next (s.overCalico c (some 0x11) c.at_)
        | (s, some (c, ws)) => .next (s.putCalico { c with stream := arriveColumn ws c.stream }) := by
    simp only [execCalicoColumnArrive, hs, hc, ho, Option.isSome_none, Bool.false_eq_true, if_false]
    rfl
  rw [hwait, ha]
  simp only [hr]

end Calico

end Sys2Proof.Machine

namespace Sys2Proof

open Sys2Proof.Machine

/-- Settles O48: each event's effect, where its condition holds. -/
theorem unitEventsProceed : Obligations.UnitEventsProceed := by
  intro s
  refine ⟨?serge, ?arrive, ?batch, ?ray, ?drained, ?failed, ?gauze, ?calico⟩
  case serge =>
    exact fun _ _ _ _ hs hz ht hstop hw => (exec_sergeWord s).trans (execSergeWord_of_ready hs hz ht hstop hw)
  case arrive =>
    exact fun _ _ _ _ _ _ _ hs hx hi hw hcore hr =>
      (exec_sergeUnitArrive s).trans (execSergeUnitArrive_of_data hs hx hi hw hcore hr)
  case batch => exact fun _ _ _ hs hp => (exec_rayTraverseBatch s).trans (execRayTraverseBatch_of_mayPick hs hp)
  case ray =>
    exact fun _ _ hs hr =>
      ⟨fun hl hf => (exec_rayTraverseBatch s).trans (execRayTraverseBatch_of_hit hs hr hl hf),
       fun _ hl hf hc => (exec_rayTraverseBatch s).trans (execRayTraverseBatch_of_error hs hr hl hf hc),
       fun hl => ⟨(exec_rayTraverseBatch s).trans (execRayTraverseBatch_of_late hs hr (decide_eq_true hl)),
         (exec_rayTimeout s).trans (execRayTimeout_of_late hs hr (decide_eq_true hl))⟩⟩
  case drained => exact fun _ _ _ _ hs hx he => (exec_trholdDrained s).trans (by
      rw [execTrholdDrained_of_command hs hx, he]; rfl)
  case failed => exact fun _ _ _ _ _ hs hx he => (exec_trholdDrained s).trans (by
      rw [execTrholdDrained_of_command hs hx, he]; rfl)
  case gauze =>
    exact fun _ _ hs => ⟨fun hg => (exec_filtResult s).trans (execFiltResult_of_command hs hg),
      fun hg => (exec_hgridResult s).trans (execHgridResult_of_command hs hg)⟩
  case calico =>
    intro n c hs hc
    refine ⟨fun t d hstart hd hbad hok => (exec_calicoProgramCheck s).trans
        (execCalicoProgramCheck_of_good hs hc hstart hd hbad hok),
      fun _ hb => (exec_calicoBundle s).trans (execCalicoBundle_of_held hs hc hb),
      fun _ _ hstart hb ho => (exec_calicoBundle s).trans (execCalicoBundle_of_outcome hs hc hstart hb ho), ?_,
      fun _ _ _ _ ho ha hr => (exec_calicoColumnArrive s).trans (execCalicoColumnArrive_of_column hs hc ho ha hr)⟩
    intro t r hstart hb ho hr
    rw [exec_calicoBundle]
    obtain ⟨hgoes, hlast, hended, hbad, hstall⟩ := execCalicoBundle_of_run hs hc hstart hb ho hr
    have hends {c' stop} (h : execCalicoBundle s = .next (t.overCalico c' stop c.at_)) :
        (t.bankHeld c' = false → execCalicoBundle s = .next (t.endCalico c' stop c.at_)) ∧
        (t.bankHeld c' = true → execCalicoBundle s = .next (t.putCalico { c' with outcome := some (stop, c.at_) })) :=
      ⟨fun hw => by rw [h, overCalico_of_performed _ _ hw], fun hw => by rw [h, overCalico_of_held _ _ hw]⟩
    exact ⟨hgoes, fun c' hok heq => hends (hlast c' hok heq), fun c' he => hends (hended c' he),
      fun e c' he => hends (hbad e c' he), hstall⟩

end Sys2Proof
end

section
/-! SUPPORT. The words of Serge that lanes issue (R306, R309-R311), and those that only a stream program may execute
(R297). -/
namespace Sys2Proof.Machine

variable {i : Instr} {h : Hdr} {s : State} {u : Bun}

/-- A word that only a stream program may execute is illegal in every live lane of P (R297). -/
theorem traps_of_sergeOnly (he : ∀ s, exec i s = s.sergeOnly i h) :
    Traps i h (fun _ _ => True) fun _ u => trapAll u.plive (trapAt 0x01 u.pc) := by
  intro s u hr _ hany
  have hne : u.plive ≠ [] := by
    intro hnil
    simp [hnil, trapAll] at hany
  refine (he s).trans (runWord_trap hr ?_ hany)
  simp only [List.isEmpty_eq_false_iff.mpr hne, Bool.false_eq_true, if_false]

/-- With no live lane in P it does nothing (R23). -/
theorem acts_of_sergeOnly (he : ∀ s, exec i s = s.sergeOnly i h) :
    Acts i h (fun _ u => u.plive = []) fun s _ => s := by
  intro s u hr hnil
  obtain ⟨-, -, -, hquiet⟩ := id hr
  exact (he s).trans (runWord_done hr (by simp only [hnil, List.isEmpty_nil, if_true]) hquiet)

/-- `qpop` of a queue that is the team's takes the next place in it for the lanes of P (R310). -/
theorem execQpop_of_queue {x : Eng} {y : StreamQueue} (hr : Ready s (.qpop h x) h u) (ha : u.act ≠ [])
    (hy : s.streamOf u x.sq.toNat = some y) :
    execQpop h x s = .next (s.afterWord (((s.fresh.2.mapLanes u u.act fun _ l => l.addResult
      { num := s.nextNum, pc := u.pc, need := .pop x.sq.toNat (y.first + y.taken), writes := [(x.d.toNat, 0)], flags := 0,
        trap := none, back := false }).setStream { y with taken := y.taken + 1 }).pops u.core x.sq.toNat)
      (.qpop h x) u [] h.sw) := by
  refine runWord_done_noRegs hr ?_ fun _ => rfl
  simp only [List.isEmpty_eq_false_iff.mpr ha, hy, fresh_num, Bool.false_eq_true, if_false]

/-- `qstat` gives the status of the queue, 0 where it is not the team's, at the run's end (R311). -/
theorem qstat_acts (h : Hdr) (x : Eng) :
    Acts (.qstat h x) h (fun _ u => u.plive ≠ []) fun s u => s.fresh.2.mapLanes u u.act fun _ l =>
      l.addResult (resultOf s.nextNum u.pc
        { writes := [(x.d.toNat, match s.streamOf u x.sq.toNat with | some y => y.stat | none => 0)], flags := 0 }) :=
  acts_of_runWord (exec_qstat h x) (fun _ => rfl) fun s u _ hne => by
    simp only [List.isEmpty_eq_false_iff.mpr hne, Bool.false_eq_true, if_false]
    rfl

end Sys2Proof.Machine

namespace Sys2Proof

open Sys2Proof.Machine

/-- Settles O32: a word that a lane may issue completes, and one that it may not traps. -/
theorem streamWordsComplete : Obligations.StreamWordsComplete :=
  fun h x =>
    ⟨acts_of_runWord (exec_sgo h x) (fun _ => rfl) fun _ _ _ _ => rfl,
     fun s _ _ hr ha hy => (exec_qpop h x s).trans (execQpop_of_queue hr ha hy),
     qstat_acts h x,
     traps_of_sergeOnly (exec_apush h x), traps_of_sergeOnly (exec_aseg h x),
     acts_of_sergeOnly (exec_apush h x), acts_of_sergeOnly (exec_aseg h x)⟩

end Sys2Proof
end

section
/-! SUPPORT. The privileged words (R355, R371-R378): each with the operands of the lowest live lane of P. -/
namespace Sys2Proof.Machine

variable {s : State} {h : Hdr} {x : Sys} {u : Bun} {t : Team} {j : Nat} {js : List Nat}

/-- The state in which `csave` has suspended a context and noted its order (R373). -/
def State.noteSave (s : State) (u : Bun) (c : Nat) (a : W64) : State :=
  { s with priv := { s.priv with
    suspended := if s.suspendedCtx c then s.priv.suspended else c :: s.priv.suspended
    saves := if a = 0 then s.priv.saves
      else s.priv.saves ++ [{ ctx := c, stamp := a, stampCtx := u.ctx, core := u.core, count := 0 }] } }

/-- `csave` of a context's number, with a stamp address that is aligned and of 56 bits (R373). -/
theorem csave_acts (h : Hdr) (x : Sys) :
    ActsOnce (.csave h x) h (fun _ _ _ l => (l.reg x.b.toNat).toNat < 2 ^ 16 ∧ l.pair x.a.toNat % 8 = 0 ∧
        (l.pair x.a.toNat).toNat < 2 ^ 56)
      (fun s u _ _ l =>
        let c := (l.reg x.b.toNat).toNat
        if s.suspendedCtx c then s.noteSave u c (l.pair x.a.toNat)
        else (s.noteSave u c (l.pair x.a.toNat)).saveContext c) := by
  refine actsOnce_of_onceWord (exec_csave h x) (fun _ => rfl) fun s u t j _ ⟨hc, ha, hlt⟩ => ?_
  simp only [if_neg (Nat.not_le.mpr hc), ha, bne_self_eq_false, decide_eq_false (Nat.not_le.mpr hlt), Bool.or_self,
    Bool.false_eq_true, if_false]
  rfl

/-- The state in which `tlbinv` waits, or goes on: a word that waits already has dropped the translations (R374). -/
def State.dropTranslations (s : State) (u : Bun) (lo hi : Nat) : State :=
  if (s.progress u).isSome = true then s
  else (List.range 8).foldl (fun s k => s.updStack k fun y => y.tlbInv lo hi) s

/-- `tlbinv` of an aligned range of intermediate addresses waits while something uses its translations (R374). -/
theorem execTlbinv_of_range {p n : Nat} {l : Lane} (hr : Ready s (.tlbinv h x) h u) (hp : u.plive = j :: js)
    (ht : s.team? u.team = some t) (hl : l = s.lane u j) (hpage : p = if x.sub.toNat = 0 then 2 ^ 16 else 2 ^ 21)
    (hn : n = (l.reg x.b.toNat).toNat) (ha : (l.pair x.a.toNat).toNat % p = 0) (halt : (l.pair x.a.toNat).toNat < 2 ^ 48)
    (h1 : 1 ≤ n) (h2 : n ≤ 65536) (h3 : (l.pair x.a.toNat).toNat + n * p ≤ 2 ^ 48) :
    let a := (l.pair x.a.toNat).toNat
    let dropped := s.dropTranslations u a (a + n * p)
    (dropped.inUse a (a + n * p) = false → execTlbinv h x s = .next (s.afterWord dropped (.tlbinv h x) u [] h.sw)) ∧
    (dropped.inUse a (a + n * p) = true → execTlbinv h x s = .next (dropped.setProgress u 0)) := by
  subst hl hpage hn
  have hrange := not_or.mpr ⟨Nat.ne_of_gt h1, not_or.mpr ⟨Nat.not_lt.mpr h2, Nat.not_lt.mpr h3⟩⟩
  have halign := not_or.mpr ⟨not_not_intro ha, Nat.not_le.mpr halt⟩
  refine ⟨fun hu => onceWord_done_noRegs hr hp ht ?_ fun _ => rfl, fun hu => onceWord_hold hr hp ht ?_⟩ <;>
  · simp only [State.dropTranslations] at hu
    simp only [if_neg halign, if_neg hrange, hu, if_true, Bool.false_eq_true, if_false]
    rfl

/-- `xinj` arms an injection of its unit in place of one armed before, or disarms it (R376). -/
theorem execXinj_of_valid {bits : List Nat} (hr : Ready s (.xinj h x) h u) (hp : u.plive = j :: js)
    (ht : s.team? u.team = some t) (hs : selectorOk ((s.lane u j).reg x.a.toNat) = true)
    (hb : injectBits ((s.lane u j).reg x.b.toNat) = some bits) :
    let kind := ((s.lane u j).reg x.a.toNat).toNat / 2 ^ 28
    let unit := ((s.lane u j).reg x.a.toNat).toNat / 2 ^ 16 % 4096
    let others := s.mem.injects.filter fun j => !(j.kind == kind && j.unit == unit)
    let armed := if ((s.lane u j).reg x.b.toNat).getLsbD 31 then { kind := kind, unit := unit, bits := bits } :: others
      else others
    execXinj h x s = .next (s.afterWord { s with mem := { s.mem with injects := armed } } (.xinj h x) u [] h.sw) := by
  refine onceWord_done_noRegs hr hp ht ?_ fun _ => rfl
  simp only [hs, hb]
  cases ((s.lane u j).reg x.b.toNat).getLsbD 31 <;> rfl

/-- `elog` gives the log register of a valid selector at the run's end (R377). -/
theorem elog_acts (h : Hdr) (x : Sys) :
    ActsOnce (.elog h x) h (fun _ _ _ l => selectorOk (l.reg x.a.toNat) = true) (fun s u _ _ l =>
      let v := s.errLog (l.reg x.a.toNat).toNat
      s.fresh.2.mapLanes u u.act fun _ l => l.addResult
        (resultOf s.nextNum u.pc { writes := [(x.d.toNat, lo32 v), (x.d.toNat + 1, hi32 v)], flags := 0 })) := by
  refine actsOnce_of_onceWord (exec_elog h x) (fun _ => rfl) fun s u t j _ hok => ?_
  simp only [hok, Bool.not_true, Bool.false_eq_true, if_false]
  rfl

/-- `elog.clr` clears the masked bits V and OVR (R377). -/
theorem elogClr_acts (h : Hdr) (x : Sys) :
    ActsOnce (.elogClr h x) h (fun _ _ _ l => selectorOk (l.reg x.a.toNat) = true) (fun s _ _ _ l =>
      let sel := (l.reg x.a.toNat).toNat
      s.setErrLog sel (s.errLog sel &&& ~~~(l.pair x.b.toNat &&& 0xC000000000000000))) := by
  refine actsOnce_of_onceWord (exec_elogClr h x) (fun _ => rfl) fun s u t j _ hok => ?_
  simp only [hok, Bool.not_true, Bool.false_eq_true, if_false]

/-- `halt` stops the part with the code of the lowest live lane of P, and ends the run (R378). -/
theorem execHalt_ready (hr : Ready s (.halt h x) h u) :
    execHalt h x s = .next (s.afterWord (match u.plive with
      | j :: _ => s.stopPart (((s.lane u j).reg x.a.toNat).setWidth 8)
      | [] => s) (.halt h x) u [] true) := by
  refine runWord_doneEnd hr ?_
  cases u.plive <;> rfl

/-- `rfe` of lanes that are all in a handler returns them and ends the run (R355). -/
theorem execRfe_of_handlers (hr : Ready s (.rfe h x) h u) (hhnd : ∀ j ∈ u.plive, (s.lane u j).hnd = true) :
    execRfe h x s = .next (s.afterWord (s.returnLanes u.team u.group u.pc u.plive) (.rfe h x) u u.plive true) := by
  have hbad : (u.plive.filter fun i => !(s.lane u i).hnd) = [] :=
    List.filter_eq_nil_iff.mpr fun j hj => by simp [hhnd j hj]
  refine runWord_doneEnd hr ?_
  simp only [hbad, List.isEmpty_nil, Bool.not_true, Bool.false_eq_true, if_false]

end Sys2Proof.Machine

namespace Sys2Proof

open Sys2Proof.Machine

/-- Settles O34: each word passes its checks. -/
theorem systemWordsComplete : Obligations.SystemWordsComplete :=
  fun h x =>
    ⟨csave_acts h x,
     actsOnce_of_onceWord (exec_crest h x) (fun _ => rfl) fun _ _ _ _ _ _ => rfl,
     fun s _ _ _ _ hr hp ht ha halt h1 h2 h3 =>
       (exec_tlbinv h x s).symm ▸ execTlbinv_of_range hr hp ht rfl rfl rfl ha halt h1 h2 h3,
     actsOnce_of_onceWord (exec_replay h x) (fun _ => rfl) fun _ _ _ _ _ _ => rfl,
     fun s _ _ _ _ _ hr hp ht hs hb => (exec_xinj h x s).trans (execXinj_of_valid hr hp ht hs hb),
     elog_acts h x, elogClr_acts h x,
     fun s _ hr => (exec_halt h x s).trans (execHalt_ready hr),
     fun s _ hr hhnd => (exec_rfe h x s).trans (execRfe_of_handlers hr hhnd)⟩

end Sys2Proof
end

section
/-! SUPPORT. Trap frames (R354): a frame is twenty words, and each word reads back as it was written. -/
namespace Sys2Proof.Machine

-- bytes of numbers

@[simp] theorem length_bytesOf (k n : Nat) : (bytesOf k n).length = k := by
  induction k generalizing n with
  | zero => rfl
  | succ k ih => exact congrArg (· + 1) (ih (n / 256))

/-- The bytes of a number hold as much of it as they have room for. -/
theorem ofBytes_bytesOf (k n : Nat) : ofBytes (bytesOf k n) = n % 256 ^ k := by
  induction k generalizing n with
  | zero => rw [bytesOf, ofBytes, Nat.pow_zero, Nat.mod_one]
  | succ k ih =>
    have hpow : 256 ^ (k + 1) = 256 * 256 ^ k := Nat.pow_succ'
    rw [bytesOf, ofBytes, ih, BitVec.toNat_ofNat, hpow, Nat.mod_mul]

/-- The bytes at word `i` of a run of words hold that word; past the run they hold 0. -/
theorem ofBytes_word (ws : List Nat) (i : Nat) :
    ofBytes (((ws.flatMap (bytesOf 8)).drop (8 * i)).take 8) = ws.getD i 0 % 2 ^ 64 := by
  induction ws generalizing i with
  | nil => simp [ofBytes]
  | cons w ws ih =>
    rw [List.flatMap_cons]
    cases i with
    | zero => rw [Nat.mul_zero, List.drop_zero, List.take_left' (length_bytesOf 8 w), ofBytes_bytesOf]; rfl
    | succ i =>
      have hskip : 8 * (i + 1) = (bytesOf 8 w).length + 8 * i := by rw [length_bytesOf]; omega
      rw [hskip, List.drop_length_add_append, ih, List.getD_cons_succ]

theorem length_flatMap_bytesOf (ws : List Nat) : (ws.flatMap (bytesOf 8)).length = 8 * ws.length := by
  induction ws with
  | nil => rfl
  | cons w ws ih => rw [List.flatMap_cons, List.length_append, length_bytesOf, ih, List.length_cons]; omega

/-- A field above every bit of a number is 0. -/
theorem fieldN_eq_zero {n hi lo : Nat} (h : n < 2 ^ lo) : fieldN n hi lo = 0 := by
  rw [fieldN, Nat.shiftRight_eq_div_pow, Nat.div_eq_of_lt h, Nat.zero_mod]

-- the words of a frame

/-- Word 0 of a frame: the code, its flags, K and the predicates. -/
def frameHead (l : Lane) (tr : TrapInfo) (runend : Bool) : Nat :=
  l.preds.toNat * 2 ^ 32 + tr.k.toNat * 2 ^ 16 + (if runend then 1024 else 0) + (if tr.multi then 512 else 0) +
    (if tr.rpt then 256 else 0) + tr.code.toNat

/-- The words of a place of the loop stack: 0 where the stack has no such entry. -/
def loopStart : Option LoopEntry → Nat
  | some e => e.start.toNat
  | none => 0

def loopStop : Option LoopEntry → Nat
  | some e => e.stop.toNat
  | none => 0

def loopCount : Option LoopEntry → Nat
  | some e => e.count.toNat
  | none => 0

/-- The words of a frame in their order (R354). -/
def frameWords (l : Lane) (tr : TrapInfo) (fpc npc : VAddr) (resume : W64) (runend : Bool) : List Nat :=
  [frameHead l tr runend, fpc.toNat, tr.opc.toNat, npc.toNat, resume.toNat, tr.info0.toNat, tr.info1.toNat,
   l.loops.length,
   loopStart l.loops[0]?, loopStop l.loops[0]?, loopCount l.loops[0]?,
   loopStart l.loops[1]?, loopStop l.loops[1]?, loopCount l.loops[1]?,
   loopStart l.loops[2]?, loopStop l.loops[2]?, loopCount l.loops[2]?,
   loopStart l.loops[3]?, loopStop l.loops[3]?, loopCount l.loops[3]?]

/-- The bytes of a place of the loop stack are those of its words. -/
theorem loop_bytes (o : Option LoopEntry) :
    (match o with
      | some e => bytesOf 8 e.start.toNat ++ bytesOf 8 e.stop.toNat ++ bytesOf 8 e.count.toNat
      | none => List.replicate 24 0) = [loopStart o, loopStop o, loopCount o].flatMap (bytesOf 8) := by
  cases o with
  | none => rfl
  | some e => simp only [List.flatMap_cons, List.flatMap_nil, List.append_nil, List.append_assoc]; rfl

variable (l : Lane) (tr : TrapInfo) (fpc npc : VAddr) (resume : W64) (runend : Bool)

theorem frameBytes_eq_words :
    frameBytes l tr fpc npc resume runend = (frameWords l tr fpc npc resume runend).flatMap (bytesOf 8) := by
  have hloop := fun i : Nat => loop_bytes l.loops[i]?
  have hwords : frameBytes l tr fpc npc resume runend =
      [frameHead l tr runend, fpc.toNat, tr.opc.toNat, npc.toNat, resume.toNat, tr.info0.toNat, tr.info1.toNat,
        l.loops.length].flatMap (bytesOf 8) ++
      [loopStart l.loops[0]?, loopStop l.loops[0]?, loopCount l.loops[0]?].flatMap (bytesOf 8) ++
      [loopStart l.loops[1]?, loopStop l.loops[1]?, loopCount l.loops[1]?].flatMap (bytesOf 8) ++
      [loopStart l.loops[2]?, loopStop l.loops[2]?, loopCount l.loops[2]?].flatMap (bytesOf 8) ++
      [loopStart l.loops[3]?, loopStop l.loops[3]?, loopCount l.loops[3]?].flatMap (bytesOf 8) := by
    rw [← hloop 0, ← hloop 1, ← hloop 2, ← hloop 3]
    simp only [List.flatMap_cons, List.flatMap_nil, List.append_nil, List.append_assoc, frameBytes]
    rfl
  rw [hwords, ← List.flatMap_append, ← List.flatMap_append, ← List.flatMap_append, ← List.flatMap_append]
  rfl

theorem length_frameBytes : (frameBytes l tr fpc npc resume runend).length = 160 := by
  rw [frameBytes_eq_words, length_flatMap_bytesOf]
  rfl

-- the fields of word 0

/-- The fields of word 0 stand side by side (R354). -/
theorem frameHead_fields :
    frameHead l tr runend % 2 ^ 8 = tr.code.toNat ∧ frameHead l tr runend / 2 ^ 8 % 2 = tr.rpt.toNat ∧
    frameHead l tr runend / 2 ^ 9 % 2 = tr.multi.toNat ∧ frameHead l tr runend / 2 ^ 10 % 2 = runend.toNat ∧
    frameHead l tr runend / 2 ^ 11 % 2 ^ 5 = 0 ∧ frameHead l tr runend / 2 ^ 16 % 2 ^ 13 = tr.k.toNat ∧
    frameHead l tr runend / 2 ^ 29 % 2 ^ 3 = 0 ∧ frameHead l tr runend / 2 ^ 32 % 2 ^ 24 = l.preds.toNat ∧
    frameHead l tr runend / 2 ^ 56 = 0 := by
  have hflag (b : Bool) (n : Nat) : (if b then n else 0) = n * b.toNat := by cases b <;> simp
  have hpreds := l.preds.isLt
  have hk := tr.k.isLt
  have hcode := tr.code.isLt
  have hrpt := tr.rpt.toNat_lt
  have hmulti := tr.multi.toNat_lt
  have hrunend := runend.toNat_lt
  simp only [frameHead, hflag]
  omega

-- words of other widths

theorem loopStart_lt (o : Option LoopEntry) : loopStart o < 2 ^ 56 := by
  cases o with
  | none => exact Nat.two_pow_pos 56
  | some e => exact e.start.isLt

theorem loopStop_lt (o : Option LoopEntry) : loopStop o < 2 ^ 56 := by
  cases o with
  | none => exact Nat.two_pow_pos 56
  | some e => exact e.stop.isLt

theorem loopCount_lt (o : Option LoopEntry) : loopCount o < 2 ^ 32 := by
  cases o with
  | none => exact Nat.two_pow_pos 32
  | some e => exact e.count.isLt

/-- The words that hold the place `i` of the loop stack. -/
theorem frameWords_loop {i : Nat} (hi : i < 4) :
    (frameWords l tr fpc npc resume runend).getD (8 + 3 * i) 0 = loopStart l.loops[i]? ∧
    (frameWords l tr fpc npc resume runend).getD (9 + 3 * i) 0 = loopStop l.loops[i]? ∧
    (frameWords l tr fpc npc resume runend).getD (10 + 3 * i) 0 = loopCount l.loops[i]? := by
  match i, hi with
  | 0, _ | 1, _ | 2, _ | 3, _ => exact ⟨rfl, rfl, rfl⟩

/-- A word of a frame as 64 bits. -/
theorem frame_word64 (i : Nat) :
    BitVec.ofNat 64 (ofBytes (((frameBytes l tr fpc npc resume runend).drop (8 * i)).take 8)) =
      BitVec.ofNat 64 ((frameWords l tr fpc npc resume runend).getD i 0) := by
  rw [frameBytes_eq_words, ofBytes_word]
  exact BitVec.eq_of_toNat_eq (by simp only [BitVec.toNat_ofNat, Nat.mod_mod])

theorem ofNat64_toNat (w : W64) : BitVec.ofNat 64 w.toNat = w := by
  rw [BitVec.ofNat_toNat, BitVec.setWidth_eq]

theorem ofNat_loopStart (o : Option LoopEntry) :
    BitVec.ofNat 64 (loopStart o) = match o with | some e => e.start.setWidth 64 | none => 0 := by
  cases o with
  | none => rfl
  | some e => exact BitVec.ofNat_toNat 64 e.start

theorem ofNat_loopStop (o : Option LoopEntry) :
    BitVec.ofNat 64 (loopStop o) = match o with | some e => e.stop.setWidth 64 | none => 0 := by
  cases o with
  | none => rfl
  | some e => exact BitVec.ofNat_toNat 64 e.stop

theorem ofNat_loopCount (o : Option LoopEntry) :
    BitVec.ofNat 64 (loopCount o) = match o with | some e => e.count.setWidth 64 | none => 0 := by
  cases o with
  | none => rfl
  | some e => exact BitVec.ofNat_toNat 64 e.count

/-- A field of a 64-bit number is the quotient's remainder. -/
theorem extractLsb'_ofNat64 {n lo len : Nat} {v : BitVec len} (hlo : lo + len ≤ 64)
    (hv : n / 2 ^ lo % 2 ^ len = v.toNat) : (BitVec.ofNat 64 n).extractLsb' lo len = v := by
  apply BitVec.eq_of_getLsbD_eq
  intro i hi
  have hin : lo + i < 64 := by omega
  have hbit : v.getLsbD i = (n / 2 ^ lo % 2 ^ len).testBit i := by rw [hv]; rfl
  simp only [BitVec.getLsbD_extractLsb', hi, decide_true, Bool.true_and, BitVec.getLsbD_ofNat, hin, hbit,
    Nat.testBit_mod_two_pow, Nat.testBit_div_two_pow, Nat.add_comm]

theorem getLsbD_ofNat64 {n i : Nat} {b : Bool} (hi : i < 64) (hb : n / 2 ^ i % 2 = b.toNat) :
    (BitVec.ofNat 64 n).getLsbD i = b := by
  rw [BitVec.getLsbD_ofNat, decide_eq_true hi, Bool.true_and, Nat.testBit_eq_decide_div_mod_eq, hb]
  cases b <;> rfl

end Sys2Proof.Machine

namespace Sys2Proof

open Sys2Proof.Machine

/-- Settles O37: each word of the frame reads back, and the fields of word 0 stand side by side. -/
theorem frameHoldsTheTrap : Obligations.FrameHoldsTheTrap := by
  intro l tr fpc npc resume runend _
  simp only [frame_word64]
  obtain ⟨hcode, hrpt, hmulti, hrunend, hlow, hk, hmid, hpreds, hhigh⟩ := frameHead_fields l tr runend
  have hhead : (frameWords l tr fpc npc resume runend).getD 0 0 = frameHead l tr runend := rfl
  rw [hhead]
  refine ⟨length_frameBytes l tr fpc npc resume runend, extractLsb'_ofNat64 (by decide) ?code,
    getLsbD_ofNat64 (by decide) hrpt, getLsbD_ofNat64 (by decide) hmulti, getLsbD_ofNat64 (by decide) hrunend,
    extractLsb'_ofNat64 (by decide) hlow, extractLsb'_ofNat64 (by decide) hk, extractLsb'_ofNat64 (by decide) hmid,
    extractLsb'_ofNat64 (by decide) hpreds, extractLsb'_ofNat64 (by decide) (by rw [hhigh]; rfl),
    BitVec.ofNat_toNat 64 fpc, BitVec.ofNat_toNat 64 tr.opc, BitVec.ofNat_toNat 64 npc, ofNat64_toNat resume,
    ofNat64_toNat tr.info0, ofNat64_toNat tr.info1, rfl, fun i hi => ?loop⟩
  case code => rw [Nat.pow_zero, Nat.div_one, hcode]
  case loop =>
    obtain ⟨hstart, hstop, hcount⟩ := frameWords_loop l tr fpc npc resume runend hi
    rw [hstart, hstop, hcount]
    exact ⟨ofNat_loopStart _, ofNat_loopStop _, ofNat_loopCount _⟩

end Sys2Proof
end

section
/-! SUPPORT. Returns from traps (R355): `rfe` accepts a frame as it was written, and takes its fields from it. -/
namespace Sys2Proof.Machine

variable (l : Lane) (tr : TrapInfo) (fpc npc : VAddr) (resume : W64) (runend : Bool)

theorem frameHead_lt : frameHead l tr runend < 2 ^ 64 := by
  obtain ⟨-, -, -, -, -, -, -, -, hhigh⟩ := frameHead_fields l tr runend
  omega

/-- Every word of a frame fits 64 bits. -/
theorem frameWords_lt (hloops : l.loops.length ≤ 4) : ∀ n ∈ frameWords l tr fpc npc resume runend, n < 2 ^ 64 := by
  have hfpc := fpc.isLt
  have hopc := tr.opc.isLt
  have hnpc := npc.isLt
  have hstart := fun i : Nat => loopStart_lt l.loops[i]?
  have hstop := fun i : Nat => loopStop_lt l.loops[i]?
  have hcount := fun i : Nat => loopCount_lt l.loops[i]?
  have haddr {n : Nat} (h : n < 2 ^ 56) : n < 2 ^ 64 := by omega
  have hword {n : Nat} (h : n < 2 ^ 32) : n < 2 ^ 64 := by omega
  simp only [frameWords, List.forall_mem_cons]
  exact ⟨frameHead_lt l tr runend, haddr hfpc, haddr hopc, haddr hnpc, resume.isLt, tr.info0.isLt, tr.info1.isLt, by omega,
    haddr (hstart 0), haddr (hstop 0), hword (hcount 0), haddr (hstart 1), haddr (hstop 1), hword (hcount 1),
    haddr (hstart 2), haddr (hstop 2), hword (hcount 2), haddr (hstart 3), haddr (hstop 3), hword (hcount 3),
    List.forall_mem_nil _⟩

/-- A word of a frame is read as it was written. -/
theorem frame_word (hloops : l.loops.length ≤ 4) (i : Nat) :
    ofBytes (((frameBytes l tr fpc npc resume runend).drop (8 * i)).take 8) =
      (frameWords l tr fpc npc resume runend).getD i 0 := by
  rw [frameBytes_eq_words, ofBytes_word]
  refine Nat.mod_eq_of_lt ?_
  by_cases hi : i < (frameWords l tr fpc npc resume runend).length
  · rw [List.getD_eq_getElem?_getD, List.getElem?_eq_getElem hi, Option.getD_some]
    exact frameWords_lt l tr fpc npc resume runend hloops _ (List.getElem_mem hi)
  · rw [List.getD_eq_getElem?_getD, List.getElem?_eq_none (Nat.not_lt.mp hi), Option.getD_none]
    exact Nat.two_pow_pos 64

/-- No address of a frame has a bit above 55. -/
theorem frame_addresses_fit : ([1, 2, 3, 8, 9, 11, 12, 14, 15, 17, 18].any fun i =>
    fieldN ((frameWords l tr fpc npc resume runend).getD i 0) 63 56 != 0) = false := by
  have hfits : ∀ i ∈ [1, 2, 3, 8, 9, 11, 12, 14, 15, 17, 18],
      fieldN ((frameWords l tr fpc npc resume runend).getD i 0) 63 56 = 0 := by
    simp only [List.forall_mem_cons]
    exact ⟨fieldN_eq_zero fpc.isLt, fieldN_eq_zero tr.opc.isLt, fieldN_eq_zero npc.isLt,
      fieldN_eq_zero (loopStart_lt _), fieldN_eq_zero (loopStop_lt _), fieldN_eq_zero (loopStart_lt _),
      fieldN_eq_zero (loopStop_lt _), fieldN_eq_zero (loopStart_lt _), fieldN_eq_zero (loopStop_lt _),
      fieldN_eq_zero (loopStart_lt _), fieldN_eq_zero (loopStop_lt _), List.forall_mem_nil _⟩
  exact List.any_eq_false.mpr fun i hi => by rw [hfits i hi]; decide

/-- No count of a frame has a bit above 31. -/
theorem frame_counts_fit : ([10, 13, 16, 19].any fun i =>
    fieldN ((frameWords l tr fpc npc resume runend).getD i 0) 63 32 != 0) = false := by
  have hfits : ∀ i ∈ [10, 13, 16, 19], fieldN ((frameWords l tr fpc npc resume runend).getD i 0) 63 32 = 0 := by
    simp only [List.forall_mem_cons]
    exact ⟨fieldN_eq_zero (loopCount_lt _), fieldN_eq_zero (loopCount_lt _), fieldN_eq_zero (loopCount_lt _),
      fieldN_eq_zero (loopCount_lt _), List.forall_mem_nil _⟩
  exact List.any_eq_false.mpr fun i hi => by rw [hfits i hi]; decide

/-- The loop stack that the words of a frame give. -/
theorem frame_loops (hloops : l.loops.length ≤ 4) (hstart : ∀ e ∈ l.loops, e.start.toNat % 8 = 0) :
    ((List.range l.loops.length).map fun i =>
      ({ start := BitVec.ofNat 56 ((frameWords l tr fpc npc resume runend).getD (8 + 3 * i) 0 / 8 * 8)
         stop := BitVec.ofNat 56 ((frameWords l tr fpc npc resume runend).getD (9 + 3 * i) 0)
         count := BitVec.ofNat 32 ((frameWords l tr fpc npc resume runend).getD (10 + 3 * i) 0) } : LoopEntry)) = l.loops := by
  refine List.ext_getElem (by rw [List.length_map, List.length_range]) fun i hi hl => ?_
  obtain ⟨h1, h2, h3⟩ := frameWords_loop l tr fpc npc resume runend (Nat.lt_of_lt_of_le hl hloops)
  have haligned : l.loops[i].start.toNat / 8 * 8 = l.loops[i].start.toNat :=
    Nat.div_mul_cancel (Nat.dvd_of_mod_eq_zero (hstart _ (List.getElem_mem hl)))
  rw [List.getElem_map, List.getElem_range, h1, h2, h3, List.getElem?_eq_getElem hl]
  simp only [loopStart, loopStop, loopCount, haligned, BitVec.ofNat_toNat, BitVec.setWidth_eq]

/-- The fields of word 0 that `rfe` looks at: no reserved bit is set, and the predicates are those of the lane. -/
theorem frameHead_read :
    fieldN (frameHead l tr runend) 63 56 = 0 ∧ fieldN (frameHead l tr runend) 31 29 = 0 ∧
    fieldN (frameHead l tr runend) 15 11 = 0 ∧ fieldN (frameHead l tr runend) 55 32 = l.preds.toNat := by
  obtain ⟨-, -, -, -, hlow, -, hmid, hpreds, hhigh⟩ := frameHead_fields l tr runend
  simp only [fieldN, Nat.shiftRight_eq_div_pow]
  exact ⟨(congrArg (· % 2 ^ 8) hhigh).trans (Nat.zero_mod _), hmid, hlow, hpreds⟩

end Sys2Proof.Machine

namespace Sys2Proof

open Sys2Proof.Machine

/-- Settles O38: `rfe` finds no reserved bit in the frame, and each field as the trap wrote it. -/
theorem returnUndoesTrap : Obligations.ReturnUndoesTrap := by
  intro l tr fpc npc handler hprio resume runend hloops hstart hhnd
  obtain ⟨hhigh, hmid, hlow, hpreds⟩ := frameHead_read l tr runend
  have hhead : (frameWords l tr fpc npc resume runend).getD 0 0 = frameHead l tr runend := rfl
  have hdepth : (frameWords l tr fpc npc resume runend).getD 7 0 = l.loops.length := rfl
  have hresume : (frameWords l tr fpc npc resume runend).getD 4 0 = resume.toNat := rfl
  have hdepth_fits : fieldN l.loops.length 63 3 = 0 := fieldN_eq_zero (by omega)
  simp only [frameLane, frame_word l tr fpc npc resume runend hloops, hhead, hdepth, hresume, hhigh, hmid, hlow, hpreds,
    frame_addresses_fit, frame_counts_fit, hdepth_fits, frame_loops l tr fpc npc resume runend hloops hstart,
    bne_self_eq_false, Bool.or_self, decide_eq_false (Nat.not_lt.mpr hloops), Bool.false_eq_true, if_false,
    BitVec.sub_add_cancel, BitVec.ofNat_toNat, BitVec.setWidth_eq, hhnd]

end Sys2Proof
end

section
/-! SUPPORT. Reads and writes at the homes of device memory, and the translation of addresses, leave every lane as it is
but for its monitor (R247): an injection flips bits of what it writes (R376), here of the stack's arrays alone. So a word
finds the same operands after the look-up of its context's descriptor (R312) as before it. -/
namespace Sys2Proof.Machine

/-- A lane without what it watches. -/
def Lane.unwatched (l : Lane) : Lane := { l with monitor := none }

/-- The lanes of every group without what they watch, team by team. -/
def State.laneFiles (s : State) : List (Nat × List (List Lane)) :=
  s.teams.map fun t => (t.id, t.groups.map fun g => g.lanes.map Lane.unwatched)

-- what the lanes decide

theorem lane?_unwatched (s : State) (team g slot : Nat) : (s.lane? team g slot).map Lane.unwatched =
    ((s.laneFiles.find? fun p => p.1 == team).bind fun p => p.2[g]?).bind fun ls => ls[slot]? := by
  simp only [State.lane?, State.group?, State.team?, State.laneFiles, List.find?_map, Function.comp_def,
    Option.bind_map, Option.bind_assoc, List.getElem?_map, Option.map_bind]

theorem lane_unwatched_eq {s t : State} (he : t.laneFiles = s.laneFiles) (u : Bun) (j : Nat) :
    (t.lane u j).unwatched = (s.lane u j).unwatched := by
  have hlane (s : State) : (s.lane u j).unwatched =
      ((s.lane? u.team u.group j).map Lane.unwatched).getD emptyLane := by
    rw [State.lane]
    cases s.lane? u.team u.group j <;> rfl
  rw [hlane, hlane, lane?_unwatched, lane?_unwatched, he]

/-- Every register of a lane reads the same. -/
theorem reg_eq_of_laneFiles {s t : State} (he : t.laneFiles = s.laneFiles) (u : Bun) (j n : Nat) :
    (t.lane u j).reg n = (s.lane u j).reg n :=
  show (t.lane u j).unwatched.reg n = (s.lane u j).unwatched.reg n by rw [lane_unwatched_eq he u j]

theorem pair_eq_of_laneFiles {s t : State} (he : t.laneFiles = s.laneFiles) (u : Bun) (j n : Nat) :
    (t.lane u j).pair n = (s.lane u j).pair n :=
  show (t.lane u j).unwatched.pair n = (s.lane u j).unwatched.pair n by rw [lane_unwatched_eq he u j]

-- folds

theorem laneFiles_foldl {α : Type} {f : State → α → State} (hf : ∀ s a, (f s a).laneFiles = s.laneFiles) (l : List α)
    (s : State) : (l.foldl f s).laneFiles = s.laneFiles := by
  induction l generalizing s with
  | nil => rfl
  | cons a l ih => exact (ih _).trans (hf s a)

theorem laneFiles_foldl_fst {α β : Type} {f : State × β → α → State × β}
    (hf : ∀ r a, (f r a).1.laneFiles = r.1.laneFiles) (l : List α) (r : State × β) :
    (l.foldl f r).1.laneFiles = r.1.laneFiles := by
  induction l generalizing r with
  | nil => rfl
  | cons a l ih => exact (ih _).trans (hf r a)

-- changes of the state

variable (s : State)

@[simp] theorem laneFiles_with_mem (m : Memory) : State.laneFiles { s with mem := m } = s.laneFiles := rfl

@[simp] theorem laneFiles_with_priv (p : Priv) : State.laneFiles { s with priv := p } = s.laneFiles := rfl

@[simp] theorem laneFiles_with_ilog (x : IntegrityLog) : State.laneFiles { s with ilog := x } = s.laneFiles := rfl

@[simp] theorem updStack_laneFiles (k : Nat) (f : Stack → Stack) : (s.updStack k f).laneFiles = s.laneFiles := rfl

@[simp] theorem setFlips_laneFiles (kind unit addr : Nat) (bits : List Nat) :
    (s.setFlips kind unit addr bits).laneFiles = s.laneFiles := rfl

/-- A change of what the lanes of a thread watch. -/
theorem updTid_laneFiles {f : Lane → Lane} (hf : ∀ l, (f l).unwatched = l.unwatched) (team tid : Nat) :
    (s.updTid team tid f).laneFiles = s.laneFiles := by
  simp only [State.updTid, State.updTeam, State.laneFiles, List.map_map]
  refine List.map_congr_left fun t _ => ?_
  by_cases ht : t.id = team
  · simp only [Function.comp_def, ht, if_true, List.map_map]
    refine congrArg (Prod.mk team) (List.map_congr_left fun g _ => List.map_congr_left fun l _ => ?_)
    rw [apply_ite Lane.unwatched, hf, ite_self]
  · simp only [Function.comp_def, ht, if_false]

@[simp] theorem keepCheck_laneFiles (k line : Nat) : (s.keepCheck k line).laneFiles = s.laneFiles := by
  unfold State.keepCheck
  dsimp only
  split <;> rfl

/-- Flipping data of an array that is no core's: a register file is array 0. -/
@[simp] theorem flipData_laneFiles {kind : Nat} (hk : 4 < kind) (unit addr d : Nat) :
    (s.flipData kind unit addr d).laneFiles = s.laneFiles := by
  unfold State.flipData
  dsimp only
  split
  · omega
  · omega
  · rfl
  · omega
  · exact laneFiles_foldl (fun s c => by simp) _ _
  · split
    · rfl
    · exact keepCheck_laneFiles s _ _
  · rfl

@[simp] theorem addFlips_laneFiles {kind : Nat} (hk : 4 < kind) (unit addr : Nat) (bits : List Nat) :
    (s.addFlips kind unit addr bits).laneFiles = s.laneFiles := by
  refine laneFiles_foldl (fun s b => ?_) _ _
  by_cases hb : b < if kind = 6 then 256 else 64
  · rw [if_pos hb, flipData_laneFiles _ hk]
  · rw [if_neg hb]

-- the arrays

@[simp] theorem sramCheck_laneFiles (kind unit ctx addr : Nat) :
    (s.sramCheck kind unit ctx addr).1.laneFiles = s.laneFiles := by
  unfold State.sramCheck
  dsimp only
  split <;> rfl

@[simp] theorem sramWrite_laneFiles {kind : Nat} (hk : 4 < kind) (unit ctx addr n : Nat) (read : Bool) :
    (s.sramWrite kind unit ctx addr n read).laneFiles = s.laneFiles := by
  unfold State.sramWrite
  dsimp only
  generalize hc : List.foldl _ s (codewords addr n) = clean
  have hclean : clean.laneFiles = s.laneFiles := by
    rw [← hc]
    refine laneFiles_foldl (fun s a => ?_) _ _
    cases read <;>
      simp only [apply_ite State.laneFiles, setFlips_laneFiles, sramCheck_laneFiles, ite_self,
        if_true, Bool.false_eq_true, if_false]
  split
  · exact hclean
  · split
    · exact hclean
    · exact (addFlips_laneFiles _ hk ..).trans hclean

@[simp] theorem dramCheck_laneFiles (k ctx spa : Nat) : (s.dramCheck k ctx spa).1.laneFiles = s.laneFiles := by
  unfold State.dramCheck
  dsimp only
  split <;> rfl

@[simp] theorem putPoison_laneFiles (k line : Nat) (words : List Nat) :
    (s.putPoison k line words).laneFiles = s.laneFiles := rfl

@[simp] theorem dropClean_laneFiles (k line : Nat) : (s.dropClean k line).laneFiles = s.laneFiles := by
  unfold State.dropClean
  dsimp only
  split
  · rfl
  · rw [updStack_laneFiles, laneFiles_foldl fun s j => setFlips_laneFiles s _ _ _ _, laneFiles_with_mem]

@[simp] theorem directoryError_laneFiles (k line ctx : Nat) :
    (s.directoryError k line ctx).1.laneFiles = s.laneFiles := by
  unfold State.directoryError
  dsimp only
  split
  · simp
  · split <;> simp

@[simp] theorem cacheErrors_laneFiles (k line ctx : Nat) : (s.cacheErrors k line ctx).1.laneFiles = s.laneFiles := by
  refine (laneFiles_foldl_fst (fun r j => ?_) _ _).trans (directoryError_laneFiles ..)
  split
  · rfl
  · dsimp only
    split
    · simp
    · split <;> simp

@[simp] theorem dramErrors_laneFiles (k line ctx : Nat) : (s.dramErrors k line ctx).1.laneFiles = s.laneFiles := by
  refine laneFiles_foldl_fst (fun r j => ?_) _ _
  dsimp only
  split <;> simp

@[simp] theorem storeDram_laneFiles (k line : Nat) : (s.storeDram k line).laneFiles = s.laneFiles := by
  refine laneFiles_foldl (fun s j => ?_) _ _
  dsimp only
  split <;> rfl

@[simp] theorem writeBack_laneFiles (k line : Nat) : (s.writeBack k line).laneFiles = s.laneFiles := by
  unfold State.writeBack
  split
  · rfl
  · dsimp only
    split <;> simp

@[simp] theorem vacate_laneFiles (k line : Nat) : (s.vacate k line).laneFiles = s.laneFiles := by
  unfold State.vacate
  dsimp only
  rw [laneFiles_foldl fun s j => setFlips_laneFiles s _ _ _ _, updStack_laneFiles, laneFiles_foldl fun s c => by simp]

@[simp] theorem allocLine_laneFiles (k line : Nat) : (s.allocLine k line).laneFiles = s.laneFiles := by
  unfold State.allocLine
  split
  · rfl
  · exact vacate_laneFiles ..

@[simp] theorem fireMain_laneFiles (k line : Nat) : (s.fireMain k line).laneFiles = s.laneFiles := by
  unfold State.fireMain
  dsimp only
  split
  · rfl
  · refine laneFiles_foldl (fun s w => ?_) _ _
    exact updTid_laneFiles s (by intro l; rfl) _ _

@[simp] theorem dropUnitLine_laneFiles (k line : Nat) : (s.dropUnitLine k line).laneFiles = s.laneFiles := rfl

-- homes

@[simp] theorem lineStore_laneFiles (k spa : Nat) (data : List Byte) (who : Writer) (ia ctx : Nat) (evp : BitVec 2)
    (poison : Bool) (bad : List Nat) (at_ : Option W64) :
    (s.lineStore k spa data who ia ctx evp poison bad at_).laneFiles = s.laneFiles := by
  unfold State.lineStore
  dsimp only
  rw [fireMain_laneFiles]
  split <;> simp

@[simp] theorem hostWrote_laneFiles : s.hostWrote.laneFiles = s.laneFiles := rfl

@[simp] theorem recall_laneFiles (k line : Nat) : (s.recall k line).laneFiles = s.laneFiles := by
  unfold State.recall
  split
  · rfl
  · dsimp only
    split <;> simp

@[simp] theorem hostPut_laneFiles (a : Nat) (data : List Byte) : (s.hostPut a data).laneFiles = s.laneFiles := rfl

@[simp] theorem integrity_laneFiles (agent kind line inc port : Nat) :
    (s.integrity agent kind line inc port).laneFiles = s.laneFiles := by
  unfold State.integrity
  dsimp only
  split <;> simp only [laneFiles_with_ilog, hostPut_laneFiles]

@[simp] theorem lineErrors_laneFiles (k line ctx ia : Nat) (exits hops : Bool) :
    (s.lineErrors k line ctx ia exits hops).1.laneFiles = s.laneFiles := by
  unfold State.lineErrors
  simp only [apply_ite Prod.fst, apply_ite State.laneFiles, updStack_laneFiles, integrity_laneFiles, recall_laneFiles,
    cacheErrors_laneFiles, dramErrors_laneFiles, ite_self]

@[simp] theorem fill_laneFiles (k line ctx : Nat) (evp : BitVec 2) :
    (s.fill k line ctx evp).laneFiles = s.laneFiles := by
  unfold State.fill
  dsimp only
  split <;> simp

@[simp] theorem devRead_laneFiles (k spa n ctx ia : Nat) (exits : Bool) (evp : Option (BitVec 2)) (hops : Bool) :
    (s.devRead k spa n ctx ia exits evp hops).1.laneFiles = s.laneFiles := by
  refine laneFiles_foldl_fst (fun r p => ?_) _ _
  dsimp only
  cases evp with
  | none => simp
  | some v =>
    dsimp only
    split <;> simp

-- translation

@[simp] theorem tableWord_laneFiles (k spa : Nat) : (s.tableWord k spa).1.laneFiles = s.laneFiles := by
  simp [State.tableWord]

@[simp] theorem entryAt_laneFiles (k level ia table : Nat) :
    (s.entryAt k level ia table).1.laneFiles = s.laneFiles := by
  unfold State.entryAt
  split
  · rfl
  · exact tableWord_laneFiles ..

@[simp] theorem keepWalk_laneFiles (k level ia : Nat) (e : W64) :
    (s.keepWalk k level ia e).laneFiles = s.laneFiles := rfl

@[simp] theorem walkFrom_laneFiles (k ia fuel level table : Nat) :
    (s.walkFrom k ia fuel level table).1.laneFiles = s.laneFiles := by
  induction fuel generalizing s level table with
  | zero => rfl
  | succ fuel ih =>
    unfold State.walkFrom
    dsimp only
    split
    · simp
    · split
      · simp
      · split
        · simp
        · simp [ih]

@[simp] theorem codeFrames_laneFiles (k : Nat) (e : W64) (big : Bool) :
    (s.codeFrames k e big).laneFiles = s.laneFiles := by
  unfold State.codeFrames
  dsimp only
  split <;> rfl

@[simp] theorem mapFrame_laneFiles (k f page : Nat) : (s.mapFrame k f page).laneFiles = s.laneFiles := rfl

@[simp] theorem mapFrames_laneFiles (k ia : Nat) (e : W64) (big : Bool) :
    (s.mapFrames k ia e big).laneFiles = s.laneFiles := by
  unfold State.mapFrames
  dsimp only
  split
  · exact laneFiles_foldl (fun s p => mapFrame_laneFiles s _ _ _) _ _
  · rfl

@[simp] theorem findLeaf_laneFiles (k ia : Nat) : (s.findLeaf k ia).1.laneFiles = s.laneFiles := by
  have hwalk := walkFrom_laneFiles s k ia 4 0 ((s.stack k).root.toNat % 2 ^ 36)
  unfold State.findLeaf
  split
  · rfl
  · split
    · next hw =>
      rw [hw] at hwalk
      dsimp only
      split <;> simpa using hwalk
    · next hw =>
      rw [hw] at hwalk
      exact hwalk
    · exact hwalk

@[simp] theorem dropNarrow_laneFiles (k ia : Nat) (p : Perm) : (s.dropNarrow k ia p).laneFiles = s.laneFiles := by
  unfold State.dropNarrow
  split
  · split <;> rfl
  · rfl

@[simp] theorem xlateIA_laneFiles (ia : Nat) (p : Perm) : (s.xlateIA ia p).1.laneFiles = s.laneFiles := by
  unfold State.xlateIA
  split
  · rfl
  · next k _ =>
    have hleaf := (findLeaf_laneFiles (s.dropNarrow k ia p) k ia).trans (dropNarrow_laneFiles ..)
    split
    · next hf =>
      rw [hf] at hleaf
      split
      · exact hleaf
      · split <;> exact hleaf
    · next hf =>
      rw [hf] at hleaf
      exact hleaf

/-- Looking up a context's descriptor leaves the lanes as they are. -/
@[simp] theorem desc_laneFiles (c : Nat) : (s.desc c).1.laneFiles = s.laneFiles := by
  unfold State.desc
  split
  · rfl
  · have hx := xlateIA_laneFiles s (s.priv.ctxbase.toNat + 256 * c) permRead
    split
    · next hf =>
      rw [hf] at hx
      dsimp only
      split
      · dsimp only
        split <;> simpa using hx
      · exact hx
    · next hf =>
      rw [hf] at hx
      exact hx
end Sys2Proof.Machine
end

section
/-! SUPPORT. Words of the units beneath the stacks (R312-R351): where the operands of every issuing lane pass their checks
and there is room, each command is issued, or ends with what it finds. -/
namespace Sys2Proof.Machine

variable {s s1 s2 : State} {i : Instr} {h : Hdr} {x : Unt} {u : Bun} {t : Team} {d : List W64} {j : Nat} {js : List Nat}

-- checks at issue

theorem failAt_of_false {b : Bool} (a : W64) (hb : b = false) : failAt b a = none := by
  rw [failAt, hb, if_neg Bool.false_ne_true]

/-- Checks that pass in every listed lane leave no lane that fails. -/
theorem unitFails_eq_nil {slots : List Nat} {checks : List (Byte × UnitCheck)}
    (hok : ∀ c ∈ checks, ∀ j ∈ slots, c.2 (s.lane u j) = none) : s.unitFails u slots checks = [] := by
  induction checks with
  | nil => rfl
  | cons c cs ih =>
    obtain ⟨code, check⟩ := c
    have hnone : (slots.filterMap fun j => (check (s.lane u j)).map fun a => (j, trapAt code u.pc 0 a)) = [] :=
      List.filterMap_eq_nil_iff.mpr fun j hj => by
        have hpass : check (s.lane u j) = none := hok (code, check) List.mem_cons_self j hj
        rw [hpass, Option.map_none]
    rw [State.unitFails, hnone]
    exact ih fun c hc => hok c (List.mem_cons_of_mem _ hc)

section Checks

variable {l : Lane} {spans : List SpanReg} {slot : Lane → Nat} {size align ia : Nat} {pair : Lane → W64}
  {ok : Nat → Bool}

theorem slotCheck_of_fits (ha : slot l % align = 0) (hg : slot l + size ≤ t.shared) :
    (slotCheck s t slot size align).2 l = none := by
  refine failAt_of_false _ ?_
  rw [ha, (granted_sh_iff s t l.tid _ _).mpr hg]
  rfl

theorem spanCheck_of_seen (hi : spanXlate spans (pair l).toNat permRead = some ia) :
    (spanCheck spans pair).2 l = none :=
  failAt_of_false _ (by rw [hi]; rfl)

theorem windowCheck_of_seen (hi : spanXlate spans (pair l).toNat permRead = some ia) (hok : ok ia = true) :
    (windowCheck spans pair slot ok).2 l = none :=
  failAt_of_false _ (by rw [pairIA, hi, Option.getD_some, hok]; rfl)

end Checks

-- issue

/-- The state in which a word has issued a command for each live lane of P (R312), with the lane's slot and its size. -/
def State.issueAll (s : State) (u : Bun) (slot size : Nat → Nat) (make : Nat → State → Nat → CmdMould → State)
    (images : List Image) : State :=
  (u.plive.map fun j => (j, slot j, size j)).foldl (fun (s' : State) (j, a, n) =>
    make j s'.fresh.2 s'.fresh.1 (s'.fresh.2.mould u j s'.fresh.1 s.nextNum a n images))
    (s.fresh.2.raiseLines u.team .sh (slotLines (u.plive.map fun j => (slot j, size j))))

/-- Commands with room and no full line are issued (R227, R317). -/
theorem issueUnit_of_room {room : Bool} {slot size : Nat → Nat} {make : Nat → State → Nat → CmdMould → State}
    {images : List Image} (hroom : room = true)
    (hfull : t.local_.full (slotLines (u.plive.map fun j => (slot j, size j))) = false) :
    s.issueUnit u t room (u.plive.map fun j => (j, slot j, size j)) make images =
      .done (s.issueAll u slot size make images) [] := by
  have hslots : ((u.plive.map fun j => (j, slot j, size j)).map fun c => (c.2.1, c.2.2)) =
      u.plive.map fun j => (slot j, size j) := by rw [List.map_map]; rfl
  simp only [State.issueUnit, hslots, hroom, hfull, Bool.not_true, Bool.or_self, Bool.false_eq_true, if_false]
  rfl

-- rays, filters and hash grids

/-- The slots of the issuing lanes are aligned and in team memory (R313). -/
def State.SlotsFit (s : State) (u : Bun) (t : Team) (slot : Lane → Nat) (size align : Nat) : Prop :=
  ∀ j ∈ u.plive, slot (s.lane u j) % align = 0 ∧ slot (s.lane u j) + size ≤ t.shared

/-- The addresses of the issuing lanes lie in readable spans, at addresses that the window admits (R313). -/
def State.PairsSeen (s : State) (u : Bun) (spans : List SpanReg) (pair : Lane → W64) (ok : Nat → Bool) : Prop :=
  ∀ j ∈ u.plive, ∃ ia, spanXlate spans (pair (s.lane u j)).toNat permRead = some ia ∧ ok ia = true

/-- The checks of slot, span and window, which these words share, pass. -/
theorem checks_pass {slot : Lane → Nat} {size align : Nat} {pair : Lane → W64} {ok : Nat → Bool} {spans : List SpanReg}
    (hfits : s.SlotsFit u t slot size align) (hseen : s.PairsSeen u spans pair ok) :
    ∀ c ∈ [slotCheck s t slot size align, spanCheck spans pair, windowCheck spans pair slot ok],
      ∀ j ∈ u.plive, c.2 (s.lane u j) = none := by
  simp only [List.forall_mem_cons]
  refine ⟨fun j hj => ?slot, fun j hj => ?span, fun j hj => ?window, List.forall_mem_nil _⟩
  case slot => exact slotCheck_of_fits (hfits j hj).1 (hfits j hj).2
  case span =>
    obtain ⟨ia, hia, -⟩ := hseen j hj
    exact spanCheck_of_seen hia
  case window =>
    obtain ⟨ia, hia, hok⟩ := hseen j hj
    exact windowCheck_of_seen hia hok

section Issue

variable (ht : s.team? u.team = some t) (hd : s.desc u.ctx = (s1, d)) (hp : u.plive ≠ [])
include ht hd hp

/-- `ray` with messages that pass their checks (R312, R313, R322). -/
theorem execRay_of_checks {size : Nat} (hsize : size = if x.mode = 2 then 512 else 32) (hr : Ready s (.ray h x) h u)
    (hfits : s1.SlotsFit u t (fun l => (l.reg x.d.toNat).toNat) size size)
    (hseen : s1.PairsSeen u (descSpans d) (fun l => l.pair x.b.toNat) sceneIA)
    (hmsg : ∀ j ∈ u.plive, ((s1.lane u j).reg (x.a.toNat + 8)).toNat < 16 ∧
      fieldN ((s1.lane u j).reg (x.a.toNat + 9)).toNat 15 8 = 0 ∧ ((s1.lane u j).reg (x.a.toNat + 10)).toNat < 2 ^ 16)
    (hload : s1.rayLoad u.core + u.plive.length ≤ 2048)
    (hfull : t.local_.full (slotLines (u.plive.map fun j => (((s1.lane u j).reg x.d.toNat).toNat, size))) = false) :
    execRay h x s = .next (s.afterWord (s1.issueAll u (fun j => ((s1.lane u j).reg x.d.toNat).toNat) (fun _ => size)
      (fun j s' _ c => s'.sendRay c x.mode.toNat (pairIA (descSpans d) ((s'.lane u j).pair x.b.toNat))
        ((s'.lane u j).run x.a.toNat 11)) (spanImages (descSpans d))) (.ray h x) u [] h.sw) := by
  subst hsize
  have hreserved (j : Nat) (hj : j ∈ u.plive) : (((s1.lane u j).reg (x.a.toNat + 8)).toNat / 16 != 0 ||
      fieldN ((s1.lane u j).reg (x.a.toNat + 9)).toNat 15 8 != 0 ||
      ((s1.lane u j).reg (x.a.toNat + 10)).toNat / 2 ^ 16 != 0) = false := by
    obtain ⟨h8, h9, h10⟩ := hmsg j hj
    rw [Nat.div_eq_of_lt h8, h9, Nat.div_eq_of_lt h10]
    rfl
  have hpass := checks_pass hfits hseen
  simp only [List.forall_mem_cons] at hpass
  obtain ⟨hslot, hspan, hwindow, -⟩ := hpass
  refine runWord_done_noRegs hr ?_ fun _ => rfl
  simp only [ht, hd]
  rw [unitFails_eq_nil (by
    simp only [List.forall_mem_cons]
    exact ⟨hslot, hspan, hwindow, fun j hj => failAt_of_false _ (hreserved j hj), List.forall_mem_nil _⟩)]
  simp only [List.isEmpty_nil, List.isEmpty_eq_false_iff.mpr hp, Bool.not_true, Bool.false_eq_true, if_false]
  exact issueUnit_of_room (decide_eq_true hload) hfull

/-- A sampler's command of a lane is at the end of the queue of the units (R335, R338). -/
def State.sendSampler (s : State) (u : Bun) (x : Unt) (spans : List SpanReg) (hash : Bool) (n j : Nat) (c : CmdMould) :
    State :=
  let ia := pairIA spans ((s.lane u j).pair x.b.toNat)
  { s with gauze := s.gauze ++
      [{ cmd := c, hash := hash, stack := ia / 2 ^ 44 % 8, desc := ia, coords := (s.lane u j).run x.a.toNat n }] }

/-- `filt` and `hgrid` with operands that pass their checks (R312, R313, R317). -/
theorem gauzeWord_of_checks {hash : Bool} {size align n : Nat} (hr : Ready s i h u) (hw : ∀ l, registersWritten i l = [])
    (hfits : s1.SlotsFit u t (fun l => (l.reg x.d.toNat).toNat) size align)
    (hseen : s1.PairsSeen u (descSpans d) (fun l => l.pair x.b.toNat) (localIA 64))
    (hload : s1.gauzeLoad u.core + u.plive.length ≤ 4096)
    (hfull : t.local_.full (slotLines (u.plive.map fun j => (((s1.lane u j).reg x.d.toNat).toNat, size))) = false) :
    s.gauzeWord i h x hash size align n =
      .next (s.afterWord (s1.issueAll u (fun j => ((s1.lane u j).reg x.d.toNat).toNat) (fun _ => size)
        (fun j s' _ c => s'.sendSampler u x (descSpans d) hash n j c) (spanImages (descSpans d))) i u [] h.sw) := by
  refine runWord_done_noRegs hr ?_ hw
  simp only [ht, hd]
  rw [unitFails_eq_nil (checks_pass hfits hseen)]
  simp only [List.isEmpty_nil, List.isEmpty_eq_false_iff.mpr hp, Bool.not_true, Bool.false_eq_true, if_false]
  exact issueUnit_of_room (decide_eq_true hload) hfull

end Issue

-- treelets

/-- The operands of a treelet command in the lowest live lane of P, after the look-up of the context's descriptor: its slot,
scene and treelet, which pass the checks of R313, with a credit and no full line (R227, R317). -/
structure TreeOperands (s s1 : State) (u : Bun) (x : Unt) (t : Team) (d : List W64) (j slot scene k : Nat) : Prop where
  team : s.team? u.team = some t
  desc : s.desc u.ctx = (s1, d)
  slot_eq : slot = ((s1.lane u j).reg x.d.toNat).toNat
  scene_eq : scene = pairIA (descSpans d) ((s1.lane u j).pair x.a.toNat)
  index_eq : k = ((s1.lane u j).reg x.b.toNat).toNat % 2 ^ 16
  aligned : slot % 8 = 0
  fits : slot + 8 ≤ t.shared
  seen : ∃ ia, spanXlate (descSpans d) ((s1.lane u j).pair x.a.toNat).toNat permRead = some ia ∧ sceneIA ia = true
  credit : s1.treeLoad u.core < 16
  room : t.local_.full [slot / 128] = false

/-- The command that it makes. -/
def State.treeMould (s1 : State) (u : Bun) (d : List W64) (j slot : Nat) : CmdMould :=
  s1.fresh.2.mould u j s1.nextNum s1.nextNum slot 8 (spanImages (descSpans d))

/-- The state in which the command is issued. -/
def State.treeIssued (s1 : State) (u : Bun) (slot : Nat) : State := s1.fresh.2.raiseLines u.team .sh [slot / 128]

/-- The look-up of a descriptor leaves the operands of a lane as they are. -/
theorem reg_eq_of_desc (hd : s.desc u.ctx = (s1, d)) (n : Nat) : (s.lane u j).reg n = (s1.lane u j).reg n :=
  (reg_eq_of_laneFiles ((congrArg (fun p => p.1.laneFiles) hd).symm.trans (desc_laneFiles s u.ctx)) u j n).symm

theorem pair_eq_of_desc (hd : s.desc u.ctx = (s1, d)) (n : Nat) : (s.lane u j).pair n = (s1.lane u j).pair n :=
  (pair_eq_of_laneFiles ((congrArg (fun p => p.1.laneFiles) hd).symm.trans (desc_laneFiles s u.ctx)) u j n).symm

section Tree

variable {slot scene k : Nat} (hr : Ready s i h u) (hp : u.plive = j :: js)
  (ho : TreeOperands s s1 u x t d j slot scene k)
include hr hp ho

/-- A treelet command whose operands pass their checks does what its word makes of it. -/
theorem treeWord_of_operands {present : Bool} {make : Bun → Nat → Nat → State → CmdMould → Effect} {s' : State}
    (hw : ∀ l, registersWritten i l = [])
    (hpresent : present = true → s1.linesPresent u.team [(Space.sh, slot / 128)] = true)
    (hmake : make u scene k (s1.treeIssued u slot) (s1.treeMould u d j slot) = .done s' []) :
    s.treeWord i h x present make = .next (s.afterWord s' i u [] h.sw) := by
  obtain ⟨ht, hd, rfl, rfl, rfl, haligned, hfits, ⟨ia, hia, hok⟩, hcredit, hroom⟩ := ho
  have hnone : s1.unitFails u [j] [slotCheck s1 t (fun l => (l.reg x.d.toNat).toNat) 8 8,
      spanCheck (descSpans d) (fun l => l.pair x.a.toNat),
      windowCheck (descSpans d) (fun l => l.pair x.a.toNat) (fun l => (l.reg x.d.toNat).toNat) sceneIA] = [] := by
    refine unitFails_eq_nil ?_
    simp only [List.forall_mem_cons]
    exact ⟨⟨slotCheck_of_fits haligned hfits, List.forall_mem_nil _⟩, ⟨spanCheck_of_seen hia, List.forall_mem_nil _⟩,
      ⟨windowCheck_of_seen hia hok, List.forall_mem_nil _⟩, List.forall_mem_nil _⟩
  have hwait : (present && !s1.linesPresent u.team [(Space.sh, ((s1.lane u j).reg x.d.toNat).toNat / 128)]) = false := by
    cases present with
    | false => rfl
    | true => rw [hpresent rfl]; rfl
  refine onceWord_done_noRegs hr hp ht ?_ hw
  simp only [hd, hnone, reg_eq_of_desc hd, pair_eq_of_desc hd, hwait, decide_eq_false (Nat.not_le.mpr hcredit), hroom,
    Bool.or_self, Bool.false_eq_true, if_false]
  exact hmake

-- holds

/-- What `trhold` does with the entry of its treelet (R328). -/
def State.holdTreelet (s : State) (u : Bun) (c : CmdMould) (scene k : Nat) : Except (UnitErr × Nat) TreeEntry → State
  | .error (fail, version) => s.treeFail c version fail
  | .ok e => match s.holderOf scene k with
    | some holder =>
      if holder = u.team then (s.updHold scene k holder fun h => { h with granted := true }).treeDone c scene k e.version 0x00
      else s.treeDone c scene k e.version 0x01
    | none =>
      if 64 ≤ s.holdCount (treeStack k) then s.treeDone c scene k e.version 0x02
      else
        let hold : Hold := { scene := scene, treelet := k, team := u.team, draining := true, granted := false, cmd := c.num }
        let s3 := s.updStack (treeStack k) fun y => { y with holds := hold :: y.holds.filter fun h => !h.on scene k }
        { s3 with tcmds := s3.tcmds ++ [{ cmd := c, treelet := k, scene := scene, swap := none }] }

/-- `trhold` with operands that pass their checks (R312, R313, R328). -/
theorem execTrhold_of_operands (hi : i = .trhold h x) {r : Except (UnitErr × Nat) TreeEntry}
    (he : (s1.treeIssued u slot).treeEntry (s1.treeMould u d j slot) scene k = (s2, r)) :
    execTrhold h x s = .next (s.afterWord (s2.holdTreelet u (s1.treeMould u d j slot) scene k r) i u [] h.sw) := by
  subst hi
  refine treeWord_of_operands hr hp ho (fun _ => rfl) (fun hfalse => absurd hfalse Bool.false_ne_true) ?_
  simp only [he]
  cases r with
  | error err => rfl
  | ok e =>
    simp only [State.holdTreelet]
    cases s2.holderOf scene k with
    | some holder => by_cases hown : holder = u.team <;> simp only [hown, if_true, if_false]
    | none => by_cases hmany : 64 ≤ s2.holdCount (treeStack k) <;> simp only [hmany, if_true, if_false]

-- swaps

/-- `trswap` with operands that pass their checks, on a line that is present: it reads the new word and tries the swap
(R312, R313, R329). -/
theorem execTrswap_of_operands (hi : i = .trswap h x) {w : State} {data : List Byte} {sel : Option Nat}
    (hpresent : s1.linesPresent u.team [(Space.sh, slot / 128)] = true)
    (hw : ((s1.treeIssued u slot).noteRead u .sh [slot]).unitRead u.team .sh slot 8 = (w, data, sel)) :
    execTrswap h x s =
      .next (s.afterWord (w.trySwap (s1.treeMould u d j slot) scene k (ofBytes data) sel none) i u [] h.sw) := by
  subst hi
  refine treeWord_of_operands hr hp ho (fun _ => rfl) (fun _ => hpresent) ?_
  have hslot : (s1.treeMould u d j slot).slot = slot := rfl
  simp only [hslot, hw]

end Tree

section Swap

variable {c : CmdMould} {scene k word : Nat} {sel : Option Nat}

/-- What a swap does with the entry of its treelet (R329): `w` is the new word, `sel` the error of its read, and `spot` the
entry's place, as the state is that has found it. -/
def State.swapFound (s : State) (c : CmdMould) (scene k w : Nat) (sel : Option Nat) (spot : State × Option Nat) :
    Except (UnitErr × Nat) TreeEntry → State
  | .error (fail, version) => s.treeFail c version fail
  | .ok e =>
    if s.holderOf scene k ≠ some c.team then s.treeDone c scene k e.version 0x03
    else match sel with
      | some x => s.treeFail c e.version { code := 0x18, sel := BitVec.ofNat 64 x }
      | none =>
        if !swapWordOk scene k w then s.treeFail c e.version { code := 0x1A, sel := 0 }
        else match spot with
          | (s, none) => s.treeFail c e.version { code := 0x11, sel := 0 }
          | (s, some spa) => match s.unitNow (treeStack k) spa with
            | some time => s.swapTree c scene k spa w e time
            | none =>
              let s := s.unitClaim (treeStack k) (entryAddr scene k) c.num c.ctx (.unit spa)
              { s with tcmds := s.tcmds ++ [{ cmd := c, treelet := k, scene := scene, swap := some w }] }

/-- A swap that has no turn yet reads its treelet's entry. The readings stand under names of their own, so that the kernel
compares the two sides without evaluating them. -/
theorem trySwap_of_entry {r : Except (UnitErr × Nat) TreeEntry}
    (he : State.treeEntry { s with tcmds := s.tcmds.filter fun y => y.cmd.num != c.num } c scene k = (s2, r)) :
    s.trySwap c scene k word sel none =
      s2.swapFound c scene k word sel (s2.unitSpot c.images (treeStack k) (entryAddr scene k) 16 true) r := by
  obtain ⟨swap, hswap⟩ : ∃ f, f = State.trySwap := ⟨_, rfl⟩
  obtain ⟨entry, hentry⟩ : ∃ f, f = State.treeEntry := ⟨_, rfl⟩
  obtain ⟨spot, hspot⟩ : ∃ f, f = State.unitSpot := ⟨_, rfl⟩
  rw [← hswap, ← hspot]
  rw [← hentry] at he
  delta State.trySwap at hswap
  rw [← hentry, ← hspot] at hswap
  rw [hswap]
  simp only [he, Option.isSome_none, Bool.false_eq_true, if_false]
  rcases r with ⟨fail, version⟩ | e <;> rfl

variable {spot : State × Option Nat} {e : TreeEntry}

theorem swapFound_of_not_held (hh : s.holderOf scene k ≠ some c.team) :
    s.swapFound c scene k word sel spot (.ok e) = s.treeDone c scene k e.version 0x03 :=
  if_pos hh

variable (hh : s.holderOf scene k = some c.team)
include hh

theorem swapFound_of_bad_word (hw : swapWordOk scene k word = false) :
    s.swapFound c scene k word none spot (.ok e) = s.treeFail c e.version { code := 0x1A, sel := 0 } :=
  (if_neg (not_not_intro hh)).trans (if_pos (by rw [hw]; rfl))

variable {s3 : State} {spa : Nat} (hw : swapWordOk scene k word = true)
include hw

/-- A held treelet's entry whose place is found is swapped, or the swap waits for the leases on it (R273). -/
theorem swapFound_of_spot : s.swapFound c scene k word none (s3, some spa) (.ok e) =
    match s3.unitNow (treeStack k) spa with
    | some time => s3.swapTree c scene k spa word e time
    | none =>
      let claimed := s3.unitClaim (treeStack k) (entryAddr scene k) c.num c.ctx (.unit spa)
      { claimed with tcmds := claimed.tcmds ++ [{ cmd := c, treelet := k, scene := scene, swap := some word }] } :=
  (if_neg (not_not_intro hh)).trans (if_neg (by rw [hw]; decide))

end Swap

-- treelet status

/-- The result of `trstat` by the entry of its treelet (R330): its status, or the condition that the entry brings. -/
def State.treeStatResult (s : State) (u : Bun) (x : Unt) (scene k : Nat) : Except (UnitErr × Nat) TreeEntry → Result
  | .ok e => resultOf s.nextNum u.pc { writes := [(x.d.toNat, s.treeStat u.team scene k e.version)], flags := 0 }
  | .error (fail, _) =>
    { num := s.nextNum, pc := u.pc, need := .formed, writes := [], flags := 0, back := false,
      trap := some (trapAt fail.code u.pc fail.sel (if fail.code = 0x1A then 0 else BitVec.ofNat 64 (entryAddr scene k))) }

/-- `trstat` with operands that pass their checks (R313, R330). -/
theorem execTrstat_of_operands {scene k ia : Nat} {r : Except (UnitErr × Nat) TreeEntry} (hr : Ready s (.trstat h x) h u)
    (hp : u.plive = j :: js) (ht : s.team? u.team = some t) (hd : s.desc u.ctx = (s1, d))
    (hscene : scene = pairIA (descSpans d) ((s1.lane u j).pair x.a.toNat))
    (hk : k = ((s1.lane u j).reg x.b.toNat).toNat % 2 ^ 16)
    (hia : spanXlate (descSpans d) ((s1.lane u j).pair x.a.toNat).toNat permRead = some ia) (hok : sceneIA ia = true)
    (he : s1.treeEntry (s1.mould u j 0 0 0 0 (spanImages (descSpans d))) scene k = (s2, r)) :
    execTrstat h x s = .next (s.afterWord
      (s2.fresh.2.mapLanes u u.act fun _ l => l.addResult (s2.treeStatResult u x scene k r)) (.trstat h x) u [] h.sw) := by
  subst hscene hk
  have hnone : s1.unitFails u [j] [spanCheck (descSpans d) (fun l => l.pair x.a.toNat),
      windowCheck (descSpans d) (fun l => l.pair x.a.toNat) (fun _ => 0) sceneIA] = [] := by
    refine unitFails_eq_nil ?_
    simp only [List.forall_mem_cons]
    exact ⟨⟨spanCheck_of_seen hia, List.forall_mem_nil _⟩, ⟨windowCheck_of_seen hia hok, List.forall_mem_nil _⟩,
      List.forall_mem_nil _⟩
  refine onceWord_done_noRegs hr hp ht ?_ fun _ => rfl
  obtain ⟨entry, hentry⟩ : ∃ f, f = State.treeEntry := ⟨_, rfl⟩
  rw [← hentry] at he ⊢
  simp only [hd, hnone, reg_eq_of_desc hd, pair_eq_of_desc hd, he]
  cases r with
  | error err => rfl
  | ok e => rfl

-- bank programs

/-- The block that a lane's `bank` has read (R340). -/
def blockOf (blocks : List (Nat × BankBlock)) (j : Nat) : BankBlock := (lookupN blocks j).getD { bytes := [] }

/-- The bytes of the slot that a block asks for: the status line and its outputs (R340). -/
def BankBlock.slotSize (b : BankBlock) : Nat := 128 * (1 + min b.nout 4)

/-- The command of a block, with its addresses in the spans that the part captured (R315, R340). -/
def BankBlock.commandIn (b : BankBlock) (spans : List SpanReg) (c : CmdMould) : CalicoCmd :=
  b.command c (pairIA spans b.prog) (pairIA spans b.data)

/-- A block passes the checks of R313 and R340 in a lane: the slot, the spans of program and data, the fields. -/
structure State.BlockOk (s : State) (t : Team) (x : Unt) (spans : List SpanReg) (l : Lane) (b : BankBlock) : Prop where
  aligned : (l.reg x.d.toNat).toNat % 128 = 0
  granted : s.granted t l.tid .sh ((l.reg x.d.toNat).toNat : Int) b.slotSize = true
  prog : (spanXlate spans b.prog.toNat permRead).isSome = true
  data : (spanXlate spans b.data.toNat permRead).isSome = true
  fields : b.ok (pairIA spans b.prog) (pairIA spans b.data) = true

/-- A check that passes in every lane of P leaves none that fails. -/
theorem fails_eq_nil {slots : List Nat} {check : Nat → Option W64} {trap : Nat → W64 → Nat × TrapInfo}
    (hok : ∀ j ∈ slots, check j = none) : (slots.filterMap fun j => (check j).map (trap j)) = [] :=
  List.filterMap_eq_nil_iff.mpr fun j hj => by rw [hok j hj, Option.map_none]

/-- `bank` with blocks on present lines that pass their checks (R312, R313, R340). -/
theorem execBank_of_checks {blocks : List (Nat × BankBlock)} (ht : s.team? u.team = some t)
    (hd : s.desc u.ctx = (s1, d)) (hp : u.plive ≠ []) (hr : Ready s (.bank h x) h u)
    (hfits : s1.SlotsFit u t (fun l => (l.reg x.a.toNat).toNat) 384 128)
    (hpresent : s1.linesPresent u.team ((slotLines (u.plive.map fun j =>
      (((s1.lane u j).reg x.a.toNat).toNat, 384))).map fun n => (Space.sh, n)) = true)
    (hread : (s1.noteRead u .sh ((u.plive.map fun j => ((s1.lane u j).reg x.a.toNat).toNat).flatMap fun a =>
      [a, a + 128, a + 256])).readBlocks u (fun l => (l.reg x.a.toNat).toNat) u.plive [] [] = (s2, blocks, []))
    (hok : ∀ j ∈ u.plive, s2.BlockOk t x (descSpans d) (s2.lane u j) (blockOf blocks j))
    (hroom : s2.calicoRoom (u.plive.map fun j =>
      ((blockOf blocks j).commandIn (descSpans d) (s2.mould u j 0 0 0 0 [])).unit) = true)
    (hfull : t.local_.full (slotLines (u.plive.map fun j =>
      (((s2.lane u j).reg x.d.toNat).toNat, (blockOf blocks j).slotSize))) = false) :
    execBank h x s = .next (s.afterWord (s2.issueAll u (fun j => ((s2.lane u j).reg x.d.toNat).toNat)
      (fun j => (blockOf blocks j).slotSize)
      (fun j s' _ c => { s' with calico := s'.calico ++ [(blockOf blocks j).commandIn (descSpans d) c] })
      (spanImages (descSpans d))) (.bank h x) u [] h.sw) := by
  have hslots : (u.plive.filterMap fun j => (failAt (((s2.lane u j).reg x.d.toNat).toNat % 128 != 0 ||
      !s2.granted t (s2.lane u j).tid .sh (((s2.lane u j).reg x.d.toNat).toNat : Int)
        (128 * (1 + min (blockOf blocks j).nout 4))) (BitVec.ofNat 64 ((s2.lane u j).reg x.d.toNat).toNat)).map fun a => (j, trapAt 0x11 u.pc 0 a)) = [] :=
    fails_eq_nil fun j hj => failAt_of_false _ (by rw [(hok j hj).aligned]; exact congrArg (!·) (hok j hj).granted)
  have hprogs : (u.plive.filterMap fun j => (failAt (spanXlate (descSpans d) (blockOf blocks j).prog.toNat permRead).isNone
      (blockOf blocks j).prog).map fun a => (j, trapAt 0x11 u.pc 0 a)) = [] :=
    fails_eq_nil fun j hj => failAt_of_false _ (Option.isNone_eq_false_iff.mpr (hok j hj).prog)
  have hdatas : (u.plive.filterMap fun j => (failAt (spanXlate (descSpans d) (blockOf blocks j).data.toNat permRead).isNone
      (blockOf blocks j).data).map fun a => (j, trapAt 0x11 u.pc 0 a)) = [] :=
    fails_eq_nil fun j hj => failAt_of_false _ (Option.isNone_eq_false_iff.mpr (hok j hj).data)
  have hfields : (u.plive.filterMap fun j => (failAt (!(blockOf blocks j).ok (pairIA (descSpans d) (blockOf blocks j).prog)
      (pairIA (descSpans d) (blockOf blocks j).data)) (BitVec.ofNat 64 ((s2.lane u j).reg x.d.toNat).toNat)).map fun a =>
      (j, trapAt 0x1A u.pc 0 a)) = [] :=
    fails_eq_nil fun j hj => failAt_of_false _ (congrArg (!·) (hok j hj).fields)
  have hblock : s1.unitFails u u.plive [slotCheck s1 t (fun l => (l.reg x.a.toNat).toNat) 384 128] = [] :=
    unitFails_eq_nil (List.forall_mem_cons.mpr
      ⟨fun j hj => slotCheck_of_fits (hfits j hj).1 (hfits j hj).2, List.forall_mem_nil _⟩)
  simp only [blockOf, pairIA] at hslots hprogs hdatas hfields
  refine runWord_done_noRegs hr ?_ fun _ => rfl
  simp only [ht, hd, hblock, hpresent, hread, hslots, hprogs, hdatas, hfields, List.isEmpty_nil,
    List.isEmpty_eq_false_iff.mpr hp, Bool.not_true, Bool.false_eq_true, if_false, List.filter_nil, List.append_nil]
  exact issueUnit_of_room hroom hfull

end Sys2Proof.Machine

namespace Sys2Proof

open Sys2Proof.Machine

/-- Settles O33: the checks of each word pass, and its commands are issued, or end by the entry of their treelet. -/
theorem unitWordsIssue : Obligations.UnitWordsIssue := by
  intro h x s u t ht
  rcases hd : s.desc u.ctx with ⟨s1, d⟩
  dsimp only
  intro hp
  refine ⟨?ray, ?filt, ?hgrid, ?trhold, ?trswap, ?trstat, ?bank⟩
  case ray =>
    intro hr hfits hseen hmsg hload hfull
    exact (exec_ray h x s).trans (execRay_of_checks ht hd hp rfl hr hfits hseen hmsg hload hfull)
  case filt =>
    intro hr hfits hseen hload hfull
    exact (exec_filt h x s).trans (gauzeWord_of_checks ht hd hp hr (fun _ => rfl) hfits hseen hload hfull)
  case hgrid =>
    intro hr hfits hseen hload hfull
    exact (exec_hgrid h x s).trans (gauzeWord_of_checks ht hd hp hr (fun _ => rfl) hfits hseen hload hfull)
  case trhold =>
    intro j js r s2 hp hr ha hg hseen hload hfull he
    exact (exec_trhold h x s).trans
      (execTrhold_of_operands hr hp ⟨ht, hd, rfl, rfl, rfl, ha, hg, hseen, hload, hfull⟩ rfl he)
  case trswap =>
    intro j js r s2 w data sel hp hr ha hg hseen hpresent hload hfull hw he
    have hswap := (exec_trswap h x s).trans
      (execTrswap_of_operands hr hp ⟨ht, hd, rfl, rfl, rfl, ha, hg, hseen, hload, hfull⟩ rfl hpresent hw)
    rw [State.treeMould] at hswap
    have hfound := hswap.trans (congrArg (fun t => Host.Outcome.next (s.afterWord t (.trswap h x) u [] h.sw))
      (trySwap_of_entry he))
    refine ⟨fun fail version hbad => ?_, fun e hgood => ⟨fun hh => ?_, fun hh hsel hword => ?_,
      fun s3 spa hh hsel hword hspot => ⟨fun time hn => ?_, fun hn => ?_⟩⟩⟩
    · subst hbad; exact hfound
    · subst hgood; rwa [swapFound_of_not_held hh] at hfound
    · subst hgood hsel; rwa [swapFound_of_bad_word hh hword] at hfound
    · subst hgood hsel; rwa [hspot, swapFound_of_spot hh hword, hn] at hfound
    · subst hgood hsel; rwa [hspot, swapFound_of_spot hh hword, hn] at hfound
  case trstat =>
    intro j js r s2 hp hr hseen he
    obtain ⟨ia, hia, hok⟩ := hseen
    have hstat := (exec_trstat h x s).trans (execTrstat_of_operands hr hp ht hd rfl rfl hia hok he)
    exact ⟨fun e hgood => by subst hgood; exact hstat, fun fail version hbad => by subst hbad; exact hstat⟩
  case bank =>
    intro blocks s2 hr hfits hpresent hread hok hroom hfull
    refine (exec_bank h x s).trans (execBank_of_checks ht hd hp hr hfits hpresent hread (fun j hj => ?_) hroom hfull)
    obtain ⟨ha, hg, hprog, hdata, hfields⟩ := hok j hj
    exact ⟨ha, hg, hprog, hdata, hfields⟩

end Sys2Proof
end
